-- ==== Sys2Proof/Word.lean ====
section
/-! DEFINITION. Words, bytes and the plainest bit arithmetic on them (R4, R9). -/

namespace Sys2Proof

/-- A byte. -/
abbrev Byte := BitVec 8
/-- A 32-bit register value. -/
abbrev W32 := BitVec 32
/-- A 64-bit register, address or counter. -/
abbrev W64 := BitVec 64

/-- `x<h:l>` of the pseudocode (R9), `n` bits from bit `l`. -/
abbrev bits (x l n : Nat) : Nat := (x >>> l) % 2 ^ n

/-- `x<n>` of the pseudocode (R9). -/
abbrev bit (x n : Nat) : Bool := x.testBit n

/-- The value of the low `w` bits of `x` as two's complement (R58). -/
def toSigned (w x : Nat) : Int :=
  let y := x % 2 ^ w
  if 2 ^ w ≤ 2 * y then (y : Int) - (2 ^ w : Nat) else y

/-- The low `w` bits of an exact integer (R10). -/
def wrap (w : Nat) (i : Int) : Nat := (i % ((2 ^ w : Nat) : Int)).toNat

/-- ceil(a / b). -/
def ceilDiv (a b : Nat) : Nat := (a + b - 1) / b

end Sys2Proof
end

