-- ==== Sys2Proof/Config.lean ====
section
/-! DEFINITION. What the spec leaves open: free values. Nothing constrains them (logs 2, 8, 12, 13). -/

namespace Sys2Proof.Config

/-- Contents of a v register that nothing has written since placement (R50), by placement seed and index. -/
opaque undefReg : Nat → Nat → W32
/-- Predicates at placement (R50), by placement seed and index. -/
opaque undefPred : Nat → Nat → Bool
/-- Index registers at placement (R50), by placement seed and index. -/
opaque undefX : Nat → Nat → W32
/-- Byte of a scratchpad, accumulator store or vault that nothing has written since its contents became
undefined (R50, R97, R290), by seed and offset. -/
opaque undefByte : Nat → Nat → Byte
/-- The free choice of the device between two allowed behaviours, by choice number. -/
opaque choice : Nat → Bool
/-- FRCP and FRSQ deliver one of two neighbours (R202): true takes the upper; by operand. -/
opaque frcpUp : W32 → Bool
opaque frsqUp : W32 → Bool
/-- The results the device's tables give within the bounds of R202, by operand. -/
opaque fexp2 : W32 → W32
opaque flog2 : W32 → W32
opaque fsin : W32 → W32
opaque fcos : W32 → W32
opaque ftanh : W32 → W32
opaque drcp : W64 → W64
/-- Words delivered where the spec gives no value, by free-value number. -/
opaque freeWord : Nat → W64
/-- The CRC-64 of a flit (R361), whose polynomial the spec does not state. -/
opaque crc64 : List Byte → W64
/-- Bytes that the security processor holds (R29, R370), by index and position: 0 the certificate chain of slot 0, 1 the
digest of the boot ROM, 4 the digest of the fuse configuration. -/
opaque measurement : Nat → Nat → Byte
/-- The device's ECDSA P-256 signature of bytes, by position (R29, R370). -/
opaque signature : List Byte → Nat → Byte
/-- The Yelvel key whose digest is fused, a point of P-256, and the signature (r, s) that an image carries (R368). -/
opaque yelvelKey : Nat × Nat
opaque imageSignature : List Byte → Nat × Nat
/-- An image's security version, and the fused minimum (R368); the version that INFO gives (R371). -/
opaque securityVersion : List Byte → Nat
opaque fusedMinimum : Nat
opaque imageVersion : List Byte → W64
/-- Part number and serial number (R371 INFO). -/
opaque identity : Nat → Byte
/-- A stack's serial number, its temperature at a CTIME in eighths of a degree, and the CRC-32 of a training record (R366). -/
opaque stackSerial : Nat → W64
opaque stackTemp : Nat → Nat → Nat
opaque crc32 : List Byte → W32

end Sys2Proof.Config
end

