-- ==== Sys2Proof/Syntax.lean ====
section
/-! DEFINITION. The instruction words as fields (R108, R114, R119, R121) and the steps of the other agents:
one constructor for each row of the opcode table. -/

namespace Sys2Proof

/-- What a register field of a word stands for (R112, R119, R120): a direct field value 0-2047, a relative
operand v[xi+d], or a source that LIT replaces. -/
inductive Fld
  | direct (n : Nat)
  | rel (x d : Nat)
  | lit
  deriving DecidableEq, Repr

/-- The fields common to every word (R108): guard, VAR, RET, MOD, and L with the literal word's LIT
(LIT is 0 where nothing uses it, R120). -/
structure Hd where
  pred : Nat
  pneg : Bool
  var  : Nat
  ret  : Nat
  mod  : Nat
  long : Bool
  lit  : W32
  deriving DecidableEq, Repr

/-- Three-register format (R114). -/
structure TWord where
  h  : Hd
  vd : Fld
  va : Fld
  vb : Fld
  vc : Fld
  deriving DecidableEq, Repr

/-- Register-immediate format (R114). `immLit`: LSEL = 2 replaces IMM (R120). -/
structure IWord where
  h  : Hd
  vd : Fld
  va : Fld
  imm : Nat
  immLit : Bool
  deriving DecidableEq, Repr

/-- Memory format (R114, R116). `offLit`: LSEL = 2 replaces OFF (R120). -/
structure MWord where
  h  : Hd
  vd : Fld
  va : Fld
  off : Nat
  offLit : Bool
  scope : Nat
  ord : Nat
  deriving DecidableEq, Repr

/-- Branch format (R114, R117). -/
structure BWord where
  h  : Hd
  va : Fld
  off : Nat
  deriving DecidableEq, Repr

/-- Wait format (R114, R128). -/
structure WWord where
  h  : Hd
  ldc : Nat
  stc : Nat
  cpc : Nat
  tlc : Nat
  deriving DecidableEq, Repr

/-- Engine format (R114, R118). -/
structure EWord where
  h  : Hd
  vd : Fld
  va : Fld
  pb : Nat
  aux : Nat
  qs : Nat
  deriving DecidableEq, Repr

/-- A block header (R121). -/
structure Header where
  len : Nat
  livehi : Nat
  reconv : Nat
  pfkind : Nat
  pfoff : Nat
  deriving DecidableEq, Repr

/-- A thread by core, flock slot and linear id; id 1024 is the flock's access-slice instance. -/
structure TRef where
  core : Nat
  slot : Nat
  t : Nat
  deriving DecidableEq, Repr

/-- The kind of an access (R409): read, write, atomic, fetch. -/
inductive AccKind
  | read | write | atomic | fetch
  deriving DecidableEq, Repr

/-- The PCI Express function through which the host acts (R355). -/
inductive Fn
  | pf
  | vf (v : Nat)
  deriving DecidableEq, Repr

/-- A peer request, response or acknowledgement (R257, R258, R361, R362, R426). `kind` is the flit KIND of R361. -/
structure PeerMsg where
  kind : Nat
  src : Nat
  sctx : Nat
  dst : Nat
  tctx : Nat
  tag : Nat
  fa : Nat
  size : Nat
  op : Nat
  data : List Byte
  deriving DecidableEq, Repr

/-- A Twill flit (R361): its header fields and what it carries. `ok` is the CRC check (R377). -/
structure Flit where
  kind : Nat
  dst : Nat
  seq : Nat
  ok : Bool
  msg : PeerMsg
  deriving DecidableEq, Repr

/-- A stored granule that a check covers (R377): DRAM granule, vault word, word of an allocated scratchpad, register
file or accumulator store; the data or the tag of a slice line, a word of an L1 or an instruction cache, a scratchpad
word that holds victim-TLB entries, a register-file word (port group, lane, index) or an accumulator slot that no
allocation holds. -/
inductive Granule
  | dram (pa : Nat)
  | vault (v off : Nat)
  | spad (core slot off : Nat)
  | reg (core slot t v : Nat)
  | acc (core slot i : Nat)
  | slice (pa : Nat) (tag : Bool)
  | l1 (core pa : Nat)
  | icache (core pa : Nat)
  | borrowed (core off : Nat)
  | freeReg (core pg lane i : Nat)
  | freeAcc (core i : Nat)
  deriving DecidableEq, Repr

/-- A management-plane write of the governor's tables (R335, R336). -/
inductive TableWrite
  | optbl (i : Nat) (en : Bool) (vmv : Nat)
  | tvalid (die : Nat) (v : Bool)
  deriving DecidableEq, Repr

/-- The instructions of Swester and the steps of the device's other agents. -/
inductive Instr
  /-- NOP, major 0x00 (R164). Issues with no effect. -/
  | nop (w : TWord)
  /-- BRA, major 0x01 (R162). Branches unconditionally to a header at a word offset. -/
  | bra (w : BWord)
  /-- BRC, major 0x02 (R162). Branches when the tested register meets the condition that MOD selects. -/
  | brc (w : BWord)
  /-- CALL, major 0x03 (R162). Sets RETADDR to the next word and branches to the target header. -/
  | call (w : BWord)
  /-- CALLI, major 0x04 (R162). Sets RETADDR and branches to the address held in a register pair. -/
  | calli (w : TWord)
  /-- JMPI, major 0x05 (R162). Branches to the address held in a register pair. -/
  | jmpi (w : TWord)
  /-- RET, major 0x06 (R162). Branches to RETADDR. -/
  | ret (w : TWord)
  /-- EXIT, major 0x07 (R47). Retires the issuing thread, which leaves the fold and stops counting at barriers. -/
  | exit (w : TWord)
  /-- DEMOTE, major 0x08 (R48). Turns the issuing thread into a helper whose side-effecting instructions are suppressed. -/
  | demote (w : TWord)
  /-- COMMIT, major 0x09 (R54). Sets the flock's committed flag, and the herd's. -/
  | commit (w : TWord)
  /-- YIELD, major 0x0A (R164). Makes the thread not ready for the next 8 granted slots. -/
  | yield (w : TWord)
  /-- TRAP, major 0x0B (R166). Raises the software trap with a 16-bit code. -/
  | trap (w : IWord)
  /-- RTT, major 0x0C (R400). Ends a trap handler, clears INTRAP and resumes at TRAPPC. -/
  | rtt (w : TWord)
  /-- LAUNCH, major 0x0D (R171). Commits the flock and asks the control plane to launch a run from a LAUNCH block. -/
  | launch (w : EWord)
  /-- BAR, major 0x0E (R168). Arrives at the flock barrier as a release at flock scope. -/
  | bar (w : TWord)
  /-- HBAR, major 0x0F (R168). Arrives at the herd barrier as a release at herd scope. -/
  | hbar (w : TWord)
  /-- MFSR, major 0x10 (R178). Reads a system register into a v register. -/
  | mfsr (w : IWord)
  /-- MTSR, major 0x11 (R181). Writes a system register, which takes effect for its holder as R181 states. -/
  | mtsr (w : IWord)
  /-- FLUSHI, major 0x12 (R183). Invalidates the issuing core's instruction cache. -/
  | flushi (w : TWord)
  /-- TLBINV, major 0x13 (R184). Removes TLB entries for a page, the context or all contexts after earlier stores are visible. -/
  | tlbinv (w : TWord)
  /-- TIME, major 0x14 (R173). Writes the cluster CYCLE count or CTIME to a register pair. -/
  | time (w : TWord)
  /-- TID, major 0x15 (R174). Writes one component of the thread's identity. -/
  | tid (w : TWord)
  /-- MOVK, major 0x16 (R172). Copies a launch argument k register into a v register. -/
  | movk (w : IWord)
  /-- SLEEP, major 0x17 (R175). Makes the thread not ready until CTIME reaches the wake time. -/
  | sleep (w : TWord)
  /-- WATCH, major 0x18 (R177). Parks the thread until the home slice sees the watched location meet a comparison. -/
  | watch (w : MWord)
  /-- WAIT, major 0x19 (R128). Waits until the four outstanding-operation counters are within their bounds. -/
  | wait (w : WWord)
  /-- WAITBM, major 0x1A (R253). Waits until chosen bits of a completion bitmap are set, acquiring the chunks. -/
  | waitbm (w : TWord)
  /-- STEPDL, major 0x1B (R264). Sets the deadline of the issuing run's step in the save area. -/
  | stepdl (w : TWord)
  /-- SLACK, major 0x1C (R265). Reads the slack the governor published for the step on this die. -/
  | slack (w : TWord)
  /-- BMODE, major 0x1D (R266). Sets the thread's launch bounds mode for later LAUNCHes. -/
  | bmode (w : IWord)
  /-- IADD_T, major 0x20 (R185). Adds two registers, wrapping or saturating. -/
  | iaddT (w : TWord)
  /-- IADD_I, major 0x50 (R185). Adds a register and an immediate, wrapping or saturating. -/
  | iaddI (w : IWord)
  /-- ISUB_T, major 0x21 (R185). Subtracts two registers, wrapping or saturating. -/
  | isubT (w : TWord)
  /-- ISUB_I, major 0x51 (R185). Subtracts an immediate from a register. -/
  | isubI (w : IWord)
  /-- IADDC, major 0x22 (R186). Adds with carry in and carry out through a predicate. -/
  | iaddc (w : TWord)
  /-- IMUL_T, major 0x23 (R185). Multiplies two registers, keeping the low bits. -/
  | imulT (w : TWord)
  /-- IMUL_I, major 0x52 (R185). Multiplies a register by an immediate. -/
  | imulI (w : IWord)
  /-- IMULH, major 0x24 (R186). Writes the high half of the exact product. -/
  | imulh (w : TWord)
  /-- IMAD, major 0x25 (R185). Multiplies and adds, keeping the low bits. -/
  | imad (w : TWord)
  /-- IMADW, major 0x26 (R186). Multiplies 32-bit values and adds a 64-bit pair. -/
  | imadw (w : TWord)
  /-- IMIN_T, major 0x27 (R185). Writes the minimum of two registers. -/
  | iminT (w : TWord)
  /-- IMIN_I, major 0x53 (R185). Writes the minimum of a register and an immediate. -/
  | iminI (w : IWord)
  /-- IMAX_T, major 0x28 (R185). Writes the maximum of two registers. -/
  | imaxT (w : TWord)
  /-- IMAX_I, major 0x54 (R185). Writes the maximum of a register and an immediate. -/
  | imaxI (w : IWord)
  /-- IABS, major 0x29 (R186). Writes the absolute value, wrapping or saturating. -/
  | iabs (w : TWord)
  /-- ISAD, major 0x2A (R186). Adds the sum of absolute differences to an accumulator. -/
  | isad (w : TWord)
  /-- AND_T, major 0x2B (R185). Bitwise AND of two registers. -/
  | andT (w : TWord)
  /-- AND_I, major 0x55 (R185). Bitwise AND with an immediate. -/
  | andI (w : IWord)
  /-- OR_T, major 0x2C (R185). Bitwise OR of two registers. -/
  | orT (w : TWord)
  /-- OR_I, major 0x56 (R185). Bitwise OR with an immediate. -/
  | orI (w : IWord)
  /-- XOR_T, major 0x2D (R185). Bitwise XOR of two registers. -/
  | xorT (w : TWord)
  /-- XOR_I, major 0x57 (R185). Bitwise XOR with an immediate. -/
  | xorI (w : IWord)
  /-- ANDN_T, major 0x2E (R185). A AND NOT B of two registers. -/
  | andnT (w : TWord)
  /-- ANDN_I, major 0x58 (R185). A AND NOT an immediate. -/
  | andnI (w : IWord)
  /-- LOGT, major 0x2F (R187). Applies a three-input truth table bitwise with the old destination. -/
  | logt (w : TWord)
  /-- SHL_T, major 0x30 (R187). Shifts left by a register amount. -/
  | shlT (w : TWord)
  /-- SHL_I, major 0x59 (R187). Shifts left by an immediate. -/
  | shlI (w : IWord)
  /-- SHR_T, major 0x31 (R187). Shifts right logically by a register amount. -/
  | shrT (w : TWord)
  /-- SHR_I, major 0x5A (R187). Shifts right logically by an immediate. -/
  | shrI (w : IWord)
  /-- SHRA_T, major 0x32 (R187). Shifts right arithmetically by a register amount. -/
  | shraT (w : TWord)
  /-- SHRA_I, major 0x5B (R187). Shifts right arithmetically by an immediate. -/
  | shraI (w : IWord)
  /-- ROTL_T, major 0x33 (R187). Rotates left by a register amount. -/
  | rotlT (w : TWord)
  /-- ROTL_I, major 0x5C (R187). Rotates left by an immediate. -/
  | rotlI (w : IWord)
  /-- FUNNEL, major 0x34 (R187). Funnel-shifts the concatenation of two registers. -/
  | funnel (w : TWord)
  /-- BFE_T, major 0x35 (R188). Extracts a bit field whose position and length come from a register. -/
  | bfeT (w : TWord)
  /-- BFE_I, major 0x5D (R188). Extracts a bit field whose position and length come from the immediate. -/
  | bfeI (w : IWord)
  /-- BFI, major 0x36 (R188). Inserts a bit field. -/
  | bfi (w : TWord)
  /-- POPC, major 0x37 (R188). Counts one bits. -/
  | popc (w : TWord)
  /-- CLZ, major 0x38 (R188). Counts leading zeros. -/
  | clz (w : TWord)
  /-- CTZ, major 0x39 (R188). Counts trailing zeros. -/
  | ctz (w : TWord)
  /-- BREV, major 0x3A (R188). Reverses the bit order. -/
  | brev (w : TWord)
  /-- PERMB, major 0x3B (R189). Selects bytes from two registers with optional sign fill. -/
  | permb (w : TWord)
  /-- PERMN, major 0x3C (R189). Looks up four bytes in a 16-byte table by nibble. -/
  | permn (w : TWord)
  /-- SEL, major 0x3D (R190). Selects A or B by a predicate. -/
  | sel (w : TWord)
  /-- ICMP_T, major 0x3E (R190). Compares two registers and combines the outcome into a predicate. -/
  | icmpT (w : TWord)
  /-- ICMP_I, major 0x5E (R190). Compares a register with an immediate into a predicate. -/
  | icmpI (w : IWord)
  /-- PCOMB, major 0x3F (R190). Combines two predicates through a truth table. -/
  | pcomb (w : TWord)
  /-- MOV, major 0x40 (R185). Copies a register or pair. -/
  | mov (w : TWord)
  /-- MOVI, major 0x41 (R185). Writes an extended immediate. -/
  | movi (w : IWord)
  /-- MOVX, major 0x42 (R191). Sets, reads or adds to an index register. -/
  | movx (w : TWord)
  /-- LEA_T, major 0x43 (R191). Adds a shifted register to a 64-bit address. -/
  | leaT (w : TWord)
  /-- LEA_I, major 0x5F (R191). Adds an immediate to a 64-bit address. -/
  | leaI (w : IWord)
  /-- APER, major 0x44 (R191). Classifies a generic address by aperture. -/
  | aper (w : TWord)
  /-- LXCH_T, major 0x45 (R195). Exchanges a value between member lanes with a register lane operand and mask. -/
  | lxchT (w : TWord)
  /-- LXCH_I, major 0x4B (R195). Exchanges a value between all lanes with an immediate lane operand. -/
  | lxchI (w : IWord)
  /-- POLL, major 0x46 (R195). Polls a predicate over the members. -/
  | poll (w : TWord)
  /-- REDX, major 0x47 (R195). Reduces a value over the members. -/
  | redx (w : TWord)
  /-- SCANX, major 0x48 (R195). Computes an inclusive scan over the members. -/
  | scanx (w : TWord)
  /-- EQMASK, major 0x49 (R195). Gives each member the mask of members holding its value. -/
  | eqmask (w : TWord)
  /-- LEAD, major 0x4A (R195). Sets a predicate true in one leading member. -/
  | lead (w : TWord)
  /-- FADD_T, major 0x60 (R199). Adds binary32 registers with one rounding. -/
  | faddT (w : TWord)
  /-- FADD_I, major 0x80 (R199). Adds a binary32 register and immediate. -/
  | faddI (w : IWord)
  /-- FSUB, major 0x61 (R199). Subtracts binary32 registers. -/
  | fsub (w : TWord)
  /-- FMUL_T, major 0x62 (R199). Multiplies binary32 registers. -/
  | fmulT (w : TWord)
  /-- FMUL_I, major 0x81 (R199). Multiplies a binary32 register by an immediate. -/
  | fmulI (w : IWord)
  /-- FFMA_T, major 0x63 (R199). Fused multiply-add of three binary32 registers. -/
  | ffmaT (w : TWord)
  /-- FFMA_I, major 0x82 (R199). Fused multiply-add with an immediate B and the old destination as C. -/
  | ffmaI (w : IWord)
  /-- FMIN_T, major 0x64 (R200). Binary32 minimum under the NaN rule that MOD selects. -/
  | fminT (w : TWord)
  /-- FMIN_I, major 0x83 (R200). Binary32 minimum with an immediate. -/
  | fminI (w : IWord)
  /-- FMAX_T, major 0x65 (R200). Binary32 maximum under the NaN rule that MOD selects. -/
  | fmaxT (w : TWord)
  /-- FMAX_I, major 0x84 (R200). Binary32 maximum with an immediate. -/
  | fmaxI (w : IWord)
  /-- FCMP_T, major 0x66 (R201). Compares binary32 registers into a predicate. -/
  | fcmpT (w : TWord)
  /-- FCMP_I, major 0x85 (R201). Compares a binary32 register with an immediate into a predicate. -/
  | fcmpI (w : IWord)
  /-- FRCP, major 0x67 (R202). Binary32 reciprocal within one neighbour. -/
  | frcp (w : TWord)
  /-- FRSQ, major 0x68 (R202). Binary32 reciprocal square root. -/
  | frsq (w : TWord)
  /-- FSQRT, major 0x69 (R202). Correctly rounded binary32 square root. -/
  | fsqrt (w : TWord)
  /-- FEXP2, major 0x6A (R202). Binary32 base-2 exponential. -/
  | fexp2 (w : TWord)
  /-- FLOG2, major 0x6B (R202). Binary32 base-2 logarithm. -/
  | flog2 (w : TWord)
  /-- FSIN, major 0x6C (R202). Binary32 sine. -/
  | fsin (w : TWord)
  /-- FCOS, major 0x6D (R202). Binary32 cosine. -/
  | fcos (w : TWord)
  /-- FTANH, major 0x6E (R202). Binary32 hyperbolic tangent. -/
  | ftanh (w : TWord)
  /-- DADD_T, major 0x70 (R199). Adds binary64 pairs. -/
  | daddT (w : TWord)
  /-- DADD_I, major 0x86 (R199). Adds a binary64 pair and an immediate. -/
  | daddI (w : IWord)
  /-- DMUL_T, major 0x71 (R199). Multiplies binary64 pairs. -/
  | dmulT (w : TWord)
  /-- DMUL_I, major 0x87 (R199). Multiplies a binary64 pair by an immediate. -/
  | dmulI (w : IWord)
  /-- DFMA, major 0x72 (R199). Fused multiply-add of binary64 pairs. -/
  | dfma (w : TWord)
  /-- DMIN, major 0x73 (R200). Binary64 minimum. -/
  | dmin (w : TWord)
  /-- DMAX, major 0x74 (R200). Binary64 maximum. -/
  | dmax (w : TWord)
  /-- DCMP, major 0x75 (R201). Compares binary64 pairs into a predicate. -/
  | dcmp (w : TWord)
  /-- DRCP, major 0x76 (R202). Binary64 reciprocal seed. -/
  | drcp (w : TWord)
  /-- PKADD, major 0x77 (R204). Adds packed 16-bit float pairs. -/
  | pkadd (w : TWord)
  /-- PKMUL, major 0x78 (R204). Multiplies packed 16-bit float pairs. -/
  | pkmul (w : TWord)
  /-- PKFMA, major 0x79 (R204). Fused multiply-add of packed 16-bit float pairs. -/
  | pkfma (w : TWord)
  /-- PKSUB, major 0x7A (R204). Subtracts packed 16-bit float pairs. -/
  | pksub (w : TWord)
  /-- PKMIN, major 0x7B (R204). Packed 16-bit minimum. -/
  | pkmin (w : TWord)
  /-- PKMAX, major 0x7C (R204). Packed 16-bit maximum. -/
  | pkmax (w : TWord)
  /-- IDOT4, major 0x7D (R205). Adds a four-byte dot product to an accumulator. -/
  | idot4 (w : TWord)
  /-- CVT, major 0x88 (R208). Converts between integer, float and E8M0 types. -/
  | cvt (w : IWord)
  /-- CVTN, major 0x89 (R209). Converts one element between a standard float and a narrow format. -/
  | cvtn (w : IWord)
  /-- CVTS, major 0x8A (R208). Converts with saturation. -/
  | cvts (w : IWord)
  /-- PACKN, major 0x8B (R210). Converts two binary32 values into two adjacent narrow elements. -/
  | packn (w : TWord)
  /-- UNPACKN, major 0x8C (R210). Converts two adjacent narrow elements to binary32. -/
  | unpackn (w : TWord)
  /-- LD, major 0x90 (R213). Loads W bytes from a generic address. -/
  | ld (w : MWord)
  /-- ST, major 0x91 (R214). Stores W bytes to a generic address, writing through to the home slice. -/
  | st (w : MWord)
  /-- LDBND, major 0x92 (R218). Loads plainly, or in interval mode reads bounds from a summary table. -/
  | ldbnd (w : MWord)
  /-- TILEFILL, major 0x93 (R219). Stores at the element's address, or records a tile fill in interval mode. -/
  | tilefill (w : MWord)
  /-- LDMC, major 0x94 (R220). Sends a multicast load merged at the home slice across masked cores. -/
  | ldmc (w : MWord)
  /-- STF, major 0x95 (R222). Stores and tags the line as forwarded to a consumer core. -/
  | stf (w : MWord)
  /-- ZFILL, major 0x96 (R223). Zeroes a 128-byte line, placing it in the zero state. -/
  | zfill (w : MWord)
  /-- PREF, major 0x97 (R223). Asks for a line to be prefetched into L1 and the slice. -/
  | pref (w : MWord)
  /-- LDACC, major 0x98 (R224). Reads accumulator slots into registers. -/
  | ldacc (w : MWord)
  /-- STACC, major 0x99 (R224). Writes registers into accumulator slots. -/
  | stacc (w : MWord)
  /-- ATOM, major 0x9A (R226). Performs a read-modify-write and returns the old value. -/
  | atom (w : MWord)
  /-- CAS, major 0x9B (R226). Compares and swaps, returning the old value. -/
  | cas (w : MWord)
  /-- RED, major 0x9C (R226). Performs a read-modify-write without returning a value. -/
  | red (w : MWord)
  /-- FENCE, major 0x9D (R229). Orders the thread's accesses as an acquire, release or both at a scope. -/
  | fence (w : MWord)
  /-- MMA, major 0xA0 (R238). Hands a standard-format tile product D += A·B to the matrix engine. -/
  | mma (w : EWord)
  /-- MMA_Q8, major 0xA1 (R238). Hands an 8-bit narrow tile product to the matrix engine. -/
  | mmaQ8 (w : EWord)
  /-- MMA_Q6, major 0xA2 (R238). Hands a 6-bit narrow tile product to the matrix engine. -/
  | mmaQ6 (w : EWord)
  /-- MMA_Q4, major 0xA3 (R238). Hands a 4-bit narrow tile product to the matrix engine. -/
  | mmaQ4 (w : EWord)
  /-- SMMA, major 0xA4 (R240). Hands a 2:4 sparse integer tile product to the matrix engine. -/
  | smma (w : EWord)
  /-- SMMA_Q8, major 0xA5 (R240). Hands a 2:4 sparse 8-bit narrow tile product to the matrix engine. -/
  | smmaQ8 (w : EWord)
  /-- SMMA_Q6, major 0xA6 (R240). Hands a 2:4 sparse 6-bit narrow tile product to the matrix engine. -/
  | smmaQ6 (w : EWord)
  /-- SMMA_Q4, major 0xA7 (R240). Hands a 2:4 sparse 4-bit narrow tile product to the matrix engine. -/
  | smmaQ4 (w : EWord)
  /-- MMAW, major 0xA8 (R241). Hands a windowed standard-format tile product to the matrix engine. -/
  | mmaw (w : EWord)
  /-- MMAW_Q8, major 0xA9 (R241). Hands a windowed 8-bit narrow tile product to the matrix engine. -/
  | mmawQ8 (w : EWord)
  /-- MMAW_Q6, major 0xAA (R241). Hands a windowed 6-bit narrow tile product to the matrix engine. -/
  | mmawQ6 (w : EWord)
  /-- MMAW_Q4, major 0xAB (R241). Hands a windowed 4-bit narrow tile product to the matrix engine. -/
  | mmawQ4 (w : EWord)
  /-- ACCZ, major 0xAC (R246). Hands the zeroing of accumulator slots to the matrix engine. -/
  | accz (w : EWord)
  /-- ACCDRAIN, major 0xAD (R246). Hands the conversion of accumulator slots into scratchpad to the matrix engine. -/
  | accdrain (w : EWord)
  /-- ACCLOAD, major 0xAE (R246). Hands the loading of scratchpad elements into slots to the matrix engine. -/
  | accload (w : EWord)
  /-- COPY, major 0xB0 (R249). Hands a box copy to the copy engine and receives a promised completion time. -/
  | copy (w : EWord)
  /-- COPYMC, major 0xB1 (R249). Hands a copy of one box to several herd flocks' scratchpads. -/
  | copymc (w : EWord)
  /-- COPYQ, major 0xB2 (R251). Hands a copy that fills a metadata queue. -/
  | copyq (w : EWord)
  /-- SPUSH, major 0xB3 (R256). Appends an s register value to an operand queue. -/
  | spush (w : TWord)
  /-- QPOP, major 0xB4 (R256). Reads the next operand-queue entry at the thread's position. -/
  | qpop (w : TWord)
  /-- PLD, major 0xB5 (R258). Sends a load to a peer rank's exported window. -/
  | pld (w : MWord)
  /-- PST, major 0xB6 (R258). Sends a store to a peer rank's window and commits the flock. -/
  | pst (w : MWord)
  /-- PATOM, major 0xB7 (R258). Sends an atomic to a peer rank's window. -/
  | patom (w : MWord)
  /-- COLL, major 0xB8 (R261). Hands one collective of a group to the collective engine. -/
  | coll (w : EWord)
  /-- ISSUE_SLOT (R39). In each clock the port group's arbiter grants a context and the fold picks a key to issue. -/
  | issueSlot (core pg : Nat)
  /-- RECONV_HOLD_EXPIRE (R44). A thread held at its reconvergence block is released after RECONV_WAIT clocks. -/
  | reconvHoldExpire (r : TRef)
  /-- YIELD_EXPIRE (R164). A yielding thread becomes ready again after 8 granted slots. -/
  | yieldExpire (r : TRef)
  /-- SLEEP_WAKE (R175). A sleeping thread becomes ready once CTIME reaches its wake time. -/
  | sleepWake (r : TRef)
  /-- BARRIER_WAVE_RELEASE (R352). The cluster releases the next wave of teams SPACE clocks after the previous one. -/
  | barrierWaveRelease (cluster : Nat)
  /-- RENDEZVOUS_FAULT_TRAP (R406). A thread that detected a rendezvous fault takes its pending trap when its key next issues. -/
  | rendezvousFaultTrap (r : TRef)
  /-- LOAD_RETURN (R127). A loaded or returned value is written to its register and LDCNT falls. -/
  | loadReturn (id : Nat) (fill : Bool)
  /-- STORE_PERFORMED (R127). A write is performed at its point of serialisation and STCNT falls. -/
  | storePerformed (id : Nat)
  /-- SLICE_READ (R98). A read request is served at the home slice by state of the line. -/
  | sliceRead (id : Nat)
  /-- SLICE_WRITE (R98). A store, copy write or host write reaches the home slice and updates the line. -/
  | sliceWrite (id : Nat)
  /-- SLICE_STF (R99). A forward-tagged store brings DRAM up to date, merges and tags the line. -/
  | sliceStf (id : Nat)
  /-- SLICE_ZFILL (R223). A zero fill places a line in the zero state or writes zeros through. -/
  | sliceZfill (id : Nat)
  /-- SLICE_ATOMIC (R227). An atomic is performed at its point of serialisation. -/
  | sliceAtomic (id : Nat)
  /-- WATCH_REQUEST (R102). A WATCH reaches the slice, which wakes at once or stores a watch entry. -/
  | watchRequest (id : Nat)
  /-- WATCH_WAKE (R177). A wake packet reaches the core and the parked thread becomes ready. -/
  | watchWake (r : TRef)
  /-- MULTICAST_REQUEST (R221). An LDMC request opens, joins or is served by a record at the slice's multicast table. -/
  | multicastRequest (id : Nat)
  /-- MULTICAST_TIMEOUT (R221). An open multicast entry closes 2,048 ticks after opening. -/
  | multicastTimeout (vault entry : Nat)
  /-- MULTICAST_RECORD_EXPIRE (R221). A closed-entry record lapses 2,048 ticks after close. -/
  | multicastRecordExpire (vault : Nat)
  /-- ALIAS_READ (R75). The DRAM controller converts an MX block to BF16 for a BF16 read. -/
  | aliasRead (id : Nat)
  /-- ALIAS_WRITE (R76). The DRAM controller re-encodes every touched MX block for a BF16 write. -/
  | aliasWrite (id : Nat)
  /-- DRAM_REQUEST (R326). A pseudo-channel scheduler serves a request by class and stamp, raising DMISS if late. -/
  | dramRequest (stack pc : Nat)
  /-- DRAM_REFRESH (R364). A bank is refreshed on its refresh interval, going first once postponed 8 times. -/
  | dramRefresh (stack pc bank : Nat)
  /-- SELF_REFRESH_ENTRY (R365). An idle pseudo-channel enters self-refresh when its SRIDLE timer expires. -/
  | selfRefreshEntry (stack pc : Nat)
  /-- SELF_REFRESH_EXIT (R365). A pseudo-channel finishes its 200 ns self-refresh exit and serves the waiting request. -/
  | selfRefreshExit (stack pc : Nat)
  /-- SELF_REFRESH_EXIT_TIMEOUT (R415). A pseudo-channel silent 2 µs after exit fails its waiting requests and retrains. -/
  | selfRefreshExitTimeout (stack pc : Nat)
  /-- PAGE_WALK (R91). The walker translates a virtual address and sets A and D in the leaf. -/
  | pageWalk (core ctx va : Nat) (kind : AccKind)
  /-- COPY_UNIT_TRANSFER (R249). The copy engine reads a 16-byte unit once and writes it to each destination. -/
  | copyUnitTransfer (core id unit : Nat)
  /-- COPYQ_ENTRY_PLACE (R251). The copy engine places a 1,024-byte entry into a metadata queue with room. -/
  | copyqEntryPlace (core id : Nat)
  /-- ENGINE_ACCEPT (R232). An engine accepts waiting operations in order as its queue gains room. -/
  | engineAccept (core : Nat) (matrix : Bool)
  /-- MATRIX_GROUP_UPDATE (R238). The matrix engine applies one group update to one accumulator element. -/
  | matrixGroupUpdate (core id i j : Nat)
  /-- SMMA_META_POP (R240). A put-aside sparse operation pops its metadata entry once the queue holds one. -/
  | smmaMetaPop (core id : Nat)
  /-- ACC_OP_PROGRESS (R246). An ACCZ, ACCDRAIN or ACCLOAD converts its elements and TLCNT falls at the last. -/
  | accOpProgress (core id : Nat)
  /-- PEER_TARGET_REQUEST (R362). A peer request reaches its target, is checked and performed once in TAG order. -/
  | peerTargetRequest (m : PeerMsg)
  /-- PEER_RESPONSE (R258). A PLD or PATOM response or a PST acknowledgement returns to the source. -/
  | peerResponse (m : PeerMsg)
  /-- TWILL_FLIT_RECEIVE (R361). A Twill flit is received and delivered or forwarded by ROUTETBL. -/
  | twillFlitReceive (port : Nat) (f : Flit)
  /-- TWILL_PORT_DOWN (R427). A port that exhausts retries or loses lock moves traffic to its alternate. -/
  | twillPortDown (port : Nat)
  /-- PEER_STREAM_TIMEOUT (R427). A request unanswered 1 ms after it was sent breaks its stream. -/
  | peerStreamTimeout (ctx dev : Nat)
  /-- COLL_COMPLETE (R261). When every RECV byte on the device is written, the engine writes SEQ to DONE. -/
  | collComplete (id : Nat) (sends : List (List Byte))
  /-- COLL_TIMEOUT (R429). A collective whose data has not arrived in 10 ms fails and stops its context. -/
  | collTimeout (id : Nat)
  /-- FLOCK_PLACE (R50). The run scheduler places a ready flock on a core with room and initialises it. -/
  | flockPlace (ctx : Nat)
  /-- HERD_PLACE (R51). The run scheduler places all flocks of a herd in one cluster in one action. -/
  | herdPlace (ctx : Nat)
  /-- FLOCK_COMPLETE (R52). A flock whose threads, slice, counters and operations are done sets its completion bit. -/
  | flockComplete (core slot : Nat)
  /-- FLOCK_ABORT (R55). An uncommitted flock or herd is discarded, its operations cancelled and requeued. -/
  | flockAbort (core slot : Nat)
  /-- ABORT_ALLOC_FREE (R55). An aborted flock's allocations are freed once both engines report no writes in flight. -/
  | abortAllocFree (core slot : Nat)
  /-- RUN_ACCEPT (R314). The control plane checks a LAUNCH block and accepts or refuses the run. -/
  | runAccept (r : TRef)
  /-- TILE_EVAL_PLACE (R290). The scheduler places an evaluation flock for the tile at the head of the queue. -/
  | tileEvalPlace (ctx run : Nat)
  /-- TILE_OUTCOME (R296). When a tile's interval threads have all ended, its outcome is fixed and quarters queued. -/
  | tileOutcome (core slot : Nat)
  /-- SQTAIL (R305). A doorbell write makes the walker read new submission entries. -/
  | sqtail (f : Fn) (ctx val : Nat)
  /-- STEP_BEGIN (R306). The walker starts the next step and copies its deadline into the save area. -/
  | stepBegin (ctx : Nat)
  /-- RUN_NODE (R307). A due RUN node launches its run. -/
  | runNode (ctx node : Nat)
  /-- COND_NODE (R307). A due COND node reads its word and takes one successor. -/
  | condNode (ctx node : Nat)
  /-- LOOP_NODE (R309). A LOOP node takes the body or the exit by its condition and iteration count. -/
  | loopNode (ctx node : Nat)
  /-- WAITV_NODE (R307). A due WAITV node sets a watch on its word. -/
  | waitvNode (ctx node : Nat)
  /-- WAITV_RESOLVE (R307). A WAITV node resolves when its word satisfies the comparison. -/
  | waitvResolve (ctx node : Nat)
  /-- SIGNAL_NODE (R307). A SIGNAL node writes SVAL with a release and posts an event. -/
  | signalNode (ctx node : Nat)
  /-- TEST_NODE (R311). A TEST node empties the named clusters and writes the test request. -/
  | testNode (ctx node : Nat)
  /-- TEST_RESOLVE (R392). A TEST node resolves when ENDED shows every named cluster. -/
  | testResolve (ctx node : Nat)
  /-- END_NODE (R312). The END node is performed and waits for the step's runs. -/
  | endNode (ctx node : Nat)
  /-- STEP_COMPLETE (R312). The walker writes STEPID to DONE, posts an event and advances SQHEAD. -/
  | stepComplete (ctx : Nat)
  /-- SERVER_REPLENISH (R319). A throttled server gains Q and a new deadline when t reaches d. -/
  | serverReplenish (kind inst slot : Nat)
  /-- SRV_ADMIT (R322). SRVCTL command 1 admits the staged server if valid and within the bound. -/
  | srvAdmit (r : TRef)
  /-- SRV_RELEASE (R322). SRVCTL command 2 frees the selected slot. -/
  | srvRelease (r : TRef)
  /-- SRV_UPDATE (R322). SRVCTL command 3 replaces the selected server's parameters. -/
  | srvUpdate (r : TRef)
  /-- ROUTEADM (R325). A route block's Twill servers are reserved at every hop or at none. -/
  | routeadm (ctx : Nat) (hops : List Bool)
  /-- ROUTE_ADMIT_TIMEOUT (R419). A route admission with a hop silent for 100 µs is refused. -/
  | routeAdmitTimeout (ctx hop : Nat)
  /-- ADMBOUND_WRITE (R327). Management writes an instance's bound; a bound of 0 pre-empts its contexts urgently. -/
  | admboundWrite (kind inst val : Nat)
  /-- PREEMPT (R327). CTXCMD code 1 starts a normal pre-emption of a running context. -/
  | preempt (f : Fn) (ctx : Nat)
  /-- SAVE (R327). CTXCMD code 2 starts an urgent pre-emption. -/
  | save (f : Fn) (ctx : Nat)
  /-- RESUME (R388). CTXCMD code 3 restores a stopped context or re-walks the step of an ERRSTOP one. -/
  | resume (f : Fn) (ctx : Nat)
  /-- SKIP (R388). CTXCMD code 4 advances SQHEAD of an ERRSTOP context. -/
  | skip (f : Fn) (ctx : Nat)
  /-- REPLAY (R410). CTXCMD code 5 ends a page-fault record and retries its requesters. -/
  | replay (f : Fn) (ctx fid : Nat)
  /-- INVTLB (R356). CTXCMD code 6 removes the context's TLB entries device-wide. -/
  | invtlb (f : Fn) (ctx : Nat)
  /-- FLUSHIC (R356). CTXCMD code 7 invalidates the instruction caches of the context's virtual device. -/
  | flushic (f : Fn) (ctx : Nat)
  /-- CTXCMD_DONE (R356). When every unit has finished INVTLB or FLUSHIC, event code 13 is posted. -/
  | ctxcmdDone (ctx : Nat)
  /-- DRAIN_LIMIT (R328). At the drain limit uncommitted flocks are aborted and others saved or run on. -/
  | drainLimit (ctx : Nat)
  /-- FLOCK_SAVE (R329). A resident flock's whole state is written to the save area. -/
  | flockSave (core slot : Nat)
  /-- CONTEXT_STOPPED (R328). A context reaches STOPPED, is charged any overrun and posts its event. -/
  | contextStopped (ctx : Nat)
  /-- FLOCK_RESTORE (R329). A saved flock or herd is restored to cores with room. -/
  | flockRestore (ctx : Nat)
  /-- GOVERNOR_EVAL (R345). Every 10 µs or at a deadline write, the governor chooses each die's target point and slack. -/
  | governorEval
  /-- VOLTAGE_RAMP_DONE (R339). A supply ramp reaches the point's voltage and the divider step may begin. -/
  | voltageRampDone (die : Nat)
  /-- DIVIDER_STEP (R339). A divider step completes in 0.5 µs and CUR changes by one point. -/
  | dividerStep (die : Nat)
  /-- RAISE_TIMEOUT (R421). A raise whose supply lags 10 µs past ramp time is abandoned and CEIL held at CUR. -/
  | raiseTimeout (die supply : Nat)
  /-- CEIL_WRITE (R340). Management lowers or raises CEIL, ending raises above it. -/
  | ceilWrite (die val : Nat)
  /-- MGMT_TABLE_WRITE (R336). Management writes OPTBL entries and TVALID for the governor. -/
  | mgmtTableWrite (w : TableWrite)
  /-- DROOP_ALARM (R349). A supply below threshold starts a droop response with stretched edges. -/
  | droopAlarm (cluster supply : Nat)
  /-- DROOP_STRETCH_END (R349). After six stretched edges the cluster switches to halved issue. -/
  | droopStretchEnd (cluster : Nat)
  /-- DROOP_RESPONSE_END (R349). At clock 71 full issue resumes. -/
  | droopResponseEnd (cluster : Nat)
  /-- THERMAL_MARK (R353). A sensor enters or leaves a mark and event code 11 is posted. -/
  | thermalMark (sensor reading : Nat)
  /-- WARN_CEIL_STEP (R354). Every 100 µs the power controller lowers or restores CEIL for WARN. -/
  | warnCeilStep (die : Nat)
  /-- POWER_MEASURE (R354). Every 100 µs module power is measured and a CEIL lowered or raised. -/
  | powerMeasure (watts : Nat)
  /-- POWER_LIMIT_THROTTLE (R423). Without firmware, power above 3,600 W for 1 ms halves issue until it falls. -/
  | powerLimitThrottle (watts : Nat)
  /-- CRIT_ENTER (R424). At CRIT every CEIL drops to OP_0 and every context is urgently pre-empted. -/
  | critEnter (sensor : Nat)
  /-- CRIT_SAVE_LIMIT (R424). At 50 ms after CRIT contexts still saving are stopped unsaved. -/
  | critSaveLimit
  /-- COMPUTE_RAILS_OFF (R424). When no save remains, DRAM self-refreshes and the compute rails are removed. -/
  | computeRailsOff
  /-- CRIT_RECOVER (R424). Below 100 °C the rails return, bounds are restored and BIST runs. -/
  | critRecover (failed : Nat)
  /-- THERMAL_TRIP (R425). At TRIP all rails except always-on are removed and the fault is fatal. -/
  | thermalTrip (sensor : Nat)
  /-- FW_HEARTBEAT (R422). The power-controller firmware renews its heartbeat. -/
  | fwHeartbeat
  /-- WATCHDOG_EXPIRE (R422). After 10 ms without a heartbeat every die falls to FBK and firmware restarts. -/
  | watchdogExpire
  /-- CONTAINED_EVENT (R387). Once no write of the stopped context is in flight, its machine-check event is posted. -/
  | containedEvent (ctx : Nat)
  /-- BANK_CLEAR (R383). Writing 1 to STATUS.V clears the bank. -/
  | bankClear (bank : Nat)
  /-- PATROL_SCRUB (R394). Patrol scrub reads and corrects words of DRAM and vault memory. -/
  | patrolScrub (g : Granule)
  /-- IDLE_SELFTEST (R393). Self-test control tests an idle cluster not tested for IDLEH hours. -/
  | idleSelftest (cluster : Nat)
  /-- SELFTEST_ABANDON (R393). A cluster test is abandoned when a ready flock needs that cluster. -/
  | selftestAbandon (cluster : Nat)
  /-- CLUSTER_TEST_END (R392). A cluster's test ends, setting ENDED, FAILED and out-of-service bounds. -/
  | clusterTestEnd (cluster : Nat) (logicFail memFail : Bool)
  /-- SPLIT_CHANGE (R97). A VAULTCFG SPLIT write flushes the slice and repartitions the vault. -/
  | splitChange (vault : Nat)
  /-- MOVE_START (R332). MOVECMD bit 63 starts a slice move. -/
  | moveStart (val : Nat)
  /-- MOVE_PAGE_COPY (R332). The move copier flushes and copies one page of S to S′ and marks it moved. -/
  | movePageCopy
  /-- MOVE_END (R332). MOVECMD bit 62 ends the move and hands S to its new owner. -/
  | moveEnd (val : Nat)
  /-- EQHEAD (R359). An EQHEAD write frees ring room and delivers held events. -/
  | eqhead (f : Fn) (val : Nat)
  /-- EQBASE (R358). An EQBASE write sets the ring and clears EQLOST. -/
  | eqbase (f : Fn) (val : Nat)
  /-- HOST_WINDOW_ACCESS (R355). A host read or write through BAR 2 reaches the line's home slice. -/
  | hostWindowAccess (f : Fn) (off : Nat) (data : Option (List Byte)) (n : Nat)
  /-- REGISTER_WRITE (R5). A write to a register with no row of its own sets its fields. -/
  | registerWrite (f : Fn) (off width val : Nat)
  /-- INFO (R371). Mailbox command 1 returns part number, serial and image version. -/
  | info
  /-- MCREAD (R371). Mailbox command 2 copies the named banks into MBDATA. -/
  | mcread
  /-- FWBEGIN (R371). Mailbox command 3 opens a firmware update. -/
  | fwbegin
  /-- FWDATA (R371). Mailbox command 4 appends bytes to the update. -/
  | fwdata
  /-- FWEND (R369). Mailbox command 5 verifies and writes the new image. -/
  | fwend
  /-- RESET (R367). Mailbox command 6 begins a warm start. -/
  | reset
  /-- SETDEV (R371). Mailbox command 7 sets the Twill device number. -/
  | setdev
  /-- SETBOUND (R371). Mailbox command 8 writes ADMBOUND of an instance. -/
  | setbound
  /-- SELFTEST (R393). Mailbox command 9 tests every idle untested cluster at once. -/
  | selftest
  /-- SPDM_REQUEST (R370). An SPDM request is answered with identity, certificates or measurements. -/
  | spdmRequest (msg : List Byte)
  /-- COLD_START (R367). Power-good from module power-off begins a cold start. -/
  | coldStart
  /-- START_STAGE (R367). Start-up reaches its next stage and reports it in STARTSTAT. -/
  | startStage (follows : Bool) (failed : Nat)
  /-- VF_FLR (R357). A function-level reset of a VF saves and discards its contexts' work. -/
  | vfFlr (v : Nat)
  /-- PF_RESET (R357). A PF function-level or secondary bus reset begins a warm start. -/
  | pfReset
  /-- PCIE_LINK_DOWN (R430). The PCI Express link goes down and events are held. -/
  | pcieLinkDown
  /-- PCIE_LINK_UP (R430). The link trains again and held events are delivered. -/
  | pcieLinkUp
  /-- PSEUDO_CHANNEL_RETRAIN (R415). The controller finishes retraining a pseudo-channel's interface and serves the requests that waited for it. -/
  | pseudoChannelRetrain (stack pc : Nat)
  /-- EQLOG (R359). A write of a non-zero EQLOG enables an event queue, which then takes its held events and, after stage 4, the start-stage event. -/
  | eqlog (f : Fn) (val : Nat)
  /-- POWER_LIMIT_RELEASE (R423). While the firmware is stopped, module power falling below 3,420 W ends the hardware alternate-clock throttle. -/
  | powerLimitRelease (watts : Nat)
  deriving DecidableEq, Repr

end Sys2Proof
end

