-- ==== Sys2Proof/Machine/OpTable.lean ====
section
/-! DEFINITION. The opcode map (R133), the words of each major form (R161-R263), and the system registers (R179):
how each word uses its fields. WellFormed, Decode and the operand checks read these tables. -/

namespace Sys2Proof

/-- The six body layouts (R114). -/
inductive Fmt
  | t | i | m | b | w | e
  deriving DecidableEq, Repr

/-- An instruction word by its layout. -/
inductive Body
  | t (w : TWord)
  | i (w : IWord)
  | m (w : MWord)
  | b (w : BWord)
  | w (w : WWord)
  | e (w : EWord)
  deriving DecidableEq, Repr

/-- How a word uses a register field (R112). -/
inductive Use
  /-- The field must hold 2047. -/
  | none
  /-- A v register operand of `n` registers whose number is a multiple of `n`; read, written. -/
  | reg (n : Nat) (rd wr : Bool)
  /-- A predicate field. -/
  | pred
  /-- A small constant below `lim`. -/
  | konst (lim : Nat)
  deriving DecidableEq, Repr

/-- How a legal word uses its fields. -/
structure Row where
  vd : Use
  va : Use
  vb : Use
  vc : Use
  /-- IMM or OFF may be replaced by LIT with LSEL = 2 (R120, R212). -/
  imm : Bool
  deriving DecidableEq, Repr

def Body.h : Body → Hd
  | .t x => x.h
  | .i x => x.h
  | .m x => x.h
  | .b x => x.h
  | .w x => x.h
  | .e x => x.h

/-- Sources and destinations of `n` registers. -/
abbrev src (n : Nat) : Use := .reg n true false
abbrev dst (n : Nat) : Use := .reg n false true
abbrev upd (n : Nat) : Use := .reg n true true

/-- Registers that an operand of an INT type holds (R58, R134): codes 2 and 3 are 64-bit. -/
def intRegs (var : Nat) : Nat := if var = 2 ∨ var = 3 then 2 else 1
/-- Registers that the data of a MEMW code holds (R213). -/
def memRegs (var : Nat) : Nat := if var = 5 then 2 else 1
/-- Registers that a type code of R207 holds. -/
def cvtRegs (ty : Nat) : Nat := if ty = 6 ∨ ty = 7 ∨ ty = 11 then 2 else 1
/-- Bytes that a MEMW code accesses (R213). -/
def memBytes (var : Nat) : Nat :=
  match var with
  | 0 => 1
  | 1 => 1
  | 2 => 2
  | 3 => 2
  | 4 => 4
  | _ => 8

/-- The row if its VAR and MOD are accepted. -/
def rowIf (ok : Bool) (vd va vb vc : Use) (imm : Bool := false) : Option Row :=
  if ok then some ⟨vd, va, vb, vc, imm⟩ else Option.none

abbrev rawTy (v : Nat) : Bool := v = 1 ∨ v = 3

/-- Legal position P of a WID (R209, R210): 0-3 for 8- and 6-bit elements, 0-7 for 4-bit elements. -/
def posOk (wid p : Nat) : Bool := if wid = 0 then p < 8 else wid < 3 ∧ p < 4

/-- The selector constant of PACKN and UNPACKN (R210). -/
def selOk (s : Nat) : Bool :=
  s < 256 ∧ bits s 5 3 % 2 = 0 ∧ posOk (bits s 3 2) (bits s 5 3 + 1)

/-- What a constant field holds; 0 where the field is no constant. -/
def Fld.num : Fld → Nat
  | .direct n => n
  | .rel _ d => d
  | .lit => 2047

/-- T-format words (R161, R166, R167, R172, R182, R185, R193, R198-R205, R210, R253, R255, R263). -/
def rowT (major : Nat) (w : TWord) : Option Row :=
  let v := w.h.var
  let m := w.h.mod
  let n := intRegs v
  let z := decide (v = 0)
  let zz := decide (v = 0 ∧ m = 0)
  let bin (ok : Bool) := rowIf ok (dst n) (src n) (src n) .none
  let tri (ok : Bool) := rowIf ok (dst n) (src n) (src n) (src n)
  let raw0 := decide (rawTy v ∧ m = 0)
  let rnd := decide (v < 4)
  let shift (ok : Bool) := rowIf ok (dst n) (src n) (src 1) .none
  let bitsOp := rowIf raw0
  let un (ok : Bool) (k : Nat) := rowIf ok (dst k) (src k) .none .none
  match major with
  | 0x00 => rowIf zz .none .none .none .none
  | 0x04 => rowIf zz .none (src 2) .none .none
  | 0x05 => rowIf zz .none (src 2) .none .none
  | 0x06 => rowIf zz .none .none .none .none
  | 0x07 => rowIf zz .none .none .none .none
  | 0x08 => rowIf zz .none .none .none .none
  | 0x09 => rowIf zz .none .none .none .none
  | 0x0A => rowIf zz .none .none .none .none
  | 0x0C => rowIf zz .none .none .none .none
  | 0x0E => rowIf zz .none .none .none .none
  | 0x0F => rowIf zz .none .none .none .none
  | 0x12 => rowIf zz .none .none .none .none
  | 0x13 => rowIf (z && decide (m < 3)) .none (if m = 0 then src 2 else .none) .none .none
  | 0x14 => rowIf (z && decide (m < 2)) (dst 2) .none .none .none
  | 0x15 => rowIf zz (dst 1) (.konst 13) .none .none
  | 0x17 => rowIf zz .none (src 2) .none .none
  | 0x1A =>
    if m = 0 then rowIf (z && decide (w.va.num + w.vb.num + 1 ≤ 128)) (.konst 32) (.konst 128) (.konst 128) .none
    else rowIf (z && decide (m = 1)) (.konst 32) (src 1) (.konst 4) .none
  | 0x1B => rowIf zz .none (src 2) .none .none
  | 0x1C => rowIf zz (dst 2) .none .none .none
  | 0x20 => bin (m < 2)
  | 0x21 => bin (m < 2)
  | 0x22 => rowIf (rawTy v) (dst n) (src n) (src n) (if m = 0 then .none else .pred)
  | 0x23 => bin (v < 4 ∧ m = 0)
  | 0x24 => bin (v < 4 ∧ m = 0)
  | 0x25 => tri (v < 4 ∧ m = 0)
  | 0x26 => rowIf (v < 2 ∧ m = 0) (dst 2) (src 1) (src 1) (src 2)
  | 0x27 => bin (m = 0)
  | 0x28 => bin (m = 0)
  | 0x29 => un (v % 2 = 0 ∧ m < 2) n
  | 0x2A => tri (m = 0)
  | 0x2B => bin raw0
  | 0x2C => bin raw0
  | 0x2D => bin raw0
  | 0x2E => bin raw0
  | 0x2F => bitsOp (upd n) (src n) (src n) (.konst 256)
  | 0x30 => shift raw0
  | 0x31 => shift raw0
  | 0x32 => shift ((v = 0 ∨ v = 2) ∧ m = 0)
  | 0x33 => shift raw0
  | 0x34 => tri (v = 1 ∧ m = 0)
  | 0x35 => bin (v < 4 ∧ m = 0)
  | 0x36 => rowIf raw0 (dst n) (src n) (src n) (src n)
  | 0x37 => rowIf raw0 (dst 1) (src n) .none .none
  | 0x38 => rowIf raw0 (dst 1) (src n) .none .none
  | 0x39 => rowIf raw0 (dst 1) (src n) .none .none
  | 0x3A => un raw0 n
  | 0x3B => tri (v = 1 ∧ m = 0)
  | 0x3C => rowIf (v = 1 ∧ m < 2) (dst 1) (src 2) (src 2) (src 1)
  | 0x3D => rowIf raw0 (dst n) (src n) (src n) .pred
  | 0x3E => rowIf (v < 4) .pred (src n) (src n) (.konst 6)
  | 0x3F => rowIf (v = 1 ∧ m = 0) .pred .pred .pred (.konst 16)
  | 0x40 => un raw0 n
  | 0x42 =>
    if m = 1 then rowIf z (dst 1) (.konst 4) .none .none
    else rowIf (z && decide (m < 3)) (.konst 4) (src 1) .none .none
  | 0x43 => rowIf (v < 2 ∧ m = 0) (dst 2) (src 2) (src 1) (.konst 8)
  | 0x44 => rowIf (v = 3 ∧ m = 0) (dst 1) (src 2) .none .none
  | 0x45 => rowIf (rawTy v) (dst n) (src n) (src 1) (src 1)
  | 0x46 => rowIf (v = 1) (if m = 3 then dst 1 else .pred) .pred .none (src 1)
  | 0x47 => rowIf (v < 4) (dst n) (src n) .none (src 1)
  | 0x48 => rowIf (v < 4) (dst n) (src n) .none (src 1)
  | 0x49 => rowIf raw0 (dst 1) (src n) .none (src 1)
  | 0x4A => rowIf (v = 1 ∧ m = 0) .pred .none .none (src 1)
  | 0x60 => rowIf (rnd && decide (m = 0)) (dst 1) (src 1) (src 1) .none
  | 0x61 => rowIf (rnd && decide (m = 0)) (dst 1) (src 1) (src 1) .none
  | 0x62 => rowIf (rnd && decide (m = 0)) (dst 1) (src 1) (src 1) .none
  | 0x63 => rowIf (rnd && decide (m = 0)) (dst 1) (src 1) (src 1) (src 1)
  | 0x64 => rowIf (z && decide (m < 2)) (dst 1) (src 1) (src 1) .none
  | 0x65 => rowIf (z && decide (m < 2)) (dst 1) (src 1) (src 1) .none
  | 0x66 => rowIf z .pred (src 1) (src 1) (.konst 14)
  | 0x67 => un zz 1
  | 0x68 => un zz 1
  | 0x69 => un (rnd && decide (m = 0)) 1
  | 0x6A => un zz 1
  | 0x6B => un zz 1
  | 0x6C => un zz 1
  | 0x6D => un zz 1
  | 0x6E => un zz 1
  | 0x70 => rowIf (rnd && decide (m = 0)) (dst 2) (src 2) (src 2) .none
  | 0x71 => rowIf (rnd && decide (m = 0)) (dst 2) (src 2) (src 2) .none
  | 0x72 => rowIf (rnd && decide (m = 0)) (dst 2) (src 2) (src 2) (src 2)
  | 0x73 => rowIf (z && decide (m < 2)) (dst 2) (src 2) (src 2) .none
  | 0x74 => rowIf (z && decide (m < 2)) (dst 2) (src 2) (src 2) .none
  | 0x75 => rowIf z .pred (src 2) (src 2) (.konst 14)
  | 0x76 => un zz 2
  | 0x77 => rowIf (rnd && decide (m < 2)) (dst 1) (src 1) (src 1) .none
  | 0x78 => rowIf (rnd && decide (m < 2)) (dst 1) (src 1) (src 1) .none
  | 0x79 => rowIf (rnd && decide (m < 2)) (dst 1) (src 1) (src 1) (src 1)
  | 0x7A => rowIf (rnd && decide (m < 2)) (dst 1) (src 1) (src 1) .none
  | 0x7B => rowIf (z && decide (m < 2)) (dst 1) (src 1) (src 1) .none
  | 0x7C => rowIf (z && decide (m < 2)) (dst 1) (src 1) (src 1) .none
  | 0x7D => rowIf ((v = 6 ∨ v = 7) ∧ m < 2) (dst 1) (src 1) (src 1) (src 1)
  | 0x8B => rowIf (v < 5 ∧ m < 2 ∧ selOk w.vc.num) (upd 1) (src 1) (src 1) (.konst 256)
  | 0x8C => rowIf (v < 4 ∧ m = 0 ∧ selOk w.vc.num) (dst 2) (src 1) .none (.konst 256)
  | 0xB3 => rowIf raw0 (.konst 8) (src n) .none .none
  | 0xB4 => rowIf raw0 (dst n) (.konst 8) .none .none
  | _ => Option.none

/-- A system register (R179, R321, R334): width and who may read and write it. -/
structure SysReg where
  wide : Bool
  rd : Bool
  rdPriv : Bool
  wr : Bool
  wrPriv : Bool
  deriving DecidableEq, Repr

/-- The system-register numbers that the spec assigns. ROUTEADM is write-only and reads as 0 (R5, R321). -/
def sysReg (n : Nat) : Option SysReg :=
  if n = 0x000 then some ⟨false, true, false, true, false⟩
  else if n = 0x001 then some ⟨true, true, false, true, false⟩
  else if n = 0x002 ∨ n = 0x003 then some ⟨false, true, false, false, false⟩
  else if 0x008 ≤ n ∧ n ≤ 0x00F then some ⟨false, true, false, true, false⟩
  else if n = 0x010 then some ⟨false, true, true, true, true⟩
  else if n = 0x020 ∨ n = 0x022 then some ⟨true, true, true, true, true⟩
  else if n = 0x021 then some ⟨false, true, true, true, true⟩
  else if 0x040 ≤ n ∧ n ≤ 0x0BF then some ⟨false, true, true, true, true⟩
  else if 0x100 ≤ n ∧ n ≤ 0x103 then some ⟨false, true, false, false, false⟩
  else if n = 0x108 then some ⟨false, true, true, true, true⟩
  else if 0x110 ≤ n ∧ n ≤ 0x11C then some ⟨false, true, true, false, false⟩
  else if 0x140 ≤ n ∧ n ≤ 0x1BF then some ⟨false, true, true, true, true⟩
  else if n = 0x1C0 then some ⟨false, true, false, false, false⟩
  else if 0x200 ≤ n ∧ n ≤ 0x203 then some ⟨false, true, true, true, true⟩
  else if n = 0x204 ∨ n = 0x206 ∨ n = 0x207 ∨ n = 0x209 then some ⟨false, true, true, false, false⟩
  else if n = 0x205 then some ⟨true, true, true, false, false⟩
  else if n = 0x208 then some ⟨true, true, true, true, true⟩
  else if n = 0x20A then some ⟨false, true, false, false, false⟩
  else Option.none

/-- IMM of CVT and CVTS (R207). -/
def cvtOk (imm : Nat) : Bool := bits imm 0 6 < 13 ∧ bits imm 6 6 < 13 ∧ bits imm 12 10 = 0

/-- IMM of CVTN (R209). -/
def cvtnOk (imm : Nat) : Bool :=
  bits imm 13 9 = 0 ∧ 8 ≤ bits imm 6 4 ∧ bits imm 6 4 ≤ 11 ∧ posOk (bits imm 3 2) (bits imm 10 3)

/-- I-format words (R166, R172, R178, R185, R193, R198-R201, R207-R209, R263). -/
def rowI (major : Nat) (w : IWord) : Option Row :=
  let v := w.h.var
  let m := w.h.mod
  let n := intRegs v
  let bin (ok : Bool) := rowIf ok (dst n) (src n) .none .none true
  let fbin (ok : Bool) (d : Use) (k : Nat) := rowIf ok d (src k) .none .none true
  let raw0 := decide (rawTy v ∧ m = 0)
  match major with
  | 0x0B => rowIf (v = 0 ∧ m = 0) .none .none .none .none
  | 0x10 =>
    match sysReg (bits w.imm 0 12) with
    | some r => rowIf (r.rd ∧ m = 0 ∧ v = (if r.wide then 3 else 1)) (dst n) .none .none .none
    | Option.none => Option.none
  | 0x11 =>
    match sysReg (bits w.imm 0 12) with
    | some r => rowIf (r.wr ∧ m = 0 ∧ v = (if r.wide then 3 else 1)) .none (src n) .none .none
    | Option.none => Option.none
  | 0x16 => rowIf (raw0 && decide (v = 1 ∨ bits w.imm 0 1 = 0)) (dst n) .none .none .none
  | 0x1D =>
    if m = 2 then rowIf (v = 0 ∧ bits w.imm 2 3 < 5 ∧ bits w.imm 5 17 = 0) .none (src 1) .none .none
    else rowIf (v = 0 ∧ m < 2 ∧ w.imm = 0) .none .none .none .none
  | 0x41 => rowIf (v < 4 ∧ m = 0) (dst n) .none .none .none true
  | 0x4B => rowIf (rawTy v) (dst n) (src n) .none .none
  | 0x50 => bin (v < 4 ∧ m < 2)
  | 0x51 => bin (v < 4 ∧ m < 2)
  | 0x52 => bin (v < 4 ∧ m = 0)
  | 0x53 => bin (v < 4 ∧ m = 0)
  | 0x54 => bin (v < 4 ∧ m = 0)
  | 0x55 => bin raw0
  | 0x56 => bin raw0
  | 0x57 => bin raw0
  | 0x58 => bin raw0
  | 0x59 => bin raw0
  | 0x5A => bin raw0
  | 0x5B => bin ((v = 0 ∨ v = 2) ∧ m = 0)
  | 0x5C => bin raw0
  | 0x5D => rowIf (v < 4 ∧ m = 0) (dst n) (src n) .none .none
  | 0x5E => rowIf (v < 4 ∧ bits w.imm 19 3 < 6) .pred (src n) .none .none
  | 0x5F => rowIf (v < 2 ∧ m = 0) (dst 2) (src 2) .none .none true
  | 0x80 => fbin (v < 4 ∧ m = 0) (dst 1) 1
  | 0x81 => fbin (v < 4 ∧ m = 0) (dst 1) 1
  | 0x82 => fbin (v < 4 ∧ m = 0) (upd 1) 1
  | 0x83 => fbin (v = 0 ∧ m < 2) (dst 1) 1
  | 0x84 => fbin (v = 0 ∧ m < 2) (dst 1) 1
  | 0x85 => rowIf (v = 0 ∧ bits w.imm 18 4 < 14) .pred (src 1) .none .none
  | 0x86 => fbin (v < 4 ∧ m = 0) (dst 2) 2
  | 0x87 => fbin (v < 4 ∧ m = 0) (dst 2) 2
  | 0x88 => rowIf (v < 4 ∧ m = 0 ∧ cvtOk w.imm) (dst (cvtRegs (bits w.imm 0 6))) (src (cvtRegs (bits w.imm 6 6))) .none .none
  | 0x8A => rowIf (v < 4 ∧ m = 0 ∧ cvtOk w.imm) (dst (cvtRegs (bits w.imm 0 6))) (src (cvtRegs (bits w.imm 6 6))) .none .none
  | 0x89 =>
    if bits w.imm 5 1 = 0 then rowIf (v < 5 ∧ m < 2 ∧ cvtnOk w.imm) (upd 1) (src (cvtRegs (bits w.imm 6 4))) .none .none
    else rowIf (v < 4 ∧ m < 2 ∧ cvtnOk w.imm) (dst (cvtRegs (bits w.imm 6 4))) (src 1) .none .none
  | _ => Option.none

/-- A plain access carries SCOPE 0 (R116); other ORD values of `ords` carry SCOPE 0-5. -/
def plainOrd (w : MWord) (o : Nat) : Bool := (w.ord = 0 ∧ w.scope = 0) ∨ (w.ord = o ∧ o ≠ 0 ∧ w.scope < 6)

/-- M-format words (R176, R212, R257). PREF counts as a plain access, which carries SCOPE 0 (DESIGN CHOICE, log 64). -/
def rowM (major : Nat) (w : MWord) : Option Row :=
  let v := w.h.var
  let m := w.h.mod
  let n := memRegs v
  let row (ok : Bool) (d : Use) (imm : Bool) := rowIf ok d (src 2) .none .none imm
  match major with
  | 0x18 => row (w.ord < 2 ∧ w.scope < 6) (src (v % 2 + 1)) true
  | 0x90 => row (v < 6 ∧ plainOrd w 1) (dst n) true
  | 0x91 => row (v < 6 ∧ plainOrd w 2) (src n) true
  | 0x92 => row (v < 6 ∧ plainOrd w 0 ∧ w.off < 256 ∧ w.off % 2 = 0) (dst n) false
  | 0x93 => row (v < 6 ∧ m = 0 ∧ plainOrd w 0 ∧ w.off % 2 = 0 ∧ bits w.off 8 8 % 2 = 0) (src n) false
  | 0x94 => row ((v = 4 ∨ v = 5) ∧ m = 0 ∧ plainOrd w 0) (dst n) false
  | 0x95 => row ((v = 4 ∨ v = 5) ∧ m = 0 ∧ plainOrd w 2 ∧ w.off < 256) (src n) false
  | 0x96 => row (v = 5 ∧ m = 0 ∧ plainOrd w 2) .none true
  | 0x97 => row (v = 5 ∧ plainOrd w 0) .none true
  | 0x98 => row ((v = 4 ∨ v = 5) ∧ m = 0 ∧ plainOrd w 0) (dst n) true
  | 0x99 => row ((v = 4 ∨ v = 5) ∧ m = 0 ∧ plainOrd w 0) (src n) true
  | 0x9A => row ((v = 4 ∨ v = 5) ∧ m = 0 ∧ w.scope < 6 ∧ bits w.off 12 4 < 14) (upd n) false
  | 0x9B => row ((v = 4 ∨ v = 5) ∧ m = 0 ∧ w.scope < 6) (upd (2 * n)) true
  | 0x9C => row ((v = 4 ∨ v = 5) ∧ m = 0 ∧ w.scope < 6 ∧ (w.ord = 0 ∨ w.ord = 2) ∧ bits w.off 12 4 < 14) (src n) false
  | 0x9D => rowIf (v = 0 ∧ m = 0 ∧ w.ord ≠ 0 ∧ w.scope < 6 ∧ w.off = 0) .none .none .none .none
  | 0xB5 => row (v < 6 ∧ m = 0 ∧ plainOrd w 1) (dst n) true
  | 0xB6 => row (v < 6 ∧ m = 0 ∧ plainOrd w 2) (src n) true
  | 0xB7 => row ((v = 4 ∨ v = 5) ∧ m = 0 ∧ w.scope < 6 ∧ bits w.off 12 4 < 14) (upd n) false
  | _ => Option.none

/-- B-format words (R161): L must be 0 (R135). -/
def rowB (major : Nat) (w : BWord) : Option Row :=
  let ok := decide (w.h.var = 0 ∧ w.h.long = false)
  match major with
  | 0x01 => rowIf (ok && decide (w.h.mod = 0)) .none .none .none .none
  | 0x02 => rowIf ok .none (src 1) .none .none
  | 0x03 => rowIf (ok && decide (w.h.mod = 0)) .none .none .none .none
  | _ => Option.none

/-- WAIT (R128). -/
def rowW (major : Nat) (w : WWord) : Option Row :=
  if major = 0x19 then rowIf (w.h.var = 0 ∧ w.h.mod = 0 ∧ w.h.long = false) .none .none .none .none
  else Option.none

/-- E-format words (R118, R171, R235, R245, R247, R260). -/
def rowE (major : Nat) (w : EWord) : Option Row :=
  let v := w.h.var
  let m := w.h.mod
  let vz := decide (w.vd = .direct 2047)
  let row (ok : Bool) (d : Use) := rowIf ok d (src 1) .none .none
  let std (ok : Bool) := row (ok ∧ v < 6 ∧ w.aux = 0 ∧ w.qs = 0 ∧ (vz ∧ m = 0 ∨ !vz ∧ 2 ≤ v)) (src 1)
  let nar (q : Bool) := row (w.aux % 4 = 0 ∧ (q ∨ w.qs = 0) ∧ (!vz ∨ m = 0)) (src 1)
  let acc := row (v = 0 ∧ m = 0 ∧ w.aux = 0 ∧ w.qs = 0) .none
  match major with
  | 0x0D => row (v = 0 ∧ m = 0 ∧ w.aux = 0 ∧ w.qs = 0) (dst 1)
  | 0xA0 => std true
  | 0xA1 => nar false
  | 0xA2 => nar false
  | 0xA3 => nar false
  | 0xA4 => row (v < 2 ∧ m = 0 ∧ w.aux = 0) .none
  | 0xA5 => nar true
  | 0xA6 => nar true
  | 0xA7 => nar true
  | 0xA8 => std true
  | 0xA9 => nar false
  | 0xAA => nar false
  | 0xAB => nar false
  | 0xAC => acc
  | 0xAD => acc
  | 0xAE => acc
  | 0xB0 => row (v = 0 ∧ m = 0 ∧ w.qs = 0) (dst 2)
  | 0xB1 => row (v = 0 ∧ m = 0 ∧ w.qs = 0) (dst 2)
  | 0xB2 => row (v = 0 ∧ m = 0 ∧ w.aux = 0) (dst 2)
  | 0xB8 => acc
  | _ => Option.none

/-- How the word of a major form uses its fields; none for an unassigned VAR, MOD, ORD, SCOPE or constant. -/
def rowOf (major : Nat) : Body → Option Row
  | .t w => rowT major w
  | .i w => rowI major w
  | .m w => rowM major w
  | .b w => rowB major w
  | .w x => rowW major x
  | .e w => rowE major w

/-- Majors that must be unguarded (R109): BAR, HBAR, LXCH, POLL, REDX, SCANX, EQMASK, LEAD, WAIT, WAITBM. -/
def unguarded (major : Nat) : Bool :=
  major = 0x0E ∨ major = 0x0F ∨ (0x45 ≤ major ∧ major ≤ 0x4B) ∨ major = 0x19 ∨ major = 0x1A

/-- Cross-lane majors (R193). -/
def crossLane (major : Nat) : Bool := 0x45 ≤ major ∧ major ≤ 0x4B

/-- Majors suppressed for a helper (R48, R164, R213, R230) are listed in Machine/Operands.lean; the majors that the
access engine executes are those of R136. `var` is the INT code. -/
def accessMajor (major var : Nat) : Bool :=
  major = 0x00 ∨ major = 0x01 ∨ major = 0x02 ∨ major = 0x03 ∨ major = 0x06 ∨ major = 0x07 ∨ major = 0x0A ∨
  major = 0x14 ∨ major = 0x16 ∨ major = 0x17 ∨ major = 0x19 ∨
  ((0x20 ≤ major ∧ major ≤ 0x3F ∨ 0x50 ≤ major ∧ major ≤ 0x5F) ∧ var < 4 ∧ major ≠ 0x22 ∧ major ≠ 0x3E ∧
    major ≠ 0x5E ∧ major ≠ 0x3F ∧ major ≠ 0x3D ∧ major ≠ 0x3B ∧ major ≠ 0x3C) ∨
  major = 0x40 ∨ major = 0x41 ∨ major = 0x43 ∨ major = 0xB0 ∨ major = 0xB1 ∨ major = 0xB2 ∨ major = 0xB3 ∨
  major = 0x0B ∨ major = 0x0C ∨ major = 0x10 ∨ major = 0x11

/-- The opcode map of R133: the layout of each assigned major form. -/
def fmtOf (major : Nat) : Option Fmt :=
  match major with
  | 0x01 => some .b
  | 0x02 => some .b
  | 0x03 => some .b
  | 0x0B => some .i
  | 0x0D => some .e
  | 0x10 => some .i
  | 0x11 => some .i
  | 0x16 => some .i
  | 0x18 => some .m
  | 0x19 => some .w
  | 0x1D => some .i
  | 0x41 => some .i
  | 0x4B => some .i
  | 0x8B => some .t
  | 0x8C => some .t
  | 0xB3 => some .t
  | 0xB4 => some .t
  | 0xB8 => some .e
  | m =>
    if m ≤ 0x1C then some .t
    else if 0x20 ≤ m ∧ m ≤ 0x4A then some .t
    else if 0x50 ≤ m ∧ m ≤ 0x5F then some .i
    else if 0x60 ≤ m ∧ m ≤ 0x6E ∨ 0x70 ≤ m ∧ m ≤ 0x7D then some .t
    else if 0x80 ≤ m ∧ m ≤ 0x8A then some .i
    else if 0x90 ≤ m ∧ m ≤ 0x9D then some .m
    else if 0xA0 ≤ m ∧ m ≤ 0xAE then some .e
    else if 0xB0 ≤ m ∧ m ≤ 0xB2 then some .e
    else if 0xB5 ≤ m ∧ m ≤ 0xB7 then some .m
    else Option.none

end Sys2Proof
end

