-- ==== Sys2Proof/Machine/OpMap.lean ====
section
/-! DEFINITION. The opcode map of R133: the constructor of each major form, and back. -/

namespace Sys2Proof

/-- The T-format instruction of a major form (R133). -/
def ofT (major : Nat) (w : TWord) : Option Instr :=
  match major with
  | 0x00 => some (.nop w)
  | 0x04 => some (.calli w)
  | 0x05 => some (.jmpi w)
  | 0x06 => some (.ret w)
  | 0x07 => some (.exit w)
  | 0x08 => some (.demote w)
  | 0x09 => some (.commit w)
  | 0x0A => some (.yield w)
  | 0x0C => some (.rtt w)
  | 0x0E => some (.bar w)
  | 0x0F => some (.hbar w)
  | 0x12 => some (.flushi w)
  | 0x13 => some (.tlbinv w)
  | 0x14 => some (.time w)
  | 0x15 => some (.tid w)
  | 0x17 => some (.sleep w)
  | 0x1A => some (.waitbm w)
  | 0x1B => some (.stepdl w)
  | 0x1C => some (.slack w)
  | 0x20 => some (.iaddT w)
  | 0x21 => some (.isubT w)
  | 0x22 => some (.iaddc w)
  | 0x23 => some (.imulT w)
  | 0x24 => some (.imulh w)
  | 0x25 => some (.imad w)
  | 0x26 => some (.imadw w)
  | 0x27 => some (.iminT w)
  | 0x28 => some (.imaxT w)
  | 0x29 => some (.iabs w)
  | 0x2A => some (.isad w)
  | 0x2B => some (.andT w)
  | 0x2C => some (.orT w)
  | 0x2D => some (.xorT w)
  | 0x2E => some (.andnT w)
  | 0x2F => some (.logt w)
  | 0x30 => some (.shlT w)
  | 0x31 => some (.shrT w)
  | 0x32 => some (.shraT w)
  | 0x33 => some (.rotlT w)
  | 0x34 => some (.funnel w)
  | 0x35 => some (.bfeT w)
  | 0x36 => some (.bfi w)
  | 0x37 => some (.popc w)
  | 0x38 => some (.clz w)
  | 0x39 => some (.ctz w)
  | 0x3A => some (.brev w)
  | 0x3B => some (.permb w)
  | 0x3C => some (.permn w)
  | 0x3D => some (.sel w)
  | 0x3E => some (.icmpT w)
  | 0x3F => some (.pcomb w)
  | 0x40 => some (.mov w)
  | 0x42 => some (.movx w)
  | 0x43 => some (.leaT w)
  | 0x44 => some (.aper w)
  | 0x45 => some (.lxchT w)
  | 0x46 => some (.poll w)
  | 0x47 => some (.redx w)
  | 0x48 => some (.scanx w)
  | 0x49 => some (.eqmask w)
  | 0x4A => some (.lead w)
  | 0x60 => some (.faddT w)
  | 0x61 => some (.fsub w)
  | 0x62 => some (.fmulT w)
  | 0x63 => some (.ffmaT w)
  | 0x64 => some (.fminT w)
  | 0x65 => some (.fmaxT w)
  | 0x66 => some (.fcmpT w)
  | 0x67 => some (.frcp w)
  | 0x68 => some (.frsq w)
  | 0x69 => some (.fsqrt w)
  | 0x6A => some (.fexp2 w)
  | 0x6B => some (.flog2 w)
  | 0x6C => some (.fsin w)
  | 0x6D => some (.fcos w)
  | 0x6E => some (.ftanh w)
  | 0x70 => some (.daddT w)
  | 0x71 => some (.dmulT w)
  | 0x72 => some (.dfma w)
  | 0x73 => some (.dmin w)
  | 0x74 => some (.dmax w)
  | 0x75 => some (.dcmp w)
  | 0x76 => some (.drcp w)
  | 0x77 => some (.pkadd w)
  | 0x78 => some (.pkmul w)
  | 0x79 => some (.pkfma w)
  | 0x7A => some (.pksub w)
  | 0x7B => some (.pkmin w)
  | 0x7C => some (.pkmax w)
  | 0x7D => some (.idot4 w)
  | 0x8B => some (.packn w)
  | 0x8C => some (.unpackn w)
  | 0xB3 => some (.spush w)
  | 0xB4 => some (.qpop w)
  | _ => none

/-- The I-format instruction of a major form (R133). -/
def ofI (major : Nat) (w : IWord) : Option Instr :=
  match major with
  | 0x0B => some (.trap w)
  | 0x10 => some (.mfsr w)
  | 0x11 => some (.mtsr w)
  | 0x16 => some (.movk w)
  | 0x1D => some (.bmode w)
  | 0x41 => some (.movi w)
  | 0x4B => some (.lxchI w)
  | 0x50 => some (.iaddI w)
  | 0x51 => some (.isubI w)
  | 0x52 => some (.imulI w)
  | 0x53 => some (.iminI w)
  | 0x54 => some (.imaxI w)
  | 0x55 => some (.andI w)
  | 0x56 => some (.orI w)
  | 0x57 => some (.xorI w)
  | 0x58 => some (.andnI w)
  | 0x59 => some (.shlI w)
  | 0x5A => some (.shrI w)
  | 0x5B => some (.shraI w)
  | 0x5C => some (.rotlI w)
  | 0x5D => some (.bfeI w)
  | 0x5E => some (.icmpI w)
  | 0x5F => some (.leaI w)
  | 0x80 => some (.faddI w)
  | 0x81 => some (.fmulI w)
  | 0x82 => some (.ffmaI w)
  | 0x83 => some (.fminI w)
  | 0x84 => some (.fmaxI w)
  | 0x85 => some (.fcmpI w)
  | 0x86 => some (.daddI w)
  | 0x87 => some (.dmulI w)
  | 0x88 => some (.cvt w)
  | 0x89 => some (.cvtn w)
  | 0x8A => some (.cvts w)
  | _ => none

/-- The M-format instruction of a major form (R133). -/
def ofM (major : Nat) (w : MWord) : Option Instr :=
  match major with
  | 0x18 => some (.watch w)
  | 0x90 => some (.ld w)
  | 0x91 => some (.st w)
  | 0x92 => some (.ldbnd w)
  | 0x93 => some (.tilefill w)
  | 0x94 => some (.ldmc w)
  | 0x95 => some (.stf w)
  | 0x96 => some (.zfill w)
  | 0x97 => some (.pref w)
  | 0x98 => some (.ldacc w)
  | 0x99 => some (.stacc w)
  | 0x9A => some (.atom w)
  | 0x9B => some (.cas w)
  | 0x9C => some (.red w)
  | 0x9D => some (.fence w)
  | 0xB5 => some (.pld w)
  | 0xB6 => some (.pst w)
  | 0xB7 => some (.patom w)
  | _ => none

/-- The B-format instruction of a major form (R133). -/
def ofB (major : Nat) (w : BWord) : Option Instr :=
  match major with
  | 0x01 => some (.bra w)
  | 0x02 => some (.brc w)
  | 0x03 => some (.call w)
  | _ => none

/-- The W-format instruction of a major form (R133). -/
def ofW (major : Nat) (w : WWord) : Option Instr :=
  match major with
  | 0x19 => some (.wait w)
  | _ => none

/-- The E-format instruction of a major form (R133). -/
def ofE (major : Nat) (w : EWord) : Option Instr :=
  match major with
  | 0x0D => some (.launch w)
  | 0xA0 => some (.mma w)
  | 0xA1 => some (.mmaQ8 w)
  | 0xA2 => some (.mmaQ6 w)
  | 0xA3 => some (.mmaQ4 w)
  | 0xA4 => some (.smma w)
  | 0xA5 => some (.smmaQ8 w)
  | 0xA6 => some (.smmaQ6 w)
  | 0xA7 => some (.smmaQ4 w)
  | 0xA8 => some (.mmaw w)
  | 0xA9 => some (.mmawQ8 w)
  | 0xAA => some (.mmawQ6 w)
  | 0xAB => some (.mmawQ4 w)
  | 0xAC => some (.accz w)
  | 0xAD => some (.accdrain w)
  | 0xAE => some (.accload w)
  | 0xB0 => some (.copy w)
  | 0xB1 => some (.copymc w)
  | 0xB2 => some (.copyq w)
  | 0xB8 => some (.coll w)
  | _ => none

/-- The instruction of a major form and its fields (R133). -/
def ofBody (major : Nat) : Body → Option Instr
  | .t x => ofT major x
  | .i x => ofI major x
  | .m x => ofM major x
  | .b x => ofB major x
  | .w x => ofW major x
  | .e x => ofE major x

/-- The major form and the fields of an instruction; none for the steps of the other agents, which have no word. -/
def rawOf : Instr → Option (Nat × Body)
  | .nop w => some (0x00, .t w)
  | .calli w => some (0x04, .t w)
  | .jmpi w => some (0x05, .t w)
  | .ret w => some (0x06, .t w)
  | .exit w => some (0x07, .t w)
  | .demote w => some (0x08, .t w)
  | .commit w => some (0x09, .t w)
  | .yield w => some (0x0A, .t w)
  | .rtt w => some (0x0C, .t w)
  | .bar w => some (0x0E, .t w)
  | .hbar w => some (0x0F, .t w)
  | .flushi w => some (0x12, .t w)
  | .tlbinv w => some (0x13, .t w)
  | .time w => some (0x14, .t w)
  | .tid w => some (0x15, .t w)
  | .sleep w => some (0x17, .t w)
  | .waitbm w => some (0x1A, .t w)
  | .stepdl w => some (0x1B, .t w)
  | .slack w => some (0x1C, .t w)
  | .iaddT w => some (0x20, .t w)
  | .isubT w => some (0x21, .t w)
  | .iaddc w => some (0x22, .t w)
  | .imulT w => some (0x23, .t w)
  | .imulh w => some (0x24, .t w)
  | .imad w => some (0x25, .t w)
  | .imadw w => some (0x26, .t w)
  | .iminT w => some (0x27, .t w)
  | .imaxT w => some (0x28, .t w)
  | .iabs w => some (0x29, .t w)
  | .isad w => some (0x2A, .t w)
  | .andT w => some (0x2B, .t w)
  | .orT w => some (0x2C, .t w)
  | .xorT w => some (0x2D, .t w)
  | .andnT w => some (0x2E, .t w)
  | .logt w => some (0x2F, .t w)
  | .shlT w => some (0x30, .t w)
  | .shrT w => some (0x31, .t w)
  | .shraT w => some (0x32, .t w)
  | .rotlT w => some (0x33, .t w)
  | .funnel w => some (0x34, .t w)
  | .bfeT w => some (0x35, .t w)
  | .bfi w => some (0x36, .t w)
  | .popc w => some (0x37, .t w)
  | .clz w => some (0x38, .t w)
  | .ctz w => some (0x39, .t w)
  | .brev w => some (0x3A, .t w)
  | .permb w => some (0x3B, .t w)
  | .permn w => some (0x3C, .t w)
  | .sel w => some (0x3D, .t w)
  | .icmpT w => some (0x3E, .t w)
  | .pcomb w => some (0x3F, .t w)
  | .mov w => some (0x40, .t w)
  | .movx w => some (0x42, .t w)
  | .leaT w => some (0x43, .t w)
  | .aper w => some (0x44, .t w)
  | .lxchT w => some (0x45, .t w)
  | .poll w => some (0x46, .t w)
  | .redx w => some (0x47, .t w)
  | .scanx w => some (0x48, .t w)
  | .eqmask w => some (0x49, .t w)
  | .lead w => some (0x4A, .t w)
  | .faddT w => some (0x60, .t w)
  | .fsub w => some (0x61, .t w)
  | .fmulT w => some (0x62, .t w)
  | .ffmaT w => some (0x63, .t w)
  | .fminT w => some (0x64, .t w)
  | .fmaxT w => some (0x65, .t w)
  | .fcmpT w => some (0x66, .t w)
  | .frcp w => some (0x67, .t w)
  | .frsq w => some (0x68, .t w)
  | .fsqrt w => some (0x69, .t w)
  | .fexp2 w => some (0x6A, .t w)
  | .flog2 w => some (0x6B, .t w)
  | .fsin w => some (0x6C, .t w)
  | .fcos w => some (0x6D, .t w)
  | .ftanh w => some (0x6E, .t w)
  | .daddT w => some (0x70, .t w)
  | .dmulT w => some (0x71, .t w)
  | .dfma w => some (0x72, .t w)
  | .dmin w => some (0x73, .t w)
  | .dmax w => some (0x74, .t w)
  | .dcmp w => some (0x75, .t w)
  | .drcp w => some (0x76, .t w)
  | .pkadd w => some (0x77, .t w)
  | .pkmul w => some (0x78, .t w)
  | .pkfma w => some (0x79, .t w)
  | .pksub w => some (0x7A, .t w)
  | .pkmin w => some (0x7B, .t w)
  | .pkmax w => some (0x7C, .t w)
  | .idot4 w => some (0x7D, .t w)
  | .packn w => some (0x8B, .t w)
  | .unpackn w => some (0x8C, .t w)
  | .spush w => some (0xB3, .t w)
  | .qpop w => some (0xB4, .t w)
  | .trap w => some (0x0B, .i w)
  | .mfsr w => some (0x10, .i w)
  | .mtsr w => some (0x11, .i w)
  | .movk w => some (0x16, .i w)
  | .bmode w => some (0x1D, .i w)
  | .movi w => some (0x41, .i w)
  | .lxchI w => some (0x4B, .i w)
  | .iaddI w => some (0x50, .i w)
  | .isubI w => some (0x51, .i w)
  | .imulI w => some (0x52, .i w)
  | .iminI w => some (0x53, .i w)
  | .imaxI w => some (0x54, .i w)
  | .andI w => some (0x55, .i w)
  | .orI w => some (0x56, .i w)
  | .xorI w => some (0x57, .i w)
  | .andnI w => some (0x58, .i w)
  | .shlI w => some (0x59, .i w)
  | .shrI w => some (0x5A, .i w)
  | .shraI w => some (0x5B, .i w)
  | .rotlI w => some (0x5C, .i w)
  | .bfeI w => some (0x5D, .i w)
  | .icmpI w => some (0x5E, .i w)
  | .leaI w => some (0x5F, .i w)
  | .faddI w => some (0x80, .i w)
  | .fmulI w => some (0x81, .i w)
  | .ffmaI w => some (0x82, .i w)
  | .fminI w => some (0x83, .i w)
  | .fmaxI w => some (0x84, .i w)
  | .fcmpI w => some (0x85, .i w)
  | .daddI w => some (0x86, .i w)
  | .dmulI w => some (0x87, .i w)
  | .cvt w => some (0x88, .i w)
  | .cvtn w => some (0x89, .i w)
  | .cvts w => some (0x8A, .i w)
  | .watch w => some (0x18, .m w)
  | .ld w => some (0x90, .m w)
  | .st w => some (0x91, .m w)
  | .ldbnd w => some (0x92, .m w)
  | .tilefill w => some (0x93, .m w)
  | .ldmc w => some (0x94, .m w)
  | .stf w => some (0x95, .m w)
  | .zfill w => some (0x96, .m w)
  | .pref w => some (0x97, .m w)
  | .ldacc w => some (0x98, .m w)
  | .stacc w => some (0x99, .m w)
  | .atom w => some (0x9A, .m w)
  | .cas w => some (0x9B, .m w)
  | .red w => some (0x9C, .m w)
  | .fence w => some (0x9D, .m w)
  | .pld w => some (0xB5, .m w)
  | .pst w => some (0xB6, .m w)
  | .patom w => some (0xB7, .m w)
  | .bra w => some (0x01, .b w)
  | .brc w => some (0x02, .b w)
  | .call w => some (0x03, .b w)
  | .wait w => some (0x19, .w w)
  | .launch w => some (0x0D, .e w)
  | .mma w => some (0xA0, .e w)
  | .mmaQ8 w => some (0xA1, .e w)
  | .mmaQ6 w => some (0xA2, .e w)
  | .mmaQ4 w => some (0xA3, .e w)
  | .smma w => some (0xA4, .e w)
  | .smmaQ8 w => some (0xA5, .e w)
  | .smmaQ6 w => some (0xA6, .e w)
  | .smmaQ4 w => some (0xA7, .e w)
  | .mmaw w => some (0xA8, .e w)
  | .mmawQ8 w => some (0xA9, .e w)
  | .mmawQ6 w => some (0xAA, .e w)
  | .mmawQ4 w => some (0xAB, .e w)
  | .accz w => some (0xAC, .e w)
  | .accdrain w => some (0xAD, .e w)
  | .accload w => some (0xAE, .e w)
  | .copy w => some (0xB0, .e w)
  | .copymc w => some (0xB1, .e w)
  | .copyq w => some (0xB2, .e w)
  | .coll w => some (0xB8, .e w)
  | _ => none

end Sys2Proof
end

