-- ==== Sys2Proof/WellFormed.lean ====
section
/-! DEFINITION. Which instruction words are legal encodings (R109, R112, R119, R120, R135). -/

namespace Sys2Proof

/-- Why a word is an unassigned encoding (R135), or no instruction word. -/
inductive Reject
  /-- MAJOR is reserved or 0xF0-0xFF. -/
  | major
  /-- VAR, MOD, ORD, SCOPE or a constant that the instruction does not accept. -/
  | form
  /-- A reserved field of the instruction word or of its literal word is not zero. -/
  | reserved
  /-- A field holds a number outside its width; no word of 64 bits does. -/
  | range
  /-- The guard is PRED = 0 with PNEG = 1, or stands on an instruction that must be unguarded. -/
  | guard
  /-- A register, predicate or constant field against its use. -/
  | operand
  /-- LSEL or LIT against R120. -/
  | literal
  /-- Fewer bytes than the words of the instruction. -/
  | short
  deriving DecidableEq, Repr

/-- A register field obeys its use (R112, R119, R135). -/
def fldOk (u : Use) (long : Bool) (f : Fld) : Bool :=
  match u, f with
  | .none, .direct k => k = 2047
  | .reg _ _ _, .direct k => k < 2048
  | .reg _ _ _, .rel x d => long ∧ x < 4 ∧ d < 2047
  | .reg _ rd wr, .lit => long ∧ rd ∧ !wr
  | .pred, .direct k => k < 8
  | .konst lim, .direct k => k < lim
  | _, _ => false

/-- A field without a relative or literal form. -/
def Fld.isLit : Fld → Bool
  | .lit => true
  | _ => false

/-- 1 if a field is replaced by LIT. -/
def Fld.lits (f : Fld) : Nat := if f.isLit then 1 else 0

/-- How many sources of a word LIT replaces. -/
def Body.lits : Body → Nat
  | .t x => x.va.lits + x.vb.lits + x.vc.lits
  | .i x => x.va.lits + if x.immLit then 1 else 0
  | .m x => if x.offLit then 1 else 0
  | .e x => x.va.lits
  | _ => 0

/-- The ranges of the fields that hold numbers (R108, R114). -/
def rangeOk (b : Body) : Bool :=
  decide (b.h.pred < 8 ∧ b.h.var < 8 ∧ b.h.ret < 4 ∧ b.h.mod < 4) &&
  match b with
  | .t _ => true
  | .i x => x.imm < 2 ^ 22
  | .m x => x.off < 2 ^ 16 ∧ x.scope < 8 ∧ x.ord < 4
  | .b x => x.off < 2 ^ 24
  | .w x => x.ldc < 64 ∧ x.stc < 64 ∧ x.cpc < 32 ∧ x.tlc < 16
  | .e x => x.pb < 2 ^ 15 ∧ x.aux < 32 ∧ x.qs < 4

/-- LIT and LSEL (R119, R120): it replaces no destination and one source at most, only with L = 1, IMM and OFF zero under LIT, LIT zero when unused. -/
def litOk (r : Row) (b : Body) : Bool :=
  decide (b.lits ≤ 1 ∧ (b.h.long ∨ b.lits = 0) ∧ (b.lits = 1 ∨ b.h.lit = 0)) &&
  match b with
  | .t x => x.vd.isLit = false
  | .i x => x.vd.isLit = false ∧ (x.va.isLit = false ∨ x.imm = 0) ∧ (x.immLit = false ∨ r.imm ∧ x.imm = 0)
  | .m x => x.vd.isLit = false ∧ x.va.isLit = false ∧ (x.offLit = false ∨ r.imm ∧ x.off = 0)
  | .b x => x.va.isLit = false
  | .e x => x.vd.isLit = false
  | .w _ => true

/-- The register fields obey their uses. -/
def fieldsOk (r : Row) (b : Body) : Bool :=
  match b with
  | .t x => fldOk r.vd x.h.long x.vd ∧ fldOk r.va x.h.long x.va ∧ fldOk r.vb x.h.long x.vb ∧ fldOk r.vc x.h.long x.vc
  | .i x => fldOk r.vd x.h.long x.vd ∧ fldOk r.va x.h.long x.va
  | .m x => fldOk r.vd x.h.long x.vd ∧ fldOk r.va x.h.long x.va
  | .b x => fldOk r.va x.h.long x.va
  | .w _ => true
  | .e x => fldOk r.vd x.h.long x.vd ∧ fldOk r.va x.h.long x.va

/-- The guard (R109, R135). -/
def guardOk (major : Nat) (h : Hd) : Bool :=
  (h.pred ≠ 0 ∨ h.pneg = false) ∧ (unguarded major = false ∨ h.pred = 0)

/-- Why the word is an unassigned encoding, if it is (R135). -/
def reject (major : Nat) (b : Body) : Option Reject :=
  if rangeOk b = false then some .range
  else
    match rowOf major b with
    | none => some .form
    | some r =>
      if guardOk major b.h = false then some .guard
      else if litOk r b = false then some .literal
      else if fieldsOk r b = false then some .operand
      else none

/-- A well-formed instruction has a legal word. The steps of the other agents have none and are well-formed. -/
def Instr.wf (i : Instr) : Bool :=
  match rawOf i with
  | none => true
  | some (major, b) => reject major b = none

end Sys2Proof
end

