-- ==== Sys2Proof/Decode.lean ====
section
/-! DEFINITION. Decoding of instruction words, literal words and block headers (R107-R121, R135), and the encoder. -/

namespace Sys2Proof

/-- A register field under its REL and XI bits (R119, R120): `sel` says that LSEL names it. -/
def rdFld (raw rel xi : Nat) (sel : Bool) : Except Reject Fld :=
  if sel then if raw = 2047 ∧ rel = 0 then .ok .lit else .error .literal
  else if rel = 1 then if raw = 2047 then .error .operand else .ok (.rel xi raw)
  else .ok (.direct raw)

/-- The fields common to every word (R108); LIT from the literal word. -/
def rdHd (w l : Nat) : Hd :=
  { pred := bits w 49 3, pneg := bit w 48, var := bits w 52 3, ret := bits w 46 2, mod := bits w 44 2,
    long := bit w 55, lit := BitVec.ofNat 32 (bits l 0 32) }

/-- T format. -/
def rdT (w l : Nat) : Except Reject Body := do
  let lsel := bits l 43 2
  let vd ← rdFld (bits w 33 11) (bits l 56 1) (bits l 54 2) false
  let va ← rdFld (bits w 22 11) (bits l 53 1) (bits l 51 2) (lsel = 1)
  let vb ← rdFld (bits w 11 11) (bits l 50 1) (bits l 48 2) (lsel = 2)
  let vc ← rdFld (bits w 0 11) (bits l 47 1) (bits l 45 2) (lsel = 3)
  return .t ⟨rdHd w l, vd, va, vb, vc⟩

/-- LSEL of a format that has no fields VB and VC, whose BREL and CREL must be 0 (R120, R135): 0, 1 for the source that VA
names, 2 for IMM and OFF, as far as the format has them. -/
def selOf (l : Nat) (one two : Bool) : Except Reject Nat :=
  let n := bits l 43 2
  if bits l 50 1 ≠ 0 ∨ bits l 47 1 ≠ 0 then .error .operand
  else if n = 0 ∨ (n = 1 ∧ one) ∨ (n = 2 ∧ two) then .ok n
  else .error .literal

def rdI (w l : Nat) : Except Reject Body := do
  let s ← selOf l true true
  let vd ← rdFld (bits w 33 11) (bits l 56 1) (bits l 54 2) false
  let va ← rdFld (bits w 22 11) (bits l 53 1) (bits l 51 2) (s = 1)
  return .i ⟨rdHd w l, vd, va, bits w 0 22, s = 2⟩

def rdM (w l : Nat) : Except Reject Body := do
  let s ← selOf l false true
  let vd ← rdFld (bits w 33 11) (bits l 56 1) (bits l 54 2) false
  let va ← rdFld (bits w 22 11) (bits l 53 1) (bits l 51 2) false
  if bits w 0 1 ≠ 0 then .error .reserved
  else return .m ⟨rdHd w l, vd, va, bits w 6 16, s = 2, bits w 3 3, bits w 1 2⟩

def rdB (w l : Nat) : Except Reject Body :=
  if bits w 24 9 ≠ 0 then .error .reserved else .ok (.b ⟨rdHd w l, .direct (bits w 33 11), bits w 0 24⟩)

def rdW (w l : Nat) : Except Reject Body :=
  if bits w 0 23 ≠ 0 then .error .reserved
  else .ok (.w ⟨rdHd w l, bits w 38 6, bits w 32 6, bits w 27 5, bits w 23 4⟩)

def rdE (w l : Nat) : Except Reject Body := do
  let s ← selOf l true false
  let vd ← rdFld (bits w 33 11) (bits l 56 1) (bits l 54 2) false
  let va ← rdFld (bits w 22 11) (bits l 53 1) (bits l 51 2) (s = 1)
  return .e ⟨rdHd w l, vd, va, bits w 7 15, bits w 2 5, bits w 0 2⟩

/-- The fields of a word and of its literal word (`l` is 0 when L = 0). -/
def rdBody (f : Fmt) (w l : Nat) : Except Reject Body :=
  if bits l 57 7 ≠ 0 ∨ bits l 32 11 ≠ 0 then .error .reserved
  else
    match f with
    | .t => rdT w l
    | .i => rdI w l
    | .m => rdM w l
    | .b => rdB w l
    | .w => rdW w l
    | .e => rdE w l

/-- Decoding of a 64-bit instruction word; `lit` is the word after it, read only when L = 1. Total. -/
def decode (w lit : Nat) : Except Reject Instr :=
  let major := bits w 56 8
  match fmtOf major with
  | none => .error .major
  | some f =>
    match rdBody f w (if bit w 55 then lit else 0) with
    | .error e => .error e
    | .ok b =>
      match reject major b with
      | some e => .error e
      | none =>
        match ofBody major b with
        | some i => .ok i
        | none => .error .major

/-- The number of words that the instruction whose first word is `w` takes. -/
def wordsOf (w : Nat) : Nat := if bit w 55 then 2 else 1

/-- The block header in a word (R121); none where MARK is not 0xF. -/
def rdHeader (w : Nat) : Option Header :=
  if bits w 60 4 = 15 then
    some { len := bits w 50 10, livehi := bits w 39 11, reconv := bits w 19 20, pfkind := bits w 17 2, pfoff := bits w 0 17 }
  else none

/-- Little-endian value of bytes (R4). -/
def leNat : List Byte → Nat
  | [] => 0
  | b :: bs => b.toNat + 256 * leNat bs

/-- The low `n` bytes of a value, little-endian (R4). -/
def leBytes : Nat → Nat → List Byte
  | 0, _ => []
  | n + 1, x => BitVec.ofNat 8 x :: leBytes n (x / 256)

/-- Decoding of bytes: the instruction and the bytes after it. -/
def decodeBytes (bs : List Byte) : Except Reject (Instr × List Byte) :=
  if bs.length < 8 then .error .short
  else
    let w := leNat (bs.take 8)
    let n := 8 * wordsOf w
    if bs.length < n then .error .short
    else
      match decode w (leNat ((bs.drop 8).take 8)) with
      | .ok i => .ok (i, bs.drop n)
      | .error e => .error e

/-- The instruction read from the bits `w` of an instruction, bit 0 the lowest bit of its first word; the words
above `nbits` are zeros. -/
def decodeTableWord (nbits w : Nat) : Option Instr :=
  match decodeBytes (leBytes 16 (w % 2 ^ nbits)) with
  | .ok (i, _) => some i
  | .error _ => none

/-- The bits of a register field in the instruction word. -/
def wrFld : Fld → Nat
  | .direct n => n
  | .rel _ d => d
  | .lit => 2047

/-- REL and XI of a register field as three bits of the literal word. -/
def wrRel : Fld → Nat
  | .rel x _ => 4 + x
  | _ => 0

/-- The common fields in place (R108). -/
def wrHd (major : Nat) (h : Hd) : Nat :=
  major * 2 ^ 56 + h.long.toNat * 2 ^ 55 + h.var * 2 ^ 52 + h.pred * 2 ^ 49 + h.pneg.toNat * 2 ^ 48 + h.ret * 2 ^ 46 +
    h.mod * 2 ^ 44

/-- LSEL of a T-format word (R119). -/
def wrSel (w : TWord) : Nat :=
  if w.va.isLit then 1 else if w.vb.isLit then 2 else if w.vc.isLit then 3 else 0

/-- Instruction word of the fields (R114). -/
def wrWord (major : Nat) : Body → Nat
  | .t x => wrHd major x.h + wrFld x.vd * 2 ^ 33 + wrFld x.va * 2 ^ 22 + wrFld x.vb * 2 ^ 11 + wrFld x.vc
  | .i x => wrHd major x.h + wrFld x.vd * 2 ^ 33 + wrFld x.va * 2 ^ 22 + x.imm
  | .m x => wrHd major x.h + wrFld x.vd * 2 ^ 33 + wrFld x.va * 2 ^ 22 + x.off * 2 ^ 6 + x.scope * 2 ^ 3 + x.ord * 2
  | .b x => wrHd major x.h + wrFld x.va * 2 ^ 33 + x.off
  | .w x => wrHd major x.h + x.ldc * 2 ^ 38 + x.stc * 2 ^ 32 + x.cpc * 2 ^ 27 + x.tlc * 2 ^ 23
  | .e x => wrHd major x.h + wrFld x.vd * 2 ^ 33 + wrFld x.va * 2 ^ 22 + x.pb * 2 ^ 7 + x.aux * 2 ^ 2 + x.qs

/-- Literal word of the fields (R119); the index-register bits of an operand that is not relative are 0. -/
def wrLit : Body → Nat
  | .t x => wrRel x.vd * 2 ^ 54 + wrRel x.va * 2 ^ 51 + wrRel x.vb * 2 ^ 48 + wrRel x.vc * 2 ^ 45 + wrSel x * 2 ^ 43 +
      x.h.lit.toNat
  | .i x => wrRel x.vd * 2 ^ 54 + wrRel x.va * 2 ^ 51 + (if x.va.isLit then 1 else if x.immLit then 2 else 0) * 2 ^ 43 +
      x.h.lit.toNat
  | .m x => wrRel x.vd * 2 ^ 54 + wrRel x.va * 2 ^ 51 + (if x.offLit then 2 else 0) * 2 ^ 43 + x.h.lit.toNat
  | .e x => wrRel x.vd * 2 ^ 54 + wrRel x.va * 2 ^ 51 + (if x.va.isLit then 1 else 0) * 2 ^ 43 + x.h.lit.toNat
  | .b x => x.h.lit.toNat
  | .w x => x.h.lit.toNat

/-- The words of an instruction: its instruction word and its literal word (0 when L = 0); none for the steps of
the other agents. -/
def encode (i : Instr) : Option (Nat × Nat) :=
  match rawOf i with
  | none => none
  | some (major, b) => some (wrWord major b, wrLit b)

end Sys2Proof
end

