-- ==== Sys2Proof/Machine/State.lean ====
section
/-! DEFINITION. The state of the Bamok 9S: everything the spec gives the machine, as plain data, and its reset. -/

namespace Sys2Proof.Machine

/-! ## Why a step stops -/

/-- A stop that the machine reports. -/
inductive Fault
  /-- Raised by a page-table walk or a control-plane access whose physical address lies in no region of R93. Safe:
  the spec gives no effect, and the model stops. -/
  | noSuchLocation (pa : Nat)
  deriving DecidableEq, Repr

/-- An instruction without a meaning. -/
inductive Refusal
  /-- Raised by an arm of exec whose instruction has no meaning yet. Safe: the model stops. -/
  | notModelled (mnemonic : String)
  deriving DecidableEq, Repr

/-! ## Threads -/

/-- A predicate: FALSE, TRUE, or UNKNOWN in an interval thread (R159). -/
inductive Tri
  | f | t | u
  deriving DecidableEq, Repr

/-- The outstanding-operation counters (R127). -/
structure Counts where
  ld : Nat
  st : Nat
  cp : Nat
  tl : Nat
  deriving DecidableEq, Repr

/-- What keeps a thread from being ready, beside its next instruction (R38, R42-R44, R164-R181, R406, R407). -/
inductive Wait
  /-- Only its next instruction decides. -/
  | none
  /-- Held at its reconvergence block since this CYCLE count of its die. -/
  | held (since : Nat)
  /-- Has arrived at BAR. -/
  | bar
  /-- Has arrived at HBAR. -/
  | hbar
  /-- Its barrier has completed and its wave is not yet released. -/
  | wave
  /-- SLEEP until CTIME reaches the wake time. -/
  | sleep (wake : Nat)
  /-- YIELD: granted slots still to pass. -/
  | yield (left : Nat)
  /-- Parked by WATCH. -/
  | watch
  /-- Parked for the page fault with this FID. -/
  | fault (fid : Nat)
  /-- A unit has not yet applied the thread's MTSR or server command. -/
  | unit
  /-- LAUNCH: the control plane has not answered; VD and the LAUNCH block. -/
  | launch (dest : Nat) (blk : List Byte)
  /-- An engine's queue was full. -/
  | engine (matrix : Bool)
  /-- A rendezvous fault awaits its trap: TRAPADDR. -/
  | pend (addr : W64)
  deriving DecidableEq, Repr

/-- How a thread has ended: EXIT in element mode; decided or UNKNOWN in interval mode (R47, R295). -/
inductive Ended
  | exited | decided | unknown
  deriving DecidableEq, Repr

/-- The launch bounds mode (R266): 0 .desc, 1 .off, 2 .on. -/
structure LbMode where
  mode : Nat
  edge : Nat
  depth : Nat
  budget : Nat
  deriving DecidableEq, Repr

/-- Trap state of a thread or access-slice instance (R398, R399): INTRAP, the kept helper flag, TRAPPC, TRAPCODE,
TRAPADDR; and where it was delivered, the PC and the end of its block (log 9). -/
structure TrapRegs where
  intrap : Bool
  kept : Bool
  pc : W64
  code : W32
  addr : W64
  at_ : W64
  blk : W64
  deriving DecidableEq, Repr

/-- Staged server registers (R321). -/
structure SrvRegs where
  sel : W32
  q : W32
  t : W32
  ctl : W32
  /-- STATUS of the thread's last command of each selection, by SRVSEL. -/
  status : List (Nat × Nat)
  deriving DecidableEq, Repr

/-- A recorded fill of TILEFILL (R294): base, pitches, value, bytes per element. -/
structure FillRec where
  base : W64
  py : W64
  pz : W64
  val : W64
  w : Nat
  deriving DecidableEq, Repr

/-- What only interval threads hold (R79, R294, R295): the high halves of the registers, the registers that may be
NaN, taken backward branches, recorded fills, whether a store was recorded. -/
structure IvState where
  hi : List (Nat × W32)
  nan : List Nat
  back : Nat
  fills : List FillRec
  stored : Bool
  deriving DecidableEq, Repr

/-- A thread (R33), or the access-slice slot of a flock with its s registers in `regs` (R113, R160).
`pc` addresses the next instruction word; `enter` is set while the thread stands before the header at `pc`: the address
of the word it comes from, 0 for fall-through (R122, R399); `blkEnd` is the address after its block (log 9).
`undef` is the seed of registers that nothing has written (R50); none makes them zero. -/
structure Thread where
  t : Nat
  pc : W64
  enter : Option W64
  blkEnd : W64
  intv : Bool
  regs : List (Nat × W32)
  undef : Option Nat
  preds : List Tri
  xs : List W32
  cnt : Counts
  rpc : Option W64
  helper : Bool
  retaddr : W64
  srstate : W32
  lb : LbMode
  trap : TrapRegs
  srv : SrvRegs
  wait : Wait
  waited : Nat
  ended : Option Ended
  iv : IvState
  converged : Bool
  /-- Read positions in oq0-oq7 (R256). -/
  oqpos : List Nat
  /-- The accesses that every later access, and every later write, of the thread must follow: acquires and fences
  (R216, R229); the flag says that performance at flock scope suffices (R271). -/
  after : List (Nat × Bool)
  afterW : List (Nat × Bool)
  /-- Stores of other threads of its core, not yet at their slices, that the thread has read from L1 or acquired
  (R276, R278). -/
  seen : List Nat
  /-- No load may be served by an L1 line filled before this stamp (R216). -/
  l1floor : Nat
  deriving DecidableEq, Repr

/-! ## Flocks -/

/-- A kernel descriptor (R153). -/
structure Kern where
  desc : W64
  restart : Bool
  bounds : Bool
  access : Bool
  entry : W64
  aentry : W64
  n : Nat
  sx : Nat
  sy : Nat
  sz : Nat
  herd : Nat
  scratch : Nat
  acc : Nat
  stk : Nat
  fpre : List W32
  bedge : Nat
  bdepth : Nat
  bbudget : Nat
  wins : Nat
  deriving DecidableEq, Repr

/-- An operand queue: entries freed so far, entries held (R256). -/
structure OpQueue where
  base : Nat
  items : List W64
  deriving DecidableEq, Repr

/-- The context registers a flock was placed with (R89). -/
structure PlacedRegs where
  ptroot : W64
  stkbase : W64
  vwbase : W32
  vwsize : W32
  deriving DecidableEq, Repr

/-- A tile of a bounds-mode run (R289): its depth-0 tile, depth, element ranges (lo, hi inclusive) per dimension. -/
structure Tile where
  root : Nat
  depth : Nat
  lx : Nat
  hx : Nat
  ly : Nat
  hy : Nat
  lz : Nat
  hz : Nat
  deriving DecidableEq, Repr

/-- A flock (R33, R50). `dead` marks an aborted flock whose allocations are not yet free (R55), `finished` a completed one
that stays until its herd has completed (R52, R57). -/
structure Flock where
  core : Nat
  slot : Nat
  ctx : Nat
  run : Nat
  g : Nat
  fx : Nat
  fy : Nat
  fz : Nat
  hidx : Nat
  herd : Nat
  kern : Kern
  ks : List W32
  fs : List W32
  ms : List (BitVec 128)
  oq : List OpQueue
  committed : Bool
  sigma : Option Nat
  threads : List Thread
  inst : Option Thread
  barDone : Bool
  regs : PlacedRegs
  tile : Option Tile
  dead : Bool
  finished : Bool
  deriving DecidableEq, Repr

/-! ## Memory requests -/

/-- The place of an access (R268, R271). `mxel`: byte offset in the BF16 view of the reduced-format
page whose storage begins at `base` (R103). -/
inductive Loc
  | dram (pa : Nat)
  | host (pa : Nat)
  | vault (v off : Nat)
  | spad (core slot off : Nat)
  | acc (core slot idx : Nat)
  | mxel (base fmt off : Nat)
  | peer (rank fa : Nat)
  deriving DecidableEq, Repr

/-- What a request asks for. -/
inductive ReqKind
  | ld (var : Nat)
  | st
  | stf (consumer : Nat)
  | zfill
  | atom (op : Nat)
  | cas
  | red (op : Nat)
  | watch (cmp : Nat)
  | ldmc (mask : Nat)
  | pref
  | ldacc
  | stacc
  | pld (var : Nat)
  | pst
  | patom (op : Nat)
  deriving DecidableEq, Repr

/-- A request in flight (R127, R271, R326). `after` are the requests it must follow. `val` is the value fixed at its
point; `l1` says that a store has updated its core's L1 copy. `dram` says that the line still waits for its stack. -/
structure Req where
  id : Nat
  ref : TRef
  ctx : Nat
  kind : ReqKind
  loc : Loc
  n : Nat
  data : List Byte
  dest : Nat
  ord : Nat
  scope : Nat
  hint : Nat
  after : List (Nat × Bool)
  performed : Bool
  val : List Byte
  l1 : Bool
  dram : Bool
  group : Nat
  cls : Nat
  stamp : Nat
  nc : Bool
  deriving DecidableEq, Repr

/-! ## Engines of a core -/

/-- The elements of a matrix operand (R237): signed and unsigned bytes, standard floats, or a narrow format. -/
inductive Elem
  | s8 | n8 | bf16 | f16 | f32 | f64
  | narrow (wid : Nat) (f : W32)
  deriving DecidableEq, Repr

/-- A matrix or accumulator operation. -/
inductive MatKind
  | mma | smma | mmaw | accz | drain | load
  deriving DecidableEq, Repr

/-- An accepted matrix-engine operation with the inputs taken at issue (R130, R131, R233): the parameter block, the
element types, the scales of its blocks, the allocations that hold its operands, the accesses that it must follow
(R233), each element's next group, how many updates it has made, the metadata popped, the elements of A (true) and B
read so far, numbered row by row (R241, R244). -/
structure MatOp where
  id : Nat
  ref : TRef
  ctx : Nat
  kind : MatKind
  ea : Elem
  eb : Elem
  blk : List Byte
  scales : Option (List Byte)
  qs : Nat
  afr : W32
  spA : Nat × Nat
  spB : Nat × Nat
  after : List (Nat × Bool)
  prog : List ((Nat × Nat) × Nat)
  next : Nat
  metas : List (List Byte)
  elems : List ((Bool × Nat) × Nat)
  pc : W64
  deriving DecidableEq, Repr

/-- A copy operation (R132, R249, R251). -/
inductive CopyKind
  | copy | mc | q
  deriving DecidableEq, Repr

structure CopyOp where
  id : Nat
  ref : TRef
  ctx : Nat
  kind : CopyKind
  blk : List Byte
  sadr : W64
  dadr : W64
  m : Nat
  after : List (Nat × Bool)
  targets : List (Nat × Nat)
  done : List Nat
  /-- Units held for a page fault, with its FID (R407). -/
  held : List (Nat × Nat)
  buf : List (Nat × List Byte)
  placed : Nat
  regs : PlacedRegs
  bw : Nat
  deriving DecidableEq, Repr

/-- A metadata queue (R251): the flock it is bound to, its entries. -/
structure MetaQueue where
  bound : Option (Nat × Nat)
  items : List (List Byte)
  deriving DecidableEq, Repr

/-- An L1 line (R214): its line number in DRAM, its bytes, the fill stamp, MOD 3's exemption, its recency. -/
structure L1Line where
  line : Nat
  data : List Byte
  stamp : Nat
  keep : Bool
  used : Nat
  deriving DecidableEq, Repr

/-- A fold entry (R37): port group, entry index 0-255, key. -/
structure FoldEntry where
  pg : Nat
  idx : Nat
  ctx : Nat
  intv : Bool
  pc : W64
  deriving DecidableEq, Repr

/-- What each core holds: FOLDCFG and the value that it takes at the next clock (R181), fold, instruction-cache words
by place, newest first (R125), L1, the stamp of the latest acquire at .hd or wider by a thread of the core (R216),
engines, and the round-robin pointers of background service for its four port groups and two engines (R320). -/
structure Core where
  foldcfg : W32
  foldNext : Option W32
  fold : List FoldEntry
  icache : List (Nat × W64)
  l1 : List L1Line
  floor : Nat
  mat : List MatOp
  cpy : List CopyOp
  plast : Nat
  metaq : List MetaQueue
  rr : List Nat
  deriving DecidableEq, Repr

/-! ## Clusters, vaults, dies, stacks -/

/-- A droop response (R349): its stretched clocks, or its halved issue. -/
inductive Droop
  | none
  | stretch
  | halved
  deriving DecidableEq, Repr

/-- A team that a barrier released: core, slot, team (R352). -/
structure TeamRef where
  core : Nat
  slot : Nat
  team : Nat
  deriving DecidableEq, Repr

/-- A cluster (R341, R349-R352, R391). `droopAt` is the clock of the response's alarm, `half` is set between the two
die edges of a stretched edge; the last `waveNew` waves were queued in the clock `waveClock`. -/
structure Cluster where
  cycle : Nat
  /-- CTIME at the start of the latest delivered edge (R375). -/
  edgeAt : Nat
  half : Bool
  droopcfg : W32
  slopelim : W32
  droop : Droop
  droopAt : Nat
  waves : List (List TeamRef)
  waveClock : Nat
  waveNew : Nat
  lastWave : Option Nat
  /-- A self-test in progress (R391): its kinds (bit 0 logic, bit 1 memory) and whether a TEST node asked. -/
  test : Option (Nat × Bool)
  testAt : Nat
  lastTest : Nat
  deriving DecidableEq, Repr

/-- The state of a slice line (R98). -/
inductive LineSt
  | clean | dirty | zero
  | fwd (consumer : Nat)
  deriving DecidableEq, Repr

structure Line where
  line : Nat
  st : LineSt
  way : Nat
  used : Nat
  data : List Byte
  deriving DecidableEq, Repr

/-- A watch entry (R102): the waiting thread, or none for a graph walker's WAITV node (R307). -/
structure WatchEnt where
  ref : Option TRef
  ctx : Nat
  loc : Loc
  n : Nat
  cmp : Nat
  val : W64
  req : Nat
  deriving DecidableEq, Repr

/-- A multicast entry or closed record (R221): key, group and class of its opener, time, joined requests. -/
structure McEnt where
  ctx : Nat
  line : Loc
  mask : Nat
  group : Nat
  cls : Nat
  time : Nat
  joined : List Nat
  deriving DecidableEq, Repr

structure Vault where
  split : Nat
  pendSplit : List (TRef × Nat)
  lines : List Line
  tick : Nat
  watch : List WatchEnt
  mc : List McEnt
  mcOld : List McEnt
  deriving DecidableEq, Repr

/-- A compute die (R335-R346). `supply` is the supply in mV when its present ramp began (`rampAt`), `ramp` the point whose
voltage it heads for; `step` the point of a divider step begun at `stepAt`; `phase` the part of the present clock that
has passed, in sixteenths of the next edge's way. -/
structure Die where
  cycle : Nat
  phase : Nat
  tvalid : Bool
  risk : Bool
  trans : Bool
  ceil : Nat
  tgt : Nat
  cur : Nat
  supply : Nat
  ramp : Option Nat
  rampAt : Nat
  step : Option Nat
  stepAt : Nat
  slack : List W64
  /-- CEIL points lowered for power (R354), and whether WARN lowered CEIL. -/
  lowered : Nat
  warned : Bool
  warnAt : Nat
  powered : Bool
  deriving DecidableEq, Repr

/-- A request waiting for a DRAM stack (R326, R364); `admitted` by the stack's arbiter to its pseudo-channel. -/
structure DramReq where
  req : Option Nat
  ctx : Option Nat
  /-- The context that fails with the request (R415). -/
  owner : Option Nat
  cls : Nat
  stamp : Nat
  bytes : Nat
  bank : Nat
  admitted : Bool
  deriving DecidableEq, Repr

/-- The interface of a pseudo-channel (R365, R415). -/
inductive PcSt
  | active | selfRefresh | exiting | retrain
  deriving DecidableEq, Repr

structure PseudoChan where
  pc : Nat
  st : PcSt
  idleSince : Nat
  /-- CTIME of an entry into self-refresh by the idle timer: a request of the same tick abandons it (R365). -/
  enterAt : Option Nat
  exitAt : Nat
  waiting : List DramReq
  /-- Refresh postponement counts by bank (R364). -/
  postponed : List (Nat × Nat)
  deriving DecidableEq, Repr

/-- A stored training record (R366): the stack's serial number, the training temperature in eighths of a degree, the
results, the CRC-32. -/
structure TrainRec where
  serial : W64
  temp : Nat
  results : List Byte
  crc : W32
  deriving DecidableEq, Repr

/-- A DRAM stack (R364-R366, R414): TRN, SRIDLE, pseudo-channels that differ from an idle active one, its training
record in non-volatile storage. -/
structure Stack where
  rr : Nat
  trn : Nat
  sridle : Nat
  pcs : List PseudoChan
  record : Option TrainRec
  deriving DecidableEq, Repr

/-! ## Translation -/

/-- Where a translation is cached (R94): for the section's victim TLB a 16-byte slot borrowed from a core's
scratchpad, or from its instruction cache (R95). -/
inductive TlbPlace
  | l1 (core : Nat) | l2 (sec : Nat) | victim (core : Nat) (icache : Bool)
  deriving DecidableEq, Repr

/-- A translation (R92, R94): the leaf entry of a page of 2^size bytes. -/
structure Tlb where
  place : TlbPlace
  ctx : Nat
  page : Nat
  size : Nat
  leaf : W64
  deriving DecidableEq, Repr

/-! ## Contexts -/

/-- The context registers of R89, R303, R356 and R397. -/
structure CtxRegs where
  ptroot : W64
  stkbase : W64
  vwbase : W32
  vwsize : W32
  sqbase : W64
  sqlog : W32
  csave : W64
  csavesz : W32
  drainlim : W32
  vdev : W32
  prio : W32
  grpbase : W64
  expbase : W64
  expsize : W64
  rankbase : W64
  rankcnt : W32
  trapvec : W64
  trapveca : W64
  deriving DecidableEq, Repr

/-- The context states of R327, numbered as CSTATE (R330). -/
inductive CState
  | running | draining | saving | stopped | restoring | errstop
  deriving DecidableEq, Repr

/-- How a node of a walked graph stands (R308, R309). -/
inductive NodeSt
  | idle | busy | performed | skipped
  deriving DecidableEq, Repr

structure Node where
  idx : Nat
  st : NodeSt
  taken : Nat
  skips : Nat
  /-- LOOP: iterations, whether the latest performance took the body, back edges received. -/
  iters : Nat
  inBody : Bool
  backs : Nat
  /-- WAITV: the slice found the comparison true (R102). TEST: the request is written. -/
  woke : Bool
  /-- TEST: the clusters of CMASK (R311). -/
  mask : Nat
  deriving DecidableEq, Repr

/-- A submission entry (R304). -/
structure Entry where
  step : W64
  stepid : W32
  sflags : W32
  deriving DecidableEq, Repr

/-- The graph walker's present step (R306-R312). -/
structure Step where
  entry : Entry
  nnodes : Nat
  risknode : Nat
  nodes : W64
  done : W64
  list : List Node
  riskRaised : Bool
  riskLaunched : Bool
  riskDies : List Nat
  /-- END is performed; the completion signal is written. -/
  ending : Bool
  signalled : Bool
  deriving DecidableEq, Repr

/-- Bounds state of a run (R287-R302). -/
structure Bounds where
  edge : Nat
  depth : Nat
  budget : Nat
  dim : Nat
  queue : List Tile
  running : List Tile
  /-- Leaves with their outcome: 0 DONE, 1 SETTLED, 3 SCATTER; tiles that became SPLIT. -/
  leaves : List (Tile × Nat)
  splits : List Tile
  deriving DecidableEq, Repr

/-- A dependence window slot of a run (R155, R315): producer run number, none when always satisfied; scale, low and
high offsets per dimension. -/
structure Window where
  prod : Option Nat
  scale : List Int
  lo : List Int
  hi : List Int
  deriving DecidableEq, Repr

/-- A run (R313-R317). `queue` holds the flocks not yet placed, aborted ones first; `done` the completed ones. -/
structure Run where
  num : Nat
  node : Option Nat
  risk : Bool
  kern : Kern
  gx : Nat
  gy : Nat
  gz : Nat
  ks : List W32
  seed : W32
  bitmap : W64
  cdone : W64
  breport : W64
  wins : List Window
  queue : List Nat
  blocked : List (Nat × Nat)
  done : List Nat
  bounds : Option Bounds
  complete : Bool
  /-- Per die: CYCLE at first placement, CYCLE at last completion, flocks completed (R343). -/
  meas : List (Nat × (Nat × Nat × Nat))
  deriving DecidableEq, Repr

/-- A page-fault record (R409): FID, 64 KiB page, kind. -/
structure FaultRec where
  fid : Nat
  page : Nat
  kind : AccKind
  deriving DecidableEq, Repr

/-- A page-fault event that the queue could not yet take, or any other context event kept pending (R359). -/
structure Event where
  code : Nat
  ctx : Nat
  stepid : W32
  time : Nat
  d0 : W64
  d1 : W64
  deriving DecidableEq, Repr

/-- A measured step (R343): STEPID, and per RUN node and die the flocks completed there, the run's flocks, the CYCLE
span. -/
structure Hist where
  stepid : W32
  recs : List ((Nat × Nat) × (Nat × Nat × Nat))
  deriving DecidableEq, Repr

/-- A saved flock (R329): a number of its own, itself, its copies held for page faults, its entries of metadata queues
by number, and its image in the save area: address (0 for none), bytes, and the seed of their values (log 21). -/
structure SavedFlock where
  key : Nat
  flock : Flock
  copies : List CopyOp
  metas : List (Nat × List (List Byte))
  imageAt : Nat
  imageLen : Nat
  imageSeed : Nat
  deriving DecidableEq, Repr

/-- A hop of a route block (R325). -/
structure Hop where
  rank : Nat
  port : Nat
  hard : Bool
  q : Nat
  t : Nat
  deriving DecidableEq, Repr

/-- A hop of a route admission under way: the device and the context of its rank, the answer had, and the server slot that a
hop of this device holds tentatively (R325, R419). -/
structure RouteHop where
  hop : Hop
  dev : Nat
  tctx : Nat
  ans : Option Bool
  slot : Nat
  deriving DecidableEq, Repr

structure Ctx where
  regs : CtxRegs
  /-- The registers in effect for the present step (R303, R356, R397). -/
  eff : CtxRegs
  sqtail : Nat
  sqhead : Nat
  cstate : CState
  urgent : Bool
  drainAt : Nat
  entries : List Entry
  step : Option Step
  runs : List Run
  nextRun : Nat
  faults : List FaultRec
  nextFid : Nat
  replays : List Nat
  saved : List SavedFlock
  nsaved : Nat
  naborted : Nat
  owed : List (Nat × Nat)
  hist : List Hist
  routestat : W32
  routeblk : Option W64
  /-- CTIME of the route request. -/
  routeAt : Nat
  /-- The hops of a route admission under way, in record order (R325). -/
  route : List RouteHop
  dmiss : W32
  pendEv : List Event
  cmds : List W32
  flr : Bool
  stopEvt : Option Event
  deriving DecidableEq, Repr

/-! ## Servers -/

inductive SrvSt
  | idle | active | throttled
  deriving DecidableEq, Repr

/-- A server (R318, R319); c in units of 2^-16 tick. -/
structure Server where
  kind : Nat
  inst : Nat
  slot : Nat
  ctx : Nat
  q : Nat
  t : Nat
  c : Int
  d : Nat
  hard : Bool
  st : SrvSt
  group : Nat
  cls : Nat
  deriving DecidableEq, Repr

/-! ## Host, fabric, management -/

/-- A function's event queue (R358, R359), and its MSI-X vector: address, data, mask, pending bit, messages sent
(R355, log 48). -/
structure EvQueue where
  base : W64
  log : W32
  tail : Nat
  head : Nat
  lost : W32
  phase : Bool
  held : List Event
  msiAddr : W64
  msiData : W32
  msiMask : Bool
  msiPend : Bool
  msiSent : Nat
  deriving DecidableEq, Repr

/-- The mailbox (R371), the firmware update, and the stored image of R368 and R369; `torn` says that a write of the image
was cut short. -/
structure Mailbox where
  state : Nat
  err : Nat
  cmd : Nat
  data : List (Nat × Byte)
  upSize : Option Nat
  upData : List Byte
  image : List Byte
  torn : Bool
  /-- The image that the firmware runs: the stored one as of the start, or of the firmware's restart (R369, R422). -/
  running : List Byte
  deriving DecidableEq, Repr

/-- A peer request outstanding at this source (R258, R426): message, thread, request id, time sent. -/
structure PeerOut where
  msg : PeerMsg
  req : Nat
  port : Nat
  sent : Nat
  deriving DecidableEq, Repr

/-- The target's record of a stream (R426): source, last TAG answered, and by TAG the answers given, as flit KIND, trap
code of a refusal, data. -/
structure PeerIn where
  src : Nat
  sctx : Nat
  last : Nat
  olds : List (Nat × (Nat × Nat × List Byte))
  /-- The request of TAG 0 that began the record, and its CTIME: the model's own field, to know it again (log 27). -/
  first : Option (PeerMsg × Nat)
  deriving DecidableEq, Repr

/-- A collective participation (R260-R262): its block, the group's size, this device's rank, the ranks in ring order
(R363), its number in the group, the time of its acceptance, the page-table root of its flock, the accesses that it must
follow. -/
structure Coll where
  id : Nat
  ctx : Nat
  ref : TRef
  blk : List Byte
  g : Nat
  rank : Nat
  ranks : List Nat
  seq : Nat
  at_ : Nat
  ptroot : W64
  after : List (Nat × Bool)
  deriving DecidableEq, Repr

/-- A hop that this device holds for a route of another one (R325): the requester's device and context, the port and the
slot of the server. -/
structure HopHold where
  src : Nat
  sctx : Nat
  port : Nat
  slot : Nat
  kept : Bool
  deriving DecidableEq, Repr

/-- The fabric's state; `seqs` are the link sequence numbers by port (R361). -/
structure Fabric where
  devno : Nat
  outs : List PeerOut
  tags : List ((Nat × Nat) × Nat)
  ins : List PeerIn
  colls : List Coll
  sends : List (Nat × Flit)
  down : List Nat
  /-- The round-robin pointers of background service of the Twill ports (R320). -/
  rr : List Nat
  collSeq : List ((Nat × Nat) × Nat)
  seqs : List Nat
  hops : List HopHold
  /-- Flits of contexts that wait for a port, beside the requests of threads: re-sent requests, contributions to collectives,
  route admissions (R319, R320). -/
  queue : List (Nat × PeerMsg)
  /-- Peer requests that wait at their target: for an earlier TAG (R426), for a pseudo-channel's exit from self-refresh (R415). -/
  waits : List PeerMsg
  deriving DecidableEq, Repr

/-- A machine-check bank (R382, R383). -/
structure Bank where
  status : W64
  addr : W64
  synd : W64
  time : W64
  deriving DecidableEq, Repr

/-- The slice move (R332, R360, R416): `stat` is 0 idle, 1 copying, 2 copied; `refused` makes MOVESTAT read 3; `moved`
counts pages moved; `lost` is the slice of an abandoned move whose event is still to come. -/
structure Move where
  stat : Nat
  refused : Bool
  src : Nat
  dst : Nat
  owner : Nat
  moved : Nat
  lost : Option Nat
  deriving DecidableEq, Repr

/-- The SPDM responder (R370): how far version, capabilities and algorithms are agreed, the latest request code and whether
the device supports it, the latest answer. -/
structure Spdm where
  agreed : Nat
  req : Option (Nat × Bool)
  answer : List Byte
  deriving DecidableEq, Repr

/-- A request that self-test control serves (R392): the address of its TESTKIND word, the clusters whose test has not yet
ended, the kinds. -/
structure TestReq where
  at_ : Nat
  mask : Nat
  kinds : Nat
  deriving DecidableEq, Repr

/-- Device registers and the management plane (R336, R337, R353, R360, R365, R367, R385, R421-R425). -/
structure Mgmt where
  govcfg : W32
  optbl : List (Bool × Nat)
  thermstat : W32
  sensors : List (Nat × Nat)
  mcctl : W32
  cold : Bool
  stage : Nat
  failCode : Nat
  starting : Bool
  heartbeat : Nat
  firings : List Nat
  fwStopped : Bool
  updating : Bool
  throttled : Bool
  overSince : Option Nat
  crit : Option Nat
  critBounds : List ((Nat × Nat) × Nat)
  railsOff : Bool
  startEvt : Bool
  linkUp : Bool
  /-- The link's generation (R367). -/
  linkGen : Nat
  doe : Spdm
  tests : List TestReq
  /-- CTIME of the latest deadline write of a walker (R342), of the latest power measurement (R354). -/
  deadlineAt : Option Nat
  measuredAt : Nat
  cePosted : List Nat
  deriving DecidableEq, Repr

/-- Faults of the machine that stored bits carry until they are read (R377): beyond correction or not. -/
abbrev Mark := Granule × Bool

/-- Faults of the machine around the program that the environment brings about (R377); `again` says that the second
attempt fails too, `beyond` that the check cannot correct. -/
inductive Upset
  | stored (g : Granule) (beyond : Bool)
  | lane (r : TRef) (again : Bool)
  | dot (core id : Nat) (again : Bool)
  | bus (r : TRef)
  | net (bank : Nat) (ctx : Option Nat) (header again : Bool)
  | serge (link : Nat) (lost : Bool)
  | twill (port : Nat)
  /-- A control-plane or management-plane table, by the bank of its unit. -/
  | ctl (bank : Nat) (ctx : Option Nat) (beyond : Bool)
  | mgmt (bank : Nat) (beyond : Bool)
  deriving DecidableEq, Repr

/-! ## The step's own data (logs 4 and 6) -/

/-- The issue group that the arbiter has chosen and that has not yet issued (R39). -/
structure Group where
  core : Nat
  ctx : Nat
  intv : Bool
  pc : W64
  members : List TRef
  deriving DecidableEq, Repr

/-- What the latest read by the host returned: bytes, or Completer Abort (R5, R378). -/
inductive HostAns
  | none
  | data (bs : List Byte)
  | abort
  deriving DecidableEq, Repr

/-- Which agent moves. -/
inductive Act
  /-- The step of another agent. -/
  | occur (i : Instr)
  /-- The access engine issues the next instruction of a flock's instance (R160). -/
  | access (core slot : Nat)
  | upset (u : Upset)
  /-- The instruction cache of a core takes the code word at an address of DRAM (R125). -/
  | warm (core pa : Nat)
  /-- The host reads bytes of a function's BAR 0 (R5, R355). -/
  | hostRead (f : Fn) (off n : Nat)
  /-- The host or another PCI Express requester writes host memory (R268). -/
  | hostStore (pa : Nat) (bs : List Byte)
  deriving DecidableEq, Repr

/-- One turn: CTIME ticks that pass before it, and the agent. -/
structure Turn where
  dt : Nat
  act : Act
  deriving DecidableEq, Repr

/-- A unit whose acts of one clock have an order (log 44). -/
inductive Dom
  /-- Issue slots of a die and of a core (R66, R181, R232, R264). -/
  | die (n : Nat)
  | core (n : Nat)
  | slots
  /-- A line at its slice (R100). -/
  | line (ln : Nat)
  /-- The DRAM controllers' blocks of reduced-format pages (R77). -/
  | mx
  /-- Tiles of a run (R297). -/
  | run (ctx num : Nat)
  /-- A server instance (R324). -/
  | server (kind inst : Nat)
  /-- A droop detector (R350). -/
  | droop (cluster : Nat)
  /-- A submission ring (R305). -/
  | ring (ctx : Nat)
  /-- A machine-check bank (R384). -/
  | bank (b : Nat)
  /-- A context's page faults (R411). -/
  | faults (ctx : Nat)
  /-- A context's stop (R389). -/
  | stop (ctx : Nat)
  /-- A cluster's wave sequence (R352). -/
  | waves (cluster : Nat)
  deriving DecidableEq, Repr

/-- An act of the present clock: its unit, the clock, its rank. -/
structure Seen where
  dom : Dom
  clock : Nat
  rank : Nat
  deriving DecidableEq, Repr

/-- Everything but the bytes of memory. -/
structure Dev where
  ctime : Nat
  agenda : List Turn
  /-- The ordered acts of the present clocks (log 44). -/
  seen : List Seen
  issuing : Option Group
  /-- Number of the next free value (the model's own, log 8). -/
  free : Nat
  nextId : Nat
  stopped : Bool
  flocks : List Flock
  cores : List Core
  clusters : List Cluster
  vaults : List Vault
  dies : List Die
  stks : List Stack
  tlbs : List Tlb
  reqs : List Req
  ctxs : List Ctx
  /-- The context that the run scheduler served last (R317). -/
  placeTurn : Nat
  servers : List Server
  admbounds : List ((Nat × Nat) × Nat)
  waypart : List W32
  vdclus : List W64
  slown : List (Nat × Nat)
  winbase : W64
  routetbl : List (Nat × Nat)
  move : Move
  queues : List EvQueue
  mbox : Mailbox
  fab : Fabric
  mgmt : Mgmt
  banks : List Bank
  marks : List Mark
  answer : HostAns
  deriving DecidableEq, Repr

/-- The bytes of a scratchpad or accumulator allocation or of a vault; `kept` is a saved flock's allocation by
the flock's number, its scratchpad or its accumulators. -/
inductive StoKey
  | spad (core slot : Nat)
  | acc (core slot : Nat)
  | vault (v : Nat)
  | kept (key : Nat) (acc : Bool)
  deriving DecidableEq, Repr

/-- A local store: the bytes written, and the seeds of the undefined bytes from an offset upward, latest first
(log 2). -/
structure Store where
  key : StoKey
  seeds : List (Nat × Nat)
  cells : List Host.Cell
  deriving DecidableEq, Repr

/-- The machine. `mem` is DRAM and host memory by physical address (R93); an address it does not list reads 0
(log 1). -/
structure State where
  mem : List Host.Cell
  sto : List Store
  dev : Dev
  deriving DecidableEq, Repr

/-- Every register of R89, R303, R356 and R397 at 0 (log 3). -/
def CtxRegs.zero : CtxRegs :=
  { ptroot := 0, stkbase := 0, vwbase := 0, vwsize := 0, sqbase := 0, sqlog := 0, csave := 0, csavesz := 0,
    drainlim := 0, vdev := 0, prio := 0, grpbase := 0, expbase := 0, expsize := 0, rankbase := 0, rankcnt := 0,
    trapvec := 0, trapveca := 0 }

/-- A context after reset: no step, no run, CSTATE RUNNING (log 3); fault numbers count from 1 (R409), run numbers
skip 0 (R314). -/
def Ctx.reset : Ctx :=
  { regs := .zero, eff := .zero, sqtail := 0, sqhead := 0, cstate := .running, urgent := false, drainAt := 0,
    entries := [], step := none, runs := [], nextRun := 1, faults := [], nextFid := 1, replays := [], saved := [],
    nsaved := 0, naborted := 0, owed := [], hist := [], routestat := 0, routeblk := none, routeAt := 0, route := [], dmiss := 0,
    pendEv := [], cmds := [], flr := false, stopEvt := none }

/-- A core after reset (R45). -/
def Core.reset : Core :=
  { foldcfg := 0x20, foldNext := none, fold := [], icache := [], l1 := [], floor := 0, mat := [], cpy := [], plast := 0,
    metaq := List.replicate 4 ⟨none, []⟩, rr := List.replicate 6 0 }

/-- A cluster after reset (R341, R350, R351). -/
def Cluster.reset : Cluster :=
  { cycle := 0, edgeAt := 0, half := false, droopcfg := 0x0000010F, slopelim := 0x00000404, droop := .none, droopAt := 0, waves := [],
    waveClock := 0, waveNew := 0, lastWave := none, test := none, testAt := 0, lastTest := 0 }

/-- A vault after reset: SPLIT 1 (R97). -/
def Vault.reset : Vault :=
  { split := 1, pendSplit := [], lines := [], tick := 0, watch := [], mc := [], mcOld := [] }

/-- A compute die after reset (R335, R338): at the fallback point, supply at its VMV (R333). -/
def Die.reset : Die :=
  { cycle := 0, phase := 0, tvalid := false, risk := false, trans := false, ceil := 6, tgt := 6, cur := 6, supply := 720,
    ramp := none, rampAt := 0, step := none, stepAt := 0, slack := List.replicate 64 0x7FFFFFFFFFFFFFFF, lowered := 0, warned := false, warnAt := 0,
    powered := true }

/-- A stack after reset (R365). -/
def Stack.reset : Stack := { rr := 0, trn := 0, sridle := 0, pcs := [], record := none }

/-- An event queue after reset (R358); PHASE starts at 1. -/
def EvQueue.reset : EvQueue :=
  { base := 0, log := 0, tail := 0, head := 0, lost := 0, phase := true, held := [], msiAddr := 0, msiData := 0,
    msiMask := true, msiPend := false, msiSent := 0 }

def Bank.reset : Bank := ⟨0, 0, 0, 0⟩

/-- The mailbox after reset (R371). The image in non-volatile storage is empty (DESIGN CHOICE, log 71: the spec gives none). -/
def Mailbox.reset : Mailbox :=
  { state := 0, err := 0, cmd := 0, data := [], upSize := none, upData := [], image := [], torn := false, running := [] }

def Fabric.reset : Fabric :=
  { devno := 0, outs := [], tags := [], ins := [], colls := [], sends := [], down := [], rr := List.replicate 16 0, collSeq := [],
    seqs := List.replicate 16 0, hops := [], queue := [], waits := [] }

/-- The VMV reset values (R333, R336), in mV. -/
def vmvReset : List Nat := [600, 615, 630, 650, 670, 695, 720, 750, 780, 815, 850, 895, 950]

/-- Management registers after reset (R336, R337, R353, R367, R385). -/
def Mgmt.reset : Mgmt :=
  { govcfg := 0x001C0032, optbl := vmvReset.map (fun v => (true, v)), thermstat := 0, sensors := [],
    mcctl := 0x00101860, cold := true, stage := 0, failCode := 0, starting := true, heartbeat := 0, firings := [],
    fwStopped := false, updating := false, throttled := false, overSince := none, crit := none, critBounds := [],
    railsOff := false, startEvt := false, linkUp := true, linkGen := 1,
    doe := ⟨0, none, []⟩, tests := [], deadlineAt := none, measuredAt := 0, cePosted := [] }

/-- Everything but memory after reset. -/
def Dev.reset : Dev :=
  { ctime := 0, agenda := [], seen := [], issuing := none, free := 0, nextId := 0, stopped := false, flocks := [],
    cores := List.replicate 256 .reset, clusters := List.replicate 64 .reset, vaults := List.replicate 64 .reset,
    dies := List.replicate 4 .reset, stks := List.replicate 8 .reset, tlbs := [], reqs := [],
    ctxs := List.replicate 64 .reset, placeTurn := 0, servers := [], admbounds := [], waypart := List.replicate 64 0x0000FFFF,
    vdclus := List.replicate 16 0, slown := [], winbase := 0, routetbl := [], move := ⟨0, false, 0, 0, 0, 0, none⟩,
    queues := List.replicate 17 .reset, mbox := .reset, fab := .reset, mgmt := .reset,
    banks := List.replicate 128 .reset, marks := [], answer := .none }

/-- The machine right after reset. -/
def State.reset : State := { mem := [], sto := [], dev := .reset }

end Sys2Proof.Machine
end

