-- ==== Sys2Proof/Machine/Base.lean ====
section
/-! DEFINITION. Changes of the state (Delta), their composition, memory and local stores byte by byte, and the
parts of the device by number. -/

namespace Sys2Proof.Machine

/-! ## Physical memory (R93) -/

/-- DRAM: the first 512 GiB. -/
def inDram (pa : Nat) : Bool := pa < 2 ^ 39
/-- Host memory. -/
def inHost (pa : Nat) : Bool := 2 ^ 51 ≤ pa ∧ pa < 2 ^ 52

/-- What an address that memory does not list reads as (log 1). -/
def Memory.unlisted : Byte := 0

def Memory.read (m : List Host.Cell) (a : Nat) : Byte :=
  match m with
  | [] => Memory.unlisted
  | (b, v) :: r => if a = b then v else if a < b then Memory.unlisted else Memory.read r a

/-- Writes one byte and keeps the canonical form: addresses rising, nothing listed that reads as unlisted. -/
def Memory.write (m : List Host.Cell) (a : Nat) (v : Byte) : List Host.Cell :=
  match m with
  | [] => if v = Memory.unlisted then [] else [(a, v)]
  | (b, w) :: r =>
    if a < b then if v = Memory.unlisted then (b, w) :: r else (a, v) :: (b, w) :: r
    else if a = b then if v = Memory.unlisted then r else (a, v) :: r
    else (b, w) :: Memory.write r a v

/-- The canonical form of memory. -/
def Memory.wf : List Host.Cell → Bool
  | [] => true
  | (_, v) :: [] => v ≠ Memory.unlisted
  | (a, v) :: (b, w) :: r => decide (a < b) && decide (v ≠ Memory.unlisted) && Memory.wf ((b, w) :: r)

/-- Bytes `a` to `a + n - 1`. -/
def Memory.reads (m : List Host.Cell) (a n : Nat) : List Byte := (List.range n).map (fun i => Memory.read m (a + i))

/-! ## Association lists -/

/-- Replaces or inserts a key, keys rising. -/
def aset {α : Type} (l : List (Nat × α)) (k : Nat) (v : α) : List (Nat × α) :=
  match l with
  | [] => [(k, v)]
  | (a, w) :: r => if k < a then (k, v) :: (a, w) :: r else if k = a then (k, v) :: r else (a, w) :: aset r k v

def aget {α : Type} (l : List (Nat × α)) (k : Nat) : Option α := (l.find? (fun p => p.1 = k)).map (·.2)

/-- Replaces or inserts a key of any type. -/
def kset {κ α : Type} [DecidableEq κ] (l : List (κ × α)) (k : κ) (v : α) : List (κ × α) :=
  match l with
  | [] => [(k, v)]
  | (a, w) :: r => if k = a then (k, v) :: r else (a, w) :: kset r k v

def kget {κ α : Type} [DecidableEq κ] (l : List (κ × α)) (k : κ) : Option α := (l.find? (fun p => p.1 = k)).map (·.2)

def kdel {κ α : Type} [DecidableEq κ] (l : List (κ × α)) (k : κ) : List (κ × α) := l.filter (fun p => p.1 ≠ k)

/-! ## Local stores (log 2) -/

def Store.read (st : Store) (off : Nat) : Byte :=
  match aget st.cells off with
  | some b => b
  | none =>
    match st.seeds.find? (fun p => p.1 ≤ off) with
    | some (_, seed) => Config.undefByte seed off
    | none => Config.undefByte 0 off

/-! ## Changes -/

/-- One byte written to memory or to a local store; a local store made new with undefined bytes from an offset, gone, or
moved to another key; or the contents of DRAM lost. -/
inductive Write
  | mem (a : Nat) (b : Byte)
  | sto (k : StoKey) (off : Nat) (b : Byte)
  | wipe (k : StoKey) (lo seed : Nat)
  | drop (k : StoKey)
  | move (k k' : StoKey)
  | forget
  deriving DecidableEq, Repr

/-- What a step changes: the device, the bytes written in order, and a stop if it met one. -/
structure Delta where
  dev : Dev
  writes : List Write
  stop : Option Fault

/-- The store of a key; a vault that nothing has touched holds its power-on bytes (log 2). -/
def State.store (s : State) (k : StoKey) : Store :=
  match s.sto.find? (fun x => x.key = k) with
  | some x => x
  | none =>
    match k with
    | .vault v => ⟨k, [(0, 1000000 + v)], []⟩
    | .spad c f => ⟨k, [(0, 2000000 + 16 * c + f)], []⟩
    | .acc c f => ⟨k, [(0, 3000000 + 16 * c + f)], []⟩
    | .kept _ _ => ⟨k, [], []⟩

/-- Puts a store in place of the one of its key. -/
def putStore (l : List Store) (st : Store) : List Store :=
  st :: l.filter (fun x => x.key ≠ st.key)

def State.applyWrite (s : State) : Write → State
  | .mem a b => { s with mem := Memory.write s.mem a b }
  | .sto k off b =>
    let st := s.store k
    { s with sto := putStore s.sto { st with cells := aset st.cells off b } }
  | .wipe k lo seed =>
    let st := s.store k
    let st' : Store := { st with seeds := (lo, seed) :: st.seeds, cells := st.cells.filter (fun c => c.1 < lo) }
    { s with sto := putStore s.sto st' }
  | .drop k => { s with sto := s.sto.filter (fun x => x.key ≠ k) }
  | .move k k' => { s with sto := putStore (s.sto.filter (fun x => x.key ≠ k)) { s.store k with key := k' } }
  | .forget => { s with mem := s.mem.filter (fun c => !inDram c.1) }

def State.applyWrites (s : State) (ws : List Write) : State := ws.foldl State.applyWrite s

/-- The state after a change. -/
def State.apply (s : State) (δ : Delta) : State := { s.applyWrites δ.writes with dev := δ.dev }

/-- An operation: the change that it makes of a state. -/
abbrev Eff := State → Delta

/-- No change. -/
def skip : Eff := fun s => ⟨s.dev, [], none⟩
/-- A change of the device alone. -/
def upd (f : Dev → Dev) : Eff := fun s => ⟨f s.dev, [], none⟩
/-- Bytes written. -/
def wr (ws : List Write) : Eff := fun s => ⟨s.dev, ws, none⟩
/-- A stop. -/
def halt (e : Fault) : Eff := fun s => ⟨s.dev, [], some e⟩
/-- An operation that looks at the state first. -/
def look (f : State → Eff) : Eff := fun s => f s s

/-- One operation after another; a stop ends it. -/
def Eff.andThen (a b : Eff) : Eff := fun s =>
  let d := a s
  match d.stop with
  | some e => ⟨d.dev, d.writes, some e⟩
  | none =>
    let e := b (s.apply d)
    ⟨e.dev, d.writes ++ e.writes, e.stop⟩

/-- Operations in order. -/
def seqE : List Eff → Eff
  | [] => skip
  | [a] => a
  | a :: r => a.andThen (seqE r)

/-- An operation for each element, in order. -/
def forE {α : Type} (l : List α) (f : α → Eff) : Eff := seqE (l.map f)

def whenE (b : Bool) (a : Eff) : Eff := if b then a else skip

/-- An operation on what may be absent. -/
def withE {α : Type} (o : Option α) (f : α → Eff) : Eff :=
  match o with
  | some x => f x
  | none => skip

/-- The outcome of a step. -/
def commit (a : Eff) (s : State) : Host.Outcome State Fault Refusal :=
  match (a s).stop with
  | some e => .fault e
  | none => .next (s.apply (a s))

/-! ## Parts by number -/

def Dev.core (d : Dev) (n : Nat) : Core := d.cores[n]?.getD .reset
def Dev.modCore (d : Dev) (n : Nat) (f : Core → Core) : Dev := { d with cores := d.cores.modify n f }
def Dev.cluster (d : Dev) (n : Nat) : Cluster := d.clusters[n]?.getD .reset
def Dev.modCluster (d : Dev) (n : Nat) (f : Cluster → Cluster) : Dev := { d with clusters := d.clusters.modify n f }
def Dev.vault (d : Dev) (n : Nat) : Vault := d.vaults[n]?.getD .reset
def Dev.modVault (d : Dev) (n : Nat) (f : Vault → Vault) : Dev := { d with vaults := d.vaults.modify n f }
def Dev.die (d : Dev) (n : Nat) : Die := d.dies[n]?.getD .reset
def Dev.modDie (d : Dev) (n : Nat) (f : Die → Die) : Dev := { d with dies := d.dies.modify n f }
def Dev.stk (d : Dev) (n : Nat) : Stack := d.stks[n]?.getD .reset
def Dev.modStk (d : Dev) (n : Nat) (f : Stack → Stack) : Dev := { d with stks := d.stks.modify n f }
def Dev.ctx (d : Dev) (n : Nat) : Ctx := d.ctxs[n]?.getD .reset
def Dev.modCtx (d : Dev) (n : Nat) (f : Ctx → Ctx) : Dev := { d with ctxs := d.ctxs.modify n f }
def Dev.queue (d : Dev) (n : Nat) : EvQueue := d.queues[n]?.getD .reset
def Dev.modQueue (d : Dev) (n : Nat) (f : EvQueue → EvQueue) : Dev := { d with queues := d.queues.modify n f }
def Dev.bank (d : Dev) (n : Nat) : Bank := d.banks[n]?.getD .reset

/-- Numbering of R16. -/
def clusterOf (core : Nat) : Nat := core / 4
def sectionOf (core : Nat) : Nat := core / 32
def dieOf (core : Nat) : Nat := core / 64

/-- The access-slice instance's id (Syntax.TRef). -/
def instId : Nat := 1024

def Dev.flock? (d : Dev) (core slot : Nat) : Option Flock :=
  d.flocks.find? (fun f => f.core = core ∧ f.slot = slot)
def Dev.modFlock (d : Dev) (core slot : Nat) (g : Flock → Flock) : Dev :=
  { d with flocks := d.flocks.map (fun f => if f.core = core ∧ f.slot = slot then g f else f) }
def Dev.delFlock (d : Dev) (core slot : Nat) : Dev :=
  { d with flocks := d.flocks.filter (fun f => ¬(f.core = core ∧ f.slot = slot)) }

def Flock.thread? (f : Flock) (t : Nat) : Option Thread :=
  if t = instId then f.inst else f.threads.find? (fun x => x.t = t)
def Flock.modThread (f : Flock) (t : Nat) (g : Thread → Thread) : Flock :=
  if t = instId then { f with inst := f.inst.map g }
  else { f with threads := f.threads.map (fun x => if x.t = t then g x else x) }

def Dev.thread? (d : Dev) (r : TRef) : Option Thread := (d.flock? r.core r.slot).bind (fun f => f.thread? r.t)
def Dev.modThread (d : Dev) (r : TRef) (g : Thread → Thread) : Dev :=
  d.modFlock r.core r.slot (fun f => f.modThread r.t g)
/-- A change of one thread. -/
def updT (r : TRef) (g : Thread → Thread) : Eff := upd (fun d => d.modThread r g)

def Dev.modReq (d : Dev) (id : Nat) (g : Req → Req) : Dev :=
  { d with reqs := d.reqs.map (fun q => if q.id = id then g q else q) }
def Dev.req? (d : Dev) (id : Nat) : Option Req := d.reqs.find? (fun q => q.id = id)
def Dev.delReq (d : Dev) (id : Nat) : Dev := { d with reqs := d.reqs.filter (fun q => q.id ≠ id) }

/-- The number of the next free value, and the counter after it. -/
def Dev.fresh (d : Dev) : Dev := { d with free := d.free + 1 }

/-- A free choice of the device (log 13). -/
def Dev.choose (d : Dev) : Bool := Config.choice d.free

/-- Threads that can still issue. -/
def Flock.live (f : Flock) : List Thread := f.threads.filter (fun t => t.ended = none)
/-- The team, port group and lane of a linear id (R34). -/
def teamOf (t : Nat) : Nat := t / 32
def pgOf (t : Nat) : Nat := t / 32 % 4
def laneOf (t : Nat) : Nat := t % 32

/-- A thread's v or s register; what nothing has written is undefined from placement (R50, log 8). -/
def Thread.reg (th : Thread) (i : Nat) : W32 :=
  match aget th.regs i with
  | some v => v
  | none =>
    match th.undef with
    | some s => Config.undefReg s i
    | none => 0
/-- The high half of an interval register (R79). -/
def Thread.hiReg (th : Thread) (i : Nat) : W32 :=
  match aget th.iv.hi i with
  | some v => v
  | none =>
    match th.undef with
    | some s => Config.undefReg s (i + 4096)
    | none => 0
def Thread.setReg (th : Thread) (i : Nat) (v : W32) : Thread := { th with regs := aset th.regs i v }
/-- A register as a point interval, or a pair of ends with its maybe-NaN mark. -/
def Thread.setIv (th : Thread) (i : Nat) (lo hi : W32) (mn : Bool) : Thread :=
  { th with regs := aset th.regs i lo,
            iv := { th.iv with hi := aset th.iv.hi i hi,
                               nan := if mn then i :: th.iv.nan.filter (· ≠ i) else th.iv.nan.filter (· ≠ i) } }

/-- Predicate pn; p0 reads as true (R158). -/
def Thread.pred (th : Thread) (n : Nat) : Tri := if n = 0 then .t else th.preds[n]?.getD .f
/-- A write of p0 is discarded (R112). -/
def Thread.setPred (th : Thread) (n : Nat) (b : Tri) : Thread :=
  if n = 0 then th else { th with preds := th.preds.set n b }
/-- Index register xi. -/
def Thread.x (th : Thread) (i : Nat) : W32 := th.xs[i]?.getD 0
def Thread.setX (th : Thread) (i : Nat) (v : W32) : Thread := { th with xs := th.xs.set i v }

def Flock.k (f : Flock) (i : Nat) : W32 := f.ks[i]?.getD 0
def Flock.freg (f : Flock) (i : Nat) : W32 := f.fs[i]?.getD 0
def Flock.m (f : Flock) (i : Nat) : BitVec 128 := f.ms[i]?.getD 0

/-- Two 32-bit registers as one 64-bit value, the even one low (R58). -/
def pair (lo hi : W32) : W64 := hi ++ lo
def lo32 (x : W64) : W32 := x.setWidth 32
def hi32 (x : W64) : W32 := (x >>> 32).setWidth 32

end Sys2Proof.Machine
end

