-- ==== Sys2Proof/Machine/Bank.lean ====
section
/-! DEFINITION. Host events and machine-check banks (R358, R359, R381-R386). -/

namespace Sys2Proof.Machine

/-- Writes of consecutive bytes. -/
def memWrites (a : Nat) : List Byte → List Write
  | [] => []
  | b :: bs => .mem a b :: memWrites (a + 1) bs

/-! ## Host events (R358, R359) -/

/-- The virtual device that owns a context: the one in effect for its present step, or the one written (R303, R331). -/
def Ctx.vdevNow (c : Ctx) : Nat := if c.step.isSome then c.eff.vdev.toNat else c.regs.vdev.toNat

/-- A queue is enabled while EQLOG is 4-16; one that holds another value takes nothing, as with 0 (R359, log 40). -/
def EvQueue.on (q : EvQueue) : Bool := decide (4 ≤ q.log.toNat ∧ q.log.toNat ≤ 16)

/-- The queue of a context's events: its VF's when enabled, else PF_0's. -/
def Dev.queueOf (d : Dev) (ctx : Nat) : Nat :=
  let v := (d.ctx ctx).vdevNow
  if (d.queue (v + 1)).on ∧ v < 16 then v + 1 else 0

/-- Whether a queue can take a record now: enabled, stage 4, link up, ring not full (R359, R430). -/
def Dev.canTake (d : Dev) (q : Nat) : Bool :=
  let x := d.queue q
  x.on ∧ d.mgmt.stage = 4 ∧ d.mgmt.linkUp ∧ (x.tail + 1) % 2 ^ x.log.toNat ≠ x.head % 2 ^ x.log.toNat

/-- The 32 bytes of a record. -/
def Event.bytes (e : Event) (phase : Bool) : List Byte :=
  leBytes 2 e.code ++ leBytes 1 e.ctx ++ leBytes 1 phase.toNat ++ leBytes 4 e.stepid.toNat ++ leBytes 8 e.time ++
    leBytes 8 e.d0.toNat ++ leBytes 8 e.d1.toNat

/-- Where the device reaches a host physical address (R93, log 47). -/
def hostPa (a : Nat) : Nat := if inHost a then a else 2 ^ 51 + a % 2 ^ 51

/-- The queue's MSI-X message is sent, or stays pending while its vector is masked (R355, log 48). -/
def EvQueue.signal (x : EvQueue) : EvQueue :=
  if x.msiMask then { x with msiPend := true } else { x with msiSent := x.msiSent + 1, msiPend := false }

/-- Writes a record, then advances EQTAIL and sends the message; PHASE toggles on each pass. -/
def putEvent (q : Nat) (e : Event) : Eff := look fun s =>
  let x := s.dev.queue q
  let last : Bool := (x.tail + 1) % 2 ^ x.log.toNat = 0
  (wr (memWrites (hostPa (x.base.toNat + 32 * x.tail)) (e.bytes x.phase))).andThen
    (upd (fun d => d.modQueue q (fun x =>
      { x with tail := (x.tail + 1) % 2 ^ x.log.toNat, phase := if last then !x.phase else x.phase }.signal)))

/-- Saturating increment of EQLOST. -/
def lostOne (x : EvQueue) : EvQueue := { x with lost := if x.lost = 0xFFFFFFFF then x.lost else x.lost + 1 }

/-- An event is raised for queue `q` (R359): written, held in order, kept pending by its unit, or lost. -/
def postEvent (q : Nat) (e : Event) : Eff := look fun s =>
  let x := s.dev.queue q
  if x.held = [] ∧ s.dev.canTake q then putEvent q e
  else if x.held.length < 64 then upd (fun d => d.modQueue q (fun x => { x with held := x.held ++ [e] }))
  else if e.ctx = 0xFF then upd (fun d => d.modQueue q lostOne)
  else upd (fun d => d.modCtx e.ctx (fun c => { c with pendEv := c.pendEv ++ [e] }))

/-- An event of a context. -/
def ctxEvent (ctx code : Nat) (stepid : W32) (d0 d1 : W64) : Eff := look fun s =>
  postEvent (s.dev.queueOf ctx) ⟨code, ctx, stepid, s.dev.ctime, d0, d1⟩
/-- A device-wide event. -/
def devEvent (code : Nat) (d0 d1 : W64) : Eff := look fun s =>
  postEvent 0 ⟨code, 0xFF, 0, s.dev.ctime, d0, d1⟩

/-- Whether a context's event can be written or held (R359). -/
def Dev.canHold (d : Dev) (ctx : Nat) : Bool := (d.queue (d.queueOf ctx)).held.length < 64

/-- Held events go out in order while the queue takes them; then pending ones of contexts are held (R359). -/
def deliver (q : Nat) : Nat → Eff
  | 0 => skip
  | n + 1 => look fun s =>
    match (s.dev.queue q).held with
    | [] => skip
    | e :: es =>
      if s.dev.canTake q then
        (upd (fun d => d.modQueue q (fun x => { x with held := es }))).andThen
          ((putEvent q e).andThen (deliver q n))
      else skip

/-- Pending context events are held as there is room (R359). -/
def holdPending : Eff := look fun s =>
  forE (List.range 64) (fun k => forE (s.dev.ctx k).pendEv (fun e => look fun s =>
    if s.dev.canHold k then
      (upd (fun d => d.modCtx k (fun c => { c with pendEv := c.pendEv.tail }))).andThen
        (postEvent (s.dev.queueOf k) e)
    else skip))

/-- Every queue takes what it can. -/
def deliverAll : Eff :=
  (forE (List.range 17) (fun q => deliver q 64)).andThen
    (holdPending.andThen (forE (List.range 17) (fun q => deliver q 64)))

/-! ## Machine-check banks (R381-R386) -/

/-- The plane that writes a bank (R381). -/
def planeOf (bank : Nat) : Nat := if bank < 110 then 0 else if bank < 113 then 1 else 2

/-- STATUS of a record (R383). -/
def mkStatus (bank cls : Nat) (ctx : Option Nat) (code cecnt inst : Nat) (ovf : Bool) : Nat :=
  2 ^ 63 + ovf.toNat * 2 ^ 62 + cls * 2 ^ 60 + planeOf bank * 2 ^ 58 +
    (match ctx with
      | some k => 2 ^ 57 + k * 2 ^ 50
      | none => 0) + code * 2 ^ 32 + cecnt * 2 ^ 16 + inst * 2 ^ 8

/-- A fault reaches a bank (R384): of two of one class and clock the lower CODE is recorded. -/
def Bank.record (b : Bank) (bank cls : Nat) (ctx : Option Nat) (code inst : Nat) (addr synd : W64) (time : Nat) : Bank :=
  let st := b.status.toNat
  let ce := bits st 16 16
  let ce' := if cls = 1 then min 0xFFFF (ce + 1) else ce
  if bit st 63 = false then
    ⟨BitVec.ofNat 64 (mkStatus bank cls ctx code ce' inst false), addr, synd, BitVec.ofNat 64 time⟩
  else if bits st 60 2 < cls ∨ (bits st 60 2 = cls ∧ b.time = BitVec.ofNat 64 time ∧ code < bits st 32 16) then
    ⟨BitVec.ofNat 64 (mkStatus bank cls ctx code ce' inst true), addr, synd, BitVec.ofNat 64 time⟩
  else { b with status := BitVec.ofNat 64 ((st - ce * 2 ^ 16 + ce' * 2 ^ 16) ||| 2 ^ 62) }

/-- STEPID of the step that a context performs or is about to begin, or 0 (R358). -/
def Ctx.stepNow (c : Ctx) : W32 :=
  match c.step with
  | some st => st.entry.stepid
  | none => (c.entries.head?.map (·.stepid)).getD 0

/-- The event of a bank record (R386). -/
def mcEvent (bank cls code : Nat) (addr : W64) (ctx : Nat) (stepid : W32) (time : Nat) : Event :=
  ⟨5, ctx, stepid, time, BitVec.ofNat 64 (bank + cls * 2 ^ 8 + code * 2 ^ 32), addr⟩

/-- Records a fault, and posts the event that CECNT raises once at CETHR (R385, R386). -/
def bankRecord (bank cls : Nat) (ctx : Option Nat) (code inst : Nat) (addr synd : W64) : Eff := look fun s =>
  let b := (s.dev.bank bank).record bank cls ctx code inst addr synd s.dev.ctime
  let th := bits s.dev.mgmt.mcctl.toNat 16 16
  let put : Eff := upd (fun d => { d with banks := d.banks.set bank b, seen := ⟨.bank bank, d.ctime, 1⟩ :: d.seen })
  if cls = 1 ∧ th ≠ 0 ∧ th ≤ bits b.status.toNat 16 16 ∧ bank ∉ s.dev.mgmt.cePosted then
    put.andThen ((upd (fun d => { d with mgmt := { d.mgmt with cePosted := bank :: d.mgmt.cePosted } })).andThen
      (postEvent 0 (mcEvent bank cls code addr 0xFF 0 s.dev.ctime)))
  else put

/-- A contained fault of a request without a context: the record, and its event to PF_0 (R379, R386). -/
def containedNone (bank code inst : Nat) (addr synd : W64) : Eff := look fun s =>
  (bankRecord bank 2 none code inst addr synd).andThen (postEvent 0 (mcEvent bank 2 code addr 0xFF 0 s.dev.ctime))

end Sys2Proof.Machine
end

