-- ==== Sys2Proof/Machine/Num.lean ====
section
/-! DEFINITION. Number formats and exact arithmetic (R59-R73, R83): values, decoding, rounding. -/

namespace Sys2Proof.Machine

/-! ## Values -/

/-- An extended real, or NaN with its sign: (−1)^neg · m · 2^e. -/
inductive FV
  | nan (neg : Bool)
  | inf (neg : Bool)
  | fin (neg : Bool) (m : Nat) (e : Int)
  deriving DecidableEq, Repr

def FV.isNan : FV → Bool
  | .nan _ => true
  | _ => false
def FV.isInf : FV → Bool
  | .inf _ => true
  | _ => false
def FV.isZero : FV → Bool
  | .fin _ m _ => m = 0
  | _ => false
def FV.neg : FV → Bool
  | .nan s => s
  | .inf s => s
  | .fin s _ _ => s
def FV.negate : FV → FV
  | .nan s => .nan !s
  | .inf s => .inf !s
  | .fin s m e => .fin (!s) m e
def FV.abs : FV → FV
  | .nan _ => .nan false
  | .inf _ => .inf false
  | .fin _ m e => .fin false m e
def FV.ofInt (x : Int) : FV := .fin (decide (x < 0)) x.natAbs 0
/-- 2^e. -/
def FV.pow2 (e : Int) : FV := .fin false 1 e

/-- A finite value as an integer in units of 2^q, for q at most its exponent. -/
def FV.units (q : Int) : FV → Int
  | .fin s m e => if s then -((m : Int) * 2 ^ (e - q).toNat) else (m : Int) * 2 ^ (e - q).toNat
  | _ => 0
/-- The exponent of a finite value. -/
def FV.exp : FV → Int
  | .fin _ _ e => e
  | _ => 0

/-- Exact comparison of two values that are no NaN; zeros are equal. -/
def FV.lt (a b : FV) : Bool :=
  match a, b with
  | .nan _, _ => false
  | _, .nan _ => false
  | .inf true, .inf true => false
  | .inf true, _ => true
  | .inf false, _ => false
  | _, .inf s => !s
  | x, y => x.units (min x.exp y.exp) < y.units (min x.exp y.exp)
def FV.eq (a b : FV) : Bool := !a.isNan && !b.isNan && !a.lt b && !b.lt a
def FV.le (a b : FV) : Bool := a.lt b || a.eq b

/-- Exact product; ∞ × 0 is NaN. -/
def FV.mul (a b : FV) : FV :=
  match a, b with
  | .nan s, _ => .nan s
  | _, .nan s => .nan s
  | .inf s, y => if y.isZero then .nan false else .inf (s != y.neg)
  | x, .inf s => if x.isZero then .nan false else .inf (s != x.neg)
  | .fin s m e, .fin s' m' e' => .fin (s != s') (m * m') (e + e')

/-- Exact sum; `rm` says that an exact zero of differing signs is −0 (IEEE 754-2019 under .rm). -/
def FV.add (rm : Bool) (a b : FV) : FV :=
  match a, b with
  | .nan s, _ => .nan s
  | _, .nan s => .nan s
  | .inf s, .inf s' => if s = s' then .inf s else .nan false
  | .inf s, _ => .inf s
  | _, .inf s => .inf s
  | .fin s m e, .fin s' m' e' =>
    let q := min e e'
    let x := (FV.fin s m e).units q + (FV.fin s' m' e').units q
    if x = 0 then .fin (if m = 0 ∧ m' = 0 ∧ s = s' then s else rm) 0 q
    else .fin (decide (x < 0)) x.natAbs q

def FV.sub (rm : Bool) (a b : FV) : FV := FV.add rm a b.negate

/-- floor(log2) of a positive finite value. -/
def FV.log2 : FV → Int
  | .fin _ m e => (Nat.log2 m : Int) + e
  | _ => 0

/-! ## Formats (R59, R63, R64) -/

/-- A floating or narrow format: sign bit, exponent and mantissa widths, bias, policy. -/
structure FFmt where
  sgn : Bool
  ew : Nat
  mw : Nat
  bias : Int
  pol : Nat
  deriving DecidableEq, Repr

def f16 : FFmt := ⟨true, 5, 10, 15, 0⟩
def bf16 : FFmt := ⟨true, 8, 7, 127, 0⟩
def f32 : FFmt := ⟨true, 8, 23, 127, 0⟩
def f64 : FFmt := ⟨true, 11, 52, 1023, 0⟩

/-- The format that a format register lays out (R63). -/
def narrowFmt (r : W32) : FFmt :=
  { sgn := bit r.toNat 0, ew := bits r.toNat 4 3, mw := bits r.toNat 8 3, bias := toSigned 8 (bits r.toNat 12 8),
    pol := bits r.toNat 20 2 }

def FFmt.width (f : FFmt) : Nat := f.sgn.toNat + f.ew + f.mw

/-- Code of the largest finite magnitude (R65). -/
def FFmt.maxCode (f : FFmt) : Nat :=
  let all := 2 ^ (f.ew + f.mw)
  match f.pol with
  | 0 => if f.ew = 0 then all - 1 else all - 2 ^ f.mw - 1
  | 1 => all - 2
  | _ => all - 1

/-- The magnitude of a finite code without its sign (R64). -/
def FFmt.mag (f : FFmt) (c : Nat) : Nat × Int :=
  let e := bits c f.mw f.ew
  let m := bits c 0 f.mw
  if f.ew = 0 ∨ e = 0 then (m, 1 - f.bias - f.mw) else (2 ^ f.mw + m, (e : Int) - f.bias - f.mw)

/-- Decoding of a code (R59, R64, R65). -/
def FFmt.dec (f : FFmt) (c : Nat) : FV :=
  let s := f.sgn && bit c (f.ew + f.mw)
  let x := c % 2 ^ (f.ew + f.mw)
  let emax := 2 ^ f.ew - 1
  let e := x / 2 ^ f.mw
  let m := x % 2 ^ f.mw
  let v : FV := .fin s (f.mag x).1 (f.mag x).2
  match f.pol with
  | 0 => if f.ew ≠ 0 ∧ e = emax then (if m = 0 then .inf s else .nan s) else v
  | 1 => if x = 2 ^ (f.ew + f.mw) - 1 ∨ (f.mw = 0 ∧ e = emax) then .nan s else v
  | 2 => if s ∧ x = 0 then .fin false 0 (f.mag 0).2 else v
  | _ => v

/-- A magnitude code with a sign. -/
def FFmt.signed (f : FFmt) (s : Bool) (c : Nat) : Nat := if f.sgn && s then c + 2 ^ (f.ew + f.mw) else c

/-- The default NaN of a standard format (R59). -/
def FFmt.defNan (f : FFmt) : Nat := (2 ^ f.ew - 1) * 2 ^ f.mw + 2 ^ (f.mw - 1)

/-- A zero result (R65, R69). -/
def FFmt.zero (f : FFmt) (s : Bool) : Nat := if f.pol = 2 then 0 else f.signed s 0

/-- What overflow delivers; `toInf` says that IEEE would give ±∞ (R65). -/
def FFmt.over (f : FFmt) (s toInf : Bool) : Nat :=
  if s && !f.sgn then 0
  else
    match f.pol with
    | 0 => if toInf && f.ew ≠ 0 then f.signed s ((2 ^ f.ew - 1) * 2 ^ f.mw) else f.signed s f.maxCode
    | 1 => if toInf then f.signed s (2 ^ (f.ew + f.mw) - 1) else f.signed s f.maxCode
    | _ => f.signed s f.maxCode

/-- What a NaN source delivers in a narrow format (R65); for a standard format its default NaN. -/
def FFmt.nanCode (f : FFmt) (s : Bool) : Nat :=
  match f.pol with
  | 0 => if f.ew = 0 then 0
    else if f.mw = 0 then f.signed false ((2 ^ f.ew - 1) * 2 ^ f.mw)
    else f.signed s f.defNan
  | 1 => 2 ^ (f.ew + f.mw) - 1
  | 2 => 0
  | _ => f.maxCode

/-! ## Rounding (R68, R69, R71) -/

/-- Exponent of the unit in the last place at a finite value: 2^q. -/
def FFmt.ulp (f : FFmt) (x : FV) : Int :=
  let q0 : Int := 1 - f.bias - f.mw
  if f.ew = 0 ∨ x.isZero then q0 else max q0 (x.log2 - f.mw)

/-- |x| in units of 2^q: whole units, numerator and denominator of the rest. -/
def FV.split (q : Int) : FV → Nat × Nat × Nat
  | .fin _ m e =>
    if q ≤ e then (m * 2 ^ (e - q).toNat, 0, 1)
    else
      let d := 2 ^ (q - e).toNat
      (m / d, m % d, d)
  | _ => (0, 0, 1)

/-- Whole units after rounding |x| = n + r/d; `u` is the draw of mode 4. -/
def roundUnits (mode : Nat) (u : Nat) (s : Bool) (n r d : Nat) : Nat :=
  if r = 0 then n
  else
    match mode with
    | 0 => if 2 * r < d then n else if d < 2 * r then n + 1 else n + n % 2
    | 1 => n
    | 2 => if s then n else n + 1
    | 3 => if s then n + 1 else n
    | _ => if u < r * 2 ^ 24 / d then n + 1 else n

/-- The code of `n` units of 2^q, beyond the largest finite one possibly. -/
def FFmt.codeOf (f : FFmt) (q : Int) (n : Nat) : Nat :=
  if n = 0 then 0
  else if f.ew = 0 then n
  else if n < 2 ^ f.mw then n
  else if n = 2 ^ (f.mw + 1) then ((q + 1 + f.mw + f.bias).toNat) * 2 ^ f.mw
  else ((q + f.mw + f.bias).toNat) * 2 ^ f.mw + (n - 2 ^ f.mw)

/-- Whether a magnitude exceeds the largest finite one. -/
def FFmt.exceeds (f : FFmt) (x : FV) : Bool :=
  (FV.fin false (f.mag f.maxCode).1 (f.mag f.maxCode).2).lt x.abs

/-- Whether IEEE 754-2019 gives ±∞ on overflow in a mode. -/
def toInf (mode : Nat) (s : Bool) : Bool :=
  match mode with
  | 1 => false
  | 2 => !s
  | 3 => s
  | _ => true

/-- RoundToFormat (R69) with the draw of mode 4 (R71). -/
def FFmt.round (f : FFmt) (mode u : Nat) (x : FV) : Nat :=
  match x with
  | .nan s => f.nanCode s
  | .inf s =>
    if s && !f.sgn then 0
    else if f.pol = 1 ∨ (f.pol = 0 ∧ f.ew ≠ 0) then f.over s true
    else f.over s false
  | .fin s m e =>
    let x : FV := .fin s m e
    if s && !f.sgn then 0
    else
      let md := if mode = 4 ∧ f.exceeds x then 0 else mode
      let q := f.ulp x
      let (n, r, d) := x.split q
      let c := f.codeOf q (roundUnits md u s n r d)
      if c = 0 then f.zero s
      else if f.maxCode < c then f.over s (toInf md s)
      else f.signed s c

/-- Whether mode 4 draws for a value (R71): it is not representable and does not exceed the largest finite one. A negative
value into an unsigned format, which R65 delivers as +0, draws nothing (DESIGN CHOICE, log 72). -/
def FFmt.draws (f : FFmt) (x : FV) : Bool :=
  match x with
  | .fin s m e =>
    let x : FV := .fin s m e
    !(s && !f.sgn) && !(f.exceeds x) && (x.split (f.ulp x)).2.1 ≠ 0
  | _ => false

/-- Saturate (R83). -/
def FFmt.saturate (f : FFmt) (x : FV) : FV :=
  let top (s : Bool) : FV := .fin s (f.mag f.maxCode).1 (f.mag f.maxCode).2
  match x with
  | .nan s => .nan s
  | .inf s => top s
  | .fin s m e => if f.exceeds (.fin s m e) then top s else .fin s m e

/-- Rounding to an integer (R73); infinities and NaN are handled by the caller. -/
def FV.toInt (mode : Nat) (x : FV) : Int :=
  match x with
  | .fin s _ _ =>
    let (n, r, d) := x.split 0
    let k := roundUnits mode 0 s n r d
    if s then -(k : Int) else k
  | _ => 0

/-! ## NaN operands (R61) -/

/-- A NaN code of a standard format. -/
def FFmt.isNan (f : FFmt) (c : Nat) : Bool := (f.dec c).isNan
/-- The NaN made quiet. -/
def FFmt.quiet (f : FFmt) (c : Nat) : Nat := c ||| 2 ^ (f.mw - 1)

/-- The result of an operation with operand codes `cs` and exact result `r`: the first NaN operand made quiet, the
default NaN, or the rounded value. -/
def FFmt.result (f : FFmt) (mode : Nat) (cs : List Nat) (r : FV) : Nat :=
  match cs.find? f.isNan with
  | some c => f.quiet c
  | none => if r.isNan then f.defNan else f.round mode 0 r

/-! ## Square root -/

/-- floor of the square root, bit by bit from `2^k`. -/
def isqrt (n : Nat) : Nat → Nat → Nat
  | 0, r => r
  | k + 1, r => if (r + 2 ^ k) * (r + 2 ^ k) ≤ n then isqrt n k (r + 2 ^ k) else isqrt n k r

/-- The square root of a positive finite value to `p` bits and one sticky bit, exact for rounding at fewer bits. -/
def FV.sqrt (p : Nat) : FV → FV
  | .fin s m e =>
    if m = 0 then .fin s 0 e
    else
      -- m · 2^e = M · 2^(2h) with M of at least 2p bits
      let k := 2 * p + (e % 2).toNat
      let M := m * 2 ^ k
      let h := (e - k) / 2
      let r := isqrt M ((Nat.log2 M + 2) / 2) 0
      .fin false (2 * r + (if r * r = M then 0 else 1)) (h - 1)
  | x => x

/-! ## E8M0 (R62) -/

def decE8 (c : Nat) : FV := if c = 255 then .nan false else .pow2 ((c : Int) - 127)
def encE8 (x : FV) : Nat :=
  match x with
  | .fin false m e =>
    if m = 0 then 255
    else
      let k := (FV.fin false m e).log2 + 127
      if k < 0 then 0 else if 254 < k then 254 else k.toNat
  | _ => 255

/-! ## Stochastic state (R70) -/

def mix32 (x : W32) : W32 :=
  let x := x * 0x9E3779B1
  let x := x ^^^ (x >>> 16)
  let x := x * 0x85EBCA6B
  x ^^^ (x >>> 13)

def stochDraw (x : W32) : W32 :=
  let x := x ^^^ (x <<< 13)
  let x := x ^^^ (x >>> 17)
  x ^^^ (x <<< 5)

/-- Rounds values in order, lowest first, drawing once for each that needs it in mode 4; the state after. -/
def roundAll (f : FFmt) (mode : Nat) (st : W32) : List FV → List Nat × W32
  | [] => ([], st)
  | x :: xs =>
    let st' := if mode = 4 ∧ f.draws x then stochDraw st else st
    let c := f.round mode (st'.toNat % 2 ^ 24) x
    let (cs, st'') := roundAll f mode st' xs
    (c :: cs, st'')

/-- IEEE comparison relations on values: less, equal, greater, unordered. -/
inductive Rel
  | lt | eq | gt | un
  deriving DecidableEq, Repr

def FV.rel (a b : FV) : Rel :=
  if a.isNan || b.isNan then .un else if a.lt b then .lt else if b.lt a then .gt else .eq

end Sys2Proof.Machine
end

