-- ==== Sys2Proof/Machine/Mx.lean ====
section
/-! DEFINITION. MX blocks and the BF16 view of reduced-format pages (R62, R67, R74-R76, R103). -/

namespace Sys2Proof.Machine

/-- Bits of an element code (R103). -/
def mxBits (fmt : Nat) : Nat := if fmt = 2 ∨ fmt = 3 then 6 else if fmt = 4 then 4 else 8
/-- Offset of the scales in the storage (R103). -/
def mxScales (fmt : Nat) : Nat := 4096 * mxBits fmt

/-- The element formats that are floats (R74). -/
def mxFmt (fmt : Nat) : FFmt :=
  match fmt with
  | 0 => ⟨true, 4, 3, 7, 1⟩
  | 1 => ⟨true, 5, 2, 15, 0⟩
  | 2 => ⟨true, 2, 3, 1, 3⟩
  | 3 => ⟨true, 3, 2, 3, 3⟩
  | _ => ⟨true, 2, 1, 1, 3⟩

/-- emax_elem of R74. -/
def mxEmax (fmt : Nat) : Int :=
  match fmt with
  | 0 => 8
  | 1 => 15
  | 2 => 2
  | 3 => 4
  | 4 => 2
  | _ => 0

/-- The value of an element code (R74): MXINT8 is i · 2^−6. -/
def mxVal (fmt c : Nat) : FV :=
  if fmt = 5 then FV.mul (.ofInt (toSigned 8 c)) (.pow2 (-6)) else (mxFmt fmt).dec c

/-- One element as BF16 (R75). -/
def mxToBf (fmt scale c : Nat) : Nat :=
  match mxVal fmt c with
  | .nan _ => bf16.defNan
  | .inf s => if scale = 255 then bf16.defNan else bf16.over s true
  | x => if scale = 255 then bf16.defNan else bf16.round 0 0 (FV.mul x (decE8 scale))

/-- The code of RoundNE(Saturate(x)) (R72, R76). -/
def mxCode (fmt : Nat) (x : FV) : Nat :=
  if fmt = 5 then
    let i := FV.toInt 0 (FV.mul x (.pow2 6))
    wrap 8 (max (-127) (min 127 i))
  else (mxFmt fmt).round 0 0 ((mxFmt fmt).saturate x)

/-- MXEncodeBlock (R76): 32 BF16 codes to the scale and the element codes. -/
def mxEncode (fmt : Nat) (vs : List Nat) : Nat × List Nat :=
  let xs := vs.map bf16.dec
  if xs.any (fun x => x.isNan || x.isInf) then (255, vs.map (fun _ => 0))
  else
    let amax := xs.foldl (fun a x => if a.lt x.abs then x.abs else a) (.ofInt 0)
    if amax.isZero then (127, vs.map (fun _ => 0))
    else
      let X := max (-127) (min 127 (amax.log2 - mxEmax fmt))
      ((X + 127).toNat, xs.map (fun x => mxCode fmt (FV.mul x (.pow2 (-X)))))

/-- Fields of `w` bits put together, lowest first. -/
def packBits (w : Nat) : List Nat → Nat
  | [] => 0
  | x :: xs => x % 2 ^ w + 2 ^ w * packBits w xs

/-- The element codes packed in a block's bytes (R67). -/
def mxCodes (fmt : Nat) (bs : List Byte) : List Nat :=
  let w := mxBits fmt
  (List.range 32).map (fun i => bits (leNat bs) (w * i) w)
def mxPack (fmt : Nat) (cs : List Nat) : List Byte :=
  leBytes (4 * mxBits fmt) (packBits (mxBits fmt) cs)

/-- The place of block `b` in the storage: the bytes of its codes, its scale byte. -/
def mxBlockAt (base fmt b : Nat) : Nat := base + b * (4 * mxBits fmt)
def mxScaleAt (base fmt b : Nat) : Nat := base + mxScales fmt + b

/-- The 64 bytes of a block's BF16 view (R75). -/
def mxView (fmt scale : Nat) (codes : List Byte) : List Byte :=
  (mxCodes fmt codes).flatMap (fun c => leBytes 2 (mxToBf fmt scale c))

/-- The BF16 codes of a view. -/
def mxBfs (view : List Byte) : List Nat := (List.range 32).map (fun i => leNat ((view.drop (2 * i)).take 2))

end Sys2Proof.Machine
end

