-- ==== Sys2Proof/Machine/Slice.lean ====
section
/-! DEFINITION. Home slices, way partitions, watch tables, and the points of serialisation (R96-R102, R227, R271-R273). -/

namespace Sys2Proof.Machine

/-! ## Interleave (R96) -/

def stackOf (pa : Nat) : Nat := bits pa 8 3 ^^^ bits pa 19 3 ^^^ bits pa 30 3
def pcOf (pa : Nat) : Nat := bits pa 11 8 ^^^ bits pa 31 8
def homeOf (pa : Nat) : Nat := 16 * (stackOf pa / 2) + pcOf pa % 16

/-- Sets of a cache slice under SPLIT: its size divided by 2 KiB (R97). -/
def setsOf (split : Nat) : Nat :=
  match split with
  | 0 => 4096
  | 1 => 2048
  | 2 => 1024
  | 3 => 512
  | _ => 0

/-- Bytes of direct memory under SPLIT (R97). -/
def directSize (split : Nat) : Nat :=
  match split with
  | 0 => 0
  | 1 => 2 ^ 22
  | 2 => 6 * 2 ^ 20
  | 3 => 7 * 2 ^ 20
  | _ => 2 ^ 23

/-- A request to a moved page of slice S goes to S′ (R332). -/
def Dev.redirect (d : Dev) (pa : Nat) : Nat :=
  if (d.move.stat = 1 ∨ d.move.stat = 2) ∧ pa / 2 ^ 30 = d.move.src ∧ pa % 2 ^ 30 / 2 ^ 16 < d.move.moved then
    d.move.dst * 2 ^ 30 + pa % 2 ^ 30
  else pa

/-- Who makes a request (R326): core (none for the host, Twill and the control plane), context, server group, class
and stamp; NC; whether its read consumes a forwarded line (R99); the request that waits for DRAM. `owner` is the context
that fails with it, also where no server of the context is charged (R380, R415). -/
structure Who where
  core : Option Nat
  ctx : Option Nat
  owner : Option Nat
  group : Nat
  cls : Nat
  stamp : Nat
  nc : Bool
  consume : Bool
  req : Option Nat
  deriving DecidableEq, Repr

/-- A requester with no server: group 15, class 3, a stamp of all ones (R326). -/
def Who.unit : Who := ⟨none, none, none, 15, 3, 2 ^ 64 - 1, false, false, none⟩
/-- Ranks of the host, Twill and the control plane at a slice, after every core (R100). -/
def rankHost : Nat := 256
def Who.rank (w : Who) : Nat := w.core.getD rankHost

/-- A request reaches a slice's line, or an alias access its blocks (0 a write, 1 a read): kept for the order of its clock
(R77, R100, log 44). -/
def touched (w : Who) (ln : Nat) : Dev → Dev := fun d => { d with seen := ⟨.line ln, d.ctime, w.rank⟩ :: d.seen }
def touchedMx (rank : Nat) : Dev → Dev := fun d => { d with seen := ⟨.mx, d.ctime, rank⟩ :: d.seen }

/-- A unit that acts for a context (R404, R408, R415). -/
def Who.forCtx (k : Nat) : Who := { Who.unit with owner := some k }

def Vault.line? (v : Vault) (ln : Nat) : Option Line := v.lines.find? (fun l => l.line = ln)
def Vault.modLine (v : Vault) (ln : Nat) (f : Line → Line) : Vault :=
  { v with lines := v.lines.map (fun l => if l.line = ln then f l else l) }
def Vault.delLine (v : Vault) (ln : Nat) : Vault := { v with lines := v.lines.filter (fun l => l.line ≠ ln) }

/-- What a line holds: 128 bytes (R98). -/
def Line.bytes (l : Line) : List Byte := if l.st = .zero then List.replicate 128 0 else l.data.takeD 128 0

/-- The 128 bytes of a DRAM line at its point of serialisation. -/
def State.lineBytes (s : State) (ln : Nat) : List Byte :=
  match (s.dev.vault (homeOf (ln * 128))).line? ln with
  | some l => l.bytes
  | none => Memory.reads s.mem (ln * 128) 128

/-- DRAM bytes as the slices hold them, line by line. -/
def State.dramBytes (s : State) (pa n : Nat) : List Byte :=
  (List.range (ceilDiv (pa % 128 + n) 128)).flatMap (fun i => s.lineBytes (s.dev.redirect ((pa / 128 + i) * 128) / 128)) |>.drop (pa % 128) |>.take n

/-- The view's blocks that a range touches (R103). -/
def mxBlocks (off n : Nat) : List Nat := (List.range (ceilDiv (off % 64 + n) 64)).map (fun i => off / 64 + i)

/-- A block's codes and scale as the DRAM controller reads them (R77, R104). -/
def State.mxBlock (s : State) (base fmt b : Nat) : List Byte × Nat :=
  (s.dramBytes (mxBlockAt base fmt b) (4 * mxBits fmt), leNat (s.dramBytes (mxScaleAt base fmt b) 1))

/-- Bytes of the BF16 view (R75). -/
def State.mxBytes (s : State) (base fmt off n : Nat) : List Byte :=
  (mxBlocks off n).flatMap (fun b => mxView fmt (s.mxBlock base fmt b).2 (s.mxBlock base fmt b).1) |>.drop (off % 64)
    |>.take n

/-- `n` bytes at a place, as its point of serialisation holds them (R227, R271). A peer place has none here. -/
def State.point (s : State) (loc : Loc) (n : Nat) : List Byte :=
  match loc with
  | .dram pa0 =>
    let pa := s.dev.redirect pa0
    ((s.lineBytes (pa / 128)).drop (pa % 128)).take n
  | .host pa => Memory.reads s.mem pa n
  | .vault v off => (List.range n).map (fun i => (s.store (.vault v)).read (off + i))
  | .spad c f off => (List.range n).map (fun i => (s.store (.spad c f)).read (off + i))
  | .acc c f i => (List.range n).map (fun j => (s.store (.acc c f)).read (4 * i + j))
  | .mxel base fmt off => s.mxBytes base fmt off n
  | .peer _ _ => []

/-- Bytes at a DRAM or host physical address range that may cross lines. -/
def State.phys (s : State) (pa n : Nat) : List Byte :=
  (List.range n).flatMap (fun i => if inHost pa then s.point (.host (pa + i)) 1 else s.point (.dram (pa + i)) 1)

/-! ## DRAM requests (R326) -/

def Stack.pc? (st : Stack) (n : Nat) : PseudoChan :=
  (st.pcs.find? (fun p => p.pc = n)).getD ⟨n, .active, 0, none, 0, [], []⟩
def Stack.putPc (st : Stack) (p : PseudoChan) : Stack :=
  { st with pcs := p :: st.pcs.filter (fun q => q.pc ≠ p.pc) }

/-- A pseudo-channel as a request comes: an entry into self-refresh that its idle timer has made in the same tick is abandoned,
and the timer starts again (R365). -/
def PseudoChan.asked (p : PseudoChan) (now : Nat) : PseudoChan :=
  if p.st = .selfRefresh ∧ p.enterAt = some now then { p with st := .active, idleSince := now, enterAt := none } else p

/-- A request that waits outside a self-refreshing pseudo-channel starts its exit. -/
def PseudoChan.wakened (p : PseudoChan) (now : Nat) : PseudoChan :=
  let q := p.asked now
  if q.st = .selfRefresh then { q with st := .exiting, exitAt := now } else q

/-- A request of `bytes` bytes waits for the stack of `pa` (R326); the line's bank is its location's low bits. -/
def dramAsk (w : Who) (pa bytes : Nat) : Dev → Dev := fun d =>
  let st := d.stk (stackOf pa)
  let p := (st.pc? (pcOf pa)).asked d.ctime
  let q : DramReq := ⟨w.req, w.ctx, w.owner, w.cls, w.stamp, bytes, bits pa 19 6, false⟩
  let d1 := d.modStk (stackOf pa) (fun _ => st.putPc { p with waiting := p.waiting ++ [q] })
  match w.req with
  | some id => d1.modReq id (fun r => { r with dram := true })
  | none => d1

/-- Data that returns after its stamp raises its context's DMISS (R326). -/
def missed (ctx stamp : Nat) : Dev → Dev := fun d =>
  if stamp < d.ctime / 40 then
    d.modCtx ctx (fun c => { c with dmiss := if c.dmiss = 0xFFFFFFFF then c.dmiss else c.dmiss + 1 })
  else d

/-- Writes of consecutive bytes of a local store. -/
def stoWrites (k : StoKey) (off : Nat) : List Byte → List Write
  | [] => []
  | b :: bs => .sto k off b :: stoWrites k (off + 1) bs

/-! ## Checks of stored granules (R377, R378) -/

/-- The DRAM bytes of a place: for a reduced-format page the codes and scales of the touched blocks (R104, R273). -/
def Loc.spans (l : Loc) (n : Nat) : List (Nat × Nat) :=
  match l with
  | .dram pa => [(pa, n)]
  | .mxel base fmt off =>
    (mxBlocks off n).flatMap (fun b => [(mxBlockAt base fmt b, 4 * mxBits fmt), (mxScaleAt base fmt b, 1)])
  | _ => []

/-- The bank, code and granule address of a stored granule (R381-R383). The physical place that an allocation has in
its port group's register file or in the accumulator store, and the numbering of cached words, are free values
(R380). -/
def markBank (g : Granule) : Nat × Nat × Nat × W64 :=
  match g with
  | .dram pa => (64 + stackOf pa, 0x20, pcOf pa, BitVec.ofNat 64 (pa / 64 * 64))
  | .vault v off => (v, 0x15, 0, BitVec.ofNat 64 (off / 64 * 64))
  | .spad c _ off => (clusterOf c, 0x11, c % 4, BitVec.ofNat 64 off)
  | .reg c f t v => (clusterOf c, 0x10, c % 4,
      BitVec.ofNat 64 (pgOf t * 2 ^ 24 + laneOf t * 2 ^ 16 + (Config.freeWord (f + 16 * (t + 2048 * v))).toNat % 2048))
  | .acc c f i => (clusterOf c, 0x12, c % 4, BitVec.ofNat 64 ((Config.freeWord (f + 16 * i)).toNat % 786432))
  | .slice pa _ => (homeOf pa, 0x16, 0, BitVec.ofNat 64 (pa / 64 * 64))
  | .l1 c pa => (clusterOf c, 0x13, c % 4, Config.freeWord (pa / 8))
  | .icache c pa => (clusterOf c, 0x14, c % 4, Config.freeWord (pa / 8))
  | .borrowed c off => (clusterOf c, 0x11, c % 4, BitVec.ofNat 64 off)
  | .freeReg c pg lane i => (clusterOf c, 0x10, c % 4,
      BitVec.ofNat 64 (pg % 4 * 2 ^ 24 + lane % 32 * 2 ^ 16 + i % 2048))
  | .freeAcc c i => (clusterOf c, 0x12, c % 4, BitVec.ofNat 64 (i % 786432))

/-- The slice of a line holds it. -/
def Dev.inSlice (d : Dev) (ln : Nat) : Bool := ((d.vault (homeOf (ln * 128))).line? ln).isSome

/-- Marks on the bytes of a place: of DRAM where the slice holds no line, else of the slice's words and tag. -/
def Dev.marksOn (d : Dev) (loc : Loc) (n : Nat) : List Mark :=
  let meets (a len g size : Nat) : Bool := d.redirect a < g + size && g < d.redirect a + len
  d.marks.filter (fun m =>
    match m.1, loc with
    | .vault v g, .vault w off => v = w ∧ off < g / 8 * 8 + 8 ∧ g / 8 * 8 < off + n
    | .spad c f g, .spad c' f' off => c = c' ∧ f = f' ∧ off < g / 8 * 8 + 8 ∧ g / 8 * 8 < off + n
    | .acc c f g, .acc c' f' i => c = c' ∧ f = f' ∧ i ≤ g ∧ g < i + (n + 3) / 4
    | .dram g, l => !d.inSlice (g / 128) && (l.spans n).any (fun x => meets x.1 x.2 (g / 64 * 64) 64)
    | .slice g tag, l => d.inSlice (g / 128) && (l.spans n).any (fun x =>
        if tag then meets x.1 x.2 (g / 128 * 128) 128 else meets x.1 x.2 (g / 8 * 8) 8)
    | _, _ => false)

/-- Removes marks. -/
def unmark (ms : List Mark) : Dev → Dev := fun d => { d with marks := d.marks.filter (fun m => m ∉ ms) }

/-- Whether a place can be read: no mark beyond correction. -/
def Dev.eccBad (d : Dev) (loc : Loc) (n : Nat) : Bool := (d.marksOn loc n).any (·.2)

/-- A write of `n` bytes at a place covers the granule of a mark, and so removes it unread (R377, R378). -/
def Dev.covers (d : Dev) (loc : Loc) (n : Nat) (m : Mark) : Bool :=
  match m.1, loc with
  | .dram g, .dram pa => pa ≤ g / 64 * 64 ∧ g / 64 * 64 + 64 ≤ pa + n ∧ (m.2 = false ∨ n = 128)
  | .slice g false, .dram pa => d.redirect pa ≤ g / 8 * 8 ∧ g / 8 * 8 + 8 ≤ d.redirect pa + n
  | .vault _ g, .vault _ off => off ≤ g / 8 * 8 ∧ g / 8 * 8 + 8 ≤ off + n
  | .spad _ _ g, .spad _ _ off => off ≤ g / 8 * 8 ∧ g / 8 * 8 + 8 ≤ off + n
  | .acc _ _ _, .acc _ _ _ => true
  | _, _ => false

/-! ## Checks of a slice line (R377, R378) -/

/-- A mark on a slice line's data or tag; on a line's DRAM granules. -/
def onSlice (ln : Nat) (m : Mark) : Bool :=
  match m.1 with
  | .slice pa _ => pa / 128 = ln
  | _ => false
def onDram (ln : Nat) (m : Mark) : Bool :=
  match m.1 with
  | .dram pa => pa / 128 = ln
  | _ => false

/-- The syndrome that a record of an ECC fault holds: a free value (R382). -/
def Dev.syndrome (d : Dev) : W64 := Config.freeWord d.free

/-- Records one fault of stored bits with its syndrome. -/
def eccRecord (bank cls : Nat) (ctx : Option Nat) (code inst : Nat) (addr : W64) : Eff := look fun s =>
  (bankRecord bank cls ctx code inst addr s.dev.syndrome).andThen (upd Dev.fresh)

/-- Marks on the DRAM granules of a line, and whether one is beyond correction. -/
def Dev.lineBad (d : Dev) (ln : Nat) : Bool := d.marks.any (fun m => onDram ln m && m.2)

/-- A line is read from DRAM to fill its slice: its faults within correction are recorded and written back (R377). -/
def fillMarks (ctx : Option Nat) (ln : Nat) : Eff := look fun s =>
  forE (s.dev.marks.filter (fun m => onDram ln m && !m.2)) (fun m =>
    let (bank, code, inst, addr) := markBank m.1
    (eccRecord bank 1 ctx code inst addr).andThen (upd (unmark [m])))

/-- A line's removal from its slice takes the marks on it. -/
def Dev.dropLine (d : Dev) (ln : Nat) : Dev :=
  { d.modVault (homeOf (ln * 128)) (fun x => x.delLine ln) with marks := d.marks.filter (fun m => !onSlice ln m) }

/-- A write-back reads the line's marks: corrected ones are recorded; with one beyond correction DRAM takes the
controller's uncorrectable pattern (R378, log 49). Whole granules replace what DRAM held. -/
def lineMarks (ln : Nat) : Eff := look fun s =>
  let ms := s.dev.marks.filter (onSlice ln)
  let bad := ms.any (·.2)
  seqE [
    forE ms (fun m => eccRecord (homeOf (ln * 128)) (if m.2 then 0 else 1) none 0x16 0 (markBank m.1).2.2.2),
    upd (fun d => { d with marks := d.marks.filter (fun m => !onSlice ln m && !onDram ln m) ++
      (if bad then [(.dram (ln * 128), true), (.dram (ln * 128 + 64), true)] else []) }) ]

/-- A line goes back to DRAM (R98). -/
def writeBack (l : Line) : Eff :=
  seqE [
    lineMarks l.line,
    wr (memWrites (l.line * 128) l.bytes),
    upd (dramAsk Who.unit (l.line * 128) 128) ]

/-! ## Watch tables (R102) -/

/-- The comparisons of R176; the low bit of `cmp` is the width. -/
def cmpHolds (cmp m v : Nat) : Bool :=
  match cmp / 2 with
  | 0 => m = v
  | 1 => m ≠ v
  | 2 => m < v
  | _ => v ≤ m

/-- Two places share a byte (R215). -/
def Loc.overlaps (a : Loc) (n : Nat) (b : Loc) (m : Nat) : Bool :=
  match a, b with
  | .host p, .host q => p < q + m ∧ q < p + n
  | .vault v p, .vault w q => v = w ∧ p < q + m ∧ q < p + n
  | .spad c f p, .spad c' f' q => c = c' ∧ f = f' ∧ p < q + m ∧ q < p + n
  | .acc c f p, .acc c' f' q => c = c' ∧ f = f' ∧ p < q + (m + 3) / 4 ∧ q < p + (n + 3) / 4
  | a, b => (a.spans n).any (fun x => (b.spans m).any (fun y => x.1 < y.1 + y.2 ∧ y.1 < x.1 + x.2))

/-- A write at a place touches the bytes of another, where moved pages lie now (R102, R332). -/
def Dev.meets (d : Dev) (a : Loc) (n : Nat) (b : Loc) (m : Nat) : Bool :=
  a.overlaps n b m ||
    (a.spans n).any (fun x => (b.spans m).any (fun y =>
      d.redirect x.1 < d.redirect y.1 + y.2 ∧ d.redirect y.1 < d.redirect x.1 + x.2))

/-- Wakes: the watching thread's request is answered with the value on which the slice decided (R177, R283); a
graph walker's node is marked (R307). -/
def wake (e : WatchEnt) (val : List Byte) : Dev → Dev := fun d =>
  match e.ref with
  | some _ => d.modReq e.req (fun r => { r with performed := true, val := val })
  | none =>
    d.modCtx e.ctx (fun c =>
      { c with step := c.step.map (fun st =>
          { st with list := st.list.map (fun n => if n.idx = e.req then { n with woke := true } else n) }) })

/-- Step 3 of R102 after a write of `n` bytes at `loc`, which lies in vault `v`'s table. -/
def watchCheck (v : Nat) (loc : Loc) (n : Nat) : Eff := look fun s =>
  let hit (e : WatchEnt) : Bool :=
    s.dev.meets loc n e.loc e.n && cmpHolds e.cmp (leNat (s.point e.loc e.n)) e.val.toNat
  let es := (s.dev.vault v).watch.filter hit
  upd (fun d =>
    es.foldl (fun d e => wake e (s.point e.loc e.n) d)
      (d.modVault v (fun x => { x with watch := x.watch.filter (fun e => !hit e) })))

/-! ## Allocation (R101) -/

/-- Field of a WAYPART register: policy at bit `l`. -/
def policy (r : W32) (l : Nat) : Nat := bits r.toNat l 2
def Dev.part (d : Dev) (w : Who) : W32 := d.waypart[4 * w.group + w.cls]?.getD 0x0000FFFF

/-- Whether a miss under the policy at bit `l` may allocate (R101). -/
def mayAlloc (d : Dev) (w : Who) (v l : Nat) : Bool :=
  let r := d.part w
  !w.nc && decide (setsOf (d.vault v).split ≠ 0) && decide (bits r.toNat 0 16 ≠ 0) &&
    (policy r l == 0 || policy r l == 2)

/-- The way for a new line: the lowest free way of the mask, else the way of its least recently used line, which is
replaced. -/
def pickWay (lines : List Line) (sets ln mask : Nat) : Option (Nat × Option Line) :=
  let same := lines.filter (fun l => l.line % sets = ln % sets)
  let ways := (List.range 16).filter (fun w => mask.testBit w)
  match ways.find? (fun w => same.all (fun l => l.way ≠ w)) with
  | some w => some (w, none)
  | none =>
    let cand := same.filter (fun l => mask.testBit l.way)
    match cand with
    | [] => none
    | c :: cs =>
      let v := cs.foldl (fun a b => if b.used < a.used then b else a) c
      some (v.way, some v)

/-- Puts a line into its slice under the policy at bit `l`, evicting the line it replaces (R98, R101). -/
def allocLine (w : Who) (l ln : Nat) (st : LineSt) (data : List Byte) : Eff := look fun s =>
  let v := homeOf (ln * 128)
  let vt := s.dev.vault v
  let r := s.dev.part w
  match pickWay vt.lines (setsOf vt.split) ln (bits r.toNat 0 16) with
  | none => skip
  | some (way, victim) =>
    let put : Eff := upd (fun d => d.modVault v (fun x =>
      { x with tick := x.tick + 1,
               lines := ⟨ln, st, way, (if policy r l = 2 then 0 else x.tick + 1), data⟩ :: x.lines }))
    match victim with
    | none => put
    | some old =>
      let drop : Eff := upd (fun d => d.dropLine old.line)
      if old.st = .clean then drop.andThen put else (writeBack old).andThen (drop.andThen put)

/-- A hit makes the line most recently used. -/
def touchLine (ln : Nat) : Eff :=
  upd (fun d => d.modVault (homeOf (ln * 128)) (fun x =>
    { (x.modLine ln (fun l => { l with used := x.tick + 1 })) with tick := x.tick + 1 }))

/-! ## Requests at a home slice (R98-R101) -/

/-- A read of a DRAM line by `w` (R98, R99); the value read is that of State.point before it. -/
def sliceReadE (w : Who) (pa0 : Nat) : Eff := look fun s =>
  let pa := s.dev.redirect pa0
  let ln := pa / 128
  let v := homeOf pa
  (upd (touched w ln)).andThen <| match (s.dev.vault v).line? ln with
  | some l =>
    let own : Bool := w.consume && (match l.st with
      | .fwd c => decide (w.core = some c)
      | _ => false)
    if own then
      (upd (fun d => d.dropLine ln)).andThen (watchCheck v (.dram (ln * 128)) 128)
    else touchLine ln
  | none =>
    let ask : Eff := upd (dramAsk w pa (if w.nc then 64 else 128))
    if mayAlloc s.dev w v 16 && !s.dev.lineBad ln then
      ask.andThen ((fillMarks w.owner ln).andThen (allocLine w 16 ln .clean (s.lineBytes ln)))
    else ask

/-- The bytes that an access of a place reads there: where its slice does not hold the line and the access goes through the
caches, the whole line comes from DRAM (R98, R214, R377). -/
def Dev.fillRange (d : Dev) (l : Loc) (n : Nat) (nc : Bool) : Loc × Nat :=
  match l with
  | .dram pa => if nc || d.inSlice (d.redirect pa / 128) then (l, n) else (.dram (pa / 128 * 128), 128)
  | l => (l, n)

/-- The bytes of a place that a write of `n` bytes reads: those of the granules that it covers in part, and the whole line
where it fills its slice. -/
def Dev.writeRange (d : Dev) (w : Who) (l : Loc) (n pol : Nat) : Loc × Nat :=
  match l with
  | .dram pa =>
    if n = 128 then (l, 0) else d.fillRange l n (!mayAlloc d w (homeOf (d.redirect pa)) pol)
  | l => (l, n)

/-- The marks beyond correction that a write of `n` bytes at a place meets. -/
def Dev.writeBad (d : Dev) (w : Who) (l : Loc) (n pol : Nat) : List Mark :=
  let (r, k) := d.writeRange w l n pol
  (d.marksOn r k).filter (fun m => m.2 && !d.covers l n m)

/-- The kinds of write that a slice takes. -/
inductive WrKind
  | plain | atomic
  | stf (consumer : Nat)
  | zfill
  deriving DecidableEq, Repr

/-- `bs` laid over `old` from offset `off`. -/
def overlay (old : List Byte) (off : Nat) (bs : List Byte) : List Byte :=
  old.take off ++ bs ++ old.drop (off + bs.length)

/-- A write of bytes within one DRAM line by `w`, with the watch check after it (R98, R99, R101, R102). A line that fills its
slice is read whole; with bits beyond correction in DRAM nothing is written (R378). -/
def sliceWriteE (w : Who) (k : WrKind) (pa0 : Nat) (bs : List Byte) : Eff := look fun s =>
  let pa := s.dev.redirect pa0
  let ln := pa / 128
  let v := homeOf pa
  let pol := if k = .atomic then 20 else 18
  let cur := s.lineBytes ln
  let new := overlay cur (pa % 128) bs
  let may := mayAlloc s.dev w v pol
  let st' : LineSt := match k with
    | .stf c => if may then .fwd c else .dirty
    | .zfill => .zero
    | _ => .dirty
  let act : Eff :=
    match (s.dev.vault v).line? ln with
    | some l =>
      let set : Eff := (upd (fun d => d.modVault v (fun x => x.modLine ln (fun l => { l with st := st', data := new })))).andThen
        (touchLine ln)
      match k with
      | .stf _ => if may ∧ (l.st = .dirty ∨ l.st = .zero) then (writeBack l).andThen set else set
      | _ => set
    | none =>
      if may then
        match k with
        | .zfill => allocLine w pol ln .zero (List.replicate 128 0)
        | _ =>
          if bs.length ≠ 128 ∧ s.dev.lineBad ln then skip
          else (upd (dramAsk w pa 128)).andThen
            ((whenE (decide (bs.length ≠ 128)) (fillMarks w.owner ln)).andThen (allocLine w pol ln st' new))
      else (wr (memWrites pa bs)).andThen (upd (dramAsk w pa bs.length))
  (upd (touched w ln)).andThen (act.andThen (watchCheck v (.dram pa) bs.length))

/-- A line leaves its slice, written back if DRAM does not hold it (R97, R99, R104, R332). -/
def flushLine (ln : Nat) : Eff := look fun s =>
  let v := homeOf (ln * 128)
  match (s.dev.vault v).line? ln with
  | none => skip
  | some l =>
    let drop : Eff := upd (fun d => d.dropLine ln)
    if l.st = .clean then drop else (writeBack l).andThen drop

/-- The storage lines of a reduced-format access, and the slices' write-back and invalidation of them (R104). -/
def mxStorage (d : Dev) (loc : Loc) (n : Nat) : List Nat :=
  (loc.spans n).flatMap (fun x => (List.range (ceilDiv (x.1 % 128 + x.2) 128)).map (fun i =>
    d.redirect ((x.1 / 128 + i) * 128) / 128))
def mxFlush (loc : Loc) (n : Nat) : Eff := look fun s => forE (mxStorage s.dev loc n) flushLine

/-- An alias access reaches the slices of its storage lines and its blocks (R77, R100). -/
def mxReach (w : Who) (rank : Nat) (loc : Loc) (n : Nat) : Eff :=
  upd (fun d => touchedMx rank ((mxStorage d loc n).foldl (fun d ln => touched w ln d) d))

/-- Writes of DRAM bytes that move with a moved page (R332). -/
def dramWrites (d : Dev) (pa : Nat) : List Byte → List Write
  | [] => []
  | b :: bs => .mem (d.redirect pa) b :: dramWrites d (pa + 1) bs

/-- A write through the BF16 view by `w`: every touched block is re-encoded (R76, R104), and its slices' watches are
checked. -/
def mxWriteE (w : Who) (base fmt off : Nat) (bs : List Byte) : Eff :=
  ((mxReach w 0 (.mxel base fmt off) bs.length).andThen (mxFlush (.mxel base fmt off) bs.length)).andThen (forE (mxBlocks off bs.length) (fun b => look fun s =>
    let (codes, scale) := s.mxBlock base fmt b
    let skipped := 64 * b - off
    let new := overlay (mxView fmt scale codes) (off - 64 * b) ((bs.drop skipped).take (64 - (off - 64 * b)))
    let (sc, cs) := mxEncode fmt (mxBfs new)
    let pa := mxBlockAt base fmt b
    seqE [
      wr (dramWrites s.dev pa (mxPack fmt cs) ++ dramWrites s.dev (mxScaleAt base fmt b) (leBytes 1 sc)),
      upd (dramAsk { w with req := none } pa (4 * mxBits fmt)),
      forE ([pa, pa + 4 * mxBits fmt - 1, mxScaleAt base fmt b].map (fun a => homeOf (s.dev.redirect a))).dedup
        (fun v => watchCheck v (.mxel base fmt (64 * b)) 64) ]))

/-- A write at a place (R227, R271): the home slice, host memory, the vault with its watch table, the scratchpad, the
accumulator store or the BF16 view. A peer place is written at the target. -/
def pointWrite (w : Who) (k : WrKind) (loc : Loc) (bs : List Byte) : Eff :=
  match loc with
  | .dram pa => sliceWriteE w k pa bs
  | .host pa => wr (memWrites pa bs)
  | .vault v off => (wr (stoWrites (.vault v) off bs)).andThen (watchCheck v loc bs.length)
  | .spad c f off => wr (stoWrites (.spad c f) off bs)
  | .acc c f i => wr (stoWrites (.acc c f) (4 * i) bs)
  | .mxel base fmt off => mxWriteE w base fmt off bs
  | .peer _ _ => skip

/-- A read through the BF16 view by `w`: the slices give up the storage lines (R104), and every touched block, its codes
and its scale, is read from DRAM. -/
def mxReadE (w : Who) (base fmt off n : Nat) : Eff :=
  ((mxReach w 1 (.mxel base fmt off) n).andThen (mxFlush (.mxel base fmt off) n)).andThen (forE (mxBlocks off n) (fun b =>
    upd (fun d => dramAsk w (d.redirect (mxBlockAt base fmt b)) (4 * mxBits fmt + 1) d)))

/-- A read of `n` bytes at a place and what it does there. -/
def pointRead (w : Who) (loc : Loc) (n : Nat) : Eff :=
  match loc with
  | .dram pa => sliceReadE w pa
  | .mxel base fmt off => mxReadE w base fmt off n
  | _ => skip

/-- An atomic that writes nothing (R226): it clears a forward tag, and on a miss allocates under ATPOL (R99, R101). -/
def sliceTouchE (w : Who) (pa0 : Nat) : Eff := look fun s =>
  let pa := s.dev.redirect pa0
  let ln := pa / 128
  let v := homeOf pa
  (upd (touched w ln)).andThen <| match (s.dev.vault v).line? ln with
  | some l =>
    (match l.st with
      | .fwd _ => upd (fun d => d.modVault v (fun x => x.modLine ln (fun l => { l with st := .dirty })))
      | _ => skip).andThen (touchLine ln)
  | none =>
    let ask : Eff := upd (dramAsk w pa 128)
    if mayAlloc s.dev w v 20 && !s.dev.lineBad ln then
      ask.andThen ((fillMarks w.owner ln).andThen (allocLine w 20 ln .clean (s.lineBytes ln)))
    else ask

/-- A context save writes back every forwarded line, which becomes clean (R99, log 46). -/
def fwdFlush : Eff := look fun s =>
  forE ((List.range 64).flatMap (fun v => ((s.dev.vault v).lines.filter (fun l =>
      match l.st with
      | .fwd _ => true
      | _ => false)).map (fun l => (v, l)))) (fun x =>
    (writeBack x.2).andThen (upd (fun d => d.modVault x.1 (fun y => y.modLine x.2.line (fun l => { l with st := .clean })))))

/-- A write of a unit within one line of DRAM; the one request is lost where it meets bits beyond correction (R378, R379). -/
def lineWrite (w : Who) (k : WrKind) (pa : Nat) (bs : List Byte) : Eff := look fun s =>
  match s.dev.writeBad w (.dram pa) bs.length (if k = .atomic then 20 else 18) with
  | m :: _ =>
    let (bank, code, inst, addr) := markBank m.1
    (containedNone bank code inst addr s.dev.syndrome).andThen (upd Dev.fresh)
  | [] => sliceWriteE w k pa bs

/-- A write of a unit without a server at a physical address of DRAM or host memory, cut at line borders. -/
def physPut (w : Who) (k : WrKind) (pa : Nat) (bs : List Byte) : Eff :=
  if inHost pa then wr (memWrites pa bs)
  else
    let n := 128 - pa % 128
    (lineWrite w k pa (bs.take n)).andThen (if n < bs.length then lineWrite w k (pa + n) (bs.drop n) else skip)

/-- Such a write of a unit without a context. -/
def physWrite (pa : Nat) (bs : List Byte) : Eff := physPut Who.unit .plain pa bs

end Sys2Proof.Machine
end

