-- ==== Sys2Proof/Machine/Stop.lean ====
section
/-! DEFINITION. Contained and fatal stops, and the checks of stored granules (R377-R390). -/

namespace Sys2Proof.Machine

/-! ## Stops (R387, R390) -/

/-- Requests of a discarded context that stay: its writes go on, the rest is dropped. -/
def Req.writes (r : Req) : Bool :=
  match r.kind with
  | .st => true
  | .stf _ => true
  | .zfill => true
  | .red _ => true
  | .stacc => false
  | .pst => true
  | _ => false

/-- A fault in the storage of an allocation that is given up stays at its physical place (R377, R380). -/
def freedMark (isGone : Nat → Nat → Bool) (m : Mark) : Mark :=
  match m.1 with
  | .reg c f t v =>
    if isGone c f then
      (.freeReg c (pgOf t) (laneOf t) ((Config.freeWord (f + 16 * (t + 2048 * v))).toNat % 2048), m.2)
    else m
  | .acc c f i => if isGone c f then (.freeAcc c ((Config.freeWord (f + 16 * i)).toNat % 786432), m.2) else m
  | .spad c f off => if isGone c f then (.borrowed c off, m.2) else m
  | _ => m

/-- Discards flocks that satisfy `p` with everything the device holds for them: requests, engine operations,
collectives, watches, metadata-queue entries, waves, local stores (R55, R387). Writes already sent stay. -/
def discard (p : Flock → Bool) : Eff := look fun s =>
  let gone := s.dev.flocks.filter p
  let isGone (c f : Nat) : Bool := gone.any (fun x => x.core = c ∧ x.slot = f)
  let keepRef (r : TRef) : Bool := !isGone r.core r.slot
  (upd (fun d =>
    { d with
      flocks := d.flocks.filter (fun f => !p f),
      reqs := d.reqs.filter (fun r => keepRef r.ref || r.writes),
      marks := d.marks.map (freedMark isGone),
      issuing := d.issuing.bind (fun g => if g.members.all keepRef then some g else none),
      cores := d.cores.map (fun c =>
        { c with mat := c.mat.filter (fun o => keepRef o.ref), cpy := c.cpy.filter (fun o => keepRef o.ref),
                 metaq := c.metaq.map (fun q =>
                   match q.bound with
                   | some b => if isGone b.1 b.2 then ⟨none, []⟩ else q
                   | none => q) }),
      clusters := d.clusters.map (fun c =>
        { c with waves := (c.waves.map (fun w => w.filter (fun t => !isGone t.core t.slot))).filter (· ≠ []) }),
      vaults := d.vaults.map (fun v =>
        { v with watch := v.watch.filter (fun e =>
            match e.ref with
            | some r => keepRef r
            | none => true) }),
      fab := { d.fab with colls := d.fab.colls.filter (fun c => keepRef c.ref) } })).andThen
    (wr (gone.flatMap (fun f => [Write.drop (.spad f.core f.slot), Write.drop (.acc f.core f.slot)])))

/-- CSTATE as R330 numbers it. -/
def CState.num : CState → Nat
  | .running => 0
  | .draining => 1
  | .saving => 2
  | .stopped => 3
  | .restoring => 4
  | .errstop => 5

/-- Sets a context's state, in its page and in its save area if it has one (R330). -/
def setCState (k : Nat) (c : CState) : Eff := look fun s =>
  let x := s.dev.ctx k
  (upd (fun d => d.modCtx k (fun x => { x with cstate := c }))).andThen
    (whenE (decide (x.eff.csave ≠ 0 ∧ x.eff.csavesz ≠ 0)) (physWrite (x.eff.csave.toNat + 12) (leBytes 4 c.num)))

/-- Removes a context's translations (R184, R387). -/
def tlbDrop (k : Nat) : Dev → Dev := fun d => { d with tlbs := d.tlbs.filter (fun t => t.ctx ≠ k) }

/-- The allocations of a context's saved flocks go (R389). -/
def keptDrops (c : Ctx) : List Write :=
  c.saved.flatMap (fun x => [Write.drop (.kept x.key false), .drop (.kept x.key true)])

/-- A request to a peer device. -/
def Req.toPeer (q : Req) : Bool :=
  match q.kind with
  | .pld _ => true
  | .pst => true
  | .patom _ => true
  | _ => false

/-- A history whose values are undefined. -/
def blurHist (seed : Nat) (h : List Hist) : List Hist :=
  h.zipIdx.map (fun (x, i) =>
    { stepid := (Config.freeWord (seed + 64 * i)).setWidth 32,
      recs := x.recs.zipIdx.map (fun (y, j) =>
        let w (n : Nat) : Nat := (Config.freeWord (seed + 64 * i + 3 * j + n)).toNat
        (y.1, (w 1, w 2, w 3))) })

/-- A save or restore is abandoned: the save area beyond its first 64 bytes is undefined, the history of R343 included
(R389). -/
def blurSave (k : Nat) : Eff := look fun s =>
  let c := s.dev.ctx k
  let base := c.eff.csave.toNat
  let n := c.eff.csavesz.toNat
  if (c.cstate ≠ .draining ∧ c.cstate ≠ .saving ∧ c.cstate ≠ .restoring) ∨ base = 0 ∨ n ≤ 64 then skip
  else
    seqE [
      forE (List.range (ceilDiv n 128)) (fun i => flushLine (base / 128 + i)),
      wr ((List.range (n - 64)).map (fun i => Write.mem (base + 64 + i) (Config.undefByte s.dev.free i))),
      upd (fun d => { d.modCtx k (fun c => { c with hist := blurHist (d.free + 1) c.hist }) with free := d.free + 1024 }) ]

/-- Stops context `k` as contained (R387): discards its flocks and engine work, its step and runs, its watches and
translations, what it still has to send to peers (whose acknowledgements are dropped), writes ERRSTOP, and keeps the event until no write of `k` is in flight. A second fault before the event
is recorded only (R389). -/
def stopContext (k bank code : Nat) (addr : W64) : Eff := look fun s =>
  if (s.dev.ctx k).cstate = .errstop then skip
  else
    seqE [
      blurSave k,
      discard (fun f => f.ctx = k),
      wr (keptDrops (s.dev.ctx k)),
      upd (fun d => (tlbDrop k d).modCtx k (fun c =>
        { c with step := none, runs := [], saved := [], nsaved := 0, urgent := false,
                 stopEvt := some (mcEvent bank 2 code addr k c.stepNow s.dev.ctime) })),
      upd (fun d => { d with
        vaults := d.vaults.map (fun v => { v with watch := v.watch.filter (fun e => e.ctx ≠ k) }),
        reqs := d.reqs.filter (fun q => !(q.ctx = k && q.toPeer)),
        fab := { d.fab with colls := d.fab.colls.filter (fun c => c.ctx ≠ k), outs := d.fab.outs.filter (fun o => o.msg.sctx ≠ k),
                            queue := d.fab.queue.filter (fun x => x.1 ≠ k || x.2.kind == 8) } }),
      setCState k .errstop ]

/-- A contained fault of context `k`: the record, then the stop. -/
def contained (k bank code inst : Nat) (addr synd : W64) : Eff :=
  (bankRecord bank 2 (some k) code inst addr synd).andThen (stopContext k bank code addr)

/-- A slice move is abandoned (R416): S stays with its owner, S′ is free, and the pages of S already moved hold undefined
contents. -/
def abandonMove : Eff := look fun s =>
  let m := s.dev.move
  if m.stat = 0 then skip
  else
    let base := m.src * 2 ^ 30
    (wr ((List.range (m.moved * 2 ^ 16)).map (fun i => Write.mem (base + i) (Config.undefByte s.dev.free i)))).andThen
      (upd (fun d =>
        { d with
          free := d.free + 1, slown := aset d.slown m.dst 0xFF, move := ⟨0, false, 0, 0, 0, 0, some m.src⟩ }))

/-- A fatal fault (R390): issue, walkers and engines stop, every CSTATE reads 5, every TGT becomes FBK (R420). -/
def fatal (bank code inst : Nat) (addr synd : W64) : Eff := look fun s =>
  seqE [
    bankRecord bank 3 none code inst addr synd,
    upd (fun d => { d with stopped := true, issuing := none, dies := d.dies.map (fun x => { x with tgt := 6 }) }),
    forE (List.range 64) (fun k => setCState k .errstop),
    abandonMove,
    postEvent 0 (mcEvent bank 3 code addr 0xFF 0 s.dev.ctime) ]

/-! ## Checks of stored granules (R377, R378) -/

/-- A fault of stored bits beyond correction: the context that made the request stops, or the request is lost (R378,
R379). -/
def eccStop (k : Option Nat) (bank code inst : Nat) (addr : W64) : Eff := look fun s =>
  (match k with
    | some k => contained k bank code inst addr s.dev.syndrome
    | none => containedNone bank code inst addr s.dev.syndrome).andThen (upd Dev.fresh)

/-- A read for context `k` (none: a requester without a context) meets the marks on a place: corrected ones are
recorded as class 1 and written back; a mark beyond correction stops the context and stays. -/
def eccRead (k : Option Nat) (loc : Loc) (n : Nat) : Eff := look fun s =>
  forE (s.dev.marksOn loc n) (fun m =>
    let (bank, code, inst, addr) := markBank m.1
    if m.2 then eccStop k bank code inst addr
    else (eccRecord bank 1 k code inst addr).andThen (upd (unmark [m])))

/-- A victim entry is read: a fault in the scratchpad words that hold the core's entries is corrected; one beyond correction
discards them (R377). -/
def eccVictim (core : Nat) : Eff := look fun s =>
  forE (s.dev.marks.filter (fun m => match m.1 with
      | .borrowed c _ => c = core
      | _ => false)) (fun m =>
    let (bank, code, inst, addr) := markBank m.1
    seqE [
      eccRecord bank 1 none code inst addr,
      upd (unmark [m]),
      whenE m.2 (upd (fun d => { d with tlbs := d.tlbs.filter (fun t => t.place ≠ .victim core false) })) ])

/-- A write that covers whole granules removes their marks unread (R377, R378). -/
def eccWrite (loc : Loc) (n : Nat) : Eff := look fun s =>
  upd (unmark ((s.dev.marksOn loc n).filter (s.dev.covers loc n)))

end Sys2Proof.Machine
end

