-- ==== Sys2Proof/Machine/Trans.lean ====
section
/-! DEFINITION. Translation: the five-level walk, leaf rules, TLBs (R91-R95, R331), and the apertures (R84-R88). -/

namespace Sys2Proof.Machine

/-! ## Page-table entries (R92) -/

abbrev pteV (e : Nat) : Bool := bit e 0
abbrev pteLeaf (e : Nat) : Bool := bit e 1
abbrev pteW (e : Nat) : Bool := bit e 2
abbrev pteX (e : Nat) : Bool := bit e 3
abbrev pteD (e : Nat) : Bool := bit e 5
abbrev pteMx (e : Nat) : Bool := bit e 6
abbrev pteNc (e : Nat) : Bool := bit e 7
abbrev pteFmt (e : Nat) : Nat := bits e 60 3
/-- ADDR as a physical address. -/
abbrev pteAddr (e : Nat) : Nat := bits e 8 44 * 256

/-- Index bits and page size of each level (R91). -/
def lvlIndex (lvl va : Nat) : Nat :=
  match lvl with
  | 0 => bits va 16 5
  | 1 => bits va 21 9
  | 2 => bits va 30 9
  | 3 => bits va 39 9
  | _ => bits va 48 9
def lvlSize (lvl : Nat) : Nat :=
  match lvl with
  | 0 => 16
  | 1 => 21
  | _ => 30

/-- How a translation ends: a leaf and its entry's address; V = 0 at a level; an illegal entry or use; an entry whose
stored bits are beyond correction (R378); an entry's address in no region. -/
inductive Walk
  | leaf (e at_ size : Nat)
  | fault (lvl : Nat)
  | perm
  | bad
  | stuck (pa : Nat)
  deriving DecidableEq, Repr

/-- Bytes of the storage of an MX reduced-format page (R103). -/
def mxSize (fmt : Nat) : Nat := if fmt = 2 ∨ fmt = 3 then 25 * 1024 else if fmt = 4 then 17 * 1024 else 33 * 1024

/-- The owner of a memory slice (R331, R360). -/
def Dev.owner (d : Dev) (slice : Nat) : Nat := (aget d.slown slice).getD 0

/-- Whether a leaf is legal: alignment, MX rules, region, ownership (R92, R93, R103, R331). -/
def leafOk (d : Dev) (vdev lvl e : Nat) : Bool :=
  let a := pteAddr e
  let mx := pteMx e
  (!mx || (lvl == 0 && decide (pteFmt e < 6))) &&
  decide (a % 2 ^ (if mx then 8 else lvlSize lvl) = 0) &&
  (if inHost a then !mx else inDram a && inDram (a + (if mx then mxSize (pteFmt e) - 1 else 0)) &&
    decide (d.owner (a / 2 ^ 30) = vdev) && (!mx || decide (d.owner ((a + mxSize (pteFmt e) - 1) / 2 ^ 30) = vdev)))

/-- A physical address as a place. -/
def physLoc (pa : Nat) : Loc := if inHost pa then .host pa else .dram pa

/-- The node that an entry of a level above 0 names (R92). -/
def nextNode (n e : Nat) : Option Nat :=
  if pteV e && !pteLeaf e && !pteMx e && decide (pteAddr e % (if n = 0 then 256 else 4096) = 0) then some (pteAddr e) else none

/-- The entries that a walk reads, by address. -/
def walkPath (s : State) (va : Nat) : Nat → Nat → List Nat
  | lvl, base =>
    let at_ := base + 8 * lvlIndex lvl va
    if !(inDram at_ || inHost at_) then []
    else if s.dev.eccBad (physLoc at_) 8 then [at_]
    else
      at_ :: (match lvl with
        | 0 => []
        | n + 1 =>
          match nextNode n (leNat (s.phys at_ 8)) with
          | some b => walkPath s va n b
          | none => [])

/-- The walk from a node at a level (R91, R92). -/
def walk (s : State) (vdev va : Nat) : Nat → Nat → Walk
  | lvl, base =>
    let at_ := base + 8 * lvlIndex lvl va
    if !(inDram at_ || inHost at_) then .stuck at_
    else if s.dev.eccBad (physLoc at_) 8 then .bad
    else
      let e := leNat (s.phys at_ 8)
      if !pteV e then .fault lvl
      else
        match lvl with
        | 0 => if pteLeaf e && leafOk s.dev vdev 0 e then .leaf e at_ 16 else .perm
        | n + 1 =>
          if pteLeaf e then if n < 2 && leafOk s.dev vdev lvl e then .leaf e at_ (lvlSize lvl) else .perm
          else
            match nextNode n e with
            | some b => walk s vdev va n b
            | none => .perm

/-- The permission a leaf must give (R92). -/
def permits (kind : AccKind) (e : Nat) : Bool :=
  match kind with
  | .read => true
  | .write => pteW e
  | .atomic => pteW e
  | .fetch => pteX e

/-! ## TLBs (R94, R95) -/

/-- Whether a core can use what a place holds: its own L1 TLB, its section's L2 and victim TLBs. -/
def TlbPlace.serves (p : TlbPlace) (core : Nat) : Bool :=
  match p with
  | .l1 c => c = core
  | .l2 sec => sec = sectionOf core
  | .victim c _ => sectionOf c = sectionOf core

/-- The translation that a core's TLBs hold for an address (R94). -/
def Dev.tlb? (d : Dev) (core ctx va : Nat) : Option Tlb :=
  d.tlbs.find? (fun t => t.ctx = ctx ∧ va / 2 ^ t.size = t.page ∧ t.place.serves core)

/-- Bytes of scratchpad and slots of accumulators of a core. -/
def spadMax : Nat := 1536 * 1024
def accMax : Nat := 786432
/-- Words of a core's instruction cache: 128 KiB (R17, R18). -/
def icacheWords : Nat := 16384

/-- Bytes of a scratchpad allocation: the declared size rounded up to 4 KiB (R86). -/
def Kern.spadBytes (k : Kern) : Nat := ceilDiv k.scratch 4096 * 4096
/-- Slots of an accumulator allocation: rounded up to 1,024 (R90). -/
def Kern.accSlots (k : Kern) : Nat := ceilDiv k.acc 1024 * 1024

/-- Bytes of scratchpad allocated on a core. -/
def Dev.spadUsed (d : Dev) (core : Nat) : Nat :=
  ((d.flocks.filter (fun f => f.core = core)).map (fun f => f.kern.spadBytes)).foldl (· + ·) 0

/-- The 16-byte slots of a core that the victim TLB may borrow (R95): unallocated scratchpad, or instruction-cache lines
that hold no word. -/
def Dev.victimSlots (d : Dev) (core : Nat) (icache : Bool) : Nat :=
  if icache then (1024 - ((d.core core).icache.map (fun x => x.1 / 128)).dedup.length) * 8
  else (spadMax - d.spadUsed core) / 16

/-- Entries that a section's victim TLB holds at most (R94). -/
def victimMax : Nat := 65536

/-- The victim entries held in one part of a core. -/
def Dev.victimsAt (d : Dev) (core : Nat) (icache : Bool) : List Tlb := d.tlbs.filter (fun t => t.place = .victim core icache)

/-- A claim of scratchpad or of an instruction-cache line discards the entries held there (R95): as many, the oldest first,
as the core has slots too few (log 51). -/
def Dev.claim (d : Dev) (core : Nat) (icache : Bool) : Dev :=
  if d.victimsAt core icache = [] then d
  else
    let gone := (d.victimsAt core icache).drop (d.victimSlots core icache)
    { d with tlbs := d.tlbs.filter (fun t => t ∉ gone) }

/-- A place of a section with a slot to borrow. -/
def Dev.victimPlace (d : Dev) (sec : Nat) : Option TlbPlace :=
  ((List.range 32).flatMap (fun i => [(32 * sec + i, false), (32 * sec + i, true)])).findSome? (fun (c, i) =>
    if (d.victimsAt c i).length < d.victimSlots c i then some (.victim c i) else none)

/-- A translation falls out of a section's L2 TLB: it moves to a borrowed slot, in place of the oldest where the victim TLB
is full, or is gone. -/
def Dev.toVictim (d : Dev) (sec : Nat) (t : Tlb) : Dev :=
  let rest := d.tlbs.filter (· ≠ t)
  let all := rest.filter (fun x => match x.place with
    | .victim c _ => sectionOf c = sec
    | _ => false)
  let rest := if all.length < victimMax then rest else rest.filter (fun x => some x ≠ all.getLast?)
  match { d with tlbs := rest }.victimPlace sec with
  | some p => { d with tlbs := { t with place := p } :: rest }
  | none => { d with tlbs := rest }

/-- Adds a translation to the core's L1 and the section's L2; what falls out of L2 goes to the victim TLB (R94). -/
def tlbAdd (core ctx va size : Nat) (leaf : W64) : Dev → Dev := fun d =>
  let sec := sectionOf core
  let mk (p : TlbPlace) : Tlb := ⟨p, ctx, va / 2 ^ size, size, leaf⟩
  let put (l : List Tlb) (p : TlbPlace) : List Tlb := mk p :: l.filter (fun t => t ≠ mk p)
  let l := put (put d.tlbs (.l1 core)) (.l2 sec)
  let l1s := l.filter (fun t => t.place = .l1 core)
  let l2s := l.filter (fun t => t.place = .l2 sec)
  let l := if l1s.length ≤ 128 then l else l.filter (fun t => t ∉ l1s.drop 128)
  (l2s.drop 4096).foldl (fun d t => d.toVictim sec t) { d with tlbs := l }

/-- The result of a translation; `denied` where a legal leaf does not permit the access. -/
inductive Xlat
  | ok (pa leaf : Nat)
  | denied
  | fault (lvl : Nat)
  | perm
  | bad
  | stuck (pa : Nat)
  deriving DecidableEq, Repr

/-- The physical address under a leaf; in a reduced-format page the offset within the page. -/
def leafPa (e size va : Nat) : Nat := pteAddr e + va % 2 ^ size

/-- Translation of a 57-bit virtual address for a core and context (R91-R94): a held translation may be used, by the
device's free choice, unless D has yet to be set; else the walk. -/
def xlatWalk (s : State) (core : Option Nat) (ctx : Nat) (ptroot : W64) (va : Nat) (kind : AccKind) : Walk × Bool :=
  let vdev := (s.dev.ctx ctx).eff.vdev.toNat
  let held := core.bind (fun c => s.dev.tlb? c ctx va)
  match held with
  | some t =>
    if s.dev.choose && (pteD t.leaf.toNat || kind == .read || kind == .fetch) then
      (.leaf t.leaf.toNat 0 t.size, true)
    else (walk s vdev va 4 ptroot.toNat, false)
  | none => (walk s vdev va 4 ptroot.toNat, false)

def xlat (s : State) (core : Option Nat) (ctx : Nat) (ptroot : W64) (va : Nat) (kind : AccKind) : Xlat :=
  match (xlatWalk s core ctx ptroot va kind).1 with
  | .leaf e _ size => if permits kind e then .ok (leafPa e size va) e else .denied
  | .fault l => .fault l
  | .perm => .perm
  | .bad => .bad
  | .stuck pa => .stuck pa

/-- What the reads of a translation meet in stored bits (R377, R378): marks on the entries that a walk reads, for its
context; marks on scratchpad words that hold victim entries. -/
def xlatEcc (core : Option Nat) (ctx : Nat) (ptroot : W64) (va : Nat) (kind : AccKind) : Eff := look fun s =>
  match (xlatWalk s core ctx ptroot va kind).2, core.bind (fun c => s.dev.tlb? c ctx va) with
  | true, some t =>
    match t.place with
    | .victim c false => eccVictim c
    | _ => skip
  | true, none => skip
  | false, _ => forE (walkPath s va 4 ptroot.toNat) (fun a => eccRead (some ctx) (physLoc a) 8)

/-- The reads of a walk at the slices of its entries (R91, R101), by a unit without a server (R326). -/
def walkReads (ctx : Nat) (ptroot : W64) (va : Nat) : Eff := look fun s =>
  forE (walkPath s va 4 ptroot.toNat) (fun a =>
    look fun s => if s.dev.eccBad (physLoc a) 8 then skip else pointRead (.forCtx ctx) (physLoc a) 8)

/-- What a translation changes: the reads of its walk, A and D in the leaf entry by an atomic OR (R92), the TLBs, the free
choice used. -/
def xlatE (core : Option Nat) (ctx : Nat) (ptroot : W64) (va : Nat) (kind : AccKind) : Eff := look fun s =>
  (whenE (!s.dev.marks.isEmpty) (xlatEcc core ctx ptroot va kind)).andThen <|
  (whenE (!(xlatWalk s core ctx ptroot va kind).2) (walkReads ctx ptroot va)).andThen <|
  match xlatWalk s core ctx ptroot va kind with
  | (.leaf e at_ size, false) =>
    if permits kind e then
      let wrt : Bool := kind == .write || kind == .atomic
      let e' := e ||| 0x10 ||| (if wrt then 0x20 else 0)
      let setAD : Eff := if e' = e then skip else physPut (.forCtx ctx) .atomic at_ (leBytes 1 (e' % 256))
      setAD.andThen ((upd Dev.fresh).andThen
        (match core with
          | some c => upd (tlbAdd c ctx va size (BitVec.ofNat 64 e'))
          | none => skip))
    else upd Dev.fresh
  | (.stuck pa, _) => halt (.noSuchLocation pa)
  | _ => upd Dev.fresh

/-! ## Generic addresses (R84-R88) -/

/-- Where a generic address leads before translation: a 57-bit virtual address (global, or stack relocated), a place,
or an illegal use with its trap code. -/
inductive Gen
  | virt (va : Nat)
  | place (l : Loc)
  | bad (code : Nat)
  deriving DecidableEq, Repr

/-- The apertures that an instruction may reach. -/
structure Reach where
  stack : Bool
  spad : Bool
  vault : Bool
  deriving DecidableEq, Repr

/-- Trap codes of R399. -/
abbrev cILLEGAL : Nat := 1
abbrev cPRIV : Nat := 2
abbrev cSOFTWARE : Nat := 3
abbrev cREGBOUND : Nat := 4
abbrev cTARGET : Nat := 5
abbrev cAPERTURE : Nat := 6
abbrev cALIGN : Nat := 7
abbrev cPERM : Nat := 8
abbrev cRENDEZVOUS : Nat := 9
abbrev cFORMAT : Nat := 10
abbrev cOPERAND : Nat := 11
abbrev cRIGHTS : Nat := 12

/-- The flocks of a flock's herd. -/
def Dev.herdOf (d : Dev) (f : Flock) : List Flock :=
  d.flocks.filter (fun x => x.ctx = f.ctx ∧ x.run = f.run ∧ x.herd = f.herd ∧ x.tile = f.tile ∧ !x.dead)

/-- The flock that PEER and HFI name (R86). -/
def Dev.peerFlock (d : Dev) (f : Flock) (peer hfi : Nat) : Option Flock :=
  if peer = 0 then if hfi = 0 then some f else none else (d.herdOf f).find? (fun x => x.hidx = hfi)

/-- Steers a generic address (R84): aperture, zero fields, VSEL, HFI, and the limits on the offset (R86-R88). `t` is the
thread id for the stack; a relocated address is taken modulo 2^57 (log 52). Every offending use is the APERTURE trap
(R403). -/
def steer (d : Dev) (f : Flock) (t : Nat) (r : Reach) (a : Nat) : Gen :=
  match bits a 56 8 with
  | 0x00 => .virt (bits a 0 57)
  | 0x01 => .virt (bits a 0 57)
  | 0xFD =>
    let vs := bits a 23 7
    let off := bits a 0 23
    let v := if vs = 64 then clusterOf f.core else vs
    if r.vault = false ∨ bits a 30 26 ≠ 0 ∨ 64 < vs ∨ f.regs.vwsize.toNat ≤ off ∨
        directSize (d.vault v).split ≤ f.regs.vwbase.toNat + off then .bad cAPERTURE
    else .place (.vault v (f.regs.vwbase.toNat + off))
  | 0xFE =>
    let off := bits a 0 14
    if r.stack = false ∨ bits a 14 42 ≠ 0 ∨ f.kern.stk ≤ off then .bad cAPERTURE
    else .virt ((f.regs.stkbase.toNat + (f.sigma.getD 0 * 1024 + t) * f.kern.stk + off) % 2 ^ 57)
  | 0xFF =>
    let off := bits a 0 21
    if r.spad = false ∨ bits a 27 29 ≠ 0 ∨ bits a 21 3 ≠ 0 ∨ f.kern.spadBytes ≤ off then .bad cAPERTURE
    else
      match d.peerFlock f (bits a 26 1) (bits a 24 2) with
      | some x => .place (.spad x.core x.slot off)
      | none => .bad cAPERTURE
  | _ => .bad cAPERTURE

/-- A translated address as a place: a reduced-format page gives the element (R103), DRAM its slice, host memory itself. -/
def placeOf (pa leaf va : Nat) : Loc :=
  if pteMx leaf then .mxel (pteAddr leaf) (pteFmt leaf) (va % 2 ^ 16)
  else if inHost pa then .host pa else .dram pa

end Sys2Proof.Machine
end

