-- ==== Sys2Proof/Machine/Ops.lean ====
section
/-! DEFINITION. Shared operations: moving past a word, ending a thread, barriers, taking a trap and returning from it,
page faults and aborts, requests (R43, R47, R54-R56, R122, R127, R215, R216, R271, R398-R401, R407-R409). -/

namespace Sys2Proof.Machine

/-! ## Program counter (R122, R162) -/

/-- Past a word and its literal; the word after a block's last is entered by fall-through. -/
def Thread.goNext (th : Thread) (words : Nat) : Thread :=
  let pc := th.pc + BitVec.ofNat 64 (8 * words)
  { th with pc := pc, enter := if pc = th.blkEnd then some 0 else none }

/-- To a branch target: its header is entered next, from the word at `src`. -/
def Thread.goTo (th : Thread) (target src : W64) : Thread := { th with pc := target, enter := some src }

/-- Loads whose value is fixed but not yet returned no longer fill the L1 of their core: an acquire of a thread of the
core must not be followed by a read of what they found (R216, R276). -/
def staleLoads (cores : List Nat) : Dev → Dev := fun d =>
  { d with reqs := d.reqs.map (fun q =>
      match q.kind with
      | .ld _ => if q.ref.core ∈ cores ∧ q.performed then { q with nc := true } else q
      | .pref => if q.ref.core ∈ cores ∧ q.performed then { q with nc := true } else q
      | _ => q) }

/-- From now on no load of the thread is served by an L1 line filled before (R216); threads of its core that acquire
from it follow (R276). -/
def acquireL1 (r : TRef) : Dev → Dev := fun d =>
  ((staleLoads [r.core] d).modCore r.core (fun c => { c with floor := d.nextId })).modThread r
    (fun th => { th with l1floor := d.nextId })

/-- A write that a thread of the same core can have observed before it is performed beyond the core: a store that L1
shows and that has not reached its slice, or a peer write without its acknowledgement (R258, R271). -/
def Req.early (q : Req) : Bool :=
  !q.performed && (match q.kind with
    | .st => q.l1
    | .stf _ => q.l1
    | .zfill => q.l1
    | .pst => true
    | .patom _ => true
    | _ => false)

/-- Such writes of a core. -/
def Dev.early (d : Dev) (core : Nat) : List Nat :=
  (d.reqs.filter (fun q => q.ref.core = core && q.early)).map (·.id)

/-- What a thread takes over with an acquire within its core: the stores that only L1 shows, and the wide acquires of
the core's threads (R270, R276, log 45). -/
def Thread.takeOver (th : Thread) (ids : List Nat) (floor : Nat) : Thread :=
  { th with seen := ids ++ th.seen.filter (· ∉ ids), l1floor := max th.l1floor floor }

/-- What an access that waits for an acquire must follow in addition: the stores taken over, to its place, or all of them
where it is itself a wide release (R276, R435). -/
def Req.inherit (q : Req) (stores : List Req) : Req :=
  let rel : Bool := (q.ord == 2 || q.ord == 3) && decide (2 ≤ q.scope)
  { q with after := q.after ++
      ((stores.filter (fun p => decide (p.id ≠ q.id) && (rel || p.loc.overlaps p.n q.loc q.n))).map (fun p => (p.id, false))) }

/-- The value of an acquire of thread `r` is fixed: its requests and engine operations that wait for request `id`
follow the writes of its core that are not yet performed beyond it (R276, R282, R435). -/
def acquireWaiting (r : TRef) (id : Nat) : Dev → Dev := fun d =>
  let stores := d.reqs.filter (fun q => q.ref.core = r.core && q.early && decide (q.ref ≠ r))
  if stores = [] then d
  else
    let ids := stores.map (fun p => (p.id, false))
    let waits (l : List (Nat × Bool)) : Bool := l.any (fun x => x.1 = id)
    { d with
      reqs := d.reqs.map (fun q => if q.ref = r ∧ waits q.after then q.inherit stores else q),
      cores := d.cores.set r.core
        { d.core r.core with
          mat := (d.core r.core).mat.map (fun o => if o.ref = r ∧ waits o.after then { o with after := o.after ++ ids } else o),
          cpy := (d.core r.core).cpy.map (fun o => if o.ref = r ∧ waits o.after then { o with after := o.after ++ ids } else o) },
      fab := { d.fab with colls := d.fab.colls.map (fun c => if c.ref = r ∧ waits c.after then { c with after := c.after ++ ids } else c) } }

/-- The threads of a flock whose pending fence waits for request `id` carry those writes to later stores too. -/
def acquireFences (r : TRef) (id : Nat) : Dev → Dev := fun d =>
  d.modThread r (fun th =>
    if th.afterW.any (fun x => x.1 = id) then { th with afterW := (d.early r.core).map (fun i => (i, false)) ++ th.afterW } else th)

/-- A request's value is fixed: if it is an acquire, what waits for it follows what it acquires. -/
def acquireFixed (q : Req) : Dev → Dev := fun d =>
  if (q.ord == 1 || q.ord == 3) && decide (1 ≤ q.scope) then acquireFences q.ref q.id (acquireWaiting q.ref q.id d) else d

/-- An acquire of a thread within its core. -/
def acquireCore (r : TRef) : Dev → Dev := fun d =>
  d.modThread r (fun th => th.takeOver (d.early r.core) (d.core r.core).floor)

/-- The acquire of flocks that come to a core, at placement or restore (R275, R285): no older L1 line serves their
loads. -/
def acquirePlace (core : Nat) : Dev → Dev := fun d =>
  (staleLoads [core] d).modCore core (fun c => { c with floor := d.nextId })

/-! ## Barriers (R43, R168-R170, R352) -/

/-- A thread's accesses that a barrier must wait for: unperformed at the barrier's scope (R170, R216, R271). At flock
scope a peer write has no such point; the barrier carries it (`Req.early`). -/
def Req.pendingAt (r : Req) (fl : Bool) : Bool :=
  (match r.kind with
    | .pref => false
    | .pst => !fl
    | .patom _ => !fl
    | _ => true) && !r.performed && !(fl && r.l1)

/-- A store that a thread has read from L1 or acquired has reached its slice (R278). -/
def Dev.reached (d : Dev) (id : Nat) : Bool :=
  match d.req? id with
  | none => true
  | some q => q.performed

/-- No access of the flock's remaining threads is outstanding at the scope; beyond the core, no write that they have read
early or acquired (R43, R170, R216, R278). -/
def Dev.drained (d : Dev) (f : Flock) (fl : Bool) : Bool :=
  d.reqs.all (fun r => !(decide (r.ref.core = f.core ∧ r.ref.slot = f.slot) && f.live.any (fun t => t.t = r.ref.t) &&
      r.pendingAt fl)) &&
    (fl || f.live.all (fun t => t.seen.all d.reached))

/-- Every remaining thread waits at the barrier, and one does. -/
def Flock.arrived (f : Flock) (w : Wait) : Bool := f.live.all (fun t => t.wait = w)
def Flock.waits (f : Flock) (w : Wait) : Bool := f.live.any (fun t => t.wait = w)

/-- The teams of a flock with threads waiting at a barrier, increasing. -/
def Flock.teamsAt (f : Flock) (w : Wait) : List TeamRef :=
  ((List.range 32).filter (fun g => f.live.any (fun t => teamOf t.t = g ∧ t.wait = w))).map (fun g => ⟨f.core, f.slot, g⟩)

/-- The threads that wait at a barrier now wait for their wave, and have acquired: at a BAR what the core's L1 shows,
at an HBAR no older L1 line serves their later loads (R170, R216, R275). The first BAR releases the access-slice instance
too (R234, R436). -/
def Flock.toWave (f : Flock) (w : Wait) (ids : List Nat) (floor : Nat) : Flock :=
  { f with
    barDone := f.barDone || (w == .bar),
    inst := if w = .bar ∧ f.barDone = false then f.inst.map (·.takeOver ids floor) else f.inst,
    threads := f.threads.map (fun t =>
      if t.wait = w ∧ t.ended = none then { t.takeOver ids floor with wait := .wave } else t) }

/-- The place of a wave's barrier in the order of R352: its first team's core and flock slot. -/
def waveKey (w : List TeamRef) : Nat :=
  match w with
  | [] => 0
  | x :: _ => 16 * x.core + x.slot

/-- Puts a wave among waves of its clock. -/
def insertWave (w : List TeamRef) : List (List TeamRef) → List (List TeamRef)
  | [] => [w]
  | x :: xs => if waveKey w < waveKey x then w :: x :: xs else x :: insertWave w xs

/-- A completed barrier's teams join the cluster's wave sequence; barriers of one clock stand in increasing core and
flock slot (R352). -/
def Cluster.queueWave (c : Cluster) (w : List TeamRef) : Cluster :=
  let new := if c.waveClock = c.cycle then min c.waveNew c.waves.length else 0
  let k := c.waves.length - new
  { c with waves := c.waves.take k ++ insertWave w (c.waves.drop k), waveClock := c.cycle, waveNew := new + 1 }

/-- BAR of a flock completes if it can (R43, R170). -/
def barCheck (core slot : Nat) : Eff := look fun s =>
  withE (s.dev.flock? core slot) fun f =>
    if f.waits .bar && f.arrived .bar && s.dev.drained f true then
      upd (fun d => (d.modFlock core slot (fun f => f.toWave .bar (d.early core) (d.core core).floor)).modCluster
        (clusterOf core) (fun c => c.queueWave (f.teamsAt .bar)))
    else skip

/-- HBAR of a flock's herd completes if it can (R43, R169, R170). -/
def hbarCheck (core slot : Nat) : Eff := look fun s =>
  withE (s.dev.flock? core slot) fun f =>
    let hs := s.dev.herdOf f
    let sorted := (List.range 4).flatMap (fun i => hs.filter (fun x => x.hidx = i))
    if hs.any (fun x => x.waits .hbar) && hs.all (fun x => x.arrived .hbar && s.dev.drained x false) then
      upd (fun d =>
        (staleLoads (hs.map (·.core))
          (hs.foldl (fun d x =>
            (d.modFlock x.core x.slot (fun y => y.toWave .hbar [] d.nextId)).modCore x.core
              (fun c => { c with floor := d.nextId })) d)).modCluster
          (clusterOf core) (fun c => c.queueWave (sorted.flatMap (fun x => x.teamsAt .hbar))))
    else skip

/-- Both barriers of a flock. -/
def barriers (core slot : Nat) : Eff := (barCheck core slot).andThen (hbarCheck core slot)

/-- The barriers that a write of a flock performed at its point may complete: the flock's own, and HBARs of its core's
flocks that have read the write early (R170, R278). -/
def barriersAt (core slot : Nat) : Eff := (barriers core slot).andThen (look fun s =>
  forE (s.dev.flocks.filter (fun f => f.core = core && f.slot ≠ slot && f.waits .hbar)) (fun f => hbarCheck core f.slot))

/-! ## Ending a thread (R47, R49, R160, R256, R295) -/

/-- Frees the queue entries that every remaining thread has read (R256). -/
def Flock.oqFree (f : Flock) : Flock :=
  { f with oq := f.oq.zipIdx.map (fun (q, i) =>
      let low := f.live.foldl (fun m t => min m (t.oqpos[i]?.getD 0)) (q.base + q.items.length)
      { q with base := max q.base low, items := q.items.drop (low - q.base) }) }

/-- A thread is no helper. -/
def Flock.isWorker (f : Flock) (t : Nat) : Bool := (f.thread? t).any (fun th => !th.helper)

/-- Retires a thread or ends an instance. When the last thread that is no helper has gone, the helpers are retired as
though they had issued EXIT (R49); the barriers may then complete. -/
def retire (r : TRef) (e : Ended) : Eff :=
  if r.t = instId then updT r (fun th => { th with ended := some e, wait := .none })
  else
    (upd (fun d => d.modFlock r.core r.slot (fun f =>
      let last := f.isWorker r.t
      let f := f.modThread r.t (fun th => { th with ended := some e, wait := .none })
      let f := if last && f.live.all (·.helper) then
          { f with threads := f.threads.map (fun th =>
              if th.ended = none then { th with ended := some .exited, wait := .none } else th) }
        else f
      f.oqFree))).andThen (barriers r.core r.slot)

/-! ## Taking a trap, and returning from one (R396-R401) -/

/-- TRAPCODE (R399). -/
def trapCode (code sub : Nat) : W32 := BitVec.ofNat 32 (sub * 2 ^ 16 + code)

/-- Delivery to a thread (R398): TRAPPC, TRAPCODE, TRAPADDR, the helper flag kept and cleared, INTRAP set, and the
handler's header entered next. -/
def Thread.deliver (th : Thread) (vec : W64) (code : W32) (addr pc : W64) : Thread :=
  { th with
    trap :=
      { intrap := true, kept := th.helper, pc := pc, code := code, addr := addr, at_ := pc,
        blk := if th.enter = none then th.blkEnd else 0 },
    helper := false, pc := vec, enter := some 0, wait := .none, waited := 0 }

/-- The handler of a thread, or of an access-slice instance (R397, R403). -/
def Dev.trapVec (d : Dev) (ctx t : Nat) : W64 :=
  if t = instId then (d.ctx ctx).eff.trapveca else (d.ctx ctx).eff.trapvec

/-- Takes a trap with CODE and SUB, TRAPADDR and TRAPPC: an interval thread ends UNKNOWN (R295); a trap under INTRAP or
without a handler stops the context (R401); otherwise it is delivered (R398). -/
def takeTrap (r : TRef) (code sub : Nat) (addr pc : W64) : Eff := look fun s =>
  withE (s.dev.flock? r.core r.slot) fun f =>
    withE (f.thread? r.t) fun th =>
      let vec := s.dev.trapVec f.ctx r.t
      if th.intv then retire r .unknown
      else if th.trap.intrap ∨ vec = 0 then
        contained f.ctx (clusterOf r.core) 0x70 (r.core % 4) pc ((trapCode code sub).setWidth 64)
      else updT r (fun th => th.deliver vec (trapCode code sub) addr pc)

/-- A trap at the instruction that the thread stands at. -/
def trapHere (r : TRef) (code sub : Nat) (addr : W64) : Eff := look fun s =>
  withE (s.dev.thread? r) fun th => takeTrap r code sub addr th.pc

/-- RTT in a handler (R166, R400): INTRAP clear, the kept helper flag back, and the thread resumes at TRAPPC. A thread
that resumes in its block, at the trapping word or after it, has that block's end; elsewhere a header at TRAPPC is
entered, and in the midst of a block the end is unknown (0) until the thread reaches a header (log 9). `hdr` says whether
the word at TRAPPC has the mark of a header. -/
def Thread.return (th : Thread) (hdr : Bool) : Thread :=
  let inBlk : Bool := th.trap.at_.toNat ≤ th.trap.pc.toNat ∧ th.trap.pc.toNat < th.trap.blk.toNat
  { th with
    trap := { th.trap with intrap := false }, helper := th.trap.kept, pc := th.trap.pc,
    blkEnd := if inBlk then th.trap.blk else 0,
    enter := if inBlk then none
      else if th.trap.pc = th.trap.blk then some 0
      else if hdr then some th.pc else none,
    wait := .none }

/-- Privileged mode (R180, R373). -/
def privileged (f : Flock) (th : Thread) : Bool := th.trap.intrap || (f.ctx == 0 && th.t != instId)

/-! ## Committing and aborting (R54-R56, R301) -/

/-- Commits a flock and its herd (R54). -/
def commitFlock (core slot : Nat) : Dev → Dev := fun d =>
  match d.flock? core slot with
  | none => d
  | some f =>
    (d.herdOf f).foldl (fun d x => d.modFlock x.core x.slot (fun y => { y with committed := true })) d

/-- A change of one run of a context. -/
def Dev.modRun (d : Dev) (ctx num : Nat) (g : Run → Run) : Dev :=
  d.modCtx ctx (fun c => { c with runs := c.runs.map (fun r => if r.num = num then g r else r) })
def Dev.run? (d : Dev) (ctx num : Nat) : Option Run := (d.ctx ctx).runs.find? (fun r => r.num = num)

/-- Aborts a flock with its herd (R55): threads and operations go, the allocations stay until the engines report, the
flocks return to the head of the placement queue, not placeable before a REPLAY of `fid` if one is given (R407). An
evaluation flock's tile returns to the head of the evaluation queue, uncharged (R301). A member of the herd that has already
completed goes back with it and runs again; its bit, already set, stays set (DESIGN CHOICE, log 61). -/
def abortFlock (f : Flock) (fid : Option Nat) : Eff := look fun s =>
  let hs := s.dev.herdOf f
  let mine (x : Flock) : Bool := hs.any (fun y => y.core = x.core ∧ y.slot = x.slot)
  let gs := (List.range 4).flatMap (fun i => (hs.filter (fun x => x.hidx = i)).map (·.g))
  let back (r : Run) : Run :=
    match f.tile with
    | some t =>
      { r with bounds := r.bounds.map (fun b =>
          { b with queue := t :: b.queue, running := b.running.filter (· ≠ t), budget := b.budget + f.threads.length }) }
    | none =>
      { r with queue := gs ++ r.queue,
               blocked := (match fid with
                 | some i => gs.map (fun g => (g, i)) ++ r.blocked
                 | none => r.blocked) }
  let dead : List Flock :=
    hs.map (fun x => { x with dead := true, threads := [], inst := none, sigma := none, oq := [] })
  (discard mine).andThen (upd (fun d =>
    ({ d with flocks := d.flocks ++ dead }.modRun f.ctx f.run back).modCtx f.ctx
      (fun c => { c with naborted := c.naborted + hs.length })))

/-! ## Page faults (R407-R409) -/

/-- KIND of DATA1 (R409). -/
def accNum : AccKind → Nat
  | .read => 0
  | .write => 1
  | .atomic => 2
  | .fetch => 3

/-- The record of a page fault: an outstanding one of the same page and kind, or a new one with its event. Answers with
the FID and the change. -/
def faultRecord (f : Flock) (req : Nat) (aborted : Bool) (va lvl : Nat) (kind : AccKind) (s : State) : Nat × Eff :=
  let c := s.dev.ctx f.ctx
  match c.faults.find? (fun r => r.page = va / 2 ^ 16 ∧ r.kind = kind) with
  | some r => (r.fid, skip)
  | none =>
    let fid := c.nextFid
    let nxt := if (fid + 1) % 2 ^ 24 = 0 then 1 else fid + 1
    let d1 := f.slot * 2 ^ 48 + f.core * 2 ^ 40 + req * 2 ^ 32 + aborted.toNat * 2 ^ 31 + lvl * 2 ^ 28 +
      accNum kind * 2 ^ 24 + fid
    (fid,
      (upd (fun d => d.modCtx f.ctx (fun c =>
        { c with nextFid := nxt, faults := c.faults ++ [⟨fid, va / 2 ^ 16, kind⟩] }))).andThen
      (ctxEvent f.ctx 9 ((c.step.map (·.entry.stepid)).getD 0) (BitVec.ofNat 64 va) (BitVec.ofNat 64 d1)))

/-- A page fault of a thread's access or fetch: an uncommitted flock is aborted, a committed flock's thread parks. -/
def pageFault (r : TRef) (va lvl : Nat) (kind : AccKind) : Eff := look fun s =>
  withE (s.dev.flock? r.core r.slot) fun f =>
    withE (f.thread? r.t) fun th =>
      if th.intv then retire r .unknown
      else
        let req := if kind = .fetch then 1 else 0
        let (fid, rec) := faultRecord f req (!f.committed) va lvl kind s
        if f.committed then rec.andThen (updT r (fun th => { th with wait := .fault fid, waited := 0 }))
        else rec.andThen (abortFlock f (some fid))

/-! ## Requests (R127, R215, R216, R271, R274, R278, R326) -/

/-- Whether an earlier access has been performed as far as a later one needs. -/
def Dev.isDone (d : Dev) (dep : Nat × Bool) : Bool :=
  match d.req? dep.1 with
  | none => true
  | some q => q.performed || (dep.2 && q.l1)

/-- Every access that a request must follow has been performed. -/
def Req.mayPerform (r : Req) (d : Dev) : Bool := r.after.all d.isDone

/-- The requests of a thread in flight. -/
def Dev.inFlight (d : Dev) (r : TRef) : List Req := d.reqs.filter (fun q => q.ref = r)

/-- The server of a context at an instance (R318). -/
def Dev.server? (d : Dev) (kind inst ctx : Nat) : Option Server :=
  d.servers.find? (fun v => v.kind = kind ∧ v.inst = inst ∧ v.ctx = ctx)

/-- Group, class and stamp of a thread's requests: those of its issue-port-group server (R326). -/
def Dev.tag (d : Dev) (ctx core t : Nat) : Nat × Nat × Nat :=
  let inst := 4 * core + (if t = instId then 0 else pgOf t)
  match d.server? 0 inst ctx with
  | some v => (v.group, v.cls, v.d)
  | none => (15, 3, 2 ^ 64 - 1)

/-- The requester of a request at its slice. -/
def Req.who (r : Req) (consume : Bool) : Who :=
  ⟨some r.ref.core, some r.ctx, some r.ctx, r.group, r.cls, r.stamp, r.nc, consume, some r.id⟩

/-- Whether the request raises the load counter, or the store counter (R127). -/
def ReqKind.isLoad : ReqKind → Bool
  | .ld _ => true
  | .ldmc _ => true
  | .ldacc => true
  | .atom _ => true
  | .cas => true
  | .pld _ => true
  | .patom _ => true
  | _ => false
def ReqKind.isStore : ReqKind → Bool
  | .st => true
  | .stf _ => true
  | .zfill => true
  | .stacc => true
  | .red _ => true
  | .pst => true
  | _ => false

/-- What a new access must follow (R215, R216, R229, R271, R274, R278, R280): earlier accesses of the thread to its
place, stores of its core to its place that only L1 shows, the thread's acquires and fences, and for a release every
earlier access and every write read early from L1. -/
def Dev.deps (d : Dev) (r : TRef) (th : Thread) (loc : Loc) (n : Nat) (isWrite release : Bool) (scope : Nat) :
    List (Nat × Bool) :=
  let fl := scope = 0 ∨ scope = 1
  let mine := d.inFlight r
  let early := d.reqs.filter (fun q => q.ref.core = r.core && q.l1 && q.kind.isStore && q.loc.overlaps q.n loc n)
  (((mine.filter (fun q => q.loc.overlaps q.n loc n)).map (fun q => (q.id, false))) ++
    early.map (fun q => (q.id, false)) ++ th.after ++ (if isWrite then th.afterW else []) ++
    (if release then mine.map (fun q => (q.id, decide fl)) ++ (if fl then [] else th.seen.map (fun i => (i, false)))
      else [])).filter (fun x => !d.isDone x)

/-- The requests that a FENCE's release half waits for: every earlier access but peer stores (R229). -/
def ReqKind.fenced : ReqKind → Bool
  | .pst => false
  | _ => true

/-- A write observed early that a FENCE waits for: no peer store (R229). -/
def Dev.fencedId (d : Dev) (id : Nat) : Bool := (d.req? id).all (·.kind.fenced)

/-- The counter changes of a request at its issue (R127), and its part in later ordering (R216). -/
def Thread.sends (th : Thread) (q : Req) : Thread :=
  let acq : Bool := (q.ord == 1 || q.ord == 3) && q.kind.isLoad
  { th with
    cnt := { th.cnt with ld := th.cnt.ld + q.kind.isLoad.toNat, st := th.cnt.st + q.kind.isStore.toNat },
    after := if acq then (q.id, false) :: th.after else th.after }

/-- Issues a request. -/
def sendReq (q : Req) : Eff := upd (fun d =>
  { (d.modThread q.ref (fun th => th.sends q)) with reqs := d.reqs ++ [q], nextId := d.nextId + 1 })

end Sys2Proof.Machine
end

