-- ==== Sys2Proof/Machine/Operands.lean ====
section
/-! DEFINITION. Operands of an instruction word and how a word issues for each member of its group
(R48, R105, R109, R112, R113, R115, R118-R120, R135, R136, R158, R396, R403, R432). -/

namespace Sys2Proof

/-- The register index of a field: direct, or X(i) + d exactly (R105); 2047 for vz and for a source that LIT
replaces. -/
def Fld.index (th : Machine.Thread) : Fld → Int
  | .direct n => n
  | .rel x d => (th.x x).toInt + d
  | .lit => 2047

def Fld.isVz : Fld → Bool
  | .direct n => n = 2047
  | .rel _ _ => false
  | .lit => true

/-- Fields by place; a format without the field has vz. -/
def Body.vd : Body → Fld
  | .t x => x.vd
  | .i x => x.vd
  | .m x => x.vd
  | .e x => x.vd
  | _ => .direct 2047
def Body.va : Body → Fld
  | .t x => x.va
  | .i x => x.va
  | .m x => x.va
  | .e x => x.va
  | .b x => x.va
  | .w _ => .direct 2047
def Body.vb : Body → Fld
  | .t x => x.vb
  | _ => .direct 2047
def Body.vc : Body → Fld
  | .t x => x.vc
  | _ => .direct 2047
def Body.imm : Body → Nat
  | .i x => x.imm
  | _ => 0
def Body.off : Body → Nat
  | .m x => x.off
  | _ => 0
def Body.scope : Body → Nat
  | .m x => x.scope
  | _ => 0
def Body.ord : Body → Nat
  | .m x => x.ord
  | _ => 0

end Sys2Proof

namespace Sys2Proof.Machine

/-- What a member's instruction sees: the state, the state and the member's flock at the group's issue, the member, its
word. -/
structure Env where
  s : State
  s0 : State
  f0 : Flock
  r : TRef
  f : Flock
  th : Thread
  major : Nat
  b : Body
  row : Row
  grp : Group

/-- What a member's instruction does: an effect, after which the thread goes to the next word; an effect that sets the
PC itself; nothing, because the thread is not ready (R38); a trap (R396): CODE, SUB, TRAPADDR. -/
inductive Res
  | done (e : Eff)
  | jump (e : Eff)
  | stay
  | trap (code sub : Nat) (addr : W64)

abbrev Meaning := Env → Res

def Env.h (v : Env) : Hd := v.b.h
/-- Words that the instruction takes. -/
def Env.words (v : Env) : Nat := if v.h.long then 2 else 1

/-! ## Register numbers -/

/-- Registers per thread: N, or the 64 s registers of an instance (R112, R113). -/
def Env.nregs (v : Env) : Nat := if v.r.t = instId then 64 else v.f.kern.n

/-- An operand's breach of R105, R112 and R113: `n` registers, aligned to `n`, all below N. Direct vz never breaks
them. Answers with the index. -/
def badReg (th : Thread) (N : Nat) (u : Use) (f : Fld) : Option Int :=
  match u with
  | .reg n _ _ =>
    if f.isVz then none
    else
      let e := f.index th
      if e < 0 ∨ N < e + n ∨ e % n ≠ 0 then some e else none
  | _ => none

/-- A direct field at or above N, the one operand check of a word whose guard is false (R109). -/
def badDirect (N : Nat) (u : Use) (f : Fld) : Option Int :=
  match u, f with
  | .reg _ _ _, .direct k => if k ≠ 2047 ∧ N ≤ k then some k else none
  | _, _ => none

/-- The register fields of a word with their uses, in the order of R432. -/
def operands (r : Row) : Body → List (Use × Fld)
  | .t x => [(r.vd, x.vd), (r.va, x.va), (r.vb, x.vb), (r.vc, x.vc)]
  | .i x => [(r.vd, x.vd), (r.va, x.va)]
  | .m x => [(r.vd, x.vd), (r.va, x.va)]
  | .b x => [(r.va, x.va)]
  | .w _ => []
  | .e x => [(r.vd, x.vd), (r.va, x.va)]

def Env.operands (v : Env) : List (Use × Fld) := Machine.operands v.row v.b

/-! ## Values -/

/-- How LIT reads as a 64-bit operand (R120). -/
inductive LitExt
  | sign | zero

/-- Register `i` of a thread; vz reads 0 (R112). -/
def Thread.rd (th : Thread) (i : Int) : W32 := if i = 2047 then 0 else th.reg i.toNat
def Thread.rdHi (th : Thread) (i : Int) : W32 := if i = 2047 then 0 else th.hiReg i.toNat

/-- V(f) as one register. -/
def Env.v32 (v : Env) (f : Fld) : W32 := if f.isLit then v.h.lit else v.th.rd (f.index v.th)
/-- V(f) as an even-odd pair; vz is a zero pair (R112). -/
def Env.v64 (v : Env) (f : Fld) (x : LitExt := .sign) : W64 :=
  if f.isLit then (match x with
    | .sign => v.h.lit.signExtend 64
    | .zero => v.h.lit.setWidth 64)
  else
    let i := f.index v.th
    if i = 2047 then 0 else pair (v.th.rd i) (v.th.rd (i + 1))

/-- Writes one register; vz discards (R112). -/
def Thread.wr32 (th : Thread) (f : Fld) (x : W32) : Thread :=
  if f.isVz then th else th.setReg (f.index th).toNat x
/-- Writes a pair. -/
def Thread.wr64 (th : Thread) (f : Fld) (x : W64) : Thread :=
  if f.isVz then th
  else
    let i := (f.index th).toNat
    (th.setReg i (lo32 x)).setReg (i + 1) (hi32 x)
/-- D of `n` registers, the low bits of a number (R10, R158). -/
def Thread.wrN (th : Thread) (n : Nat) (f : Fld) (x : Nat) : Thread :=
  if n = 2 then th.wr64 f (BitVec.ofNat 64 x) else th.wr32 f (BitVec.ofNat 32 x)

/-- A source of `n` registers as a number. -/
def Env.srcN (v : Env) (n : Nat) (f : Fld) (x : LitExt := .sign) : Nat :=
  if n = 2 then (v.v64 f x).toNat else (v.v32 f).toNat

/-- A change of the member's registers. -/
def Env.put (v : Env) (g : Thread → Thread) : Res := .done (updT v.r g)

/-- The address of an M-format word (R116): V(VA) plus OFF, or LIT in its place, sign-extended. -/
def Env.addr (v : Env) : W64 :=
  match v.b with
  | .m x => v.v64 x.va + (if x.offLit then x.h.lit.signExtend 64 else (BitVec.ofNat 16 x.off).signExtend 64)
  | _ => 0

/-! ## Readiness by registers (R38) -/

/-- Registers that the thread's requests in flight will write. -/
def Dev.awaited (d : Dev) (r : TRef) : List Nat :=
  (d.inFlight r).flatMap (fun q =>
    if q.dest = 2047 then []
    else
      match q.kind with
      | .ld v => (List.range (memRegs v)).map (q.dest + ·)
      | .pld v => (List.range (memRegs v)).map (q.dest + ·)
      | .ldmc _ => (List.range (if q.n = 8 then 2 else 1)).map (q.dest + ·)
      | .ldacc => (List.range (if q.n = 8 then 2 else 1)).map (q.dest + ·)
      | .atom _ => (List.range (if q.n = 8 then 2 else 1)).map (q.dest + ·)
      | .patom _ => (List.range (if q.n = 8 then 2 else 1)).map (q.dest + ·)
      | .cas => (List.range (if q.n = 8 then 2 else 1)).map (q.dest + ·)
      | _ => [])

/-- A register that the word reads or writes awaits an earlier result. -/
def Env.blocked (v : Env) : Bool :=
  let w := v.s.dev.awaited v.r
  w ≠ [] && v.operands.any (fun (u, f) =>
    match u with
    | .reg n _ _ => !f.isVz && (List.range n).any (fun i => ((f.index v.th) + i).toNat ∈ w)
    | _ => false)

/-! ## Helpers (R48) -/

/-- Majors suppressed for a helper: stores, atomics, copies, matrix operations, LAUNCH, COLL, COMMIT. -/
def suppressed (major : Nat) : Bool :=
  major = 0x09 ∨ major = 0x0D ∨ major = 0x91 ∨ major = 0x93 ∨ major = 0x95 ∨ major = 0x96 ∨ major = 0x99 ∨
  major = 0x9A ∨ major = 0x9B ∨ major = 0x9C ∨ (0xA0 ≤ major ∧ major ≤ 0xAE) ∨ (0xB0 ≤ major ∧ major ≤ 0xB2) ∨
  major = 0xB6 ∨ major = 0xB7 ∨ major = 0xB8

/-- Registers of the destination of a suppressed instruction, which receives zero: old value of ATOM, CAS and PATOM,
the promise of a copy, the run number of LAUNCH; MX scales are no destination. -/
def zeroRegs (major var : Nat) : Nat :=
  if major = 0x0D then 1
  else if major = 0x9A ∨ major = 0x9B ∨ major = 0xB7 then memRegs var
  else if 0xB0 ≤ major ∧ major ≤ 0xB2 then 2
  else 0

/-! ## Checks at issue (R109, R113, R135, R399, R432) -/

/-- The guard for the member (R109, R159). -/
def Env.guard (v : Env) : Tri :=
  match v.th.pred v.h.pred with
  | .t => if v.h.pneg then .f else .t
  | .f => if v.h.pneg then .t else .f
  | .u => .u

/-- The member's word is no instruction that its engine executes (R113, R136, R160, R255), among them RTT outside the
instance's handler, or has L = 1 as the last word of its block (R135). An access-slice word with a guard or a relative
operand is such a word (DESIGN CHOICE, log 73: R113 names no trap). -/
def Env.illegal (v : Env) : Bool :=
  (v.h.long && decide (v.th.pc + 8 = v.th.blkEnd)) ||
  (if v.r.t = instId then
    !(accessMajor v.major v.h.var) || (v.major == 0x0C && !v.th.trap.intrap) || v.h.pred ≠ 0 || v.operands.any (fun (_, f) =>
      match f with
      | .rel _ _ => true
      | _ => false)
  else v.major == 0xB3)

/-- A REGBOUND breach, first operand first (R432). -/
def firstBad (l : List (Option Int)) : Option Int := (l.find? (·.isSome)).bind id

/-- Sign-extended index as TRAPADDR (R399). -/
def badAddr (e : Int) : W64 := BitVec.ofInt 64 e

end Sys2Proof.Machine
end

