-- ==== Sys2Proof/Machine/Issue.lean ====
section
/-! DEFINITION. When a thread is ready, and how a word issues for each member of its group
(R38, R42, R48, R109, R118, R127-R129, R194, R253, R256, R396). -/

namespace Sys2Proof.Machine

/-! ## Parameter blocks (R118, R129) -/

/-- Byte offset of a parameter block in the flock's own scratchpad. -/
def Env.blkOff (v : Env) : Nat :=
  match v.b with
  | .e x => (v.v32 x.va).toNat + 64 * x.pb
  | _ => 0

/-- The thread's own earlier stores to the block have not all been performed. -/
def Env.blkPending (v : Env) : Bool :=
  (v.s.dev.inFlight v.r).any (fun q =>
    !q.performed && q.kind.isStore && q.loc.overlaps q.n (.spad v.r.core v.r.slot v.blkOff) 64)

/-! ## Member masks (R42, R193) -/

/-- The mask M of a cross-lane word: V(VC), LIT, or all lanes in the I format. -/
def Env.mask (v : Env) : Nat :=
  match v.b with
  | .t x => (v.v32 x.vc).toNat
  | _ => 0xFFFFFFFF

/-- The same word for another thread of the flock, as it stands at the group's issue. -/
def Env.of (v : Env) (t : Nat) : Option Env :=
  (v.f0.thread? t).map (fun th => { v with s := v.s0, f := v.f0, r := { v.r with t := t }, th := th })

/-- The threads that a mask names in a thread's team. -/
def named (t m : Nat) : List Nat := ((List.range 32).filter (fun i => m.testBit i)).map (fun i => 32 * teamOf t + i)

/-- The mask register can be read. -/
def Env.maskOk (v : Env) : Bool :=
  match v.b with
  | .t x => (badReg v.th v.nregs (src 1) x.vc).isNone
  | _ => true

/-- A named member stands at the instruction with nothing awaited and the same mask. -/
def Env.present (v : Env) (u : Env) : Bool :=
  u.th.ended = none && u.th.pc = v.th.pc && u.th.enter = none && u.th.wait = .none && u.th.intv == v.th.intv &&
    u.maskOk && u.mask = v.mask && !u.blocked

/-- The member set is complete (R42): the mask names the issuer, and every named member is present. -/
def Env.complete (v : Env) : Bool :=
  (named v.r.t v.mask).all (fun t =>
    match v.of t with
    | some u => v.present u
    | none => false) && v.r.t ∈ named v.r.t v.mask

/-- A register operand of the member breaks R105 or R112. -/
def Env.regBad (v : Env) : Option Int := firstBad (v.operands.map (fun (u, f) => badReg v.th v.nregs u f))

/-- Another named member takes a trap on its own operands, so that the set does not issue. -/
def Env.spoiled (v : Env) : Bool :=
  (named v.r.t v.mask).any (fun t =>
    t ≠ v.r.t &&
    (match v.of t with
      | some u => u.regBad.isSome
      | none => false))

/-! ## Conditions of single instructions (R38) -/

/-- Words whose destination is written when their request returns. -/
def loads (m : Nat) : Bool := m = 0x90 ∨ m = 0x92 ∨ m = 0x94 ∨ m = 0x98 ∨ m = 0x9A ∨ m = 0x9B ∨ m = 0xB5 ∨ m = 0xB7

/-- The counter that a word would raise is at its maximum (R127). -/
def Env.full (v : Env) : Bool :=
  let m := v.major
  let c := v.th.cnt
  if loads m then 63 ≤ c.ld
  else if m = 0x91 ∨ m = 0x93 ∨ m = 0x95 ∨ m = 0x96 ∨ m = 0x99 ∨ m = 0x9C ∨ m = 0xB6 then 63 ≤ c.st
  else if 0xB0 ≤ m ∧ m ≤ 0xB2 then 31 ≤ c.cp
  else if 0xA0 ≤ m ∧ m ≤ 0xAE then 15 ≤ c.tl
  else false

/-- WAIT's bounds hold (R128). -/
def Env.waitMet (v : Env) : Bool :=
  match v.b with
  | .w x => v.th.cnt.ld ≤ x.ldc ∧ v.th.cnt.st ≤ x.stc ∧ v.th.cnt.cp ≤ x.cpc ∧ v.th.cnt.tl ≤ x.tlc
  | _ => true

/-- WAITBM's bits are set (R253). -/
def Env.bmMet (v : Env) : Bool :=
  match v.b with
  | .t x =>
    let m := (v.f.m x.vd.num).toNat
    if v.h.mod = 0 then bits m x.va.num (x.vb.num + 1) = 2 ^ (x.vb.num + 1) - 1
    else
      let u := (v.v32 x.va).toNat
      bits m (32 * x.vb.num) 32 &&& u = u
  | _ => true

/-- The operand queue that a word names. -/
def Env.queue (v : Env) : OpQueue :=
  (match v.b with
    | .t x => v.f.oq[if v.major = 0xB3 then x.vd.num else x.va.num]?
    | _ => none).getD ⟨0, []⟩

/-- The thread's position in a queue is at the queue's end. -/
def Env.queueEnd (v : Env) : Bool :=
  match v.b with
  | .t x => v.queue.base + v.queue.items.length ≤ v.th.oqpos[x.va.num]?.getD 0
  | _ => false

/-- The metadata queue that a COPYQ or SMMA names is bound to another flock (R251). -/
def Env.queueTaken (v : Env) : Bool :=
  match v.b with
  | .e x =>
    (v.major = 0xB2 || (0xA4 ≤ v.major && v.major ≤ 0xA7)) &&
      (match (v.s.dev.core v.r.core).metaq[x.qs]? with
        | some q => q.bound.any (fun b => b ≠ (v.r.core, v.r.slot))
        | none => false)
  | _ => false

/-- Registers that hold the scales of a matrix operation, V(VD) on, as M, N and K of its block need (R239). -/
def Env.scaleRegs (v : Env) : Nat :=
  let w := leNat (v.s.point (.spad v.r.core v.r.slot (v.blkOff + 0x20)) 4)
  (bits w 0 3 + 1 + bits w 3 3 + 1) * (bits w 6 7 + 1)

/-- A scale register of a thread of the issuer's team awaits an earlier result (R38, R233, R239). -/
def Env.scalesAwaited (v : Env) : Bool :=
  decide (0xA0 ≤ v.major ∧ v.major ≤ 0xAB) && !v.b.vd.isVz && v.s.dev.reqs ≠ [] &&
    (let i := (v.b.vd.index v.th).toNat
     (List.range 32).any (fun l => (v.s.dev.awaited { v.r with t := 32 * teamOf v.r.t + l }).any (fun k =>
       decide (i ≤ k ∧ k < i + v.scaleRegs))))

/-- The access-slice instance has ended. -/
def Flock.instEnded (f : Flock) : Bool :=
  match f.inst with
  | some th => th.ended.isSome
  | none => true

/-- The thread's writes that are not yet visible at device scope. -/
def Env.storesPending (v : Env) : Bool := (v.s.dev.inFlight v.r).any (fun q => q.pendingAt false)

/-- Instructions with a parameter block. -/
def hasBlock (m : Nat) : Bool :=
  m = 0x0D ∨ (0xA0 ≤ m ∧ m ≤ 0xAE) ∨ (0xB0 ≤ m ∧ m ≤ 0xB2) ∨ m = 0xB8

/-- The instruction cannot issue yet, although its operands can be read (R38); an instance's copies wait for the
flock's first BAR (R234). -/
def Env.stays (v : Env) : Bool :=
  let el := !v.th.intv
  v.full || (v.r.t == instId && 0xB0 ≤ v.major && v.major ≤ 0xB2 && !v.f.barDone) ||
  (match v.major with
    | 0x13 => el && privileged v.f v.th && v.storesPending
    | 0x19 => el && !v.waitMet
    | 0x1A => el && !v.bmMet
    | 0xB3 => decide (16 ≤ v.queue.items.length)
    | 0xB4 => el && v.f.kern.access && v.queueEnd && !v.f.instEnded
    | m => el && hasBlock m && (v.blkPending || v.queueTaken || v.scalesAwaited))

/-- The member can issue: its word traps, is skipped or suppressed, or performs. -/
def Env.ready (v : Env) : Bool :=
  if v.illegal then true
  else if v.blocked then false
  else if crossLane v.major && v.maskOk && !v.complete then false
  else if (firstBad (v.operands.map (fun (u, f) => badDirect v.nregs u f))).isSome then true
  else
    match v.guard with
    | .f => true
    | .u => true
    | .t =>
      if v.th.helper && suppressed v.major then true
      else if v.regBad.isSome then true
      else if crossLane v.major && v.spoiled then false
      else !v.stays

/-! ## Issue of a word (R39, R109, R396) -/

/-- The next word for a thread that has issued. -/
def advance (r : TRef) (words : Nat) : Eff := updT r (fun th => { th.goNext words with waited := 0 })

/-- What a result makes of the member. -/
def Res.finish (v : Env) : Res → Eff
  | .done e => e.andThen (advance v.r v.words)
  | .jump e => (updT v.r (fun th => { th with waited := 0 })).andThen e
  | .stay => skip
  | .trap code sub addr => trapHere v.r code sub addr

/-- The member set of a cross-lane word is within the group. -/
def Env.inGroup (v : Env) : Bool :=
  !crossLane v.major || !v.maskOk || (named v.r.t v.mask).all (fun t => { v.r with t := t } ∈ v.grp.members)

/-- The registers of a word's operands that it reads (true), or that it only writes. -/
def Env.regsOf (v : Env) (read : Bool) : List Nat :=
  v.operands.flatMap (fun (u, f) => match u with
    | .reg n r w => if !f.isVz && (if read then r else w && !r) then (List.range n).map (fun i => (f.index v.th).toNat + i) else []
    | _ => [])

/-- The faults of the register-file words of a thread's registers. -/
def Dev.regMarks (d : Dev) (r : TRef) (l : List Nat) : List Mark :=
  d.marks.filter (fun m => match m.1 with
    | .reg c s t i => c = r.core ∧ s = r.slot ∧ t = r.t ∧ i ∈ l
    | _ => false)

/-- Reads of registers with faults (R377): corrected ones are recorded, one beyond correction stops the context, and the
word does nothing else. -/
def regCheck (v : Env) (e : Eff) : Eff :=
  let ms := v.s.dev.regMarks v.r (v.regsOf true)
  let rec_ : Eff := forE ms (fun m =>
    let (bank, code, inst, addr) := markBank m.1
    if m.2 then eccStop (some v.f.ctx) bank code inst addr
    else (eccRecord bank 1 (some v.f.ctx) code inst addr).andThen (upd (unmark [m])))
  if ms.any (·.2) then rec_
  else
    seqE [
      rec_,
      e,
      upd (fun d => unmark (if loads v.major then [] else d.regMarks v.r (v.regsOf false)) d) ]

/-- What a word does for a member whose guard is true: its operands in the order of R432, then its effect. -/
def perform (m : Meaning) (v : Env) : Eff :=
  match v.regBad with
  | some e => trapHere v.r cREGBOUND 0 (badAddr e)
  | none => if v.s.dev.marks = [] then (m v).finish v else regCheck v ((m v).finish v)

/-- What a suppressed word does for a helper (R48): its destination receives zero. -/
def suppress (v : Env) : Eff :=
  let z := zeroRegs v.major v.h.var
  Res.finish v (.done (if z = 0 ∨ (badReg v.th v.nregs (dst z) v.b.vd).isSome then skip
    else updT v.r (fun th => th.wrN z v.b.vd 0)))

/-- The one operand check of a word that does not perform (R48, R109), then what it does. -/
def checkDirect (v : Env) (e : Eff) : Eff :=
  match firstBad (v.operands.map (fun (u, f) => badDirect v.nregs u f)) with
  | some e => trapHere v.r cREGBOUND 0 (badAddr e)
  | none => e

/-- One member's instruction: readiness, encoding, guard, helper, operands, effect. Whether the member is ready is judged
at the group's issue, where the other members still stand at the word. -/
def stepMember (m : Meaning) (v : Env) : Eff :=
  if !({ v with s := v.s0 }.ready && v.inGroup) then skip
  else if v.illegal then trapHere v.r cILLEGAL 0 0
  else
    match v.guard with
    | .f => checkDirect v (advance v.r v.words)
    | .u => checkDirect v (retire v.r .unknown)
    | .t => if v.th.helper && suppressed v.major then checkDirect v (suppress v) else perform m v

/-- A member that stands at the group's PC and has not ended. -/
def memberOf (s : State) (g : Group) (r : TRef) : Option (Flock × Thread) :=
  (s.dev.flock? r.core r.slot).bind (fun f =>
    (f.thread? r.t).bind (fun th =>
      if th.ended = none ∧ th.pc = g.pc ∧ th.enter = none ∧ f.dead = false then some (f, th) else none))

/-- Issues a word for each member of the chosen group, in lane order; every member reads the group's state at issue
where it reads other members. Without a group no thread reaches the instruction, and it has no effect (R46). -/
def issue (major : Nat) (b : Body) (m : Meaning) : Eff := look fun s =>
  match s.dev.issuing with
  | none => skip
  | some g =>
    match rowOf major b with
    | none => upd (fun d => { d with issuing := none })
    | some row =>
      (upd (fun d => { d with issuing := none })).andThen
        (forE g.members (fun r => look fun s1 =>
          withE (memberOf s g r) fun (f0, _) =>
            withE (memberOf s1 g r) fun (f, th) => stepMember m ⟨s1, s, f0, r, f, th, major, b, row, g⟩))

/-- The word of a group is an unassigned encoding: every member takes the illegal-instruction trap (R135, R396). -/
def issueIllegal : Eff := look fun s =>
  match s.dev.issuing with
  | none => skip
  | some g =>
    (upd (fun d => { d with issuing := none })).andThen
      (forE g.members (fun r => look fun s1 => withE (memberOf s1 g r) fun _ => trapHere r cILLEGAL 0 0))

/-- An element-mode meaning and the interval-mode one. -/
def both (el iv : Meaning) : Meaning := fun v => if v.th.intv then iv v else el v
/-- The rule NONE: the interval thread ends UNKNOWN (R82, R295). -/
def noneRule : Meaning := fun v => .jump (retire v.r .unknown)

end Sys2Proof.Machine
end

