-- ==== Sys2Proof/Machine/Fetch.lean ====
section
/-! DEFINITION. Fetch through the instruction cache, entry into blocks, the reconvergence hold
(R44, R107, R121-R125, R162, R407). -/

namespace Sys2Proof.Machine

/-! ## The instruction cache (R17, R95, R125, R377) -/

/-- The number of a code word's place in an instruction cache: its physical address, or beyond those the place in the BF16
view of a reduced-format page (R103). -/
def codeKey (l : Loc) : Nat :=
  match l with
  | .dram pa => pa
  | .host pa => pa
  | .mxel base fmt off => 2 ^ 52 + ((base * 8 + fmt) * 2 ^ 16 + off)
  | _ => 0

/-- The faults of a core's cached copies of a code word. -/
def Dev.icacheMarks (d : Dev) (core key : Nat) : List Mark :=
  d.marks.filter (fun m => match m.1 with
    | .icache c pa => c = core ∧ pa / 8 * 8 = key
    | _ => false)

/-- The copies of a code word that a core's fetch may deliver; with a fault beyond correction there is none. -/
def Dev.codeCopies (d : Dev) (core key : Nat) : List W64 :=
  if (d.icacheMarks core key).any (·.2) then [] else ((d.core core).icache.filter (fun x => x.1 = key)).map (·.2)

/-- The copy that a fetch takes, or none where it reads memory: until a FLUSHI the device is free to take any value that
the core still holds (R125). -/
def Dev.codeCopy (d : Dev) (core key : Nat) : Option W64 :=
  let l := d.codeCopies core key
  l[(Config.freeWord d.free).toNat % (l.length + 1)]?

/-- A code word at a place, as a core fetches it. -/
def codeWord (s : State) (core : Nat) (l : Loc) : Nat :=
  match s.dev.codeCopy core (codeKey l) with
  | some w => w.toNat
  | none => leNat (s.point l 8)

/-- A core's instruction cache takes a word, newest first, up to its capacity; victim-TLB entries in the line go (R95). -/
def Dev.cacheWord (d : Dev) (core key w : Nat) : Dev :=
  (d.modCore core (fun c =>
    { c with icache := ((key, BitVec.ofNat 64 w) :: c.icache.filter (· ≠ (key, BitVec.ofNat 64 w))).take icacheWords })).claim core true

/-- A fetch meets the faults of its core's copies: corrected, or the line is invalidated and fetched again (R377). -/
def icacheCheck (core ctx key : Nat) : Eff := look fun s =>
  let ms := s.dev.icacheMarks core key
  seqE [
    forE ms (fun m => let (bank, code, inst, addr) := markBank m.1; eccRecord bank 1 (some ctx) code inst addr),
    upd (unmark ms),
    whenE (ms.any (·.2)) (upd (fun d => d.modCore core (fun c =>
      { c with icache := c.icache.filter (fun x => x.1 / 128 ≠ key / 128) }))) ]

/-- The bytes that a fetch reads where the cache does not serve it: a line of DRAM, else the word (R377). -/
def codeLine (l : Loc) : Loc × Nat :=
  match l with
  | .dram pa => (.dram (pa / 128 * 128), 128)
  | l => (l, 8)

/-- A place in DRAM, or in the BF16 view of it. -/
def Loc.isDram : Loc → Bool
  | .dram _ => true
  | _ => false
def Loc.isView : Loc → Bool
  | .mxel _ _ _ => true
  | _ => false

/-! ## Fetch of a word -/

/-- What a fetch of one word finds: the word and its place's number; `bad` are bits beyond correction (R378). -/
inductive Fetched
  | word (w key : Nat)
  | denied
  | perm
  | fault (lvl : Nat)
  | bad
  | stuck (pa : Nat)
  deriving DecidableEq, Repr

/-- Fetches the word at a virtual code address for a flock on a core. Code lies in global memory only. -/
def fetchAt (s : State) (f : Flock) (va : Nat) : Fetched :=
  if 2 ^ 57 ≤ va then .denied
  else
    match xlat s (some f.core) f.ctx f.regs.ptroot va .fetch with
    | .ok pa leaf =>
      let l := placeOf pa leaf va
      if (s.dev.codeCopy f.core (codeKey l)).isNone && s.dev.eccBad (codeLine l).1 (codeLine l).2 then .bad
      else .word (codeWord s f.core l) (codeKey l)
    | .denied => .denied
    | .perm => .perm
    | .fault l => .fault l
    | .bad => .bad
    | .stuck pa => .stuck pa

/-- The requester of a fetch for a thread (R326). -/
def Flock.fetcher (f : Flock) (d : Dev) (t : Nat) (nc : Bool) : Who :=
  let (group, cls, stamp) := d.tag f.ctx f.core t
  ⟨some f.core, some f.ctx, some f.ctx, group, cls, stamp, nc, false, none⟩

/-- The effects of that fetch for thread `t`: a miss reads its slice (R101, R104), and the word is cached. -/
def fetchE (t : Nat) (f : Flock) (va : Nat) : Eff := look fun s =>
  if 2 ^ 57 ≤ va then skip
  else
    (xlatE (some f.core) f.ctx f.regs.ptroot va .fetch).andThen
      (match xlat s (some f.core) f.ctx f.regs.ptroot va .fetch with
        | .ok pa leaf =>
          let l := placeOf pa leaf va
          let key := codeKey l
          (whenE (!s.dev.marks.isEmpty) (icacheCheck f.core f.ctx key)).andThen
            (if (s.dev.codeCopy f.core key).isSome then skip
            else
              let read := whenE (!s.dev.marks.isEmpty) (eccRead (some f.ctx) (codeLine l).1 (codeLine l).2)
              if s.dev.eccBad (codeLine l).1 (codeLine l).2 then read
              else
                seqE [
                  read,
                  pointRead (f.fetcher s.dev t (pteNc leaf)) l 8,
                  whenE (l.isDram || l.isView) (upd (missed f.ctx (f.fetcher s.dev t false).stamp)),
                  upd (fun d => d.cacheWord f.core key (codeWord s f.core l)) ])
        | _ => skip)

/-! ## Prefetch hints (R46, R124) -/

/-- Loads one code word into a core's instruction cache, where it can be fetched. -/
def prefetchWord (f : Flock) (va : Nat) : Eff := look fun s =>
  if 2 ^ 57 ≤ va then skip
  else
    match xlat s (some f.core) f.ctx f.regs.ptroot va .fetch with
    | .ok pa leaf =>
      let l := placeOf pa leaf va
      if s.dev.eccBad (codeLine l).1 (codeLine l).2 then skip
      else upd (fun d => d.cacheWord f.core (codeKey l) (leNat (s.point l 8)))
    | _ => skip

/-- The hint of the header at `pc`: the words of the successor block, or 128 bytes there. -/
def prefetch (f : Flock) (pc : W64) (h : Header) : Eff := look fun s =>
  let to_ := (pc + 8 * (BitVec.ofNat 17 h.pfoff).signExtend 64).toNat / 8 * 8
  let n :=
    if h.pfkind = 2 then
      match fetchAt s f to_ with
      | .word w _ => ((rdHeader w).map (·.len)).getD 16
      | _ => 16
    else 16
  forE (List.range n) (fun i => prefetchWord f (to_ + 8 * i))

/-! ## Entry into blocks -/

/-- A thread stands before the header at its PC and enters the block (R44, R122): the TARGET trap of a bad target, or
the block's end, the hold at the header its RPC names, and the RPC that RECONV sets. An access-slice instance issues
outside the fold (R37, R160) and has neither. The device is free to act on the header's prefetch hint (R46, R124,
log 53). -/
def enterBlock (r : TRef) (src : W64) (f : Flock) (th : Thread) : Eff := look fun s =>
  if th.pc.toNat % 8 ≠ 0 then takeTrap r cTARGET 0 src th.pc
  else
    match fetchAt s f th.pc.toNat with
    | .stuck pa => halt (.noSuchLocation pa)
    | .bad => fetchE r.t f th.pc.toNat
    | .denied => takeTrap r cTARGET 0 src th.pc
    | .perm => takeTrap r cPERM 0 th.pc th.pc
    | .fault lvl => pageFault r th.pc.toNat lvl .fetch
    | .word w _ =>
      match rdHeader w with
      | none => takeTrap r cTARGET 0 src th.pc
      | some h =>
        if h.len = 0 then takeTrap r cTARGET 0 src th.pc
        else
          let stop := th.pc + BitVec.ofNat 64 (8 * h.len)
          let here : Bool := th.rpc = some th.pc
          let rpc := if here then none else th.rpc
          let rpc' := if h.reconv = 0 ∨ r.t = instId then rpc
            else some (th.pc + 8 * (BitVec.ofNat 20 h.reconv).signExtend 64)
          let wait := bits (s.dev.core r.core).foldcfg.toNat 0 8
          let pc := th.pc + 8
          let hint : Bool := (h.pfkind = 1 || h.pfkind = 2) && s.dev.choose
          seqE [
            fetchE r.t f th.pc.toNat,
            whenE hint (prefetch f th.pc h),
            updT r (fun t =>
              { t with pc := pc, blkEnd := stop, rpc := rpc', enter := if pc = stop then some 0 else none,
                       wait := if here && wait ≠ 0 && !th.converged then .held (s.dev.die (dieOf r.core)).cycle
                         else t.wait }) ]

/-- A thread whose block's end is unknown stands at a word with the mark of a header (log 9). -/
def atHeader (s : State) (f : Flock) (th : Thread) : Bool :=
  th.blkEnd = 0 &&
    (match fetchAt s f th.pc.toNat with
      | .word w _ => (rdHeader w).isSome
      | _ => false)

/-- Enters blocks until the thread stands at an instruction word; empty blocks (LEN = 1) follow one another by
fall-through, at most `n` of them in one step. -/
def settle (r : TRef) : Nat → Eff
  | 0 => skip
  | n + 1 => look fun s =>
    match s.dev.flock? r.core r.slot with
    | none => skip
    | some f =>
      match f.thread? r.t with
      | none => skip
      | some th =>
        match th.enter, th.ended, th.wait with
        | some src, none, .none => (enterBlock r src f th).andThen (settle r n)
        | none, none, .none => if atHeader s f th then (enterBlock r 0 f th).andThen (settle r n) else skip
        | _, _, _ => skip

/-- The instruction word and literal word of a chosen group, or the address that could not be fetched. -/
inductive GroupFetch
  | words (w lit : Nat)
  | bad (x : Fetched) (va : W64)
  deriving DecidableEq, Repr

/-- The flock through which the group's code is fetched: that of its first member. -/
def Dev.groupFlock (d : Dev) (g : Group) : Option Flock :=
  match g.members with
  | [] => none
  | r :: _ => d.flock? r.core r.slot

/-- A word with L = 1 whose literal word is read: its format has one, and it is not the last word of its block (R135). -/
def Dev.wantsLit (d : Dev) (g : Group) (w : Nat) : Bool :=
  bit w 55 &&
    (match fmtOf (bits w 56 8) with
      | some .b => false
      | some .w => false
      | none => false
      | _ => true) &&
    g.members.any (fun r => (d.thread? r).any (fun th => g.pc + 8 ≠ th.blkEnd))

/-- The thread for which a group's code is fetched. -/
def Group.lead (g : Group) : Nat := (g.members.head?.map (·.t)).getD 0

/-- Fetches the group's instruction word, and after it its literal word, each as the cache then stands (R125). -/
def fetchGroup (s : State) (g : Group) : GroupFetch :=
  match s.dev.groupFlock g with
  | none => .words 0 0
  | some f =>
    match fetchAt s f g.pc.toNat with
    | .word w _ =>
      if s.dev.wantsLit g w then
        match fetchAt (s.apply (fetchE g.lead f g.pc.toNat s)) f (g.pc + 8).toNat with
        | .word l _ => .words w l
        | x => .bad x (g.pc + 8)
      else .words w 0
    | x => .bad x g.pc

/-- What the fetch of a group changes. -/
def fetchGroupE (g : Group) : Eff := look fun s =>
  withE (s.dev.groupFlock g) fun f =>
    (fetchE g.lead f g.pc.toNat).andThen
      (match fetchAt s f g.pc.toNat with
        | .word w _ => if s.dev.wantsLit g w then fetchE g.lead f (g.pc + 8).toNat else skip
        | _ => skip)

/-- A group one of whose words, at `va`, could not be fetched: its members take the fault or the trap there, and none
issues (R399, R409). -/
def fetchFail (g : Group) (x : Fetched) (va : W64) : Eff :=
  seqE [
    fetchGroupE g,
    upd (fun d => { d with issuing := none }),
    (match x with
      | .stuck pa => halt (.noSuchLocation pa)
      | .bad => skip
      | _ => forE g.members (fun r => look fun s => withE (memberOf s g r) fun _ =>
          match x with
          | .fault lvl => pageFault r va.toNat lvl .fetch
          | .perm => trapHere r cPERM 0 va
          | _ => trapHere r cTARGET 0 0)) ]

end Sys2Proof.Machine
end

