-- ==== Sys2Proof/Machine/Flags.lean ====
section
/-! DEFINITION. Predicates, the flags of this machine: three-valued logic and the comparisons that set them
(R83, R159, R190, R192, R201, R206). -/

namespace Sys2Proof.Machine

/-- A known truth value. -/
def Tri.ofBool (b : Bool) : Tri := if b then .t else .f

/-- The truth values that a predicate may have. -/
def Tri.vals : Tri → List Bool
  | .t => [true]
  | .f => [false]
  | .u => [false, true]

/-- The truth value of a list of possible ones: known if they agree. -/
def Tri.ofVals (l : List Bool) : Tri :=
  if l.all id then .t else if l.all not then .f else .u

/-- AND, OR and XOR of R192. -/
def Tri.and (a b : Tri) : Tri :=
  if a = .f ∨ b = .f then .f else if a = .u ∨ b = .u then .u else .t
def Tri.or (a b : Tri) : Tri :=
  if a = .t ∨ b = .t then .t else if a = .u ∨ b = .u then .u else .f
def Tri.xor (a b : Tri) : Tri :=
  if a = .u ∨ b = .u then .u else Tri.ofBool (a ≠ b)
def Tri.not : Tri → Tri
  | .t => .f
  | .f => .t
  | .u => .u

/-- How MOD combines an outcome with the old predicate (R190, R201). -/
def combine (mod : Nat) (old t : Tri) : Tri :=
  match mod with
  | 0 => t
  | 1 => old.and t
  | 2 => old.or t
  | _ => old.xor t

/-- Compare on exact integers (R83). -/
def compareInt (c : Nat) (a b : Int) : Bool :=
  match c with
  | 0 => a = b
  | 1 => a ≠ b
  | 2 => a < b
  | 3 => a ≤ b
  | 4 => b < a
  | _ => b ≤ a

/-- Compare of two extents (R192): TRUE if it holds for every pair of values, FALSE if for none. -/
def compareExt (c : Nat) (a b : Int × Int) : Tri :=
  match c with
  | 0 => if a.2 < b.1 ∨ b.2 < a.1 then .f else if a.1 = a.2 ∧ b.1 = b.2 then .t else .u
  | 1 => if a.2 < b.1 ∨ b.2 < a.1 then .t else if a.1 = a.2 ∧ b.1 = b.2 then .f else .u
  | 2 => if a.2 < b.1 then .t else if b.2 ≤ a.1 then .f else .u
  | 3 => if a.2 ≤ b.1 then .t else if b.2 < a.1 then .f else .u
  | 4 => if b.2 < a.1 then .t else if a.2 ≤ b.1 then .f else .u
  | _ => if b.2 ≤ a.1 then .t else if a.2 < b.1 then .f else .u

/-- PCOMB's table at its two inputs, for every choice of unknown ones (R190, R192). -/
def pcombTri (tab : Nat) (a b : Tri) : Tri :=
  Tri.ofVals (b.vals.flatMap (fun y => a.vals.map (fun x => tab.testBit (2 * y.toNat + x.toNat))))

/-- The predicate that a field names. -/
def Env.p (v : Env) (f : Fld) : Tri := v.th.pred f.num

/-- Writes a predicate; p0 discards (R112). -/
def Env.putP (v : Env) (f : Fld) (x : Tri) : Res := v.put (fun th => th.setPred f.num x)

end Sys2Proof.Machine
end

