-- ==== Sys2Proof/Machine/Interval.lean ====
section
/-! DEFINITION. Integer types and the two readings of their operands: a value, or in interval mode an extent
(R58, R79, R81, R82, R115, R120, R134, R186, R192). -/

namespace Sys2Proof.Machine

/-! ## Types of the INT set (R134) -/

/-- A type of `k` elements of `w` bits. -/
structure ITy where
  sg : Bool
  w : Nat
  k : Nat
  deriving DecidableEq, Repr

/-- The codes of the INT set. -/
def ity (var : Nat) : ITy :=
  match var with
  | 0 => ⟨true, 32, 1⟩
  | 1 => ⟨false, 32, 1⟩
  | 2 => ⟨true, 64, 1⟩
  | 3 => ⟨false, 64, 1⟩
  | 4 => ⟨true, 16, 2⟩
  | 5 => ⟨false, 16, 2⟩
  | 6 => ⟨true, 8, 4⟩
  | _ => ⟨false, 8, 4⟩

def ITy.regs (t : ITy) : Nat := if t.w = 64 then 2 else 1
def ITy.min (t : ITy) : Int := if t.sg then -(2 ^ (t.w - 1) : Nat) else 0
def ITy.max (t : ITy) : Int := if t.sg then (2 ^ (t.w - 1) : Nat) - 1 else (2 ^ t.w : Nat) - 1
/-- The value of the low bits of `x`. -/
def ITy.val (t : ITy) (x : Nat) : Int := if t.sg then toSigned t.w x else ((x % 2 ^ t.w : Nat) : Int)
/-- SatInt (R83). -/
def ITy.clamp (t : ITy) (x : Int) : Int := if x < t.min then t.min else if t.max < x then t.max else x

/-- The elements of a register value, lowest first. -/
def ITy.elems (t : ITy) (x : Nat) : List Nat := (List.range t.k).map (fun i => x >>> (t.w * i) % 2 ^ t.w)
/-- Elements put together, each wrapped to `w` bits. -/
def packInts (w : Nat) : List Int → Nat
  | [] => 0
  | x :: xs => wrap w x + 2 ^ w * packInts w xs

/-! ## Extents (R81) -/

/-- An extent: lowest and highest value. -/
abbrev Ext := Int × Int

def Ext.add (a b : Ext) : Ext := (a.1 + b.1, a.2 + b.2)
def Ext.sub (a b : Ext) : Ext := (a.1 - b.2, a.2 - b.1)
def Ext.mul (a b : Ext) : Ext :=
  let p := [a.1 * b.1, a.1 * b.2, a.2 * b.1, a.2 * b.2]
  (p.foldl min (a.1 * b.1), p.foldl max (a.1 * b.1))
def Ext.abs (a : Ext) : Ext :=
  if 0 ≤ a.1 then a else if a.2 ≤ 0 then (-a.2, -a.1) else (0, max (-a.1) a.2)
def Ext.hull (a b : Ext) : Ext := (min a.1 b.1, max a.2 b.2)

/-- The type's range. -/
def ITy.full (t : ITy) : Ext := (t.min, t.max)
/-- A pair of ends read under a type: lo > hi reads as the full range. -/
def ITy.ext (t : ITy) (lo hi : Nat) : Ext :=
  if t.val hi < t.val lo then t.full else (t.val lo, t.val hi)
/-- IntervalWrap, or clamping for .sat (R81, R192). -/
def ITy.fit (t : ITy) (sat : Bool) (e : Ext) : Ext :=
  if sat then (t.clamp e.1, t.clamp e.2)
  else if t.min ≤ e.1 ∧ e.2 ≤ t.max then e else t.full

/-! ## Sources -/

/-- The bits of a source: one value in element mode, where lo = hi, and an interval's ends with its maybe-NaN mark. -/
structure Raw where
  lo : Nat
  hi : Nat
  nan : Bool
  deriving DecidableEq, Repr

/-- A point (R79). -/
def Raw.pt (r : Raw) : Bool := r.lo == r.hi && !r.nan
def Raw.of (x : Nat) : Raw := ⟨x, x, false⟩

/-- LIT as an operand of `n` registers (R120). -/
def litVal (lit : W32) (n : Nat) (x : LitExt) : Nat :=
  if n = 2 then
    match x with
    | .sign => (lit.signExtend 64).toNat
    | .zero => lit.toNat
  else lit.toNat

/-- The high ends of `n` registers. -/
def Thread.rdHiN (th : Thread) (n : Nat) (i : Int) : Nat :=
  if n = 2 then (pair (th.rdHi i) (if i = 2047 then 0 else th.rdHi (i + 1))).toNat else (th.rdHi i).toNat

/-- A register field as a source of `n` registers. -/
def Env.raw (v : Env) (f : Fld) (n : Nat) (x : LitExt := .sign) : Raw :=
  let lo := v.srcN n f x
  if v.th.intv && !f.isVz then
    let i := f.index v.th
    ⟨lo, v.th.rdHiN n i, decide (i.toNat ∈ v.th.iv.nan)⟩
  else Raw.of lo

/-- IMM of a value operand, or LIT in its place (R115, R120). -/
def immVal (w : IWord) (n : Nat) (x : LitExt) (sg : Bool) : Nat :=
  if w.immLit then litVal w.h.lit n x else if sg then wrap (32 * n) (toSigned 22 w.imm) else w.imm

/-- Source B: the field VB, or IMM in the I format. -/
def Env.rawB (v : Env) (n : Nat) (x : LitExt) (sg : Bool) : Raw :=
  match v.b with
  | .i w => Raw.of (immVal w n x sg)
  | b => v.raw b.vb n x

/-- Writes an interval of `n` registers; vz discards. -/
def Thread.wrIv (th : Thread) (n : Nat) (f : Fld) (r : Raw) : Thread :=
  if f.isVz then th
  else
    let i := (f.index th).toNat
    let w (k : Nat) (th : Thread) : Thread :=
      th.setIv (i + k) (BitVec.ofNat 32 (r.lo >>> (32 * k))) (BitVec.ofNat 32 (r.hi >>> (32 * k))) r.nan
    if n = 2 then w 1 (w 0 th) else w 0 th

/-- Writes the result of the thread's mode. -/
def Env.putRaw (v : Env) (n : Nat) (r : Raw) : Res :=
  if v.th.intv then v.put (fun th => th.wrIv n v.b.vd r) else v.put (fun th => th.wrN n v.b.vd r.lo)

/-! ## The EXACT and MONOTONE rules of integer instructions (R82, R192) -/

/-- An operation on exact integers, and its hull on extents. -/
structure IntOp where
  pt : Int → Int → Int → Int
  ext : Ext → Ext → Ext → Ext

/-- Elementwise result of values. -/
def intEl (t : ITy) (sat : Bool) (o : IntOp) (a b c : Nat) : Nat :=
  packInts t.w ((List.range t.k).map (fun i =>
    let x := o.pt (t.val (a >>> (t.w * i))) (t.val (b >>> (t.w * i))) (t.val (c >>> (t.w * i)))
    if sat then t.clamp x else x))

/-- Elementwise result of intervals. -/
def intIv (t : ITy) (sat : Bool) (o : IntOp) (a b c : Raw) : Raw :=
  let e (r : Raw) (i : Nat) : Ext := t.ext (r.lo >>> (t.w * i)) (r.hi >>> (t.w * i))
  let l := (List.range t.k).map (fun i => t.fit sat (o.ext (e a i) (e b i) (e c i)))
  ⟨packInts t.w (l.map (·.1)), packInts t.w (l.map (·.2)), false⟩

/-- An elementwise integer instruction of type `t`; `raw` marks raw bits, whose LIT is sign-extended. -/
def intOp (o : IntOp) (t : ITy) (sat raw : Bool) : Meaning := fun v =>
  let n := t.regs
  let x : LitExt := if t.sg ∨ raw then .sign else .zero
  let a := v.raw v.b.va n x
  let b := v.rawB n x t.sg
  let c := v.raw v.b.vc n x
  v.putRaw n (if v.th.intv then intIv t sat o a b c else Raw.of (intEl t sat o a.lo b.lo c.lo))

/-- An instruction with the rule MONOTONE of R192: the point result when every source is a point, else `full`. -/
def monoOp (v : Env) (n : Nat) (srcs : List Raw) (full : Raw) (f : List Nat → Nat) : Res :=
  v.putRaw n (if v.th.intv ∧ srcs.all Raw.pt = false then full else Raw.of (f (srcs.map (·.lo)) % 2 ^ (32 * n)))

/-- The type's range as bits. -/
def ITy.fullRaw (t : ITy) : Raw :=
  let l (x : Int) := packInts t.w (List.replicate t.k x)
  ⟨l t.min, l t.max, false⟩

end Sys2Proof.Machine
end

