-- ==== Sys2Proof/Machine/Transc.lean ====
section
/-! DEFINITION. Reciprocals, roots and elementary functions: the spec bounds their results and leaves the bits to the
device (R202, R203). A free candidate is taken where it keeps the bound (log 12). -/

namespace Sys2Proof.Machine

/-! ## Reciprocals with a sticky bit -/

/-- 1/x of a finite non-zero value, to more than 80 bits and one sticky bit. -/
def FV.recip : FV → FV
  | .fin s m e =>
    let k := Nat.log2 m + 90
    let q := 2 ^ k / m
    .fin s (2 * q + (if q * m = 2 ^ k then 0 else 1)) (-e - k - 1)
  | x => x

/-- 1/√x of a positive finite value, likewise. -/
def FV.rsqrt : FV → FV
  | .fin _ m e =>
    let o := (e % 2).toNat
    let M := m * 2 ^ o
    let h := (e - o) / 2
    let k := Nat.log2 M + 90
    let n := 2 ^ (2 * k) / M
    let r := isqrt n ((Nat.log2 n + 2) / 2) 0
    .fin false (2 * r + (if r * r * M = 2 ^ (2 * k) then 0 else 1)) (-h - k - 1)
  | x => x

/-! ## Fixed-point series, in units of 2^-120 -/

def fxOne : Int := 2 ^ 120
def fxLn2 : Int := 0xb17217f7d1cf79abc9e3b39803f2f6
def fxLog2e : Int := 0x171547652b82fe1777d0ffda0d23a7d
/-- π in units of 2^-300. -/
def piBits : Int := 0x3243f6a8885a308d313198a2e03707344a4093822299f31d0082efa98ec4e6c89452821e638d

/-- A finite value in units of 2^-120, toward −∞. -/
def FV.fx (x : FV) : Int := (x.mul (.pow2 120)).toInt 3
/-- A number of units as a value. -/
def ofFx (i : Int) : FV := (FV.ofInt i).mul (.pow2 (-120))

/-- term + term·t/(k+1) + … -/
def expSeries (t : Int) : Nat → Int → Nat → Int
  | 0, _, _ => 0
  | n + 1, term, k => term + expSeries t n (term * t / (fxOne * (k + 1))) (k + 1)

/-- 2^x of a value of magnitude below 2^20. -/
def exp2Val (x : FV) : FV :=
  let n := x.toInt 3
  let fr := (FV.sub false x (FV.ofInt n)).fx
  (ofFx (expSeries (fr * fxLn2 / fxOne) 45 fxOne 0)).mul (.pow2 n)

/-- y + y³/3 + y⁵/5 + … with p the present power. -/
def athSeries (y2 : Int) : Nat → Int → Nat → Int
  | 0, _, _ => 0
  | n + 1, p, k => p / (2 * k + 1) + athSeries y2 n (p * y2 / fxOne) (k + 1)

/-- log2 of a positive finite value. -/
def log2Val (x : FV) : FV :=
  let k := x.log2
  let M := (x.mul (.pow2 (-k))).fx
  let y := (M - fxOne) * fxOne / (M + fxOne)
  ofFx (k * fxOne + 2 * athSeries (y * y / fxOne) 50 y 0 * fxOne / fxLn2)

/-- Alternating series of sine (k = 1) and cosine (k = 0). -/
def trigSeries (r2 : Int) : Nat → Int → Nat → Int
  | 0, _, _ => 0
  | n + 1, term, k => term - trigSeries r2 n (term * r2 / (fxOne * ((k + 1) * (k + 2)))) (k + 2)

/-- Quadrant and remainder of |x| by π/2. -/
def reduce (x : FV) : Nat × Int :=
  let X := (x.abs.mul (.pow2 300)).toInt 3
  let k := 2 * X / piBits
  ((k % 4).toNat, (2 * X - k * piBits) / 2 ^ 181)

def sinVal (x : FV) : FV :=
  let (q, r) := reduce x
  let r2 := r * r / fxOne
  let s := trigSeries r2 30 r 1
  let c := trigSeries r2 30 fxOne 0
  let y := match q with
    | 0 => s
    | 1 => c
    | 2 => -s
    | _ => -c
  ofFx (if x.neg then -y else y)
def cosVal (x : FV) : FV :=
  let (q, r) := reduce x
  let r2 := r * r / fxOne
  let s := trigSeries r2 30 r 1
  let c := trigSeries r2 30 fxOne 0
  ofFx (match q with
    | 0 => c
    | 1 => -s
    | 2 => -c
    | _ => s)

/-- tanh of a value of magnitude below 2^10. -/
def tanhVal (x : FV) : FV :=
  let e := (exp2Val ((FV.mul (.ofInt 2) x.abs).mul (ofFx fxLog2e))).fx
  let t := (e - fxOne) * fxOne / (e + fxOne)
  ofFx (if x.neg then -t else t)

/-! ## Results within their bounds -/

/-- |c − x| ≤ b. -/
def FV.within (c x b : FV) : Bool := !c.isNan && !c.isInf && (FV.sub false c x).abs.le b

/-- The free candidate where it is within `b` of `x`, else `x` rounded. -/
def pick (cand : Nat) (x b : FV) : Nat := if (f32.dec cand).within x b then cand else f32.round 0 0 x

/-- `n` units in the last place at a value. -/
def FFmt.ulps (f : FFmt) (n : Nat) (x : FV) : FV := (FV.ofInt n).mul (.pow2 (f.ulp x))

/-- One of the two neighbours of an exact result, or the result when representable. -/
def neighbour (x : FV) (up : Bool) : Nat :=
  if f32.exceeds x then f32.signed x.neg 0x7F800000 else f32.round (if up then 2 else 3) 0 x

def frcpVal (a : Nat) : Nat :=
  match f32.dec a with
  | .nan _ => f32.quiet a
  | .inf s => f32.signed s 0
  | x => if x.isZero then f32.signed x.neg 0x7F800000 else neighbour x.recip (Config.frcpUp (BitVec.ofNat 32 a))

def frsqVal (a : Nat) : Nat :=
  match f32.dec a with
  | .nan _ => f32.quiet a
  | .inf s => if s then f32.defNan else 0
  | x =>
    if x.isZero then f32.signed x.neg 0x7F800000
    else if x.neg then f32.defNan else neighbour x.rsqrt (Config.frsqUp (BitVec.ofNat 32 a))

def fsqrtVal (mode a : Nat) : Nat :=
  match f32.dec a with
  | .nan _ => f32.quiet a
  | .inf s => if s then f32.defNan else 0x7F800000
  | x => if x.isZero then a else if x.neg then f32.defNan else f32.round mode 0 (x.sqrt 40)

/-- 2^x, exact or far outside the range where the format has other values (R202, R203). -/
def exp2Any (x : FV) : FV :=
  if (FV.ofInt 2000).lt x then .pow2 2000 else if x.lt (FV.ofInt (-2000)) then .pow2 (-2000) else exp2Val x

/-- A finite value is an integer. -/
def FV.isInt (x : FV) : Bool := (x.split 0).2.1 = 0

def fexp2Val (a : Nat) : Nat :=
  match f32.dec a with
  | .nan _ => f32.quiet a
  | .inf s => if s then 0 else 0x7F800000
  | x =>
    let y := exp2Any x
    if f32.exceeds y then 0x7F800000
    else if x.isInt ∧ (FV.ofInt (-150)).lt x then f32.round 0 0 (.pow2 (x.toInt 0))
    else
      let c := (Config.fexp2 (BitVec.ofNat 32 a)).toNat
      if bit c 31 then f32.round 0 0 y else pick c y (f32.ulps 2 y)

/-- The bound of FLOG2 on its result `y` for operand `x` (R202). -/
def log2Bound (x y : FV) : FV :=
  if (FV.pow2 (-1)).le x ∧ x.le (.pow2 1) then .pow2 (-22) else f32.ulps 2 y

def flog2Val (a : Nat) : Nat :=
  match f32.dec a with
  | .nan _ => f32.quiet a
  | .inf s => if s then f32.defNan else 0x7F800000
  | x =>
    if x.isZero then 0xFF800000
    else if x.neg then f32.defNan
    else if x.eq (.pow2 x.log2) then f32.round 0 0 (.ofInt x.log2)
    else pick (Config.flog2 (BitVec.ofNat 32 a)).toNat (log2Val x) (log2Bound x (log2Val x))

def fsinVal (a : Nat) : Nat :=
  match f32.dec a with
  | .nan _ => f32.quiet a
  | .inf _ => f32.defNan
  | x => if x.isZero then a else pick (Config.fsin (BitVec.ofNat 32 a)).toNat (sinVal x) (.pow2 (-21))

def fcosVal (a : Nat) : Nat :=
  match f32.dec a with
  | .nan _ => f32.quiet a
  | .inf _ => f32.defNan
  | x => if x.isZero then 0x3F800000 else pick (Config.fcos (BitVec.ofNat 32 a)).toNat (cosVal x) (.pow2 (-21))

/-- |x| ≥ 9.1. -/
def FV.tanhOne (x : FV) : Bool := (FV.ofInt 91).le ((FV.ofInt 10).mul x.abs)

def ftanhVal (a : Nat) : Nat :=
  match f32.dec a with
  | .nan _ => f32.quiet a
  | .inf s => f32.signed s 0x3F800000
  | x =>
    if x.isZero then a
    else if x.tanhOne then f32.signed x.neg 0x3F800000
    else pick (Config.ftanh (BitVec.ofNat 32 a)).toNat (tanhVal x) (.pow2 (-21))

/-- DRCP: the candidate where its relative error is at most 2^-23; unconstrained where 1/A is neither a normal number
nor beyond the largest finite one (R202, log 12). -/
def drcpVal (a : Nat) : Nat :=
  let c := (Config.drcp (BitVec.ofNat 64 a)).toNat
  match f64.dec a with
  | .nan _ => f64.quiet a
  | .inf s => f64.signed s 0
  | x =>
    if x.isZero then f64.signed x.neg 0x7FF0000000000000
    else
      let y := x.recip
      if f64.exceeds y then f64.signed x.neg 0x7FF0000000000000
      else if y.abs.lt (.pow2 (-1022)) then c
      else if ((f64.dec c).mul x).within (.ofInt 1) (.pow2 (-23)) then c
      else f64.round 0 0 y

end Sys2Proof.Machine
end

