-- ==== Sys2Proof/Machine/Float.lean ====
section
/-! DEFINITION. The floating-point instructions (R197-R206), on values and on floating intervals (R79, R80). -/

namespace Sys2Proof.Machine

/-! ## Floating intervals -/

/-- A floating interval: ends, and whether it may be NaN (R79). -/
structure FIv where
  lo : FV
  hi : FV
  nan : Bool
  deriving DecidableEq, Repr

/-- Every value, NaN included. -/
def FIv.all : FIv := ⟨.inf true, .inf false, true⟩

/-- Two codes and the mark as an interval. Ends that are NaN or out of order leave everything possible. -/
def FFmt.iv (f : FFmt) (lo hi : Nat) (nan : Bool) : FIv :=
  let l := f.dec lo
  let h := f.dec hi
  if l.isNan || h.isNan || h.lt l then .all else ⟨l, h, nan⟩

def FIv.hasZero (a : FIv) : Bool := a.lo.le (.ofInt 0) && (FV.ofInt 0).le a.hi
/-- A point: the ends compare equal, with −0 = +0, and NaN is not possible (R79). -/
def FIv.isPt (a : FIv) : Bool := a.lo.le a.hi && a.hi.le a.lo && !a.nan
def FIv.hasInf (a : FIv) : Bool := a.lo.isInf || a.hi.isInf
def FIv.negate (a : FIv) : FIv := ⟨a.hi.negate, a.lo.negate, a.nan⟩
def FIv.hull (a b : FIv) : FIv :=
  ⟨if b.lo.lt a.lo then b.lo else a.lo, if a.hi.lt b.hi then b.hi else a.hi, a.nan || b.nan⟩

/-- IntervalRound (R80); a lower end of zero is −0 and an upper one +0 (R79). An end that rounds to a NaN code of a
narrow format becomes its largest finite value, and NaN is possible. -/
def FFmt.outward (f : FFmt) (a : FIv) : Raw :=
  let fix (c : Nat) (s : Bool) : Nat :=
    if (f.dec c).isNan then f.signed (bit c (f.ew + f.mw)) f.maxCode
    else if (f.dec c).isZero then f.zero s
    else c
  let l := f.round 3 0 a.lo
  let h := f.round 2 0 a.hi
  ⟨fix l true, fix h false, a.nan || (f.dec l).isNan || (f.dec h).isNan⟩

/-- An end of a sum: −∞ or +∞ where the ends are infinities of both signs (R80). -/
def addEnd (low : Bool) (x y : FV) : FV :=
  let s := FV.add false x y
  if s.isNan then .inf low else s

/-- IntervalAdd before rounding. -/
def FIv.add (a b : FIv) : FIv :=
  let clash := (a.hi = .inf false ∧ b.lo = .inf true) ∨ (a.lo = .inf true ∧ b.hi = .inf false)
  ⟨addEnd true a.lo b.lo, addEnd false a.hi b.hi, a.nan || b.nan || decide clash⟩

/-- IntervalMul before rounding. -/
def FIv.mul (a b : FIv) : FIv :=
  let p := [a.lo.mul b.lo, a.lo.mul b.hi, a.hi.mul b.lo, a.hi.mul b.hi].filter (fun x => !x.isNan)
  let nan := a.nan || b.nan || (a.hasZero && b.hasInf) || (b.hasZero && a.hasInf)
  match p with
  | [] => .all
  | x :: xs =>
    ⟨xs.foldl (fun m y => if y.lt m then y else m) x, xs.foldl (fun m y => if m.lt y then y else m) x, nan⟩

/-- IntervalFma before rounding (R206). -/
def FIv.fma (f : FFmt) (a b c : FIv) : FIv :=
  let p := a.mul b
  let q := f.outward p
  ⟨(p.add c).lo, (p.add c).hi, ((f.iv q.lo q.hi q.nan).add c).nan⟩

/-! ## Sources (R115, R120, R204) -/

/-- The element type of an instruction: `k` elements of `w` bits. -/
structure FTy where
  f : FFmt
  w : Nat
  k : Nat
  deriving DecidableEq, Repr

def tyF32 : FTy := ⟨f32, 32, 1⟩
def tyF64 : FTy := ⟨f64, 64, 1⟩
/-- The packed type that MOD names. -/
def tyPacked (mod : Nat) : FTy := ⟨if mod = 0 then f16 else bf16, 16, 2⟩
def FTy.regs (t : FTy) : Nat := if t.w = 64 then 2 else 1

/-- A conversion of a code between standard formats (R61, R72). -/
def convStd (a b : FFmt) (mode : Nat) (c : Nat) : Nat :=
  if a.isNan c then
    let m := c % 2 ^ a.mw
    let m' := if a.mw ≤ b.mw then m * 2 ^ (b.mw - a.mw) else m / 2 ^ (a.mw - b.mw)
    b.signed (bit c (a.ew + a.mw)) ((2 ^ b.ew - 1) * 2 ^ b.mw + (m' ||| 2 ^ (b.mw - 1)))
  else b.round mode 0 (a.dec c)

/-- LIT as an operand of a type: a binary32 value widened exactly for .f64. -/
def FTy.lit (t : FTy) (x : W32) : Nat := if t.w = 64 then convStd f32 f64 0 x.toNat else x.toNat

/-- A register field, or LIT in its place. -/
def Env.fsrc (v : Env) (t : FTy) (fld : Fld) : Raw :=
  if fld.isLit then Raw.of (t.lit v.h.lit) else v.raw fld t.regs

/-- Source B: VB, or IMM as the high bits of the value. -/
def Env.fsrcB (v : Env) (t : FTy) : Raw :=
  match v.b with
  | .i w => Raw.of (if w.immLit then t.lit w.h.lit else w.imm * 2 ^ (if t.w = 64 then 42 else 10))
  | b => v.fsrc t b.vb

/-! ## Elementwise instructions -/

/-- What an instruction does with element codes, and with element intervals. -/
structure FOp where
  pt : List Nat → Nat
  iv : List FIv → FIv

/-- An elementwise instruction on sources `srcs`. -/
def floatOp (v : Env) (t : FTy) (srcs : List Raw) (o : FOp) : Res :=
  let el (x : Nat) (i : Nat) : Nat := x >>> (t.w * i) % 2 ^ t.w
  let ix := List.range t.k
  if v.th.intv then
    let rs := ix.map (fun i => t.f.outward (o.iv (srcs.map (fun r => t.f.iv (el r.lo i) (el r.hi i) r.nan))))
    v.putRaw t.regs
      ⟨packInts t.w (rs.map (fun r => (r.lo : Int))), packInts t.w (rs.map (fun r => (r.hi : Int))), rs.any (·.nan)⟩
  else
    v.putRaw t.regs (Raw.of (packInts t.w (ix.map (fun i => (o.pt (srcs.map (fun r => el r.lo i)) : Int)))))

/-- The `i`-th of a list of codes, of intervals. -/
def nthC (l : List Nat) (i : Nat) : Nat := l[i]?.getD 0
def nthI (l : List FIv) (i : Nat) : FIv := l[i]?.getD .all

def opAdd (f : FFmt) (mode : Nat) : FOp :=
  ⟨fun l => f.result mode l (FV.add (mode = 3) (f.dec (nthC l 0)) (f.dec (nthC l 1))),
   fun l => (nthI l 0).add (nthI l 1)⟩
def opSub (f : FFmt) (mode : Nat) : FOp :=
  ⟨fun l => f.result mode l (FV.sub (mode = 3) (f.dec (nthC l 0)) (f.dec (nthC l 1))),
   fun l => (nthI l 0).add (nthI l 1).negate⟩
def opMul (f : FFmt) (mode : Nat) : FOp :=
  ⟨fun l => f.result mode l ((f.dec (nthC l 0)).mul (f.dec (nthC l 1))), fun l => (nthI l 0).mul (nthI l 1)⟩
/-- One rounding of the exact A·B + C (R199). -/
def opFma (f : FFmt) (mode : Nat) : FOp :=
  ⟨fun l => f.result mode l (FV.add (mode = 3) ((f.dec (nthC l 0)).mul (f.dec (nthC l 1))) (f.dec (nthC l 2))),
   fun l => FIv.fma f (nthI l 0) (nthI l 1) (nthI l 2)⟩

/-- A below B, with −0 below +0 (R200). -/
def FV.below (a b : FV) : Bool := a.lt b || (a.eq b && a.neg && !b.neg)

/-- FMIN, or FMAX with `mx`; `nanRule` is MOD 1 (R200, R206). -/
def opMin (f : FFmt) (mx nanRule : Bool) : FOp :=
  ⟨fun l =>
    let a := nthC l 0
    let b := nthC l 1
    let na := f.isNan a
    let nb := f.isNan b
    if (na && nb) || (nanRule && (na || nb)) then f.result 0 [a, b] (.nan false)
    else if na then b
    else if nb then a
    else if (f.dec a).below (f.dec b) = mx then b else a,
   fun l =>
    let a := nthI l 0
    let b := nthI l 1
    let le (x y : FV) : FV := if x.lt y then x else y
    let ge (x y : FV) : FV := if x.lt y then y else x
    let m : FIv := if mx then ⟨ge a.lo b.lo, ge a.hi b.hi, false⟩ else ⟨le a.lo b.lo, le a.hi b.hi, false⟩
    if nanRule then { m with nan := a.nan || b.nan }
    else
      let m1 := if a.nan then m.hull { b with nan := false } else m
      let m2 := if b.nan then m1.hull { a with nan := false } else m1
      { m2 with nan := a.nan && b.nan }⟩

/-- Meanings of two and of three sources. -/
def fbin (t : FTy) (o : Nat → FOp) : Meaning := fun v =>
  floatOp v t [v.fsrc t v.b.va, v.fsrcB t] (o v.h.var)
/-- C is VC, or in the I format the old VD (R198). -/
def ftri (t : FTy) (o : Nat → FOp) : Meaning := fun v =>
  let c := match v.b with
    | .i _ => v.raw v.b.vd t.regs
    | b => v.fsrc t b.vc
  floatOp v t [v.fsrc t v.b.va, v.fsrcB t, c] (o v.h.var)

def mFadd : Meaning := fbin tyF32 (opAdd f32)
def mFsub : Meaning := fbin tyF32 (opSub f32)
def mFmul : Meaning := fbin tyF32 (opMul f32)
def mFfma : Meaning := ftri tyF32 (opFma f32)
def mDadd : Meaning := fbin tyF64 (opAdd f64)
def mDmul : Meaning := fbin tyF64 (opMul f64)
def mDfma : Meaning := ftri tyF64 (opFma f64)
def mFmin : Meaning := fun v => fbin tyF32 (fun _ => opMin f32 false (v.h.mod = 1)) v
def mFmax : Meaning := fun v => fbin tyF32 (fun _ => opMin f32 true (v.h.mod = 1)) v
def mDmin : Meaning := fun v => fbin tyF64 (fun _ => opMin f64 false (v.h.mod = 1)) v
def mDmax : Meaning := fun v => fbin tyF64 (fun _ => opMin f64 true (v.h.mod = 1)) v
/-- Packed forms: the element format is MOD (R204). -/
def pk2 (o : FFmt → Nat → FOp) : Meaning := fun v => fbin (tyPacked v.h.mod) (o (tyPacked v.h.mod).f) v
def mPkadd : Meaning := pk2 opAdd
def mPksub : Meaning := pk2 opSub
def mPkmul : Meaning := pk2 opMul
def mPkfma : Meaning := fun v => ftri (tyPacked v.h.mod) (opFma (tyPacked v.h.mod).f) v
def mPkmin : Meaning := pk2 (fun f _ => opMin f false false)
def mPkmax : Meaning := pk2 (fun f _ => opMin f true false)

/-! ## Comparison (R201) -/

/-- Whether a relation code holds of an outcome. -/
def relHolds (cmp : Nat) (r : Rel) : Bool :=
  let base : Bool := match cmp % 8 with
    | 0 => r = .eq
    | 1 => r = .lt ∨ r = .gt
    | 2 => r = .lt
    | 3 => r = .lt ∨ r = .eq
    | 4 => r = .gt
    | 5 => r = .gt ∨ r = .eq
    | 6 => r ≠ .un
    | _ => r = .un
  base || (decide (8 ≤ cmp) && r == .un)

/-- The outcomes that two intervals allow. -/
def FIv.rels (a b : FIv) : List Rel :=
  (if a.lo.lt b.hi then [.lt] else []) ++ (if a.lo.le b.hi ∧ b.lo.le a.hi then [.eq] else []) ++
    (if b.lo.lt a.hi then [.gt] else []) ++ (if a.nan || b.nan then [.un] else [])

/-- FCMP and DCMP. -/
def fcmp (t : FTy) : Meaning := fun v =>
  let a := v.fsrc t v.b.va
  let (cmp, b) : Nat × Raw := match v.b with
    | .i w => (bits w.imm 18 4, Raw.of (bits w.imm 0 18 * 2 ^ 14))
    | x => (x.vc.num, v.fsrc t x.vb)
  let r := if v.th.intv then
      Tri.ofVals (((t.f.iv a.lo a.hi a.nan).rels (t.f.iv b.lo b.hi b.nan)).map (relHolds cmp))
    else Tri.ofBool (relHolds cmp ((t.f.dec a.lo).rel (t.f.dec b.lo)))
  v.putP v.b.vd (combine v.h.mod (v.p v.b.vd) r)

def mFcmp : Meaning := fcmp tyF32
def mDcmp : Meaning := fcmp tyF64

/-! ## Reciprocals, roots, elementary functions (R202, R203, R206) -/

/-- A meaning of one source with its interval rule. -/
def funary (t : FTy) (pt : Nat → Nat → Nat) (iv : Raw → FIv → FIv) : Meaning := fun v =>
  let a := v.fsrc t v.b.va
  floatOp v t [a] ⟨fun l => pt v.h.var (nthC l 0), fun l => iv a (nthI l 0)⟩

/-- Zero as the image of an infinite end. -/
def FV.inv (g : FV → FV) (x : FV) : FV := if x.isInf then .fin x.neg 0 0 else g x

/-- Ends widened by a bound; infinite ends stay. -/
def widen (a : FIv) (b : FV → FV) : FIv :=
  ⟨if a.lo.isInf then a.lo else FV.sub false a.lo (b a.lo), if a.hi.isInf then a.hi else FV.add false a.hi (b a.hi), a.nan⟩

/-- Reciprocals: ends 1/hi and 1/lo, widened. -/
def ivRecip (b : FV → FV) (a : FIv) : FIv :=
  if a.hasZero then ⟨.inf true, .inf false, a.nan⟩
  else widen ⟨FV.inv FV.recip a.hi, FV.inv FV.recip a.lo, a.nan⟩ b

def ivRsqrt (b : FV → FV) (a : FIv) : FIv :=
  let neg := a.lo.lt (.ofInt 0)
  if a.hi.lt (.ofInt 0) then .all
  else if a.hasZero then ⟨.inf true, .inf false, a.nan || neg⟩
  else widen ⟨FV.inv FV.rsqrt a.hi, FV.inv FV.rsqrt a.lo, a.nan⟩ b

/-- Square roots of the clipped ends. -/
def ivSqrt (a : FIv) : FIv :=
  let g (x : FV) : FV := if x.isInf then x else x.sqrt 40
  if a.hi.lt (.ofInt 0) then .all
  else if a.lo.lt (.ofInt 0) then ⟨.ofInt 0, g a.hi, true⟩ else ⟨g a.lo, g a.hi, a.nan⟩

def ivExp2 (a : FIv) : FIv :=
  let g (x : FV) : FV := match x with
    | .inf s => if s then .ofInt 0 else .inf false
    | y => exp2Any y
  widen ⟨g a.lo, g a.hi, a.nan⟩ (f32.ulps 2)

def ivLog2 (a : FIv) : FIv :=
  let g (x : FV) : FV :=
    if x.isZero || x.neg then .inf true
    else if x.isInf then .inf false
    else log2Val x
  let b (x y : FV) : FV := log2Bound x y
  if a.hi.lt (.ofInt 0) then .all
  else
    let l := g a.lo
    let h := g a.hi
    ⟨if l.isInf then l else FV.sub false l (b a.lo l), if h.isInf then h else FV.add false h (b a.hi h),
      a.nan || a.lo.lt (.ofInt 0)⟩

/-- Ends within −1 and 1. -/
def clip1 (a : FIv) : FIv :=
  ⟨if a.lo.lt (.ofInt (-1)) then .ofInt (-1) else a.lo, if (FV.ofInt 1).lt a.hi then .ofInt 1 else a.hi, a.nan⟩

/-- FSIN and FCOS. -/
def ivTrig (pt : Nat → Nat) (r : Raw) (a : FIv) : FIv :=
  let nan := a.nan || a.hasInf
  if a.isPt && !nan then
    let y := f32.dec (pt r.lo)
    clip1 (widen ⟨y, y, false⟩ (fun _ => .pow2 (-21)))
  else ⟨.ofInt (-1), .ofInt 1, nan⟩

def ivTanh (a : FIv) : FIv :=
  let g (x : FV) : FV :=
    if x.isInf ∨ x.tanhOne then .fin x.neg 1 0 else tanhVal x
  clip1 (widen ⟨g a.lo, g a.hi, a.nan⟩ (fun _ => .pow2 (-21)))

def mFrcp : Meaning := funary tyF32 (fun _ => frcpVal) (fun _ => ivRecip (f32.ulps 1))
def mFrsq : Meaning := funary tyF32 (fun _ => frsqVal) (fun _ => ivRsqrt (f32.ulps 1))
def mFsqrt : Meaning := funary tyF32 fsqrtVal (fun _ => ivSqrt)
def mFexp2 : Meaning := funary tyF32 (fun _ => fexp2Val) (fun _ => ivExp2)
def mFlog2 : Meaning := funary tyF32 (fun _ => flog2Val) (fun _ => ivLog2)
def mFsin : Meaning := funary tyF32 (fun _ => fsinVal) (ivTrig fsinVal)
def mFcos : Meaning := funary tyF32 (fun _ => fcosVal) (ivTrig fcosVal)
def mFtanh : Meaning := funary tyF32 (fun _ => ftanhVal) (fun _ => ivTanh)
def mDrcp : Meaning := funary tyF64 (fun _ => drcpVal) (fun _ => ivRecip (fun y => y.abs.mul (.pow2 (-23))))

/-! ## IDOT4 (R205, R206) -/

def mIdot4 : Meaning := fun v =>
  let t := ity v.h.var
  let acc : ITy := ⟨t.sg, 32, 1⟩
  let sat : Bool := v.h.mod = 1
  let a := v.raw v.b.va 1
  let b := v.raw v.b.vb 1
  let c := v.raw v.b.vc 1
  let ix := List.range 4
  if v.th.intv then
    let p (i : Nat) : Ext := (t.ext (a.lo >>> (8 * i)) (a.hi >>> (8 * i))).mul (t.ext (b.lo >>> (8 * i)) (b.hi >>> (8 * i)))
    let e := acc.fit sat ((ix.map p).foldl Ext.add (acc.ext c.lo c.hi))
    v.putRaw 1 ⟨wrap 32 e.1, wrap 32 e.2, false⟩
  else
    let p (i : Nat) : Int := t.val (a.lo >>> (8 * i)) * t.val (b.lo >>> (8 * i))
    let x := (ix.map p).foldl (· + ·) (acc.val c.lo)
    v.putRaw 1 (Raw.of (wrap 32 (if sat then acc.clamp x else x)))

/-! ## The instructions -/

/-- FADD (R199). -/
def execFaddT (w : TWord) (s : State) : Host.Outcome State Fault Refusal := commit (issue 0x60 (.t w) mFadd) s
/-- FSUB (R199). -/
def execFsub (w : TWord) (s : State) : Host.Outcome State Fault Refusal := commit (issue 0x61 (.t w) mFsub) s
/-- FMUL (R199). -/
def execFmulT (w : TWord) (s : State) : Host.Outcome State Fault Refusal := commit (issue 0x62 (.t w) mFmul) s
/-- FFMA (R199). -/
def execFfmaT (w : TWord) (s : State) : Host.Outcome State Fault Refusal := commit (issue 0x63 (.t w) mFfma) s
/-- FMIN (R200). -/
def execFminT (w : TWord) (s : State) : Host.Outcome State Fault Refusal := commit (issue 0x64 (.t w) mFmin) s
/-- FMAX (R200). -/
def execFmaxT (w : TWord) (s : State) : Host.Outcome State Fault Refusal := commit (issue 0x65 (.t w) mFmax) s
/-- FCMP (R201). -/
def execFcmpT (w : TWord) (s : State) : Host.Outcome State Fault Refusal := commit (issue 0x66 (.t w) mFcmp) s
/-- FRCP (R202). -/
def execFrcp (w : TWord) (s : State) : Host.Outcome State Fault Refusal := commit (issue 0x67 (.t w) mFrcp) s
/-- FRSQ (R202). -/
def execFrsq (w : TWord) (s : State) : Host.Outcome State Fault Refusal := commit (issue 0x68 (.t w) mFrsq) s
/-- FSQRT (R202). -/
def execFsqrt (w : TWord) (s : State) : Host.Outcome State Fault Refusal := commit (issue 0x69 (.t w) mFsqrt) s
/-- FEXP2 (R202). -/
def execFexp2 (w : TWord) (s : State) : Host.Outcome State Fault Refusal := commit (issue 0x6A (.t w) mFexp2) s
/-- FLOG2 (R202). -/
def execFlog2 (w : TWord) (s : State) : Host.Outcome State Fault Refusal := commit (issue 0x6B (.t w) mFlog2) s
/-- FSIN (R202). -/
def execFsin (w : TWord) (s : State) : Host.Outcome State Fault Refusal := commit (issue 0x6C (.t w) mFsin) s
/-- FCOS (R202). -/
def execFcos (w : TWord) (s : State) : Host.Outcome State Fault Refusal := commit (issue 0x6D (.t w) mFcos) s
/-- FTANH (R202). -/
def execFtanh (w : TWord) (s : State) : Host.Outcome State Fault Refusal := commit (issue 0x6E (.t w) mFtanh) s
/-- DADD (R199). -/
def execDaddT (w : TWord) (s : State) : Host.Outcome State Fault Refusal := commit (issue 0x70 (.t w) mDadd) s
/-- DMUL (R199). -/
def execDmulT (w : TWord) (s : State) : Host.Outcome State Fault Refusal := commit (issue 0x71 (.t w) mDmul) s
/-- DFMA (R199). -/
def execDfma (w : TWord) (s : State) : Host.Outcome State Fault Refusal := commit (issue 0x72 (.t w) mDfma) s
/-- DMIN (R200). -/
def execDmin (w : TWord) (s : State) : Host.Outcome State Fault Refusal := commit (issue 0x73 (.t w) mDmin) s
/-- DMAX (R200). -/
def execDmax (w : TWord) (s : State) : Host.Outcome State Fault Refusal := commit (issue 0x74 (.t w) mDmax) s
/-- DCMP (R201). -/
def execDcmp (w : TWord) (s : State) : Host.Outcome State Fault Refusal := commit (issue 0x75 (.t w) mDcmp) s
/-- DRCP (R202). -/
def execDrcp (w : TWord) (s : State) : Host.Outcome State Fault Refusal := commit (issue 0x76 (.t w) mDrcp) s
/-- PKADD (R204). -/
def execPkadd (w : TWord) (s : State) : Host.Outcome State Fault Refusal := commit (issue 0x77 (.t w) mPkadd) s
/-- PKMUL (R204). -/
def execPkmul (w : TWord) (s : State) : Host.Outcome State Fault Refusal := commit (issue 0x78 (.t w) mPkmul) s
/-- PKFMA (R204). -/
def execPkfma (w : TWord) (s : State) : Host.Outcome State Fault Refusal := commit (issue 0x79 (.t w) mPkfma) s
/-- PKSUB (R204). -/
def execPksub (w : TWord) (s : State) : Host.Outcome State Fault Refusal := commit (issue 0x7A (.t w) mPksub) s
/-- PKMIN (R204). -/
def execPkmin (w : TWord) (s : State) : Host.Outcome State Fault Refusal := commit (issue 0x7B (.t w) mPkmin) s
/-- PKMAX (R204). -/
def execPkmax (w : TWord) (s : State) : Host.Outcome State Fault Refusal := commit (issue 0x7C (.t w) mPkmax) s
/-- IDOT4 (R205). -/
def execIdot4 (w : TWord) (s : State) : Host.Outcome State Fault Refusal := commit (issue 0x7D (.t w) mIdot4) s
/-- FADD with an immediate (R199). -/
def execFaddI (w : IWord) (s : State) : Host.Outcome State Fault Refusal := commit (issue 0x80 (.i w) mFadd) s
/-- FMUL with an immediate (R199). -/
def execFmulI (w : IWord) (s : State) : Host.Outcome State Fault Refusal := commit (issue 0x81 (.i w) mFmul) s
/-- FFMA with an immediate (R199). -/
def execFfmaI (w : IWord) (s : State) : Host.Outcome State Fault Refusal := commit (issue 0x82 (.i w) mFfma) s
/-- FMIN with an immediate (R200). -/
def execFminI (w : IWord) (s : State) : Host.Outcome State Fault Refusal := commit (issue 0x83 (.i w) mFmin) s
/-- FMAX with an immediate (R200). -/
def execFmaxI (w : IWord) (s : State) : Host.Outcome State Fault Refusal := commit (issue 0x84 (.i w) mFmax) s
/-- FCMP with an immediate (R201). -/
def execFcmpI (w : IWord) (s : State) : Host.Outcome State Fault Refusal := commit (issue 0x85 (.i w) mFcmp) s
/-- DADD with an immediate (R199). -/
def execDaddI (w : IWord) (s : State) : Host.Outcome State Fault Refusal := commit (issue 0x86 (.i w) mDadd) s
/-- DMUL with an immediate (R199). -/
def execDmulI (w : IWord) (s : State) : Host.Outcome State Fault Refusal := commit (issue 0x87 (.i w) mDmul) s

end Sys2Proof.Machine
end

