-- ==== Sys2Proof/Machine/Convert.lean ====
section
/-! DEFINITION. Conversions between integers, standard floats, E8M0 and narrow formats (R62-R73, R207-R211). -/

namespace Sys2Proof.Machine

/-- A type of R207. -/
inductive CTy
  | int (t : ITy)
  | flt (f : FFmt)
  | e8
  deriving DecidableEq, Repr

def ctype (c : Nat) : CTy :=
  match c with
  | 0 => .int ⟨true, 8, 1⟩
  | 1 => .int ⟨false, 8, 1⟩
  | 2 => .int ⟨true, 16, 1⟩
  | 3 => .int ⟨false, 16, 1⟩
  | 4 => .int ⟨true, 32, 1⟩
  | 5 => .int ⟨false, 32, 1⟩
  | 6 => .int ⟨true, 64, 1⟩
  | 7 => .int ⟨false, 64, 1⟩
  | 8 => .flt f16
  | 9 => .flt bf16
  | 10 => .flt f32
  | 11 => .flt f64
  | _ => .e8

def CTy.width : CTy → Nat
  | .int t => t.w
  | .flt f => f.width
  | .e8 => 8

/-- The value of a code. -/
def CTy.val (t : CTy) (c : Nat) : FV :=
  match t with
  | .int t => .ofInt (t.val c)
  | .flt f => f.dec (c % 2 ^ f.width)
  | .e8 => decE8 (c % 256)

/-- A value as an integer of a type (R73). -/
def FV.clampInt (t : ITy) (mode : Nat) (x : FV) : Int :=
  match x with
  | .nan _ => 0
  | .inf s => if s then t.min else t.max
  | y => t.clamp (y.toInt mode)

/-- Saturate before rounding, for CVTS and .sat (R72). -/
def satIf (sat : Bool) (f : FFmt) (x : FV) : FV := if sat then f.saturate x else x

/-- A conversion of one code (R208): the destination register's bits. -/
def convPt (src dst : CTy) (sat : Bool) (mode c : Nat) : Nat :=
  match dst with
  | .int b =>
    let x := match src with
      | .int a => if sat then b.clamp (a.val c) else b.val (wrap b.w (a.val c))
      | _ => FV.clampInt b mode (src.val c)
    wrap (max 32 b.w) x
  | .flt b =>
    match src with
    | .flt a => if a.isNan (c % 2 ^ a.width) then convStd a b mode (c % 2 ^ a.width) else b.round mode 0 (satIf sat b (src.val c))
    | _ => if (src.val c).isNan then b.defNan else b.round mode 0 (satIf sat b (src.val c))
  | .e8 =>
    match src.val c with
    | .inf false => if sat then 254 else 255
    | x => encE8 x

/-- The values of an interval register of a type. -/
def CTy.iv (t : CTy) (r : Raw) : FIv :=
  match t with
  | .int a =>
    let e := a.ext r.lo r.hi
    ⟨.ofInt e.1, .ofInt e.2, false⟩
  | .flt f => f.iv (r.lo % 2 ^ f.width) (r.hi % 2 ^ f.width) r.nan
  | .e8 =>
    let l := r.lo % 256
    let h := r.hi % 256
    if l = 255 ∨ h < l then .all else ⟨decE8 l, decE8 (min h 254), r.nan || decide (h = 255)⟩

/-- A conversion of an interval (R211). -/
def convIv (src dst : CTy) (sat : Bool) (r : Raw) : Raw :=
  let a := src.iv r
  match dst with
  | .int b =>
    let e : Ext := match src with
      | .int a => b.fit sat (a.ext r.lo r.hi)
      | _ =>
        let e : Ext := (FV.clampInt b 3 a.lo, FV.clampInt b 2 a.hi)
        if a.nan then e.hull (0, 0) else e
    ⟨wrap (max 32 b.w) e.1, wrap (max 32 b.w) e.2, false⟩
  | .flt b => b.outward ⟨satIf sat b a.lo, satIf sat b a.hi, a.nan⟩
  | .e8 =>
    if a.hi.le (.ofInt 0) then ⟨0, 254, true⟩
    else
      ⟨if a.lo.le (.ofInt 0) then 0 else min 254 (encE8 a.lo),
       if a.hi.isInf then 254 else encE8 a.hi,
       a.nan || a.lo.le (.ofInt 0) || (a.hi.isInf && !sat)⟩

/-- CVT, and CVTS with `sat`: types in IMM, rounding in VAR. -/
def cvtM (sat : Bool) : Meaning := fun v =>
  let dc := bits v.b.imm 0 6
  let sc := bits v.b.imm 6 6
  let a := v.raw v.b.va (cvtRegs sc)
  let n := cvtRegs dc
  v.putRaw n (if v.th.intv then convIv (ctype sc) (ctype dc) sat a
    else Raw.of (convPt (ctype sc) (ctype dc) sat v.h.var (a.lo % 2 ^ (ctype sc).width)))

def mCvt : Meaning := cvtM false
def mCvts : Meaning := cvtM true

/-! ## Narrow elements (R67, R209, R210) -/

/-- Bits of a WID. -/
def widBits (wid : Nat) : Nat :=
  match wid with
  | 0 => 4
  | 1 => 6
  | _ => 8

/-- Bits that an element takes in a register. -/
def widSlot (wid : Nat) : Nat := if wid = 0 then 4 else 8

/-- Element `pos` of a register, and a register with it replaced. -/
def getElem (wid pos x : Nat) : Nat := bits x (widSlot wid * pos) (widBits wid)
def putElem (wid pos x c : Nat) : Nat :=
  let k := widSlot wid
  x - bits x (k * pos) k * 2 ^ (k * pos) + c * 2 ^ (k * pos)

/-- The format of a named register, or the FORMAT trap when its width is not WID's (R63, R403). -/
def Env.narrow (v : Env) (freg wid : Nat) (k : FFmt → Res) : Res :=
  let f := narrowFmt (v.f.freg freg)
  if f.width ≠ widBits wid then .trap cFORMAT 0 (BitVec.ofNat 64 freg) else k f

/-- An interval narrowed into a format: a NaN source delivers what R65 gives, a value where the format has no NaN (R82,
R211). -/
def FFmt.narrowIv (f : FFmt) (sat : Bool) (a : FIv) : Raw :=
  let e : FIv := ⟨satIf sat f a.lo, satIf sat f a.hi, a.nan⟩
  let x := f.dec (f.nanCode false)
  if a.nan && !x.isNan then f.outward (FIv.hull { e with nan := false } ⟨x, x, false⟩) else f.outward e

/-- Narrows standard values, given with their intervals, into elements from `pos` on of the old destination. -/
def Env.narrowTo (v : Env) (f : FFmt) (wid pos : Nat) (sat : Bool) (xs : List FIv) : Res :=
  let old := v.raw v.b.vd 1
  let put (x : Nat) (cs : List Nat) : Nat := (cs.zipIdx pos).foldl (fun x (c, i) => putElem wid i x c) x
  if v.th.intv then
    let rs := xs.map (f.narrowIv sat)
    v.putRaw 1 ⟨put old.lo (rs.map (·.lo)), put old.hi (rs.map (·.hi)), old.nan || rs.any (·.nan)⟩
  else
    let (cs, st) := roundAll f v.h.var v.th.srstate (xs.map (fun a => satIf sat f a.lo))
    v.put (fun th => { th.wrN 1 v.b.vd (put old.lo cs) with srstate := st })

/-- A source code as value and interval. -/
def Env.stdVal (v : Env) (t : CTy) (r : Raw) : FIv :=
  if v.th.intv then t.iv r
  else
    let x := t.val r.lo
    ⟨x, x, false⟩

/-- A narrow element as a standard code, saturated before rounding with `sat` (R209, log 30). -/
def widenEl (f : FFmt) (std : FFmt) (sat : Bool) (mode c : Nat) : Nat :=
  let x := f.dec c
  if x.isNan then std.defNan else std.round mode 0 (satIf sat std x)
def widenIv (f std : FFmt) (sat : Bool) (lo hi : Nat) (nan : Bool) : Raw := std.narrowIv sat (f.iv lo hi nan)

/-- CVTN (R209). -/
def mCvtn : Meaning := fun v =>
  let imm := v.b.imm
  let wid := bits imm 3 2
  let pos := bits imm 10 3
  let std := bits imm 6 4
  v.narrow (bits imm 0 3) wid (fun f =>
    if bit imm 5 = false then
      v.narrowTo f wid pos (v.h.mod = 1) [v.stdVal (ctype std) (v.raw v.b.va (cvtRegs std))]
    else
      match ctype std with
      | .flt g =>
        let a := v.raw v.b.va 1
        v.putRaw (cvtRegs std)
          (if v.th.intv then widenIv f g (v.h.mod = 1) (getElem wid pos a.lo) (getElem wid pos a.hi) a.nan
          else Raw.of (widenEl f g (v.h.mod = 1) v.h.var (getElem wid pos a.lo)))
      | _ => .done skip)

/-- PACKN (R210). -/
def mPackn : Meaning := fun v =>
  let c := v.b.vc.num
  let wid := bits c 3 2
  v.narrow (bits c 0 3) wid (fun f =>
    v.narrowTo f wid (bits c 5 3) (v.h.mod = 1)
      [v.stdVal (.flt f32) (v.raw v.b.va 1), v.stdVal (.flt f32) (v.raw v.b.vb 1)])

/-- UNPACKN (R210). -/
def mUnpackn : Meaning := fun v =>
  let c := v.b.vc.num
  let wid := bits c 3 2
  let p := bits c 5 3
  let a := v.raw v.b.va 1
  v.narrow (bits c 0 3) wid (fun f =>
    let el (i : Nat) : Raw :=
      if v.th.intv then widenIv f f32 false (getElem wid (p + i) a.lo) (getElem wid (p + i) a.hi) a.nan
      else Raw.of (widenEl f f32 false v.h.var (getElem wid (p + i) a.lo))
    v.put (fun th =>
      if v.th.intv then
        if v.b.vd.isVz then th
        else
          let d := (v.b.vd.index th).toNat
          let w (i : Nat) (th : Thread) : Thread :=
            th.setIv (d + i) (BitVec.ofNat 32 (el i).lo) (BitVec.ofNat 32 (el i).hi) (el i).nan
          w 1 (w 0 th)
      else th.wrN 2 v.b.vd ((el 0).lo + 2 ^ 32 * (el 1).lo)))

/-! ## The instructions -/

/-- CVT (R208). -/
def execCvt (w : IWord) (s : State) : Host.Outcome State Fault Refusal := commit (issue 0x88 (.i w) mCvt) s
/-- CVTN (R209). -/
def execCvtn (w : IWord) (s : State) : Host.Outcome State Fault Refusal := commit (issue 0x89 (.i w) mCvtn) s
/-- CVTS (R208). -/
def execCvts (w : IWord) (s : State) : Host.Outcome State Fault Refusal := commit (issue 0x8A (.i w) mCvts) s
/-- PACKN (R210). -/
def execPackn (w : TWord) (s : State) : Host.Outcome State Fault Refusal := commit (issue 0x8B (.t w) mPackn) s
/-- UNPACKN (R210). -/
def execUnpackn (w : TWord) (s : State) : Host.Outcome State Fault Refusal := commit (issue 0x8C (.t w) mUnpackn) s

end Sys2Proof.Machine
end

