-- ==== Sys2Proof/Machine/L1.lean ====
section
/-! DEFINITION. The L1 data caches and what a core sees in them before its stores reach the slices
(R111, R214-R216, R271, R273, R278). Lines are named by their DRAM address before any slice move (R332). -/

namespace Sys2Proof.Machine

/-- Lines that an L1 holds: 256 KiB. -/
def l1Lines : Nat := 2048

def Core.line? (c : Core) (ln : Nat) : Option L1Line := c.l1.find? (fun l => l.line = ln)
def Core.drop (c : Core) (ln : Nat) : Core := { c with l1 := c.l1.filter (fun l => l.line ≠ ln) }
/-- The highest recency in use. -/
def Core.newest (c : Core) : Nat := c.l1.foldl (fun m l => max m l.used) 0

/-- Puts a line into an L1 under a hint (R111): MOD 1 as least recently used, replacing no line that MOD 3 keeps. -/
def Core.fill (c : Core) (ln : Nat) (data : List Byte) (stamp mod : Nat) : Core :=
  let c := c.drop ln
  let new : L1Line := ⟨ln, data, stamp, mod = 3, if mod = 1 then 0 else c.newest + 1⟩
  if c.l1.length < l1Lines then { c with l1 := new :: c.l1 }
  else
    match c.l1.filter (fun l => !(mod = 1 && l.keep)) with
    | [] => c
    | x :: xs =>
      let old := xs.foldl (fun a b => if b.used < a.used then b else a) x
      { c.drop old.line with l1 := new :: (c.drop old.line).l1 }

/-- A hit's recency under a hint. -/
def Core.touch (c : Core) (ln mod : Nat) : Core :=
  let n := c.newest + 1
  { c with l1 := c.l1.map (fun l =>
      if l.line = ln then { l with used := if mod = 1 then 0 else n, keep := l.keep || mod = 3 } else l) }

/-- The bytes that a store lays over a line. -/
def Req.over (q : Req) (ln : Nat) (data : List Byte) : List Byte :=
  match q.loc with
  | .dram pa => if pa / 128 = ln then overlay data (pa % 128) q.data else data
  | _ => data

/-- A store to DRAM that L1 can show. -/
def Req.plainStore (q : Req) : Bool :=
  match q.kind, q.loc with
  | .st, .dram _ => !q.nc
  | .stf _, .dram _ => !q.nc
  | .zfill, .dram _ => !q.nc
  | _, _ => false

/-- Stores of a core that have not reached the slice and touch a line. -/
def Dev.unreached (d : Dev) (core ln : Nat) : List Req :=
  d.reqs.filter (fun q => q.ref.core = core && q.plainStore && !q.performed &&
    (match q.loc with
      | .dram pa => pa / 128 == ln
      | _ => false))

/-- The stores shown in a core's L1 that reach the slice later, laid over a line. -/
def Dev.shown (d : Dev) (core ln : Nat) (data : List Byte) : List Byte :=
  ((d.unreached core ln).filter (·.l1)).foldl (fun x q => q.over ln x) data

/-- Makes a store visible in its core's L1: its slice order follows the core's earlier stores to its bytes (R273). -/
def l1Show (q : Req) : Dev → Dev := fun d =>
  let before := (d.reqs.filter (fun p => p.ref.core = q.ref.core && p.plainStore && !p.performed &&
    decide (p.id < q.id) && p.loc.overlaps p.n q.loc q.n)).map (fun p => (p.id, false))
  d.modReq q.id (fun x => { x with l1 := true, after := x.after ++ before })

/-- A mark on a core's L1 copy of a line. -/
def onL1 (core ln : Nat) (m : Mark) : Bool :=
  match m.1 with
  | .l1 c pa => c = core ∧ pa / 128 = ln
  | _ => false

/-- A read of an L1 line meets the faults of its words (R377): corrected, or the line is invalidated, to be fetched
again with the core's unsent stores merged. -/
def l1Check (core ctx ln : Nat) : Eff := look fun s =>
  let ms := s.dev.marks.filter (onL1 core ln)
  if ms = [] ∨ ((s.dev.core core).line? ln).isNone then skip
  else
    seqE [
      forE ms (fun m => let (bank, code, inst, addr) := markBank m.1; eccRecord bank 1 (some ctx) code inst addr),
      upd (unmark ms),
      whenE (ms.any (·.2)) (upd (fun d => d.modCore core (fun c => c.drop ln))) ]

/-- A refill (R273): the core's unreached stores to the line that may be performed are merged into it. -/
def l1Refill (core ln : Nat) (data : List Byte) (mod : Nat) : Dev → Dev := fun d0 =>
  let d := { d0 with marks := d0.marks.filter (fun m => !onL1 core ln m) }
  let ms := (d.unreached core ln).filter (fun q => q.l1 || q.mayPerform d)
  let d1 := ms.foldl (fun d q => l1Show q d) d
  { (d1.modCore core (fun c => c.fill ln (d1.shown core ln data) d1.nextId mod)) with nextId := d1.nextId + 1 }

/-- Bytes reach the slice from a core: its L1 copy shows them below the stores still on their way. -/
def l1Write (core pa : Nat) (bs : List Byte) : Dev → Dev := fun d =>
  match (d.core core).line? (pa / 128) with
  | none => d
  | some l =>
    let data := d.shown core (pa / 128) (overlay l.data (pa % 128) bs)
    d.modCore core (fun c =>
      { c with l1 := c.l1.map (fun x => if x.line = pa / 128 then { x with data := data } else x) })

/-- A store that could not act on its core's L1 copy at issue acts there as it reaches its slice, under its hint
(R214). -/
def l1Late (q : Req) (pa : Nat) (bs : List Byte) : Dev → Dev := fun d =>
  if q.plainStore && !q.l1 && q.hint = 2 then d.modCore q.ref.core (fun c => c.drop (pa / 128))
  else
    let d1 := l1Write q.ref.core pa bs d
    if q.plainStore && !q.l1 && q.hint ≠ 0 && ((d.core q.ref.core).line? (pa / 128)).isSome then
      d1.modCore q.ref.core (fun c => c.touch (pa / 128) q.hint)
    else d1

/-- A write through the BF16 view drops its core's copies of the storage lines (R273, R274). -/
def l1DropMx (core : Nat) (loc : Loc) (n : Nat) : Dev → Dev := fun d =>
  let touched (ln : Nat) : Bool := (loc.spans n).any (fun x => x.1 / 128 ≤ ln && ln ≤ (x.1 + x.2 - 1) / 128)
  { (d.modCore core (fun c => { c with l1 := c.l1.filter (fun l => !touched l.line) })) with
    reqs := d.reqs.map (fun q =>
      match q.loc with
      | .dram pa => if q.ref.core = core ∧ touched (pa / 128) ∧ q.performed ∧ !q.plainStore then { q with nc := true } else q
      | _ => q) }

/-- Loads of the core in flight that hold a value of the line no longer fill L1. -/
def l1Stale (core ln : Nat) : Dev → Dev := fun d =>
  { d with reqs := d.reqs.map (fun q =>
      match q.loc with
      | .dram pa => if q.ref.core = core ∧ pa / 128 = ln ∧ q.performed ∧ !q.plainStore then { q with nc := true } else q
      | _ => q) }

/-- At issue, a store acts on the L1 copy of its core if it may be performed (R214, R271): MOD 2 invalidates it, the
others update it. -/
def l1Store (q : Req) : Dev → Dev := fun d =>
  match q.loc with
  | .dram pa =>
    let ln := pa / 128
    if !q.plainStore || ((d.core q.ref.core).line? ln).isNone then d
    else if q.hint = 2 then d.modCore q.ref.core (fun c => c.drop ln)
    else if q.mayPerform d then
      let d1 := l1Show q d
      let touch := if q.hint = 0 then id else fun (c : Core) => c.touch ln q.hint
      d1.modCore q.ref.core (fun c => touch { c with l1 := c.l1.map (fun x =>
        if x.line = ln then { x with data := q.over ln x.data } else x) })
    else d
  | _ => d

/-- Whether a plain load may be served by its core's L1 (R214-R216): no acquire at a wide scope, no acquire of the
thread still open, its own stores to the place shown there, no load of the place in flight, and a line filled since
the thread's last acquire. -/
def Dev.l1Hit (d : Dev) (th : Thread) (q : Req) : Option L1Line :=
  match q.loc with
  | .dram pa =>
    let mine := d.inFlight q.ref
    let here := mine.filter (fun p => p.loc.overlaps p.n q.loc q.n)
    let acq (p : Req) : Bool := (p.ord == 1 || p.ord == 3) && decide (2 ≤ p.scope)
    if q.nc ∨ acq q ∨ mine.any (fun p => p.kind.isLoad && acq p) ∨ th.after.any (fun x => !d.isDone x) ∨
        here.any (fun p => !(p.kind.isStore && (p.performed || p.l1))) then none
    else ((d.core q.ref.core).line? (pa / 128)).filter (fun l => decide (th.l1floor ≤ l.stamp) && d.choose)
  | _ => none

end Sys2Proof.Machine
end

