-- ==== Sys2Proof/Machine/Control.lean ====
section
/-! DEFINITION. Control flow, ending and demoting threads, committing, traps, barriers, LAUNCH (R47-R49, R54, R161-R171). -/

namespace Sys2Proof.Machine

/-- Taken branches to an address at or below the branch word that an interval thread may take (R295). -/
def backLimit : Nat := 1024

/-- A taken branch from the word at the thread's PC (R122, R162, R295). -/
def Env.branch (v : Env) (target : W64) : Res :=
  if v.th.intv ∧ target.toNat ≤ v.th.pc.toNat then
    if backLimit ≤ v.th.iv.back then .jump (retire v.r .unknown)
    else .jump (updT v.r (fun th => { th.goTo target th.pc with iv := { th.iv with back := th.iv.back + 1 } }))
  else .jump (updT v.r (fun th => th.goTo target th.pc))

/-- Target of a B-format word (R117). -/
def Env.target (v : Env) : W64 :=
  match v.b with
  | .b x => v.th.pc + 8 * (BitVec.ofNat 24 x.off).signExtend 64
  | _ => v.th.pc

/-- PCN (R162): the word after the instruction and its literal. -/
def Env.pcn (v : Env) : W64 := v.th.pc + BitVec.ofNat 64 (8 * v.words)

/-- A target pair: in interval mode EXACT when a point, else NONE (R165). -/
def Env.targetPair (v : Env) (k : W64 → Res) : Res :=
  let a := v.raw v.b.va 2
  if v.th.intv ∧ a.pt = false then noneRule v else k (BitVec.ofNat 64 a.lo)

def mNop : Meaning := fun _ => .done skip
def mBra : Meaning := fun v => v.branch v.target

/-- BRC: MOD selects nz, z, lt, ge against zero. -/
def mBrc : Meaning := fun v =>
  let t := ity 0
  let a := v.raw v.b.va 1
  let c := match v.h.mod with
    | 0 => 1
    | 1 => 0
    | 2 => 2
    | _ => 5
  match (if v.th.intv then compareExt c (t.ext a.lo a.hi) (0, 0) else Tri.ofBool (compareInt c (t.val a.lo) 0)) with
  | .t => v.branch v.target
  | .f => .done skip
  | .u => .jump (retire v.r .unknown)

/-- A branch that first sets RETADDR. -/
def Env.call (v : Env) (ra target : W64) : Res :=
  match v.branch target with
  | .jump e => .jump ((updT v.r (fun th => { th with retaddr := ra })).andThen e)
  | x => x

def mCall : Meaning := fun v => v.call (v.th.pc + 8) v.target
def mCalli : Meaning := fun v => v.targetPair (fun a => v.call v.pcn a)
def mJmpi : Meaning := fun v => v.targetPair v.branch
def mRet : Meaning := fun v => if v.th.retaddr = 0 then .trap cTARGET 0 v.th.pc else v.branch v.th.retaddr

/-- EXIT (R47, R160, R295). -/
def mExit : Meaning := fun v => .jump (retire v.r (if v.th.intv then .decided else .exited))

/-- DEMOTE (R48). -/
def mDemote : Meaning := both (fun v => v.put (fun th => { th with helper := true })) noneRule

/-- COMMIT (R54); no effect in interval mode. -/
def mCommit : Meaning := both (fun v => .done (upd (commitFlock v.r.core v.r.slot))) (fun _ => .done skip)

/-- YIELD (R164): not ready for the next 8 granted slots; no effect on the access engine. -/
def mYield : Meaning := fun v =>
  if v.r.t = instId then .done skip else v.put (fun th => { th with wait := .yield 8 })

/-- TRAP (R166). -/
def mTrap : Meaning := fun v => .trap cSOFTWARE (bits v.b.imm 0 16) 0

/-- RTT (R166, R400): a TRAPPC that is no code address traps at resumption, with INTRAP clear. -/
def mRtt : Meaning := fun v =>
  if v.th.trap.intrap = false then .trap cPRIV 0 0
  else
    let to_ := v.th.trap.pc
    let go (hdr : Bool) : Eff := updT v.r (fun th => th.return hdr)
    let bad : Eff := (go false).andThen (takeTrap v.r cTARGET 0 v.th.pc to_)
    .jump (if to_.toNat % 8 ≠ 0 then bad
      else
        match fetchAt v.s v.f to_.toNat with
        | .word w _ => go (rdHeader w).isSome
        | .denied => bad
        | _ => go false)

/-- BAR and HBAR (R168-R170): the thread has arrived. -/
def mBar : Meaning := both
  (fun v => .done ((updT v.r (fun th => { th with wait := .bar })).andThen (barriers v.r.core v.r.slot))) noneRule
def mHbar : Meaning := both
  (fun v => .done ((updT v.r (fun th => { th with wait := .hbar })).andThen (barriers v.r.core v.r.slot))) noneRule

/-- The generic address of a word's parameter block (R118, R399). -/
def Env.blkAddr (v : Env) : W64 := BitVec.ofNat 64 (0xFF * 2 ^ 56 + v.blkOff)

/-- The 64 bytes of the parameter block, or none where R118 is broken. -/
def Env.blk (v : Env) : Option (List Byte) :=
  match v.b with
  | .e x =>
    if (v.v32 x.va).toNat % 64 ≠ 0 ∨ v.f.kern.spadBytes < v.blkOff + 64 then none
    else some (v.s.point (.spad v.r.core v.r.slot v.blkOff) 64)
  | _ => none

/-- An instruction with a parameter block. -/
def Env.withBlk (v : Env) (k : List Byte → Res) : Res :=
  match v.blk with
  | none => .trap cOPERAND 0xFFFF v.blkAddr
  | some b => k b

/-- Field of a block: `n` bytes at offset `o`. -/
def field (b : List Byte) (o n : Nat) : Nat := leNat ((b.drop o).take n)

/-- A reserved field of a LAUNCH block is not zero (R313). -/
def launchRsvd (b : List Byte) : Bool := decide (bits (field b 0x18 8) 38 10 ≠ 0 ∨ bits (field b 0x18 8) 32 1 ≠ 0)

/-- LAUNCH (R171): commits the flock; the thread waits for the control plane with its block. -/
def mLaunch : Meaning := both
  (fun v => v.withBlk (fun b =>
    let d := if v.b.vd.isVz then 2047 else (v.b.vd.index v.th).toNat
    if launchRsvd b then .trap cOPERAND 0x18 v.blkAddr
    else .done ((upd (commitFlock v.r.core v.r.slot)).andThen
      (updT v.r (fun th => { th with wait := .launch d b })))))
  noneRule

/-! ## The instructions -/

/-- NOP (R164). -/
def execNop (w : TWord) (s : State) : Host.Outcome State Fault Refusal := commit (issue 0x00 (.t w) mNop) s
/-- BRA (R162). -/
def execBra (w : BWord) (s : State) : Host.Outcome State Fault Refusal := commit (issue 0x01 (.b w) mBra) s
/-- BRC (R162). -/
def execBrc (w : BWord) (s : State) : Host.Outcome State Fault Refusal := commit (issue 0x02 (.b w) mBrc) s
/-- CALL (R162). -/
def execCall (w : BWord) (s : State) : Host.Outcome State Fault Refusal := commit (issue 0x03 (.b w) mCall) s
/-- CALLI (R162). -/
def execCalli (w : TWord) (s : State) : Host.Outcome State Fault Refusal := commit (issue 0x04 (.t w) mCalli) s
/-- JMPI (R162). -/
def execJmpi (w : TWord) (s : State) : Host.Outcome State Fault Refusal := commit (issue 0x05 (.t w) mJmpi) s
/-- RET (R162, R163). -/
def execRet (w : TWord) (s : State) : Host.Outcome State Fault Refusal := commit (issue 0x06 (.t w) mRet) s
/-- EXIT (R47). -/
def execExit (w : TWord) (s : State) : Host.Outcome State Fault Refusal := commit (issue 0x07 (.t w) mExit) s
/-- DEMOTE (R48). -/
def execDemote (w : TWord) (s : State) : Host.Outcome State Fault Refusal := commit (issue 0x08 (.t w) mDemote) s
/-- COMMIT (R54). -/
def execCommit (w : TWord) (s : State) : Host.Outcome State Fault Refusal := commit (issue 0x09 (.t w) mCommit) s
/-- YIELD (R164). -/
def execYield (w : TWord) (s : State) : Host.Outcome State Fault Refusal := commit (issue 0x0A (.t w) mYield) s
/-- TRAP (R166). -/
def execTrap (w : IWord) (s : State) : Host.Outcome State Fault Refusal := commit (issue 0x0B (.i w) mTrap) s
/-- RTT (R166, R400). -/
def execRtt (w : TWord) (s : State) : Host.Outcome State Fault Refusal := commit (issue 0x0C (.t w) mRtt) s
/-- LAUNCH (R171). -/
def execLaunch (w : EWord) (s : State) : Host.Outcome State Fault Refusal := commit (issue 0x0D (.e w) mLaunch) s
/-- BAR (R168). -/
def execBar (w : TWord) (s : State) : Host.Outcome State Fault Refusal := commit (issue 0x0E (.t w) mBar) s
/-- HBAR (R168). -/
def execHbar (w : TWord) (s : State) : Host.Outcome State Fault Refusal := commit (issue 0x0F (.t w) mHbar) s

end Sys2Proof.Machine
end

