-- ==== Sys2Proof/Machine/System.lean ====
section
/-! DEFINITION. System registers, caches and TLBs, time, identity, waits and step instructions
(R128, R172-R184, R253, R263-R266, R321, R334-R337, R350, R351). -/

namespace Sys2Proof.Machine

/-! ## Servers as the registers show them (R318, R321, R323) -/

/-- Instances of an engine kind (R318). -/
def kindRange (kind : Nat) : Nat :=
  match kind with
  | 0 => 1024
  | 1 => 256
  | 2 => 256
  | 3 => 8
  | 4 => 16
  | _ => 0

/-- KIND, INST and SLOT of SRVSEL. -/
def selKind (sel : W32) : Nat := bits sel.toNat 15 3
def selInst (sel : W32) : Nat := bits sel.toNat 5 10
def selSlot (sel : W32) : Nat := bits sel.toNat 0 4

/-- The server in a slot. -/
def Dev.slot? (d : Dev) (kind inst slot : Nat) : Option Server :=
  d.servers.find? (fun v => v.kind = kind ∧ v.inst = inst ∧ v.slot = slot)

/-- ceil(2^16 · Q / T). -/
def loadTerm (q t : Nat) : Nat := ceilDiv (2 ^ 16 * q) t

/-- The load of an instance (R323). -/
def Dev.load (d : Dev) (kind inst : Nat) : Nat :=
  ((d.servers.filter (fun v => v.kind = kind ∧ v.inst = inst)).map (fun v => loadTerm v.q v.t)).foldl (· + ·) 0

/-- ADMBOUND of an instance. -/
def Dev.bound (d : Dev) (kind inst : Nat) : Nat :=
  if kind < 5 ∧ inst < kindRange kind then (kget d.admbounds (kind, inst)).getD 0x10000 else 0

/-- Units of a server's c in one server unit (R318). -/
def srvUnit : Int := 40 * 65536

/-! ## Register values (R179, R334-R337) -/

/-- OPSTAT of a die. -/
def Die.opstat (x : Die) : Nat :=
  x.tvalid.toNat * 2 ^ 22 + x.risk.toNat * 2 ^ 21 + x.trans.toNat * 2 ^ 20 + x.ceil * 2 ^ 16 + x.tgt * 2 ^ 12 +
    x.cur * 2 ^ 8 + 6

/-- OPTBL of a point. -/
def Mgmt.optblWord (m : Mgmt) (i : Nat) : Nat :=
  match m.optbl[i]? with
  | some (en, v) => en.toNat * 2 ^ 31 + v
  | none => 0

/-- SRVCTL reads CMD as 0, and STATUS of the thread's last command of its selection: 0 where there was none, or where the
server that it admitted has left the slot (R321). -/
def SrvRegs.ctlWord (r : SrvRegs) (held : Bool) : Nat :=
  let st := (kget r.status r.sel.toNat).getD 0
  (r.ctl.toNat &&& 0x00FFF010) + (if st = 1 ∧ held = false then 0 else st)

/-- What MFSR reads. -/
def Env.sysRead (v : Env) (n : Nat) : Nat :=
  let d := v.s.dev
  let th := v.th
  let k := selKind th.srv.sel
  let i := selInst th.srv.sel
  let sv := d.slot? k i (selSlot th.srv.sel)
  if n = 0x000 then th.srstate.toNat
  else if n = 0x001 then th.retaddr.toNat
  else if n = 0x002 then v.f.ctx
  else if n = 0x003 then v.r.core
  else if n < 0x010 then (v.f.freg (n - 0x008)).toNat
  else if n = 0x010 then (d.core v.r.core).foldcfg.toNat
  else if n = 0x020 then th.trap.pc.toNat
  else if n = 0x021 then th.trap.code.toNat
  else if n = 0x022 then th.trap.addr.toNat
  else if n < 0x080 then (d.vault (n - 0x040)).split
  else if n < 0x0C0 then ((d.waypart[n - 0x080]?).getD 0).toNat
  else if n < 0x104 then (d.die (n - 0x100)).opstat
  else if n = 0x108 then d.mgmt.govcfg.toNat
  else if n < 0x11D then d.mgmt.optblWord (n - 0x110)
  else if n < 0x180 then (d.cluster (n - 0x140)).droopcfg.toNat
  else if n < 0x1C0 then (d.cluster (n - 0x180)).slopelim.toNat
  else if n = 0x1C0 then d.mgmt.thermstat.toNat
  else if n = 0x200 then th.srv.sel.toNat
  else if n = 0x201 then th.srv.q.toNat
  else if n = 0x202 then th.srv.t.toNat
  else if n = 0x203 then th.srv.ctlWord sv.isSome
  else if n = 0x204 then
    match sv with
    | some x => wrap 32 (x.c / srvUnit)
    | none => 0
  else if n = 0x205 then
    match sv with
    | some x => x.d
    | none => 0
  else if n = 0x206 then d.load k i
  else if n = 0x207 then d.bound k i
  else if n = 0x209 then (d.ctx v.f.ctx).routestat.toNat
  else if n = 0x20A then (d.ctx v.f.ctx).dmiss.toNat
  else 0

/-- A register of the word's number, or why it cannot be reached: the access engine reaches RETADDR, and its trap
registers in its handler (R136); a privileged register needs privileged mode (R178, R180). -/
def Env.sysTrap (v : Env) (n : Nat) (priv : Bool) : Option Res :=
  if v.r.t = instId ∧ ¬(n = 0x001 ∨ (v.th.trap.intrap ∧ 0x020 ≤ n ∧ n ≤ 0x022)) then some (.trap cILLEGAL 0 0)
  else if priv ∧ privileged v.f v.th = false then some (.trap cPRIV 0 0)
  else none

/-- MFSR (R178). -/
def mMfsr : Meaning := both
  (fun v =>
    let n := bits v.b.imm 0 12
    match v.sysTrap n (((sysReg n).map (·.rdPriv)).getD false) with
    | some t => t
    | none => v.put (fun th => th.wrN (intRegs v.h.var) v.b.vd (v.sysRead n)))
  noneRule

/-- A write to a register, its reserved bits kept zero (R63, R70, R181, R321, R337, R350, R351). -/
def Env.sysWrite (v : Env) (n : Nat) (x : W64) : Eff :=
  let y : W32 := lo32 x
  let thr (f : Thread → Thread) : Eff := updT v.r f
  if n = 0x000 then thr (fun th => { th with srstate := if y = 0 then 1 else y })
  else if n = 0x001 then thr (fun th => { th with retaddr := x })
  else if n < 0x010 then
    upd (fun d => d.modFlock v.r.core v.r.slot (fun f => { f with fs := f.fs.set (n - 0x008) (y &&& 0x003FF771) }))
  else if n = 0x010 then upd (fun d => d.modCore v.r.core (fun c => { c with foldNext := some (y &&& 0xFF) }))
  else if n = 0x020 then thr (fun th => { th with trap := { th.trap with pc := x } })
  else if n = 0x021 then thr (fun th => { th with trap := { th.trap with code := y } })
  else if n = 0x022 then thr (fun th => { th with trap := { th.trap with addr := x } })
  else if n < 0x080 then
    look fun s =>
      let i := n - 0x040
      let p := bits y.toNat 0 3
      if 4 < p ∨ p = (s.dev.vault i).split then skip
      else (upd (fun d => d.modVault i (fun q => { q with pendSplit := q.pendSplit ++ [(v.r, p)] }))).andThen
        (thr (fun th => { th with wait := .unit }))
  else if n < 0x0C0 then upd (fun d => { d with waypart := d.waypart.set (n - 0x080) (y &&& 0x003FFFFF) })
  else if n = 0x108 then upd (fun d => { d with mgmt := { d.mgmt with govcfg := y &&& 0x001FFFFF } })
  else if n < 0x180 then upd (fun d => d.modCluster (n - 0x140) (fun c => { c with droopcfg := y &&& 0xFFFF01FF })) |>.andThen
    (upd (fun d => { d with seen := ⟨.droop (n - 0x140), (d.cluster (n - 0x140)).cycle, 1⟩ :: d.seen }))
  else if n < 0x1C0 then upd (fun d => d.modCluster (n - 0x180) (fun c => { c with slopelim := y &&& 0x0000FF3F }))
  else if n = 0x200 then thr (fun th => { th with srv := { th.srv with sel := y &&& 0x0003FFEF } })
  else if n = 0x201 then thr (fun th => { th with srv := { th.srv with q := y } })
  else if n = 0x202 then thr (fun th => { th with srv := { th.srv with t := y } })
  else if n = 0x203 then
    thr (fun th =>
      { th with srv := { th.srv with ctl := y &&& 0x00FFF01C },
                wait := if bits y.toNat 2 2 = 0 then th.wait else .unit })
  else if n = 0x208 then
    upd (fun d => d.modCtx v.f.ctx (fun c =>
      if c.routestat = 1 then c else { c with routeblk := some x, routestat := 1, routeAt := d.ctime }))
  else skip

/-- MTSR (R178, R181). -/
def mMtsr : Meaning := both
  (fun v =>
    let n := bits v.b.imm 0 12
    match v.sysTrap n (((sysReg n).map (·.wrPriv)).getD false) with
    | some t => t
    | none => .done (v.sysWrite n (BitVec.ofNat 64 (v.srcN (intRegs v.h.var) v.b.va))))
  noneRule

/-- FLUSHI (R183). -/
def mFlushi : Meaning := both
  (fun v => .done (upd (fun d => d.modCore v.r.core (fun c => { c with icache := [] })))) (fun _ => .done skip)

/-- TLBINV (R184): .page removes the context's entries that cover the address. -/
def mTlbinv : Meaning := both
  (fun v =>
    if privileged v.f v.th = false then .trap cPRIV 0 0
    else
      let va := (v.v64 v.b.va).toNat % 2 ^ 57
      let gone (t : Tlb) : Bool :=
        match v.h.mod with
        | 0 => t.ctx = v.f.ctx ∧ va / 2 ^ t.size = t.page
        | 1 => t.ctx = v.f.ctx
        | _ => true
      .done (upd (fun d => { d with tlbs := d.tlbs.filter (fun t => !gone t) })))
  noneRule

/-- TIME (R173): the count of the delivered edge, or CTIME at its start (R375). -/
def mTime : Meaning := both
  (fun v =>
    let c := v.s.dev.cluster (clusterOf v.r.core)
    let x := if v.h.mod = 0 then c.cycle else c.edgeAt
    v.put (fun th => th.wrN 2 v.b.vd x))
  noneRule

/-- Coordinates of a linear thread id (R34). -/
def Kern.coord (k : Kern) (t d : Nat) : Nat :=
  match d with
  | 0 => t % k.sx
  | 1 => t / k.sx % k.sy
  | _ => t / (k.sx * k.sy)
/-- Extent of the flock in a dimension. -/
def Kern.ext (k : Kern) (d : Nat) : Nat :=
  match d with
  | 0 => k.sx
  | 1 => k.sy
  | _ => k.sz
/-- Flock coordinate in a dimension. -/
def Flock.coord (f : Flock) (d : Nat) : Nat :=
  match d with
  | 0 => f.fx
  | 1 => f.fy
  | _ => f.fz

/-- A component of a thread's identity (R174). -/
def tidVal (f : Flock) (core slot t n : Nat) : Nat :=
  if n < 3 then f.kern.coord t n
  else if n = 3 then t
  else if n < 7 then f.coord (n - 4)
  else if n = 7 then f.hidx
  else if n = 8 then core
  else if n = 9 then slot
  else f.coord (n - 10) * f.kern.ext (n - 10) + f.kern.coord t (n - 10)

/-- Range of a tile in a dimension. -/
def Tile.range (t : Tile) (d : Nat) : Int × Int :=
  match d with
  | 0 => (t.lx, t.hx)
  | 1 => (t.ly, t.hy)
  | _ => (t.lz, t.hz)

/-- The flock coordinates for which a thread's coordinate falls inside a tile (R291). -/
def Flock.span (f : Flock) (tile : Tile) (t d : Nat) : Int × Int :=
  let td : Int := f.kern.coord t d
  let x : Int := f.kern.ext d
  let (l, h) := tile.range d
  ((if (l - td) % x ≠ 0 then (l - td) / x + 1 else (l - td) / x), (h - td) / x)

/-- TID in interval mode (R291); selectors 7-9 have the rule NONE. -/
def mTidIv : Meaning := fun v =>
  let n := v.b.va.num
  let k := v.f.kern
  match v.f.tile with
  | none => noneRule v
  | some tile =>
    if n < 4 then v.putRaw 1 (Raw.of (tidVal v.f v.r.core v.r.slot v.r.t n))
    else if n < 7 then
      let e := v.f.span tile v.r.t (n - 4)
      v.putRaw 1 ⟨wrap 32 e.1, wrap 32 e.2, false⟩
    else if n < 10 then noneRule v
    else
      let d := n - 10
      let e := v.f.span tile v.r.t d
      let td : Int := k.coord v.r.t d
      v.putRaw 1 ⟨wrap 32 (e.1 * (k.ext d : Nat) + td), wrap 32 (e.2 * (k.ext d : Nat) + td), false⟩

/-- TID. -/
def mTid : Meaning := both
  (fun v => v.put (fun th => th.wrN 1 v.b.vd (tidVal v.f v.r.core v.r.slot v.r.t v.b.va.num))) mTidIv

/-- MOVK (R172). -/
def mMovk : Meaning := fun v =>
  let n := intRegs v.h.var
  let i := bits v.b.imm 0 8
  let x := if n = 2 then (pair (v.f.k i) (v.f.k (i + 1))).toNat else (v.f.k i).toNat
  v.putRaw n (Raw.of x)

/-- SLEEP (R175); no effect in interval mode. -/
def mSleep : Meaning := both
  (fun v =>
    let wake := (v.v64 v.b.va .zero).toNat
    if wake ≤ v.s.dev.ctime then .done skip else v.put (fun th => { th with wait := .sleep wake }))
  (fun _ => .done skip)

/-- Acquires at flock scope the copies that the thread has seen to end: no later load is served by an L1 line filled
before (R252, R254). -/
def Env.acquireCopies (v : Env) : Res :=
  .done (upd (acquireL1 v.r))

/-- WAIT (R128, R254): issues once its bounds hold. -/
def mWait : Meaning := both
  (fun v =>
    match v.b with
    | .w x => if x.cpc < 31 then v.acquireCopies else .done skip
    | _ => .done skip)
  (fun _ => .done skip)

/-- WAITBM (R253). -/
def mWaitbm : Meaning := both (fun v => v.acquireCopies) noneRule

/-- STEPDL (R264): the step's deadline word in the save area. -/
def mStepdl : Meaning := both
  (fun v =>
    let c := v.s.dev.ctx v.f.ctx
    .done (whenE (decide (c.eff.csave ≠ 0 ∧ c.eff.csavesz ≠ 0))
      (physWrite c.eff.csave.toNat (leBytes 8 (v.v64 v.b.va .zero).toNat))))
  noneRule

/-- SLACK (R265, R338, R346). -/
def mSlack : Meaning := both
  (fun v =>
    let x := v.s.dev.die (dieOf v.r.core)
    let y : W64 := if x.tvalid then (x.slack[v.f.ctx]?).getD 0x7FFFFFFFFFFFFFFF else 0x7FFFFFFFFFFFFFFF
    v.put (fun th => th.wrN 2 v.b.vd y.toNat))
  noneRule

/-- BMODE (R266): .on with a budget of 0 is an illegal use. -/
def mBmode : Meaning := both
  (fun v =>
    let b := bits (v.v32 v.b.va).toNat 0 16
    let e := bits v.b.imm 0 2
    let dp := bits v.b.imm 2 3
    if v.h.mod = 2 then
      if b = 0 then .trap cOPERAND 0xFFFF 0 else v.put (fun th => { th with lb := ⟨2, e, dp, b⟩ })
    else v.put (fun th => { th with lb := ⟨v.h.mod, 0, 0, 0⟩ }))
  noneRule

/-! ## The instructions -/

/-- MFSR (R178). -/
def execMfsr (w : IWord) (s : State) : Host.Outcome State Fault Refusal := commit (issue 0x10 (.i w) mMfsr) s
/-- MTSR (R181). -/
def execMtsr (w : IWord) (s : State) : Host.Outcome State Fault Refusal := commit (issue 0x11 (.i w) mMtsr) s
/-- FLUSHI (R183). -/
def execFlushi (w : TWord) (s : State) : Host.Outcome State Fault Refusal := commit (issue 0x12 (.t w) mFlushi) s
/-- TLBINV (R184). -/
def execTlbinv (w : TWord) (s : State) : Host.Outcome State Fault Refusal := commit (issue 0x13 (.t w) mTlbinv) s
/-- TIME (R173). -/
def execTime (w : TWord) (s : State) : Host.Outcome State Fault Refusal := commit (issue 0x14 (.t w) mTime) s
/-- TID (R174). -/
def execTid (w : TWord) (s : State) : Host.Outcome State Fault Refusal := commit (issue 0x15 (.t w) mTid) s
/-- MOVK (R172). -/
def execMovk (w : IWord) (s : State) : Host.Outcome State Fault Refusal := commit (issue 0x16 (.i w) mMovk) s
/-- SLEEP (R175). -/
def execSleep (w : TWord) (s : State) : Host.Outcome State Fault Refusal := commit (issue 0x17 (.t w) mSleep) s
/-- WAIT (R128). -/
def execWait (w : WWord) (s : State) : Host.Outcome State Fault Refusal := commit (issue 0x19 (.w w) mWait) s
/-- WAITBM (R253). -/
def execWaitbm (w : TWord) (s : State) : Host.Outcome State Fault Refusal := commit (issue 0x1A (.t w) mWaitbm) s
/-- STEPDL (R264). -/
def execStepdl (w : TWord) (s : State) : Host.Outcome State Fault Refusal := commit (issue 0x1B (.t w) mStepdl) s
/-- SLACK (R265). -/
def execSlack (w : TWord) (s : State) : Host.Outcome State Fault Refusal := commit (issue 0x1C (.t w) mSlack) s
/-- BMODE (R266). -/
def execBmode (w : IWord) (s : State) : Host.Outcome State Fault Refusal := commit (issue 0x1D (.i w) mBmode) s

end Sys2Proof.Machine
end

