-- ==== Sys2Proof/Machine/Memory.lean ====
section
/-! DEFINITION. The memory instructions at issue: addresses, checks, requests, interval mode (R84-R93, R102, R103,
R176, R177, R212-R229, R294, R403, R407). -/

namespace Sys2Proof.Machine

/-! ## Addresses -/

/-- Where an access leads: a place, whether its page has NC = 1, what its translation changes; or how the
instruction ends. -/
inductive Acc
  | at_ (loc : Loc) (nc : Bool) (pre : Eff)
  | ends (r : Res)

/-- An illegal address: a trap, or for a helper no trap and a free value in the `dn` destination registers (R48, R396,
log 14). -/
def Env.addrTrap (v : Env) (dn code sub : Nat) (a : W64) : Res :=
  if v.th.helper then
    .done (if dn = 0 then skip
      else upd (fun d => (d.modThread v.r (fun th => th.wrN dn v.b.vd (Config.freeWord d.free).toNat)).fresh))
  else .trap code sub a

/-- An access aligned to `al` at a generic address: aperture, then alignment (log 55), then translation (R84-R95, R403,
R407). -/
def Env.reach (v : Env) (rc : Reach) (kind : AccKind) (a : W64) (al dn : Nat) : Acc :=
  let bad (code : Nat) : Acc := .ends (v.addrTrap dn code 0 a)
  match steer v.s.dev v.f v.r.t rc a.toNat with
  | .bad c => bad c
  | .place l => if a.toNat % al ≠ 0 then bad cALIGN else .at_ l false skip
  | .virt va =>
    if a.toNat % al ≠ 0 then bad cALIGN
    else
      let pre : Eff := xlatE (some v.r.core) v.f.ctx v.f.regs.ptroot va kind
      match xlat v.s (some v.r.core) v.f.ctx v.f.regs.ptroot va kind with
      | .ok pa leaf => .at_ (placeOf pa leaf va) (pteNc leaf || inHost pa || pteMx leaf) pre
      | .denied => bad cPERM
      | .perm => bad cPERM
      | .fault lvl => .ends (.jump (pre.andThen (pageFault v.r va lvl kind)))
      | .bad => .ends (.jump pre)
      | .stuck pa => .ends (.jump (halt (.noSuchLocation pa)))

/-- Every aperture; an evaluation flock has no stack (R294). -/
def Env.anyAp (v : Env) : Reach := ⟨!v.th.intv, true, true⟩

def Loc.isMx : Loc → Bool
  | .mxel _ _ _ => true
  | _ => false
def Loc.isHost : Loc → Bool
  | .host _ => true
  | _ => false
/-- Global or stack memory: the place of a translated address (R228). -/
def Loc.isVirt : Loc → Bool
  | .dram _ => true
  | .host _ => true
  | .mxel _ _ _ => true
  | _ => false

/-! ## Requests -/

/-- The request of the member, as it is sent (R127, R216, R326). `nc` keeps its value out of the caches. -/
def Env.newReq (v : Env) (d : Dev) (kind : ReqKind) (loc : Loc) (nc : Bool) (n : Nat) (data : List Byte) (dest : Nat) : Req :=
  let th := (d.thread? v.r).getD v.th
  let wrt := match kind with
    | .atom _ => true
    | .cas => true
    | .patom _ => true
    | k => k.isStore
  let rel := (v.b.ord == 2 || v.b.ord == 3) && decide (v.b.scope ≠ 0)
  let tag := d.tag v.f.ctx v.r.core v.r.t
  { id := d.nextId, ref := v.r, ctx := v.f.ctx, kind := kind, loc := loc, n := n, data := data, dest := dest,
    ord := v.b.ord, scope := v.b.scope, hint := v.h.mod, after := d.deps v.r th loc n wrt rel v.b.scope,
    performed := false, val := [], l1 := false, dram := false, group := tag.1, cls := tag.2.1, stamp := tag.2.2,
    nc := nc }

/-- The destination register of a load, 2047 for vz. -/
def Env.destReg (v : Env) : Nat := if v.b.vd.isVz then 2047 else (v.b.vd.index v.th).toNat

/-- What a load of a place meets in its core's L1 before it reads there (R377). -/
def Env.checkL1 (v : Env) (loc : Loc) : Eff :=
  match loc with
  | .dram pa => l1Check v.r.core v.f.ctx (pa / 128)
  | _ => skip

/-- Sends a load: served by L1, or by its point later (R214). A value from L1 may show other threads' stores that the
slice has not seen (R278). -/
def Env.sendLoad (v : Env) (kind : ReqKind) (loc : Loc) (nc : Bool) (n : Nat) : Eff := (v.checkL1 loc).andThen <| look fun s =>
  let q := v.newReq s.dev kind loc nc n [] v.destReg
  let th := (s.dev.thread? v.r).getD v.th
  match s.dev.l1Hit th q, loc with
  | some l, .dram pa =>
    let seen := (s.dev.unreached v.r.core (pa / 128)).filter (fun p => p.l1 && p.loc.overlaps p.n loc n)
    seqE [
      upd (fun d => ((d.fresh.modCore v.r.core (fun c => c.touch (pa / 128) v.h.mod)).modThread v.r (fun th =>
        { th with seen := seen.map (·.id) ++ th.seen.filter (fun i => (d.req? i).isSome) }))),
      sendReq { q with performed := true, l1 := true, val := l.data } ]
  | _, _ => (upd Dev.fresh).andThen (sendReq q)

/-- Sends a store. -/
def Env.sendStore (v : Env) (kind : ReqKind) (loc : Loc) (nc : Bool) (n : Nat) (data : List Byte) : Eff := look fun s =>
  let q := v.newReq s.dev kind loc nc n data 2047
  (sendReq q).andThen (upd (l1Store q))

/-- The low `n` bytes of the source VD. -/
def Env.storeData (v : Env) (n : Nat) : List Byte := leBytes n (v.srcN (if n = 8 then 2 else 1) v.b.vd)

/-- An interval thread records a store (R294). -/
def Env.recordStore (v : Env) : Res := v.put (fun th => { th with iv := { th.iv with stored := true } })

/-- V(VA) as an interval of `n` registers is a point. -/
def Env.addrPt (v : Env) (n : Nat) : Bool := (v.raw v.b.va n).pt

/-! ## LD, ST -/

/-- A plain load of W bytes at `a` (R213, R218). -/
def Env.load (v : Env) (a : W64) : Res :=
  let n := memBytes v.h.var
  match v.reach v.anyAp .read a n (memRegs v.h.var) with
  | .ends r => r
  | .at_ loc nc pre => .done (pre.andThen (v.sendLoad (.ld v.h.var) loc nc n))

/-- LD (R213, R217). -/
def mLd : Meaning := both (fun v => v.load v.addr) (fun v => if v.addrPt 2 then v.load v.addr else noneRule v)

/-- A plain store of the low W bytes of VD at `a` (R213, R214). -/
def Env.store (v : Env) (a : W64) : Res :=
  let n := memBytes v.h.var
  match v.reach v.anyAp .write a n 0 with
  | .ends r => r
  | .at_ loc nc pre => .done (pre.andThen (v.sendStore .st loc nc n (v.storeData n)))

/-- ST. -/
def mSt : Meaning := both (fun v => v.store v.addr) Env.recordStore

/-! ## LDBND (R218) -/

/-- `n` bytes that a plain load of an interval thread reads at a generic address, if it may. -/
def Env.readNow (v : Env) (a : Nat) (n : Nat) : Option (List Byte) :=
  match v.reach v.anyAp .read (BitVec.ofNat 64 a) 1 0 with
  | .at_ loc _ _ => some (v.s.point loc n)
  | .ends _ => none

/-- The summary descriptor of LDBND. -/
structure Summary where
  base : Nat
  table : Nat
  count : Nat
  glog2 : Nat
  kind : Nat
  deriving DecidableEq, Repr

/-- The descriptor is legal for width W. -/
def Summary.legal (x : Summary) (w : Nat) : Bool :=
  decide (1 ≤ x.count ∧ x.count ≤ 2 ^ 24 ∧ Nat.log2 w ≤ x.glog2 ∧ x.glog2 ≤ 30 ∧ x.table % (2 * w) = 0) &&
    (match x.kind with
      | 0 => true
      | 1 => true
      | 2 => decide (w = 2 ∨ w = 4 ∨ w = 8)
      | 3 => decide (w = 2)
      | _ => false)

/-- Reads the descriptor at an address in 8-byte loads. -/
def Env.summary (v : Env) (a : Nat) : Option Summary :=
  if a % 8 ≠ 0 then none
  else
    match v.readNow a 8, v.readNow (a + 8) 8, v.readNow (a + 16) 8, v.readNow (a + 24) 8 with
    | some b0, some b1, some b2, some b3 =>
      if leNat (b2.drop 6) ≠ 0 ∨ leNat b3 ≠ 0 then none
      else some ⟨leNat b0, leNat b1, leNat (b2.take 4), leNat ((b2.drop 4).take 1), leNat ((b2.drop 5).take 1)⟩
    | _, _, _, _ => none

/-- The float format of a KIND and width. -/
def sumFmt (kind w : Nat) : FFmt := if kind = 3 then bf16 else if w = 2 then f16 else if w = 4 then f32 else f64

/-- The least minimum and the greatest maximum of the entries; none when an entry cannot be read. The flag says that a
field is NaN. -/
def Env.bounds (v : Env) (x : Summary) (w : Nat) (g : Nat) : Nat → Option (Nat × Nat × Bool) → Option (Nat × Nat × Bool)
  | 0, acc => acc
  | k + 1, acc =>
    match v.readNow (x.table + 2 * w * g) w, v.readNow (x.table + 2 * w * g + w) w with
    | some lo, some hi =>
      let l := leNat lo
      let h := leNat hi
      let f := sumFmt x.kind w
      let nan := decide (2 ≤ x.kind) && (f.isNan l || f.isNan h)
      let less (a b : Nat) : Bool :=
        if x.kind = 0 then decide (toSigned (8 * w) a < toSigned (8 * w) b)
        else if x.kind = 1 then decide (a < b)
        else (f.dec a).lt (f.dec b)
      let acc' := match acc with
        | none => some (l, h, nan)
        | some (l0, h0, n0) => some (if less l l0 then l else l0, if less h0 h then h else h0, nan || n0)
      v.bounds x w (g + 1) k acc'
    | _, _ => none

/-- W bytes extended into the destination under VAR (R213). -/
def extendVar (var : Nat) (x : Nat) : Nat :=
  match var with
  | 0 => wrap 32 (toSigned 8 x)
  | 2 => wrap 32 (toSigned 16 x)
  | _ => x

/-- What a read of a place takes there at once: its DRAM line, the block of a reduced-format page, the byte. -/
def Loc.grain : Loc → Loc × Nat
  | .dram pa => (.dram (pa / 128 * 128), 128)
  | .mxel b f off => (.mxel b f (off / 64 * 64), 64)
  | l => (l, 1)

/-- The reads of plain loads at their points, once for each grain (R99, R104, R217, R378). -/
def Env.readAll (v : Env) (as : List W64) : Eff :=
  let gs := (as.filterMap (fun a => match v.reach v.anyAp .read a 1 0 with
    | .at_ loc nc _ => some (loc.grain, nc)
    | .ends _ => none)).dedup
  let tag := v.s.dev.tag v.f.ctx v.r.core v.r.t
  forE gs (fun x => look fun s =>
    (eccRead (some v.f.ctx) x.1.1 x.1.2).andThen <| if s.dev.eccBad x.1.1 x.1.2 then skip else
      (pointRead ⟨some v.r.core, some v.f.ctx, some v.f.ctx, tag.1, tag.2.1, tag.2.2, x.2, true, none⟩ x.1.1 x.1.2))

/-- What the translations of plain loads change, once for each page (R92). -/
def Env.touchAll (v : Env) (as : List W64) : Eff :=
  let va (a : W64) : List Nat :=
    match steer v.s.dev v.f v.r.t v.anyAp a.toNat with
    | .virt x => [x / 2 ^ 16 * 2 ^ 16]
    | _ => []
  forE (as.flatMap va).dedup (fun x => xlatE (some v.r.core) v.f.ctx v.f.regs.ptroot x .read)

/-- A plain load that reaches host memory while the link is down (R430). -/
def Env.hostGone (v : Env) (as : List W64) : Option Nat :=
  if v.s.dev.mgmt.linkUp then none
  else as.findSome? (fun a => match v.reach v.anyAp .read a 1 0 with
    | .at_ (.host pa) _ _ => some pa
    | _ => none)

/-- LDBND of an interval thread. -/
def Env.ldbndIv (v : Env) : Res :=
  let w := memBytes v.h.var
  let a := v.raw v.b.va 2
  let p := bits v.b.off 0 8
  let desc := (List.range 32).map (pair (v.f.k p) (v.f.k (p + 1)) + BitVec.ofNat 64 ·)
  let loads (as : List W64) : Eff := (v.touchAll as).andThen (v.readAll as)
  let lost (pa : Nat) : Res := .jump (contained v.f.ctx 108 0x37 0 (BitVec.ofNat 64 pa) 0)
  let unknown (as : List W64) : Res :=
    match v.hostGone as with
    | some pa => lost pa
    | none => .jump ((loads as).andThen (retire v.r .unknown))
  let at_ := (pair (v.f.k p) (v.f.k (p + 1))).toNat
  match v.summary at_ with
  | none => unknown (if at_ % 8 = 0 then desc else [])
  | some x =>
    let g0 := (a.lo - x.base) / 2 ^ x.glog2
    let g1 := (a.hi + w - 1 - x.base) / 2 ^ x.glog2
    if x.legal w = false ∨ a.hi < a.lo ∨ a.lo < x.base ∨ x.count ≤ g1 ∨ 4096 ≤ g1 - g0 ∨ a.lo / 2 ^ 56 = 0xFE then unknown desc
    else
      let as := desc ++ (List.range (g1 - g0 + 1)).map (fun i => BitVec.ofNat 64 (x.table + 2 * w * (g0 + i)))
      match v.bounds x w g0 (g1 - g0 + 1) none with
      | none => unknown as
      | some (lo, hi, nan) =>
        let f := sumFmt x.kind w
        let r : Raw := if nan then ⟨f.over true true, f.over false true, true⟩ else ⟨lo, hi, false⟩
        match v.hostGone as with
        | some pa => lost pa
        | none =>
          .done ((loads as).andThen (updT v.r (fun th => th.wrIv (memRegs v.h.var) v.b.vd
            ⟨extendVar v.h.var r.lo, extendVar v.h.var r.hi, r.nan⟩)))

/-- LDBND. -/
def mLdbnd : Meaning := both (fun v => v.load (v.v64 v.b.va)) Env.ldbndIv

/-! ## TILEFILL (R219, R294) -/

/-- The pitches PY and PZ. -/
def Env.pitch (v : Env) (l : Nat) : W64 :=
  let p := bits v.b.off l 8
  pair (v.f.k p) (v.f.k (p + 1))

/-- ADDR of R219 at element indices. -/
def fillAddr (base py pz : W64) (w gx gy gz : Nat) : W64 :=
  base + BitVec.ofNat 64 (w * gx) + py * BitVec.ofNat 64 gy + pz * BitVec.ofNat 64 gz

/-- TILEFILL in element mode: a plain store; an MX page is an illegal use. -/
def Env.tilefill (v : Env) : Res :=
  let w := memBytes v.h.var
  let id (n : Nat) := tidVal v.f v.r.core v.r.slot v.r.t n
  let a := fillAddr (v.v64 v.b.va) (v.pitch 0) (v.pitch 8) w (id 10) (id 11) (id 12)
  match v.reach v.anyAp .write a w 0 with
  | .ends r => r
  | .at_ loc nc pre =>
    if loc.isMx then v.addrTrap 0 cPERM 0 a
    else .done (pre.andThen (v.sendStore .st loc nc w (v.storeData w)))

/-- TILEFILL in interval mode. -/
def Env.recordFill (v : Env) : Res :=
  let w := memBytes v.h.var
  let n := if w = 8 then 2 else 1
  if !v.addrPt 2 || !(v.raw v.b.vd n).pt then v.recordStore
  else if 8 ≤ v.th.iv.fills.length then noneRule v
  else
    let rec_ : FillRec := ⟨v.v64 v.b.va, v.pitch 0, v.pitch 8, BitVec.ofNat 64 (v.srcN n v.b.vd), w⟩
    v.put (fun th => { th with iv := { th.iv with fills := th.iv.fills ++ [rec_] } })

/-- TILEFILL. -/
def mTilefill : Meaning := both Env.tilefill Env.recordFill

/-! ## LDMC, STF, ZFILL, PREF -/

/-- LDMC (R220): global memory of a cacheable DRAM page, or vault memory; it follows the thread's stores to the
line. -/
def Env.ldmc (v : Env) : Res :=
  let n := memBytes v.h.var
  let dn := memRegs v.h.var
  let a := v.v64 v.b.va
  let mask := v.b.off
  if !mask.testBit (v.r.core % 16) then .trap cOPERAND 0xFFFF a
  else
    match v.reach ⟨false, false, true⟩ .read a n dn with
    | .ends r => r
    | .at_ loc nc pre =>
      if nc then v.addrTrap dn cPERM 0 a
      else
        let line : Loc := match loc with
          | .dram pa => .dram (pa / 128 * 128)
          | .vault w o => .vault w (o / 128 * 128)
          | l => l
        .done (pre.andThen (look fun s =>
          let q := v.newReq s.dev (.ldmc (mask * 2 ^ (v.r.core / 16 * 16))) loc false n [] v.destReg
          let th := (s.dev.thread? v.r).getD v.th
          let d := s.dev.deps v.r th line 128 false false 0
          sendReq { q with after := q.after ++ d }))

/-- LDMC. -/
def mLdmc : Meaning := both Env.ldmc (fun v => if v.addrPt 2 then v.ldmc else noneRule v)

/-- STF (R222): on an NC, MX or host page it acts as ST. -/
def mStf : Meaning := both
  (fun v =>
    let n := memBytes v.h.var
    let a := v.v64 v.b.va
    match v.reach ⟨false, false, false⟩ .write a n 0 with
    | .ends r => r
    | .at_ loc nc pre =>
      .done (pre.andThen (v.sendStore (if nc then .st else .stf (bits v.b.off 0 8)) loc nc n (v.storeData n))))
  Env.recordStore

/-- ZFILL (R223). -/
def mZfill : Meaning := both
  (fun v =>
    match v.reach v.anyAp .write v.addr 128 0 with
    | .ends r => r
    | .at_ loc nc pre =>
      if loc.isMx then v.addrTrap 0 cPERM 0 v.addr
      else .done (pre.andThen (v.sendStore (if nc then .st else .zfill) loc nc 128 (List.replicate 128 0))))
  Env.recordStore

/-- PREF (R223): never traps, never walks beyond a missing translation, changes only caches, may be dropped. -/
def mPref : Meaning := both
  (fun v =>
    let d : Eff := upd Dev.fresh
    match v.reach ⟨true, false, false⟩ .read v.addr 1 0 with
    | .at_ (.dram pa) false _ =>
      .done (if v.s.dev.fresh.choose then d.andThen d
        else d.andThen (d.andThen (look fun s => sendReq (v.newReq s.dev .pref (.dram (pa / 128 * 128)) false 128 [] 2047))))
    | _ => .done d)
  (fun _ => .done skip)

/-! ## LDACC, STACC (R90, R224) -/

/-- The slot: V(VA)<31:0> plus the signed offset. -/
def Env.slotNo (v : Env) : Int :=
  let base : Int := (lo32 (v.v64 v.b.va)).toNat
  match v.b with
  | .m x => base + (if x.offLit then x.h.lit.toInt else (BitVec.ofNat 16 x.off).toInt)
  | _ => base

/-- The slot, or the trap of an illegal one: beyond the allocation, or odd for .b64 (log 15). -/
def Env.accSlot (v : Env) (dn : Nat) (k : Nat → Res) : Res :=
  let n := memRegs v.h.var
  let i := v.slotNo
  if i < 0 ∨ (v.f.kern.accSlots : Int) < i + n then v.addrTrap dn cAPERTURE 0 (BitVec.ofInt 64 i)
  else if n = 2 ∧ i % 2 ≠ 0 then v.addrTrap dn cALIGN 0 (BitVec.ofInt 64 i)
  else k i.toNat

/-- LDACC. -/
def mLdacc : Meaning := both
  (fun v => v.accSlot (memRegs v.h.var) (fun i =>
    .done (look fun s => sendReq
      (v.newReq s.dev .ldacc (.acc v.r.core v.r.slot i) false (memBytes v.h.var) [] v.destReg))))
  noneRule

/-- STACC. -/
def mStacc : Meaning := both
  (fun v => v.accSlot 0 (fun i =>
    .done (v.sendStore .stacc (.acc v.r.core v.r.slot i) false (memBytes v.h.var) (v.storeData (memBytes v.h.var)))))
  Env.recordStore

/-! ## Atomics (R226-R228) -/

/-- The signed 12-bit offset of ATOM and RED. -/
def Env.atomAddr (v : Env) : W64 := v.v64 v.b.va + (BitVec.ofNat 12 v.b.off).signExtend 64

/-- An atomic at an address: the checks, the commit of R54 for global memory, the request. -/
def Env.atomic (v : Env) (a : W64) (kind : ReqKind) (hostOk : Bool) (data : List Byte) (dest : Nat) : Res :=
  let n := memBytes v.h.var
  match v.reach v.anyAp .atomic a n 0 with
  | .ends r => r
  | .at_ loc nc pre =>
    if loc.isMx ∨ (loc.isHost ∧ !hostOk) then v.addrTrap 0 cPERM 0 a
    else
      .done (seqE [
        pre,
        whenE loc.isVirt (upd (commitFlock v.r.core v.r.slot)),
        look fun s => sendReq (v.newReq s.dev kind loc nc n data dest) ])

/-- Operations that host memory performs: .add and .exch. -/
def hostAtom (op : Nat) : Bool := op = 0 ∨ op = 8

/-- ATOM, RED, CAS. -/
def mAtom : Meaning := both
  (fun v => v.atomic v.atomAddr (.atom (bits v.b.off 12 4)) (hostAtom (bits v.b.off 12 4))
    (v.storeData (memBytes v.h.var)) v.destReg) noneRule
def mRed : Meaning := both
  (fun v => v.atomic v.atomAddr (.red (bits v.b.off 12 4)) (hostAtom (bits v.b.off 12 4))
    (v.storeData (memBytes v.h.var)) 2047) noneRule

/-- The compare and the swap values of CAS, low bytes first. -/
def Env.casData (v : Env) : List Byte :=
  let i := v.b.vd.index v.th
  let g (k : Nat) : List Byte := leBytes 4 (if v.b.vd.isVz then 0 else v.th.reg (i.toNat + k)).toNat
  (List.range (2 * memRegs v.h.var)).flatMap g

def mCas : Meaning := both (fun v => v.atomic v.addr .cas true v.casData v.destReg) noneRule

/-- `new` of R226. -/
def atomNew (op w old x : Nat) : Nat :=
  let m := 2 ^ (8 * w)
  let s (y : Nat) := toSigned (8 * w) y
  let f := if w = 4 then f32 else f64
  match op with
  | 0 => (old + x) % m
  | 1 => if s x < s old then x else old
  | 2 => if s old < s x then x else old
  | 3 => min old x
  | 4 => max old x
  | 5 => old &&& x
  | 6 => old ||| x
  | 7 => old ^^^ x
  | 8 => x
  | 9 => if x ≤ old then 0 else old + 1
  | 10 => if old = 0 ∨ x < old then x else old - 1
  | 11 => f.result 0 [old, x] (FV.add false (f.dec old) (f.dec x))
  | 12 => (opMin f false false).pt [old, x, 0]
  | _ => (opMin f true false).pt [old, x, 0]

/-! ## FENCE (R229) -/

/-- FENCE: its acquire half orders earlier loads and atomics before every later access; its release half orders every
earlier access, and what was read early from L1, before later writes. At .hd or wider no later load is served by an
older L1 line. -/
def Env.fence (v : Env) : Eff := upd (fun d =>
  let mine := d.inFlight v.r
  let acq : Bool := v.b.ord == 1 || v.b.ord == 3
  let rel : Bool := v.b.ord == 2 || v.b.ord == 3
  let wide : Bool := decide (2 ≤ v.b.scope)
  let loads := (mine.filter (fun q => q.kind.isLoad || (match q.kind with
    | .red _ => true
    | _ => false))).map (·.id)
  let ids := (mine.filter (·.kind.fenced)).map (fun q => (q.id, decide (v.b.scope = 1)))
  let d1 := d.modThread v.r (fun th =>
    { th with
      after := if acq then loads.map (fun i => (i, false)) ++ th.after.filter (fun x => !d.isDone x) else th.after,
      afterW := if rel && decide (v.b.scope ≠ 0) then
          ids ++ (if wide then (th.seen.filter d.fencedId).map (fun i => (i, false)) else []) ++
            th.afterW.filter (fun x => !d.isDone x)
        else th.afterW })
  let d2 := if acq && decide (v.b.scope ≠ 0) then
      { acquireCore v.r d1 with reqs := (acquireCore v.r d1).reqs.map (fun q =>
          if q.id ∈ loads then { q with ord := q.ord ||| 1, scope := max q.scope v.b.scope } else q) }
    else d1
  if wide then acquireL1 v.r d2 else d2)

def mFence : Meaning := both (fun v => .done v.fence) (fun _ => .done skip)

/-! ## WATCH (R102, R176, R177) -/

/-- WATCH: the thread parks until its request is answered. -/
def mWatch : Meaning := both
  (fun v =>
    let n := if v.h.var % 2 = 0 then 4 else 8
    match v.reach ⟨false, false, true⟩ .read v.addr n 0 with
    | .ends r => r
    | .at_ loc nc pre =>
      if loc.isHost then v.addrTrap 0 cPERM 0 v.addr
      else
        .done (seqE [
          pre,
          look fun s => sendReq (v.newReq s.dev (.watch v.h.var) loc nc n (v.storeData n) 2047),
          updT v.r (fun th => { th with wait := .watch }) ]))
  noneRule

/-! ## The instructions -/

/-- LD (R213). -/
def execLd (w : MWord) (s : State) : Host.Outcome State Fault Refusal := commit (issue 0x90 (.m w) mLd) s
/-- ST (R214). -/
def execSt (w : MWord) (s : State) : Host.Outcome State Fault Refusal := commit (issue 0x91 (.m w) mSt) s
/-- LDBND (R218). -/
def execLdbnd (w : MWord) (s : State) : Host.Outcome State Fault Refusal := commit (issue 0x92 (.m w) mLdbnd) s
/-- TILEFILL (R219). -/
def execTilefill (w : MWord) (s : State) : Host.Outcome State Fault Refusal := commit (issue 0x93 (.m w) mTilefill) s
/-- LDMC (R220). -/
def execLdmc (w : MWord) (s : State) : Host.Outcome State Fault Refusal := commit (issue 0x94 (.m w) mLdmc) s
/-- STF (R222). -/
def execStf (w : MWord) (s : State) : Host.Outcome State Fault Refusal := commit (issue 0x95 (.m w) mStf) s
/-- ZFILL (R223). -/
def execZfill (w : MWord) (s : State) : Host.Outcome State Fault Refusal := commit (issue 0x96 (.m w) mZfill) s
/-- PREF (R223). -/
def execPref (w : MWord) (s : State) : Host.Outcome State Fault Refusal := commit (issue 0x97 (.m w) mPref) s
/-- LDACC (R224). -/
def execLdacc (w : MWord) (s : State) : Host.Outcome State Fault Refusal := commit (issue 0x98 (.m w) mLdacc) s
/-- STACC (R224). -/
def execStacc (w : MWord) (s : State) : Host.Outcome State Fault Refusal := commit (issue 0x99 (.m w) mStacc) s
/-- ATOM (R226). -/
def execAtom (w : MWord) (s : State) : Host.Outcome State Fault Refusal := commit (issue 0x9A (.m w) mAtom) s
/-- CAS (R226). -/
def execCas (w : MWord) (s : State) : Host.Outcome State Fault Refusal := commit (issue 0x9B (.m w) mCas) s
/-- RED (R226). -/
def execRed (w : MWord) (s : State) : Host.Outcome State Fault Refusal := commit (issue 0x9C (.m w) mRed) s
/-- FENCE (R229). -/
def execFence (w : MWord) (s : State) : Host.Outcome State Fault Refusal := commit (issue 0x9D (.m w) mFence) s
/-- WATCH (R177). -/
def execWatch (w : MWord) (s : State) : Host.Outcome State Fault Refusal := commit (issue 0x18 (.m w) mWatch) s

end Sys2Proof.Machine
end

