-- ==== Sys2Proof/Machine/SliceEv.lean ====
section
/-! DEFINITION. Steps of the home slices, the DRAM controllers' view of reduced-format pages, the watch and multicast
tables, and the return of loads and stores (R75, R76, R98-R102, R127, R177, R214-R228, R271-R278, R374). A step whose
precondition does not hold has no effect (log 5). -/

namespace Sys2Proof.Machine

/-! ## Performing a request -/

/-- A request that is in flight, may be performed, and has not been. -/
def Dev.due (d : Dev) (id : Nat) : Option Req := (d.req? id).filter (fun q => !q.performed && q.mayPerform d)

/-- The bytes that a request reads at its point: a load of a cacheable DRAM line the whole line (R214). -/
def Req.reads (q : Req) : Loc × Nat :=
  match q.loc, q.kind.isStore with
  | .dram pa, false => if q.nc then (q.loc, q.n) else (.dram (pa / 128 * 128), 128)
  | l, _ => (l, q.n)

/-- The stored bytes that a request reads: a store, those of the granules that it covers in part and of the line that it
fills; a vault's or a scratchpad's words (R377). -/
def Req.meets (q : Req) (d : Dev) : Loc × Nat :=
  if q.kind.isStore then d.writeRange (q.who false) q.loc q.n (if (match q.kind with
    | .red _ => true
    | _ => false) then 20 else 18)
  else q.reads

/-- A request meets the checks of the stored bytes that it reads (R377, R378): a write of whole granules reads none of
them; bytes beyond correction stop the context, and the request ends. -/
def checked (q : Req) (e : Eff) : Eff :=
  (whenE q.kind.isStore (eccWrite q.loc q.n)).andThen (look fun s =>
    let (loc, n) := q.meets s.dev
    let bad := s.dev.eccBad loc n
    (eccRead (some q.ctx) loc n).andThen (if bad then upd (fun d => d.delReq q.id) else e))

/-- Reads at the point: the value is fixed, a DRAM load taking its whole line for L1 (R214, R271). -/
def performLoad (q : Req) : Eff := look fun s =>
  let val := s.point q.reads.1 q.reads.2
  seqE [
    upd (fun d => acquireFixed q (d.modReq q.id (fun x => { x with performed := true, val := val }))),
    pointRead (q.who true) q.loc q.n,
    barriersAt q.ref.core q.ref.slot ]

/-- What follows a write of a core at its point: its L1 copy, loads in flight, the barriers that wait for it
(R170, R271, R273). -/
def wrote (q : Req) (bs : List Byte) : Eff :=
  (upd (fun d =>
    let d1 := d.modReq q.id (fun x => { x with performed := true })
    match q.loc with
    | .dram pa => l1Stale q.ref.core (pa / 128) (l1Late q pa bs d1)
    | .mxel _ _ _ => l1DropMx q.ref.core q.loc bs.length d1
    | _ => d1)).andThen (barriersAt q.ref.core q.ref.slot)

/-- The request left when its first `n` bytes are written. -/
def Req.rest (q : Req) (n : Nat) : Req :=
  { q with n := q.n - n, data := q.data.drop n,
           loc := match q.loc with
             | .dram pa => .dram (pa + n)
             | .host pa => .host (pa + n)
             | .vault v off => .vault v (off + n)
             | .spad c f off => .spad c f (off + n)
             | l => l }

/-- Writes at the point: 8 bytes at a time, except where the slice takes a line whole (R223, R269). -/
def performStore (k : WrKind) (q : Req) : Eff :=
  if q.n ≤ 8 ∨ k = .zfill then (pointWrite (q.who false) k q.loc q.data).andThen (wrote q q.data)
  else
    (pointWrite (q.who false) k q.loc (q.data.take 8)).andThen (upd (fun d => d.modReq q.id (fun _ => q.rest 8)))

/-- The new value of an atomic, and the old one is its result (R226). -/
def Req.modified (q : Req) (old : List Byte) : List Byte :=
  match q.kind with
  | .atom op => leBytes q.n (atomNew op q.n (leNat old) (leNat q.data))
  | .red op => leBytes q.n (atomNew op q.n (leNat old) (leNat q.data))
  | _ => if old = q.data.take q.n then (q.data.drop q.n).take q.n else old

/-- An atomic at its point (R227): a CAS that does not match writes nothing. -/
def performAtomic (q : Req) : Eff := look fun s =>
  let old := s.point q.loc q.n
  let new := q.modified old
  let wrt : Bool := match q.kind with
    | .cas => old == q.data.take q.n
    | _ => true
  seqE [
    upd (fun d => acquireFixed q (d.modReq q.id (fun x => { x with val := old }))),
    (match wrt, q.loc with
      | true, _ => pointWrite (q.who false) .atomic q.loc new
      | false, .dram pa => sliceTouchE (q.who false) pa
      | false, _ => skip),
    wrote q new ]

/-- An accumulator access (R225): one at a time at the accumulator store. -/
def performAcc (q : Req) : Eff :=
  match q.kind with
  | .ldacc => performLoad q
  | _ => performStore .plain q

/-! ## SLICE_READ, SLICE_WRITE, SLICE_STF, SLICE_ZFILL, SLICE_ATOMIC -/

/-- The places behind a home slice or a vault's slice. -/
def Loc.atSlice : Loc → Bool
  | .dram _ => true
  | .vault _ _ => true
  | _ => false

/-- A request of one of the kinds reaches its slice. -/
def atSlice (id : Nat) (is : ReqKind → Bool) (e : Req → Eff) : Eff := look fun s =>
  withE (s.dev.due id) fun q =>
    if is q.kind && q.loc.atSlice then checked q (e q) else skip

def ReqKind.isRead : ReqKind → Bool
  | .ld _ => true
  | .pref => true
  | _ => false

/-- SLICE_READ (R98). -/
def execSliceRead (id : Nat) (s : State) : Host.Outcome State Fault Refusal :=
  commit (atSlice id ReqKind.isRead performLoad) s

/-- SLICE_WRITE (R98). -/
def execSliceWrite (id : Nat) (s : State) : Host.Outcome State Fault Refusal :=
  commit (atSlice id (· == .st) (performStore .plain)) s

/-- SLICE_STF (R99). -/
def execSliceStf (id : Nat) (s : State) : Host.Outcome State Fault Refusal :=
  commit (look fun s => withE (s.dev.req? id) fun q =>
    match q.kind with
    | .stf c => atSlice id (fun _ => true) (performStore (.stf c))
    | _ => skip) s

/-- SLICE_ZFILL (R223). -/
def execSliceZfill (id : Nat) (s : State) : Host.Outcome State Fault Refusal :=
  commit (atSlice id (· == .zfill) (performStore .zfill)) s

def ReqKind.isAtomic : ReqKind → Bool
  | .atom _ => true
  | .red _ => true
  | .cas => true
  | _ => false

/-- SLICE_ATOMIC (R227). -/
def execSliceAtomic (id : Nat) (s : State) : Host.Outcome State Fault Refusal :=
  commit (atSlice id ReqKind.isAtomic performAtomic) s

/-! ## ALIAS_READ, ALIAS_WRITE (R75, R76, R104) -/

/-- ALIAS_READ: the slices give up the storage lines, and the controller converts the block. -/
def execAliasRead (id : Nat) (s : State) : Host.Outcome State Fault Refusal :=
  commit (look fun s => withE (s.dev.due id) fun q => if q.kind.isRead && q.loc.isMx then checked q (performLoad q) else skip) s

/-- ALIAS_WRITE: every touched block is re-encoded. -/
def execAliasWrite (id : Nat) (s : State) : Host.Outcome State Fault Refusal :=
  commit (look fun s => withE (s.dev.due id) fun q =>
    if q.kind == .st && q.loc.isMx then checked q (performStore .plain q) else skip) s

/-! ## LOAD_RETURN, STORE_PERFORMED (R127) -/

/-- Places whose accesses are performed as the value returns or the write ends: scratchpad, accumulator store, host
memory, and a vault's. -/
def Loc.direct : Loc → Bool
  | .host _ => true
  | .spad _ _ _ => true
  | .acc _ _ _ => true
  | .vault _ _ => true
  | _ => false

/-- A host-memory access while the PCI Express link is down (R430): a load or an atomic fails, a store waits. -/
def hostFail (q : Req) : Eff :=
  match q.loc with
  | .host pa =>
    if q.kind == .st || q.kind == .zfill then skip else contained q.ctx 108 0x37 0 (BitVec.ofNat 64 pa) 0
  | _ => skip

/-- Performs a request at such a place, if it is due. -/
def performDirect (id : Nat) : Eff := look fun s =>
  withE (s.dev.due id) fun q =>
    if !q.loc.direct then skip
    else if q.loc.isHost && !s.dev.mgmt.linkUp then hostFail q
    else
      checked q (match q.kind with
      | .ld _ => performLoad q
      | .ldacc => performAcc q
      | .st => performStore .plain q
      | .zfill => performStore .plain q
      | .stacc => performAcc q
      | .atom _ => performAtomic q
      | .red _ => performAtomic q
      | .cas => performAtomic q
      | _ => skip)

/-- The register value of a returning load. -/
def Req.result (q : Req) : Nat :=
  let x := match q.loc with
    | .dram pa => if q.val.length = 128 then q.val.drop (pa % 128) else q.val
    | _ => q.val
  let n := leNat (x.take q.n)
  match q.kind with
  | .ld var => extendVar var n
  | .pld var => extendVar var n
  | _ => n

/-- Registers of the destination. -/
def Req.destRegs (q : Req) : Nat := if q.n = 8 then 2 else 1

/-- Writes the destination of a returned request: a point in an interval thread (R217). -/
def Thread.take (th : Thread) (q : Req) : Thread :=
  let f : Fld := .direct q.dest
  let th := if th.intv then th.wrIv q.destRegs f (Raw.of q.result) else th.wrN q.destRegs f q.result
  { th with cnt := { th.cnt with ld := th.cnt.ld - 1 } }

/-- A returning load of a DRAM line refills L1, or drops the copy that is no longer newest (R214, R273). Other loads
in flight that hold the line no longer fill. -/
def l1Return (q : Req) (fill : Bool) : Dev → Dev := fun d =>
  match q.loc, q.kind.isRead with
  | .dram pa, true =>
    let ln := pa / 128
    if q.l1 then d
    else if fill && !q.nc && q.hint ≠ 2 && q.val.length = 128 then l1Stale q.ref.core ln (l1Refill q.ref.core ln q.val q.hint d)
    else l1Stale q.ref.core ln (d.modCore q.ref.core (fun c => c.drop ln))
  | .dram pa, false => match q.kind with
    | .ldmc _ => l1Stale q.ref.core (pa / 128) (d.modCore q.ref.core (fun c => c.drop (pa / 128)))
    | _ => d
  | _, _ => d

/-- A load, atomic or prefetch returns. An acquire takes over what its core's L1 shows; at .hd or wider it bars older L1
lines from then on (R216, R276). -/
def returnReq (q : Req) (fill : Bool) : Eff :=
  let some_ : Bool := (q.ord == 1 || q.ord == 3) && decide (1 ≤ q.scope)
  let acq : Bool := some_ && decide (2 ≤ q.scope)
  let left : Bool := !q.l1 && (q.loc.atSlice || q.loc.isMx)
  upd (fun d0 =>
    let d := if left then missed q.ctx q.stamp d0 else d0
    let d1 := (l1Return q fill d).delReq q.id
    let d1' := if some_ then acquireCore q.ref d1 else d1
    let d2 := if acq then acquireL1 q.ref d1' else d1'
    if q.kind.isLoad then
      unmark (d2.regMarks q.ref ((List.range q.destRegs).map (q.dest + ·))) (d2.modThread q.ref (fun th => th.take q))
    else d2)

/-- LOAD_RETURN. -/
def execLoadReturn (id : Nat) (fill : Bool) (s : State) : Host.Outcome State Fault Refusal :=
  commit ((performDirect id).andThen (look fun s => withE (s.dev.req? id) fun q =>
    if q.performed && !q.dram && (q.kind.isLoad || q.kind == .pref) then returnReq q fill else skip)) s

/-- STORE_PERFORMED: STCNT falls. -/
def execStorePerformed (id : Nat) (s : State) : Host.Outcome State Fault Refusal :=
  commit ((performDirect id).andThen (look fun s => withE (s.dev.req? id) fun q =>
    if q.performed && q.kind.isStore then
      upd (fun d => (d.delReq id).modThread q.ref (fun th => { th with cnt := { th.cnt with st := th.cnt.st - 1 } }))
    else skip)) s

/-! ## WATCH_REQUEST, WATCH_WAKE (R102, R177) -/

/-- The slice whose table takes a watch: for a reduced-format page the home slice of its block's first storage byte
(DESIGN CHOICE, log 50). -/
def Dev.watchHome (d : Dev) (loc : Loc) : Nat :=
  match loc with
  | .vault v _ => v
  | l => match l.spans 4 with
    | x :: _ => homeOf (d.redirect x.1)
    | [] => 0

/-- WATCH_REQUEST: a wake at once if the comparison holds or the table is full, else an entry. -/
def execWatchRequest (id : Nat) (s : State) : Host.Outcome State Fault Refusal :=
  commit (look fun s => withE (s.dev.due id) fun q =>
    match q.kind with
    | .watch cmp =>
      let v := s.dev.watchHome q.loc
      let val := s.point q.loc q.n
      let e : WatchEnt := ⟨some q.ref, q.ctx, q.loc, q.n, cmp, BitVec.ofNat 64 (leNat q.data), q.id⟩
      (whenE q.loc.isMx (mxFlush q.loc q.n)).andThen <| checked q
        (if cmpHolds cmp (leNat val) (leNat q.data) ∨ 128 ≤ (s.dev.vault v).watch.length then upd (wake e val)
        else if (s.dev.vault v).watch.any (fun x => x.req = id ∧ x.ref = some q.ref) then skip
        else upd (fun d => d.modVault v (fun x => { x with watch := x.watch ++ [e] })))
    | _ => skip) s

/-- WATCH_WAKE: the wake packet reaches the core; with ORD 1 it is an acquire. -/
def execWatchWake (r : TRef) (s : State) : Host.Outcome State Fault Refusal :=
  commit (look fun s =>
    withE ((s.dev.inFlight r).find? (fun q => q.performed && (match q.kind with
      | .watch _ => true
      | _ => false))) fun q =>
      seqE [
        returnReq q false,
        updT r (fun th => if th.wait = .watch then { th with wait := .none } else th) ]) s

/-! ## Multicast (R220, R221, R374) -/

/-- Ticks for which an entry stays open, and a record is kept. -/
def mcTicks : Nat := 2048

def Loc.mcVault (d : Dev) (l : Loc) : Nat :=
  match l with
  | .dram pa => homeOf (d.redirect pa)
  | .vault v _ => v
  | _ => 0
/-- The 128-byte line of a place. -/
def Loc.line : Loc → Loc
  | .dram pa => .dram (pa / 128 * 128)
  | .vault v o => .vault v (o / 128 * 128)
  | l => l

/-- Cores that have joined. -/
def Dev.mcCores (d : Dev) (e : McEnt) : List Nat := e.joined.filterMap (fun i => (d.req? i).map (·.ref.core))

/-- The requests that share a core's one request for a line and mask (R220). -/
def Dev.shares (d : Dev) (q : Req) : List Req :=
  d.reqs.filter (fun p => p.ref.core = q.ref.core && p.ctx = q.ctx && p.kind == q.kind && p.loc.line == q.loc.line &&
    !p.performed && p.mayPerform d)

/-- Answers requests with what their line holds. -/
def mcAnswer (qs : List Req) : Eff := look fun s =>
  (upd (fun d => qs.foldl (fun d q => d.modReq q.id (fun x => { x with performed := true, val := s.point q.loc q.n })) d)).andThen
    (forE qs (fun q => barriersAt q.ref.core q.ref.slot))

/-- A request answered by its own read, with those of its core that share it (R220, R221). -/
def mcOwn (q : Req) : Eff := look fun s =>
  let others := (s.dev.shares q).filter (fun p => p.id ≠ q.id)
  checked q ((mcAnswer others).andThen (performLoad q))

/-- Every core that the mask names has joined. -/
def Dev.mcFull (d : Dev) (e : McEnt) : Bool :=
  let cs := d.mcCores e
  (List.range 256).all (fun i => !e.mask.testBit i || cs.contains i)

/-- The close of an entry (R221 step 4): one read of the line under the opener's group and class, one value for every
joined request; a record is kept, at most 32 of them, the oldest dropped (R374). -/
def mcClose (v : Nat) (e : McEnt) : Eff := look fun s =>
  let qs := ((e.joined.filterMap s.dev.req?).flatMap s.dev.shares).dedup
  let del : Eff := upd (fun d => d.modVault v (fun x =>
    { x with mc := x.mc.filter (fun y => y ≠ e),
             mcOld := ({ e with time := d.ctime, joined := [] } :: x.mcOld).take 32 }))
  match qs with
  | [] => del
  | q0 :: _ =>
    let own (q : Req) : Bool := match e.line with
      | .dram pa => ((s.dev.vault v).line? (s.dev.redirect pa / 128)).any (fun l => l.st == .fwd q.ref.core)
      | _ => false
    let w : Who := { ((qs.find? own).getD q0).who true with group := e.group, cls := e.cls }
    if s.dev.eccBad e.line 128 then
      seqE [
        eccRead (some e.ctx) e.line 128,
        upd (fun d => qs.foldl (fun d q => d.delReq q.id) d),
        del ]
    else
      seqE [
        eccRead (some e.ctx) e.line 128,
        mcAnswer qs,
        del,
        pointRead w e.line 128 ]

/-- Entries whose time is over close, records whose time is over lapse (R221 steps 3 and 5). -/
def mcTick (v : Nat) : Eff := look fun s =>
  (forE ((s.dev.vault v).mc.filter (fun e => e.time + mcTicks ≤ s.dev.ctime)) (mcClose v)).andThen
    (upd (fun d => d.modVault v (fun x => { x with mcOld := x.mcOld.filter (fun e => decide (d.ctime < e.time + mcTicks)) })))

/-- MULTICAST_REQUEST (R221): joins, opens or is answered by its own read. -/
def execMulticastRequest (id : Nat) (s : State) : Host.Outcome State Fault Refusal :=
  commit (look fun s => withE (s.dev.due id) fun q =>
    match q.kind with
    | .ldmc mask =>
      let v := q.loc.mcVault s.dev
      let key (e : McEnt) : Bool := e.ctx = q.ctx ∧ e.line = q.loc.line ∧ e.mask = mask
      (mcTick v).andThen (look fun s =>
        let x := s.dev.vault v
        match x.mc.find? key with
        | some e =>
          let e' : McEnt := { e with joined := e.joined.filter (· ≠ id) ++ [id] }
          let put : Eff := upd (fun d => d.modVault v (fun x => { x with mc := x.mc.map (fun y => if y = e then e' else y) }))
          if s.dev.mcFull e' then put.andThen (mcClose v e') else put
        | none =>
          if x.mcOld.any key ∨ 32 ≤ x.mc.length then mcOwn q
          else
            let e : McEnt := ⟨q.ctx, q.loc.line, mask, q.group, q.cls, s.dev.ctime, [id]⟩
            let put : Eff := upd (fun d => d.modVault v (fun x => { x with mc := x.mc ++ [e] }))
            if s.dev.mcFull e then put.andThen (mcClose v e) else put)
    | _ => skip) s

/-- MULTICAST_TIMEOUT (R221 step 3): the entry closes 2,048 ticks after it opened. -/
def execMulticastTimeout (vault entry : Nat) (s : State) : Host.Outcome State Fault Refusal :=
  commit (look fun s => withE (s.dev.vault vault).mc[entry]? fun e =>
    if e.time + mcTicks ≤ s.dev.ctime then mcClose vault e else skip) s

/-- MULTICAST_RECORD_EXPIRE (R221 step 5). -/
def execMulticastRecordExpire (vault : Nat) (s : State) : Host.Outcome State Fault Refusal :=
  commit (upd (fun d => d.modVault vault (fun x =>
    { x with mcOld := x.mcOld.filter (fun e => decide (d.ctime < e.time + mcTicks)) }))) s

end Sys2Proof.Machine
end

