-- ==== Sys2Proof/Machine/Servers.lean ====
section
/-! DEFINITION. Constant-bandwidth servers: wake, charge, replenishment, and the earliest-deadline arbiter (R318-R320). -/

namespace Sys2Proof.Machine

/-- Server time (R319). -/
def Dev.srvTime (d : Dev) : Nat := d.ctime / 40

/-- Work arrives at an IDLE server at time `t`. -/
def Server.wake (v : Server) (t : Nat) : Server :=
  if ((v.d : Int) - t) * v.q * srvUnit ≤ v.c * v.t then { v with d := t + v.t, c := v.q * srvUnit, st := .active }
  else { v with st := .active }

/-- `k` budgets added, with as many periods on the deadline. -/
def Server.add (v : Server) (k : Nat) : Server := { v with c := v.c + k * (v.q * srvUnit), d := v.d + k * v.t }

/-- Budgets that make c positive. -/
def Server.debt (v : Server) : Nat := ((-v.c) / (v.q * srvUnit)).toNat + 1

/-- A charge of `x` units of 2^−16 tick. -/
def Server.charge (v : Server) (x : Nat) : Server :=
  let v := { v with c := v.c - x }
  if 0 < v.c then v
  else if v.hard then { v with st := .throttled }
  else v.add v.debt

/-- A THROTTLED server is replenished at every deadline that `t` has reached, until c is positive. -/
def Server.replenish (v0 : Server) (t : Nat) (work : Bool) : Server :=
  if v0.st ≠ .throttled ∨ t < v0.d then v0
  else
    let v := v0.add (min v0.debt ((t - v0.d) / v0.t + 1))
    if 0 < v.c then { v with st := if work then .active else .idle } else v

/-- What a clock does to a server: replenishment, IDLE without work, a wake with work. -/
def Server.clock (v0 : Server) (t : Nat) (work : Bool) : Server :=
  let v := v0.replenish t work
  match v.st, work with
  | .idle, true => v.wake t
  | .active, false => { v with st := .idle }
  | _, _ => v

/-- A clock of an instance in which the contexts `work` have work there. -/
def clockServers (kind inst : Nat) (work : List Nat) : Dev → Dev := fun d =>
  { d with servers := d.servers.map (fun v =>
      if v.kind = kind ∧ v.inst = inst then v.clock d.srvTime (decide (v.ctx ∈ work)) else v) }

/-- The context that the arbiter grants among those that can be served: the ACTIVE server with the earliest deadline,
lower slot first; else the next background context after `rr` (R320). -/
def Dev.grant (d : Dev) (kind inst : Nat) (can : List Nat) (rr : Nat) : Option Nat :=
  let here := d.servers.filter (fun v => v.kind = kind ∧ v.inst = inst)
  match here.filter (fun v => v.st = .active ∧ v.ctx ∈ can) with
  | v :: vs => some (vs.foldl (fun a b => if b.d < a.d ∨ (b.d = a.d ∧ b.slot < a.slot) then b else a) v).ctx
  | [] =>
    let bg := (List.range 64).filter (fun k => k ∈ can ∧ here.all (fun v => v.ctx ≠ k))
    match bg.find? (fun k => decide (rr < k)) with
    | some k => some k
    | none => bg.head?

/-- Whether the granted context holds a server there; background service moves the turn. -/
def Dev.isBg (d : Dev) (kind inst ctx : Nat) : Bool := (d.server? kind inst ctx).isNone

/-- Charges the server of a context. -/
def chargeServer (kind inst ctx x : Nat) : Dev → Dev := fun d =>
  { d with servers := d.servers.map (fun v =>
      if v.kind = kind ∧ v.inst = inst ∧ v.ctx = ctx then v.charge x else v) }

/-- Issue and matrix engines are withheld in the even clocks of a droop response's second part (R349), and in every
other clock while the hardware limits the module's power (R423). -/
def Dev.withheld (d : Dev) (core : Nat) : Bool :=
  let c := d.cluster (clusterOf core)
  (c.droop = .halved && (c.cycle - c.droopAt) % 2 = 0) || (d.mgmt.throttled && c.cycle % 2 = 0)

/-- Sixteenths of an edge that a die's clock makes in a tick (R333): the point's frequency is (4 + point)/16 of CTIME's; while
a divider step runs, the slower of its two points stretches the edge (R339). -/
def Die.rate (x : Die) : Nat :=
  4 + (match x.step with
    | some p => min p x.cur
    | none => x.cur)

/-- Clocks 1 to 6 after a droop alarm are stretched to twice their length (R349). -/
def Cluster.stretched (c : Cluster) : Bool := c.droop = .stretch && decide (c.droopAt < c.cycle ∧ c.cycle ≤ c.droopAt + 6)

/-- The duration of a clock of a core's cluster in units of 2^−16 tick, rounded up (R318, R333, R349). -/
def Dev.clockUnits (d : Dev) (core : Nat) : Nat :=
  ceilDiv ((if (d.cluster (clusterOf core)).stretched then 2 else 1) * 65536 * 16) (d.die (dieOf core)).rate

end Sys2Proof.Machine
end

