-- ==== Sys2Proof/Machine/Matrix.lean ====
section
/-! DEFINITION. The matrix engine: checks at issue, group updates, sparsity metadata, accumulator operations
(R74, R78, R90, R129-R131, R225, R230-R246, R251, R403). -/

namespace Sys2Proof.Machine

/-! ## Blocks -/

/-- The matrix block (R130). -/
structure MatBlk where
  aaddr : Nat
  baddr : Nat
  lda : Nat
  ldb : Nat
  cslot : Nat
  dslot : Nat
  zc : Bool
  bt : Bool
  at_ : Bool
  k : Nat
  n : Nat
  m : Nat
  ow : Nat
  dy : Nat
  dx : Nat
  sy : Nat
  sx : Nat
  kw : Nat
  kh : Nat
  cin : Nat
  ipix : Nat
  deriving DecidableEq, Repr

def matBlk (b : List Byte) : MatBlk :=
  let w := field b 0x20 4
  let x := field b 0x24 4
  { aaddr := field b 0 8, baddr := field b 8 8, lda := field b 0x10 4, ldb := field b 0x14 4,
    cslot := bits (field b 0x18 4) 0 20, dslot := bits (field b 0x1C 4) 0 20,
    zc := bit w 15, bt := bit w 14, at_ := bit w 13,
    k := 32 * (bits w 6 7 + 1), n := 32 * (bits w 3 3 + 1), m := 32 * (bits w 0 3 + 1),
    ow := bits x 14 8 + 1, dy := bits x 12 2 + 1, dx := bits x 10 2 + 1, sy := bits x 8 2 + 1, sx := bits x 6 2 + 1,
    kw := bits x 3 3 + 1, kh := bits x 0 3 + 1, cin := field b 0x28 2, ipix := field b 0x2C 4 }

/-- Groups of 32 along K. -/
def MatBlk.groups (x : MatBlk) : Nat := x.k / 32

/-- The accumulator block (R131). -/
structure AccBlk where
  saddr : Nat
  slot : Nat
  rows : Nat
  cols : Nat
  lds : Nat
  zaft : Bool
  afr : Nat
  rmd : Nat
  efmt : Nat
  deriving DecidableEq, Repr

def accBlk (b : List Byte) : AccBlk :=
  let w := field b 0x14 4
  { saddr := field b 0 8, slot := bits (field b 8 4) 0 20, rows := field b 0x0C 2, cols := field b 0x0E 2,
    lds := field b 0x10 4, zaft := bit w 9, afr := bits w 6 3, rmd := bits w 3 3, efmt := bits w 0 3 }

/-- Bytes of a scratchpad element, slots of an accumulator element. -/
def accSize (efmt : Nat) : Nat :=
  match efmt with
  | 0 => 4
  | 1 => 2
  | 2 => 2
  | 3 => 4
  | 4 => 1
  | _ => 8
def accPer (efmt : Nat) : Nat := if efmt = 5 then 2 else 1

/-! ## Elements -/

def Elem.width : Elem → Nat
  | .s8 => 8
  | .n8 => 8
  | .bf16 => 16
  | .f16 => 16
  | .f32 => 32
  | .f64 => 64
  | .narrow wid _ => widBits wid

def Elem.isInt : Elem → Bool
  | .s8 => true
  | .n8 => true
  | _ => false

/-- The value of an element code (R59, R64, R237). -/
def Elem.val (e : Elem) (c : Nat) : FV :=
  match e with
  | .s8 => .ofInt (toSigned 8 c)
  | .n8 => .ofInt c
  | .bf16 => Machine.bf16.dec c
  | .f16 => Machine.f16.dec c
  | .f32 => Machine.f32.dec c
  | .f64 => Machine.f64.dec c
  | .narrow _ f => (narrowFmt f).dec c
/-- The value of an integer element code. -/
def Elem.int (e : Elem) (c : Nat) : Int := if e = .s8 then toSigned 8 c else c

/-- MSTD codes (R134). -/
def mstd (var : Nat) : Elem :=
  match var with
  | 0 => .s8
  | 1 => .n8
  | 2 => .bf16
  | 3 => .f16
  | 4 => .f32
  | _ => .f64

/-- Limit of K and multiply-accumulates per clock by element width (R236). -/
def matLimit (w : Nat) : Nat × Nat :=
  match w with
  | 4 => (2048, 24576)
  | 6 => (1024, 24576)
  | 8 => (1024, 12288)
  | 16 => (512, 6144)
  | 32 => (256, 768)
  | _ => (128, 384)

/-- The accumulator format, and slots of an element (R238). -/
def Elem.accFmt (e : Elem) : FFmt := if e = .f64 then Machine.f64 else Machine.f32
def Elem.per (e : Elem) : Nat := if e = .f64 then 2 else 1

/-! ## Layout of the operands (R130, R237, R240) -/

/-- Rows of stored A, elements in each, and the largest row offset. -/
def MatBlk.aRows (x : MatBlk) (kind : MatKind) : Nat × Nat :=
  match kind with
  | .mmaw =>
    let row (i : Nat) : Nat := (i / x.ow) * x.sy * x.lda + (i % x.ow) * x.sx * x.ipix
    let far := (List.range x.m).foldl (fun a i => max a (row i)) 0
    (x.cin, far + (x.kh - 1) * x.dy * x.lda + (x.kw - 1) * x.dx * x.ipix)
  | .smma => (x.k / 2, (x.m - 1) * x.lda)
  | _ => if x.at_ then (x.m, (x.k - 1) * x.lda) else (x.k, (x.m - 1) * x.lda)
def MatBlk.bRows (x : MatBlk) : Nat × Nat := if x.bt then (x.k, (x.n - 1) * x.ldb) else (x.n, (x.k - 1) * x.ldb)

/-- Bit offset of A's element (i, k) from AADDR, where `k` is the stored position for sparse A. -/
def MatBlk.aBit (x : MatBlk) (kind : MatKind) (w i k : Nat) : Nat :=
  match kind with
  | .mmaw =>
    let ky := k / (x.kw * x.cin)
    let kx := k / x.cin % x.kw
    8 * (((i / x.ow) * x.sy + ky * x.dy) * x.lda + ((i % x.ow) * x.sx + kx * x.dx) * x.ipix) + (k % x.cin) * w
  | .smma => 8 * (i * x.lda) + k * w
  | _ => if x.at_ then 8 * (k * x.lda) + i * w else 8 * (i * x.lda) + k * w
def MatBlk.bBit (x : MatBlk) (w k j : Nat) : Nat := if x.bt then 8 * (j * x.ldb) + k * w else 8 * (k * x.ldb) + j * w

/-- The bytes of a scratchpad that hold `w` bits at a bit offset: offset and count. -/
def bitBytes (b w : Nat) : Nat × Nat := (b / 8, ceilDiv (b % 8 + w) 8)

/-- The `w` bits at a bit offset of a scratchpad. -/
def State.spadBits (s : State) (sp : Nat × Nat) (b w : Nat) : Nat :=
  let (o, n) := bitBytes b w
  bits (leNat (s.point (.spad sp.1 sp.2 o) n)) (b % 8) w

/-! ## Checks at issue (R118, R129, R236-R242, R245, R403) -/

/-- The allocation and offset of a scratchpad-aperture address (R86). -/
def spadAt (d : Dev) (f : Flock) (a : Nat) : Option ((Nat × Nat) × Nat) :=
  match steer d f 0 ⟨false, true, false⟩ a with
  | .place (.spad c l o) => some ((c, l), o)
  | _ => none

/-- The lowest of the offending offsets. -/
def lowest : List (Nat × Bool) → Option Nat
  | [] => none
  | (o, b) :: r =>
    match b, lowest r with
    | true, some m => some (min o m)
    | true, none => some o
    | false, x => x

/-- Whether an operand address leads to a reduced-format page (R77). -/
def Env.mxOperand (v : Env) (a : Nat) : Bool :=
  match steer v.s.dev v.f v.r.t ⟨false, true, true⟩ a with
  | .virt va =>
    match xlat v.s (some v.r.core) v.f.ctx v.f.regs.ptroot va .read with
    | .ok _ leaf => pteMx leaf
    | _ => false
  | _ => false

/-- The elements of A and B, with the register of each narrow format. -/
def Env.elems (v : Env) : (Elem × Option Nat) × (Elem × Option Nat) :=
  let std : Bool := v.major = 0xA0 ∨ v.major = 0xA4 ∨ v.major = 0xA8
  if std then ((mstd v.h.var, none), (mstd v.h.var, none))
  else
    let wid := 2 - (v.major - 0xA1) % 4
    let fb := match v.b with
      | .e x => bits x.aux 2 3
      | _ => 0
    ((.narrow wid (v.f.freg v.h.var), some v.h.var), (.narrow wid (v.f.freg fb), some fb))

/-- A narrow element whose register does not give its width. -/
def Elem.badFmt : Elem → Bool
  | .narrow wid f => decide ((narrowFmt f).width ≠ widBits wid)
  | _ => false

def Env.matKind (v : Env) : MatKind :=
  if 0xA8 ≤ v.major then .mmaw else if 0xA4 ≤ v.major then .smma else .mma

/-- Offending fields of the matrix block. -/
def Env.matBad (v : Env) (b : List Byte) (ea eb : Elem) : Option Nat :=
  let x := matBlk b
  let kind := v.matKind
  let sp (a : Nat) (w : Nat) (rows : Nat × Nat) : Bool :=
    decide (a % 16 ≠ 0) ||
      (match spadAt v.s.dev v.f a with
        | some (_, o) => decide (v.f.kern.spadBytes < o + rows.2 + ceilDiv (rows.1 * w) 8)
        | none => true)
  let span := x.m * x.n * ea.per
  let slots := v.f.kern.accSlots
  let odd (i : Nat) : Bool := decide (ea.per = 2 ∧ i % 2 ≠ 0)
  lowest [
    (0x00, sp x.aaddr ea.width (x.aRows kind)),
    (0x08, sp x.baddr eb.width x.bRows),
    (0x10, decide (x.lda % 16 ≠ 0)),
    (0x14, decide (x.ldb % 16 ≠ 0)),
    (0x18, decide (bits (field b 0x18 4) 20 12 ≠ 0) ||
      (!x.zc && (decide (slots < x.cslot + span) || odd x.cslot ||
        decide (x.cslot ≠ x.dslot ∧ x.cslot < x.dslot + span ∧ x.dslot < x.cslot + span)))),
    (0x1C, decide (bits (field b 0x1C 4) 20 12 ≠ 0 ∨ slots < x.dslot + span) || odd x.dslot),
    (0x20, decide (field b 0x22 2 ≠ 0 ∨ (matLimit ea.width).1 < x.k) || (x.at_ && kind ≠ .mma) ||
      decide (kind = .mmaw ∧ x.k ≠ x.kh * x.kw * x.cin)),
    (0x24, decide (bits (field b 0x24 4) 22 10 ≠ 0)),
    (0x28, decide (field b 0x2A 2 ≠ 0 ∨ (kind = .mmaw ∧ x.cin % 32 ≠ 0))),
    (0x30, decide (field b 0x30 8 ≠ 0)),
    (0x38, decide (field b 0x38 8 ≠ 0)) ]

/-- The scale bytes of the blocks (R239), or the trap: registers beyond N, a lane without a thread. -/
def Env.scales (v : Env) (x : MatBlk) : List Byte ⊕ Res :=
  let base := v.b.vd.index v.th
  let count := (x.m + x.n) * x.groups
  let regs := ceilDiv count 32
  if (v.f.kern.n : Int) < base + regs then .inr (.trap cREGBOUND 0 (badAddr (max base v.f.kern.n)))
  else
    let lane (l : Nat) : Option Thread := v.f.thread? (32 * teamOf v.r.t + l)
    let one (b : Nat) : Option Byte :=
      (lane (b % 32)).map (fun th => BitVec.ofNat 8 ((th.reg (base.toNat + b / 32)).toNat >>> (8 * v.h.mod)))
    let bs := (List.range count).filterMap one
    if bs.length < count then .inr (.trap cOPERAND 0xFFFF v.blkAddr) else .inl bs

/-! ## Acceptance (R127, R230, R232, R233) -/

/-- The accesses that an operation of the member must follow. -/
def Env.before (v : Env) : List (Nat × Bool) :=
  let d := v.s.dev
  (((d.inFlight v.r).map (fun q => (q.id, false))) ++ v.th.after ++ v.th.seen.map (fun i => (i, false))).filter
    (fun x => !d.isDone x)

/-- Operations that the matrix engine holds. -/
def matRoom : Nat := 32

/-- The engine accepts an operation, or the thread waits for room. -/
def Env.toMatrix (v : Env) (o : MatOp) : Res :=
  if matRoom ≤ (v.s.dev.core v.r.core).mat.length then .jump (updT v.r (fun th => { th with wait := .engine true }))
  else
    .done (upd (fun d =>
      let d1 := d.modCore v.r.core (fun c => { c with mat := c.mat ++ [{ o with id := d.nextId }] })
      { (d1.modThread v.r (fun th => { th with cnt := { th.cnt with tl := th.cnt.tl + 1 } })) with
        nextId := d.nextId + 1 }))

/-- An operation with nothing done. -/
def Env.newOp (v : Env) (kind : MatKind) (ea eb : Elem) (b : List Byte) (spA spB : Nat × Nat) : MatOp :=
  { id := 0, ref := v.r, ctx := v.f.ctx, kind := kind, ea := ea, eb := eb, blk := b, scales := none, qs := 0, afr := 0,
    spA := spA, spB := spB, after := v.before, prog := [], next := 0, metas := [], elems := [], pc := v.th.pc }

/-- MMA, SMMA and MMAW (R235-R242). -/
def mMat : Meaning := both
  (fun v => v.withBlk (fun b =>
    let x := matBlk b
    let ((ea, ra), (eb, rb)) := v.elems
    let q := match v.b with
      | .e w => w.qs
      | _ => 0
    if ea.badFmt then .trap cFORMAT 0 (BitVec.ofNat 64 (ra.getD 0))
    else if eb.badFmt then .trap cFORMAT 0 (BitVec.ofNat 64 (rb.getD 0))
    else if v.mxOperand x.aaddr then .trap cPERM 0 (BitVec.ofNat 64 x.aaddr)
    else if v.mxOperand x.baddr then .trap cPERM 0 (BitVec.ofNat 64 x.baddr)
    else
      match v.matBad b ea eb, spadAt v.s.dev v.f x.aaddr, spadAt v.s.dev v.f x.baddr with
      | none, some (pa, _), some (pb, _) =>
        let o := { v.newOp v.matKind ea eb b pa pb with qs := q }
        if v.queueTaken then .stay
        else if v.b.vd.isVz then v.toMatrix o
        else
          match v.scales x with
          | .inl bs => v.toMatrix { o with scales := some bs }
          | .inr r => r
      | sub, _, _ => .trap cOPERAND (sub.getD 0) v.blkAddr))
  noneRule

/-- Offending fields of the accumulator block. -/
def Env.accBad (v : Env) (b : List Byte) (kind : MatKind) : Option Nat :=
  let x := accBlk b
  let n := x.rows * x.cols * accPer x.efmt
  let es := accSize x.efmt
  let mem : Bool := decide (kind ≠ .accz ∧ x.efmt < 6)
  lowest [
    (0x00, mem && (decide (x.saddr % es ≠ 0) ||
      (match spadAt v.s.dev v.f x.saddr with
        | some (_, o) => decide (v.f.kern.spadBytes < o + (x.rows - 1) * x.lds + x.cols * es)
        | none => true))),
    (0x08, decide (bits (field b 8 4) 20 12 ≠ 0 ∨ v.f.kern.accSlots < x.slot + n ∨ (x.efmt = 5 ∧ x.slot % 2 ≠ 0))),
    (0x0C, decide (x.rows = 0 ∨ x.cols = 0)),
    (0x10, mem && decide (x.lds % es ≠ 0)),
    (0x14, decide (bits (field b 0x14 4) 10 22 ≠ 0 ∨ 5 < x.efmt ∨
      (kind = .drain ∧ (4 < x.rmd ∨ (x.rmd = 4 ∧ x.efmt ≠ 4))))),
    (0x18, decide (leNat (b.drop 0x18) ≠ 0)) ]

/-- ACCZ, ACCDRAIN, ACCLOAD (R245, R246). -/
def accOp (kind : MatKind) : Meaning := both
  (fun v => v.withBlk (fun b =>
    let x := accBlk b
    match v.accBad b kind with
    | some sub => .trap cOPERAND sub v.blkAddr
    | none =>
      if x.efmt = 4 ∧ kind ≠ .accz ∧ (narrowFmt (v.f.freg x.afr)).width ≠ 8 then
        .trap cFORMAT 0 (BitVec.ofNat 64 x.afr)
      else
        let sp := ((spadAt v.s.dev v.f x.saddr).map (·.1)).getD (v.r.core, v.r.slot)
        v.toMatrix { v.newOp kind .f32 .f32 b sp sp with afr := v.f.freg x.afr }))
  noneRule

def mAccz : Meaning := accOp .accz
def mAccdrain : Meaning := accOp .drain
def mAccload : Meaning := accOp .load

/-! ## Group updates (R78, R238) -/

/-- A scale of a block, 1 without scales. -/
def MatOp.scale (o : MatOp) (b : Nat) : FV :=
  match o.scales with
  | some bs => decE8 ((bs[b]?.getD 0).toNat)
  | none => .ofInt 1

/-- The stored A position and the K position of each product of group `g` for row `i` (R240). -/
def MatOp.terms (o : MatOp) (i g : Nat) : List (Nat × Nat) :=
  match o.kind with
  | .smma =>
    let w := leNat (((o.metas[g]?.getD []).drop (4 * i)).take 4)
    (List.range 8).flatMap (fun h =>
      let a := bits w (4 * h) 2
      let b := bits w (4 * h + 2) 2
      let k := 32 * g + 4 * h
      (16 * g + 2 * h, k + a) :: (if a = b then [] else [(16 * g + 2 * h + 1, k + b)]))
  | _ => (List.range 32).map (fun k => (32 * g + k, 32 * g + k))

/-- The exact sum of a group's products: −0 only when every product that takes part is −0. -/
def groupSum : List FV → FV
  | [] => .ofInt 0
  | p :: ps => ps.foldl (FV.add false) p

/-- The elements of A and B of each product of a group: their numbers row by row in A and B, and their bit offsets in
their allocations. MMAW's A has an element for every place of the window that names a pixel (R241). -/
def MatOp.pairs (o : MatOp) (i j g : Nat) : List ((Nat × Nat) × (Nat × Nat)) :=
  let x := matBlk o.blk
  (o.terms i g).map (fun (p, k) =>
    ((x.k * i + p, 8 * (x.aaddr % 2 ^ 21) + x.aBit o.kind o.ea.width i p),
     (x.n * k + j, 8 * (x.baddr % 2 ^ 21) + x.bBit o.eb.width k j)))

/-- The elements of A (true) and B of a group that the engine has not read before, with their bit offsets. -/
def MatOp.unread (o : MatOp) (i j g : Nat) : List ((Bool × Nat) × Nat) :=
  (((o.pairs i j g).flatMap (fun (a, b) => [((true, a.1), a.2), ((false, b.1), b.2)])).dedup).filter
    (fun k => (kget o.elems k.1).isNone)

/-- The engine reads each element whole and once (R244): the group's elements are taken from the scratchpad as it is now,
but those that an earlier group has read. -/
def MatOp.takes (o : MatOp) (s : State) (i j g : Nat) : MatOp :=
  { o with elems := o.elems ++ (o.unread i j g).map (fun k =>
      (k.1, if k.1.1 then s.spadBits o.spA k.2 o.ea.width else s.spadBits o.spB k.2 o.eb.width)) }

/-- The operand codes of a group that the engine has taken. -/
def MatOp.codes (o : MatOp) (i j g : Nat) : List (Nat × Nat) :=
  (o.pairs i j g).map (fun (a, b) => ((kget o.elems (true, a.1)).getD 0, (kget o.elems (false, b.1)).getD 0))

/-- One group update of an accumulator value, its elements taken. -/
def MatOp.update (o : MatOp) (i j g acc : Nat) : Nat :=
  let x := matBlk o.blk
  let cs := o.codes i j g
  if o.ea.isInt then
    let d := (cs.map (fun c => o.ea.int c.1 * o.eb.int c.2)).foldl (· + ·) 0
    wrap 32 ((acc : Int) + d)
  else
    let fa := o.ea.accFmt
    let p := groupSum (cs.map (fun c => (o.ea.val c.1).mul (o.eb.val c.2)))
    let sc := (p.mul (o.scale (x.groups * i + g))).mul (o.scale (x.groups * x.m + x.groups * j + g))
    let r := FV.add false (fa.dec acc) (if sc.isNan then sc else fa.dec (fa.round 0 0 sc))
    if r.isNan then fa.defNan else fa.round 0 0 r

/-- The place of an accumulator element of an operation. -/
def MatOp.acc (o : MatOp) (slot i j : Nat) : Loc :=
  .acc o.ref.core o.ref.slot (slot + o.ea.per * ((matBlk o.blk).n * i + j))

/-- The first operation of a context on a core, once what it must follow has been performed (R233, R242). -/
def Dev.matHead (d : Dev) (core ctx : Nat) : Option MatOp :=
  ((d.core core).mat.find? (fun o => o.ctx = ctx)).filter (fun o => o.after.all d.isDone)

/-- Updates of an operation in all, clocks that the engine is busy with them (R236, R245). -/
def MatOp.work (o : MatOp) : Nat × Nat :=
  match o.kind with
  | .accz => let x := accBlk o.blk; (x.rows * x.cols, ceilDiv (x.rows * x.cols * accPer x.efmt) 1024)
  | .drain => let x := accBlk o.blk; (x.rows * x.cols, ceilDiv (x.rows * x.cols) 256)
  | .load => let x := accBlk o.blk; (x.rows * x.cols, ceilDiv (x.rows * x.cols) 256)
  | _ =>
    let x := matBlk o.blk
    let c := ceilDiv (x.m * x.n * x.k) (matLimit o.ea.width).2
    (x.m * x.n * x.groups, if o.kind = .smma then ceilDiv c 2 else c)

/-- A put-aside sparse operation has no entry for its next group (R240). -/
def MatOp.aside (o : MatOp) : Bool :=
  let x := matBlk o.blk
  decide (o.kind = .smma ∧ x.m * x.n * o.metas.length ≤ o.next)

/-- The matrix engine's clock: the granted context (R320). -/
def matGrant (core ctx : Nat) (e : Eff) : Eff := look fun s =>
  let ops := (s.dev.core core).mat
  let work := (List.range 64).filter (fun k => ops.any (fun o => o.ctx = k))
  let can := work.filter (fun k =>
    match s.dev.matHead core k with
    | some o => !o.aside
    | none => false)
  let rr := (s.dev.core core).rr[4]?.getD 0
  (upd (clockServers 1 core work)).andThen (look fun s =>
    if s.dev.stopped ∨ s.dev.withheld core ∨ s.dev.grant 1 core can rr ≠ some ctx then skip
    else
      (upd (fun d => if d.isBg 1 core ctx then d.modCore core (fun c => { c with rr := c.rr.set 4 ctx }) else d)).andThen e)

/-- One update more: its share of the busy clocks is charged; the last one ends the operation and TLCNT falls. -/
def matStep (core : Nat) (o : MatOp) (prog : List ((Nat × Nat) × Nat)) : Eff := look fun s =>
  let (total, clocks) := o.work
  let n := o.next + 1
  let x := (n * clocks / total - o.next * clocks / total) * s.dev.clockUnits core
  (upd (chargeServer 1 core o.ctx x)).andThen
    (if n < total then
      upd (fun d => d.modCore core (fun c =>
        { c with mat := c.mat.map (fun p => if p.id = o.id then { p with next := n, prog := prog, elems := o.elems } else p) }))
    else
      upd (fun d => (d.modCore core (fun c => { c with mat := c.mat.filter (fun p => p.id ≠ o.id) })).modThread o.ref
        (fun th => { th with cnt := { th.cnt with tl := th.cnt.tl - 1 } })))

/-- MATRIX_GROUP_UPDATE: the next group of element (i, j). -/
def groupUpdate (core id i j : Nat) : Eff := look fun s =>
  withE ((s.dev.core core).mat.find? (fun o => o.id = id)) fun o =>
    let x := matBlk o.blk
    let g := (kget o.prog (i, j)).getD 0
    let ready : Bool := (s.dev.matHead core o.ctx).any (fun h => h.id = id)
    let mat : Bool := o.kind = .mma ∨ o.kind = .smma ∨ o.kind = .mmaw
    if !mat || !ready || decide (x.m ≤ i ∨ x.n ≤ j ∨ x.groups ≤ g) || (o.kind = .smma && decide (o.metas.length ≤ g)) then
      skip
    else
      matGrant core o.ctx (look fun s =>
        let n := 4 * o.ea.per
        let src : Loc := o.acc (if g = 0 then x.cslot else x.dslot) i j
        let zero : Bool := decide (g = 0) && x.zc
        let acc := if zero then 0 else leNat (s.point src n)
        let o' := o.takes s i j g
        let rng (sp : Nat × Nat) (b w : Nat) : Eff :=
          eccRead (some o.ctx) (.spad sp.1 sp.2 (bitBytes b w).1) (bitBytes b w).2
        seqE [
          forE (o.unread i j g) (fun k => if k.1.1 then rng o.spA k.2 o.ea.width else rng o.spB k.2 o.eb.width),
          whenE (!zero) (eccRead (some o.ctx) src n),
          eccWrite (o.acc x.dslot i j) n,
          pointWrite Who.unit .plain (o.acc x.dslot i j) (leBytes n (o'.update i j g acc)),
          matStep core o' (kset o.prog (i, j) (g + 1)) ])

/-! ## Metadata queues (R240, R251) -/

/-- A queue is free again once it is empty and none of its flock's COPYQs to it remain. -/
def metaFree (core q : Nat) : Dev → Dev := fun d =>
  d.modCore core (fun c =>
    { c with metaq := c.metaq.mapIdx (fun i m =>
        let busy : Bool := c.cpy.any (fun o => o.kind = .q && o.m = q && some (o.ref.core, o.ref.slot) = m.bound)
        if i = q && m.items.isEmpty && !busy then { m with bound := none } else m) })

/-- SMMA_META_POP: the entry of the operation's next group. -/
def metaPop (core id : Nat) : Eff := look fun s =>
  withE ((s.dev.core core).mat.find? (fun o => o.id = id)) fun o =>
    withE ((s.dev.core core).metaq[o.qs]?) fun q =>
      match q.items with
      | [] => skip
      | e :: es =>
        let ready : Bool := (s.dev.matHead core o.ctx).any (fun h => h.id = id)
        if s.dev.stopped = false ∧ o.kind = .smma ∧ ready ∧ q.bound = some (o.ref.core, o.ref.slot) ∧ o.metas.length < (matBlk o.blk).groups then
          upd (fun d => metaFree core o.qs (d.modCore core (fun c =>
            { c with metaq := c.metaq.set o.qs { q with items := es },
                     mat := c.mat.map (fun p => if p.id = id then { p with metas := p.metas ++ [e] } else p) })))
        else skip

/-! ## Accumulator operations (R246) -/

/-- ACCDRAIN's conversion of a slot: the element, and the draw state after it. -/
def drainVal (x : AccBlk) (f : FFmt) (st : W32) (v : Nat) : Nat × W32 :=
  let r (g : FFmt) : Nat × W32 :=
    let y := f32.dec v
    let st' := if x.rmd = 4 ∧ g.draws y then stochDraw st else st
    (if y.isNan && x.efmt ≠ 4 then g.defNan else g.round x.rmd (st'.toNat % 2 ^ 24) y, st')
  match x.efmt with
  | 1 => r bf16
  | 2 => r f16
  | 4 => r f
  | _ => (v, st)

/-- ACCLOAD's conversion of an element. -/
def loadVal (x : AccBlk) (f : FFmt) (v : Nat) : Nat :=
  let w (g : FFmt) : Nat := if (g.dec v).isNan then f32.defNan else f32.round 0 0 (g.dec v)
  match x.efmt with
  | 1 => w bf16
  | 2 => w f16
  | 4 => w f
  | _ => v

/-- ACC_OP_PROGRESS: the next element. With RMD 4 each element of ACCDRAIN draws from the issuer's SRSTATE as it stands then
(DESIGN CHOICE, log 76). -/
def accProgress (core id : Nat) : Eff := look fun s =>
  withE ((s.dev.core core).mat.find? (fun o => o.id = id)) fun o =>
    let x := accBlk o.blk
    let ready : Bool := (s.dev.matHead core o.ctx).any (fun h => h.id = id)
    let isAcc : Bool := o.kind = .accz ∨ o.kind = .drain ∨ o.kind = .load
    if !isAcc || !ready then skip
    else
      matGrant core o.ctx (look fun s =>
        let n := 4 * accPer x.efmt
        let es := accSize x.efmt
        let slot : Loc := .acc o.ref.core o.ref.slot (x.slot + accPer x.efmt * o.next)
        let mem : Loc := .spad o.spA.1 o.spA.2 (x.saddr % 2 ^ 21 + o.next / x.cols * x.lds + o.next % x.cols * es)
        let zero : Eff := pointWrite Who.unit .plain slot (List.replicate n 0)
        let st := ((s.dev.thread? o.ref).map (·.srstate)).getD 1
        let one : Eff := match o.kind with
          | .accz => (eccWrite slot n).andThen zero
          | .drain =>
            let (c, st') := drainVal x (narrowFmt o.afr) st (leNat (s.point slot n))
            seqE [
              eccRead (some o.ctx) slot n,
              eccWrite mem es,
              pointWrite Who.unit .plain mem (leBytes es c),
              updT o.ref (fun th => { th with srstate := st' }),
              whenE x.zaft zero ]
          | _ =>
            seqE [
              eccRead (some o.ctx) mem es,
              eccWrite slot n,
              pointWrite Who.unit .plain slot (leBytes n (loadVal x (narrowFmt o.afr) (leNat (s.point mem es)))) ]
        one.andThen (matStep core o []))

/-! ## The instructions and the engine's steps -/

/-- MMA (R238). -/
def execMma (w : EWord) (s : State) : Host.Outcome State Fault Refusal := commit (issue 0xA0 (.e w) mMat) s
/-- MMA_Q8 (R238). -/
def execMmaQ8 (w : EWord) (s : State) : Host.Outcome State Fault Refusal := commit (issue 0xA1 (.e w) mMat) s
/-- MMA_Q6 (R238). -/
def execMmaQ6 (w : EWord) (s : State) : Host.Outcome State Fault Refusal := commit (issue 0xA2 (.e w) mMat) s
/-- MMA_Q4 (R238). -/
def execMmaQ4 (w : EWord) (s : State) : Host.Outcome State Fault Refusal := commit (issue 0xA3 (.e w) mMat) s
/-- SMMA (R240). -/
def execSmma (w : EWord) (s : State) : Host.Outcome State Fault Refusal := commit (issue 0xA4 (.e w) mMat) s
/-- SMMA_Q8 (R240). -/
def execSmmaQ8 (w : EWord) (s : State) : Host.Outcome State Fault Refusal := commit (issue 0xA5 (.e w) mMat) s
/-- SMMA_Q6 (R240). -/
def execSmmaQ6 (w : EWord) (s : State) : Host.Outcome State Fault Refusal := commit (issue 0xA6 (.e w) mMat) s
/-- SMMA_Q4 (R240). -/
def execSmmaQ4 (w : EWord) (s : State) : Host.Outcome State Fault Refusal := commit (issue 0xA7 (.e w) mMat) s
/-- MMAW (R241). -/
def execMmaw (w : EWord) (s : State) : Host.Outcome State Fault Refusal := commit (issue 0xA8 (.e w) mMat) s
/-- MMAW_Q8 (R241). -/
def execMmawQ8 (w : EWord) (s : State) : Host.Outcome State Fault Refusal := commit (issue 0xA9 (.e w) mMat) s
/-- MMAW_Q6 (R241). -/
def execMmawQ6 (w : EWord) (s : State) : Host.Outcome State Fault Refusal := commit (issue 0xAA (.e w) mMat) s
/-- MMAW_Q4 (R241). -/
def execMmawQ4 (w : EWord) (s : State) : Host.Outcome State Fault Refusal := commit (issue 0xAB (.e w) mMat) s
/-- ACCZ (R246). -/
def execAccz (w : EWord) (s : State) : Host.Outcome State Fault Refusal := commit (issue 0xAC (.e w) mAccz) s
/-- ACCDRAIN (R246). -/
def execAccdrain (w : EWord) (s : State) : Host.Outcome State Fault Refusal := commit (issue 0xAD (.e w) mAccdrain) s
/-- ACCLOAD (R246). -/
def execAccload (w : EWord) (s : State) : Host.Outcome State Fault Refusal := commit (issue 0xAE (.e w) mAccload) s
/-- MATRIX_GROUP_UPDATE (R238). -/
def execMatrixGroupUpdate (core id i j : Nat) (s : State) : Host.Outcome State Fault Refusal := commit (groupUpdate core id i j) s
/-- SMMA_META_POP (R240). -/
def execSmmaMetaPop (core id : Nat) (s : State) : Host.Outcome State Fault Refusal := commit (metaPop core id) s
/-- ACC_OP_PROGRESS (R246). -/
def execAccOpProgress (core id : Nat) (s : State) : Host.Outcome State Fault Refusal := commit (accProgress core id) s

end Sys2Proof.Machine
end

