-- ==== Sys2Proof/Machine/Copy.lean ====
section
/-! DEFINITION. The copy engine and the operand queues: checks at issue, promises, unit transfers, metadata entries,
acceptance (R132, R230-R234, R247-R256, R403-R409). -/

namespace Sys2Proof.Machine

/-! ## The copy block (R132) -/

structure CopyBlk where
  e0 : Nat
  e1 : Nat
  e2 : Nat
  dims : Nat
  mask : Nat
  s1 : W64
  s2 : W64
  d1 : W64
  d2 : W64
  deriving DecidableEq, Repr

/-- Dimensions above DIMS have extent 1. -/
def copyBlk (b : List Byte) : CopyBlk :=
  let w := field b 0x1C 4
  let dims := bits w 0 2
  let q (o : Nat) : W64 := BitVec.ofNat 64 (field b o 8)
  { e0 := field b 0x10 4, e1 := if 2 ≤ dims then field b 0x14 4 else 1, e2 := if dims = 3 then field b 0x18 4 else 1,
    dims := dims, mask := bits w 4 4,
    s1 := if 2 ≤ dims then q 0x20 else 0, s2 := if dims = 3 then q 0x28 else 0,
    d1 := if 2 ≤ dims then q 0x30 else 0, d2 := if dims = 3 then q 0x38 else 0 }

def CopyBlk.bytes (x : CopyBlk) : Nat := x.e0 * x.e1 * x.e2
def CopyBlk.units (x : CopyBlk) : Nat := x.bytes / 16
def CopyBlk.chunks (x : CopyBlk) : Nat := ceilDiv x.bytes 512

/-- The box coordinates of a 16-byte unit. -/
def CopyBlk.coord (x : CopyBlk) (u : Nat) : Nat × Nat × Nat :=
  (16 * u % x.e0, 16 * u / x.e0 % x.e1, 16 * u / (x.e0 * x.e1))
def CopyBlk.src (x : CopyBlk) (base : W64) (u : Nat) : W64 :=
  let (a, b, c) := x.coord u
  base + BitVec.ofNat 64 a + BitVec.ofNat 64 b * x.s1 + BitVec.ofNat 64 c * x.s2
def CopyBlk.dst (x : CopyBlk) (base : W64) (u : Nat) : W64 :=
  let (a, b, c) := x.coord u
  base + BitVec.ofNat 64 a + BitVec.ofNat 64 b * x.d1 + BitVec.ofNat 64 c * x.d2

/-! ## Checks at issue (R231, R234, R248, R403) -/

/-- Apertures that a copy reaches. -/
def copyAp : Reach := ⟨false, true, true⟩

/-- A 16-byte unit's address can lie at an endpoint. -/
def copyAddrOk (d : Dev) (f : Flock) (a : W64) : Bool :=
  match steer d f 0 copyAp a.toNat with
  | .bad _ => false
  | _ => true

/-- The flocks that a copy writes to, as core and slot. -/
def copyTargets (d : Dev) (f : Flock) (kind : CopyKind) (mask : Nat) : List (Nat × Nat) :=
  match kind with
  | .mc => (d.herdOf f).filterMap (fun x => if mask.testBit x.hidx then some (x.core, x.slot) else none)
  | _ => [(f.core, f.slot)]

/-- A COPYMC destination: a scratchpad offset of the form with PEER = 0. -/
def mcOffset (a : W64) : Bool := a.toNat / 2 ^ 56 = 0xFF ∧ bits a.toNat 24 3 = 0

/-- Offending fields of the copy block (R129, R248); the lowest counts (R399). -/
def Env.copyBad (v : Env) (b : List Byte) (kind : CopyKind) (sad dad : W64) : Option Nat :=
  let x := copyBlk b
  let d := v.s.dev
  let ext (e : Nat) : Bool := decide (e = 0 ∨ 65536 < e)
  let sized : Bool := !ext x.e0 && !ext x.e1 && !ext x.e2 && decide (x.bytes ≤ 65536 ∧ x.e0 % 16 = 0)
  let us := if sized then List.range x.units else [0]
  let toMem : Bool := kind ≠ .q
  let w := field b 0x1C 4
  let names (i : Nat) : Bool := !x.mask.testBit i || (d.herdOf v.f).any (fun y => y.hidx = i)
  lowest [
    (0x00, decide (sad.toNat % 16 ≠ 0) || us.any (fun u => !copyAddrOk d v.f (x.src sad u))),
    (0x08, toMem && (decide (dad.toNat % 16 ≠ 0) || us.any (fun u => !copyAddrOk d v.f (x.dst dad u) ||
      (decide (kind = .mc) && !mcOffset (x.dst dad u))))),
    (0x10, ext x.e0 || decide (x.e0 % 16 ≠ 0 ∨ 65536 < x.bytes) || decide (kind = .q ∧ x.bytes % 1024 ≠ 0)),
    (0x14, ext x.e1),
    (0x18, ext x.e2),
    (0x1C, decide (bits w 8 24 ≠ 0 ∨ bits w 2 2 ≠ 0 ∨ x.dims = 0) ||
      (decide (kind = .mc) && (decide (x.mask = 0) || !(List.range 4).all names))),
    (0x20, decide (x.s1.toNat % 16 ≠ 0)),
    (0x28, decide (x.s2.toNat % 16 ≠ 0)),
    (0x30, toMem && decide (x.d1.toNat % 16 ≠ 0)),
    (0x38, toMem && decide (x.d2.toNat % 16 ≠ 0)) ]

/-! ## Promises (R250) -/

/-- The row of an endpoint: its rank in the table. -/
def copyRow (s : State) (f : Flock) (a : W64) : Nat :=
  match steer s.dev f 0 copyAp a.toNat with
  | .place (.spad _ _ _) => 0
  | .place (.vault v _) => if v = clusterOf f.core then 1 else 2
  | .virt va =>
    match xlat s (some f.core) f.ctx f.regs.ptroot va .read with
    | .ok pa _ => if inHost pa then 4 else 3
    | _ => 3
  | _ => 3

/-- LAT and BW of a row. -/
def copyRate (row : Nat) : Nat × Nat :=
  match row with
  | 0 => (160, 256)
  | 1 => (320, 128)
  | 2 => (1280, 64)
  | 3 => (4800, 48)
  | _ => (8000, 16)

/-- The promised completion time. -/
def promise (d : Dev) (core ctx bytes : Nat) (lat bw : Nat) : Nat :=
  let t := d.ctime
  let dur := ceilDiv bytes bw
  let last := if t ≤ (d.core core).plast then (d.core core).plast else 0
  let p := max (t + lat) last + dur
  match d.server? 2 core ctx with
  | some v => if v.c < dur * 65536 then p + (v.d * 40 - t) else p
  | none => p

/-! ## Acceptance (R127, R232, R249-R251) -/

/-- Copies that the engine holds. -/
def copyRoom : Nat := 64

/-- Contexts with copies that have units left. -/
def copyWork (c : Core) : List Nat :=
  (List.range 64).filter (fun k => c.cpy.any (fun o => o.ctx = k ∧ o.done.length < (copyBlk o.blk).units))

/-- Clears bits C−1 to 0 of an m register. -/
def clearBits (m : BitVec 128) (c : Nat) : BitVec 128 := m &&& ~~~(BitVec.ofNat 128 (2 ^ c - 1))

/-- The engine accepts a copy: the m registers are cleared, CPCNT rises, the promise is written. -/
def Env.toCopy (v : Env) (o : CopyOp) (lat : Nat) : Eff := look fun s =>
  let x := copyBlk o.blk
  let core := v.r.core
  let work := copyWork (s.dev.core core)
  let d0 := clockServers 2 core (v.f.ctx :: work) (clockServers 2 core work s.dev)
  let p := promise d0 core v.f.ctx x.bytes lat o.bw
  upd (fun _ =>
    let d1 := d0.modCore core (fun c =>
      { c with cpy := c.cpy ++ [{ o with id := d0.nextId }], plast := max c.plast p,
               metaq := if o.kind = .q then c.metaq.mapIdx (fun i q =>
                   if i = o.m then { q with bound := some (core, v.r.slot) } else q) else c.metaq })
    let d2 := if o.kind = .q then d1 else
      o.targets.foldl (fun d t => d.modFlock t.1 t.2 (fun f =>
        { f with ms := f.ms.set o.m (clearBits (f.m o.m) x.chunks) })) d1
    { (d2.modThread v.r (fun th =>
        { (th.wr64 v.b.vd (BitVec.ofNat 64 p)) with cnt := { th.cnt with cp := th.cnt.cp + 1 } })) with
      nextId := d0.nextId + 1 })

/-- COPY, COPYMC and COPYQ (R231, R234, R247-R251). -/
def copyM (kind : CopyKind) : Meaning := both
  (fun v =>
    let slice : Bool := v.r.t = instId
    let i := v.b.vd.index v.th
    if v.f.kern.access && !slice then .trap cRIGHTS 0 0
    else if slice && !v.b.vd.isVz && decide (i % 4 ≠ 0) then .trap cREGBOUND 0 (badAddr i)
    else
      v.withBlk (fun b =>
        let off (k : Nat) : W64 :=
          if slice && !v.b.vd.isVz then pair (v.th.reg (i.toNat + k)) (v.th.reg (i.toNat + k + 1)) else 0
        let sad := BitVec.ofNat 64 (field b 0 8) + off 0
        let dad := BitVec.ofNat 64 (field b 8 8) + off 2
        match v.copyBad b kind sad dad with
        | some sub => .trap cOPERAND sub v.blkAddr
        | none =>
          if v.queueTaken then .stay
          else if copyRoom ≤ (v.s.dev.core v.r.core).cpy.length then
            .jump (updT v.r (fun th => { th with wait := .engine false }))
          else
            let x := copyBlk b
            let row := max (copyRow v.s v.f sad) (if kind = .q then 0 else copyRow v.s v.f dad)
            let (lat, bw) := copyRate row
            let m := match v.b with
              | .e w => if kind = .q then w.qs else w.aux
              | _ => 0
            .done (v.toCopy
              { id := 0, ref := v.r, ctx := v.f.ctx, kind := kind, blk := b, sadr := sad, dadr := dad, m := m,
                after := v.before, targets := copyTargets v.s.dev v.f kind x.mask, done := [], held := [], buf := [],
                placed := 0, regs := v.f.regs, bw := bw } lat)))
  noneRule

def mCopy : Meaning := copyM .copy
def mCopymc : Meaning := copyM .mc
def mCopyq : Meaning := copyM .q

/-! ## Unit transfers (R249, R404, R407) -/

/-- Where a unit lies: a place, a page fault at a level, an illegal condition with its trap code, or a translation that met
bits beyond correction. -/
inductive UnitAt
  | at_ (l : Loc) (nc : Bool)
  | fault (va lvl : Nat)
  | bad (code : Nat)
  | ecc
  | stuck (pa : Nat)
  deriving DecidableEq, Repr

/-- A copy's access to a generic address. -/
def unitAt (s : State) (f : Flock) (o : CopyOp) (a : W64) (kind : AccKind) : UnitAt :=
  match steer s.dev f 0 copyAp a.toNat with
  | .bad c => .bad c
  | .place l => .at_ l false
  | .virt va =>
    match xlat s (some f.core) o.ctx o.regs.ptroot va kind with
    | .ok pa leaf => .at_ (placeOf pa leaf va) (pteNc leaf || inHost pa || pteMx leaf)
    | .denied => .bad cPERM
    | .perm => .bad cPERM
    | .fault l => .fault va l
    | .bad => .ecc
    | .stuck pa => .stuck pa
def unitAtE (d : Dev) (f : Flock) (o : CopyOp) (a : W64) (kind : AccKind) : Eff :=
  match steer d f 0 copyAp a.toNat with
  | .virt va => xlatE (some f.core) o.ctx o.regs.ptroot va kind
  | _ => skip

/-- The requester of a copy's accesses (R326). -/
def CopyOp.who (o : CopyOp) (d : Dev) (nc consume : Bool) : Who :=
  match d.server? 2 o.ref.core o.ctx with
  | some v => ⟨some o.ref.core, some o.ctx, some o.ctx, v.group, v.cls, v.d, nc, consume, none⟩
  | none => ⟨some o.ref.core, some o.ctx, some o.ctx, 15, 3, 2 ^ 64 - 1, nc, consume, none⟩

/-- A request to a place goes to a home slice or a vault (R326). -/
def Loc.leaves (l : Loc) : Bool :=
  match l with
  | .dram _ => true
  | .mxel _ _ _ => true
  | .vault _ _ => true
  | _ => false

def modCopy (core id : Nat) (g : CopyOp → CopyOp) : Dev → Dev := fun d =>
  d.modCore core (fun c => { c with cpy := c.cpy.map (fun o => if o.id = id then g o else o) })

/-- The copy ends: CPCNT falls. -/
def copyEnd (core : Nat) (o : CopyOp) : Dev → Dev := fun d =>
  (d.modCore core (fun c => { c with cpy := c.cpy.filter (fun p => p.id ≠ o.id) })).modThread o.ref
    (fun th => { th with cnt := { th.cnt with cp := th.cnt.cp - 1 } })

/-- A page fault of a copy (R407, R409): the flock is aborted, or the unit is held. -/
def copyFault (f : Flock) (o : CopyOp) (unit va lvl : Nat) (kind : AccKind) : Eff := look fun s =>
  let (fid, rec) := faultRecord f 2 (!f.committed) va lvl kind s
  if f.committed then rec.andThen (upd (modCopy o.ref.core o.id (fun p => { p with held := (unit, fid) :: p.held })))
  else rec.andThen (abortFlock f (some fid))

/-- An illegal condition that an engine meets after acceptance (R404). -/
def engineStop (ctx core : Nat) (addr : W64) (code : Nat) : Eff :=
  contained ctx (clusterOf core) 0x72 (core % 4) addr (BitVec.ofNat 64 code)

/-- The place of a unit's destination is the place of a source unit too (R249). -/
def CopyOp.meets (o : CopyOp) (s : State) (l : Loc) : Bool :=
  match s.dev.flock? o.ref.core o.ref.slot with
  | some f => (List.range (copyBlk o.blk).units).any (fun u =>
      match unitAt s f o ((copyBlk o.blk).src o.sadr u) .read with
      | .at_ ls _ => ls == l
      | _ => false)
  | none => false

/-- Writes a unit at one target (R249): the target core's L1 copy of a global line goes. `dst` is the place of a
COPY's destination. Destination bytes that are source bytes too receive free values (R249: not defined; log 75). -/
def unitWrite (o : CopyOp) (x : CopyBlk) (unit : Nat) (bs : List Byte) (dst : Loc) (nc : Bool) (done : List Nat)
    (t : Nat × Nat) : Eff := look fun s =>
  let a := x.dst o.dadr unit
  let l : Loc := if o.kind = .mc then .spad t.1 t.2 (a.toNat % 2 ^ 21) else dst
  let w := o.who s.dev nc false
  let put : Eff := (eccWrite l 16).andThen (look fun s =>
    let (r, n) := s.dev.writeRange w l 16 18
    (eccRead (some o.ctx) r n).andThen (if s.dev.eccBad r n then skip
      else if o.meets s l then
        (pointWrite w .plain l ((List.range 16).map (Config.undefByte s.dev.free))).andThen
          (upd (fun d => { d with free := d.free + 1 }))
      else pointWrite w .plain l bs))
  match l with
  | .dram pa =>
    let k := pa % 128 / 16
    let mates := (List.range 8).map (fun i => unit + i - k)
    let full : Bool := decide (k ≤ unit) && mates.all (fun u => decide (u ∈ done) &&
      decide (x.dst o.dadr u = a + BitVec.ofNat 64 (16 * u) - BitVec.ofNat 64 (16 * unit)))
    seqE [
      whenE full (eccWrite (.dram (pa / 128 * 128)) 128),
      put,
      upd (fun d => l1Stale t.1 (pa / 128) (d.modCore t.1 (fun c => c.drop (pa / 128)))) ]
  | _ => put

/-- After a unit: its chunk's bit once the chunk is written, CPCNT once the copy is (R249). -/
def unitDone (core : Nat) (o : CopyOp) (x : CopyBlk) (unit : Nat) (done : List Nat) : Eff := upd fun d =>
  let q := unit / 32
  let all := (List.range 32).all (fun i => x.units ≤ 32 * q + i || decide (32 * q + i ∈ done))
  let d1 := modCopy core o.id (fun p => { p with done := done }) d
  let d2 := if all then o.targets.foldl (fun d t => d.modFlock t.1 t.2 (fun f =>
      { f with ms := f.ms.set o.m (f.m o.m ||| BitVec.ofNat 128 (2 ^ q)) })) d1 else d1
  if done.length = x.units then copyEnd core o d2 else d2

/-- COPY_UNIT_TRANSFER: one unit is read once and written to each destination. -/
def unitTransfer (core id unit : Nat) : Eff := look fun s =>
  withE ((s.dev.core core).cpy.find? (fun o => o.id = id)) fun o =>
    withE (s.dev.flock? o.ref.core o.ref.slot) fun f =>
      let x := copyBlk o.blk
      let work := copyWork (s.dev.core core)
      let can := (s.dev.core core).cpy.filterMap (fun p =>
        if p.done.length + p.held.length < (copyBlk p.blk).units ∧ p.after.all s.dev.isDone then some p.ctx else none)
      let rr := (s.dev.core core).rr[5]?.getD 0
      if x.units ≤ unit ∨ unit ∈ o.done ∨ o.held.any (fun h => h.1 = unit) ∨ o.after.any (fun a => !s.dev.isDone a) then skip
      else
        (upd (clockServers 2 core work)).andThen (look fun s =>
          if s.dev.stopped ∨ s.dev.grant 2 core can rr ≠ some o.ctx then skip
          else
            let src := x.src o.sadr unit
            let dst := x.dst o.dadr unit
            let turn : Eff := upd (fun d0 =>
              let d := if d0.isBg 2 core o.ctx then d0.modCore core (fun c => { c with rr := c.rr.set 5 o.ctx }) else d0
              chargeServer 2 core o.ctx (ceilDiv (65536 * 16) o.bw) d)
            let srcE := unitAtE s.dev f o src .read
            let s1 := s.apply (srcE s)
            match unitAt s f o src .read with
            | .stuck pa => halt (.noSuchLocation pa)
            | .ecc => srcE
            | .bad c => engineStop o.ctx core src c
            | .fault va l => copyFault f o unit va l .read
            | .at_ ls nc =>
              let bs := s.point ls 16
              let down (l : Loc) : Bool := l.isHost && !s.dev.mgmt.linkUp
              let done := unit :: o.done
              let late : Eff := whenE ls.leaves (upd (missed o.ctx (o.who s.dev false true).stamp))
              let read : Eff := seqE [ turn, late, srcE ]
              let (rl, rn) := s.dev.fillRange ls 16 nc
              let get : Eff := (eccRead (some o.ctx) rl rn).andThen (pointRead (o.who s.dev nc true) ls 16)
              if down ls then contained o.ctx 108 0x37 0 src 0
              else if s.dev.eccBad rl rn then eccRead (some o.ctx) rl rn
              else
                match o.kind with
                | .q => seqE [ read, get, upd (modCopy core id (fun p => { p with done := done, buf := aset p.buf unit bs })) ]
                | .mc => seqE [ read, get, forE o.targets (unitWrite o x unit bs ls false done), unitDone core o x unit done ]
                | .copy =>
                  match unitAt s1 f o dst .write with
                  | .stuck pa => halt (.noSuchLocation pa)
                  | .ecc => unitAtE s1.dev f o dst .write
                  | .bad c => engineStop o.ctx core dst c
                  | .fault va l => copyFault f o unit va l .write
                  | .at_ ld ncd =>
                    if down ld then contained o.ctx 108 0x37 0 dst 0
                    else seqE [
                      read,
                      unitAtE s1.dev f o dst .write,
                      get,
                      forE o.targets (unitWrite o x unit bs ld ncd done),
                      unitDone core o x unit done ])

/-- COPYQ_ENTRY_PLACE (R251): the next 1,024 bytes of the box become an entry. -/
def entryPlace (core id : Nat) : Eff := look fun s =>
  withE ((s.dev.core core).cpy.find? (fun o => o.id = id)) fun o =>
    withE ((s.dev.core core).metaq[o.m]?) fun q =>
      let us := (List.range 64).map (64 * o.placed + ·)
      let parts := us.filterMap (fun u => aget o.buf u)
      if s.dev.stopped ∨ o.kind ≠ .q ∨ q.bound ≠ some (o.ref.core, o.ref.slot) ∨ 16 ≤ q.items.length ∨ parts.length < 64 then skip
      else
        upd (fun d =>
          let d1 := d.modCore core (fun c => { c with metaq := c.metaq.set o.m { q with items := q.items ++ [parts.flatten] } })
          if 64 * (o.placed + 1) < (copyBlk o.blk).units then
            modCopy core id (fun p => { p with placed := p.placed + 1, buf := p.buf.filter (fun b => decide (b.1 ∉ us)) }) d1
          else metaFree core o.m (copyEnd core o d1))

/-! ## ENGINE_ACCEPT (R232) -/

/-- The threads of a core that wait for room, in the engine's order: instances by slot, then execute threads by port
group and lane. -/
def Dev.engineWaiters (d : Dev) (core : Nat) (matrix : Bool) : List TRef :=
  let fs := d.flocks.filter (fun f => f.core = core)
  let waits (th : Thread) : Bool := th.wait = .engine matrix ∧ th.ended = none
  ((List.range 16).flatMap (fun l => fs.filterMap (fun f =>
      if f.slot = l ∧ f.inst.any waits then some ⟨core, l, instId⟩ else none))) ++
    ((List.range 4).flatMap (fun g => (List.range 32).flatMap (fun n => fs.flatMap (fun f =>
      (f.threads.filter (fun th => waits th && pgOf th.t = g && laneOf th.t = n)).map (fun th => ⟨core, f.slot, th.t⟩)))))

/-- ENGINE_ACCEPT: as many as the queue has room for become ready and issue again. -/
def engineAccept (core : Nat) (matrix : Bool) : Eff := look fun s =>
  let c := s.dev.core core
  let room := if matrix then matRoom - c.mat.length else copyRoom - c.cpy.length
  forE ((s.dev.engineWaiters core matrix).take room) (fun r => updT r (fun th => { th with wait := .none }))

/-! ## Operand queues (R255, R256) -/

/-- SPUSH: appends an s register value. -/
def mSpush : Meaning := fun v =>
  match v.b with
  | .t x =>
    let e : W64 := BitVec.ofNat 64 (v.srcN (intRegs v.h.var) x.va)
    .done (upd (fun d => d.modFlock v.r.core v.r.slot (fun f =>
      { f with oq := f.oq.mapIdx (fun i q => if i = x.vd.num then { q with items := q.items ++ [e] } else q) })))
  | _ => .done skip

/-- QPOP: the entry at the thread's position. -/
def mQpop : Meaning := both
  (fun v =>
    match v.b with
    | .t x =>
      let i := x.va.num
      let pos := v.th.oqpos[i]?.getD 0
      if !v.f.kern.access then .trap cRIGHTS 0 0
      else if v.queueEnd then (if v.f.instEnded then .trap cRIGHTS 0 0 else .stay)
      else
        let e := v.queue.items[pos - v.queue.base]?.getD 0
        .done ((updT v.r (fun th => { (th.wrN (intRegs v.h.var) x.vd e.toNat) with oqpos := th.oqpos.set i (pos + 1) })).andThen
          (upd (fun d => d.modFlock v.r.core v.r.slot Flock.oqFree)))
    | _ => .done skip)
  noneRule

/-! ## The instructions and the engine's steps -/

/-- COPY (R247). -/
def execCopy (w : EWord) (s : State) : Host.Outcome State Fault Refusal := commit (issue 0xB0 (.e w) mCopy) s
/-- COPYMC (R247). -/
def execCopymc (w : EWord) (s : State) : Host.Outcome State Fault Refusal := commit (issue 0xB1 (.e w) mCopymc) s
/-- COPYQ (R251). -/
def execCopyq (w : EWord) (s : State) : Host.Outcome State Fault Refusal := commit (issue 0xB2 (.e w) mCopyq) s
/-- SPUSH (R255). -/
def execSpush (w : TWord) (s : State) : Host.Outcome State Fault Refusal := commit (issue 0xB3 (.t w) mSpush) s
/-- QPOP (R256). -/
def execQpop (w : TWord) (s : State) : Host.Outcome State Fault Refusal := commit (issue 0xB4 (.t w) mQpop) s
/-- COPY_UNIT_TRANSFER (R249). -/
def execCopyUnitTransfer (core id unit : Nat) (s : State) : Host.Outcome State Fault Refusal := commit (unitTransfer core id unit) s
/-- COPYQ_ENTRY_PLACE (R251). -/
def execCopyqEntryPlace (core id : Nat) (s : State) : Host.Outcome State Fault Refusal := commit (entryPlace core id) s
/-- ENGINE_ACCEPT (R232). -/
def execEngineAccept (core : Nat) (matrix : Bool) (s : State) : Host.Outcome State Fault Refusal := commit (engineAccept core matrix) s

end Sys2Proof.Machine
end

