-- ==== Sys2Proof/Machine/Virt.lean ====
section
/-! DEFINITION. Accesses of units other than cores to a context's virtual memory, cut at line borders: the collective
engine, graph walkers, run scheduler and peer targets (R91-R95, R378, R408). -/

namespace Sys2Proof.Machine

/-- A range of addresses cut at 128-byte lines. -/
def lineSegs (a n : Nat) : List (Nat × Nat) :=
  (List.range (ceilDiv (a % 128 + n) 128)).map (fun i =>
    let lo := max a ((a / 128 + i) * 128)
    (lo, min (a + n) ((a / 128 + i + 1) * 128) - lo))

/-- Where a unit's access to a virtual address ends: a place, or no legal translation, where `perm` says that the entry is
there and does not permit it; or a translation that met bits beyond correction. -/
inductive VAt
  | at_ (l : Loc)
  | bad (va : Nat) (perm : Bool)
  | ecc
  | stuck (pa : Nat)
  deriving DecidableEq, Repr

/-- A unit's access for a context at a 64-bit global address. -/
def State.vat (s : State) (ctx : Nat) (ptroot : W64) (a : Nat) (kind : AccKind) : VAt :=
  if 2 ^ 57 ≤ a then .bad a true
  else
    match xlat s none ctx ptroot a kind with
    | .ok pa leaf => .at_ (placeOf pa leaf a)
    | .denied => .bad a true
    | .perm => .bad a true
    | .fault _ => .bad a false
    | .bad => .ecc
    | .stuck pa => .stuck pa

/-- The first part of a range without a legal translation. -/
def State.vbad (s : State) (ctx : Nat) (ptroot : W64) (a n : Nat) (kind : AccKind) : Option (Nat × Bool) :=
  (lineSegs a n).findSome? (fun x =>
    match s.vat ctx ptroot x.1 kind with
    | .bad va p => some (va, p)
    | _ => none)

/-- The bytes of a range; a part without a legal translation gives none. -/
def State.vbytes (s : State) (ctx : Nat) (ptroot : W64) (a n : Nat) : List Byte :=
  (lineSegs a n).flatMap (fun x =>
    match s.vat ctx ptroot x.1 .read with
    | .at_ l => s.point l x.2
    | _ => [])

/-- Some byte of a range, or of an entry that maps it, was found beyond correction. -/
def State.vecc (s : State) (ctx : Nat) (ptroot : W64) (a n : Nat) (kind : AccKind) : Bool :=
  (lineSegs a n).any (fun x =>
    match s.vat ctx ptroot x.1 kind with
    | .at_ l =>
      if kind = .read then s.dev.eccBad (s.dev.fillRange l x.2 false).1 (s.dev.fillRange l x.2 false).2
      else !(s.dev.writeBad (.forCtx ctx) l x.2 18).isEmpty
    | .ecc => true
    | _ => false)

/-- What the translations of a range change; an entry in no region stops the machine. -/
def vxlatE (ctx : Nat) (ptroot : W64) (a n : Nat) (kind : AccKind) : Eff :=
  forE (lineSegs a n) (fun x => if 2 ^ 57 ≤ x.1 then skip else xlatE none ctx ptroot x.1 kind)

/-- What a read of a range changes: a part with bits beyond correction is not read (R378). -/
def vreadE (ctx : Nat) (ptroot : W64) (a n : Nat) : Eff :=
  (vxlatE ctx ptroot a n .read).andThen (forE (lineSegs a n) (fun x => look fun s =>
    match s.vat ctx ptroot x.1 .read with
    | .at_ l =>
      let (r, n) := s.dev.fillRange l x.2 false
      (eccRead (some ctx) r n).andThen (if s.dev.eccBad r n then skip else pointRead (.forCtx ctx) l x.2)
    | _ => skip))

/-- Writes bytes to a range, where it has legal translations; a part that meets bits beyond correction is not written. -/
def vwriteE (ctx : Nat) (ptroot : W64) (a : Nat) (bs : List Byte) : Eff :=
  (vxlatE ctx ptroot a bs.length .write).andThen (forE (lineSegs a bs.length) (fun x => look fun s =>
    match s.vat ctx ptroot x.1 .write with
    | .at_ l =>
      (eccWrite l x.2).andThen (look fun s =>
        let (r, n) := s.dev.writeRange (.forCtx ctx) l x.2 18
        (eccRead (some ctx) r n).andThen
          (if s.dev.eccBad r n then skip else pointWrite (.forCtx ctx) .plain l ((bs.drop (x.1 - a)).take x.2)))
    | _ => skip))

/-- A read for context `ctx` and what follows: `bad` at a part without a legal translation, nothing more when bytes
beyond correction stop the context. -/
def withRead (ctx : Nat) (ptroot : W64) (a n : Nat) (bad : Nat → Bool → Eff) (k : List Byte → Eff) : Eff := look fun s =>
  match s.vbad ctx ptroot a n .read with
  | some (va, p) => (vxlatE ctx ptroot a n .read).andThen (bad va p)
  | none =>
    (vreadE ctx ptroot a n).andThen (if s.vecc ctx ptroot a n .read then skip else k (s.vbytes ctx ptroot a n))

/-- A write for context `ctx` and what follows; nothing is written when a part has no legal translation. -/
def withWrite (ctx : Nat) (ptroot : W64) (a : Nat) (bs : List Byte) (bad : Nat → Bool → Eff) (k : Eff) : Eff := look fun s =>
  match s.vbad ctx ptroot a bs.length .write with
  | some (va, p) => (vxlatE ctx ptroot a bs.length .write).andThen (bad va p)
  | none =>
    (vwriteE ctx ptroot a bs).andThen (if s.vecc ctx ptroot a bs.length .write then skip else k)

end Sys2Proof.Machine
end

