-- ==== Sys2Proof/Machine/Route.lean ====
section
/-! DEFINITION. The fabric's routes: rank tables, flits on the Twill ports, and the hops of route admissions (R318, R325,
R360-R363, R427). -/

namespace Sys2Proof.Machine

/-! ## Rank tables and routes (R360, R362) -/

/-- An entry of a rank table. -/
structure RankEnt where
  dev : Nat
  tctx : Nat
  wsize : Nat
  deriving DecidableEq, Repr

/-- The physical address of entry `r` of a context's rank table. -/
def Dev.rankAt (d : Dev) (ctx r : Nat) : Nat := (d.ctx ctx).eff.rankbase.toNat + 16 * r

def State.rankEnt (s : State) (ctx r : Nat) : RankEnt :=
  let b := s.phys (s.dev.rankAt ctx r) 16
  ⟨bits (field b 0 2) 0 12, bits (field b 2 1) 0 6, field b 8 8⟩

/-- A physical address in a region of R93. -/
def inRegion (pa : Nat) : Bool := inDram pa || inHost pa

/-- The granules of 16 bytes that a table entry of `n` bytes takes, and the check of its read for a context (R378). -/
def Dev.tableBad (d : Dev) (pa n : Nat) : Bool := (List.range (ceilDiv n 16)).any (fun i => d.eccBad (physLoc (pa + 16 * i)) 16)
def tableRead (ctx pa n : Nat) : Eff := look fun s =>
  whenE (!s.dev.marks.isEmpty) (forE (List.range (ceilDiv n 16)) (fun i => eccRead (some ctx) (physLoc (pa + 16 * i)) 16))

/-- The port toward a device, an alternate in place of a port that is down; 16 stands for this device, which an entry of
0x8000 names (R360, R361, R427). -/
def ownPort : Nat := 16
def Dev.routeOf (d : Dev) (dev : Nat) : Nat := (aget d.routetbl dev).getD 0
def Dev.port (d : Dev) (dev : Nat) : Nat :=
  let e := d.routeOf dev
  if e = 0x8000 then ownPort
  else if bits e 0 4 ∈ d.fab.down ∧ bit e 8 then bits e 4 4 else bits e 0 4

/-! ## Flits (R318, R361) -/

/-- Bytes of a flit. -/
def flitBytes : Nat := 256

/-- The 8-byte header of a flit. -/
def flitHeader (f : Flit) : Nat :=
  bits f.kind 0 4 * 2 ^ 60 + bits f.dst 0 12 * 2 ^ 48 + bits f.msg.src 0 12 * 2 ^ 36 + bits f.msg.sctx 0 6 * 2 ^ 30 +
    bits f.msg.tctx 0 6 * 2 ^ 24 + bits f.msg.tag 0 16 * 2 ^ 8 + bits f.seq 0 8

/-- A flit as it crosses a link: the header, 240 bytes of payload, and the CRC-64 over both. -/
def flitBits (f : Flit) : List Byte :=
  let rest := leBytes 8 (flitHeader f) ++ f.msg.data.takeD 240 0
  rest ++ leBytes 8 (Config.crc64 rest).toNat

/-- A message leaves through the port toward its destination with the link's next sequence number, or stays in this
device. -/
def sendFlit (m : PeerMsg) : Dev → Dev := fun d =>
  let p := d.port m.dst
  let seq := d.fab.seqs[p]?.getD 0
  { d with fab := { d.fab with sends := d.fab.sends ++ [(p, ⟨m.kind, m.dst, seq, true, m⟩)],
                               seqs := d.fab.seqs.set p ((seq + 1) % 256) } }

/-- A flit of another device goes on, with this link's sequence number (R361). -/
def forwardFlit (f : Flit) : Dev → Dev := fun d => sendFlit { f.msg with kind := f.kind, dst := f.dst } d

/-- The charge of a flit (R318). -/
def flitUnits : Nat := ceilDiv (flitBytes * 65536) 56

/-- A context's flit waits for its port; one for this device stays in it, and a port that is down carries none. -/
def queueFlit (ctx : Nat) (m : PeerMsg) : Dev → Dev := fun d =>
  let p := d.port m.dst
  if p = ownPort then sendFlit m d
  else if p ∈ d.fab.down then d
  else { d with fab := { d.fab with queue := d.fab.queue ++ [(ctx, m)] } }

/-- A context's flit leaves: its server on the port is charged. -/
def sendCharged (ctx : Nat) (m : PeerMsg) : Dev → Dev := fun d =>
  let p := d.port m.dst
  let d1 := sendFlit m d
  if p < 16 then chargeServer 4 p ctx flitUnits d1 else d1

/-! ## Hops of a route (R325, R362, R419) -/

/-- Q and T that a command may stage. -/
def rateOk (q t : Nat) : Bool := decide (1 ≤ q ∧ q ≤ t ∧ t ≤ 10 ^ 8)

/-- A server just admitted: c = 0, d = 0, IDLE (R319). -/
def newServer (kind inst slot ctx q t : Nat) (hard : Bool) (group cls : Nat) : Server :=
  ⟨kind, inst, slot, ctx, q, t, 0, 0, hard, .idle, group, cls⟩

def hopOf (b : List Byte) : Hop := ⟨field b 0 4, field b 4 2, bit (field b 6 2) 0, field b 8 4, field b 12 4⟩

/-- The lowest free slot of an instance. -/
def Dev.openSlot (d : Dev) (kind inst : Nat) : Option Nat := (List.range 16).find? (fun i => (d.slot? kind inst i).isNone)

/-- A hop of this device is accepted: its port is there and up, and the port's table takes the server. -/
def Dev.takeHop (d : Dev) (ctx : Nat) (h : Hop) : Option Dev :=
  match d.openSlot 4 h.port with
  | none => none
  | some slot =>
    if 16 ≤ h.port ∨ h.port ∈ d.fab.down ∨ rateOk h.q h.t = false ∨ (d.server? 4 h.port ctx).isSome ∨
        d.bound 4 h.port < d.load 4 h.port + loadTerm h.q h.t then none
    else some { d with servers := d.servers ++ [newServer 4 h.port slot ctx h.q h.t h.hard 15 3] }

/-- What a route-admission flit asks or answers (log 56). -/
def hopAsk : Nat := 0
def hopKeep : Nat := 1
def hopRelease : Nat := 2
def hopYes : Nat := 3
def hopNo : Nat := 4

/-- A route-admission flit to the device of a hop: the port, and MODE, Q and T. -/
def hopMsg (d : Dev) (op ctx : Nat) (x : RouteHop) : PeerMsg :=
  { kind := 8, src := d.fab.devno, sctx := ctx, dst := x.dev, tctx := x.tctx, tag := 0, fa := x.hop.port, size := 10, op := op,
    data := leBytes 2 x.hop.hard.toNat ++ leBytes 4 x.hop.q ++ leBytes 4 x.hop.t }

/-- The answer of a hop of another device, at the first hop that waits for it. -/
def hearHop (dev tctx port : Nat) (yes : Bool) : List RouteHop → List RouteHop
  | [] => []
  | x :: xs =>
    if x.dev = dev ∧ x.tctx = tctx ∧ x.hop.port = port ∧ x.ans = none then { x with ans := some yes } :: xs
    else x :: hearHop dev tctx port yes xs

/-- This device holds a hop for a route of another device until the requester keeps or releases it (R325); an answer to a hop
of its own route is noted for the next ROUTEADM. -/
def serveHop (m : PeerMsg) : Eff := look fun s =>
  let h : Hop := ⟨0, m.fa, bit (field m.data 0 2) 0, field m.data 2 4, field m.data 6 4⟩
  let answer (op : Nat) : Eff := upd (fun d =>
    sendFlit { m with op := op, src := d.fab.devno, dst := m.src, tctx := m.sctx, sctx := m.tctx, data := [], size := 0 } d)
  let mine (x : HopHold) : Bool := x.src = m.src ∧ x.sctx = m.sctx ∧ x.port = m.fa
  if m.op = hopAsk then
    if s.dev.fab.hops.any mine then answer hopYes
    else
      match s.dev.openSlot 4 h.port, s.dev.takeHop m.tctx h with
      | some slot, some d =>
        (upd (fun _ => { d with fab := { d.fab with hops := d.fab.hops ++ [⟨m.src, m.sctx, m.fa, slot, false⟩] } })).andThen
          (answer hopYes)
      | _, _ => answer hopNo
  else if m.op = hopKeep then upd (fun d => { d with fab := { d.fab with hops := d.fab.hops.filter (fun x => !mine x) } })
  else if m.op = hopRelease then
    upd (fun d =>
      { d with
        servers := d.servers.filter (fun v => !(d.fab.hops.any (fun x => mine x && decide (v.kind = 4 ∧ v.inst = x.port ∧ v.slot = x.slot)))),
        fab := { d.fab with hops := d.fab.hops.filter (fun x => !mine x) } })
  else if m.op = hopYes ∨ m.op = hopNo then
    upd (fun d => d.modCtx m.tctx (fun c => { c with route := hearHop m.src m.sctx m.fa (decide (m.op = hopYes)) c.route }))
  else skip

end Sys2Proof.Machine
end

