-- ==== Sys2Proof/Machine/Peer.lean ====
section
/-! DEFINITION. Peer accesses, Twill flits, streams and collectives (R257-R262, R284, R360-R363, R404, R408, R426-R429). -/

namespace Sys2Proof.Machine

/-! ## PLD, PST, PATOM at issue (R257, R258) -/

/-- With an order, a scope narrower than .fb is read as .fb. -/
def Env.fabric (v : Env) : Env :=
  match v.b with
  | .m x => { v with b := .m { x with scope := if x.ord ≠ 0 then max x.scope 4 else x.scope } }
  | _ => v

/-- A peer access of `n` bytes at a fabric address: rank and window, alignment, then the request (R85, R362). -/
def Env.peerGo (v : Env) (fa : W64) (kind : ReqKind) (n dn : Nat) (data : List Byte) (dest : Nat) (pre : Eff) : Res :=
  let r := bits fa.toNat 48 16
  let at_ := v.s.dev.rankAt v.f.ctx r
  if (v.s.dev.ctx v.f.ctx).eff.rankcnt.toNat ≤ r then v.addrTrap dn cAPERTURE 0 fa
  else if !inRegion at_ then .jump (halt (.noSuchLocation at_))
  else if v.s.dev.tableBad at_ 16 then .jump (tableRead v.f.ctx at_ 16)
  else if (v.s.rankEnt v.f.ctx r).wsize < bits fa.toNat 0 48 + n then v.addrTrap dn cAPERTURE 0 fa
  else if fa.toNat % n ≠ 0 then v.addrTrap dn cALIGN 0 fa
  else
    .done (seqE [
      tableRead v.f.ctx at_ 16,
      pre,
      look fun s => sendReq (v.fabric.newReq s.dev kind (.peer r (bits fa.toNat 0 48)) true n data dest) ])

/-- PLD. -/
def mPld : Meaning := both
  (fun v => v.peerGo v.addr (.pld v.h.var) (memBytes v.h.var) (memRegs v.h.var) [] v.destReg skip) noneRule

/-- PST: commits the flock (R54). -/
def mPst : Meaning := both
  (fun v => v.peerGo v.addr .pst (memBytes v.h.var) 0 (v.storeData (memBytes v.h.var)) 2047
    (upd (commitFlock v.r.core v.r.slot))) noneRule

/-- PATOM: commits the flock (R54). -/
def mPatom : Meaning := both
  (fun v => v.peerGo v.atomAddr (.patom (bits v.b.off 12 4)) (memBytes v.h.var) 0 (v.storeData (memBytes v.h.var)) v.destReg
    (upd (commitFlock v.r.core v.r.slot))) noneRule

/-! ## Sending (R258, R318, R361, R426) -/

/-- The flit KIND of a peer request, and its operation. -/
def ReqKind.peerKind : ReqKind → Option Nat
  | .pld _ => some 1
  | .pst => some 3
  | .patom _ => some 5
  | _ => none
def ReqKind.peerOp : ReqKind → Nat
  | .patom op => op
  | _ => 0

/-- The rank and the fabric offset of a place. -/
def Loc.rank : Loc → Nat × Nat
  | .peer r a => (r, a)
  | _ => (0, 0)

def Dev.isSent (d : Dev) (id : Nat) : Bool := d.fab.outs.any (fun o => o.req = id)

/-- The TAG after `v` in a stream (R426); 65536 stands for a stream that restarts. -/
def nextTag (v : Nat) : Nat := if v = 65536 then 0 else if v = 65535 then 1 else v + 1

/-- A request may leave: what it must follow has been performed, and no earlier access of its thread to its rank
waits. -/
def Dev.maySend (d : Dev) (q : Req) : Bool :=
  q.kind.peerKind.isSome && !d.isSent q.id && q.mayPerform d &&
    d.reqs.all (fun p => !(p.kind.peerKind.isSome && p.ref = q.ref && p.loc.rank.1 = q.loc.rank.1 && decide (p.id < q.id) &&
      !d.isSent p.id))

/-- Sends a request. -/
def sendPeer (ent : RankEnt) (q : Req) : Dev → Dev := fun d =>
  match q.kind.peerKind with
  | none => d
  | some kind =>
    let tag := nextTag ((kget d.fab.tags (q.ctx, ent.dev)).getD 0)
    let m : PeerMsg :=
      { kind := kind, src := d.fab.devno, sctx := q.ctx, dst := ent.dev, tctx := ent.tctx, tag := tag,
        fa := q.loc.rank.1 * 2 ^ 48 + q.loc.rank.2, size := q.n, op := q.kind.peerOp, data := q.data }
    sendCharged q.ctx m { d with fab :=
      { d.fab with tags := kset d.fab.tags (q.ctx, ent.dev) tag,
                   outs := d.fab.outs ++ [⟨m, q.id, d.port ent.dev, d.ctime⟩] } }

/-- The peer requests that may leave through a port, in the order of issue. -/
def State.leaving (s : State) (d : Dev) (port : Nat) : List Req :=
  d.reqs.filter (fun q => d.maySend q && decide (d.port (s.rankEnt q.ctx q.loc.rank.1).dev = port))

/-- The flits of contexts that wait for a port. -/
def Dev.queued (d : Dev) (port : Nat) : List (Nat × PeerMsg) := d.fab.queue.filter (fun x => decide (d.port x.2.dst = port))

/-- A waiting flit leaves; a request that is sent again waits for its answer from now on (R427). -/
def sendQueued (x : Nat × PeerMsg) : Dev → Dev := fun d =>
  sendCharged x.1 x.2 { d with fab :=
    { d.fab with queue := d.fab.queue.erase x,
                 outs := d.fab.outs.map (fun o => if o.msg = x.2 then { o with port := d.port x.2.dst, sent := d.ctime } else o) } }

/-- A Twill port's clock: the arbiter's context sends its first flit, what waits before its requests (R320). -/
def State.portTurn (s : State) (port : Nat) (d : Dev) : Dev :=
  let ready := s.leaving d port
  let wait := d.queued port
  let work := (List.range 64).filter (fun k => ready.any (fun q => q.ctx = k) || wait.any (fun x => x.1 = k))
  let d1 := clockServers 4 port work d
  match d1.grant 4 port work (d1.fab.rr[port]?.getD 0) with
  | none => d1
  | some k =>
    let d2 := if d1.isBg 4 port k then { d1 with fab := { d1.fab with rr := d1.fab.rr.set port k } } else d1
    match wait.find? (fun x => x.1 = k), ready.find? (fun q => q.ctx = k) with
    | some x, _ => sendQueued x d2
    | none, some q => sendPeer (s.rankEnt q.ctx q.loc.rank.1) q d2
    | none, none => d2

/-- Peer requests leave: those for this device at once, the others port by port. -/
def State.pump (s : State) : Dev :=
  if s.dev.stopped || !(s.dev.reqs.any (fun q => q.kind.peerKind.isSome) || !s.dev.fab.queue.isEmpty || s.dev.servers.any (fun v => v.kind = 4)) then s.dev
  else
    (List.range 16).foldl (fun d p => s.portTurn p d)
      ((s.leaving s.dev ownPort).foldl (fun d q => sendPeer (s.rankEnt q.ctx q.loc.rank.1) q d) s.dev)

/-! ## The target (R258, R362, R378, R404, R408, R426) -/

/-- The answer to a request: flit KIND, trap code of a refusal, data. -/
abbrev Answer := Nat × Nat × List Byte

def Answer.msg (a : Answer) (d : Dev) (m : PeerMsg) : PeerMsg :=
  { m with kind := a.1, src := d.fab.devno, dst := m.src, op := a.2.1, data := a.2.2 }

/-- A request that a device can send. -/
def okRequest (m : PeerMsg) : Bool :=
  let n := m.size
  decide (m.src < 4096 ∧ m.sctx < 64 ∧ m.tctx < 64 ∧ m.tag < 65536 ∧ m.fa % n = 0) &&
    (match m.kind with
      | 1 => decide ((n = 1 ∨ n = 2 ∨ n = 4 ∨ n = 8) ∧ m.data = [])
      | 3 => decide ((n = 1 ∨ n = 2 ∨ n = 4 ∨ n = 8) ∧ m.data.length = n)
      | 5 => decide ((n = 4 ∨ n = 8) ∧ m.data.length = n ∧ m.op < 14)
      | _ => false)

/-- What a request does at the target's point of serialisation, and the answer. -/
def peerPerform (m : PeerMsg) : State → Answer × Eff := fun s =>
  let c := (s.dev.ctx m.tctx).eff
  let off := m.fa % 2 ^ 48
  let va := c.expbase.toNat + off
  let kind : AccKind := if m.kind = 1 then .read else if m.kind = 3 then .write else .atomic
  let refuse (code : Nat) (e : Eff) : Answer × Eff := ((9, code, []), e)
  if c.expsize.toNat ≤ off then refuse cAPERTURE skip
  else if 2 ^ 57 ≤ va then refuse cPERM skip
  else
    let pre : Eff := xlatE none m.tctx c.ptroot va kind
    match s.vat m.tctx c.ptroot va kind with
    | .stuck pa => refuse cPERM (halt (.noSuchLocation pa))
    | .bad _ _ => refuse cPERM pre
    | .ecc => refuse 0 pre
    | .at_ l =>
      let old := s.point l m.size
      let w := Who.forCtx m.tctx
      let lost : Bool := l.isHost && !s.dev.mgmt.linkUp && decide (m.kind ≠ 3)
      let (r, n) := if m.kind = 1 then s.dev.fillRange l m.size false else s.dev.writeRange w l m.size (if m.kind = 3 then 18 else 20)
      let bad : Bool := if m.kind = 3 then !(s.dev.writeBad w l m.size 18).isEmpty else s.dev.eccBad l m.size || s.dev.eccBad r n
      if m.kind = 5 ∧ (l.isMx ∨ (l.isHost ∧ !hostAtom m.op)) then refuse cPERM pre
      else if lost then refuse 0 (pre.andThen (containedNone 108 0x37 0 (BitVec.ofNat 64 va) 0))
      else if bad then refuse 0 (pre.andThen (if s.dev.eccBad l m.size then eccRead none l m.size else eccRead none r n))
      else
        match m.kind with
        | 1 => ((2, 0, old), pre.andThen ((eccRead none l m.size).andThen (pointRead w l m.size)))
        | 3 => ((4, 0, []), pre.andThen ((eccWrite l m.size).andThen (pointWrite w .plain l m.data)))
        | _ => ((6, 0, old), pre.andThen ((eccRead none l m.size).andThen
            (pointWrite w .atomic l (leBytes m.size (atomNew m.op m.size (leNat old) (leNat m.data))))))

/-- Puts a stream's record in place. -/
def putStream (x : PeerIn) : Dev → Dev := fun d =>
  { d with fab := { d.fab with ins := x :: d.fab.ins.filter (fun y => ¬(y.src = x.src ∧ y.sctx = x.sctx)) } }

/-- No answer for this long breaks a stream: 1 ms. -/
def streamTicks : Nat := 4000000

/-- The record of a request's stream. TAG 0 clears it, unless the request is the one that began it, sent again within the time
after which the stream breaks (DESIGN CHOICE, log 27). -/
def Dev.streamIn (d : Dev) (m : PeerMsg) : PeerIn :=
  let st := (d.fab.ins.find? (fun y => y.src = m.src ∧ y.sctx = m.sctx)).getD ⟨m.src, m.sctx, 0, [], none⟩
  let again : Bool := st.first.any (fun x => decide (x.1 = m ∧ d.ctime < x.2 + streamTicks))
  if m.tag = 0 ∧ again = false then { st with last := 65536, olds := [], first := some (m, d.ctime) } else st

/-- The pseudo-channel that a request must wait for: its line comes from DRAM, and the pseudo-channel does not answer (R365). -/
def State.peerAsleep (s : State) (m : PeerMsg) : Option (Nat × Nat) :=
  let c := (s.dev.ctx m.tctx).eff
  match s.vat m.tctx c.ptroot (c.expbase.toNat + m.fa % 2 ^ 48)
      (if m.kind = 1 then .read else if m.kind = 3 then .write else .atomic) with
  | .at_ (.dram pa0) =>
    let pa := s.dev.redirect pa0
    if s.dev.inSlice (pa / 128) || ((s.dev.stk (stackOf pa)).pc? (pcOf pa)).st = .active then none
    else some (stackOf pa, pcOf pa)
  | _ => none

/-- A request waits at its target. -/
def parkPeer (m : PeerMsg) : Dev → Dev := fun d =>
  { d with fab := { d.fab with waits := d.fab.waits.filter (· ≠ m) ++ [m] } }

/-- A request is answered, and its stream's record goes on. -/
def answerPeer (m : PeerMsg) (st : PeerIn) (a : Answer) : Eff :=
  (upd (putStream { st with last := m.tag, olds := ((m.tag, a) :: st.olds).take 32768 })).andThen
    (upd (fun d => sendFlit (Answer.msg a d m) d))

/-- A waiting request whose pseudo-channel has failed is refused. -/
def peerRefused (m : PeerMsg) : Eff := look fun s =>
  (upd (fun d => { d with fab := { d.fab with waits := d.fab.waits.filter (· ≠ m) } })).andThen
    (answerPeer m (s.dev.streamIn m) (9, 0, []))

/-- A peer request arrives: TAG 0 clears the stream's record, the next TAG is performed and answered, a TAG already
answered is answered again, and one that is not yet due waits, as does one whose pseudo-channel is in self-refresh. -/
def targetRequest (m : PeerMsg) : Eff := look fun s =>
  if s.dev.stopped ∨ s.dev.mgmt.stage ≠ 4 ∨ okRequest m = false then skip
  else
    let st := s.dev.streamIn m
    match kget st.olds m.tag with
    | some a => upd (fun d => sendFlit (Answer.msg a d m) d)
    | none =>
      if m.tag ≠ nextTag st.last then upd (parkPeer m)
      else
        match s.peerAsleep m with
        | some (h, n) => upd (fun d => (parkPeer m d).modStk h (fun k => k.putPc ((k.pc? n).wakened d.ctime)))
        | none =>
          let (a, e) := peerPerform m s
          e.andThen (answerPeer m st a)

/-- A waiting request that can be performed now. -/
def State.peerDue (s : State) : Option PeerMsg :=
  s.dev.fab.waits.find? (fun m => decide (m.tag = nextTag (s.dev.streamIn m).last) && (s.peerAsleep m).isNone)

/-- Waiting requests go on, as far as they can. -/
def peerRetry : Nat → Eff
  | 0 => skip
  | n + 1 => look fun s =>
    withE s.peerDue fun m =>
      (upd (fun d => { d with fab := { d.fab with waits := d.fab.waits.filter (· ≠ m) } })).andThen
        ((targetRequest m).andThen (peerRetry n))
def peerRetries : Eff := look fun s => if s.dev.fab.waits.isEmpty then skip else peerRetry s.dev.fab.waits.length

/-- A request arrives, and those that waited for it follow. -/
def peerArrives (m : PeerMsg) : Eff := look fun s =>
  (targetRequest m).andThen (if s.dev.fab.waits.isEmpty then skip else peerRetries)

/-! ## Answers at the source (R258, R404, R426) -/

/-- The flit KIND that answers a request. -/
def answerTo (kind : Nat) : Nat := kind + 1

/-- The outstanding request that a message answers. -/
def Dev.answered (d : Dev) (m : PeerMsg) : Option PeerOut :=
  d.fab.outs.find? (fun o => o.msg.tag = m.tag ∧ o.msg.dst = m.src ∧ o.msg.sctx = m.sctx ∧
    (m.kind = 9 ∨ (m.kind = answerTo o.msg.kind ∧ (m.kind = 4 ∨ m.data.length = o.msg.size))))

/-- An answer returns: the value of a load or an atomic is written, a store's STCNT falls, a refusal stops the context
as contained. Answers for work that has been discarded are dropped (R387). -/
def peerAnswer (m : PeerMsg) : Eff := look fun s =>
  if s.dev.stopped ∨ s.dev.mgmt.stage ≠ 4 then skip
  else
    withE (s.dev.answered m) fun o =>
      (upd (fun d => { d with fab := { d.fab with outs := d.fab.outs.filter (fun x => x ≠ o) } })).andThen
        (withE (s.dev.req? o.req) fun q =>
          match m.kind with
          | 9 => engineStop q.ctx q.ref.core (BitVec.ofNat 64 o.msg.fa) m.op
          | 4 => (upd (fun d => (d.delReq q.id).modThread q.ref (fun th =>
              { th with cnt := { th.cnt with st := th.cnt.st - 1 } }))).andThen (barriersAt q.ref.core q.ref.slot)
          | _ => (returnReq { q with val := m.data, performed := true } false).andThen (barriersAt q.ref.core q.ref.slot))

/-! ## Flits and ports (R361, R377, R426-R428) -/

/-- A flit arrives on a port, which is inactive before stage 4 (R367): a failed check is retried and recorded; a flit whose
ROUTETBL entry is not 0x8000 goes on (R361); requests, answers and route admissions act; the payload of a collective
reaches its engine through COLL_COMPLETE. -/
def flitReceive (port : Nat) (f : Flit) : Eff := look fun s =>
  if s.dev.stopped ∨ s.dev.mgmt.stage ≠ 4 ∨ 16 ≤ port then skip
  else if !f.ok then bankRecord (92 + port) 1 none 0x32 0 0 0
  else if s.dev.routeOf f.dst ≠ 0x8000 then upd (forwardFlit f)
  else
    let m := { f.msg with kind := f.kind, dst := f.dst }
    match f.kind with
    | 1 => peerArrives m
    | 3 => peerArrives m
    | 5 => peerArrives m
    | 2 => peerAnswer m
    | 4 => peerAnswer m
    | 6 => peerAnswer m
    | 8 => serveHop m
    | 9 => peerAnswer m
    | _ => skip

/-- The requests of a stream without an answer. -/
def Dev.streamOuts (d : Dev) (ctx dev : Nat) : List PeerOut := d.fab.outs.filter (fun o => o.msg.sctx = ctx ∧ o.msg.dst = dev)

/-- A stream breaks (R428), `outs` its outstanding requests: they fail, the context stops, events tell of its atomics, and it
restarts with TAG 0. -/
def streamBreak (ctx dev : Nat) (outs : List PeerOut) : Eff := look fun s =>
  let port := ((outs.getLast?).map (·.port)).getD 0
  let addr := BitVec.ofNat 64 (((outs.head?).map (·.msg.fa)).getD 0)
  let stepid := (((s.dev.ctx ctx).step).map (·.entry.stepid)).getD 0
  seqE [
    upd (fun d => { d with fab :=
      { d.fab with outs := d.fab.outs.filter (fun o => ¬(o.msg.sctx = ctx ∧ o.msg.dst = dev)),
                   tags := kset d.fab.tags (ctx, dev) 65536 } }),
    forE (outs.filter (fun o => o.msg.kind = 5)) (fun o => ctxEvent ctx 12 stepid (BitVec.ofNat 64 o.msg.fa)
      (BitVec.ofNat 64 (o.msg.op + (if o.msg.size = 8 then 16 else 0)))),
    contained ctx (92 + min port 15) 0x34 0 addr 0 ]

/-- A stream has waited too long, or its port is down without an alternate. -/
def streamTimeout (ctx dev : Nat) : Eff := look fun s =>
  if s.dev.stopped then skip
  else if s.dev.fab.outs.any (fun o => o.msg.sctx = ctx && o.msg.dst = dev &&
      (decide (o.sent + streamTicks ≤ s.dev.ctime) ||
        (decide (o.port ∈ s.dev.fab.down) && !bit (s.dev.routeOf dev) 8))) then streamBreak ctx dev (s.dev.streamOuts ctx dev)
  else skip

/-! ## Collectives (R260-R262, R284, R363, R408, R429) -/

structure CollBlk where
  send : Nat
  recv : Nat
  done : Nat
  count : Nat
  root : Nat
  group : Nat
  etype : Nat
  rop : Nat
  kind : Nat
  seq : Nat
  deriving DecidableEq, Repr

def collBlk (b : List Byte) : CollBlk :=
  let w := field b 0x20 4
  { send := field b 0 8, recv := field b 8 8, done := field b 0x10 8, count := field b 0x18 4, root := field b 0x1E 2,
    group := field b 0x1C 2, etype := bits w 6 4, rop := bits w 3 3, kind := bits w 0 3, seq := field b 0x24 4 }

/-- Bytes of an element, of the send buffer, of the receive buffer. -/
def CollBlk.es (x : CollBlk) : Nat := (ctype x.etype).width / 8
def CollBlk.sendBytes (x : CollBlk) (g : Nat) : Nat := x.count * x.es * (if x.kind = 2 then g else 1)
def CollBlk.recvBytes (x : CollBlk) (g : Nat) : Nat := x.count * x.es * (if x.kind = 1 then g else 1)

/-- An entry of a group table (R363): G, MYRANK, and the address of the rank numbers. -/
structure GroupEnt where
  g : Nat
  rank : Nat
  at_ : Nat
  deriving DecidableEq, Repr

/-- The physical address of a group's entry, the entry, and its rank numbers in ring order. -/
def Dev.groupAt (d : Dev) (ctx g : Nat) : Nat := (d.ctx ctx).eff.grpbase.toNat + 16 * g
def State.groupEnt (s : State) (ctx g : Nat) : GroupEnt :=
  let b := s.phys (s.dev.groupAt ctx g) 16
  ⟨field b 0 4, field b 4 4, field b 8 8⟩
def State.groupRanks (s : State) (e : GroupEnt) : List Nat :=
  (List.range e.g).map (fun i => leNat (s.phys (e.at_ + 4 * i) 4))

/-- Offending fields of the block for a group of size `g` (R260). -/
def CollBlk.bad (x : CollBlk) (b : List Byte) (g rank : Nat) : Option Nat :=
  let glob (a : Nat) : Bool := a < 2 ^ 57
  let sb := x.sendBytes g
  let rb := x.recvBytes g
  let eOk : Bool := 4 ≤ x.etype ∧ x.etype ≤ 11
  let same : Bool := x.send = x.recv ∧ (x.kind = 0 ∨ x.kind = 3)
  let al (a : Nat) : Bool := !eOk || decide (a % x.es = 0)
  lowest [
    (0x00, !glob x.send || !al x.send || (eOk && !same && decide (x.send < x.recv + rb ∧ x.recv < x.send + sb))),
    (0x08, !glob x.recv || !al x.recv),
    (0x10, !glob x.done || decide (x.done % 8 ≠ 0)),
    (0x18, decide (x.count = 0 ∨ 2 ^ 28 < x.count)),
    (0x1C, decide (4096 ≤ x.group ∨ g < 2 ∨ 65535 < g ∨ g ≤ rank)),
    (0x20, !eOk || decide (bits (field b 0x20 4) 10 22 ≠ 0 ∨ 3 < x.kind ∨ 2 < x.rop) ||
      decide ((x.kind = 1 ∨ x.kind = 3) ∧ x.rop ≠ 0)),
    (0x28, decide (leNat (b.drop 0x28) ≠ 0)) ]

/-- The engine accepts a collective: the entry's rank numbers are read (R363). -/
def Env.toColl (v : Env) (b : List Byte) (group : Nat) (e : GroupEnt) : Eff := look fun s => upd (fun d =>
  let n := (kget d.fab.collSeq (v.f.ctx, group)).getD 0
  let c : Coll :=
    { id := d.nextId, ctx := v.f.ctx, ref := v.r, blk := b, g := e.g, rank := e.rank, ranks := s.groupRanks e, seq := n,
      at_ := d.ctime, ptroot := v.f.regs.ptroot, after := v.before }
  { d with nextId := d.nextId + 1,
           fab := { d.fab with colls := d.fab.colls ++ [c], collSeq := kset d.fab.collSeq (v.f.ctx, group) (n + 1) } })

/-- COLL: commits the flock (R54); a release at fabric scope (R262). -/
def mColl : Meaning := both
  (fun v => v.withBlk (fun b =>
    let x := collBlk b
    let at_ := v.s.dev.groupAt v.f.ctx x.group
    let named : Bool := x.group < 4096
    let e : GroupEnt := if named then v.s.groupEnt v.f.ctx x.group else ⟨0, 0, 0⟩
    if named && !inRegion at_ then .jump (halt (.noSuchLocation at_))
    else if named && v.s.dev.tableBad at_ 16 then .jump (tableRead v.f.ctx at_ 16)
    else
      match x.bad b e.g e.rank with
      | some sub => .trap cOPERAND sub v.blkAddr
      | none =>
        if !inRegion e.at_ || !inRegion (e.at_ + 4 * e.g - 1) then .jump (halt (.noSuchLocation e.at_))
        else if v.s.dev.tableBad e.at_ (4 * e.g) then .jump (tableRead v.f.ctx e.at_ (4 * e.g))
        else
          .done (seqE [
            tableRead v.f.ctx at_ 16,
            tableRead v.f.ctx e.at_ (4 * e.g),
            upd (commitFlock v.r.core v.r.slot),
            v.toColl b x.group e ])))
  noneRule

/-- Combine of R261 on codes. -/
def CollBlk.combine (x : CollBlk) (y z : Nat) : Nat :=
  match ctype x.etype with
  | .flt f =>
    if x.rop = 0 then f.result 0 [y, z] (FV.add false (f.dec y) (f.dec z)) else (opMin f (decide (x.rop = 2)) false).pt [y, z, 0]
  | .int t =>
    let a := t.val y
    let b := t.val z
    wrap t.w (if x.rop = 0 then a + b else if x.rop = 1 then min a b else max a b)
  | .e8 => y

/-- Element `e` of a contribution. -/
def CollBlk.elem (x : CollBlk) (bs : List Byte) (e : Nat) : Nat := field bs (e * x.es) x.es

/-- Reduce of R261. -/
def CollBlk.reduce (x : CollBlk) (xs : List (List Byte)) (e : Nat) : Nat :=
  match xs with
  | [] => 0
  | b :: bs => bs.foldl (fun y q => x.combine y (x.elem q e)) (x.elem b e)

/-- The bytes of RECV. -/
def CollBlk.result (x : CollBlk) (xs : List (List Byte)) (rank : Nat) : List Byte :=
  match x.kind with
  | 0 => (List.range x.count).flatMap (fun e => leBytes x.es (x.reduce xs e))
  | 1 => xs.flatten
  | 2 => (List.range x.count).flatMap (fun e => leBytes x.es (x.reduce xs (x.count * rank + e)))
  | _ => xs[x.root]?.getD []

/-- A collective fails (R408, R429): RECV holds undefined bytes, DONE is not written, the context stops. -/
def collFail (c : Coll) (e : Eff) : Eff :=
  let x := collBlk c.blk
  (look fun s => vwriteE c.ctx c.ptroot x.recv
    ((List.range (x.recvBytes c.g)).map (fun i => Config.undefByte s.dev.free i))).andThen
    ((upd Dev.fresh).andThen e)

/-- The failure at an address. -/
def collBad (c : Coll) (va : Nat) (perm : Bool) : Eff :=
  collFail c (if perm then engineStop c.ctx c.ref.core (BitVec.ofNat 64 va) cPERM
    else contained c.ctx 109 0x35 0 (BitVec.ofNat 64 va) 1)

/-- The next rank of the ring, and whether no port that is up leads to its device (R429). -/
def State.collNext (s : State) (c : Coll) : RankEnt := s.rankEnt c.ctx (c.ranks[(c.rank + 1) % c.g]?.getD 0)
def State.collCut (s : State) (c : Coll) : Bool := decide (s.dev.port (s.collNext c).dev ∈ s.dev.fab.down)

/-- The flits of this rank's contribution wait for the port toward the next rank of the ring (R318, log 57). -/
def collSend (c : Coll) (own : List Byte) : Eff := look fun s =>
  let to_ := s.collNext c
  upd (fun d => (List.range (ceilDiv own.length 240)).foldl (fun d i =>
    queueFlit c.ctx
      { kind := 7, src := d.fab.devno, sctx := c.ctx, dst := to_.dev, tctx := to_.tctx, tag := i % 65536,
        fa := (collBlk c.blk).group, size := (own.drop (240 * i)).take 240 |>.length, op := c.seq,
        data := (own.drop (240 * i)).take 240 } d) d)

/-- A collective completes: RECV from the contributions of all ranks, then SEQ to DONE. `sends` are the contributions;
that of this rank is read from memory. A broadcast takes the root's only. -/
def collComplete (id : Nat) (sends : List (List Byte)) : Eff := look fun s =>
  withE (s.dev.fab.colls.find? (fun c => c.id = id)) fun c =>
    let x := collBlk c.blk
    let n := x.sendBytes c.g
    let takes (q : Nat) : Bool := x.kind ≠ 3 || q = x.root
    if s.dev.stopped || decide (sends.length ≠ c.g) || c.after.any (fun a => !s.dev.isDone a) ||
        decide (x.kind = 3 ∧ c.g ≤ x.root) ||
        (List.range c.g).any (fun q => takes q && decide (q ≠ c.rank ∧ (sends[q]?.getD []).length ≠ n)) then skip
    else
      let finish (xs : List (List Byte)) : Eff :=
        withWrite c.ctx c.ptroot x.recv (x.result xs c.rank) (collBad c)
          (withWrite c.ctx c.ptroot x.done (leBytes 8 x.seq) (collBad c)
            (upd (fun d => { d with fab := { d.fab with colls := d.fab.colls.filter (fun y => y.id ≠ id) } })))
      if s.collCut c then collFail c (contained c.ctx 109 0x35 0 0 0)
      else if takes c.rank then withRead c.ctx c.ptroot x.send n (collBad c) (fun own => (collSend c own).andThen (finish (sends.set c.rank own)))
      else finish sends

/-- 10 ms. -/
def collTicks : Nat := 40000000

/-- A collective has waited 10 ms, or its data cannot cross the fabric. -/
def collTimeout (id : Nat) : Eff := look fun s =>
  withE (s.dev.fab.colls.find? (fun c => c.id = id)) fun c =>
    if s.dev.stopped then skip
    else if c.at_ + collTicks ≤ s.dev.ctime ∨ s.collCut c then collFail c (contained c.ctx 109 0x35 0 0 0) else skip

/-! ## A port goes down (R427-R429) -/

/-- A port goes down (R427): what is unanswered on it is sent again on the alternate, in TAG order; a stream without a
valid alternate breaks, and a collective whose data cannot cross fails (R429). -/
def portDown (port : Nat) : Eff := look fun s =>
  if s.dev.stopped ∨ 16 ≤ port ∨ port ∈ s.dev.fab.down then skip
  else
    let lost := s.dev.fab.outs.filter (fun o => o.port = port)
    let alt (o : PeerOut) : Bool := bit (s.dev.routeOf o.msg.dst) 8
    let broken := ((lost.filter (fun o => !alt o)).map (fun o => (o.msg.sctx, o.msg.dst))).dedup
    let gone : Dev := { s.dev with fab := { s.dev.fab with down := port :: s.dev.fab.down } }
    seqE [
      bankRecord (92 + port) 1 none 0x33 0 0 0,
      upd (fun d => { d with fab :=
        { d.fab with down := port :: d.fab.down,
                     queue := d.fab.queue.filter (fun x => decide (gone.port x.2.dst ≠ port)),
                     outs := d.fab.outs.map (fun o =>
                       if o.port = port && alt o then { o with port := bits (d.routeOf o.msg.dst) 4 4, sent := d.ctime } else o) } }),
      forE (lost.filter alt) (fun o => upd (queueFlit o.msg.sctx o.msg)),
      forE broken (fun b => streamBreak b.1 b.2 (s.dev.streamOuts b.1 b.2)),
      look fun s => forE (s.dev.fab.colls.filter s.collCut) (fun c => collFail c (contained c.ctx 109 0x35 0 0 0)) ]

/-! ## The instructions and the fabric's steps -/

/-- PLD (R257). -/
def execPld (w : MWord) (s : State) : Host.Outcome State Fault Refusal := commit (issue 0xB5 (.m w) mPld) s
/-- PST (R257). -/
def execPst (w : MWord) (s : State) : Host.Outcome State Fault Refusal := commit (issue 0xB6 (.m w) mPst) s
/-- PATOM (R257). -/
def execPatom (w : MWord) (s : State) : Host.Outcome State Fault Refusal := commit (issue 0xB7 (.m w) mPatom) s
/-- COLL (R260). -/
def execColl (w : EWord) (s : State) : Host.Outcome State Fault Refusal := commit (issue 0xB8 (.e w) mColl) s
/-- PEER_TARGET_REQUEST (R258). -/
def execPeerTargetRequest (m : PeerMsg) (s : State) : Host.Outcome State Fault Refusal := commit (peerArrives m) s
/-- PEER_RESPONSE (R258). -/
def execPeerResponse (m : PeerMsg) (s : State) : Host.Outcome State Fault Refusal := commit (peerAnswer m) s
/-- TWILL_FLIT_RECEIVE (R361). -/
def execTwillFlitReceive (port : Nat) (f : Flit) (s : State) : Host.Outcome State Fault Refusal := commit (flitReceive port f) s
/-- TWILL_PORT_DOWN (R427). -/
def execTwillPortDown (port : Nat) (s : State) : Host.Outcome State Fault Refusal := commit (portDown port) s
/-- PEER_STREAM_TIMEOUT (R427). -/
def execPeerStreamTimeout (ctx dev : Nat) (s : State) : Host.Outcome State Fault Refusal := commit (streamTimeout ctx dev) s
/-- COLL_COMPLETE (R261). -/
def execCollComplete (id : Nat) (sends : List (List Byte)) (s : State) : Host.Outcome State Fault Refusal :=
  commit (collComplete id sends) s
/-- COLL_TIMEOUT (R429). -/
def execCollTimeout (id : Nat) (s : State) : Host.Outcome State Fault Refusal := commit (collTimeout id) s

end Sys2Proof.Machine
end

