-- ==== Sys2Proof/Machine/Sched.lean ====
section
/-! DEFINITION. Issue slots: readiness, the fold, holds, rendezvous faults, and the release of barrier waves
(R37-R45, R164, R175, R292, R299, R320, R348-R352, R406). -/

namespace Sys2Proof.Machine

/-! ## The word that a thread stands at -/

/-- What a thread's next word needs: its environment, or none where the word traps or cannot be fetched. -/
def envOf (s : State) (r : TRef) (f : Flock) (th : Thread) : Option Env :=
  let g : Group := ⟨r.core, f.ctx, th.intv, th.pc, [r]⟩
  match fetchGroup s g with
  | .bad _ _ => none
  | .words w lit =>
    match decode w lit with
    | .error _ => none
    | .ok i => (rawOf i).bind (fun (major, b) => (rowOf major b).map (fun row => ⟨s, s, f, r, f, th, major, b, row, g⟩))

/-! ## Rendezvous faults (R42, R292, R406) -/

/-- TRAPADDR of an illegal mask: a lane and the mask. -/
def maskAddr (lane m : Nat) : W64 := BitVec.ofNat 64 (lane * 2 ^ 32 + m)

/-- The illegal use of a thread that stands at a cross-lane word whose operands can be read: its mask omits itself, or
names an empty position, an exited thread, or a present member with another mask. -/
def Env.maskFault (v : Env) : Option W64 :=
  if !crossLane v.major || !v.maskOk || v.blocked then none
  else
    let m := v.mask
    let wrong (t : Nat) : Bool :=
      match v.of t with
      | none => true
      | some u =>
        u.th.ended.isSome ||
          (u.th.pc = v.th.pc && u.th.enter = none && u.th.intv == v.th.intv && u.maskOk && !u.blocked &&
            decide (u.th.wait = .none) && decide (u.mask ≠ m))
    if !m.testBit (laneOf v.r.t) then some (maskAddr (laneOf v.r.t) m)
    else ((named v.r.t m).find? wrong).map (fun t => maskAddr (laneOf t) m)

/-! ## Threads of a port group -/

/-- How a thread takes part in a slot: it can issue, is held, waits out a YIELD, has a trap pending. -/
inductive Part
  | no | can | held | yields | pend
  deriving DecidableEq, Repr

/-- A thread of a port group in a slot; `set` are the members that must issue with it. -/
structure Cand where
  r : TRef
  ctx : Nat
  intv : Bool
  pc : W64
  waited : Nat
  part : Part
  set : List TRef
  deriving DecidableEq, Repr

/-- Threads of a core in a port group. -/
def Dev.pgThreads (d : Dev) (core pg : Nat) : List (TRef × Flock × Thread) :=
  (d.flocks.filter (fun f => f.core = core ∧ f.dead = false)).flatMap (fun f =>
    (f.live.filter (fun th => pgOf th.t = pg)).map (fun th => (⟨core, f.slot, th.t⟩, f, th)))

/-- Waits whose time is over: SLEEP, YIELD, the hold's clocks, the hold of an urgent thread. -/
def Thread.expire (th : Thread) (ctime dieCycle wait : Nat) : Thread :=
  match th.wait with
  | .sleep w => if w ≤ ctime then { th with wait := .none } else th
  | .yield n => if n = 0 then { th with wait := .none } else th
  | .held since => if since + wait ≤ dieCycle ∨ 1024 ≤ th.waited then { th with wait := .none } else th
  | _ => th

/-- Threads of a context, mode and PC. -/
def Cand.sameKey (a b : Cand) : Bool := a.ctx = b.ctx && a.intv == b.intv && a.pc = b.pc

/-- The threads of a context in SAVING do not issue (R327). -/
def Dev.frozen (d : Dev) (k : Nat) : Bool := (d.ctx k).cstate = .saving

/-- A thread as it takes part. -/
def candOf (s : State) (x : TRef × Flock × Thread) : Cand :=
  let (r, f, th) := x
  let mk (p : Part) (set : List TRef) : Cand := ⟨r, f.ctx, th.intv, th.pc, th.waited, p, set⟩
  if s.dev.frozen f.ctx then mk .no []
  else match th.enter, th.wait with
  | _, .held _ => mk .held []
  | some _, _ => mk .no []
  | _, .yield _ => mk .yields []
  | _, .pend _ => mk .pend []
  | _, .none =>
    match envOf s r f th with
    | none => mk .can [r]
    | some v =>
      if !v.ready then mk .no []
      else mk .can (if crossLane v.major && v.maskOk then (named r.t v.mask).map (fun t => { r with t := t }) else [r])
  | _, _ => mk .no []

/-- Lanes that candidates cover. -/
def lanes (cs : List Cand) : Nat := ((cs.map (fun c => laneOf c.r.t)).dedup).length

/-- Distinct lanes of the ready and held threads at a key. -/
def cover (cs : List Cand) (c : Cand) : Nat :=
  lanes (cs.filter (fun x => x.sameKey c && (x.part == .can || x.part == .held || x.part == .pend)))

/-- Longest-waiting first; ties to the lower slot and id. -/
def older (a b : Cand) : Bool :=
  a.waited > b.waited || (a.waited = b.waited && (a.r.slot < b.r.slot || (a.r.slot = b.r.slot && a.r.t ≤ b.r.t)))
def insertCand (c : Cand) : List Cand → List Cand
  | [] => [c]
  | x :: xs => if older c x then c :: x :: xs else x :: insertCand c xs
def sortCands (cs : List Cand) : List Cand := cs.foldr insertCand []

/-! ## The fold (R37) -/

def FoldEntry.holds (e : FoldEntry) (c : Cand) : Bool := e.ctx = c.ctx && e.intv == c.intv && e.pc = c.pc

/-- The set of a key: PC<8:3> ^ PC<14:9> ^ ctx<5:0>. -/
def foldSet (ctx : Nat) (pc : W64) : Nat := bits pc.toNat 3 6 ^^^ bits pc.toNat 9 6 ^^^ bits ctx 0 6

/-- Entries without threads are freed; a key without an entry takes the lowest free way of its set. -/
def foldRefresh (pg : Nat) (cs : List Cand) (l : List FoldEntry) : List FoldEntry :=
  let mine := l.filter (fun e => e.pg = pg ∧ cs.any e.holds)
  let rest := l.filter (fun e => e.pg ≠ pg)
  let add (es : List FoldEntry) (c : Cand) : List FoldEntry :=
    if es.any (fun e => e.holds c) then es
    else
      match ((List.range 4).map (4 * foldSet c.ctx c.pc + ·)).find? (fun i => es.all (fun e => e.idx ≠ i)) with
      | some i => es ++ [⟨pg, i, c.ctx, c.intv, c.pc⟩]
      | none => es
  rest ++ (sortCands cs).foldl add mine

/-- How long the longest-waiting of the ready and held threads at a key has waited (R37, R38). -/
def longest (cs : List Cand) (c : Cand) : Nat :=
  ((cs.filter (fun x => x.sameKey c && (x.part == .can || x.part == .held || x.part == .pend))).map (·.waited)).foldl max 0

/-- The better of two entries: more lanes, then the longer-waiting thread, then the lower index. -/
def betterKey (a b : Nat × Nat × Nat) : Bool :=
  a.1 > b.1 || (a.1 = b.1 && (a.2.1 > b.2.1 || (a.2.1 = b.2.1 && a.2.2 < b.2.2)))

/-- The key that the fold chooses within the granted context (R39), by one of its threads. An entry whose threads are all
held could issue nothing: the fold passes over it (DESIGN CHOICE, log 67). -/
def chooseKey (entries : List FoldEntry) (cs : List Cand) : Option Cand :=
  let live := cs.filter (fun c => c.part == .can || c.part == .pend)
  match sortCands (live.filter (fun c => decide (1024 ≤ c.waited))) with
  | c :: _ => some c
  | [] =>
    let scored := entries.filterMap (fun e =>
      match sortCands (live.filter e.holds) with
      | c :: _ => some ((cover cs c, longest cs c, e.idx), c)
      | [] => none)
    match scored with
    | [] => none
    | x :: xs => some (xs.foldl (fun a b => if betterKey b.1 a.1 then b else a) x).2

/-- Threads in increasing lane: the order in which the engines accept operations of one group (R232). -/
def byLane (g : List TRef) : List TRef := (List.range 32).flatMap (fun i => g.filter (fun r => laneOf r.t = i))

/-- The issue group at a key: for each lane the longest-waiting ready thread, member sets whole. -/
def gather (cs : List Cand) (key : Cand) : List TRef :=
  byLane ((sortCands (cs.filter (fun c => c.sameKey key && c.part == .can))).foldl
    (fun g c =>
      if c.set.any (fun r => g.any (fun x => laneOf x.t = laneOf r.t)) then g else g ++ c.set) [])

/-! ## ISSUE_SLOT -/

/-- Changes the threads of a port group. -/
def Dev.modPg (d : Dev) (core pg : Nat) (g : Flock → Thread → Thread) : Dev :=
  { d with flocks := d.flocks.map (fun f =>
      if f.core = core ∧ f.dead = false then
        { f with threads := f.threads.map (fun th => if th.ended = none ∧ pgOf th.t = pg then g f th else th) }
      else f) }

/-- Rendezvous faults are detected: the thread is ready with the trap pending. -/
def findFaults (core pg : Nat) : Eff := look fun s =>
  let fs := (s.dev.pgThreads core pg).filterMap (fun (r, f, th) =>
    if th.enter = none ∧ th.wait = .none ∧ s.dev.frozen f.ctx = false then ((envOf s r f th).bind Env.maskFault).map (fun a => (r, a)) else none)
  forE fs (fun x => updT x.1 (fun th => { th with wait := .pend x.2 }))

/-- Holds that end because the key's ready and held threads cover all 32 lanes; a thread at the end of an empty block goes
on to its next block. -/
def fullHolds (core pg : Nat) : Eff := look fun s =>
  let cs := (s.dev.pgThreads core pg).map (candOf s)
  let full := cs.filter (fun c => c.part == .held && decide (cover cs c = 32))
  forE full (fun c => (updT c.r (fun th => { th with wait := .none })).andThen (settle c.r 64))

/-- The trap of a pending rendezvous fault (R398). -/
def pendTrap (r : TRef) : Eff := look fun s =>
  withE (s.dev.thread? r) fun th =>
    match th.wait with
    | .pend a => takeTrap r cRENDEZVOUS 0 a th.pc
    | _ => skip

/-- The slot is granted to context `k`: the charge, the wait counts, the key, the group. -/
def grantSlot (core pg k : Nat) (cs : List Cand) : Eff := look fun s =>
  let inst := 4 * core + pg
  let mine := cs.filter (fun c => c.ctx = k)
  let ready (r : TRef) : Bool := mine.any (fun c => c.r = r && (c.part == .can || c.part == .held || c.part == .pend))
  let count : Eff := upd (fun d =>
    let d1 := if d.isBg 0 inst k then d.modCore core (fun c => { c with rr := c.rr.set pg k }) else d
    (chargeServer 0 inst k (d1.clockUnits core) d1).modPg core pg (fun f th =>
      if f.ctx ≠ k then th
      else
        { th with
          waited := if ready ⟨core, f.slot, th.t⟩ then th.waited + 1 else 0,
          wait := match th.wait with
            | .yield n => .yield (n - 1)
            | w => w }))
  match chooseKey ((s.dev.core core).fold.filter (fun e => e.pg = pg)) mine with
  | none => count
  | some key =>
    let g := gather mine key
    seqE [
      count,
      forE (mine.filter (fun c => c.sameKey key && c.part == .pend)) (fun c => pendTrap c.r),
      whenE (g ≠ []) (upd (fun d => { d with issuing := some ⟨core, k, key.intv, key.pc, g⟩ })) ]

/-- A slot of a port group does not come: its core is stopped, withheld or without power. -/
def Dev.noSlot (d : Dev) (core pg : Nat) : Bool :=
  d.stopped || decide (256 ≤ core ∨ 4 ≤ pg) || d.withheld core || !(d.die (dieOf core)).powered

/-- What precedes the arbiter in a slot: waits end, blocks are entered, holds end, rendezvous faults are detected. -/
def slotPrepare (core pg : Nat) : Eff := look fun s =>
  let hold := bits (s.dev.core core).foldcfg.toNat 0 8
  seqE [
    upd (fun d => d.modPg core pg (fun _ th => th.expire d.ctime (d.die (dieOf core)).cycle hold)),
    look fun s => forE (((s.dev.pgThreads core pg).filter (fun x => !s.dev.frozen x.2.1.ctx)).map (·.1)) (fun r => settle r 64),
    fullHolds core pg,
    findFaults core pg ]

/-- The threads that take part in a slot, and the contexts that they give work. -/
def slotCands (core pg : Nat) (s : State) : List Cand :=
  ((s.dev.pgThreads core pg).map (candOf s)).filter (fun c => c.part ≠ .no)
def slotWork (cs : List Cand) : List Nat := (List.range 64).filter (fun k => cs.any (fun c => c.ctx = k))

/-- The clock of a port group's servers, and its fold. -/
def slotClock (core pg : Nat) (cs : List Cand) : Dev → Dev := fun d =>
  (clockServers 0 (4 * core + pg) (slotWork cs) d).modCore core (fun c =>
    { c with fold := foldRefresh pg (cs.filter (fun c => c.part ≠ .yields)) c.fold })

/-- The context that a port group's arbiter grants. -/
def slotGrant (core pg : Nat) (cs : List Cand) (d : Dev) : Option Nat :=
  d.grant 0 (4 * core + pg) (slotWork cs) ((d.core core).rr[pg]?.getD 0)

/-- ISSUE_SLOT: a slot of a port group. A thread that waits out a YIELD counts as work of its context, so that slots are
granted, and counted, while all of its threads yield (log 60). -/
def issueSlot (core pg : Nat) : Eff := look fun s =>
  if s.dev.noSlot core pg then skip
  else
    (slotPrepare core pg).andThen (look fun s =>
      let cs := slotCands core pg s
      (upd (slotClock core pg cs)).andThen
        (look fun s => withE (slotGrant core pg cs s.dev) (fun k => grantSlot core pg k cs)))

/-- The threads whose pending rendezvous trap the present slot of a port group takes: those of the chosen key. -/
def slotTraps (core pg : Nat) (s : State) : List TRef :=
  if s.dev.noSlot core pg then []
  else
    let s1 := s.apply (slotPrepare core pg s)
    let cs := slotCands core pg s1
    let d := slotClock core pg cs s1.dev
    match slotGrant core pg cs d with
    | none => []
    | some k =>
      let mine := cs.filter (fun c => c.ctx = k)
      match chooseKey ((d.core core).fold.filter (fun e => e.pg = pg)) mine with
      | none => []
      | some key => (mine.filter (fun c => c.sameKey key && c.part == .pend)).map (·.r)

/-! ## The ends of waits -/

/-- RECONV_HOLD_EXPIRE (R44). -/
def execReconvHoldExpire (r : TRef) (s : State) : Host.Outcome State Fault Refusal :=
  commit (upd (fun d => d.modThread r (fun th =>
    match th.wait with
    | .held since =>
      if since + bits (d.core r.core).foldcfg.toNat 0 8 ≤ (d.die (dieOf r.core)).cycle ∨ 1024 ≤ th.waited then
        { th with wait := .none }
      else th
    | _ => th))) s

/-- YIELD_EXPIRE (R164). -/
def execYieldExpire (r : TRef) (s : State) : Host.Outcome State Fault Refusal :=
  commit (updT r (fun th => if th.wait = .yield 0 then { th with wait := .none } else th)) s

/-- SLEEP_WAKE (R175). -/
def execSleepWake (r : TRef) (s : State) : Host.Outcome State Fault Refusal :=
  commit (upd (fun d => d.modThread r (fun th =>
    match th.wait with
    | .sleep w => if w ≤ d.ctime then { th with wait := .none } else th
    | _ => th))) s

/-- RENDEZVOUS_FAULT_TRAP (R406): the slot of the thread's port group, if it is one in which the thread's key is chosen
and its pending trap taken. -/
def rendezvousTrap (r : TRef) : Eff := look fun s =>
  if r ∈ slotTraps r.core (pgOf r.t) s then issueSlot r.core (pgOf r.t) else skip

/-- RENDEZVOUS_FAULT_TRAP (R406). -/
def execRendezvousFaultTrap (r : TRef) (s : State) : Host.Outcome State Fault Refusal := commit (rendezvousTrap r) s

/-- ISSUE_SLOT (R39). -/
def execIssueSlot (core pg : Nat) (s : State) : Host.Outcome State Fault Refusal := commit (issueSlot core pg) s

/-! ## Barrier waves (R43, R169, R352) -/

/-- Teams in a wave. -/
def wteams (w : W32) : Nat :=
  let n := bits w.toNat 0 6
  if n = 0 then 1 else min n 32

/-- A team's threads become ready; their wait counts start. -/
def releaseTeam (x : TeamRef) : Dev → Dev := fun d =>
  d.modFlock x.core x.slot (fun f =>
    { f with threads := f.threads.map (fun th =>
        if teamOf th.t = x.team ∧ th.wait = .wave then { th with wait := .none, waited := 0 } else th) })

/-- BARRIER_WAVE_RELEASE: the head wave, SPACE clocks after the one before. -/
def waveRelease (cluster : Nat) : Eff := look fun s =>
  let c := s.dev.cluster cluster
  let space := bits c.slopelim.toNat 8 8
  let due : Bool := match c.lastWave with
    | some t => decide (t + space ≤ c.cycle)
    | none => true
  match c.waves with
  | [] => skip
  | w :: ws =>
    if !due || s.dev.stopped then skip
    else
      let n := wteams c.slopelim
      upd (fun d => (w.take n).foldl (fun d x => releaseTeam x d) (d.modCluster cluster (fun c =>
        { c with waves := if w.drop n = [] then ws else w.drop n :: ws, lastWave := some c.cycle })))

/-- BARRIER_WAVE_RELEASE (R352). -/
def execBarrierWaveRelease (cluster : Nat) (s : State) : Host.Outcome State Fault Refusal := commit (waveRelease cluster) s

end Sys2Proof.Machine
end

