-- ==== Sys2Proof/Machine/Dram.lean ====
section
/-! DEFINITION. DRAM stacks: service of waiting requests, refresh, self-refresh, retraining (R318-R320, R326, R364, R365,
R415). -/

namespace Sys2Proof.Machine

def Dev.pcAt (d : Dev) (h n : Nat) : PseudoChan := (d.stk h).pc? n
def putPcE (h : Nat) (p : PseudoChan) : Dev → Dev := fun d => d.modStk h (fun st => st.putPc p)

/-- Refreshes postponed until a bank goes before every class. -/
def refreshMax : Nat := 8
def PseudoChan.owed (p : PseudoChan) (bank : Nat) : Nat := (aget p.postponed bank).getD 0

/-- Class first, then the earlier stamp; ties in arrival order (R326). -/
def DramReq.before (a b : DramReq) : Bool := a.cls < b.cls || (a.cls = b.cls && a.stamp < b.stamp)

/-- The request that a scheduler serves among some. -/
def pickReq : List DramReq → Option DramReq
  | [] => none
  | x :: xs => some (xs.foldl (fun a b => if b.before a then b else a) x)

/-- Removes the first occurrence. -/
def dropReq (q : DramReq) : List DramReq → List DramReq
  | [] => []
  | x :: xs => if x = q then xs else x :: dropReq q xs

/-- The requests of a context that wait for a stack's arbiter. -/
def Stack.asking (st : Stack) (k : Nat) : List DramReq :=
  st.pcs.flatMap (fun p => p.waiting.filter (fun q => q.ctx = some k && !q.admitted))

/-- Marks the first occurrence as admitted. -/
def admitReq (q : DramReq) : List DramReq → List DramReq
  | [] => []
  | x :: xs => if x = q then { x with admitted := true } :: xs else x :: admitReq q xs

/-- A context's request passes the stack's arbiter: charged by its bytes. -/
def admitFor (h k : Nat) (d : Dev) : Dev :=
  match pickReq ((d.stk h).asking k) with
  | none => d
  | some q =>
    let d1 := if d.isBg 3 h k then d.modStk h (fun st => { st with rr := k }) else d
    match (d.stk h).pcs.find? (fun p => decide (q ∈ p.waiting)) with
    | some p => chargeServer 3 h k (ceilDiv (q.bytes * 65536) 1200) (putPcE h { p with waiting := admitReq q p.waiting } d1)
    | none => d1

/-- The stack's arbiter admits a request of the context that it grants (R320, R326). -/
def admitOne (h : Nat) : Dev → Dev := fun d =>
  match d.grant 3 h ((List.range 64).filter (fun k => (d.stk h).asking k ≠ [])) (d.stk h).rr with
  | some k => admitFor h k d
  | none => d

/-- A line reaches a request that waited for it; it has its data once no other stack owes it some. -/
def dramDone (q : DramReq) : Dev → Dev := fun d =>
  match q.req with
  | some id =>
    if d.stks.any (fun st => st.pcs.any (fun p => p.waiting.any (fun x => x.req = some id))) then d
    else d.modReq id (fun r => { r with dram := false })
  | none => d

/-- DRAM_REQUEST: the stack's arbiter admits a request; the pseudo-channel serves one of those admitted, whichever their
contexts, and of requests without a context. -/
def dramServe (h n : Nat) : Eff := look fun s =>
  let work := (List.range 64).filter (fun k => (s.dev.stk h).asking k ≠ [])
  if 8 ≤ h ∨ (s.dev.pcAt h n).st ≠ .active then skip
  else
    seqE [
      upd (clockServers 3 h work),
      upd (admitOne h),
      upd (fun d =>
        let p := d.pcAt h n
        match pickReq (p.waiting.filter (fun q => (q.ctx = none ∨ q.admitted) ∧ p.owed q.bank < refreshMax)) with
        | none => d
        | some q => dramDone q (putPcE h { p with waiting := dropReq q p.waiting, idleSince := d.ctime } d)),
      peerRetries ]

/-- DRAM_REQUEST (R326). -/
def execDramRequest (stack pc : Nat) (s : State) : Host.Outcome State Fault Refusal := commit (dramServe stack pc) s

/-- DRAM_REFRESH (R364): a refresh waits behind requests to its bank until 8 are postponed; then it goes first. -/
def dramRefreshE (h n bank : Nat) : Eff := look fun s =>
  let p := s.dev.pcAt h n
  let busy : Bool := p.waiting.any (fun q => q.bank = bank)
  let c := p.owed bank
  if 8 ≤ h ∨ 64 ≤ bank ∨ p.st ≠ .active then skip
  else upd (putPcE h { p with postponed := aset p.postponed bank (if busy ∧ c < refreshMax then c + 1 else c - 1) })

/-- DRAM_REFRESH (R364). -/
def execDramRefresh (stack pc bank : Nat) (s : State) : Host.Outcome State Fault Refusal :=
  commit (dramRefreshE stack pc bank) s

/-- SELF_REFRESH_ENTRY (R365): the idle time of SRIDLE µs has passed and no request waits. -/
def selfEntry (h n : Nat) : Eff := look fun s =>
  let p := s.dev.pcAt h n
  let idle := (s.dev.stk h).sridle
  if 8 ≤ h ∨ 256 ≤ n ∨ idle = 0 ∨ p.st ≠ .active ∨ p.waiting ≠ [] ∨ s.dev.ctime < p.idleSince + 4000 * idle then skip
  else upd (putPcE h { p with st := .selfRefresh, enterAt := some s.dev.ctime })

/-- SELF_REFRESH_ENTRY (R365). -/
def execSelfRefreshEntry (stack pc : Nat) (s : State) : Host.Outcome State Fault Refusal := commit (selfEntry stack pc) s

/-- SELF_REFRESH_EXIT (R365): a waiting request starts the exit; 800 ticks later the pseudo-channel answers. -/
def selfExit (h n : Nat) : Eff := look fun s =>
  let p := s.dev.pcAt h n
  match p.st with
  | .selfRefresh => if p.waiting = [] then skip else upd (putPcE h { p with st := .exiting, exitAt := s.dev.ctime })
  | .exiting =>
    if p.exitAt + 800 ≤ s.dev.ctime then (upd (putPcE h { p with st := .active, idleSince := s.dev.ctime })).andThen peerRetries
    else skip
  | _ => skip

/-- SELF_REFRESH_EXIT (R365). -/
def execSelfRefreshExit (stack pc : Nat) (s : State) : Host.Outcome State Fault Refusal := commit (selfExit stack pc) s

/-- SELF_REFRESH_EXIT_TIMEOUT (R415): 2 µs without an answer fail every waiting request: the context that owns it stops, and a
peer request is refused as with bytes beyond correction (R408). -/
def selfTimeout (h n : Nat) : Eff := look fun s =>
  let p := s.dev.pcAt h n
  if p.st ≠ .exiting ∨ s.dev.ctime < p.exitAt + 8000 then skip
  else
    seqE [
      upd (fun d => p.waiting.foldl (fun d q => dramDone q d) (putPcE h { p with st := .retrain, waiting := [] } d)),
      forE (s.dev.fab.waits.filter (fun m => s.peerAsleep m = some (h, n))) (fun m => peerRefused m),
      forE (p.waiting.filterMap (·.owner)).dedup (fun k => contained k (64 + h) 0x25 n 0 0),
      whenE (p.waiting.any (fun q => q.owner = none) || s.dev.fab.waits.any (fun m => s.peerAsleep m = some (h, n)))
        (containedNone (64 + h) 0x25 n 0 0) ]

/-- SELF_REFRESH_EXIT_TIMEOUT (R415). -/
def execSelfRefreshExitTimeout (stack pc : Nat) (s : State) : Host.Outcome State Fault Refusal :=
  commit (selfTimeout stack pc) s

/-- PSEUDO_CHANNEL_RETRAIN (R415): the interface is trained again, and the pseudo-channel takes requests. -/
def retrain (h n : Nat) : Eff := look fun s =>
  let p := s.dev.pcAt h n
  if p.st = .retrain then (upd (putPcE h { p with st := .active, idleSince := s.dev.ctime })).andThen peerRetries else skip

/-- PSEUDO_CHANNEL_RETRAIN (R415). -/
def execPseudoChannelRetrain (stack pc : Nat) (s : State) : Host.Outcome State Fault Refusal := commit (retrain stack pc) s

/-! ## PAGE_WALK (R91-R94) -/

/-- PAGE_WALK: a walk for a core and context that translates an address: A and D in the leaf, the TLBs. A walk that finds
no legal leaf leaves no entry: the access that needed it takes the fault when it issues. -/
def pageWalkE (core ctx va : Nat) (kind : AccKind) : Eff := look fun s =>
  let c := s.dev.ctx ctx
  if 256 ≤ core ∨ 64 ≤ ctx ∨ 2 ^ 57 ≤ va ∨ s.dev.stopped then skip
  else
    match walk s c.eff.vdev.toNat va 4 c.eff.ptroot.toNat with
    | .stuck _ => skip
    | _ => xlatE (some core) ctx c.eff.ptroot va kind

/-- PAGE_WALK (R91). -/
def execPageWalk (core ctx va : Nat) (kind : AccKind) (s : State) : Host.Outcome State Fault Refusal :=
  commit (pageWalkE core ctx va kind) s

end Sys2Proof.Machine
end

