-- ==== Sys2Proof/Machine/Graph.lean ====
section
/-! DEFINITION. The step graph: nodes, edges, resolution, step errors (R306-R309, R417). -/

namespace Sys2Proof.Machine

/-! ## Step errors (R417) -/

/-- ADDR of an error of the step header. -/
def headerIdx : Nat := 0xFFFFFFFF

/-- A step error of a reason, at a node. -/
def stepError (ctx idx reason : Nat) : Eff :=
  contained ctx 110 0x80 0 (BitVec.ofNat 64 idx) (BitVec.ofNat 64 reason)

/-! ## Nodes (R307) -/

def Ctx.node? (c : Ctx) (i : Nat) : Option Node := c.step.bind (fun st => st.list.find? (fun n => n.idx = i))
/-- A node that nothing has touched. -/
def Node.fresh (i : Nat) : Node :=
  { idx := i, st := .idle, taken := 0, skips := 0, iters := 0, inBody := false, backs := 0, woke := false, mask := 0 }
def Step.node (st : Step) (i : Nat) : Node := (st.list.find? (fun n => n.idx = i)).getD (.fresh i)
def Step.put (st : Step) (n : Node) : Step := { st with list := n :: st.list.filter (fun m => m.idx ≠ n.idx) }

/-- Changes a node of a context's step. -/
def modNode (ctx i : Nat) (g : Node → Node) : Dev → Dev := fun d =>
  d.modCtx ctx (fun c => { c with step := c.step.map (fun st => st.put (g (st.node i))) })

/-- The common part of a node. -/
structure NodeHead where
  kind : Nat
  nsucc : Nat
  npred : Nat
  succ : List Nat
  deriving DecidableEq, Repr

def nodeHead (b : List Byte) : NodeHead :=
  let n := field b 1 1
  ⟨field b 0 1, n, field b 2 2, ([4, 6, 8, 10].map (fun o => field b o 2)).take n⟩

def Step.nodeAddr (st : Step) (i : Nat) : Nat := (st.nodes + BitVec.ofNat 64 (64 * i)).toNat

/-- A node's bytes, if the walker can read them. -/
def State.nodeBytes (s : State) (ctx : Nat) (st : Step) (i : Nat) : Option (List Byte) :=
  let root := (s.dev.ctx ctx).eff.ptroot
  match s.vbad ctx root (st.nodeAddr i) 64 .read with
  | some _ => none
  | none => some (s.vbytes ctx root (st.nodeAddr i) 64)

/-- What the walker's reading of a node changes. -/
def nodeReadE (ctx : Nat) (st : Step) (i : Nat) : Eff := look fun s =>
  vreadE ctx (s.dev.ctx ctx).eff.ptroot (st.nodeAddr i) 64

/-- Why a node is illegal (R417 reasons 1 and 4). -/
def NodeHead.bad (h : NodeHead) (b : List Byte) (nnodes : Nat) : Option Nat :=
  if 6 < h.kind then some 1
  else if 4 < h.nsucc ∨ h.succ.any (fun j => decide (nnodes ≤ j)) then some 4
  else if h.kind = 1 ∧ h.nsucc = 0 then some 4
  else if h.kind = 2 ∧ (h.nsucc ≠ 2 ∨ field b 0x1A 2 < field b 0x18 2) then some 4
  else none

/-- BFIRST and BLAST of a LOOP node. -/
def loopRange (b : List Byte) : Nat × Nat := (field b 0x18 2, field b 0x1A 2)

/-! ## Edges (R308, R309) -/

/-- Back edges from the body of a LOOP node. -/
def State.backEdges (s : State) (ctx : Nat) (st : Step) (i : Nat) (rng : Nat × Nat) : Nat :=
  (((List.range (rng.2 + 1 - rng.1)).map (rng.1 + ·)).map (fun u =>
    match s.nodeBytes ctx st u with
    | some b => ((nodeHead b).succ.filter (fun j => j = i)).length
    | none => 0)).foldl (· + ·) 0

/-- The watch entries that a context's walker holds for some of its nodes go. -/
def dropWaits (ctx : Nat) (p : Nat → Bool) : Dev → Dev := fun d =>
  { d with vaults := d.vaults.map (fun x => { x with watch := x.watch.filter (fun e =>
      !(decide (e.ref = none ∧ e.ctx = ctx) && p e.req)) }) }

/-- An edge from node `u` reaches node `j` and carries `taken` or skipped. -/
def edge (ctx u j : Nat) (taken : Bool) : Eff := look fun s =>
  withE (s.dev.ctx ctx).step fun st =>
    match s.nodeBytes ctx st j with
    | none => stepError ctx j 5
    | some b =>
      let h := nodeHead b
      let n := st.node j
      let rng := loopRange b
      if h.kind = 2 ∧ rng.1 ≤ u ∧ u ≤ rng.2 then
        if n.st ≠ .performed ∨ n.inBody = false then skip
        else if n.backs + 1 < s.backEdges ctx st j rng then upd (modNode ctx j (fun n => { n with backs := n.backs + 1 }))
        else
          upd (fun d => (modNode ctx j (fun n =>
            { n with backs := 0, inBody := false, iters := n.iters + 1, st := .idle }))
            ((dropWaits ctx (fun i => decide (rng.1 ≤ i ∧ i ≤ rng.2 ∧ i ≠ j)) d).modCtx ctx (fun c => { c with step := c.step.map (fun st =>
              { st with list := st.list.filter (fun m => decide (¬(rng.1 ≤ m.idx ∧ m.idx ≤ rng.2 ∧ m.idx ≠ j))) }) })))
      else if n.st ≠ .idle ∨ h.npred ≤ n.taken + n.skips then stepError ctx j 2
      else
        upd (modNode ctx j (fun n =>
          { n with taken := n.taken + taken.toNat, skips := n.skips + (!taken).toNat, iters := 0 }))

/-- The context still walks its step. -/
def Dev.walking (d : Dev) (ctx : Nat) : Bool := (d.ctx ctx).step.isSome && decide ((d.ctx ctx).cstate ≠ .errstop)

/-- A node is resolved: its edges carry "taken" where `choice` says, in the order of its successors. -/
def resolve (ctx i : Nat) (st' : NodeSt) (choice : Nat → Bool) : Eff := look fun s =>
  withE (s.dev.ctx ctx).step fun st =>
    withE (s.nodeBytes ctx st i) fun b =>
      let h := nodeHead b
      (upd (modNode ctx i (fun n => { n with st := st' }))).andThen
        (forE h.succ.zipIdx (fun x => look fun s => whenE (s.dev.walking ctx) (edge ctx i x.1 (choice x.2))))

/-- A node is due: it has received NPRED edges and has not been resolved. -/
def Node.due (n : Node) (h : NodeHead) : Bool := n.st = .idle && decide (n.taken + n.skips = h.npred)

/-- The walker takes a due node of a kind in a RUNNING context: skipped if no edge carried "taken", else its action on
the node's bytes. -/
def atNode (ctx i kind : Nat) (act : Step → Node → List Byte → Eff) : Eff := look fun s =>
  let c := s.dev.ctx ctx
  withE c.step fun st =>
    if s.dev.stopped ∨ c.cstate ≠ .running ∨ st.nnodes ≤ i then skip
    else
      match s.nodeBytes ctx st i with
      | none => if (st.node i).taken + (st.node i).skips = 0 ∧ i ≠ 0 then skip else stepError ctx i 5
      | some b =>
        let h := nodeHead b
        let n := st.node i
        let k := if 6 < h.kind then kind else h.kind
        if k ≠ kind ∨ n.due h = false then skip
        else
          (nodeReadE ctx st i).andThen (look fun s =>
            if s.dev.walking ctx = false then skip
            else
              match h.bad b st.nnodes with
              | some reason => stepError ctx i reason
              | none =>
                if i ≠ 0 ∧ n.taken = 0 ∧ kind ≠ 6 then resolve ctx i .skipped (fun _ => false) else act st n b)

/-- A word that the walker reads for a context; an untranslatable one is a step error of reason 5. -/
def walkerRead (ctx i a n : Nat) (k : List Byte → Eff) : Eff := look fun s =>
  withRead ctx (s.dev.ctx ctx).eff.ptroot a n (fun _ _ => stepError ctx i 5) k

/-- A word that the walker or the run scheduler writes; one that it may not write is a step error of reason 6. -/
def walkerWrite (ctx i a : Nat) (bs : List Byte) (k : Eff) : Eff := look fun s =>
  withWrite ctx (s.dev.ctx ctx).eff.ptroot a bs (fun _ _ => stepError ctx i 6) k

end Sys2Proof.Machine
end

