-- ==== Sys2Proof/Machine/RunSched.lean ====
section
/-! DEFINITION. The run scheduler: acceptance of runs, placement, completion and aborts of flocks, tile evaluation
(R34-R36, R50-R56, R70, R86-R90, R153-R157, R171, R285-R302, R313-R317, R343, R395). -/

namespace Sys2Proof.Machine

/-! ## Descriptors (R153) -/

/-- A descriptor from its 128 bytes. KFLAGS bits 31:3 are ignored (log 63). -/
def kernOf (b : List Byte) (desc : W64) : Kern :=
  let fl := field b 4 4
  { desc := desc, restart := bit fl 0, bounds := bit fl 1, access := bit fl 2,
    entry := BitVec.ofNat 64 (field b 8 8), aentry := BitVec.ofNat 64 (field b 0x10 8), n := field b 0x18 2,
    sx := field b 0x1C 2, sy := field b 0x1E 2, sz := field b 0x20 2, herd := field b 0x22 2, scratch := field b 0x24 4,
    acc := field b 0x28 4, stk := field b 0x2C 4, fpre := (List.range 8).map (fun i => BitVec.ofNat 32 (field b (0x30 + 4 * i) 4)),
    bedge := field b 0x50 1, bdepth := field b 0x51 1, bbudget := field b 0x54 4, wins := field b 0x5C 4 }

def Kern.size (k : Kern) : Nat := k.sx * k.sy * k.sz

/-- A descriptor within the limits of R31, R34, R36, R86, R87, R90 and R155. -/
def Kern.legal (k : Kern) : Bool :=
  decide (1 ≤ k.n ∧ k.n ≤ 2047 ∧ 1 ≤ k.sx ∧ 1 ≤ k.sy ∧ 1 ≤ k.sz ∧ k.size ≤ 1024 ∧ 1 ≤ k.herd ∧ k.herd ≤ 4 ∧
    k.spadBytes ≤ spadMax ∧ k.accSlots ≤ accMax ∧ k.stk % 256 = 0 ∧ k.stk ≤ 16384)

/-- Registers allocated to a thread (R36). -/
def Kern.alloc (k : Kern) (intv : Bool) : Nat := ceilDiv k.n 8 * 8 * (if intv then 2 else 1)

/-- A flock fits an empty core. -/
def Kern.fits (k : Kern) (intv : Bool) : Bool := ceilDiv k.size 128 * k.alloc intv ≤ 2048

/-! ## The LAUNCH block (R313) -/

structure LaunchBlk where
  kdesc : W64
  args : W64
  nargs : Nat
  gx : Nat
  gy : Nat
  gz : Nat
  budget : Nat
  depth : Nat
  edge : Nat
  seed : W32
  breport : W64
  bmsel : Nat
  bitmap : W64
  wbind : W64
  cdone : W64
  deriving DecidableEq, Repr

def launchBlk (b : List Byte) : LaunchBlk :=
  let x := field b 0x18 8
  let r := field b 0x20 8
  let q (o : Nat) : W64 := BitVec.ofNat 64 (field b o 8)
  { kdesc := q 0, args := q 8, nargs := field b 0x16 2, gz := field b 0x14 2, gy := field b 0x12 2, gx := field b 0x10 2,
    budget := bits x 48 16, depth := bits x 35 3, edge := bits x 33 2,
    seed := BitVec.ofNat 32 (bits x 0 32), breport := BitVec.ofNat 64 (r / 4 * 4), bmsel := r % 4, bitmap := q 0x28,
    wbind := q 0x30, cdone := q 0x38 }

/-- A legal block. Reserved fields are ignored (R6), and KDESC need not be aligned (log 62). -/
def LaunchBlk.legal (x : LaunchBlk) : Bool :=
  decide (1 ≤ x.gx ∧ 1 ≤ x.gy ∧ 1 ≤ x.gz ∧ x.nargs ≤ 256 ∧ x.args.toNat % 4 = 0 ∧ x.bitmap.toNat % 8 = 0 ∧
    x.breport.toNat % 8 = 0 ∧ x.bmsel ≠ 3)

/-- The edge of an EDGE code: 8, 16, 32, 64. -/
def edgeOf (code : Nat) : Nat := 8 * 2 ^ code

/-- Edge, depth and budget of the bounds mode that a launch selects; none for element mode (R266, R287). -/
def boundsSel (x : LaunchBlk) (k : Kern) (lb : LbMode) : Option (Nat × Nat × Nat) :=
  let desc := if k.bounds then some (k.bedge, k.bdepth, k.bbudget) else none
  match lb.mode with
  | 1 => none
  | 2 => some (edgeOf lb.edge, lb.depth, lb.budget)
  | _ =>
    match x.bmsel with
    | 0 => desc
    | 1 => none
    | _ => some (edgeOf x.edge, x.depth, x.budget)

/-- Dimensionality of a grid (R288). -/
def gridDim (gx gy gz : Nat) : Nat := if 1 < gz then 3 else if 1 < gy then 2 else if 1 < gx then 1 else 1

/-- R287 admits the bounds parameters. -/
def boundsOk (x : LaunchBlk) (k : Kern) (p : Nat × Nat × Nat) : Bool :=
  let n := gridDim x.gx x.gy x.gz
  decide ((p.1 = 8 ∨ p.1 = 16 ∨ p.1 = 32 ∨ p.1 = 64) ∧ p.2.1 ≤ 4 ∧ 1 ≤ p.2.2 ∧ p.2.2 ≤ 65535 ∧ k.herd = 1 ∧
    (n < 3 → k.sz = 1) ∧ (n < 2 → k.sy = 1))

/-- Deff of R288. -/
def effDepth (dim edge depth : Nat) : Nat :=
  if dim = 1 then min depth (Nat.log2 edge / 2) else min depth (Nat.log2 edge)

/-- The depth-0 tiles in increasing number (R289). -/
def tiles0 (x : LaunchBlk) (k : Kern) (edge : Nat) : List Tile :=
  let n := gridDim x.gx x.gy x.gz
  let len (d g s : Nat) : Nat := if d < n then g * s else 1
  let nx := len 0 x.gx k.sx
  let ny := len 1 x.gy k.sy
  let nz := len 2 x.gz k.sz
  let step (d : Nat) : Nat := if d < n then edge else 1
  let tx := ceilDiv nx (step 0)
  let ty := ceilDiv ny (step 1)
  let tz := ceilDiv nz (step 2)
  (List.range (tx * ty * tz)).map (fun i =>
    let a := i % tx
    let b := i / tx % ty
    let c := i / (tx * ty)
    { root := i, depth := 0, lx := a * step 0, hx := min nx ((a + 1) * step 0) - 1, ly := b * step 1,
      hy := min ny ((b + 1) * step 1) - 1, lz := c * step 2, hz := min nz ((c + 1) * step 2) - 1 })

/-! ## Virtual devices and cores in service (R331, R360, R395) -/

/-- The clusters of a virtual device: a cluster in two masks belongs to the lower one. -/
def Dev.clustersOf (d : Dev) (v : Nat) : List Nat :=
  (List.range 64).filter (fun c =>
    bit (d.vdclus[v]?.getD 0).toNat c && (List.range v).all (fun w => !bit (d.vdclus[w]?.getD 0).toNat c))

/-- A core takes flocks: not all four of its issue-port-group bounds are 0, its cluster holds no self-test, its die has
power. -/
def Dev.inService (d : Dev) (core : Nat) : Bool :=
  (List.range 4).any (fun g => decide (d.bound 0 (4 * core + g) ≠ 0))

def Dev.canHost (d : Dev) (core : Nat) : Bool :=
  d.inService core && (d.cluster (clusterOf core)).test.isNone && (d.die (dieOf core)).powered

def coresOf (cluster : Nat) : List Nat := (List.range 4).map (4 * cluster + ·)

/-! ## Windows (R155, R315, R316) -/

/-- A signed field. -/
def sfield (b : List Byte) (o n : Nat) : Int := toSigned (8 * n) (field b o n)

/-- How a slot is bound. -/
inductive Bind
  | to (p : Option Nat)
  | no
  | wait
  deriving DecidableEq, Repr

/-- The binding of a slot for a run of a RUN node (`node`), or of a device LAUNCH. A step node's run is the one accepted
since the node was last due: a node that has not been reached in the present iteration has none. -/
def bindOf (c : Ctx) (isNode : Bool) (kind ref : Nat) : Bind :=
  match kind with
  | 1 =>
    let st := ((c.node? ref).map (·.st)).getD .idle
    if st = .skipped then .to none
    else if st = .idle then if isNode && c.step.any (fun st => decide (ref < st.nnodes)) then .wait else .no
    else
      match (c.runs.filter (fun r => r.node = some ref && !r.risk)).getLast? with
      | some r => .to (if r.complete then none else some r.num)
      | none => .no
  | 2 =>
    match c.runs.find? (fun r => r.num = ref) with
    | some r => .to (if r.complete then none else some r.num)
    | none => if ref ≠ 0 ∧ ref < c.nextRun then .to none else .no
  | _ => .no

/-- A window from its record. -/
def windowOf (b : List Byte) (p : Option Nat) : Window :=
  { prod := p, scale := (List.range 3).map (fun d => sfield b (8 + 12 * d) 2),
    lo := (List.range 3).map (fun d => sfield b (0xC + 12 * d) 4),
    hi := (List.range 3).map (fun d => sfield b (0x10 + 12 * d) 4) }

/-- A grid coordinate of index `g`. -/
def Run.coord (r : Run) (g : Nat) : Nat × Nat × Nat := (g % r.gx, g / r.gx % r.gy, g / (r.gx * r.gy))
def Run.count (r : Run) : Nat := r.gx * r.gy * r.gz

/-- A window is satisfied for the consumer flock at some coordinates. -/
def Window.met (w : Window) (c : Ctx) (x : Nat × Nat × Nat) : Bool :=
  match w.prod.bind (fun p => c.runs.find? (fun r => r.num = p)) with
  | none => true
  | some r =>
    let rng (d : Nat) (y p : Nat) : Int × Int :=
      let s := (w.scale[d]?.getD 0) * (y : Int)
      (max (s + (w.lo[d]?.getD 0)) 0, min (s + (w.hi[d]?.getD 0)) ((p : Int) - 1))
    let rx := rng 0 x.1 r.gx
    let ry := rng 1 x.2.1 r.gy
    let rz := rng 2 x.2.2 r.gz
    let idx (q : Int × Int) : List Nat := (List.range (q.2 - q.1 + 1).toNat).map (fun i => q.1.toNat + i)
    r.complete || (idx rx).all (fun i => (idx ry).all (fun j => (idx rz).all (fun k =>
      r.done.contains (i + r.gx * (j + r.gy * k)))))

/-! ## Acceptance (R314) -/

/-- What the control plane finds: a run (numbered later), a refusal, a word that it cannot read, or nodes that a binding
must wait for. -/
inductive Accept
  | ok (r : Run)
  /-- Refused; `wins` where its window records were read for their bindings. -/
  | refuse (wins : Option Nat)
  | unreadable
  | wait

def acceptRun (s : State) (ctx : Nat) (blk : List Byte) (lb : LbMode) (node : Option Nat) (risk : Bool) : Accept :=
  let c := s.dev.ctx ctx
  let root := c.eff.ptroot
  let x := launchBlk blk
  let can (a n : Nat) : Bool := (s.vbad ctx root a n .read).isNone
  let get (a n : Nat) : List Byte := s.vbytes ctx root a n
  let kd := x.kdesc.toNat
  if !x.legal then .refuse none
  else if !can (kd + 4) 92 then .unreadable
  else
    let k := kernOf (get kd 128) x.kdesc
    let bs := boundsSel x k lb
    let intv := bs.isSome
    if !k.legal || bs.any (fun p => !boundsOk x k p) || !k.fits intv ||
        !(s.dev.clustersOf c.eff.vdev.toNat).any (fun q => (coresOf q).all s.dev.inService) ||
        decide (256 ≤ (c.runs.filter (fun r => !r.complete)).length) then .refuse none
    else if (x.nargs ≠ 0 ∧ can x.args.toNat (4 * x.nargs) = false) ∨ (List.range k.wins).any (fun i => !can (kd + 132 + 48 * i) 44) ∨
        (k.wins ≠ 0 ∧ x.wbind ≠ 0 ∧ can x.wbind.toNat 64 = false) then .unreadable
    else
      let recs := (List.range k.wins).map (fun i => get (kd + 128 + 48 * i) 48)
      let tab := get x.wbind.toNat 64
      let binds := recs.map (fun b =>
        let j := field b 4 1
        if 7 < j ∨ x.wbind = 0 then Bind.no else bindOf c node.isSome (field tab (8 * j) 4) (field tab (8 * j + 4) 4))
      if binds.any (fun b => b == .no) then .refuse (some k.wins)
      else if binds.any (fun b => b == .wait) then .wait
      else
        .ok { num := 0, node := node, risk := risk, kern := k, gx := x.gx, gy := x.gy, gz := x.gz,
              ks := (List.range x.nargs).map (fun i => BitVec.ofNat 32 (leNat (get (x.args.toNat + 4 * i) 4))),
              seed := x.seed, bitmap := x.bitmap, cdone := x.cdone, breport := x.breport,
              wins := (recs.zip binds).map (fun (b, p) => windowOf b (match p with
                | .to q => q
                | _ => none)),
              queue := List.range (x.gx * x.gy * x.gz), blocked := [], done := [],
              bounds := bs.map (fun p =>
                { edge := p.1, depth := effDepth (gridDim x.gx x.gy x.gz) p.1 p.2.1, budget := p.2.2,
                  dim := gridDim x.gx x.gy x.gz, queue := tiles0 x k p.1, running := [], leaves := [], splits := [] }),
              complete := false, meas := [] }

/-- What the reads of an acceptance change: the descriptor; for a run with `wins` window records, whose bindings were looked at,
also its arguments, the records and the binding table. SYM, BLKS and KERN are not read (R157). -/
def acceptE (ctx : Nat) (blk : List Byte) (wins : Option Nat) : Eff := look fun s =>
  let root := (s.dev.ctx ctx).eff.ptroot
  let x := launchBlk blk
  if !x.legal then skip
  else
    (vreadE ctx root (x.kdesc.toNat + 4) 92).andThen (withE wins (fun n =>
      seqE [
        vreadE ctx root x.args.toNat (4 * x.nargs),
        forE (List.range n) (fun i => vreadE ctx root (x.kdesc.toNat + 132 + 48 * i) 44),
        whenE (decide (n ≠ 0 ∧ x.wbind ≠ 0)) (vreadE ctx root x.wbind.toNat 64) ]))

/-- The number after a run's, skipping 0. -/
def runAfter (n : Nat) : Nat := if (n + 1) % 2 ^ 32 = 0 then 1 else (n + 1) % 2 ^ 32

/-- A run is accepted: its number, the zeroed bitmap, its place in the context's list. -/
def addRun (ctx : Nat) (r : Run) (k : Nat → Eff) : Eff := look fun s =>
  let num := (s.dev.ctx ctx).nextRun
  walkerWrite ctx (r.node.getD headerIdx) r.bitmap.toNat (List.replicate (ceilDiv r.count 8) 0)
    ((upd (fun d => d.modCtx ctx (fun c =>
      { c with runs := c.runs ++ [{ r with num := num }], nextRun := runAfter num }))).andThen (k num))

/-- RUN_ACCEPT (R171, R314): the control plane answers a LAUNCH once the thread's earlier writes are visible at device
scope. VD receives the run number, or 0; a word that cannot be translated for a read is a step error (R417). -/
def runAccept (r : TRef) : Eff := look fun s =>
  withE (s.dev.flock? r.core r.slot) fun f =>
    withE (f.thread? r.t) fun th =>
      match th.wait with
      | .launch dest blk =>
        let ready : Bool := (s.dev.inFlight r).all (fun q => !q.pendingAt false) && th.seen.all s.dev.reached
        let answer (n : Nat) : Eff := updT r (fun th =>
          { (if dest = 2047 then th else th.setReg dest (BitVec.ofNat 32 n)) with wait := .none, waited := 0 })
        if !ready || s.dev.stopped || decide ((s.dev.ctx f.ctx).cstate = .errstop) then skip
        else
          match acceptRun s f.ctx blk th.lb none false with
          | .ok run => (acceptE f.ctx blk (some run.kern.wins)).andThen (look fun s =>
              if (s.dev.ctx f.ctx).cstate = .errstop then skip else addRun f.ctx run answer)
          | .refuse wins => (acceptE f.ctx blk wins).andThen (answer 0)
          | .unreadable => (acceptE f.ctx blk none).andThen (stepError f.ctx headerIdx 5)
          | .wait => answer 0
      | _ => skip

/-- RUN_ACCEPT (R314). -/
def execRunAccept (r : TRef) (s : State) : Host.Outcome State Fault Refusal := commit (runAccept r) s

/-! ## Room on a core (R50) -/

/-- Flocks on a core, those whose allocations are not yet free included. -/
def Dev.onCore (d : Dev) (core : Nat) : List Flock := d.flocks.filter (fun f => f.core = core)
/-- Registers per thread that a flock holds. -/
def Flock.alloc (f : Flock) : Nat := f.kern.alloc f.tile.isSome
def Dev.residents (d : Dev) (core : Nat) : Nat := ((d.onCore core).map (fun f => f.threads.length)).foldl (· + ·) 0

/-- The lowest slot that no flock and no write in flight uses. -/
def Dev.freeSlot (d : Dev) (core : Nat) : Option Nat :=
  (List.range 16).find? (fun l =>
    (d.onCore core).all (fun f => f.slot ≠ l) && d.reqs.all (fun q => !(q.ref.core = core && q.ref.slot = l)))

/-- Room for a flock of a kernel with threads `ts`. -/
def Dev.hasRoom (d : Dev) (core : Nat) (k : Kern) (ts : List Nat) (intv : Bool) : Bool :=
  let fs := d.onCore core
  let lane (n : Nat) (t : Nat) : Bool := t % 128 = n
  d.canHost core && (d.freeSlot core).isSome && decide (d.residents core + ts.length ≤ 4096) &&
    decide ((fs.map (fun f => f.kern.spadBytes)).foldl (· + ·) 0 + k.spadBytes ≤ spadMax) &&
    decide ((fs.map (fun f => f.kern.accSlots)).foldl (· + ·) 0 + k.accSlots ≤ accMax) &&
    (List.range 128).all (fun n =>
      let mine := (ts.filter (lane n)).length
      let held := fs.map (fun f => ((f.threads.filter (fun th => lane n th.t)).length, f.alloc))
      decide (mine = 0 ∨ ((held.map (·.1)).foldl (· + ·) 0 + mine ≤ 32 ∧
        (held.map (fun x => x.1 * x.2)).foldl (· + ·) 0 + mine * k.alloc intv ≤ 2048)))

/-- The core with the fewest resident threads among those with room; ties to the lower number (R317). -/
def Dev.bestCore (d : Dev) (cores : List Nat) (k : Kern) (ts : List Nat) (intv : Bool) : Option Nat :=
  match cores.filter (fun c => d.hasRoom c k ts intv) with
  | [] => none
  | c :: cs => some (cs.foldl (fun a b => if d.residents b < d.residents a then b else a) c)

/-- Clusters where a context's flocks may go: its virtual device's, none that a TEST node holds (R311). -/
def Dev.homes (d : Dev) (ctx : Nat) : List Nat :=
  let c := d.ctx ctx
  let held (q : Nat) : Bool := c.step.any (fun st => st.list.any (fun n => n.st = .busy && n.mask.testBit q))
  (d.clustersOf c.eff.vdev.toNat).filter (fun q => !held q)

/-! ## A placed flock (R50, R70, R87, R290) -/

/-- Stack slots that resident and saved flocks of a context hold. -/
def Dev.sigmas (d : Dev) (ctx : Nat) : List Nat :=
  ((d.flocks.filter (fun f => f.ctx = ctx)) ++ (d.ctx ctx).saved.map (·.flock)).filterMap (·.sigma)
def Dev.freeSigma (d : Dev) (ctx : Nat) : Nat :=
  let used := d.sigmas ctx
  ((List.range 4096).find? (fun i => i ∉ used)).getD 0

/-- A thread at the kernel entry; `seed` numbers its undefined registers, and placement is its acquire: no L1 line filled
before `floor` serves its loads (R275, R285). -/
def newThread (t : Nat) (entry : W64) (intv : Bool) (seed : Nat) (sr : W32) (conv : Bool) (floor : Nat) : Thread :=
  { t := t, pc := entry, enter := some 0, blkEnd := 0, intv := intv, regs := [], undef := some seed,
    preds := (List.range 8).map (fun i => if Config.undefPred seed i then .t else .f),
    xs := (List.range 4).map (Config.undefX seed), cnt := ⟨0, 0, 0, 0⟩, rpc := none, helper := false, retaddr := 0,
    srstate := if sr = 0 then 1 else sr, lb := ⟨0, 0, 0, 0⟩, trap := ⟨false, false, 0, 0, 0, 0, 0⟩, srv := ⟨0, 0, 0, 0, []⟩,
    wait := .none, waited := 0, ended := none, iv := ⟨[], [], 0, [], false⟩, converged := conv,
    oqpos := List.replicate 8 0, after := [], afterW := [], seen := [], l1floor := floor }

/-- The access-slice instance at its entry, its s registers zero. -/
def newInst (k : Kern) (floor : Nat) : Thread :=
  { newThread instId k.aentry false 0 1 false floor with undef := none, preds := List.replicate 8 .f, xs := List.replicate 4 0 }

def placedRegs (c : CtxRegs) : PlacedRegs := ⟨c.ptroot, c.stkbase, c.vwbase, c.vwsize⟩

/-- The bits of the f registers that are no reserved ones (R63). -/
def fsrMask : W32 := 0x003FF771

/-- A new flock on a core: threads `ts` with their converged marks; `tile` for an evaluation flock. Its undefined
registers, scratchpad and accumulators take fresh free values. -/
def newFlock (d : Dev) (core slot ctx : Nat) (r : Run) (g : Nat) (ts : List (Nat × Bool)) (tile : Option Tile) : Flock :=
  let k := r.kern
  let (x, y, z) := r.coord g
  { core := core, slot := slot, ctx := ctx, run := r.num, g := g, fx := x, fy := y, fz := z, hidx := g % k.herd,
    herd := g / k.herd, kern := k, ks := r.ks, fs := k.fpre.map (· &&& fsrMask), ms := List.replicate 32 0, oq := List.replicate 8 ⟨0, []⟩,
    committed := !k.restart && tile.isNone, sigma := if tile.isSome then none else some (d.freeSigma ctx),
    threads := ts.zipIdx.map (fun (t, i) => newThread t.1 k.entry tile.isSome (d.free + i)
      (mix32 (r.seed ^^^ BitVec.ofNat 32 (1024 * g + t.1))) t.2 d.nextId),
    inst := if k.access ∧ tile.isNone then some (newInst k d.nextId) else none, barDone := false,
    regs := placedRegs (d.ctx ctx).regs, tile := tile, dead := false, finished := false }

/-- The first placement of a RUN node's run on a die (R343). -/
def Run.started (r : Run) (die cycle : Nat) : Run :=
  if r.node.isNone ∨ (aget r.meas die).isSome then r else { r with meas := aset r.meas die (cycle, cycle, 0) }

/-- Places a flock on a core with room. -/
def placeE (core ctx num g : Nat) (ts : List (Nat × Bool)) (tile : Option Tile) : Eff := look fun s =>
  withE (s.dev.run? ctx num) fun r =>
    withE (s.dev.freeSlot core) fun slot =>
      let seed := s.dev.free + ts.length
      seqE [
        upd (fun d =>
          let f := newFlock d core slot ctx r g ts tile
          { (d.modRun ctx num (fun r =>
              { (if tile.isSome then r else r.started (dieOf core) (d.die (dieOf core)).cycle) with
                queue := if tile.isSome then r.queue else r.queue.filter (· ≠ g) })) with
            flocks := d.flocks ++ [f], free := d.free + ts.length + 2 }),
        upd (fun d => acquirePlace core (d.claim core false)),
        wr [.drop (.spad core slot), .drop (.acc core slot), .wipe (.spad core slot) 0 seed, .wipe (.acc core slot) 0 (seed + 1)] ]

/-! ## Which flock goes next (R299, R316, R317, R410) -/

/-- A tile holds an element. -/
def Tile.has (t : Tile) (e : Nat × Nat × Nat) : Bool :=
  t.lx ≤ e.1 ∧ e.1 ≤ t.hx ∧ t.ly ≤ e.2.1 ∧ e.2.1 ≤ t.hy ∧ t.lz ≤ e.2.2 ∧ e.2.2 ≤ t.hz

/-- The element of thread `t` of flock `g`. -/
def Run.elem (r : Run) (g t : Nat) : Nat × Nat × Nat :=
  let (x, y, z) := r.coord g
  let k := r.kern
  (x * k.sx + k.coord t 0, y * k.sy + k.coord t 1, z * k.sz + k.coord t 2)

/-- The outcome of the leaf that holds an element, if it is fixed. -/
def Bounds.outcome (b : Bounds) (e : Nat × Nat × Nat) : Option Nat := (b.leaves.find? (fun x => x.1.has e)).map (·.2)

/-- The threads that flock `g` spawns with their converged marks, or none while a leaf of it is open. -/
def Run.spawn (r : Run) (g : Nat) : Option (List (Nat × Bool)) :=
  let all := List.range r.kern.size
  match r.bounds with
  | none => some (all.map (fun t => (t, false)))
  | some b =>
    if all.any (fun t => (b.outcome (r.elem g t)).isNone) then none
    else
      some (all.filterMap (fun t =>
        match b.outcome (r.elem g t) with
        | some 0 => none
        | some o => some (t, decide (o = 1))
        | none => none))

/-- The flock is ready: its windows are satisfied, no page fault blocks it, its leaves are fixed and not all DONE. -/
def Run.readyFlock (r : Run) (c : Ctx) (g : Nat) : Bool :=
  r.wins.all (fun w => w.met c (r.coord g)) &&
    r.blocked.all (fun b => b.1 ≠ g || !(c.faults.any (fun f => f.fid = b.2))) &&
    (r.spawn g).any (fun ts => ts ≠ [])

/-- The flocks of `g`'s herd, increasing. -/
def Run.herdOf (r : Run) (g : Nat) : List Nat :=
  ((List.range r.kern.herd).map (g / r.kern.herd * r.kern.herd + ·)).filter (fun i => i < r.count)

/-- Cores for flocks one after another in a cluster, each on the core with the fewest resident threads. -/
def herdCores (r : Run) (ctx : Nat) (cores : List Nat) : List Nat → Dev → Option (List Nat)
  | [], _ => some []
  | g :: gs, d =>
    let ts := (List.range r.kern.size).map (fun t => (t, false))
    match d.bestCore cores r.kern (ts.map (·.1)) false with
    | none => none
    | some c =>
      let d1 := { d with flocks := d.flocks ++ [newFlock d c ((d.freeSlot c).getD 0) ctx r g ts none] }
      (herdCores r ctx cores gs d1).map (c :: ·)

/-- The cluster with the most free thread slots that has room for all (R317). -/
def Dev.bestCluster (d : Dev) (ctx : Nat) (r : Run) (gs : List Nat) : Option (List Nat) :=
  let free (q : Nat) : Nat := ((coresOf q).map (fun c => 4096 - d.residents c)).foldl (· + ·) 0
  match (d.homes ctx).filter (fun q => (herdCores r ctx (coresOf q) gs d).isSome) with
  | [] => none
  | q :: qs =>
    let best := qs.foldl (fun a b => if free a < free b then b else a) q
    herdCores r ctx (coresOf best) gs d

/-- Where the flock `g`, or its herd, would go now. -/
def Dev.spot (d : Dev) (ctx : Nat) (r : Run) (g : Nat) : Option (List (Nat × Nat)) :=
  let c := d.ctx ctx
  if r.kern.herd = 1 then
    if r.readyFlock c g then
      (d.bestCore ((d.homes ctx).flatMap coresOf) r.kern (((r.spawn g).getD []).map (·.1)) false).map (fun x => [(g, x)])
    else none
  else
    let gs := r.herdOf g
    if gs.all (fun i => r.readyFlock c i && decide (i ∈ r.queue)) then (d.bestCluster ctx r gs).map (fun cs => gs.zip cs) else none

/-- The next placement of a context: runs in the order of acceptance, the first flock of a queue that is ready and
fits. -/
def Dev.nextSpot (d : Dev) (ctx : Nat) : Option (Run × List (Nat × Nat)) :=
  let c := d.ctx ctx
  if c.cstate ≠ .running ∨ d.stopped then none
  else c.runs.findSome? (fun r => if r.complete then none else (r.queue.findSome? (d.spot ctx r)).map (fun p => (r, p)))

/-- Contexts are served in turn (R317). -/
def Dev.isTurn (d : Dev) (ctx : Nat) : Bool :=
  let order := (List.range 64).map (fun i => (d.placeTurn + 1 + i) % 64)
  order.find? (fun k => (d.nextSpot k).isSome) = some ctx

/-- Places the context's next flock or herd, if it has this many flocks or more (`herd`). -/
def placeNext (ctx : Nat) (herd : Bool) : Eff := look fun s =>
  match s.dev.nextSpot ctx with
  | none => skip
  | some (r, ps) =>
    if s.dev.isTurn ctx = false ∨ decide (1 < r.kern.herd) ≠ herd then skip
    else
      (upd (fun d => { d with placeTurn := ctx })).andThen
        (forE ps (fun p => placeE p.2 ctx r.num p.1 ((r.spawn p.1).getD []) none))

/-- FLOCK_PLACE (R50). -/
def execFlockPlace (ctx : Nat) (s : State) : Host.Outcome State Fault Refusal := commit (placeNext ctx false) s
/-- HERD_PLACE (R51). -/
def execHerdPlace (ctx : Nat) (s : State) : Host.Outcome State Fault Refusal := commit (placeNext ctx true) s

/-! ## Completion (R52, R285, R300, R302) -/

/-- The report word of a depth-0 tile. -/
def Bounds.report (b : Bounds) (root : Nat) : Nat :=
  let ls := b.leaves.filter (fun x => x.1.root = root)
  let n (o : Nat) : Nat := (ls.filter (fun x => x.2 = o)).length
  let depth := ls.foldl (fun m x => max m x.1.depth) 0
  let out := if b.splits.any (fun t => t.root = root ∧ t.depth = 0) then 2 else ((ls.head?).map (·.2)).getD 0
  n 0 * 2 ^ 48 + n 1 * 2 ^ 32 + n 3 * 2 ^ 16 + min depth 3 * 4 + out

/-- A run whose flocks have all completed ends: the report words, CDONE, its node's edges. -/
def runEnd (ctx num : Nat) : Eff := look fun s =>
  withE (s.dev.run? ctx num) fun r =>
    if r.complete ∨ r.done.length < r.count ∨ r.bounds.any (fun b => b.queue ≠ [] || b.running ≠ []) then skip
    else
      let idx := r.node.getD headerIdx
      let roots := match r.bounds with
        | some b => if r.breport = 0 then [] else ((b.leaves.map (·.1.root)).dedup).map (fun i => (i, b.report i))
        | none => []
      let ok (e : Eff) : Eff := look fun s => whenE (s.dev.walking ctx) e
      seqE [
        forE roots (fun w => ok (walkerWrite ctx idx (r.breport.toNat + 8 * w.1) (leBytes 8 w.2) skip)),
        ok (if r.cdone = 0 then skip else walkerWrite ctx idx r.cdone.toNat (leBytes 8 num) skip),
        ok (upd (fun d => d.modRun ctx num (fun r => { r with complete := true }))),
        ok (match r.node with
          | some i => if r.risk then skip else resolve ctx i .performed (fun _ => true)
          | none => skip) ]

/-- Sets a flock's bit (R285), then looks whether the run has ended. -/
def setBit (ctx num g : Nat) (k : Eff) : Eff := look fun s =>
  withE (s.dev.run? ctx num) fun r =>
    let a := r.bitmap.toNat + g / 8
    let idx := r.node.getD headerIdx
    withRead ctx (s.dev.ctx ctx).eff.ptroot a 1 (fun _ _ => stepError ctx idx 6) fun old =>
    walkerWrite ctx idx a (leBytes 1 (leNat old ||| 2 ^ (g % 8)))
      ((upd (fun d => d.modRun ctx num (fun r => if r.done.contains g then r else { r with done := r.done ++ [g] }))).andThen k)

/-- The last completion of a flock of a run on a die (R343). -/
def Run.ended (r : Run) (die cycle : Nat) : Run :=
  match aget r.meas die with
  | some (a, _, n) => { r with meas := aset r.meas die (a, cycle, n + 1) }
  | none => r

/-- Every counter of a thread is zero. -/
def Thread.quiet (th : Thread) : Bool := th.cnt.ld = 0 ∧ th.cnt.st = 0 ∧ th.cnt.cp = 0 ∧ th.cnt.tl = 0

/-- The end of a context's drain (R327, R328); the CRIT sequence reads DRAINLIM as 0 (R424). -/
def Dev.drainEnd (d : Dev) (k : Nat) : Nat :=
  (d.ctx k).drainAt + (if d.mgmt.crit.isSome then 0 else 40 * (d.ctx k).eff.drainlim.toNat)

/-- The issue-port-group instances whose port groups hold threads of a flock that have not ended. -/
def Flock.ports (f : Flock) : List Nat := ((f.live.map (fun th => 4 * f.core + pgOf th.t))).dedup

/-- After the limit a context owes for the port groups that hold threads of its committed flocks (R328). -/
def owe (k : Nat) : Dev → Dev := fun d =>
  let c := (d.ctx k).cstate
  if (c = .draining ∨ c = .saving) ∧ d.drainEnd k < d.ctime then
    let ports := (d.flocks.filter (fun f => f.ctx = k ∧ f.committed ∧ f.dead = false)).flatMap Flock.ports
    d.modCtx k (fun c => { c with owed := (c.owed ++ ports.map (fun i => (0, i))).dedup })
  else d

/-- Collectives that flocks have begun go on past the completion of these (R259, R261): they keep a reference to no slot. -/
def orphanColls (hs : List Flock) : Dev → Dev := fun d =>
  { d with fab := { d.fab with colls := d.fab.colls.map (fun c =>
      if hs.any (fun y => y.core = c.ref.core && y.slot = c.ref.slot) then { c with ref := { c.ref with slot := 16 } } else c) } }

/-- Frees a completed flock, with its herd, once every flock of the herd has completed: until then its peers reach its
scratchpad (R52, R57, R86). -/
def herdFree (core slot : Nat) : Eff := look fun s =>
  withE (s.dev.flock? core slot) fun f =>
    let hs := s.dev.herdOf f
    if hs.all (fun x => x.finished || (x.core = core && x.slot = slot)) then
      (upd (orphanColls hs)).andThen (discard (fun x => hs.any (fun y => y.core = x.core && y.slot = x.slot)))
    else upd (fun d => d.modFlock core slot (fun f => { f with finished := true }))

/-- FLOCK_COMPLETE: all threads and the access slice have ended, all counters are zero, the engines are done; and, since
completion is a release at device scope, every store that its threads read early or acquired has reached its slice (R278,
R285). -/
def flockComplete (core slot : Nat) : Eff := look fun s =>
  withE (s.dev.flock? core slot) fun f =>
    let ths := f.threads ++ f.inst.toList
    let c := s.dev.core core
    let mine (r : TRef) : Bool := r.core = core ∧ r.slot = slot
    if f.dead || f.finished || f.tile.isSome || !ths.all (fun th => th.ended.isSome && th.quiet && th.seen.all s.dev.reached) ||
        c.mat.any (fun o => mine o.ref) || c.cpy.any (fun o => mine o.ref) || s.dev.stopped then skip
    else
      setBit f.ctx f.run f.g (seqE [
        herdFree core slot,
        upd (fun d => d.modRun f.ctx f.run (fun r => r.ended (dieOf core) (d.die (dieOf core)).cycle)),
        runEnd f.ctx f.run ])

/-- FLOCK_COMPLETE (R52). -/
def execFlockComplete (core slot : Nat) (s : State) : Host.Outcome State Fault Refusal := commit (flockComplete core slot) s

/-! ## Aborts (R55, R301, R328) -/

/-- At the drain limit the uncommitted flocks of a context are aborted, evaluation flocks too (R301, R328). -/
def flockAbort (core slot : Nat) : Eff := look fun s =>
  withE (s.dev.flock? core slot) fun f =>
    let c := s.dev.ctx f.ctx
    if f.dead ∨ f.committed ∨ (c.cstate ≠ .draining ∧ c.cstate ≠ .saving) ∨ s.dev.ctime < s.dev.drainEnd f.ctx then skip
    else abortFlock f none

/-- FLOCK_ABORT (R55). -/
def execFlockAbort (core slot : Nat) (s : State) : Host.Outcome State Fault Refusal := commit (flockAbort core slot) s

/-- ABORT_ALLOC_FREE (R55): the engines report that none of the flock's writes is in flight. -/
def abortFree (core slot : Nat) : Eff := look fun s =>
  withE (s.dev.flock? core slot) fun f =>
    if !f.dead || s.dev.reqs.any (fun q => q.ref.core = core && q.ref.slot = slot) then skip
    else (upd (fun d => d.delFlock core slot)).andThen (wr [.drop (.spad core slot), .drop (.acc core slot)])

/-- ABORT_ALLOC_FREE (R55). -/
def execAbortAllocFree (core slot : Nat) (s : State) : Host.Outcome State Fault Refusal := commit (abortFree core slot) s

/-! ## Tile evaluation (R289, R290, R296-R301) -/

/-- A flock coordinate at which thread coordinate `td` falls in [l, h]. -/
def hits (l h x td : Nat) : Bool :=
  let lo : Int := ((l : Int) - td + x - 1) / x
  let hi : Int := ((h : Int) - td) / x
  decide (max lo 0 ≤ hi)

/-- The thread ids that an element of the tile has. -/
def Tile.ids (t : Tile) (k : Kern) : List Nat :=
  (List.range k.size).filter (fun i => hits t.lx t.hx k.sx (k.coord i 0) && hits t.ly t.hy k.sy (k.coord i 1) &&
    hits t.lz t.hz k.sz (k.coord i 2))

/-- The flocks whose elements the tile holds. -/
def Tile.flocks (t : Tile) (r : Run) : List (Nat × Nat × Nat) :=
  let k := r.kern
  let rng (l h x : Nat) : List Nat := (List.range (h / x + 1 - l / x)).map (l / x + ·)
  (rng t.lx t.hx k.sx).flatMap (fun a => (rng t.ly t.hy k.sy).flatMap (fun b => (rng t.lz t.hz k.sz).map (fun c => (a, b, c))))

def modBounds (ctx num : Nat) (g : Bounds → Bounds) : Dev → Dev := fun d =>
  d.modRun ctx num (fun r => { r with bounds := r.bounds.map g })

/-- The flocks of which every element lies in a DONE leaf have their bits set without placement (R300). -/
def fillFlocks (ctx num : Nat) : Eff := look fun s =>
  withE (s.dev.run? ctx num) fun r =>
    let gs := r.queue.filter (fun g => r.spawn g = some [])
    (forE gs (fun g => look fun s => whenE (s.dev.walking ctx)
      (setBit ctx num g (upd (fun d => d.modRun ctx num (fun r => { r with queue := r.queue.filter (· ≠ g) })))))).andThen
      (look fun s => whenE (s.dev.walking ctx) (runEnd ctx num))

/-- A tile becomes a leaf. -/
def leaf (ctx num : Nat) (t : Tile) (o : Nat) : Eff :=
  (upd (modBounds ctx num (fun b =>
    { b with leaves := b.leaves ++ [(t, o)], running := b.running.filter (· ≠ t), queue := b.queue.filter (· ≠ t) }))).andThen
    (fillFlocks ctx num)

/-- TILE_EVAL_PLACE: the tile at the head of a run's evaluation queue is placed, or becomes a SCATTER leaf for want of
budget. -/
def tileEval (ctx num : Nat) : Eff := look fun s =>
  withE (s.dev.run? ctx num) fun r =>
    withE r.bounds fun b =>
      match b.queue with
      | [] => skip
      | t :: rest =>
        let c := s.dev.ctx ctx
        let ids := t.ids r.kern
        if c.cstate ≠ .running ∨ s.dev.stopped then skip
        else if b.budget < ids.length then leaf ctx num t 3
        else if !((t.flocks r).all (fun x => r.wins.all (fun w => w.met c x))) then skip
        else
          match s.dev.bestCore ((s.dev.homes ctx).flatMap coresOf) r.kern ids true with
          | none => skip
          | some core =>
            (placeE core ctx num 0 (ids.map (fun i => (i, false))) (some t)).andThen
              (upd (modBounds ctx num (fun b =>
                { b with queue := rest, running := b.running ++ [t], budget := b.budget - ids.length })))

/-- TILE_EVAL_PLACE (R290). -/
def execTileEvalPlace (ctx run : Nat) (s : State) : Host.Outcome State Fault Refusal := commit (tileEval ctx run) s

/-- A part of a range: `len` elements from `lo`, clipped at `h`. -/
def cut (lo len h : Nat) : Nat × Nat := (lo, min (lo + len - 1) h)

/-- The quarters of a tile that hold an element, in order (R289). -/
def Tile.quarters (t : Tile) (b : Bounds) : List Tile :=
  let mk (x y : Nat × Nat) : Tile :=
    { t with depth := t.depth + 1, lx := x.1, hx := x.2, ly := y.1, hy := y.2 }
  let qs : List Tile :=
    if b.dim = 1 then
      let n := b.edge / 4 ^ (t.depth + 1)
      (List.range 4).filterMap (fun i => if t.lx + i * n ≤ t.hx then some (mk (cut (t.lx + i * n) n t.hx) (t.ly, t.hy)) else none)
    else
      let n := b.edge / 2 ^ (t.depth + 1)
      [(0, 0), (1, 0), (0, 1), (1, 1)].filterMap (fun (i, j) =>
        if t.lx + i * n ≤ t.hx ∧ t.ly + j * n ≤ t.hy then
          some (mk (cut (t.lx + i * n) n t.hx) (cut (t.ly + j * n) n t.hy))
        else none)
  qs

/-- One address of a recorded fill: thread, address, value, width. -/
structure FillAt where
  t : Nat
  a : W64
  w : Nat
  val : W64
  deriving DecidableEq, Repr

/-- The elements of a tile that a thread stands for, x fastest. -/
def Tile.elemsOf (tile : Tile) (k : Kern) (t : Nat) : List (Nat × Nat × Nat) :=
  let pick (l h x td : Nat) : List Nat := ((List.range (h + 1 - l)).map (l + ·)).filter (fun e => e % x = td)
  (pick tile.lz tile.hz k.sz (k.coord t 2)).flatMap (fun z => (pick tile.ly tile.hy k.sy (k.coord t 1)).flatMap (fun y =>
    (pick tile.lx tile.hx k.sx (k.coord t 0)).map (fun x => (x, y, z))))

/-- Every address of a tile's recorded fills, thread by thread, in the order recorded (R298). -/
def Flock.fillList (f : Flock) (tile : Tile) : List FillAt :=
  f.threads.flatMap (fun th => th.iv.fills.flatMap (fun r => (tile.elemsOf f.kern th.t).map (fun e =>
    ⟨th.t, fillAddr r.base r.py r.pz r.w e.1 e.2.1 e.2.2, r.w, r.val⟩)))

/-- Where a fill goes: a place, with NC of its page; an illegal use, V = 0, an entry beyond correction, or an entry in no
region. -/
inductive FillTo
  | at_ (l : Loc) (nc : Bool)
  | illegal
  | invalid
  | bad
  | stuck (pa : Nat)

def fillTo (s : State) (f : Flock) (x : FillAt) : FillTo :=
  match steer s.dev f x.t ⟨false, true, true⟩ x.a.toNat with
  | .bad _ => .illegal
  | .place l => if x.a.toNat % x.w ≠ 0 then .illegal else .at_ l false
  | .virt va =>
    if x.a.toNat % x.w ≠ 0 then .illegal
    else
      match xlat s (some f.core) f.ctx f.regs.ptroot va .write with
      | .ok pa lf => if pteMx lf then .illegal else .at_ (placeOf pa lf va) (pteNc lf)
      | .denied => .illegal
      | .perm => .illegal
      | .fault _ => .invalid
      | .bad => .bad
      | .stuck pa => .stuck pa

/-- The requester of a fill: the evaluation flock's thread (R298, R326). -/
def fillWho (d : Dev) (f : Flock) (t : Nat) (nc : Bool) : Who :=
  let (g, c, stamp) := d.tag f.ctx f.core t
  { core := some f.core, ctx := some f.ctx, owner := some f.ctx, group := g, cls := c, stamp := stamp, nc := nc, consume := false, req := none }

/-- Performs fills in order, as plain stores of their threads; `stop` ends them. -/
def doFills (f : Flock) (stop done : Eff) : List FillAt → Eff
  | [] => done
  | x :: xs => look fun s =>
    let pre : Eff := match steer s.dev f x.t ⟨false, true, true⟩ x.a.toNat with
      | .virt va => xlatE (some f.core) f.ctx f.regs.ptroot va .write
      | _ => skip
    match fillTo s f x with
    | .stuck pa => halt (.noSuchLocation pa)
    | .bad => pre
    | .at_ l nc =>
      let bs := leBytes x.w x.val.toNat
      seqE [
        pre,
        eccWrite l x.w,
        pointWrite (fillWho s.dev f x.t nc) .plain l bs,
        upd (fun d => match l with
          | .dram pa => l1Stale f.core (pa / 128) (l1Write f.core pa bs d)
          | _ => d),
        doFills f stop done xs ]
    | _ => pre.andThen stop

/-- TILE_OUTCOME (R296): every interval thread of an evaluation flock has ended. -/
def tileOutcome (core slot : Nat) : Eff := look fun s =>
  withE (s.dev.flock? core slot) fun f =>
    withE f.tile fun t =>
      withE ((s.dev.run? f.ctx f.run).bind (·.bounds)) fun b =>
        if f.dead || s.dev.stopped || !f.threads.all (fun th => th.ended.isSome) then skip
        else
          let gone : Eff := discard (fun x => x.core = core ∧ x.slot = slot)
          let unknown : Bool := f.threads.any (fun th => th.ended = some .unknown)
          let stored : Bool := f.threads.any (fun th => th.iv.stored)
          let scatter : Eff := gone.andThen (leaf f.ctx f.run t 3)
          if unknown then
            if t.depth < b.depth then
              gone.andThen ((upd (modBounds f.ctx f.run (fun b =>
                { b with running := b.running.filter (· ≠ t), splits := b.splits ++ [t], queue := b.queue ++ t.quarters b }))).andThen
                (fillFlocks f.ctx f.run))
            else scatter
          else if stored then gone.andThen (leaf f.ctx f.run t 1)
          else
            let xs := f.fillList t
            if xs.any (fun x => match fillTo s f x with
                | .illegal => true
                | _ => false) then scatter
            else doFills f scatter (gone.andThen (leaf f.ctx f.run t 0)) xs

/-- TILE_OUTCOME (R296). -/
def execTileOutcome (core slot : Nat) (s : State) : Host.Outcome State Fault Refusal := commit (tileOutcome core slot) s

end Sys2Proof.Machine
end

