-- ==== Sys2Proof/Machine/Walker.lean ====
section
/-! DEFINITION. Submission and the graph walker (R303-R312, R391-R393, R417). -/

namespace Sys2Proof.Machine

/-! ## SQTAIL (R304, R305) -/

/-- A function reaches a context's page: from stage 4 on, a virtual function only if its virtual device owns the context,
and never context 0's (R355, R367, R373). -/
def Dev.mayAct (d : Dev) (f : Fn) (ctx : Nat) : Bool :=
  decide (ctx < 64 ∧ d.mgmt.stage = 4 ∧ d.mgmt.linkUp) && (match f with
    | .pf => true
    | .vf v => decide (v < 16 ∧ ctx ≠ 0 ∧ (d.ctx ctx).vdevNow = v))

/-- Entries `i` to `tail` of a ring, as the walker reads them. -/
def State.ringEntry (s : State) (ctx i : Nat) : Entry :=
  let b := s.phys ((s.dev.ctx ctx).regs.sqbase.toNat + 16 * i) 16
  ⟨BitVec.ofNat 64 (field b 0 8), BitVec.ofNat 32 (field b 8 4), BitVec.ofNat 32 (field b 12 4)⟩

/-- The ring indices that a doorbell posts: from SQHEAD to the tail, modulo the ring's size; none while SQLOG is outside
4-12, where the ring has no size (log 58). -/
def Ctx.posted (c : Ctx) (val : Nat) : List Nat :=
  let lg := c.regs.sqlog.toNat
  let n := 2 ^ lg
  if lg < 4 ∨ 12 < lg then []
  else (List.range ((val % n + n - c.sqhead % n) % n)).map (fun i => (c.sqhead + i) % n)

/-- A doorbell: SQTAIL takes the value; the entries from SQHEAD up to the tail are read, with the check of each; a tail
equal to SQHEAD posts nothing. -/
def sqTail (f : Fn) (ctx val : Nat) : Eff := look fun s =>
  let c := s.dev.ctx ctx
  let at_ (i : Nat) : Nat := c.regs.sqbase.toNat + 16 * i
  let idx := c.posted val
  if s.dev.mayAct f ctx = false then skip
  else
    (upd (fun d => d.modCtx ctx (fun c => { c with sqtail := val % 2 ^ 32 }))).andThen
      (if s.dev.stopped ∨ idx = [] then skip
      else
        match idx.find? (fun i => !inRegion (at_ i)) with
        | some i => halt (.noSuchLocation (at_ i))
        | none =>
          (forE idx (fun i => tableRead ctx (at_ i) 16)).andThen
            (whenE (!idx.any (fun i => s.dev.tableBad (at_ i) 16))
              (upd (fun d => d.modCtx ctx (fun c => { c with entries := idx.map (s.ringEntry ctx) })))))

/-- SQTAIL (R305). -/
def execSqtail (f : Fn) (ctx val : Nat) (s : State) : Host.Outcome State Fault Refusal := commit (sqTail f ctx val) s

/-! ## STEP_BEGIN (R306) -/

/-- A step just begun, from its entry and header. -/
def Step.start (e : Entry) (n : Nat) (b : List Byte) : Step :=
  { entry := e, nnodes := n, risknode := field b 4 4, nodes := BitVec.ofNat 64 (field b 0x10 8),
    done := BitVec.ofNat 64 (field b 0x18 8), list := [], riskRaised := false, riskLaunched := false, riskDies := [],
    ending := false, signalled := false }

/-- A step begins: the registers take effect, the header is read, DEADLINE and STEPID go to the save area. -/
def stepBegin (ctx : Nat) : Eff := look fun s =>
  let c := s.dev.ctx ctx
  match c.entries with
  | [] => skip
  | e :: _ =>
    if c.cstate ≠ .running ∨ c.step.isSome ∨ s.dev.stopped ∨ 64 ≤ ctx then skip
    else
      (upd (fun d => d.modCtx ctx (fun c => { c with eff := c.regs }))).andThen
        (if c.regs.csave = 0 ∨ c.regs.csavesz = 0 then stepError ctx headerIdx 7
        else walkerRead ctx headerIdx e.step.toNat 64 (fun b =>
          let n := field b 0 4
          let nodes := field b 0x10 8
          if n = 0 ∨ 65535 < n ∨ nodes % 64 ≠ 0 then stepError ctx headerIdx 4
          else
            (physWrite c.regs.csave.toNat (b.drop 8 |>.take 8)).andThen ((physWrite (c.regs.csave.toNat + 8) (leBytes 4 e.stepid.toNat)).andThen
              (upd (fun d => Dev.modCtx { d with mgmt := { d.mgmt with deadlineAt := some d.ctime } } ctx (fun c =>
                { c with step := some (Step.start e n b) }))))))

/-- STEP_BEGIN (R306). -/
def execStepBegin (ctx : Nat) (s : State) : Host.Outcome State Fault Refusal := commit (stepBegin ctx) s

/-! ## RUN, COND, LOOP (R307-R309) -/

/-- A node waits for its action to end. -/
def busy (ctx i : Nat) : Eff := upd (modNode ctx i (fun n => { n with st := .busy }))

/-- Launches the run of a LAUNCH block; `k` follows its acceptance. -/
def launchNode (ctx i lblk : Nat) (risk : Bool) (k : Eff) : Eff :=
  walkerRead ctx i lblk 64 (fun blk => look fun s =>
    match acceptRun s ctx blk ⟨0, 0, 0, 0⟩ (some i) risk with
    | .ok r => (acceptE ctx blk (some r.kern.wins)).andThen (look fun s => whenE (s.dev.walking ctx) (addRun ctx r (fun _ => k)))
    | .refuse wins => (acceptE ctx blk wins).andThen (stepError ctx i 3)
    | .unreadable => (acceptE ctx blk none).andThen (stepError ctx i 5)
    | .wait => skip)

/-- RUN_NODE (R307). -/
def execRunNode (ctx node : Nat) (s : State) : Host.Outcome State Fault Refusal :=
  commit (atNode ctx node 0 (fun _ _ b => launchNode ctx node (field b 0x10 8) false (busy ctx node))) s

/-- COND_NODE (R307). -/
def execCondNode (ctx node : Nat) (s : State) : Host.Outcome State Fault Refusal :=
  commit (atNode ctx node 1 (fun _ _ b =>
    walkerRead ctx node (field b 0x10 8) 4 (fun w =>
      resolve ctx node .performed (fun i => i = min (leNat w) ((nodeHead b).nsucc - 1))))) s

/-- LOOP_NODE (R307, R309). While the body runs the node's action has not ended: only the edge to SUCC0 has gone out. -/
def execLoopNode (ctx node : Nat) (s : State) : Host.Outcome State Fault Refusal :=
  commit (atNode ctx node 2 (fun _ n b =>
    walkerRead ctx node (field b 0x10 8) 4 (fun w =>
      let lim := field b 0x1C 4
      let body : Bool := leNat w ≠ 0 ∧ (lim = 0 ∨ n.iters < lim)
      if body then
        (upd (modNode ctx node (fun n => { n with st := .performed, inBody := true, backs := 0 }))).andThen
          (edge ctx node (((nodeHead b).succ)[0]?.getD 0) true)
      else
        (upd (modNode ctx node (fun n => { n with inBody := false, backs := 0 }))).andThen
          (resolve ctx node .performed (fun i => i = 1))))) s

/-! ## WAITV (R102, R307) -/

/-- The comparison of a WAITV node, its value. -/
def waitvCmp (b : List Byte) : Nat × Nat := (2 * bits (field b 0x1C 1) 0 2, field b 0x18 4)

/-- WAITV_NODE: resolved if the word satisfies the comparison; else an entry in its home slice's table. -/
def execWaitvNode (ctx node : Nat) (s : State) : Host.Outcome State Fault Refusal :=
  commit (atNode ctx node 3 (fun _ _ b =>
    let a := field b 0x10 8
    let (cmp, v) := waitvCmp b
    walkerRead ctx node a 4 (fun w => look fun s =>
      if cmpHolds cmp (leNat w) v then resolve ctx node .performed (fun _ => true)
      else
        (busy ctx node).andThen
          (match s.vat ctx (s.dev.ctx ctx).eff.ptroot a .read with
            | .at_ l =>
              let h := s.dev.watchHome l
              if l.isHost ∨ 128 ≤ (s.dev.vault h).watch.length then skip
              else upd (fun d => d.modVault h (fun x =>
                { x with watch := x.watch ++ [⟨none, ctx, l, 4, cmp, BitVec.ofNat 64 v, node⟩] }))
            | _ => skip)))) s

/-- A busy node of a kind in a RUNNING context. -/
def atBusy (ctx i kind : Nat) (act : Node → List Byte → Eff) : Eff := look fun s =>
  let c := s.dev.ctx ctx
  withE c.step fun st =>
    if s.dev.stopped ∨ c.cstate ≠ .running ∨ (st.node i).st ≠ .busy then skip
    else
      match s.nodeBytes ctx st i with
      | none => stepError ctx i 5
      | some b => if (nodeHead b).kind = kind then act (st.node i) b else skip

/-- WAITV_RESOLVE: the slice's wake, or a reading that satisfies the comparison. -/
def execWaitvResolve (ctx node : Nat) (s : State) : Host.Outcome State Fault Refusal :=
  commit (atBusy ctx node 3 (fun n b =>
    let (cmp, v) := waitvCmp b
    let go : Eff := (upd (fun d => { d with vaults := d.vaults.map (fun x =>
        { x with watch := x.watch.filter (fun e => ¬(e.ref = none ∧ e.ctx = ctx ∧ e.req = node)) }) })).andThen
      (resolve ctx node .performed (fun _ => true))
    if n.woke then go
    else walkerRead ctx node (field b 0x10 8) 4 (fun w => if cmpHolds cmp (leNat w) v then go else skip))) s

/-! ## SIGNAL (R307, R359) -/

/-- The event of a SIGNAL node, once it can be held. -/
def signalEvent (ctx i : Nat) (b : List Byte) : Eff := look fun s =>
  let ev := field b 0x20 4
  let stepid := (((s.dev.ctx ctx).step).map (·.entry.stepid)).getD 0
  if ev = 0 then resolve ctx i .performed (fun _ => true)
  else if s.dev.canHold ctx then
    (ctxEvent ctx 2 stepid (BitVec.ofNat 64 ev) (BitVec.ofNat 64 (field b 0x18 8))).andThen
      (resolve ctx i .performed (fun _ => true))
  else skip

/-- SIGNAL_NODE: the word, then the event; the walker stays at the node until the event is held. -/
def execSignalNode (ctx node : Nat) (s : State) : Host.Outcome State Fault Refusal :=
  commit (look fun s =>
    if ((s.dev.ctx ctx).step.any (fun st => (st.node node).st = .busy)) then atBusy ctx node 4 (fun _ b => signalEvent ctx node b)
    else atNode ctx node 4 (fun _ _ b =>
      walkerWrite ctx node (field b 0x10 8) (leBytes 8 (field b 0x18 8)) ((busy ctx node).andThen (signalEvent ctx node b)))) s

/-! ## TEST (R311, R391, R392) -/

/-- The summary bank. -/
def testBank : Nat := 127

/-- The kinds that TKIND asks for: bit 0 logic, bit 1 memory. -/
def testKinds (tkind : Nat) : Nat := if tkind = 0 then 1 else if tkind = 1 then 2 else 3

/-- A slice writes back and drops its lines, and its watch entries with a wake to their threads (R97). A WAITV node
reads its word again. -/
def vaultFlush (v : Nat) : Eff := look fun s =>
  (forE (s.dev.vault v).lines (fun l => flushLine l.line)).andThen (upd (fun d =>
    (d.vault v).watch.foldl (fun d e => if e.ref.isSome then wake e (s.point e.loc e.n) d else d)
      (d.modVault v (fun x => { x with watch := [] }))))

/-- A stored fault in a cluster's register files, scratchpads, accumulator stores or core caches. -/
def inCluster (c : Nat) (m : Mark) : Bool :=
  match m.1 with
  | .borrowed q _ => clusterOf q = c
  | .freeReg q _ _ _ => clusterOf q = c
  | .freeAcc q _ => clusterOf q = c
  | .l1 q _ => clusterOf q = c
  | .icache q _ => clusterOf q = c
  | _ => false

/-- The class of a fault that a self-test reads: of a register or slot that no allocation holds, beyond correction,
information (R377). -/
def testClass (m : Mark) : Nat :=
  match m.1 with
  | .freeReg _ _ _ _ => if m.2 then 0 else 1
  | .freeAcc _ _ => if m.2 then 0 else 1
  | _ => 1

/-- Memory BIST of a cluster: the cache slice is written back and emptied, the faults of the stores are met, and what the
stores of its cores hold is lost: no flock has an allocation there, so that is the caches' lines and the victim TLB's
entries (R95, R391). -/
def memoryBist (c : Nat) : Eff := look fun s =>
  let ms := s.dev.marks.filter (inCluster c)
  seqE [
    vaultFlush c,
    forE ms (fun m =>
      let (bank, code, inst, addr) := markBank m.1
      eccRecord bank (testClass m) none code inst addr),
    upd (fun d =>
      { unmark ms d with
        cores := d.cores.mapIdx (fun i x => if clusterOf i = c then { x with l1 := [], icache := [] } else x),
        tlbs := d.tlbs.filter (fun t => match t.place with
          | .victim q _ => clusterOf q ≠ c
          | _ => true) }) ]

/-- A self-test of a cluster begins. -/
def testStart (c kinds : Nat) (asked : Bool) : Eff :=
  (whenE (kinds.testBit 1) (memoryBist c)).andThen
    (upd (fun d => d.modCluster c (fun x => { x with test := some (kinds, asked), testAt := d.ctime })))

/-- The control plane holds a cluster empty for a test: no flock is on it, no test runs on it, and it has power (R22). -/
def Dev.emptyFor (d : Dev) (q : Nat) : Bool :=
  (d.cluster q).test.isNone && d.flocks.all (fun f => clusterOf f.core ≠ q) && (d.die (q / 16)).powered

/-- Self-test control begins the test that a request asks of a cluster, once the cluster is empty (R22, R392). -/
def testServe (q : Nat) : Eff := look fun s =>
  withE (s.dev.mgmt.tests.find? (fun x => x.mask.testBit q)) fun x =>
    whenE (s.dev.emptyFor q && !s.dev.stopped) (testStart q x.kinds true)

/-- The pending bit of the test requests whose clusters have all ended is cleared, whatever has become of their contexts
(R392). -/
def testAnswer : Eff := look fun s =>
  (forE (s.dev.mgmt.tests.filter (fun x => x.mask = 0)) (fun x => look fun s =>
      physWrite x.at_ (leBytes 4 (leNat (s.phys x.at_ 4) % 2 ^ 31)))).andThen
    (upd (fun d => { d with mgmt := { d.mgmt with tests := d.mgmt.tests.filter (fun x => x.mask ≠ 0) } }))

/-- The test request of a node is written once no flock of the context is in the clusters of CMASK; self-test control
clears their ENDED and FAILED bits and begins. -/
def testRequest (ctx i : Nat) (b : List Byte) : Eff := look fun s =>
  let mask := field b 0x10 8
  let kind := field b 0x18 1
  let csave := (s.dev.ctx ctx).eff.csave.toNat
  let named := (List.range 64).filter (fun q => mask.testBit q)
  if s.dev.flocks.any (fun f => f.ctx = ctx && mask.testBit (clusterOf f.core)) then skip
  else
    seqE [
      physWrite (csave + 0x10) (leBytes 8 mask),
      physWrite (csave + 0x18) (leBytes 4 (kind + 2 ^ 31)),
      upd (fun d => modNode ctx i (fun n => { n with woke := true })
        { d with
          banks := d.banks.modify testBank (fun x =>
            { x with status := BitVec.ofNat 64 (mkStatus testBank 0 none 0x62 0 0 false), time := BitVec.ofNat 64 d.ctime,
                     addr := x.addr &&& ~~~(BitVec.ofNat 64 mask), synd := x.synd &&& ~~~(BitVec.ofNat 64 mask) }),
          mgmt := { d.mgmt with tests := d.mgmt.tests ++ [⟨csave + 0x18, mask, testKinds kind⟩] } }),
      forE named testServe,
      testAnswer ]

/-- TEST_NODE (R311). -/
def execTestNode (ctx node : Nat) (s : State) : Host.Outcome State Fault Refusal :=
  commit (look fun s =>
    if ((s.dev.ctx ctx).step.any (fun st => (st.node node).st = .busy)) then
      atBusy ctx node 5 (fun n b =>
        if n.woke then forE ((List.range 64).filter (fun q => n.mask.testBit q)) testServe else testRequest ctx node b)
    else atNode ctx node 5 (fun _ _ b =>
      (upd (modNode ctx node (fun n => { n with st := .busy, mask := field b 0x10 8, woke := false }))).andThen
        (testRequest ctx node b))) s

/-- TEST_RESOLVE: every bit of CMASK is set in ENDED. -/
def execTestResolve (ctx node : Nat) (s : State) : Host.Outcome State Fault Refusal :=
  commit (atBusy ctx node 5 (fun n _ => look fun s =>
    if n.woke ∧ (s.dev.bank testBank).addr.toNat &&& n.mask = n.mask then resolve ctx node .performed (fun _ => true)
    else skip)) s

/-! ## END (R312, R343) -/

/-- END_NODE: performed whatever its edges carried. -/
def execEndNode (ctx node : Nat) (s : State) : Host.Outcome State Fault Refusal :=
  commit (atNode ctx node 6 (fun _ _ _ => (busy ctx node).andThen (upd (fun d => d.modCtx ctx (fun c =>
    { c with step := c.step.map (fun st => { st with ending := true }) }))))) s

/-- The measurements of a step (R343): per node and die, flocks completed there, the run's flocks, the CYCLE span. -/
def Ctx.measured (c : Ctx) (stepid : W32) : Hist :=
  ⟨stepid, c.runs.foldl (fun l r =>
    match r.node with
    | none => l
    | some i =>
      r.meas.foldl (fun l m => kset l (i, m.1) (m.2.2.2, r.count, m.2.2.1 - m.2.1)) l) []⟩

/-- The history holds the 8 latest steps. -/
def Ctx.remember (c : Ctx) (h : Hist) : Ctx := { c with hist := (h :: c.hist.filter (fun x => x.stepid ≠ h.stepid)).take 8 }

/-- STEP_COMPLETE: every run has completed; the completion signal, the event, SQHEAD. A WAITV node that still waits gives
up its watch entry. -/
def stepComplete (ctx : Nat) : Eff := look fun s =>
  let c := s.dev.ctx ctx
  withE c.step fun st =>
    let idx := ((st.list.find? (fun n => n.st = .busy)).map (·.idx)).getD headerIdx
    if s.dev.stopped || !st.ending || c.runs.any (fun r => !r.complete) || decide (c.cstate ≠ .running) then skip
    else
      let sign : Eff := upd (fun d => d.modCtx ctx (fun c => { c with step := c.step.map (fun st => { st with signalled := true }) }))
      let finish : Eff := look fun s =>
        let ev : Bool := bit st.entry.sflags.toNat 0
        if !s.dev.walking ctx || (ev && !s.dev.canHold ctx) then skip
        else
          (whenE ev (ctxEvent ctx 1 st.entry.stepid st.done 0)).andThen (upd (fun d => (dropWaits ctx (fun _ => true) d).modCtx ctx (fun c =>
            { (c.remember (c.measured st.entry.stepid)) with
              step := none, runs := [], entries := c.entries.tail, sqhead := (c.sqhead + 1) % 2 ^ c.regs.sqlog.toNat })))
      (if st.signalled then skip
        else if st.done = 0 then sign
        else walkerWrite ctx idx st.done.toNat (leBytes 8 st.entry.stepid.toNat) sign).andThen finish

/-- STEP_COMPLETE (R312). -/
def execStepComplete (ctx : Nat) (s : State) : Host.Outcome State Fault Refusal := commit (stepComplete ctx) s

end Sys2Proof.Machine
end

