-- ==== Sys2Proof/Machine/Admit.lean ====
section
/-! DEFINITION. The admission unit: replenishment, server commands, route admissions, bounds (R319, R321-R325, R327, R331,
R362, R419). -/

namespace Sys2Proof.Machine

/-! ## Replenishment (R319) -/

/-- A context has work at an instance (R319). -/
def State.hasWork (s : State) (kind inst ctx : Nat) : Bool :=
  match kind with
  | 0 => (s.dev.pgThreads (inst / 4) (inst % 4)).any (fun x => x.2.1.ctx = ctx && decide ((candOf s x).part ≠ .no))
  | 1 => (s.dev.core inst).mat.any (fun o => o.ctx = ctx)
  | 2 => decide (ctx ∈ copyWork (s.dev.core inst))
  | 3 => decide ((s.dev.stk inst).asking ctx ≠ [])
  | _ => s.dev.reqs.any (fun q => q.ctx = ctx && s.dev.maySend q && decide (s.dev.port (s.rankEnt q.ctx q.loc.rank.1).dev = inst)) ||
    (s.dev.queued inst).any (fun x => x.1 = ctx)

/-- Changes the server in a slot. -/
def Dev.modServer (d : Dev) (kind inst slot : Nat) (g : Server → Server) : Dev :=
  { d with servers := d.servers.map (fun v => if v.kind = kind ∧ v.inst = inst ∧ v.slot = slot then g v else v) }

/-- SERVER_REPLENISH (R319). -/
def execServerReplenish (kind inst slot : Nat) (s : State) : Host.Outcome State Fault Refusal :=
  commit (look fun s =>
    upd (fun d => d.modServer kind inst slot (fun v => v.replenish d.srvTime (s.hasWork kind inst v.ctx)))) s

/-! ## Server commands (R321-R323, R331, R419) -/

/-- A context may hold a server at an instance: a core of its virtual device's clusters, or a shared stack or port. -/
def Dev.mayServe (d : Dev) (ctx kind inst : Nat) : Bool :=
  match kind with
  | 0 => decide (clusterOf (inst / 4) ∈ d.clustersOf (d.ctx ctx).vdevNow)
  | 1 => decide (clusterOf inst ∈ d.clustersOf (d.ctx ctx).vdevNow)
  | 2 => decide (clusterOf inst ∈ d.clustersOf (d.ctx ctx).vdevNow)
  | _ => true

/-- Fields of a staged SRVCTL. -/
def SrvRegs.ctx (v : SrvRegs) : Nat := bits v.ctl.toNat 18 6
def SrvRegs.cls (v : SrvRegs) : Nat := bits v.ctl.toNat 16 2
def SrvRegs.group (v : SrvRegs) : Nat := bits v.ctl.toNat 12 4
def SrvRegs.hard (v : SrvRegs) : Bool := bit v.ctl.toNat 4
def SrvRegs.cmd (v : SrvRegs) : Nat := bits v.ctl.toNat 2 2

/-- The command of a thread is taken: its STATUS, and the thread goes on. -/
def srvAnswer (r : TRef) (status : Nat) : Dev → Dev := fun d =>
  d.modThread r (fun th =>
    { th with srv := { th.srv with status := kset th.srv.status th.srv.sel.toNat status, ctl := th.srv.ctl &&& 0xFFFFFFF3 }, wait := .none, waited := 0 })

/-- A thread's pending command. -/
def srvCmd (r : TRef) (cmd : Nat) (k : SrvRegs → Nat → Nat → Nat → Dev → Dev) : Eff := look fun s =>
  withE (s.dev.thread? r) fun th =>
    let v := th.srv
    let kind := selKind v.sel
    let inst := selInst v.sel
    if th.wait ≠ .unit ∨ v.cmd ≠ cmd then skip
    else if 4 < kind ∨ kindRange kind ≤ inst then upd (srvAnswer r 3)
    else upd (k v kind inst (selSlot v.sel))

/-- CMD 1. -/
def srvAdmit (r : TRef) : Eff := srvCmd r 1 (fun v kind inst slot d =>
  let q := v.q.toNat
  let t := v.t.toNat
  if !rateOk q t || (d.slot? kind inst slot).isSome || (d.server? kind inst v.ctx).isSome || !d.mayServe v.ctx kind inst then
    srvAnswer r 3 d
  else if d.bound kind inst < d.load kind inst + loadTerm q t then srvAnswer r 2 d
  else
    srvAnswer r 1 { d with servers := d.servers ++ [newServer kind inst slot v.ctx q t v.hard v.group v.cls] })

/-- SRV_ADMIT (R322). -/
def execSrvAdmit (r : TRef) (s : State) : Host.Outcome State Fault Refusal := commit (srvAdmit r) s

/-- CMD 2. -/
def srvRelease (r : TRef) : Eff := srvCmd r 2 (fun _ kind inst slot d =>
  match d.slot? kind inst slot with
  | none => srvAnswer r 3 d
  | some x => srvAnswer r 0 { d with servers := d.servers.filter (· ≠ x) })

/-- SRV_RELEASE (R322). -/
def execSrvRelease (r : TRef) (s : State) : Host.Outcome State Fault Refusal := commit (srvRelease r) s

/-- CMD 3: c is capped at the new Q. -/
def srvUpdate (r : TRef) : Eff := srvCmd r 3 (fun v kind inst slot d =>
  let q := v.q.toNat
  let t := v.t.toNat
  match d.slot? kind inst slot with
  | none => srvAnswer r 3 d
  | some x =>
    if !rateOk q t then srvAnswer r 3 d
    else if d.bound kind inst < d.load kind inst - loadTerm x.q x.t + loadTerm q t then srvAnswer r 2 d
    else
      srvAnswer r 1 (d.modServer kind inst slot (fun x =>
        { x with q := q, t := t, hard := v.hard, group := v.group, cls := v.cls, c := min x.c (q * srvUnit) })))

/-- SRV_UPDATE (R322). -/
def execSrvUpdate (r : TRef) (s : State) : Host.Outcome State Fault Refusal := commit (srvUpdate r) s

/-! ## Route admission (R325, R362, R419) -/

/-- The unit tests a hop and holds it tentatively: a rank beyond RANKCNT refuses, as does a route over a port that is down; a hop
of this device is held or refuses; another device has still to answer. -/
def routeTake (s : State) (ctx : Nat) (x : Dev × List RouteHop) (h : Hop) : Dev × List RouteHop :=
  let d := x.1
  let e := s.rankEnt ctx h.rank
  let own (ans : Option Bool) (slot : Nat) : RouteHop := ⟨h, d.fab.devno, e.tctx, ans, slot⟩
  if (s.dev.ctx ctx).eff.rankcnt.toNat ≤ h.rank then (d, x.2 ++ [own (some false) 0])
  else if e.dev = d.fab.devno then
    match d.openSlot 4 h.port, d.takeHop ctx h with
    | some slot, some d' => (d', x.2 ++ [own (some true) slot])
    | _, _ => (d, x.2 ++ [own (some false) 0])
  else (d, x.2 ++ [⟨h, e.dev, e.tctx, if d.port e.dev ∈ d.fab.down then some false else none, 0⟩])

/-- Hops that other devices serve, unless they have refused. -/
def Dev.farHops (d : Dev) (l : List RouteHop) : List RouteHop :=
  l.filter (fun x => decide (x.dev ≠ d.fab.devno ∧ x.ans ≠ some false))

/-- Route-admission flits to other devices of a route (R325, log 56). -/
def hopSend (ctx op : Nat) (l : List RouteHop) : Dev → Dev := fun d =>
  l.foldl (fun d x => queueFlit ctx (hopMsg d op ctx x) d) d

/-- The route's outcome: every hop is reserved, or ROUTESTAT 3 with the first hop that has not granted, what this device and the
others hold being released, so that no hop stays reserved alone. -/
def routeReserve (ctx : Nat) : Dev → Dev := fun d =>
  (hopSend ctx hopKeep (d.farHops (d.ctx ctx).route) d).modCtx ctx (fun c =>
    { c with routestat := 2, routeblk := none, route := [] })
def routeRefuse (ctx hop : Nat) : Dev → Dev := fun d =>
  let l := (d.ctx ctx).route
  let mine (v : Server) : Bool := l.any (fun x => decide (x.dev = d.fab.devno ∧ x.ans = some true ∧ v.kind = 4 ∧
    v.inst = x.hop.port ∧ v.slot = x.slot ∧ v.ctx = ctx))
  (hopSend ctx hopRelease (d.farHops l) { d with servers := d.servers.filter (fun v => !mine v) }).modCtx ctx (fun c =>
    { c with routestat := BitVec.ofNat 32 (3 + hop * 2 ^ 16), routeblk := none, route := [] })

/-- The first hop in record order that has not granted (R419). -/
def firstNot (l : List RouteHop) : Option Nat := l.findIdx? (fun x => decide (x.ans ≠ some true))

/-- A route admission goes on as far as its answers reach. -/
def routeSettle (ctx : Nat) : Dev → Dev := fun d =>
  let l := (d.ctx ctx).route
  match firstNot l with
  | none => routeReserve ctx d
  | some i => if (l[i]?.bind (·.ans)) = some false then routeRefuse ctx i d else d

/-- Answers of hops, in record order, where they were awaited. -/
def routeHear (ctx : Nat) (hops : List Bool) : Dev → Dev := fun d =>
  d.modCtx ctx (fun c => { c with route := c.route.mapIdx (fun i x => if x.ans = none then { x with ans := hops[i]? } else x) })

/-- The hops of a route block are taken, and other devices asked. -/
def routeBegin (ctx : Nat) (hs : List Hop) : Eff := look fun s =>
  let (d, l) := hs.foldl (routeTake s ctx) (s.dev, [])
  upd (fun _ => hopSend ctx hopAsk (d.farHops l) (d.modCtx ctx (fun c => { c with route := l })))

/-- ROUTEADM: the route block is read, every hop tested and held tentatively; all hops are then reserved, or none. `hops` are
answers of other devices' hops, in record order. -/
def routeadm (ctx : Nat) (hops : List Bool) : Eff := look fun s =>
  let c := s.dev.ctx ctx
  let go : Eff := upd (fun d => routeSettle ctx (routeHear ctx hops d))
  withE c.routeblk fun a =>
    if c.routestat ≠ 1 ∨ 64 ≤ ctx then skip
    else if c.route ≠ [] then go
    else
      let bad : Nat → Bool → Eff := fun _ _ => upd (routeRefuse ctx 0)
      withRead ctx c.eff.ptroot a.toNat 8 bad (fun b =>
        let n := field b 0 4
        if n = 0 ∨ 16 < n then upd (routeRefuse ctx 0)
        else
          withRead ctx c.eff.ptroot (a.toNat + 8) (16 * n) bad (fun b => look fun s =>
            let hs := (List.range n).map (fun i => hopOf ((b.drop (16 * i)).take 16))
            let ranks := (hs.map (·.rank)).filter (fun r => decide (r < c.eff.rankcnt.toNat))
            (forE ranks (fun r => tableRead ctx (s.dev.rankAt ctx r) 16)).andThen
              (if ranks.any (fun r => s.dev.tableBad (s.dev.rankAt ctx r) 16) then skip
              else (routeBegin ctx hs).andThen go)))

/-- ROUTEADM (R325). -/
def execRouteadm (ctx : Nat) (hops : List Bool) (s : State) : Host.Outcome State Fault Refusal := commit (routeadm ctx hops) s

/-- ROUTE_ADMIT_TIMEOUT (R419): 100 µs after the request, `hop` is the first hop that has not granted. -/
def execRouteAdmitTimeout (ctx hop : Nat) (s : State) : Host.Outcome State Fault Refusal :=
  commit (look fun s =>
    let c := s.dev.ctx ctx
    if c.routestat ≠ 1 ∨ hop ≠ (firstNot c.route).getD 0 ∨ s.dev.ctime < c.routeAt + 400000 then skip
    else upd (routeRefuse ctx hop)) s

/-! ## Bounds (R22, R327) -/

/-- A context begins to drain; an urgent pre-emption of one that drains already makes its drain urgent (R327).
With `force` a context that is being restored drains again. -/
def beginDrain (k : Nat) (urgent force : Bool) : Eff := look fun s =>
  match (s.dev.ctx k).cstate with
  | .running =>
    (upd (fun d => d.modCtx k (fun c =>
      { c with urgent := urgent, drainAt := d.ctime, naborted := 0, nsaved := c.saved.length, owed := [] }))).andThen (setCState k .draining)
  | .restoring => whenE force ((upd (fun d => d.modCtx k (fun c =>
      { c with urgent := urgent, drainAt := d.ctime, naborted := 0, nsaved := c.saved.length, owed := [] }))).andThen
        (setCState k .draining))
  | .draining => whenE urgent (upd (fun d => d.modCtx k (fun c => { c with urgent := true })))
  | _ => skip

/-- Contexts that an issue-port-group instance serves: those with threads in the port group or a server there. -/
def Dev.servedAt (d : Dev) (inst : Nat) : List Nat :=
  (List.range 64).filter (fun k => (d.server? 0 inst k).isSome || d.flocks.any (fun f => f.ctx = k && f.ports.contains inst))

/-- In decreasing PRIO; ties go to the lower context number. -/
def Dev.byPrio (d : Dev) (ks : List Nat) : List Nat :=
  ((List.range 16).reverse).flatMap (fun p => ks.filter (fun k => bits (d.ctx k).eff.prio.toNat 0 4 = p))

/-- Management writes a bound; 0 at an issue-port-group instance pre-empts the contexts served there. -/
def boundWrite (kind inst val : Nat) : Eff := look fun s =>
  if 4 < kind ∨ kindRange kind ≤ inst then skip
  else
    (upd (fun d => { d with admbounds := kset d.admbounds (kind, inst) (val % 2 ^ 32) })).andThen
      (whenE (decide (kind = 0 ∧ val % 2 ^ 32 = 0))
        (forE (s.dev.byPrio (s.dev.servedAt inst)) (fun k => beginDrain k true true)))

/-- ADMBOUND_WRITE (R22, R327). -/
def execAdmboundWrite (kind inst val : Nat) (s : State) : Host.Outcome State Fault Refusal :=
  commit (boundWrite kind inst val) s

end Sys2Proof.Machine
end

