-- ==== Sys2Proof/Machine/Context.lean ====
section
/-! DEFINITION. Context commands, the drain, saving and restoring, replay (R51, R102, R123, R327-R330, R356, R388, R407,
R410, R418). -/

namespace Sys2Proof.Machine

/-! ## PREEMPT, SAVE, RESUME, SKIP (R327, R356, R388) -/

/-- PREEMPT acts in RUNNING. -/
def cmdPreempt (k : Nat) : Eff := look fun s => whenE (decide ((s.dev.ctx k).cstate = .running)) (beginDrain k false false)
/-- SAVE acts in RUNNING and DRAINING. -/
def cmdSave (k : Nat) : Eff := beginDrain k true false

/-- RESUME: a STOPPED context is restored; an ERRSTOP one walks the step at SQHEAD again. -/
def cmdResume (k : Nat) : Eff := look fun s =>
  if s.dev.stopped then skip
  else
    match (s.dev.ctx k).cstate with
    | .stopped => setCState k .restoring
    | .errstop => setCState k .running
    | _ => skip

/-- SKIP: SQHEAD advances by one in ERRSTOP. -/
def cmdSkip (k : Nat) : Eff := look fun s =>
  if (s.dev.ctx k).cstate ≠ .errstop then skip
  else upd (fun d => d.modCtx k (fun c =>
    { c with sqhead := (c.sqhead + 1) % 2 ^ c.regs.sqlog.toNat, entries := c.entries.tail }))

/-! ## REPLAY (R407, R410) -/

/-- A thread parked for a page fault issues its instruction again. -/
def Thread.replayed (th : Thread) (fid : Nat) : Thread := if th.wait = .fault fid then { th with wait := .none, waited := 0 } else th
def Flock.replayed (f : Flock) (fid : Nat) : Flock :=
  { f with threads := f.threads.map (·.replayed fid), inst := f.inst.map (·.replayed fid) }
/-- A copy's units held for a fault are due again. -/
def CopyOp.replayed (o : CopyOp) (fid : Nat) : CopyOp := { o with held := o.held.filter (fun h => h.2 ≠ fid) }

/-- A fault's record ends, and all that hold its FID go on. -/
def replayNow (k fid : Nat) : Dev → Dev := fun d =>
  if (d.ctx k).faults.any (fun r => r.fid = fid) = false then d
  else
    { (d.modCtx k (fun c =>
        { c with
          faults := c.faults.filter (fun r => r.fid ≠ fid),
          runs := c.runs.map (fun r => { r with blocked := r.blocked.filter (fun b => b.2 ≠ fid) }),
          saved := c.saved.map (fun x =>
            { x with flock := x.flock.replayed fid, copies := x.copies.map (·.replayed fid) }) })) with
      flocks := d.flocks.map (fun f => if f.ctx = k then f.replayed fid else f),
      cores := d.cores.map (fun c =>
        { c with cpy := c.cpy.map (fun o => if o.ctx = k then o.replayed fid else o) }) }

/-- REPLAY: applied at once, or at the restore of a STOPPED context. -/
def cmdReplay (k fid : Nat) : Eff := upd (fun d =>
  if fid = 0 then d
  else if (d.ctx k).cstate = .stopped then d.modCtx k (fun c => { c with replays := c.replays ++ [fid] })
  else replayNow k fid d)

/-! ## INVTLB, FLUSHIC (R356) -/

/-- The value of a context command that posts an event at its end. -/
def cmdEnds (k code : Nat) : Dev → Dev := fun d => d.modCtx k (fun c => { c with cmds := c.cmds ++ [BitVec.ofNat 32 code] })

/-- INVTLB. -/
def cmdInvtlb (k : Nat) : Eff := upd (fun d => cmdEnds k 6 (tlbDrop k d))

/-- FLUSHIC: the cores of the context's virtual device. -/
def cmdFlushic (k : Nat) : Eff := upd (fun d =>
  let cl := d.clustersOf (d.ctx k).vdevNow
  cmdEnds k 7 { d with cores := d.cores.mapIdx (fun i c => if clusterOf i ∈ cl then { c with icache := [] } else c) })

/-- A write of CTXCMD: a code in bits 7:0 and an argument in bits 31:8, zero for every command but REPLAY. -/
def ctxCmd (f : Fn) (k val : Nat) : Eff := look fun s =>
  let code := bits val 0 8
  let arg := bits val 8 24
  if s.dev.mayAct f k = false ∨ (code ≠ 5 ∧ arg ≠ 0) then skip
  else
    match code with
    | 1 => cmdPreempt k
    | 2 => cmdSave k
    | 3 => cmdResume k
    | 4 => cmdSkip k
    | 5 => cmdReplay k arg
    | 6 => cmdInvtlb k
    | 7 => cmdFlushic k
    | _ => skip

/-- PREEMPT (R327, R356). -/
def execPreempt (f : Fn) (ctx : Nat) (s : State) : Host.Outcome State Fault Refusal := commit (ctxCmd f ctx 1) s
/-- SAVE (R327, R356). -/
def execSave (f : Fn) (ctx : Nat) (s : State) : Host.Outcome State Fault Refusal := commit (ctxCmd f ctx 2) s
/-- RESUME (R327, R356, R388). -/
def execResume (f : Fn) (ctx : Nat) (s : State) : Host.Outcome State Fault Refusal := commit (ctxCmd f ctx 3) s
/-- SKIP (R356, R388). -/
def execSkip (f : Fn) (ctx : Nat) (s : State) : Host.Outcome State Fault Refusal := commit (ctxCmd f ctx 4) s
/-- REPLAY (R356, R410). -/
def execReplay (f : Fn) (ctx fid : Nat) (s : State) : Host.Outcome State Fault Refusal :=
  commit (ctxCmd f ctx (5 + 2 ^ 8 * (fid % 2 ^ 24))) s
/-- INVTLB (R356). -/
def execInvtlb (f : Fn) (ctx : Nat) (s : State) : Host.Outcome State Fault Refusal := commit (ctxCmd f ctx 6) s
/-- FLUSHIC (R356). -/
def execFlushic (f : Fn) (ctx : Nat) (s : State) : Host.Outcome State Fault Refusal := commit (ctxCmd f ctx 7) s

/-- CTXCMD_DONE (R356): every unit has finished, and event 13 reports the command. -/
def execCtxcmdDone (ctx : Nat) (s : State) : Host.Outcome State Fault Refusal :=
  commit (look fun s =>
    match (s.dev.ctx ctx).cmds with
    | [] => skip
    | c :: cs =>
      (upd (fun d => d.modCtx ctx (fun x => { x with cmds := cs }))).andThen
        (ctxEvent ctx 13 (((s.dev.ctx ctx).step.map (·.entry.stepid)).getD 0) (c.setWidth 64) 0)) s

/-! ## The drain limit (R328) -/

/-- Resident flocks of a context. -/
def Dev.resident (d : Dev) (k : Nat) : List Flock := d.flocks.filter (fun f => f.ctx = k && !f.dead)

/-- A flock with a thread parked, or a copy held, for a page fault. -/
def Dev.parked (d : Dev) (f : Flock) : Bool :=
  (f.threads ++ f.inst.toList).any (fun th => match th.wait with
    | .fault _ => true
    | _ => false) ||
    (d.core f.core).cpy.any (fun o => o.ref.slot = f.slot && decide (o.ref.core = f.core) && !o.held.isEmpty)

/-- DRAIN_LIMIT: uncommitted flocks are aborted; what remains runs on, or is saved. -/
def drainLimit (k : Nat) : Eff := look fun s =>
  if (s.dev.ctx k).cstate ≠ .draining ∨ s.dev.ctime < s.dev.drainEnd k then skip
  else
    let old := (s.dev.resident k).filter (fun f => !f.committed)
    seqE [
      forE old (fun f => look fun s => withE (s.dev.flock? f.core f.slot) (fun g => if g.dead then skip else abortFlock g none)),
      look fun s =>
        let left := s.dev.resident k
        if left ≠ [] ∧ ((s.dev.ctx k).urgent ∨ left.any s.dev.parked) then setCState k .saving else skip ]

/-- DRAIN_LIMIT (R328). -/
def execDrainLimit (ctx : Nat) (s : State) : Host.Outcome State Fault Refusal := commit (drainLimit ctx) s

/-! ## Saving (R102, R123, R329, R330) -/

/-- A request of a parked watch: it holds no save back. -/
def Req.isWatch (q : Req) : Bool := match q.kind with
  | .watch _ => true
  | _ => false

/-- Every operation that a flock's counters count is complete, but copies held for page faults; no thread of it waits for
a unit, none has been chosen to issue, and what its threads have read early has reached the slices. -/
def Dev.savable (d : Dev) (f : Flock) : Bool :=
  let mine (r : TRef) : Bool := r.core = f.core ∧ r.slot = f.slot
  let c := d.core f.core
  let ops := c.cpy.filter (fun o => mine o.ref)
  let rest (th : Thread) : Bool := match th.wait with
    | .wave => false
    | .unit => false
    | .launch _ _ => false
    | _ => true
  !f.dead && f.tile.isNone && d.reqs.all (fun q => !mine q.ref || q.isWatch) && c.mat.all (fun o => !mine o.ref) &&
    ops.all (fun o => (copyBlk o.blk).units ≤ o.done.length + o.held.length && !o.held.isEmpty) &&
    d.fab.colls.all (fun x => !mine x.ref) && (f.threads ++ f.inst.toList).all (fun th => rest th && th.seen.all d.reached) &&
    d.issuing.all (fun g => g.members.all (fun r => !mine r))

/-- A thread as saved: a watch ends (R102), a reconvergence hold too. -/
def Thread.saved (th : Thread) : Thread :=
  { th with
    wait := (match th.wait with
      | .watch => .none
      | .held _ => .none
      | w => w),
    after := [], afterW := [], seen := [] }

/-- A thread that stands at the first instruction of a block whose LIVEHI is `h`: the core may omit the registers above
(R123); their values are free. A LIVEHI of 2047, at or above N − 1, omits none (log 59). -/
def Thread.omit (th : Thread) (n h seed : Nat) : Thread :=
  { th with regs := (List.range (n - (h + 1))).foldl (fun l i => aset l (h + 1 + i) (Config.undefReg seed (h + 1 + i))) th.regs }

/-- LIVEHI of the block at whose first instruction a thread stands. -/
def liveAt (s : State) (f : Flock) (th : Thread) : Option Nat :=
  if th.enter ≠ none ∨ th.blkEnd = 0 then none
  else
    match fetchAt s f (th.pc - 8).toNat with
    | .word w _ => match rdHeader w with
      | some h => if th.pc - 8 + BitVec.ofNat 64 (8 * h.len) = th.blkEnd then some h.livehi else none
      | none => none
    | _ => none

/-- The threads of a flock as restored, by the device's free choice with or without the registers above LIVEHI. -/
def savedThreads (s : State) (f : Flock) : List Thread :=
  f.threads.zipIdx.map (fun (th, i) =>
    let t := th.saved
    match liveAt s f th with
    | some h => if Config.choice (s.dev.free + 2 * i) then t.omit f.kern.n h (s.dev.free + 2 * i + 1) else t
    | none => t)

/-- Marks on what a flock's save reads (R377). -/
def flockMarks (d : Dev) (f : Flock) : List Mark :=
  d.marks.filter (fun m => match m.1 with
    | .spad c l _ => c = f.core ∧ l = f.slot
    | .acc c l _ => c = f.core ∧ l = f.slot
    | .reg c l _ _ => c = f.core ∧ l = f.slot
    | _ => false)

/-- Registers that a flock's allocation holds for each thread (R36, R290). -/
def Flock.regWords (f : Flock) : Nat := ceilDiv f.kern.n 8 * 8 * (if f.tile.isSome then 2 else 1)

/-- Bytes that a saved flock takes in the save area: its registers, its allocations, and 256 bytes for the rest of each
thread's state (R329; the layout is the device's own, log 21). -/
def Flock.imageBytes (f : Flock) : Nat :=
  f.threads.length * (4 * f.regWords + 256) + f.kern.spadBytes + 4 * f.kern.accSlots

/-- The bytes that stand for a saved flock: free values. -/
def SavedFlock.image (x : SavedFlock) : List Byte := (List.range x.imageLen).map (Config.undefByte x.imageSeed)

/-- The lowest place for `n` bytes in a save area, beside the flocks saved there, or 0 where there is none. -/
def Ctx.imageSlot (c : Ctx) (n : Nat) : Nat :=
  let base := c.eff.csave.toNat
  let fits (a : Nat) : Bool := decide (a + n ≤ base + c.eff.csavesz.toNat) &&
    c.saved.all (fun x : SavedFlock => decide (x.imageAt = 0 ∨ a + n ≤ x.imageAt ∨ x.imageAt + x.imageLen ≤ a))
  (((base + 64) :: c.saved.map (fun x : SavedFlock => x.imageAt + x.imageLen)).filter fits).min?.getD 0

/-- Saves one flock: its image goes to the save area, and its data aside (log 21). -/
def saveOne (f : Flock) : Eff := look fun s =>
  let mine (r : TRef) : Bool := r.core = f.core ∧ r.slot = f.slot
  let c := s.dev.core f.core
  let metas := (c.metaq.zipIdx.filter (fun x => x.1.bound = some (f.core, f.slot))).map (fun x => (x.2, x.1.items))
  let x : SavedFlock :=
    { key := s.dev.nextId, flock := { f with threads := savedThreads s f, inst := f.inst.map Thread.saved },
      copies := c.cpy.filter (fun o => mine o.ref), metas := metas,
      imageAt := (s.dev.ctx f.ctx).imageSlot f.imageBytes, imageLen := f.imageBytes,
      imageSeed := s.dev.free + 2 * f.threads.length }
  let moves : List Write := [.move (.spad f.core f.slot) (.kept s.dev.nextId false), .move (.acc f.core f.slot) (.kept s.dev.nextId true)]
  let marks := flockMarks s.dev f
  match marks.find? (·.2) with
  | some m =>
    let (bank, code, inst, addr) := markBank m.1
    eccStop (some f.ctx) bank code inst addr
  | none =>
    seqE [
      forE marks (fun m =>
        let (bank, code, inst, addr) := markBank m.1
        eccRecord bank 1 (some f.ctx) code inst addr),
      upd (unmark marks),
      wr moves,
      discard (fun g => g.core = f.core ∧ g.slot = f.slot),
      upd (fun d => { (d.modCtx f.ctx (fun c => { c with saved := c.saved ++ [x], nsaved := c.nsaved + 1 })) with
        free := d.free + 2 * f.threads.length + 1, nextId := d.nextId + 1 }),
      whenE (decide (x.imageAt ≠ 0)) (physWrite x.imageAt x.image),
      physWrite ((s.dev.ctx f.ctx).eff.csave.toNat + 0x1C) (leBytes 4 ((s.dev.ctx f.ctx).nsaved + 1)) ]

/-- The flocks that are saved with a flock: its herd. -/
def Dev.saveSet (d : Dev) (f : Flock) : List Flock := d.herdOf f

/-- Whether a SAVING context has a herd that can be saved now. -/
def Dev.canSave (d : Dev) (k : Nat) : Bool :=
  (d.ctx k).cstate = .saving && (d.resident k).any (fun f => (d.saveSet f).all d.savable)

/-- FLOCK_SAVE: the flock's herd is saved whole; contexts of higher PRIO go first. Forwarded lines are written back (R99, log
46). -/
def flockSave (core slot : Nat) : Eff := look fun s =>
  withE (s.dev.flock? core slot) fun f =>
    let hs := s.dev.saveSet f
    let first := ((s.dev.byPrio (List.range 64)).filter s.dev.canSave).head?
    if f.dead ∨ (s.dev.ctx f.ctx).cstate ≠ .saving ∨ hs.all s.dev.savable = false ∨ s.dev.stopped ∨
        first.any (fun k => bits (s.dev.ctx k).eff.prio.toNat 0 4 ≠ bits (s.dev.ctx f.ctx).eff.prio.toNat 0 4) then skip
    else
      (forE hs (fun g => look fun s => whenE (decide ((s.dev.ctx f.ctx).cstate = .saving)) (saveOne g))).andThen fwdFlush

/-- FLOCK_SAVE (R329). -/
def execFlockSave (core slot : Nat) (s : State) : Host.Outcome State Fault Refusal := commit (flockSave core slot) s

/-! ## STOPPED (R328, R330, R357, R418) -/

/-- Contexts of a virtual device. -/
def Dev.ofVdev (d : Dev) (v : Nat) : List Nat := (List.range 64).filter (fun k => (d.ctx k).vdevNow = v)

/-- A function-level reset of a virtual device ends once all of its contexts are STOPPED: saved flocks and queued steps go,
SQHEAD becomes SQTAIL, the contexts stay STOPPED (R357). -/
def flrEnd (v : Nat) : Eff := look fun s =>
  let ks := s.dev.ofVdev v
  let ended : Bool := ks.all (fun k => (s.dev.ctx k).cstate = .stopped)
  if s.dev.stopped || !ended || !ks.any (fun k => (s.dev.ctx k).flr) then skip
  else
    forE ks (fun k => look fun s =>
      seqE [
        wr (keptDrops (s.dev.ctx k)),
        upd (fun d => d.modCtx k (fun c =>
          { c with saved := [], nsaved := 0, entries := [], step := none, runs := [], sqhead := c.sqtail, flr := false })) ])

/-- CONTEXT_STOPPED: no flock is resident; the overrun is charged, and the events follow. -/
def contextStopped (k : Nat) : Eff := look fun s =>
  let c := s.dev.ctx k
  let stepid := (c.step.map (·.entry.stepid)).getD 0
  let limit := if s.dev.mgmt.crit.isSome then 0 else c.eff.drainlim.toNat
  let v := s.dev.srvTime - (c.drainAt / 40 + limit)
  if (c.cstate ≠ .draining ∧ c.cstate ≠ .saving) ∨ s.dev.flocks.any (fun f => f.ctx = k) then skip
  else
    seqE [
      setCState k .stopped,
      upd (fun d => c.owed.foldl (fun d x => if v = 0 then d else chargeServer x.1 x.2 k (v * 40 * 65536) d)
        (d.modCtx k (fun c => { c with urgent := false, owed := [] }))),
      whenE (decide (0 < v)) (ctxEvent k 10 stepid (BitVec.ofNat 64 v)
        (BitVec.ofNat 64 (bits c.naborted 0 16 + bits c.nsaved 0 16 * 2 ^ 16))),
      ctxEvent k 4 stepid 3 (BitVec.ofNat 64 c.nsaved),
      flrEnd c.vdevNow ]

/-- CONTEXT_STOPPED (R328). -/
def execContextStopped (ctx : Nat) (s : State) : Host.Outcome State Fault Refusal := commit (contextStopped ctx) s

/-! ## Restoring (R329) -/

/-- Two saved flocks are of one herd. -/
def sameHerd (a b : SavedFlock) : Bool := a.flock.run = b.flock.run && a.flock.herd = b.flock.herd

/-- A core takes a saved flock: R50 and its metadata queues. -/
def Dev.takesBack (d : Dev) (core : Nat) (x : SavedFlock) : Bool :=
  d.hasRoom core x.flock.kern (x.flock.threads.map (·.t)) x.flock.tile.isSome &&
    x.metas.all (fun m => ((d.core core).metaq[m.1]?.getD ⟨none, []⟩).bound.isNone)

/-- A thread on its new core: no L1 line filled before serves its loads. -/
def Thread.arrive (th : Thread) (stamp : Nat) : Thread := { th with l1floor := stamp }

/-- Puts a saved flock on a core; `dest` gives the new places of its herd's flocks by their old ones. -/
def putBack (core slot : Nat) (dest : Nat × Nat → Nat × Nat) (x : SavedFlock) : Dev → Dev := fun d =>
  let f := { x.flock with
    core := core, slot := slot, threads := x.flock.threads.map (·.arrive d.nextId), inst := x.flock.inst.map (·.arrive d.nextId) }
  let ops := x.copies.map (fun o =>
    { o with ref := { o.ref with core := core, slot := slot }, targets := o.targets.map dest, after := [] })
  { (d.modCore core (fun c =>
      { c with cpy := c.cpy ++ ops,
               metaq := c.metaq.mapIdx (fun i q => match aget x.metas i with
                 | some items => ⟨some (core, slot), items⟩
                 | none => q) })) with
    flocks := d.flocks ++ [f] }

/-- Cores for the flocks of a herd one after another, each on the core with the fewest resident threads. -/
def placesBack (cores : List Nat) : List SavedFlock → Dev → Option (List (Nat × Nat))
  | [], _ => some []
  | x :: xs, d =>
    match cores.filter (fun c => d.takesBack c x) with
    | [] => none
    | c :: cs =>
      let best := cs.foldl (fun a b => if d.residents b < d.residents a then b else a) c
      let slot := (d.freeSlot best).getD 0
      (placesBack cores xs (putBack best slot id x d)).map ((best, slot) :: ·)

/-- Places for a herd: a flock alone on any core of the virtual device, a herd in one cluster. -/
def Dev.spotsBack (d : Dev) (k : Nat) (hs : List SavedFlock) : Option (List (Nat × Nat)) :=
  match hs with
  | [_] => placesBack ((d.homes k).flatMap coresOf) hs d
  | _ => (d.homes k).findSome? (fun q => placesBack (coresOf q) hs d)

/-- The images of saved flocks as their restore reads them: whether the save area still holds what was saved. -/
def State.kept (s : State) (x : SavedFlock) : Bool := x.imageAt = 0 || decide (s.phys x.imageAt x.imageLen = x.image)

/-- A saved flock whose save area has been changed: its data is undefined. -/
def SavedFlock.lost (x : SavedFlock) (seed : Nat) : SavedFlock :=
  { x with flock := { x.flock with
      threads := x.flock.threads.zipIdx.map (fun (th, i) =>
        { th with
          regs := [], undef := some (seed + i), preds := (List.range 8).map (fun j => if Config.undefPred (seed + i) j then .t else .f),
          xs := (List.range 4).map (Config.undefX (seed + i)) }) } }

/-- The allocations of a restored flock move to its new place. -/
def backMoves (x : SavedFlock) (p : Nat × Nat) : List Write :=
  [.drop (.spad p.1 p.2), .drop (.acc p.1 p.2), .move (.kept x.key false) (.spad p.1 p.2), .move (.kept x.key true) (.acc p.1 p.2)]

/-- FLOCK_RESTORE: the first saved herd goes back to cores with room; with none left the context is RUNNING, and the
replays held while it was STOPPED are applied. The core gives up borrowed slots (R95), and the flock acquires (R275). -/
def flockRestore (k : Nat) : Eff := look fun s =>
  let c := s.dev.ctx k
  if c.cstate ≠ .restoring ∨ s.dev.stopped then skip
  else
    match c.saved with
    | [] =>
      (upd (fun d => c.replays.foldl (fun d i => replayNow k i d) (d.modCtx k (fun c => { c with replays := [], nsaved := 0 })))).andThen
        (setCState k .running)
    | x :: _ =>
      let hs := c.saved.filter (sameHerd x)
      withE (s.dev.spotsBack k hs) fun ps =>
        let seed (i : Nat) : Nat := s.dev.free + 1100 * i
        let back := hs.zipIdx.map (fun (y, i) => if s.kept y then y else y.lost (seed i))
        let pairs := back.zip ps
        let dest (o : Nat × Nat) : Nat × Nat :=
          ((pairs.find? (fun y => (y.1.flock.core, y.1.flock.slot) = o)).map (·.2)).getD o
        let wipes : List Write := (hs.zip ps).zipIdx.flatMap (fun (y, i) =>
          if s.kept y.1 then [] else [.wipe (.spad y.2.1 y.2.2) 0 (seed i + 1024), .wipe (.acc y.2.1 y.2.2) 0 (seed i + 1025)])
        (forE hs (fun y => whenE (decide (y.imageAt ≠ 0)) (tableRead k y.imageAt y.imageLen))).andThen
          (if hs.any (fun y => decide (y.imageAt ≠ 0) && s.dev.tableBad y.imageAt y.imageLen) then skip
          else
            seqE [
              wr (pairs.flatMap (fun y => backMoves y.1 y.2) ++ wipes),
              upd (fun d =>
                pairs.foldl (fun d y => acquirePlace y.2.1 ((putBack y.2.1 y.2.2 dest y.1 d).claim y.2.1 false))
                  { (d.modCtx k (fun c => { c with saved := c.saved.filter (fun y => !sameHerd x y) })) with
                    nextId := d.nextId + 1, free := d.free + 1100 * hs.length }),
              upd (fun d => pairs.foldl (fun d y =>
                d.modRun k y.1.flock.run (fun r => r.started (dieOf y.2.1) (d.die (dieOf y.2.1)).cycle)) d) ])

/-- FLOCK_RESTORE (R329). -/
def execFlockRestore (ctx : Nat) (s : State) : Host.Outcome State Fault Refusal := commit (flockRestore ctx) s

end Sys2Proof.Machine
end

