-- ==== Sys2Proof/Machine/Cross.lean ====
section
/-! DEFINITION. The cross-lane instructions (R193-R196). Every member reads the others as they stand at the group's
issue. -/

namespace Sys2Proof.Machine

/-- The members of the issuer's set, lowest lane first. -/
def Env.set (v : Env) : List Env := (named v.r.t v.mask).filterMap v.of

/-- A member's lane. -/
def Env.lane (v : Env) : Nat := laneOf v.r.t

/-- The member on a lane. -/
def Env.onLane (v : Env) (s : Int) : Option Env := v.set.find? (fun u => (u.lane : Int) = s)

/-- The lane operand: B as .n32, or IMM<4:0>. -/
def Env.laneOp (v : Env) : Raw :=
  match v.b with
  | .i w => Raw.of (bits w.imm 0 5)
  | _ => v.raw v.b.vb 1

/-- The lane that LXCH reads (R195). -/
def lxchLane (mod lane b : Nat) : Int :=
  match mod with
  | 0 => (bits b 0 5 : Nat)
  | 1 => (lane : Int) - b
  | 2 => (lane : Int) + b
  | _ => (lane ^^^ bits b 0 5 : Nat)

/-- LXCH. -/
def mLxch : Meaning := fun v =>
  let n := intRegs v.h.var
  if v.th.intv ∧ v.set.any (fun u => !u.laneOp.pt) then noneRule v
  else
    let own := v.raw v.b.va n
    v.putRaw n (match v.onLane (lxchLane v.h.mod v.lane v.laneOp.lo) with
      | some u => u.raw v.b.va n
      | none => own)

/-- Whether truth values are all equal. -/
def sameTri (l : List Tri) : Tri :=
  if l.contains .t && l.contains .f then .f
  else if l.length ≤ 1 then .t
  else if l.contains .u then .u else .t

/-- POLL. -/
def mPoll : Meaning := fun v =>
  let l := v.set.map (fun u => (u.lane, u.p v.b.va))
  let ps := l.map (·.2)
  match v.h.mod with
  | 0 => v.putP v.b.vd (ps.foldl Tri.and .t)
  | 1 => v.putP v.b.vd (ps.foldl Tri.or .f)
  | 2 => v.putP v.b.vd (sameTri ps)
  | _ =>
    if ps.contains .u then noneRule v
    else v.putRaw 1 (Raw.of ((l.filter (fun x => x.2 = .t)).foldl (fun m x => m + 2 ^ x.1) 0))

/-- The operation of REDX and SCANX on values, and on extents. -/
def redVal (mod : Nat) (a b : Int) : Int :=
  match mod with
  | 0 => a + b
  | 1 => min a b
  | _ => max a b
def redExt (mod : Nat) (a b : Ext) : Ext :=
  match mod with
  | 0 => a.add b
  | 1 => (min a.1 b.1, min a.2 b.2)
  | _ => (max a.1 b.1, max a.2 b.2)

/-- The combination of some members' sources, written to the destination; .or gives the full range unless every member's
source is a point (R196). -/
def Env.reduce (v : Env) (us : List Env) : Res :=
  let t := ity v.h.var
  let n := t.regs
  let x : LitExt := if v.h.var = 3 ∧ v.h.mod ≠ 3 then .zero else .sign
  let rs := us.map (fun u => u.raw v.b.va n x)
  if v.h.mod = 3 then v.putRaw n (if v.th.intv ∧ (v.set.map (fun u => u.raw v.b.va n)).all Raw.pt = false then t.fullRaw
    else Raw.of ((rs.map (·.lo)).foldl (· ||| ·) 0 % 2 ^ (32 * n)))
  else if v.th.intv then
    match rs.map (fun r => t.ext r.lo r.hi) with
    | [] => v.putRaw n (Raw.of 0)
    | e :: es =>
      let r := t.fit false (es.foldl (redExt v.h.mod) e)
      v.putRaw n ⟨wrap t.w r.1, wrap t.w r.2, false⟩
  else
    match rs.map (fun r => t.val r.lo) with
    | [] => v.putRaw n (Raw.of 0)
    | x :: xs => v.putRaw n (Raw.of (wrap t.w (xs.foldl (redVal v.h.mod) x)))

/-- REDX and SCANX, the latter over the lanes up to the member's own. -/
def mRedx : Meaning := fun v => v.reduce v.set
def mScanx : Meaning := fun v => v.reduce (v.set.filter (fun u => u.lane ≤ v.lane))

/-- EQMASK. -/
def mEqmask : Meaning := both
  (fun v =>
    let n := intRegs v.h.var
    let own := v.srcN n v.b.va
    let eq := v.set.filter (fun u => u.srcN n v.b.va = own)
    v.put (fun th => th.wrN 1 v.b.vd (eq.foldl (fun m u => m + 2 ^ u.lane) 0)))
  noneRule

/-- LEAD: the lowest member that is no helper, else the lowest member. -/
def mLead : Meaning := fun v =>
  let e := (v.set.find? (fun u => !u.th.helper)).orElse (fun _ => v.set.head?)
  v.putP v.b.vd (Tri.ofBool (decide (e.map (·.lane) = some v.lane)))

/-! ## The instructions -/

/-- LXCH with a register lane operand (R195). -/
def execLxchT (w : TWord) (s : State) : Host.Outcome State Fault Refusal := commit (issue 0x45 (.t w) mLxch) s
/-- LXCH with an immediate lane operand (R195). -/
def execLxchI (w : IWord) (s : State) : Host.Outcome State Fault Refusal := commit (issue 0x4B (.i w) mLxch) s
/-- POLL (R195). -/
def execPoll (w : TWord) (s : State) : Host.Outcome State Fault Refusal := commit (issue 0x46 (.t w) mPoll) s
/-- REDX (R195). -/
def execRedx (w : TWord) (s : State) : Host.Outcome State Fault Refusal := commit (issue 0x47 (.t w) mRedx) s
/-- SCANX (R195). -/
def execScanx (w : TWord) (s : State) : Host.Outcome State Fault Refusal := commit (issue 0x48 (.t w) mScanx) s
/-- EQMASK (R195). -/
def execEqmask (w : TWord) (s : State) : Host.Outcome State Fault Refusal := commit (issue 0x49 (.t w) mEqmask) s
/-- LEAD (R195). -/
def execLead (w : TWord) (s : State) : Host.Outcome State Fault Refusal := commit (issue 0x4A (.t w) mLead) s

end Sys2Proof.Machine
end

