-- ==== Sys2Proof/Machine/Governor.lean ====
section
/-! DEFINITION. The deadline governor and the clock generators: evaluation, transitions, ceilings, droop responses
(R333-R350, R376, R420, R421). -/

namespace Sys2Proof.Machine

/-! ## Supply and steps (R339, R340) -/

/-- VMV of a point, in mV. -/
def Dev.vmv (d : Dev) (i : Nat) : Nat := ((d.mgmt.optbl[i]?).map (·.2)).getD 0

/-- Ticks of a ramp between two voltages: 10 mV per µs. -/
def rampTicks (a b : Nat) : Nat := 400 * (max a b - min a b)
/-- Ticks until a raise's supply has reached the higher point's VMV: none where a fall has not yet gone below it. -/
def raiseTicks (supply vmv : Nat) : Nat := 400 * (vmv - supply)
/-- Ticks of a divider step: 0.5 µs. -/
def dividerTicks : Nat := 2000

/-- The supply of a die now. -/
def Dev.supplyNow (d : Dev) (die : Nat) : Nat :=
  let x := d.die die
  match x.ramp with
  | none => x.supply
  | some p =>
    let goal := d.vmv p
    let moved := (d.ctime - x.rampAt) / 400
    if x.supply ≤ goal then min goal (x.supply + moved) else max goal (x.supply - moved)

/-- The supply heads for a point's VMV from where it is. -/
def Dev.rampTo (d : Dev) (die p : Nat) : Dev :=
  d.modDie die (fun x => { x with supply := d.supplyNow die, ramp := some p, rampAt := d.ctime })

/-- The point that a die heads for: TGT, FBK while TVALID is 0, never above CEIL (R338, R340). -/
def Die.goal (x : Die) : Nat := min (if x.tvalid then x.tgt else 6) x.ceil

/-- A droop response is in progress in a cluster of the die. -/
def Dev.drooping (d : Dev) (die : Nat) : Bool :=
  (List.range 16).any (fun i => (d.cluster (16 * die + i)).droop ≠ .none)

/-- A raise whose divider step has not begun. -/
def Die.raising (x : Die) : Option Nat := x.ramp.filter (fun p => decide (x.cur < p) && x.step.isNone)

/-- Starts the next step toward the goal if none is in progress. -/
def Dev.advance (d : Dev) (die : Nat) : Dev :=
  let x := d.die die
  let g := x.goal
  if x.step.isSome ∨ x.raising.isSome ∨ x.powered = false then d
  else if g = x.cur then d.modDie die (fun x => { x with trans := false })
  else if d.drooping die then d
  else if x.cur < g then (d.rampTo die (x.cur + 1)).modDie die (fun x => { x with trans := true })
  else d.modDie die (fun x => { x with step := some (x.cur - 1), stepAt := d.ctime, trans := true })

/-- A ceiling below CUR, or below the point toward which a raise heads, ends the raise; the supply returns (R340). -/
def Dev.capRaise (d : Dev) (die : Nat) : Dev :=
  let x := d.die die
  match x.raising with
  | some p => if x.ceil < p then d.rampTo die x.cur else d
  | none => d

/-- The governor chooses TGT in the present clock (R342). -/
def Dev.evalClock (d : Dev) : Bool := d.ctime % 40000 = 0 || d.mgmt.deadlineAt = some d.ctime

/-- Sets CEIL, which bounds the point that the die heads for; a TGT chosen in the same clock is clamped to it. -/
def Dev.setCeil (d : Dev) (die val : Nat) : Dev :=
  ((d.modDie die (fun x => { x with ceil := val, tgt := if d.evalClock then min x.tgt val else x.tgt })).capRaise die).advance die

/-- The power controller's firmware is stopped: hung and restarting, or being replaced (R422, R423). -/
def Mgmt.halted (m : Mgmt) : Bool := m.fwStopped || m.updating

/-- CEIL_WRITE (R340): the power controller sets CEIL of a die. -/
def execCeilWrite (die val : Nat) (s : State) : Host.Outcome State Fault Refusal :=
  commit (upd (fun d => if 4 ≤ die ∨ 12 < val ∨ d.mgmt.halted then d else d.setCeil die val)) s

/-- No slack is published for a die (R338). -/
def noSlack : List W64 := List.replicate 64 0x7FFFFFFFFFFFFFFF

/-- TVALID of a die; at 0 the die is held at FBK. -/
def Dev.setValid (d : Dev) (die : Nat) (v : Bool) : Dev :=
  if v then d.modDie die (fun x => { x with tvalid := true })
  else (d.modDie die (fun x => { x with tvalid := false, tgt := min 6 x.ceil, slack := noSlack })).advance die

/-- MGMT_TABLE_WRITE (R335, R336): EN of OP_6 stays 1. -/
def tableWrite (w : TableWrite) : Dev → Dev := fun d =>
  if d.mgmt.halted then d
  else
    match w with
    | .optbl i en vmv =>
      if 13 ≤ i then d
      else { d with mgmt := { d.mgmt with optbl := d.mgmt.optbl.set i (en || i == 6, vmv % 65536) } }
    | .tvalid die v => if 4 ≤ die then d else d.setValid die v

/-- MGMT_TABLE_WRITE (R336). -/
def execMgmtTableWrite (w : TableWrite) (s : State) : Host.Outcome State Fault Refusal := commit (upd (tableWrite w)) s

/-- The supply reaches a point's VMV; at the end of a raise's ramp, or at once where an unfinished fall is still above it, the
divider step begins (R339). -/
def rampDone (die : Nat) : Dev → Dev := fun d =>
  let x := d.die die
  match x.ramp with
  | none => d
  | some p =>
    if x.raising = some p then
      if d.ctime < x.rampAt + raiseTicks x.supply (d.vmv p) then d
      else
        d.modDie die (fun x =>
          { x with supply := d.supplyNow die, rampAt := d.ctime, ramp := if d.supplyNow die = d.vmv p then none else some p,
                   step := some p, stepAt := d.ctime })
    else if d.ctime < x.rampAt + rampTicks x.supply (d.vmv p) then d
    else d.modDie die (fun x => { x with supply := d.vmv p, ramp := none })

/-- VOLTAGE_RAMP_DONE (R339). -/
def execVoltageRampDone (die : Nat) (s : State) : Host.Outcome State Fault Refusal := commit (upd (rampDone die)) s

/-- A divider step completes: CUR changes; after a lowering the supply falls; the next step toward TGT starts. -/
def dividerDone (die : Nat) : Dev → Dev := fun d =>
  let x := d.die die
  match x.step with
  | none => d
  | some p =>
    if d.ctime < x.stepAt + dividerTicks then d
    else
      let d1 := d.modDie die (fun x => { x with cur := p, step := none })
      (if p < x.cur then d1.rampTo die p else d1).advance die

/-- DIVIDER_STEP (R339). -/
def execDividerStep (die : Nat) (s : State) : Host.Outcome State Fault Refusal := commit (upd (dividerDone die)) s

/-- RAISE_TIMEOUT (R421): a supply more than 20 mV short 10 µs after its ramp time abandons the raise. -/
def raiseTimeout (die supply : Nat) : Eff := look fun s =>
  let d := s.dev
  let x := d.die die
  match x.raising with
  | none => skip
  | some p =>
    if d.ctime < x.rampAt + raiseTicks x.supply (d.vmv p) + 40000 ∨ d.vmv p ≤ supply + 20 then skip
    else
      (bankRecord 114 1 none 0x90 die 0 0).andThen (upd (fun d =>
        ((d.modDie die (fun x => { x with supply := supply, ramp := some x.cur, rampAt := d.ctime })).setCeil die x.cur)))

/-- RAISE_TIMEOUT (R421). -/
def execRaiseTimeout (die supply : Nat) (s : State) : Host.Outcome State Fault Refusal := commit (raiseTimeout die supply) s

/-! ## Work and projected finish (R343, R344) -/

/-- The numerator and denominator of a sum of fractions. -/
def addFrac (a b : Nat × Nat) : Nat × Nat := (a.1 * b.2 + b.1 * a.2, a.2 * b.2)

/-- W of a context on a die, in clocks as a fraction; none when a record is missing. -/
def Ctx.workOn (c : Ctx) (stepid : W32) (die : Nat) : Option (Nat × Nat) :=
  let recs := ((c.hist.find? (fun h => h.stepid = stepid)).map (·.recs)).getD []
  (c.runs.filter (fun r => !r.complete && r.node.isSome)).foldl (fun w r =>
    let i := r.node.getD 0
    if recs.any (fun x => x.1.1 = i) = false then none
    else
      match w, kget recs (i, die) with
      | some w, some (_, total, span) => some (addFrac w ((r.count - r.done.length) * span, max total 1))
      | w, _ => w) (some (0, 1))

/-- A fraction of issue: Q/T of the context's server, or what the instance's load leaves; at least 2^−16 (R344). -/
def Dev.share (d : Dev) (ctx inst : Nat) : Nat × Nat :=
  match d.server? 0 inst ctx with
  | some v => if v.q * 65536 < v.t then (1, 65536) else (v.q, v.t)
  | none => (max 1 (65536 - d.load 0 inst), 65536)

/-- U of a context on a die. -/
def Dev.issueShare (d : Dev) (ctx die : Nat) : Nat × Nat :=
  ((List.range 256).map (fun i => d.share ctx (256 * die + i))).foldl
    (fun a b => if b.1 * a.2 < a.1 * b.2 then b else a) (1, 1)

/-- TR: the transition time from CUR to a point. -/
def Dev.transTime (d : Dev) (die i : Nat) : Nat :=
  let cur := (d.die die).cur
  if cur ≤ i then ((List.range (i - cur)).map (fun j => 400 * (d.vmv (cur + j + 1) - d.vmv (cur + j)) + dividerTicks)).foldl (· + ·) 0
  else (cur - i) * dividerTicks

/-- The whole ticks of W / (f(i) · U), rounded up; f(i) is (4 + i) / 16 clocks per tick. -/
def workTicks (w u : Nat × Nat) (i : Nat) : Nat := ceilDiv (w.1 * 16 * u.2) (w.2 * (4 + i) * u.1)

/-- F(i), rounded up to a whole tick: F(i) is at most a whole number exactly when this is. -/
def Dev.finish (d : Dev) (ctx die i : Nat) (w : Nat × Nat) : Nat :=
  d.ctime + d.transTime die i + workTicks w (d.issueShare ctx die) i

/-! ## GOVERNOR_EVAL (R342, R345-R347) -/

/-- What an evaluation reads of a context with an accepted run: deadline and step identity of its save area. -/
structure Plan where
  ctx : Nat
  dl : Nat
  stepid : W32
  deriving DecidableEq, Repr

def State.plans (s : State) : List Plan :=
  (List.range 64).filterMap (fun k =>
    let c := s.dev.ctx k
    if c.runs ≠ [] then
      let b := s.phys c.eff.csave.toNat 12
      some ⟨k, field b 0 8, BitVec.ofNat 32 (field b 8 4)⟩
    else none)

/-- The check of what an evaluation reads (R378). -/
def planReads : Eff := look fun s =>
  forE ((List.range 64).filter (fun k => decide ((s.dev.ctx k).runs ≠ []))) (fun k =>
    tableRead k (s.dev.ctx k).eff.csave.toNat 12)

/-- A cluster's cores are all in service (R395). -/
def Dev.clusterServes (d : Dev) (q : Nat) : Bool := (coresOf q).all d.inService

/-- A context has work on a die. -/
def Dev.worksOn (d : Dev) (k die : Nat) (w : Option (Nat × Nat)) : Bool :=
  d.flocks.any (fun f => f.ctx = k && !f.dead && dieOf f.core = die) ||
    (match w with
      | some w => decide (0 < w.1)
      | none => (d.clustersOf (d.ctx k).vdevNow).any (fun q => q / 16 = die && d.clusterServes q))

/-- Guard time in ticks, NODL, GEN. -/
def Mgmt.guardTicks (m : Mgmt) : Nat := 4000 * bits m.govcfg.toNat 0 16
def Mgmt.nodl (m : Mgmt) : Nat := min 12 (bits m.govcfg.toNat 16 4)
def Mgmt.gen (m : Mgmt) : Bool := bit m.govcfg.toNat 20

/-- A point that the governor may choose. -/
def Dev.enabled (d : Dev) (i : Nat) : Bool := ((d.mgmt.optbl[i]?).map (·.1)).getD false

/-- A raised deadline risk holds the context's requirement on a die until its step completes (R347). -/
def Dev.held (d : Dev) (k die : Nat) : Bool := (d.ctx k).step.any (fun st => st.riskRaised && st.riskDies.contains die)

/-- A context's requirement on a die, and whether it is at risk there. -/
def Dev.require (d : Dev) (p : Plan) (die : Nat) (w : Option (Nat × Nat)) : Nat × Bool :=
  let ceil := (d.die die).ceil
  if d.held p.ctx die then (ceil, false)
  else if p.dl = 0 then (min d.mgmt.nodl ceil, false)
  else
    match w with
    | none => (ceil, false)
    | some w =>
      match (List.range (ceil + 1)).find? (fun i => d.enabled i && decide (d.finish p.ctx die i w + d.mgmt.guardTicks ≤ p.dl)) with
      | some i => (i, false)
      | none => (ceil, true)

/-- Step 6 of R345. -/
def Dev.snap (d : Dev) (die i : Nat) : Nat :=
  let ceil := (d.die die).ceil
  match ((List.range (ceil + 1 - i)).map (i + ·)).find? d.enabled with
  | some j => j
  | none => (((List.range i).reverse).find? d.enabled).getD i

/-- The slack of a context at a point (R346); above 2^63 - 1 it is 2^63 - 1 (DESIGN CHOICE, log 77). -/
def Dev.slackOf (d : Dev) (p : Plan) (die i : Nat) (w : Option (Nat × Nat)) : W64 :=
  if p.dl = 0 then 0x7FFFFFFFFFFFFFFF
  else
    match w with
    | none => 0x8000000000000000
    | some w => BitVec.ofInt 64 (max (-(2 ^ 63 - 1)) (min (2 ^ 63 - 1) ((p.dl : Int) - d.mgmt.guardTicks - d.finish p.ctx die i w)))

/-- The evaluation of one die: TGT, slack, and the contexts at risk there with their shortfalls. -/
def evalDie (ps : List Plan) (die : Nat) (d : Dev) : Dev × List (Nat × Int) :=
  let x := d.die die
  if x.tvalid = false ∨ x.powered = false then (d, [])
  else
    let ws := ps.map (fun p => (p, (d.ctx p.ctx).workOn p.stepid die))
    let on := ws.filter (fun y => d.worksOn y.1.ctx die y.2 || d.held y.1.ctx die)
    let reqs := on.map (fun y => (y, d.require y.1 die y.2))
    let most := reqs.foldl (fun m r => max m r.2.1) 0
    let tgt := d.snap die (if d.mgmt.gen then most else x.ceil)
    let risks := reqs.filterMap (fun r =>
      if r.2.2 then r.1.2.map (fun w => (r.1.1.ctx, (d.finish r.1.1.ctx die x.ceil w : Int) - (r.1.1.dl - d.mgmt.guardTicks : Int)))
      else none)
    let slack := ws.foldl (fun l y => l.set y.1.ctx (d.slackOf y.1 die tgt y.2)) noSlack
    ((d.modDie die (fun x => { x with tgt := tgt, slack := slack })).advance die, risks)

/-- The deadline risk of a step (R347): the event, the mark of its dies; once per step. -/
def raiseRisk (ps : List Plan) (risks : List (Nat × Nat × Int)) (k : Nat) : Eff := look fun s =>
  let mine := risks.filter (fun r => r.1 = k)
  withE (s.dev.ctx k).step fun st =>
    if mine = [] ∨ st.riskRaised then skip
    else
      let dies := mine.map (·.2.1)
      let short := mine.foldl (fun m r => max m r.2.2) (-(2 ^ 63))
      let stepid := ((ps.find? (fun p => p.ctx = k)).map (·.stepid)).getD 0
      (upd (fun d => d.modCtx k (fun c =>
        { c with step := c.step.map (fun st => { st with riskRaised := true, riskDies := dies }) }))).andThen
        (ctxEvent k 3 stepid (BitVec.ofNat 64 ((dies.map (2 ^ ·)).foldl (· + ·) 0)) (BitVec.ofInt 64 short))

/-- The walker launches the RISKNODE run of a step at risk, once, outside the graph (R312). -/
def riskLaunch (k : Nat) : Eff := look fun s =>
  let c := s.dev.ctx k
  withE c.step fun st =>
    if st.riskRaised = false ∨ st.riskLaunched ∨ st.nnodes ≤ st.risknode ∨ c.cstate ≠ .running then skip
    else
      walkerRead k st.risknode (st.nodeAddr st.risknode) 64 (fun b =>
        if (nodeHead b).kind ≠ 0 then skip
        else
          launchNode k st.risknode (field b 0x10 8) true (upd (fun d => d.modCtx k (fun c =>
            { c with step := c.step.map (fun st => { st with riskLaunched := true }) }))))

/-- A step with a raised risk has work on a die. -/
def Dev.atRisk (d : Dev) (die : Nat) : Bool :=
  (List.range 64).any (fun k => (d.ctx k).step.any (fun st =>
    st.riskRaised && d.worksOn k die ((d.ctx k).workOn st.entry.stepid die)))

/-- RISK of the dies at risk is set; the others keep theirs. -/
def riskBits : Dev → Dev := fun d =>
  { d with dies := d.dies.mapIdx (fun die x => { x with risk := x.risk || (List.range 64).any (fun k => d.held k die) }) }

/-- RISK of a die clears as soon as no step with a raised risk has work there. -/
def riskClear : Dev → Dev := fun d =>
  if d.dies.any (·.risk) then { d with dies := d.dies.mapIdx (fun die x => { x with risk := x.risk && d.atRisk die }) } else d

/-- GOVERNOR_EVAL: every 10 µs, and when a walker writes a deadline. After a fatal stop the dies only go to FBK (R420). -/
def governorEval : Eff := look fun s =>
  if s.dev.evalClock = false then skip
  else if s.dev.stopped then upd (fun d => (List.range 4).foldl (fun d i => d.advance i) d)
  else planReads.andThen <| look fun s =>
    let ps := s.plans
    let (d, risks) := (List.range 4).foldl (fun (acc : Dev × List (Nat × Nat × Int)) die =>
      let (d, l) := evalDie ps die acc.1
      (d, acc.2 ++ l.map (fun r => (r.1, die, r.2)))) (s.dev, [])
    seqE [
      upd (fun _ => d),
      forE (ps.map (·.ctx)) (raiseRisk ps risks),
      upd (fun d => riskClear (riskBits d)),
      forE (ps.map (·.ctx)) riskLaunch ]

/-- GOVERNOR_EVAL (R345). -/
def execGovernorEval (s : State) : Host.Outcome State Fault Refusal := commit governorEval s

/-! ## Droop (R349, R350, R376) -/

/-- DROOP_ALARM: the supply lies more than 2 × THRESH mV below CUR's VMV; a response starts, and ALARMS counts it. -/
def droopAlarm (cluster supply : Nat) : Dev → Dev := fun d =>
  let c := d.cluster cluster
  let die := cluster / 16
  let cfg := c.droopcfg.toNat
  let count := bits cfg 16 16
  if 64 ≤ cluster ∨ bit cfg 8 = false ∨ d.vmv (d.die die).cur ≤ supply + 2 * bits cfg 0 8 ∨ (d.die die).powered = false ∨
      (c.droop ≠ .none ∧ c.droopAt = c.cycle) then d
  else
    d.modCluster cluster (fun c =>
      { c with droop := .stretch, droopAt := c.cycle, half := false,
               droopcfg := BitVec.ofNat 32 (cfg % 65536 + min 0xFFFF (count + 1) * 65536) })

/-- DROOP_ALARM (R349). -/
def execDroopAlarm (cluster supply : Nat) (s : State) : Host.Outcome State Fault Refusal := commit (upd (droopAlarm cluster supply)) s

/-- Clocks 1 to 6 of a response have passed: issue is halved. -/
def Cluster.stretchEnd (c : Cluster) : Cluster :=
  if c.droop = .stretch ∧ c.droopAt + 7 ≤ c.cycle then { c with droop := .halved } else c

/-- Full issue from clock 71 on. -/
def Cluster.responseEnd (c : Cluster) : Cluster :=
  if c.droop = .halved ∧ c.droopAt + 71 ≤ c.cycle then { c with droop := .none } else c

/-- DROOP_STRETCH_END (R349). -/
def execDroopStretchEnd (cluster : Nat) (s : State) : Host.Outcome State Fault Refusal :=
  commit (upd (fun d => d.modCluster cluster Cluster.stretchEnd)) s

/-- DROOP_RESPONSE_END (R349): a waiting step of the die may start (R340). -/
def execDroopResponseEnd (cluster : Nat) (s : State) : Host.Outcome State Fault Refusal :=
  commit (upd (fun d =>
    let c := d.cluster cluster
    if c.responseEnd = c then d else (d.modCluster cluster Cluster.responseEnd).advance (cluster / 16))) s

end Sys2Proof.Machine
end

