-- ==== Sys2Proof/Machine/Image.lean ====
section
/-! DEFINITION. Verification of a firmware image: SHA-256 and ECDSA over P-256, which R29 and R368 name and whose definitions
are those of FIPS 180-4, FIPS 186-4 and SP 800-186 (PRESUMED, log 65). -/

namespace Sys2Proof.Machine

/-! ## SHA-256 -/

def shaInit : List W32 :=
  [0x6A09E667, 0xBB67AE85, 0x3C6EF372, 0xA54FF53A, 0x510E527F, 0x9B05688C, 0x1F83D9AB, 0x5BE0CD19]

def shaK : List W32 :=
  [0x428A2F98, 0x71374491, 0xB5C0FBCF, 0xE9B5DBA5, 0x3956C25B, 0x59F111F1, 0x923F82A4, 0xAB1C5ED5] ++
  [0xD807AA98, 0x12835B01, 0x243185BE, 0x550C7DC3, 0x72BE5D74, 0x80DEB1FE, 0x9BDC06A7, 0xC19BF174] ++
  [0xE49B69C1, 0xEFBE4786, 0x0FC19DC6, 0x240CA1CC, 0x2DE92C6F, 0x4A7484AA, 0x5CB0A9DC, 0x76F988DA] ++
  [0x983E5152, 0xA831C66D, 0xB00327C8, 0xBF597FC7, 0xC6E00BF3, 0xD5A79147, 0x06CA6351, 0x14292967] ++
  [0x27B70A85, 0x2E1B2138, 0x4D2C6DFC, 0x53380D13, 0x650A7354, 0x766A0ABB, 0x81C2C92E, 0x92722C85] ++
  [0xA2BFE8A1, 0xA81A664B, 0xC24B8B70, 0xC76C51A3, 0xD192E819, 0xD6990624, 0xF40E3585, 0x106AA070] ++
  [0x19A4C116, 0x1E376C08, 0x2748774C, 0x34B0BCB5, 0x391C0CB3, 0x4ED8AA4A, 0x5B9CCA4F, 0x682E6FF3] ++
  [0x748F82EE, 0x78A5636F, 0x84C87814, 0x8CC70208, 0x90BEFFFA, 0xA4506CEB, 0xBEF9A3F7, 0xC67178F2]

/-- Bytes as a number, the first byte highest. -/
def beNat (bs : List Byte) : Nat := bs.foldl (fun a b => 256 * a + b.toNat) 0
/-- The low `n` bytes of a number, the highest first. -/
def beBytes (n x : Nat) : List Byte := (leBytes n x).reverse

/-- The padded message. -/
def shaPad (bs : List Byte) : List Byte :=
  bs ++ [0x80] ++ List.replicate ((119 - bs.length % 64) % 64) 0 ++ beBytes 8 (8 * bs.length)

/-- The message schedule of a block of 64 bytes, in reverse. -/
def shaSchedule (blk : List Byte) : List W32 :=
  let w0 := ((List.range 16).map (fun i => BitVec.ofNat 32 (beNat ((blk.drop (4 * i)).take 4)))).reverse
  let at_ (w : List W32) (i : Nat) : W32 := w[i]?.getD 0
  let s0 (x : W32) : W32 := x.rotateRight 7 ^^^ x.rotateRight 18 ^^^ (x >>> 3)
  let s1 (x : W32) : W32 := x.rotateRight 17 ^^^ x.rotateRight 19 ^^^ (x >>> 10)
  (List.range 48).foldl (fun w _ => (s1 (at_ w 1) + at_ w 6 + s0 (at_ w 14) + at_ w 15) :: w) w0

/-- One round. -/
def shaRound (h : List W32) (k w : W32) : List W32 :=
  match h with
  | [a, b, c, d, e, f, g, x] =>
    let t1 := x + (e.rotateRight 6 ^^^ e.rotateRight 11 ^^^ e.rotateRight 25) + ((e &&& f) ^^^ (~~~e &&& g)) + k + w
    let t2 := (a.rotateRight 2 ^^^ a.rotateRight 13 ^^^ a.rotateRight 22) + ((a &&& b) ^^^ (a &&& c) ^^^ (b &&& c))
    [t1 + t2, a, b, c, d + t1, e, f, g]
  | l => l

/-- One block. -/
def shaBlock (h : List W32) (blk : List Byte) : List W32 :=
  let r := (shaK.zip (shaSchedule blk).reverse).foldl (fun h x => shaRound h x.1 x.2) h
  List.zipWith (· + ·) h r

/-- SHA-256 of bytes: 32 bytes. -/
def digest (bs : List Byte) : List Byte :=
  let m := shaPad bs
  let h := (List.range (m.length / 64)).foldl (fun h i => shaBlock h ((m.drop (64 * i)).take 64)) shaInit
  h.flatMap (fun x => beBytes 4 x.toNat)

/-! ## ECDSA over P-256 -/

def p256P : Nat := 0xFFFFFFFF00000001000000000000000000000000FFFFFFFFFFFFFFFFFFFFFFFF
def p256N : Nat := 0xFFFFFFFF00000000FFFFFFFFFFFFFFFFBCE6FAADA7179E84F3B9CAC2FC632551
def p256B : Nat := 0x5AC635D8AA3A93E7B3EBBD55769886BC651D06B0CC53B0F63BCE3C3E27D2604B
def p256G : Nat × Nat :=
  (0x6B17D1F2E12C4247F8BCE6E563A440F277037D812DEB33A0F4A13945D898C296,
   0x4FE342E2FE1A7F9B8EE7EB4A7C0F9E162BCE33576B315ECECBB6406837BF51F5)

/-- Numbers of 256 bits, the highest bit first. -/
def bits256 (x : Nat) : List Bool := ((List.range 256).map x.testBit).reverse
/-- The inverse modulo a prime. -/
def invMod (m a : Nat) : Nat := (bits256 (m - 2)).foldl (fun r b => r * r * (if b then a else 1) % m) 1

/-- A point lies on the curve. -/
def onCurve (q : Nat × Nat) : Bool :=
  decide (q.1 < p256P ∧ q.2 < p256P ∧ q.2 * q.2 % p256P = (q.1 ^ 3 + (p256P - 3) * q.1 + p256B) % p256P)

/-- Addition of points; none is the point at infinity. -/
def ecAdd (a b : Option (Nat × Nat)) : Option (Nat × Nat) :=
  match a, b with
  | none, x => x
  | x, none => x
  | some (x1, y1), some (x2, y2) =>
    if x1 = x2 ∧ (y1 + y2) % p256P = 0 then none
    else
      let l := if x1 = x2 then (3 * x1 * x1 + (p256P - 3)) * invMod p256P (2 * y1 % p256P) % p256P
        else (y2 + p256P - y1) * invMod p256P ((x2 + p256P - x1) % p256P) % p256P
      let x3 := (l * l + 2 * p256P - x1 - x2) % p256P
      some (x3, (l * (x1 + p256P - x3) + p256P - y1) % p256P)

/-- A multiple of a point. -/
def ecMul (k : Nat) (q : Nat × Nat) : Option (Nat × Nat) :=
  (bits256 k).foldl (fun r b => let d := ecAdd r r; if b then ecAdd d (some q) else d) none

/-- The signature (r, s) of a digest checks under the public key `q`. -/
def ecdsaOk (q : Nat × Nat) (dig : List Byte) (sig : Nat × Nat) : Bool :=
  let (r, s) := sig
  let w := invMod p256N s
  let pt := ecAdd (ecMul (beNat dig * w % p256N) p256G) (ecMul (r * w % p256N) q)
  decide (0 < r ∧ r < p256N ∧ 0 < s ∧ s < p256N) && onCurve q && pt.any (fun x => x.1 % p256N = r)

/-! ## The firmware image (R368) -/

/-- The image's signature checks under the key whose digest is fused; where an image holds its signature, and the key, are the
device's own (Config). -/
def imageValid (image : List Byte) : Bool := ecdsaOk Config.yelvelKey (digest image) (Config.imageSignature image)

/-- An image that may run: a valid signature, and a security version of at least the fused minimum. -/
def imageOk (image : List Byte) : Bool :=
  imageValid image && decide (Config.fusedMinimum ≤ Config.securityVersion image)

/-- The stored image runs: it was written whole and is one that may run (R368, R369). -/
def Mailbox.verified (m : Mailbox) : Bool := !m.torn && imageOk m.image

end Sys2Proof.Machine
end

