-- ==== Sys2Proof/Machine/Power.lean ====
section
/-! DEFINITION. Heat, module power and the power controller's firmware (R353, R354, R422-R425). -/

namespace Sys2Proof.Machine

/-! ## Sensors and marks (R353, R424) -/

/-- WARN, CRIT and TRIP in units of 0.125 °C. -/
def markTemp (m : Nat) : Nat :=
  match m with
  | 1 => 760
  | 2 => 840
  | _ => 920

/-- The mark of a sensor from its mark before: one reached at or above it, one kept until the reading falls 5 °C below. -/
def markOf (old reading : Nat) : Nat :=
  let has (m : Nat) : Bool := decide (markTemp m ≤ reading) || (decide (m ≤ old) && decide (markTemp m < reading + 40))
  if has 3 then 3 else if has 2 then 2 else if has 1 then 1 else 0

/-- The mark of a sensor: 0–3 the compute dies, 4 the module. -/
def Mgmt.mark (m : Mgmt) (sensor : Nat) : Nat := bits m.thermstat.toNat (2 * sensor) 2

/-- THERMSTAT from the readings, a sensor's mark and the marks before. -/
def Mgmt.sense (m : Mgmt) (sensor reading : Nat) : Mgmt :=
  let rs := aset m.sensors sensor reading
  let marks := bits m.thermstat.toNat 0 10 - m.mark sensor * 4 ^ sensor + markOf (m.mark sensor) reading * 4 ^ sensor
  let hot := rs.foldl (fun x r => max x r.2) 0
  { m with sensors := rs, thermstat := BitVec.ofNat 32 (min 4095 hot * 2 ^ 20 + marks) }

/-- THERMAL_MARK: a sensor's reading; an event when its mark changes. -/
def thermalMark (sensor reading : Nat) : Eff := look fun s =>
  if 5 ≤ sensor then skip
  else
    let new := markOf (s.dev.mgmt.mark sensor) reading
    (upd (fun d => { d with mgmt := d.mgmt.sense sensor reading })).andThen
      (whenE (decide (new ≠ s.dev.mgmt.mark sensor))
        (devEvent 11 (BitVec.ofNat 64 (new + sensor * 2 ^ 8)) (BitVec.ofNat 64 reading)))

/-- THERMAL_MARK (R353). -/
def execThermalMark (sensor reading : Nat) (s : State) : Host.Outcome State Fault Refusal := commit (thermalMark sensor reading) s

/-! ## WARN and module power (R354, R423) -/

/-- WARN_CEIL_STEP: one point of CEIL every 100 µs, down to OP_4 at WARN, back up to OP_12 after it. -/
def warnStep (die : Nat) : Dev → Dev := fun d =>
  let x := d.die die
  let at_ := fun (d : Dev) => d.modDie die (fun x => { x with warnAt := d.ctime })
  if 4 ≤ die ∨ d.mgmt.halted ∨ d.mgmt.crit.isSome ∨ d.ctime < x.warnAt + 400000 then d
  else if d.mgmt.mark die ≠ 0 then
    if 4 < x.ceil then at_ ((d.setCeil die (x.ceil - 1)).modDie die (fun x => { x with warned := true })) else d
  else if x.warned then
    let c := min 12 (x.ceil + 1)
    at_ ((d.setCeil die c).modDie die (fun x => { x with warned := decide (c ≠ 12) }))
  else d

/-- WARN_CEIL_STEP (R354). -/
def execWarnCeilStep (die : Nat) (s : State) : Host.Outcome State Fault Refusal := commit (upd (warnStep die)) s

/-- The die with the highest CUR; ties to the lower number. -/
def Dev.fastest (d : Dev) : Nat := (List.range 4).foldl (fun a b => if (d.die a).cur < (d.die b).cur then b else a) 0

/-- The lowest CEIL that was lowered for power. -/
def Dev.lowest (d : Dev) : Option Nat :=
  match (List.range 4).filter (fun i => decide (0 < (d.die i).lowered)) with
  | [] => none
  | i :: is => some (is.foldl (fun a b => if (d.die b).ceil < (d.die a).ceil then b else a) i)

/-- POWER_MEASURE: module power against 3,600 W and 3,420 W, every 100 µs. -/
def powerMeasure (watts : Nat) : Dev → Dev := fun d0 =>
  if d0.mgmt.halted ∨ d0.mgmt.crit.isSome ∨ d0.ctime < d0.mgmt.measuredAt + 400000 then d0
  else
    let d := { d0 with mgmt := { d0.mgmt with measuredAt := d0.ctime } }
    if 3600 < watts then
      let i := d.fastest
      let c := (d.die i).ceil
      if c = 0 then d else (d.setCeil i (c - 1)).modDie i (fun x => { x with lowered := x.lowered + 1 })
    else if watts < 3420 then
      match d.lowest with
      | none => d
      | some i => (d.setCeil i (min 12 ((d.die i).ceil + 1))).modDie i (fun x => { x with lowered := x.lowered - 1 })
    else d

/-- POWER_MEASURE (R354). -/
def execPowerMeasure (watts : Nat) (s : State) : Host.Outcome State Fault Refusal := commit (upd (powerMeasure watts)) s

/-- POWER_LIMIT_THROTTLE: while the firmware is stopped, power above 3,600 W for 1 ms halves issue. -/
def powerLimit (watts : Nat) : Dev → Dev := fun d =>
  let m := d.mgmt
  let m' : Mgmt :=
    if !m.halted then m
    else if watts ≤ 3600 then { m with overSince := none }
    else
      match m.overSince with
      | none => { m with overSince := some d.ctime }
      | some t => if t + 4000000 ≤ d.ctime then { m with throttled := true } else m
  { d with mgmt := m' }

/-- POWER_LIMIT_THROTTLE (R423). -/
def execPowerLimitThrottle (watts : Nat) (s : State) : Host.Outcome State Fault Refusal := commit (upd (powerLimit watts)) s

/-- POWER_LIMIT_RELEASE (R423): power below 3,420 W ends the throttle. -/
def execPowerLimitRelease (watts : Nat) (s : State) : Host.Outcome State Fault Refusal :=
  commit (upd (fun d =>
    if watts < 3420 then { d with mgmt := { d.mgmt with throttled := false, overSince := none } } else d)) s

/-! ## Firmware (R422) -/

/-- FW_HEARTBEAT: the firmware runs, and firmware that was stopped runs again, from an image that verifies (R422), unless four
firings have left it stopped. -/
def heartbeat : Dev → Dev := fun d =>
  let m := d.mgmt
  if m.updating ∨ 4 ≤ m.firings.length ∨ (m.fwStopped ∧ d.mbox.verified = false) then d
  else
    { d with mgmt :=
      { m with heartbeat := d.ctime, fwStopped := false, throttled := if m.fwStopped then false else m.throttled,
               overSince := if m.fwStopped then none else m.overSince } }

/-- FW_HEARTBEAT (R422). -/
def execFwHeartbeat (s : State) : Host.Outcome State Fault Refusal := commit (upd heartbeat) s

/-- Every die falls to FBK (R338). -/
def allInvalid : Dev → Dev := fun d => (List.range 4).foldl (fun d i => d.setValid i false) d

/-- Ticks of an hour. -/
def hourTicks : Nat := 3600 * 4000000000

/-- WATCHDOG_EXPIRE: 10 ms without a heartbeat. The security processor restarts the firmware from the stored image. The fourth firing within an hour leaves the firmware stopped and posts
its event. -/
def watchdog : Eff := look fun s =>
  let m := s.dev.mgmt
  if m.updating ∨ 4 ≤ m.firings.length ∨ s.dev.ctime < m.heartbeat + 40000000 then skip
  else
    let fs := s.dev.ctime :: m.firings.filter (fun t => decide (s.dev.ctime < t + hourTicks))
    seqE [
      upd (fun d => allInvalid { d with
        mbox := { d.mbox with running := if d.mbox.verified then d.mbox.image else d.mbox.running },
        mgmt := { d.mgmt with firings := fs, fwStopped := true, heartbeat := d.ctime } }),
      bankRecord 114 1 none 0x91 0 0 0,
      whenE (decide (4 ≤ fs.length)) (postEvent 0 (mcEvent 114 1 0x91 0 0xFF 0 s.dev.ctime)) ]

/-- WATCHDOG_EXPIRE (R422). -/
def execWatchdogExpire (s : State) : Host.Outcome State Fault Refusal := commit watchdog s

/-! ## CRIT (R424) -/

/-- The issue-port-group bounds that differ from their reset value. -/
def Dev.portBounds (d : Dev) : List ((Nat × Nat) × Nat) := d.admbounds.filter (fun x => x.1.1 = 0)

/-- CRIT_ENTER: the record, every CEIL at OP_0, every issue-port-group bound 0, every context pre-empted urgently. -/
def critEnter (sensor : Nat) : Eff := look fun s =>
  let m := s.dev.mgmt
  if 5 ≤ sensor ∨ m.mark sensor < 2 ∨ m.crit.isSome ∨ m.railsOff then skip
  else
    seqE [
      bankRecord 115 0 none 0x92 0 0 0,
      upd (fun d => (List.range 4).foldl (fun d i => d.setCeil i 0)
        { d with
          mgmt := { d.mgmt with crit := some d.ctime, critBounds := d.portBounds },
          admbounds := d.admbounds.filter (fun x => x.1.1 ≠ 0) ++ (List.range 1024).map (fun i => ((0, i), 0)) }),
      forE (s.dev.byPrio (List.range 64)) (fun k => beginDrain k true true) ]

/-- CRIT_ENTER (R424). -/
def execCritEnter (sensor : Nat) (s : State) : Host.Outcome State Fault Refusal := commit (critEnter sensor) s

/-- A context that still drains or saves. -/
def Dev.saving (d : Dev) (k : Nat) : Bool := (d.ctx k).cstate = .draining || (d.ctx k).cstate = .saving

/-- CRIT_SAVE_LIMIT: 50 ms after CRIT the contexts not yet saved are stopped unsaved. -/
def critSaveLimit : Eff := look fun s =>
  match s.dev.mgmt.crit with
  | none => skip
  | some t =>
    if s.dev.ctime < t + 200000000 then skip
    else forE ((List.range 64).filter s.dev.saving) (fun k => contained k 110 0x94 0 0 0)

/-- CRIT_SAVE_LIMIT (R424). -/
def execCritSaveLimit (s : State) : Host.Outcome State Fault Refusal := commit critSaveLimit s

/-- Every pseudo-channel of every stack in a state. -/
def allChannels (f : PseudoChan → PseudoChan) : Dev → Dev := fun d =>
  { d with stks := d.stks.map (fun st => { st with pcs := (List.range 256).map (fun n => f (st.pc? n)) }) }

/-- The compute dies without power: what cores and clusters hold is gone; vault dies and DRAM stay. -/
def computeOff : Dev → Dev := fun d =>
  { d with
    cores := d.cores.map (fun _ => .reset), clusters := d.clusters.map (fun _ => .reset), tlbs := [], issuing := none,
    dies := d.dies.map (fun x => { Die.reset with powered := false, lowered := x.lowered }),
    mgmt := { d.mgmt with railsOff := true } }

/-- COMPUTE_RAILS_OFF: no save remains; DRAM goes into self-refresh, and the compute rails are removed. -/
def railsOff : Eff := look fun s =>
  if s.dev.mgmt.crit.isNone ∨ s.dev.mgmt.railsOff ∨ (List.range 64).any s.dev.saving ∨ s.dev.flocks ≠ [] ∨ s.dev.reqs ≠ [] ∨
      s.dev.stks.any (fun st => st.pcs.any (fun p => p.waiting ≠ [])) then skip
  else upd (fun d => computeOff (allChannels (fun p => { p with st := .selfRefresh }) d))

/-- COMPUTE_RAILS_OFF (R424). -/
def execComputeRailsOff (s : State) : Host.Outcome State Fault Refusal := commit railsOff s

/-- A cluster's failure of a self-test (R395): its record and event, and its issue-port-group bounds at 0. -/
def testFailed (cluster : Nat) (logic : Bool) : Eff := look fun s =>
  let code := if logic then 0x60 else 0x61
  seqE [
    bankRecord cluster 0 none code 0 0 0,
    postEvent 0 (mcEvent cluster 0 code 0 0xFF 0 s.dev.ctime),
    forE (List.range 16) (fun i => boundWrite 0 (16 * cluster + i) 0) ]

/-- CRIT_RECOVER: every sensor below 100 °C. The rails return, the bounds are written back, every cluster is tested, DRAM
leaves self-refresh. `failed`: bits 63:0 the clusters whose logic BIST fails, bits 127:64 those whose memory BIST fails. -/
def critRecover (failed : Nat) : Eff := look fun s =>
  if s.dev.mgmt.crit.isNone ∨ s.dev.mgmt.railsOff = false ∨ s.dev.mgmt.sensors.any (fun r => decide (800 ≤ r.2)) then skip
  else
    seqE [
      upd (fun d => allChannels (fun p => { p with st := .active, idleSince := d.ctime })
        { d with
          dies := d.dies.map (fun x => { x with powered := true, warned := true }),
          admbounds := d.admbounds.filter (fun x => x.1.1 ≠ 0) ++ d.mgmt.critBounds,
          mgmt := { d.mgmt with crit := none, critBounds := [], railsOff := false } }),
      forE (List.range 64) (fun c => vaultFlush c),
      forE ((List.range 64).filter failed.testBit) (fun c => testFailed c true),
      forE ((List.range 64).filter (fun c => failed.testBit (64 + c))) (fun c => testFailed c false),
      upd (fun d => { d with clusters := d.clusters.map (fun c => { c with lastTest := d.ctime, edgeAt := d.ctime }) }) ]

/-- CRIT_RECOVER (R424). -/
def execCritRecover (failed : Nat) (s : State) : Host.Outcome State Fault Refusal := commit (critRecover failed) s

/-! ## TRIP (R425) -/

/-- What the vaults, DRAM and local stores held is lost. -/
def losePower : Eff := look fun s =>
  seqE [
    wr (.forget :: s.sto.map (fun x => Write.drop x.key)),
    wr ((List.range 64).map (fun v => Write.wipe (.vault v) 0 (s.dev.free + v))),
    upd (fun d => { d with
      free := d.free + 64, flocks := [], reqs := [], marks := [],
      vaults := d.vaults.map (fun v => { v with lines := [], watch := [], mc := [], mcOld := [], pendSplit := [] }) }) ]

/-- THERMAL_TRIP: every rail but the always-on one goes; the fault is fatal; STAGE 1 with FAIL 4. -/
def thermalTrip (sensor : Nat) : Eff := look fun s =>
  if 5 ≤ sensor ∨ s.dev.mgmt.mark sensor ≠ 3 ∨ (s.dev.mgmt.stage = 1 ∧ s.dev.mgmt.failCode = 4) then skip
  else
    seqE [
      fatal 115 0x93 0 0 0,
      losePower,
      upd (fun d => let d := computeOff d
        { d with mgmt := { d.mgmt with crit := none, critBounds := [], stage := 1, failCode := 4, cold := true, starting := false } }) ]

/-- THERMAL_TRIP (R425). -/
def execThermalTrip (sensor : Nat) (s : State) : Host.Outcome State Fault Refusal := commit (thermalTrip sensor) s

end Sys2Proof.Machine
end

