-- ==== Sys2Proof/Machine/Repair.lean ====
section
/-! DEFINITION. The end of a contained stop, machine-check banks, scrub, self-test, vault splits and slice moves (R97, R332,
R360, R383, R387, R391-R395, R416). -/

namespace Sys2Proof.Machine

/-! ## CONTAINED_EVENT, BANK_CLEAR, PATROL_SCRUB (R383, R387, R394) -/

/-- CONTAINED_EVENT (R387): once no write of the context is in flight, the event of its stop is posted. -/
def containedEvent (k : Nat) : Eff := look fun s =>
  withE (s.dev.ctx k).stopEvt fun e =>
    if s.dev.reqs.any (fun q => q.ctx = k && q.writes && !q.performed) then skip
    else (upd (fun d => d.modCtx k (fun c => { c with stopEvt := none }))).andThen (postEvent (s.dev.queueOf k) e)

/-- CONTAINED_EVENT (R387). -/
def execContainedEvent (ctx : Nat) (s : State) : Host.Outcome State Fault Refusal := commit (containedEvent ctx) s

/-- A bank's record is cleared; its next corrected faults may reach CETHR again. -/
def clearBank (bank : Nat) : Dev → Dev := fun d =>
  if bit (d.bank bank).status.toNat 63 = false then d
  else { d with banks := d.banks.set bank .reset, mgmt := { d.mgmt with cePosted := d.mgmt.cePosted.filter (· ≠ bank) } }

/-- BANK_CLEAR (R383): a 1 written to V. -/
def execBankClear (bank : Nat) (s : State) : Host.Outcome State Fault Refusal := commit (upd (clearBank bank)) s

/-- What patrol scrub reads: DRAM and vault direct memory. -/
def scrubs (d : Dev) (g : Granule) : Bool :=
  match g with
  | .dram _ => true
  | .vault v off => decide (off < directSize (d.vault v).split)
  | _ => false

/-- PATROL_SCRUB: a word corrected is written back; one beyond correction is recorded and left. -/
def patrolScrub (g : Granule) : Eff := look fun s =>
  if bits s.dev.mgmt.mcctl.toNat 8 8 = 0 ∨ scrubs s.dev g = false then skip
  else
    forE (s.dev.marks.filter (fun m => m.1 = g)) (fun m =>
      let (bank, code, inst, addr) := markBank m.1
      if m.2 then eccRecord bank 0 none 0x22 inst addr
      else (eccRecord bank 1 none code inst addr).andThen (upd (unmark [m])))

/-- PATROL_SCRUB (R394). -/
def execPatrolScrub (g : Granule) (s : State) : Host.Outcome State Fault Refusal := commit (patrolScrub g) s

/-! ## Self-test (R391-R393, R395) -/

/-- A cluster without flocks or test, and not tested for IDLEH hours. -/
def Dev.testDue (d : Dev) (q : Nat) : Bool :=
  let c := d.cluster q
  let hours := max 1 (bits d.mgmt.mcctl.toNat 2 6)
  decide (q < 64) && d.emptyFor q && decide (c.lastTest + hours * hourTicks ≤ d.ctime)

/-- IDLE_SELFTEST (R392, R393): self-test control finds the cluster empty: the test that a request asks of it, else the
idle test, of both kinds. -/
def idleTest (q : Nat) : Eff := look fun s =>
  if s.dev.mgmt.tests.any (fun x => x.mask.testBit q) then whenE (decide (q < 64)) (testServe q)
  else if bit s.dev.mgmt.mcctl.toNat 0 && s.dev.testDue q && !s.dev.stopped then testStart q 3 false
  else skip

/-- IDLE_SELFTEST (R393). -/
def execIdleSelftest (cluster : Nat) (s : State) : Host.Outcome State Fault Refusal := commit (idleTest cluster) s

/-- The tile at the head of a run's evaluation queue has a core to go to (R299). -/
def Dev.tileSpot (d : Dev) (k : Nat) (r : Run) : Bool :=
  match r.bounds with
  | none => false
  | some b =>
    match b.queue with
    | [] => false
    | t :: _ =>
      let ids := t.ids r.kern
      decide (ids.length ≤ b.budget) && (t.flocks r).all (fun x => r.wins.all (fun w => w.met (d.ctx k) x)) &&
        (d.bestCore ((d.homes k).flatMap coresOf) r.kern ids true).isSome

/-- What of a context has a place to go to: flocks of its runs by run and index, tiles, the first of its saved herds. -/
def Dev.fitting (d : Dev) (k : Nat) : List (Nat × Option Nat) :=
  let c := d.ctx k
  if d.stopped then []
  else if c.cstate = .running then
    (c.runs.filter (fun r => !r.complete)).flatMap (fun r =>
      ((r.queue.filter (fun g => (d.spot k r g).isSome)).map (fun g => (r.num, some g))) ++
        (if d.tileSpot k r then [(r.num, none)] else []))
  else if c.cstate = .restoring then
    match c.saved with
    | [] => []
    | x :: _ => if (d.spotsBack k (c.saved.filter (sameHerd x))).isSome then [(x.flock.run, some x.flock.g)] else []
  else []

/-- A ready flock fits only a cluster under test. -/
def Dev.wants (d : Dev) (q : Nat) : Bool :=
  let d' := d.modCluster q (fun c => { c with test := none })
  (List.range 64).any (fun k => (d'.fitting k).any (fun x => x ∉ d.fitting k))

/-- SELFTEST_ABANDON: neither ENDED nor FAILED is set. -/
def abandonTest (q : Nat) : Dev → Dev := fun d =>
  match (d.cluster q).test with
  | some (_, false) => if d.wants q then d.modCluster q (fun c => { c with test := none }) else d
  | _ => d

/-- SELFTEST_ABANDON (R393). -/
def execSelftestAbandon (cluster : Nat) (s : State) : Host.Outcome State Fault Refusal := commit (upd (abandonTest cluster)) s

/-- Ticks of a test: 1.5 ms of logic BIST, 0.4 ms of memory BIST (R391). -/
def testTicks (kinds : Nat) : Nat := (if kinds.testBit 0 then 6000000 else 0) + (if kinds.testBit 1 then 1600000 else 0)

/-- ENDED and FAILED of a cluster in the summary bank (R392). -/
def testPost (q : Nat) (failed : Bool) : Dev → Dev := fun d =>
  { d with banks := d.banks.modify testBank (fun b =>
      { b with
        status := BitVec.ofNat 64 (mkStatus testBank 0 none 0x62 0 0 false), time := BitVec.ofNat 64 d.ctime,
        addr := b.addr ||| BitVec.ofNat 64 (2 ^ q),
        synd := if failed then b.synd ||| BitVec.ofNat 64 (2 ^ q) else b.synd }) }

/-- A requested test of a cluster has ended: the oldest request that names it. -/
def testMarkOff (q : Nat) : List TestReq → List TestReq
  | [] => []
  | x :: xs => if x.mask.testBit q then { x with mask := x.mask - 2 ^ q } :: xs else x :: testMarkOff q xs

/-- CLUSTER_TEST_END: the results of the kinds that ran. -/
def testEnd (q : Nat) (logicFail memFail : Bool) : Eff := look fun s =>
  let c := s.dev.cluster q
  withE c.test fun x =>
    let lf : Bool := logicFail && x.1.testBit 0
    let mf : Bool := memFail && x.1.testBit 1
    if s.dev.ctime < c.testAt + testTicks x.1 ∨ s.dev.flocks.any (fun f => clusterOf f.core = q) then skip
    else
      seqE [
        whenE lf (testFailed q true),
        whenE mf (testFailed q false),
        upd (fun d => testPost q (lf || mf) (d.modCluster q (fun c => { c with test := none, lastTest := d.ctime }))),
        whenE x.2 (upd (fun d => { d with mgmt := { d.mgmt with tests := testMarkOff q d.mgmt.tests } })),
        testAnswer ]

/-- CLUSTER_TEST_END (R392). -/
def execClusterTestEnd (cluster : Nat) (logicFail memFail : Bool) (s : State) : Host.Outcome State Fault Refusal :=
  commit (testEnd cluster logicFail memFail) s

/-! ## SPLIT_CHANGE (R97) -/

/-- SPLIT_CHANGE: the slice is flushed, the new split takes effect, bytes that pass to direct memory are undefined, and
the writing thread goes on. -/
def splitChange (v : Nat) : Eff := look fun s =>
  let x := s.dev.vault v
  match x.pendSplit with
  | [] => skip
  | (r, p) :: rest =>
    let go : Eff := seqE [
      vaultFlush v,
      upd (fun d => d.modVault v (fun x => { x with split := p })),
      whenE (decide (directSize x.split < directSize p)) ((wr [.wipe (.vault v) (directSize x.split) s.dev.free]).andThen (upd Dev.fresh)) ]
    (if p = x.split then skip else go).andThen
      (upd (fun d => (d.modVault v (fun x => { x with pendSplit := rest })).modThread r (fun th =>
        if th.wait = .unit then { th with wait := .none, waited := 0 } else th)))

/-- SPLIT_CHANGE (R97). -/
def execSplitChange (vault : Nat) (s : State) : Host.Outcome State Fault Refusal := commit (splitChange vault) s

/-! ## Slice moves (R332, R360, R416) -/

/-- MOVECMD refuses. -/
def moveRefuse : Dev → Dev := fun d => { d with move := { d.move with refused := true } }

/-- A start: S′ passes to the owner of S, and copying begins. -/
def moveStart (val : Nat) : Dev → Dev := fun d =>
  let src := bits val 0 9
  let dst := bits val 9 9
  if d.move.stat ≠ 0 ∨ d.owner dst ≠ 0xFF ∨ src = dst ∨ d.stopped then moveRefuse d
  else
    { d with
      slown := aset d.slown dst (d.owner src),
      move := { d.move with stat := 1, refused := false, src := src, dst := dst, owner := bits val 18 4, moved := 0 } }

/-- MOVE_START (R332, R360). -/
def execMoveStart (val : Nat) (s : State) : Host.Outcome State Fault Refusal :=
  commit (upd (fun d => if bit val 63 then moveStart val d else d)) s

/-- A place as requests to it are redirected. -/
def Dev.movedLoc (d : Dev) : Loc → Loc
  | .dram pa => .dram (d.redirect pa)
  | .mxel base fmt off => .mxel (d.redirect base) fmt off
  | l => l

/-- Watch entries go to S′, into the table of the slice that now holds their bytes; a full table wakes at once (R102, R332). -/
def rekey : Eff := (upd (fun d => { d with vaults := d.vaults.map (fun x =>
    { x with watch := x.watch.map (fun e => { e with loc := d.movedLoc e.loc }) }) })).andThen <| look fun s =>
  let gone := (List.range 64).flatMap (fun v => ((s.dev.vault v).watch.filter (fun e => s.dev.watchHome e.loc ≠ v)))
  (upd (fun d => { d with vaults := d.vaults.mapIdx (fun v x => { x with watch := x.watch.filter (fun e => d.watchHome e.loc = v) }) })).andThen
    (forE gone (fun e => look fun s =>
      let h := s.dev.watchHome e.loc
      if 128 ≤ (s.dev.vault h).watch.length then
        whenE e.ref.isSome (upd (wake e (s.point e.loc e.n)))
      else upd (fun d => d.modVault h (fun x => { x with watch := x.watch ++ [e] }))))

/-- The lines of a page. -/
def pageLines (slice page : Nat) : List Nat := (List.range 512).map (fun i => slice * 2 ^ 23 + page * 512 + i)

/-- The copy of a line of S to S′: a line beyond correction takes the uncorrectable pattern there, and is recorded. -/
def copyLine (src dst ln : Nat) : Eff := look fun s =>
  let pa := ln * 128
  let to_ := pa - src * 2 ^ 30 + dst * 2 ^ 30
  let bad := (s.dev.marksOn (.dram pa) 128).filter (·.2)
  let fixed := (s.dev.marksOn (.dram pa) 128).filter (fun m => !m.2)
  seqE [
    forE fixed (fun m =>
      let (bank, code, inst, addr) := markBank m.1
      (eccRecord bank 1 none code inst addr).andThen (upd (unmark [m]))),
    upd (fun d => d.dropLine (to_ / 128)),
    wr (memWrites to_ (Memory.reads s.mem pa 128)),
    upd (fun d => unmark (d.marks.filter (fun m => match m.1 with
      | .dram g => decide (g / 128 = to_ / 128)
      | _ => false)) d),
    whenE (!bad.isEmpty) ((upd (fun d => { d with marks := d.marks ++ [(.dram to_, true), (.dram (to_ + 64), true)] })).andThen
      (eccRecord (64 + stackOf pa) 0 none 0x24 0 (BitVec.ofNat 64 pa))) ]

/-- MOVE_PAGE_COPY: the slices give up the next page's lines, the copier copies it, and the page is moved. -/
def movePage : Eff := look fun s =>
  let m := s.dev.move
  if m.stat ≠ 1 ∨ s.dev.stopped then skip
  else
    let ls := pageLines m.src m.moved
    seqE [
      forE ls flushLine,
      forE ls (copyLine m.src m.dst),
      upd (fun d => { d with move := { d.move with moved := m.moved + 1, stat := if m.moved + 1 = 16384 then 2 else 1 } }),
      rekey ]

/-- MOVE_PAGE_COPY (R332). -/
def execMovePageCopy (s : State) : Host.Outcome State Fault Refusal := commit movePage s

/-- An end: the L1 lines of S go, forwarding is cleared, S passes to its new owner. -/
def moveEnd : Eff := look fun s =>
  let m := s.dev.move
  if m.stat ≠ 2 then upd moveRefuse
  else
    (upd (fun d =>
      { d with
        cores := d.cores.map (fun c => { c with l1 := c.l1.filter (fun l => l.line / 2 ^ 23 ≠ m.src) }),
        slown := aset d.slown m.src m.owner,
        move := { d.move with stat := 0, refused := false } })).andThen
      (devEvent 8 (BitVec.ofNat 64 m.src) (BitVec.ofNat 64 m.owner))

/-- MOVE_END (R332, R360). -/
def execMoveEnd (val : Nat) (s : State) : Host.Outcome State Fault Refusal :=
  commit (if bit val 62 && !bit val 63 then moveEnd else skip) s

/-- A write of MOVECMD. -/
def moveCmd (val : Nat) : Eff := if bit val 63 then upd (moveStart val) else if bit val 62 then moveEnd else skip

end Sys2Proof.Machine
end

