-- ==== Sys2Proof/Machine/HostIf.lean ====
section
/-! DEFINITION. The host interface: context pages, event queues, device registers, the mailbox registers, the DRAM window,
the PCI Express link (R5, R6, R303, R355, R356, R358-R360, R365, R371, R381-R385, R397, R430). -/

namespace Sys2Proof.Machine

/-! ## Register writes byte by byte (R5) -/

/-- A write of `width` bytes at an offset. -/
structure RegWrite where
  off : Nat
  width : Nat
  val : Nat
  deriving DecidableEq, Repr

/-- The write reaches a register of `n` bytes at `at_`. -/
def RegWrite.hits (w : RegWrite) (at_ n : Nat) : Bool := decide (w.off < at_ + n ∧ at_ < w.off + w.width)

/-- The register's value after the write, from the value before. -/
def RegWrite.over (w : RegWrite) (at_ n old : Nat) : Nat :=
  leNat ((List.range n).map (fun i =>
    let a := at_ + i
    if w.off ≤ a ∧ a < w.off + w.width then BitVec.ofNat 8 (bits w.val (8 * (a - w.off)) 8) else BitVec.ofNat 8 (bits old (8 * i) 8)))

/-- An RW register: its place, its width, its value, what a write makes of it. -/
structure RegDef (α : Type) where
  at_ : Nat
  n : Nat
  get : α → Nat
  set : Nat → α → α

/-- A write applied to a list of registers. -/
def applyRegs {α : Type} (rs : List (RegDef α)) (w : RegWrite) (x : α) : α :=
  rs.foldl (fun x r => if w.hits r.at_ r.n then r.set (w.over r.at_ r.n (r.get x)) x else x) x

/-! ## Context pages (R356) -/

def w64 (n : Nat) : W64 := BitVec.ofNat 64 n
def w32 (n : Nat) : W32 := BitVec.ofNat 32 n

/-- The registers that every function may write. -/
def ctxRegs : List (RegDef CtxRegs) :=
  [ ⟨0x040, 8, (·.ptroot.toNat), fun v c => { c with ptroot := w64 v }⟩,
    ⟨0x048, 8, (·.stkbase.toNat), fun v c => { c with stkbase := w64 v }⟩,
    ⟨0x050, 4, (·.vwbase.toNat), fun v c => { c with vwbase := w32 v }⟩,
    ⟨0x054, 4, (·.vwsize.toNat), fun v c => { c with vwsize := w32 v }⟩,
    ⟨0x058, 8, (·.sqbase.toNat), fun v c => { c with sqbase := w64 v }⟩,
    ⟨0x060, 4, (·.sqlog.toNat), fun v c => { c with sqlog := w32 v }⟩,
    ⟨0x068, 8, (·.csave.toNat), fun v c => { c with csave := w64 v }⟩,
    ⟨0x070, 4, (·.csavesz.toNat), fun v c => { c with csavesz := w32 v }⟩,
    ⟨0x074, 4, (·.drainlim.toNat), fun v c => { c with drainlim := w32 v }⟩,
    ⟨0x080, 8, (·.grpbase.toNat), fun v c => { c with grpbase := w64 v }⟩,
    ⟨0x088, 8, (·.expbase.toNat), fun v c => { c with expbase := w64 v }⟩,
    ⟨0x090, 8, (·.expsize.toNat), fun v c => { c with expsize := w64 v }⟩,
    ⟨0x098, 8, (·.rankbase.toNat), fun v c => { c with rankbase := w64 v }⟩,
    ⟨0x0A0, 4, (·.rankcnt.toNat), fun v c => { c with rankcnt := w32 v }⟩ ]

/-- The registers that only PF_0 writes. -/
def ctxPfRegs : List (RegDef CtxRegs) :=
  [ ⟨0x078, 4, (·.vdev.toNat), fun v c => { c with vdev := w32 v }⟩,
    ⟨0x07C, 4, (·.prio.toNat), fun v c => { c with prio := w32 v }⟩,
    ⟨0x0B0, 8, (·.trapvec.toNat), fun v c => { c with trapvec := w64 v }⟩,
    ⟨0x0B8, 8, (·.trapveca.toNat), fun v c => { c with trapveca := w64 v }⟩ ]

/-- A write in the page of context `k`. -/
def pageWrite (f : Fn) (k : Nat) (w : RegWrite) : Eff := look fun s =>
  if s.dev.mayAct f k = false then skip
  else if w.hits 0 4 then sqTail f k (w.over 0 4 (s.dev.ctx k).sqtail)
  else if w.hits 8 4 then ctxCmd f k (w.over 8 4 0)
  else
    let rs := match f with
      | .pf => ctxRegs ++ ctxPfRegs
      | .vf _ => ctxRegs
    upd (fun d => d.modCtx k (fun c => { c with regs := applyRegs rs w c.regs }))

/-! ## Event queues (R358, R359) -/

/-- The queue of a function. -/
def queueNum : Fn → Nat
  | .pf => 0
  | .vf v => v + 1

/-- Whether a function reaches its event-queue registers. -/
def Dev.reaches (d : Dev) (f : Fn) : Bool :=
  d.mgmt.stage = 4 && d.mgmt.linkUp && (match f with
    | .pf => true
    | .vf v => decide (v < 16))

/-- The start-stage event goes out once EQLOG of PF_0 is non-zero (R367). -/
def startEvent : Eff := look fun s =>
  if s.dev.mgmt.startEvt ∧ (s.dev.queue 0).log ≠ 0 then
    (upd (fun d => { d with mgmt := { d.mgmt with startEvt := false } })).andThen (devEvent 6 4 0)
  else skip

/-- EQBASE: the ring, and EQLOST cleared. -/
def eqBase (f : Fn) (val : Nat) : Eff := look fun s =>
  if s.dev.reaches f = false then skip
  else (upd (fun d => d.modQueue (queueNum f) (fun q => { q with base := w64 val, lost := 0 }))).andThen deliverAll

/-- EQLOG takes any value (R5); EQTAIL is kept within the ring of an enabled queue (log 40). -/
def eqLog (f : Fn) (val : Nat) : Eff := look fun s =>
  if s.dev.reaches f = false then skip
  else
    (upd (fun d => d.modQueue (queueNum f) (fun q =>
      { q with log := w32 val, tail := if 4 ≤ val ∧ val ≤ 16 then q.tail % 2 ^ val else q.tail }))).andThen (deliverAll.andThen startEvent)

/-- EQHEAD: ring room, and held events. -/
def eqHead (f : Fn) (val : Nat) : Eff := look fun s =>
  if s.dev.reaches f = false then skip
  else
    (upd (fun d => d.modQueue (queueNum f) (fun q => { q with head := val % 2 ^ 32 }))).andThen deliverAll

/-- EQBASE (R358). -/
def execEqbase (f : Fn) (val : Nat) (s : State) : Host.Outcome State Fault Refusal := commit (eqBase f val) s
/-- EQLOG (R359). -/
def execEqlog (f : Fn) (val : Nat) (s : State) : Host.Outcome State Fault Refusal := commit (eqLog f val) s
/-- EQHEAD (R359). -/
def execEqhead (f : Fn) (val : Nat) (s : State) : Host.Outcome State Fault Refusal := commit (eqHead f val) s

/-- A write in a function's event-queue registers. -/
def queueWrite (f : Fn) (w : RegWrite) : Eff := look fun s =>
  let q := s.dev.queue (queueNum f)
  seqE [
    whenE (w.hits 0x00 8) (eqBase f (w.over 0x00 8 q.base.toNat)),
    whenE (w.hits 0x08 4) (eqLog f (w.over 0x08 4 q.log.toNat)),
    whenE (w.hits 0x10 4) (eqHead f (w.over 0x10 4 q.head)) ]

/-! ## Device registers of PF_0 (R360, R365, R381-R385) -/

/-- Bytes `lo` to `lo + n - 1` of the write that fall in a region, as offsets from `lo` and values. -/
def RegWrite.bytesIn (w : RegWrite) (lo n : Nat) : List (Nat × Nat) :=
  (List.range w.width).filterMap (fun i =>
    if lo ≤ w.off + i ∧ w.off + i < lo + n then some (w.off + i - lo, bits w.val (8 * i) 8) else none)

/-- SLOWN: a slice that a move names keeps its owner. -/
def slownWrite (d : Dev) (x : Nat × Nat) : Dev :=
  if d.move.stat ≠ 0 ∧ (x.1 = d.move.src ∨ x.1 = d.move.dst) then d else { d with slown := aset d.slown x.1 x.2 }

/-- RW registers of the device region. -/
def devRegs : List (RegDef Dev) :=
  (List.range 16).map (fun v =>
    ⟨8 * v, 8, fun d => (d.vdclus[v]?.getD 0).toNat, fun x d => { d with vdclus := d.vdclus.set v (w64 x) }⟩) ++
  [ ⟨0x410, 8, (·.winbase.toNat), fun x d => { d with winbase := w64 x }⟩,
    ⟨0xA08, 4, (·.mgmt.mcctl.toNat), fun x d => { d with mgmt := { d.mgmt with mcctl := w32 (x &&& 0xFFFFFFFD) } }⟩ ] ++
  (List.range 8).map (fun h =>
    ⟨0x800 + 4 * h, 4, fun d => (d.stk h).sridle, fun x d => d.modStk h (fun st => { st with sridle := x % 65536 })⟩)

/-- ROUTETBL: the bits that R360 and R427 define; a one written to bits 14:9, which must be 0, is dropped (DESIGN CHOICE,
log 68). -/
def routeWrite (w : RegWrite) (d : Dev) : Dev :=
  let first := (w.off - 0x1000) / 2
  (List.range (w.width / 2 + 1)).foldl (fun d i =>
    let at_ := 0x1000 + 2 * (first + i)
    if w.hits at_ 2 ∧ first + i < 4096 ∧ 0x1000 ≤ w.off then
      { d with routetbl := aset d.routetbl (first + i) (w.over at_ 2 (d.routeOf (first + i)) &&& 0x81FF) }
    else d) d

/-- W1C of V in the banks' STATUS words. -/
def bankWrite (w : RegWrite) (d : Dev) : Dev :=
  (List.range 128).foldl (fun d i =>
    let at_ := 0xA000 + 64 * i
    if w.hits at_ 8 && bit (w.over at_ 8 0) 63 then clearBank i d else d) d

/-- A write in the device region. -/
def devWrite (w : RegWrite) : Eff := look fun s =>
  if s.dev.mgmt.stage = 0 then skip
  else
    (upd (fun d => bankWrite w (routeWrite w ((w.bytesIn 0x100 0x200).foldl slownWrite (applyRegs devRegs w d))))).andThen
      (whenE (w.hits 0x400 8) (moveCmd (w.over 0x400 8 0)))

/-! ## The mailbox registers (R371) -/

/-- MBSTAT. -/
def Mailbox.stat (m : Mailbox) : Nat := m.err * 16 + m.state

/-- A command ends: DONE with an error code, and its event. -/
def mbDone (err : Nat) : Eff :=
  (upd (fun d => { d with mbox := { d.mbox with state := 2, err := err } })).andThen (look fun s =>
    devEvent 7 (BitVec.ofNat 64 s.dev.mbox.stat) 0)

/-- A write of MBCMD: refused while BUSY, ended at once if unknown or not available, else BUSY. While FWEND writes, the power
controller's firmware is stopped and TVALID is 0 (R369). -/
def mbCommand (cmd : Nat) : Eff := look fun s =>
  let m := s.dev.mbox
  if s.dev.mgmt.stage = 0 then skip
  else if m.state = 1 then upd (fun d => { d with mbox := { d.mbox with err := 3 } })
  else if cmd = 0 ∨ 9 < cmd then mbDone 1
  else if 8 ≤ cmd ∧ s.dev.mgmt.stage ≠ 4 then mbDone 4
  else
    let start : Eff := upd (fun d => { d with mbox := { d.mbox with state := 1, err := 0, cmd := cmd } })
    if cmd = 5 ∧ m.upSize = some m.upData.length ∧ imageOk m.upData then
      start.andThen (upd (fun d => allInvalid { d with mgmt := { d.mgmt with updating := true } }))
    else start

/-- A write in the mailbox region: MBCMD, MBDATA. -/
def mbWrite (w : RegWrite) : Eff :=
  (upd (fun d =>
    if d.mgmt.stage = 0 then d
    else
      { d with mbox := { d.mbox with
          data := (w.bytesIn 0x1000 0x1000).foldl (fun l x => aset l x.1 (BitVec.ofNat 8 x.2)) d.mbox.data } })).andThen
    (whenE (w.hits 0 2) (mbCommand (w.over 0 2 0)))

/-! ## The MSI-X table (R355, log 48) -/

/-- The registers of a function's one vector. -/
def msiRegs : List (RegDef EvQueue) :=
  [ ⟨0, 8, (·.msiAddr.toNat), fun v q => { q with msiAddr := w64 v }⟩,
    ⟨8, 4, (·.msiData.toNat), fun v q => { q with msiData := w32 v }⟩,
    ⟨12, 4, (·.msiMask.toNat), fun v q => { q with msiMask := bit v 0 }⟩ ]

/-- A pending message goes out when its vector is no longer masked. -/
def EvQueue.unmasked (q : EvQueue) : EvQueue := if q.msiPend && !q.msiMask then q.signal else q

/-- A write in the MSI-X table. -/
def msiWrite (f : Fn) (w : RegWrite) : Eff := look fun s =>
  let ok : Bool := match f with
    | .pf => s.dev.mgmt.stage ≠ 0
    | .vf v => v < 16 && s.dev.mgmt.stage ≠ 0
  whenE ok (upd (fun d => d.modQueue (queueNum f) (fun q => (applyRegs msiRegs w q).unmasked)))

/-! ## REGISTER_WRITE (R5, R355, R367) -/

/-- A write in BAR 0 of a function. -/
def registerWrite (f : Fn) (off width val : Nat) : Eff := look fun s =>
  let w (base : Nat) : RegWrite := ⟨off - base, width, val⟩
  if s.dev.mgmt.linkUp = false ∨ (width ≠ 1 ∧ width ≠ 2 ∧ width ≠ 4 ∧ width ≠ 8) then skip
  else if off < 0x40000 then pageWrite f (off / 0x1000) ⟨off % 0x1000, width, val⟩
  else if off < 0x50000 then queueWrite f (w 0x40000)
  else if 0x70000 ≤ off then whenE (decide (off < 0x80000)) (msiWrite f (w 0x70000))
  else
    match f with
    | .vf _ => skip
    | .pf =>
      if off < 0x60000 then mbWrite (w 0x50000)
      else devWrite (w 0x60000)

/-- REGISTER_WRITE (R5). -/
def execRegisterWrite (f : Fn) (off width val : Nat) (s : State) : Host.Outcome State Fault Refusal :=
  commit (registerWrite f off width val) s

/-! ## What the host reads in BAR 0 (R5, R355, R356, R358, R360, R367, R371, R373, R382) -/

/-- A readable field: its place, its bytes, its value. -/
abbrev Field := Nat × Nat × Nat

/-- A byte of a region from the fields there; what no field covers, a WO register among it, reads as zero. -/
def fieldByte (fs : List Field) (o : Nat) : Byte :=
  match fs.find? (fun x => decide (x.1 ≤ o ∧ o < x.1 + x.2.1)) with
  | some x => BitVec.ofNat 8 (bits x.2.2 (8 * (o - x.1)) 8)
  | none => 0

/-- The fields of a register list. -/
def readRegs {α : Type} (rs : List (RegDef α)) (x : α) : List Field := rs.map (fun r => (r.at_, r.n, r.get x))

/-- The fields of a context page: CTXCMD is WO. -/
def Ctx.page (c : Ctx) : List Field :=
  [(0, 4, c.sqtail), (4, 4, c.sqhead), (0xC, 4, c.cstate.num)] ++ readRegs (ctxRegs ++ ctxPfRegs) c.regs

/-- The fields of a function's event-queue registers: EQLOST reads 0 in a VF. -/
def EvQueue.page (q : EvQueue) (f : Fn) : List Field :=
  [(0, 8, q.base.toNat), (8, 4, q.log.toNat), (0xC, 4, q.tail), (0x10, 4, q.head),
    (0x14, 4, match f with
      | .pf => q.lost.toNat
      | .vf _ => 0)]

/-- The fields of a function's MSI-X table and pending bits. -/
def EvQueue.msix (q : EvQueue) : List Field := readRegs msiRegs q ++ [(0x800, 8, q.msiPend.toNat)]

/-- STARTSTAT. -/
def Mgmt.startstat (m : Mgmt) : Nat := m.failCode * 2 ^ 8 + m.cold.toNat * 2 ^ 4 + m.stage

/-- MOVESTAT. -/
def Move.read (m : Move) : Nat := if m.refused then 3 else m.stat

/-- A byte of the device region. -/
def Dev.devByte (d : Dev) (o : Nat) : Byte :=
  if 0x100 ≤ o ∧ o < 0x300 then BitVec.ofNat 8 (d.owner (o - 0x100))
  else if 0x1000 ≤ o ∧ o < 0x3000 then BitVec.ofNat 8 (bits (d.routeOf ((o - 0x1000) / 2)) (8 * (o % 2)) 8)
  else if 0xA000 ≤ o ∧ o < 0xC000 then
    let b := d.bank ((o - 0xA000) / 64)
    fieldByte [(0, 8, b.status.toNat), (8, 8, b.addr.toNat), (16, 8, b.synd.toNat), (24, 8, b.time.toNat)] (o % 64)
  else
    fieldByte ([(0x408, 4, d.move.read), (0xA00, 4, d.mgmt.startstat)] ++
      (List.range 8).map (fun h => (0x800 + 4 * h, 4, (d.stk h).trn * 65536 + (d.stk h).sridle)) ++ readRegs devRegs d) o

/-- A byte of the mailbox region: MBCMD is WO. -/
def Mailbox.byte (m : Mailbox) (o : Nat) : Byte :=
  if 0x1000 ≤ o ∧ o < 0x2000 then (aget m.data (o - 0x1000)).getD 0 else fieldByte [(4, 4, m.stat)] o

/-- A byte of a function's BAR 0 as the host reads it: context pages and event-queue registers read as zero before stage 4,
and pages that the function may not reach. -/
def Dev.barByte (d : Dev) (f : Fn) (a : Nat) : Byte :=
  if a < 0x40000 then if d.mayAct f (a / 0x1000) then fieldByte (d.ctx (a / 0x1000)).page (a % 0x1000) else 0
  else if a < 0x50000 then if d.reaches f then fieldByte ((d.queue (queueNum f)).page f) (a - 0x40000) else 0
  else if 0x70000 ≤ a then if a < 0x80000 then fieldByte (d.queue (queueNum f)).msix (a - 0x70000) else 0
  else
    match f with
    | .vf _ => 0
    | .pf => if a < 0x60000 then d.mbox.byte (a - 0x50000) else d.devByte (a - 0x60000)

/-- The host reads `n` bytes of BAR 0; over a link that is down, or before stage 1, no answer comes. -/
def Dev.barRead (d : Dev) (f : Fn) (off n : Nat) : HostAns :=
  if d.mgmt.stage = 0 ∨ d.mgmt.linkUp = false then .none
  else .data ((List.range n).map (fun i => d.barByte f (off + i)))

/-- A read by the host leaves its answer. -/
def hostRead (f : Fn) (off n : Nat) : Eff := upd (fun d => { d with answer := d.barRead f off n })

/-- The host or another requester writes host memory (R268). -/
def hostStore (pa : Nat) (bs : List Byte) : Eff :=
  wr (bs.zipIdx.filterMap (fun (b, i) => if inHost (pa + i) then some (.mem (pa + i) b) else none))

/-! ## The DRAM window (R268, R331, R355) -/

/-- A function reaches a slice through its window. -/
def Dev.windowOk (d : Dev) (f : Fn) (pa : Nat) : Bool :=
  inDram pa && (match f with
    | .pf => true
    | .vf v => decide (d.owner (pa / 2 ^ 30) = v))

/-- What a read through the window answers: Completer Abort where a part is beyond correction (R378), else the bytes, zero in
slices that the function may not reach. -/
def State.windowRead (s : State) (f : Fn) (base n : Nat) : HostAns :=
  let segs := lineSegs base n
  if segs.any (fun x => s.dev.windowOk f x.1 && s.dev.eccBad (.dram x.1) x.2) then .abort
  else .data (segs.flatMap (fun x => if s.dev.windowOk f x.1 then s.point (.dram x.1) x.2 else List.replicate x.2 0))

/-- HOST_WINDOW_ACCESS: a write, or a read of `n` bytes, at the home slices of the lines; parts that the function may not
reach are ignored. Before stage 4 the window reads as zero (R367). -/
def hostWindow (f : Fn) (off : Nat) (data : Option (List Byte)) (n : Nat) : Eff := look fun s =>
  let size := (data.map List.length).getD n
  if s.dev.mgmt.linkUp = false ∨ 2 ^ 34 < off + size then skip
  else if s.dev.reaches f = false then
    whenE data.isNone (upd (fun d => { d with answer := .data (List.replicate n 0) }))
  else
    let base := s.dev.winbase.toNat + off
    (whenE data.isNone (upd (fun d => { d with answer := s.windowRead f base n }))).andThen <|
    forE (lineSegs base size) (fun x => look fun s =>
      if s.dev.windowOk f x.1 = false then skip
      else
        match data with
        | some bs =>
          (eccWrite (.dram x.1) x.2).andThen (lineWrite Who.unit .plain x.1 ((bs.drop (x.1 - base)).take x.2))
        | none =>
          let (r, k) := s.dev.fillRange (.dram x.1) x.2 false
          (eccRead none r k).andThen (if s.dev.eccBad r k then skip else sliceReadE Who.unit x.1))

/-- HOST_WINDOW_ACCESS (R355). -/
def execHostWindowAccess (f : Fn) (off : Nat) (data : Option (List Byte)) (n : Nat) (s : State) :
    Host.Outcome State Fault Refusal := commit (hostWindow f off data n) s

/-! ## The PCI Express link (R430) -/

/-- PCIE_LINK_DOWN (R430). -/
def execPcieLinkDown (s : State) : Host.Outcome State Fault Refusal :=
  commit (look fun s =>
    if s.dev.mgmt.linkUp then
      (upd (fun d => { d with mgmt := { d.mgmt with linkUp := false } })).andThen (bankRecord 108 0 none 0x36 0 0 0)
    else skip) s

/-- PCIE_LINK_UP (R430). -/
def execPcieLinkUp (s : State) : Host.Outcome State Fault Refusal :=
  commit ((upd (fun d => { d with mgmt := { d.mgmt with linkUp := true } })).andThen deliverAll) s

end Sys2Proof.Machine
end

