-- ==== Sys2Proof/Machine/Integer.lean ====
section
/-! DEFINITION. The integer and address instructions (R185-R192). -/

namespace Sys2Proof.Machine

/-! ## Operations on exact integers -/

def addOp : IntOp := ⟨fun a b _ => a + b, fun a b _ => a.add b⟩
def subOp : IntOp := ⟨fun a b _ => a - b, fun a b _ => a.sub b⟩
def mulOp : IntOp := ⟨fun a b _ => a * b, fun a b _ => a.mul b⟩
/-- The high half, rounded toward −∞ (R186). -/
def mulhOp (w : Nat) : IntOp :=
  ⟨fun a b _ => a * b / (2 ^ w : Nat), fun a b _ => ((a.mul b).1 / (2 ^ w : Nat), (a.mul b).2 / (2 ^ w : Nat))⟩
def madOp : IntOp := ⟨fun a b c => a * b + c, fun a b c => (a.mul b).add c⟩
def minOp : IntOp := ⟨fun a b _ => min a b, fun a b _ => (min a.1 b.1, min a.2 b.2)⟩
def maxOp : IntOp := ⟨fun a b _ => max a b, fun a b _ => (max a.1 b.1, max a.2 b.2)⟩
def absOp : IntOp := ⟨fun a _ _ => a.natAbs, fun a _ _ => a.abs⟩
/-- Absolute difference plus C (R186). -/
def sadOp : IntOp := ⟨fun a b c => (a - b).natAbs + c, fun a b c => (a.sub b).abs.add c⟩

/-- The elementwise meaning under the word's VAR; `sat` when MOD may saturate. -/
def intM (o : ITy → IntOp) (raw : Bool := false) : Meaning := fun v =>
  intOp (o (ity v.h.var)) (ity v.h.var) (v.h.mod = 1) raw v

def mIadd : Meaning := intM (fun _ => addOp)
def mIsub : Meaning := intM (fun _ => subOp)
def mImul : Meaning := intM (fun _ => mulOp)
def mImulh : Meaning := intM (fun t => mulhOp t.w)
def mImad : Meaning := intM (fun _ => madOp)
def mImin : Meaning := intM (fun _ => minOp)
def mImax : Meaning := intM (fun _ => maxOp)
def mIabs : Meaning := intM (fun _ => absOp)

/-- ISAD (R186): packed types add every element's difference to one .n32 accumulator. -/
def mIsad : Meaning := fun v =>
  let t := ity v.h.var
  if v.h.var < 4 then intOp sadOp t false false v
  else
    let a := v.raw v.b.va 1
    let b := v.raw v.b.vb 1
    let c := v.raw v.b.vc 1
    let n32 := ity 1
    if v.th.intv then
      let d (i : Nat) : Ext :=
        ((t.ext (a.lo >>> (t.w * i)) (a.hi >>> (t.w * i))).sub (t.ext (b.lo >>> (t.w * i)) (b.hi >>> (t.w * i)))).abs
      let e := n32.fit false (((List.range t.k).map d).foldl Ext.add (n32.ext c.lo c.hi))
      v.putRaw 1 ⟨wrap 32 e.1, wrap 32 e.2, false⟩
    else
      let d (i : Nat) : Int := (t.val (a.lo >>> (t.w * i)) - t.val (b.lo >>> (t.w * i))).natAbs
      v.putRaw 1 (Raw.of (wrap 32 (((List.range t.k).map d).foldl (· + ·) (c.lo : Int))))

/-- IADDC (R186). LIT of the 64-bit form extends by sign, as a raw operand does (DESIGN CHOICE, log 74). -/
def mIaddc : Meaning := both
  (fun v =>
    let t := ity v.h.var
    let n := t.regs
    let cin := if bit v.h.mod 0 && v.p v.b.vc == .t then 1 else 0
    let s := v.srcN n v.b.va + v.srcN n v.b.vb + cin
    v.put (fun th =>
      let th := th.wrN n v.b.vd s
      if bit v.h.mod 1 then th.setPred v.b.vc.num (Tri.ofBool (2 ^ t.w ≤ s)) else th))
  noneRule

/-- IMADW (R186, R192): 32-bit A and B, 64-bit C and D. -/
def mImadw : Meaning := fun v =>
  let t := ity v.h.var
  let t64 := ity (v.h.var + 2)
  let a := v.raw v.b.va 1
  let b := v.raw v.b.vb 1
  let c := v.raw v.b.vc 2 (if t.sg then .sign else .zero)
  v.putRaw 2
    (if v.th.intv then
      let e := t64.fit false (((t.ext a.lo a.hi).mul (t.ext b.lo b.hi)).add (t64.ext c.lo c.hi))
      ⟨wrap 64 e.1, wrap 64 e.2, false⟩
    else Raw.of (wrap 64 (t.val a.lo * t.val b.lo + t64.val c.lo)))

/-! ## Logic, shifts, bit fields (R187, R188) -/

/-- A bitwise instruction of two sources on raw bits. -/
def logicM (f : Nat → Nat → Nat → Nat) : Meaning := fun v =>
  let t := ity v.h.var
  let n := t.regs
  monoOp v n [v.raw v.b.va n, v.rawB n .sign false] t.fullRaw
    (fun l => f t.w (l[0]?.getD 0) (l[1]?.getD 0))

def mAnd : Meaning := logicM (fun _ a b => a &&& b)
def mOr : Meaning := logicM (fun _ a b => a ||| b)
def mXor : Meaning := logicM (fun _ a b => a ^^^ b)
def mAndn : Meaning := logicM (fun w a b => a &&& ((2 ^ w - 1) ^^^ (b % 2 ^ w)))

/-- Bits `0` to `w - 1` by a function. -/
def ofBits (w : Nat) (f : Nat → Bool) : Nat :=
  (List.range w).foldr (fun i x => (if f i then 2 ^ i else 0) + x) 0

/-- LOGT (R187). -/
def mLogt : Meaning := fun v =>
  let t := ity v.h.var
  let n := t.regs
  let tab := v.b.vc.num
  monoOp v n [v.raw v.b.vd n, v.raw v.b.va n, v.raw v.b.vb n] t.fullRaw (fun l =>
    let d := l[0]?.getD 0
    let a := l[1]?.getD 0
    let b := l[2]?.getD 0
    ofBits t.w (fun i => tab.testBit (4 * (bit d i).toNat + 2 * (bit b i).toNat + (bit a i).toNat)))

/-- Shifts of a value by `n` (R187). -/
def shlVal (w n : Nat) (a : Int) : Int := if n < w then a * (2 ^ n : Nat) else 0
def shrVal (w n : Nat) (a : Int) : Int := if n < w then a / (2 ^ n : Nat) else 0
def shraVal (w n : Nat) (a : Int) : Int := if n < w then a / (2 ^ n : Nat) else if a < 0 then -1 else 0

/-- A shift by B read as .n32, or by IMM (R187, R192). -/
def shiftM (f : Nat → Nat → Int → Int) : Meaning := fun v =>
  let t := ity v.h.var
  let n := t.regs
  let a := v.raw v.b.va n
  let b := v.rawB 1 .zero false
  if v.th.intv then
    if b.pt then
      let e := t.ext a.lo a.hi
      let r := t.fit false (f t.w b.lo e.1, f t.w b.lo e.2)
      v.putRaw n ⟨wrap t.w r.1, wrap t.w r.2, false⟩
    else v.putRaw n t.fullRaw
  else v.putRaw n (Raw.of (wrap t.w (f t.w b.lo (t.val a.lo))))

def mShl : Meaning := shiftM shlVal
def mShr : Meaning := shiftM shrVal
def mShra : Meaning := shiftM shraVal

/-- Rotation left (R187). -/
def rotl (w m a : Nat) : Nat := (a <<< (m % w) ||| a >>> (w - m % w)) % 2 ^ w

def mRotl : Meaning := fun v =>
  let t := ity v.h.var
  let n := t.regs
  monoOp v n [v.raw v.b.va n, v.rawB 1 .zero false] t.fullRaw
    (fun l => rotl t.w (l[1]?.getD 0) (l[0]?.getD 0))

/-- FUNNEL (R187): Concat(A, B) has A above B. -/
def mFunnel : Meaning := fun v =>
  monoOp v 1 [v.raw v.b.va 1, v.raw v.b.vb 1, v.raw v.b.vc 1] (ity 1).fullRaw (fun l =>
    let y := l[0]?.getD 0 * 2 ^ 32 + l[1]?.getD 0
    bits (y <<< min (l[2]?.getD 0) 32) 32 32)

/-- BFE (R188): field of `len` bits at `pos`. -/
def bfe (t : ITy) (pos len a : Nat) : Nat :=
  let len := min len t.w
  if len = 0 then 0
  else
    let f := ofBits len (fun i => if pos + i < t.w then bit a (pos + i) else t.sg && bit a (t.w - 1))
    wrap t.w (if t.sg then toSigned len f else f)

def mBfe : Meaning := fun v =>
  let t := ity v.h.var
  let n := t.regs
  let b : Raw := match v.b with
    | .i w => Raw.of w.imm
    | _ => v.raw v.b.vb n
  monoOp v n [v.raw v.b.va n (if t.sg then .sign else .zero), b] t.fullRaw
    (fun l => bfe t (bits (l[1]?.getD 0) 0 8) (bits (l[1]?.getD 0) 8 8) (l[0]?.getD 0))

/-- BFI (R188). -/
def bfi (w pos len a b : Nat) : Nat :=
  ofBits w (fun j => if pos ≤ j ∧ j - pos < min len w then bit b (j - pos) else bit a j)

def mBfi : Meaning := fun v =>
  let t := ity v.h.var
  let n := t.regs
  monoOp v n [v.raw v.b.va n, v.raw v.b.vb n, v.raw v.b.vc n] t.fullRaw
    (fun l => bfi t.w (bits (l[2]?.getD 0) 0 8) (bits (l[2]?.getD 0) 8 8) (l[0]?.getD 0) (l[1]?.getD 0))

/-- A bit count, into one register; not a point: 0 to w (R192). -/
def countM (f : Nat → Nat → Nat) : Meaning := fun v =>
  let t := ity v.h.var
  monoOp v 1 [v.raw v.b.va t.regs] ⟨0, t.w, false⟩ (fun l => f t.w (l[0]?.getD 0))

def popcount (w a : Nat) : Nat := ((List.range w).filter (fun i => bit a i)).length
def clz (w a : Nat) : Nat := ((List.range w).takeWhile (fun i => !bit a (w - 1 - i))).length
def ctz (w a : Nat) : Nat := ((List.range w).takeWhile (fun i => !bit a i)).length
def mPopc : Meaning := countM popcount
def mClz : Meaning := countM clz
def mCtz : Meaning := countM ctz

def mBrev : Meaning := fun v =>
  let t := ity v.h.var
  let n := t.regs
  monoOp v n [v.raw v.b.va n] t.fullRaw (fun l => ofBits t.w (fun i => bit (l[0]?.getD 0) (t.w - 1 - i)))

/-! ## Bytes (R189) -/

/-- PERMB: bytes 0-3 of the table from A, 4-7 from B. -/
def permb (a b c : Nat) : Nat :=
  let q := a + 2 ^ 32 * b
  packInts 8 ((List.range 4).map (fun i =>
    let s := bits c (4 * i) 4
    let y := bits q (8 * (s % 8)) 8
    if 8 ≤ s then (if bit y 7 then 0xFF else 0) else y))

def mPermb : Meaning := fun v =>
  monoOp v 1 [v.raw v.b.va 1, v.raw v.b.vb 1, v.raw v.b.vc 1] (ity 1).fullRaw
    (fun l => permb (l[0]?.getD 0) (l[1]?.getD 0) (l[2]?.getD 0))

/-- PERMN: a table of 16 bytes, A's pair low. -/
def permn (mod a b c : Nat) : Nat :=
  let q := a + 2 ^ 64 * b
  packInts 8 ((List.range 4).map (fun i => bits q (8 * bits c (8 * i + 4 * mod) 4) 8))

def mPermn : Meaning := fun v =>
  monoOp v 1 [v.raw v.b.va 2, v.raw v.b.vb 2, v.raw v.b.vc 1] (ity 1).fullRaw
    (fun l => permn v.h.mod (l[0]?.getD 0) (l[1]?.getD 0) (l[2]?.getD 0))

/-! ## Selection, comparison, moves, addresses (R190, R191) -/

/-- SEL. -/
def mSel : Meaning := fun v =>
  let t := ity v.h.var
  let n := t.regs
  let a := v.raw v.b.va n
  let b := v.raw v.b.vb n
  match v.p v.b.vc with
  | .t => v.putRaw n a
  | .f => v.putRaw n b
  | .u =>
    let h := (t.ext a.lo a.hi).hull (t.ext b.lo b.hi)
    v.putRaw n ⟨wrap t.w h.1, wrap t.w h.2, a.nan || b.nan⟩

/-- ICMP: cmp in VC, or in IMM<21:19> with B in IMM<18:0>. -/
def mIcmp : Meaning := fun v =>
  let t := ity v.h.var
  let n := t.regs
  let x : LitExt := if t.sg then .sign else .zero
  let a := v.raw v.b.va n x
  let (c, b) : Nat × Raw := match v.b with
    | .i w =>
      let y := bits w.imm 0 19
      (bits w.imm 19 3, Raw.of (if t.sg then wrap t.w (toSigned 19 y) else y))
    | _ => (v.b.vc.num, v.raw v.b.vb n x)
  let r := if v.th.intv then compareExt c (t.ext a.lo a.hi) (t.ext b.lo b.hi)
    else Tri.ofBool (compareInt c (t.val a.lo) (t.val b.lo))
  v.putP v.b.vd (combine v.h.mod (v.p v.b.vd) r)

/-- PCOMB: pa the low bit of the index. -/
def mPcomb : Meaning := fun v => v.putP v.b.vd (pcombTri v.b.vc.num (v.p v.b.va) (v.p v.b.vb))

/-- MOV copies bits, an interval as it is. -/
def mMov : Meaning := fun v =>
  let n := intRegs v.h.var
  v.putRaw n (v.raw v.b.va n)

/-- MOVI. -/
def mMovi : Meaning := fun v =>
  let t := ity v.h.var
  v.putRaw t.regs (v.rawB t.regs (if t.sg then .sign else .zero) t.sg)

/-- MOVX (R191, R106): to x, from x, add to x. -/
def mMovx : Meaning := fun v =>
  if v.h.mod = 1 then v.putRaw 1 (Raw.of (v.th.x v.b.va.num).toNat)
  else
    let a := v.raw v.b.va 1
    if v.th.intv ∧ a.pt = false then noneRule v
    else
      let i := v.b.vd.num
      let x := BitVec.ofNat 32 a.lo
      v.put (fun th => th.setX i (if v.h.mod = 2 then th.x i + x else x))

/-- LEA (R191, R192): A .n64, B under VAR, times 2^sh in the T format. -/
def mLea : Meaning := fun v =>
  let t := ity v.h.var
  let n64 := ity 3
  let a := v.raw v.b.va 2 .zero
  let b := v.rawB 1 .sign t.sg
  let sh := 2 ^ (match v.b with
    | .t w => w.vc.num
    | _ => 0)
  v.putRaw 2
    (if v.th.intv then
      let e := t.ext b.lo b.hi
      let r := n64.fit false ((n64.ext a.lo a.hi).add (e.1 * (sh : Nat), e.2 * (sh : Nat)))
      ⟨wrap 64 r.1, wrap 64 r.2, false⟩
    else Raw.of (wrap 64 (a.lo + t.val b.lo * (sh : Nat))))

/-- APER's class of a generic address (R84, R191). -/
def aperture (a : Nat) : Nat :=
  match bits a 56 8 with
  | 0x00 => 0
  | 0x01 => 0
  | 0xFD => if bits a 30 26 = 0 ∧ bits a 23 7 ≤ 64 then 1 else 4
  | 0xFE => if bits a 14 42 = 0 then 2 else 4
  | 0xFF => if bits a 27 29 = 0 ∧ bits a 21 3 = 0 ∧ (bits a 26 1 = 1 ∨ bits a 24 2 = 0) then 3 else 4
  | _ => 4

def mAper : Meaning := fun v =>
  monoOp v 1 [v.raw v.b.va 2] ⟨0, 4, false⟩ (fun l => aperture (l[0]?.getD 0))

/-! ## The instructions -/

/-- IADD: A + B (R185). -/
def execIaddT (w : TWord) (s : State) : Host.Outcome State Fault Refusal := commit (issue 0x20 (.t w) mIadd) s
/-- ISUB: A − B (R185). -/
def execIsubT (w : TWord) (s : State) : Host.Outcome State Fault Refusal := commit (issue 0x21 (.t w) mIsub) s
/-- IADDC: A + B with carry (R186). -/
def execIaddc (w : TWord) (s : State) : Host.Outcome State Fault Refusal := commit (issue 0x22 (.t w) mIaddc) s
/-- IMUL: low bits of A × B (R185). -/
def execImulT (w : TWord) (s : State) : Host.Outcome State Fault Refusal := commit (issue 0x23 (.t w) mImul) s
/-- IMULH: high half of A × B (R185). -/
def execImulh (w : TWord) (s : State) : Host.Outcome State Fault Refusal := commit (issue 0x24 (.t w) mImulh) s
/-- IMAD: A × B + C (R185). -/
def execImad (w : TWord) (s : State) : Host.Outcome State Fault Refusal := commit (issue 0x25 (.t w) mImad) s
/-- IMADW: 32-bit A × B plus a 64-bit C (R186). -/
def execImadw (w : TWord) (s : State) : Host.Outcome State Fault Refusal := commit (issue 0x26 (.t w) mImadw) s
/-- IMIN (R185). -/
def execIminT (w : TWord) (s : State) : Host.Outcome State Fault Refusal := commit (issue 0x27 (.t w) mImin) s
/-- IMAX (R185). -/
def execImaxT (w : TWord) (s : State) : Host.Outcome State Fault Refusal := commit (issue 0x28 (.t w) mImax) s
/-- IABS (R186). -/
def execIabs (w : TWord) (s : State) : Host.Outcome State Fault Refusal := commit (issue 0x29 (.t w) mIabs) s
/-- ISAD (R186). -/
def execIsad (w : TWord) (s : State) : Host.Outcome State Fault Refusal := commit (issue 0x2A (.t w) mIsad) s
/-- AND (R185). -/
def execAndT (w : TWord) (s : State) : Host.Outcome State Fault Refusal := commit (issue 0x2B (.t w) mAnd) s
/-- OR (R185). -/
def execOrT (w : TWord) (s : State) : Host.Outcome State Fault Refusal := commit (issue 0x2C (.t w) mOr) s
/-- XOR (R185). -/
def execXorT (w : TWord) (s : State) : Host.Outcome State Fault Refusal := commit (issue 0x2D (.t w) mXor) s
/-- ANDN (R185). -/
def execAndnT (w : TWord) (s : State) : Host.Outcome State Fault Refusal := commit (issue 0x2E (.t w) mAndn) s
/-- LOGT (R187). -/
def execLogt (w : TWord) (s : State) : Host.Outcome State Fault Refusal := commit (issue 0x2F (.t w) mLogt) s
/-- SHL (R187). -/
def execShlT (w : TWord) (s : State) : Host.Outcome State Fault Refusal := commit (issue 0x30 (.t w) mShl) s
/-- SHR (R187). -/
def execShrT (w : TWord) (s : State) : Host.Outcome State Fault Refusal := commit (issue 0x31 (.t w) mShr) s
/-- SHRA (R187). -/
def execShraT (w : TWord) (s : State) : Host.Outcome State Fault Refusal := commit (issue 0x32 (.t w) mShra) s
/-- ROTL (R187). -/
def execRotlT (w : TWord) (s : State) : Host.Outcome State Fault Refusal := commit (issue 0x33 (.t w) mRotl) s
/-- FUNNEL (R187). -/
def execFunnel (w : TWord) (s : State) : Host.Outcome State Fault Refusal := commit (issue 0x34 (.t w) mFunnel) s
/-- BFE (R188). -/
def execBfeT (w : TWord) (s : State) : Host.Outcome State Fault Refusal := commit (issue 0x35 (.t w) mBfe) s
/-- BFI (R188). -/
def execBfi (w : TWord) (s : State) : Host.Outcome State Fault Refusal := commit (issue 0x36 (.t w) mBfi) s
/-- POPC (R188). -/
def execPopc (w : TWord) (s : State) : Host.Outcome State Fault Refusal := commit (issue 0x37 (.t w) mPopc) s
/-- CLZ (R188). -/
def execClz (w : TWord) (s : State) : Host.Outcome State Fault Refusal := commit (issue 0x38 (.t w) mClz) s
/-- CTZ (R188). -/
def execCtz (w : TWord) (s : State) : Host.Outcome State Fault Refusal := commit (issue 0x39 (.t w) mCtz) s
/-- BREV (R188). -/
def execBrev (w : TWord) (s : State) : Host.Outcome State Fault Refusal := commit (issue 0x3A (.t w) mBrev) s
/-- PERMB (R189). -/
def execPermb (w : TWord) (s : State) : Host.Outcome State Fault Refusal := commit (issue 0x3B (.t w) mPermb) s
/-- PERMN (R189). -/
def execPermn (w : TWord) (s : State) : Host.Outcome State Fault Refusal := commit (issue 0x3C (.t w) mPermn) s
/-- SEL (R190). -/
def execSel (w : TWord) (s : State) : Host.Outcome State Fault Refusal := commit (issue 0x3D (.t w) mSel) s
/-- ICMP (R190). -/
def execIcmpT (w : TWord) (s : State) : Host.Outcome State Fault Refusal := commit (issue 0x3E (.t w) mIcmp) s
/-- PCOMB (R190). -/
def execPcomb (w : TWord) (s : State) : Host.Outcome State Fault Refusal := commit (issue 0x3F (.t w) mPcomb) s
/-- MOV (R185). -/
def execMov (w : TWord) (s : State) : Host.Outcome State Fault Refusal := commit (issue 0x40 (.t w) mMov) s
/-- MOVX (R191). -/
def execMovx (w : TWord) (s : State) : Host.Outcome State Fault Refusal := commit (issue 0x42 (.t w) mMovx) s
/-- LEA (R191). -/
def execLeaT (w : TWord) (s : State) : Host.Outcome State Fault Refusal := commit (issue 0x43 (.t w) mLea) s
/-- APER (R191). -/
def execAper (w : TWord) (s : State) : Host.Outcome State Fault Refusal := commit (issue 0x44 (.t w) mAper) s
/-- IADD with an immediate (R185). -/
def execIaddI (w : IWord) (s : State) : Host.Outcome State Fault Refusal := commit (issue 0x50 (.i w) mIadd) s
/-- ISUB with an immediate (R185). -/
def execIsubI (w : IWord) (s : State) : Host.Outcome State Fault Refusal := commit (issue 0x51 (.i w) mIsub) s
/-- IMUL with an immediate (R185). -/
def execImulI (w : IWord) (s : State) : Host.Outcome State Fault Refusal := commit (issue 0x52 (.i w) mImul) s
/-- IMIN with an immediate (R185). -/
def execIminI (w : IWord) (s : State) : Host.Outcome State Fault Refusal := commit (issue 0x53 (.i w) mImin) s
/-- IMAX with an immediate (R185). -/
def execImaxI (w : IWord) (s : State) : Host.Outcome State Fault Refusal := commit (issue 0x54 (.i w) mImax) s
/-- AND with an immediate (R185). -/
def execAndI (w : IWord) (s : State) : Host.Outcome State Fault Refusal := commit (issue 0x55 (.i w) mAnd) s
/-- OR with an immediate (R185). -/
def execOrI (w : IWord) (s : State) : Host.Outcome State Fault Refusal := commit (issue 0x56 (.i w) mOr) s
/-- XOR with an immediate (R185). -/
def execXorI (w : IWord) (s : State) : Host.Outcome State Fault Refusal := commit (issue 0x57 (.i w) mXor) s
/-- ANDN with an immediate (R185). -/
def execAndnI (w : IWord) (s : State) : Host.Outcome State Fault Refusal := commit (issue 0x58 (.i w) mAndn) s
/-- SHL with an immediate (R187). -/
def execShlI (w : IWord) (s : State) : Host.Outcome State Fault Refusal := commit (issue 0x59 (.i w) mShl) s
/-- SHR with an immediate (R187). -/
def execShrI (w : IWord) (s : State) : Host.Outcome State Fault Refusal := commit (issue 0x5A (.i w) mShr) s
/-- SHRA with an immediate (R187). -/
def execShraI (w : IWord) (s : State) : Host.Outcome State Fault Refusal := commit (issue 0x5B (.i w) mShra) s
/-- ROTL with an immediate (R187). -/
def execRotlI (w : IWord) (s : State) : Host.Outcome State Fault Refusal := commit (issue 0x5C (.i w) mRotl) s
/-- BFE with an immediate (R188). -/
def execBfeI (w : IWord) (s : State) : Host.Outcome State Fault Refusal := commit (issue 0x5D (.i w) mBfe) s
/-- ICMP with an immediate (R190). -/
def execIcmpI (w : IWord) (s : State) : Host.Outcome State Fault Refusal := commit (issue 0x5E (.i w) mIcmp) s
/-- LEA with an immediate (R191). -/
def execLeaI (w : IWord) (s : State) : Host.Outcome State Fault Refusal := commit (issue 0x5F (.i w) mLea) s
/-- MOVI with an immediate (R185). -/
def execMovi (w : IWord) (s : State) : Host.Outcome State Fault Refusal := commit (issue 0x41 (.i w) mMovi) s

end Sys2Proof.Machine
end

