-- ==== Sys2Proof/Machine/Startup.lean ====
section
/-! DEFINITION. Resets, start-up, the mailbox commands, SPDM (R29, R357, R366-R371, R381, R414, R416, R425, R431). -/

namespace Sys2Proof.Machine

/-! ## Warm and cold starts (R357, R366, R367, R381) -/

/-- What a warm start leaves: DRAM, vault direct memory, the always-on domain, SLOWN, the device number, the stored
training records, the counts. MBSTAT and MBDATA stay too (DESIGN CHOICE, log 70). -/
def warmDev (d : Dev) : Dev :=
  { Dev.reset with
    ctime := d.ctime, agenda := d.agenda, free := d.free, nextId := d.nextId, banks := d.banks,
    dies := d.dies.map (fun x => { Die.reset with cycle := x.cycle }),
    clusters := d.clusters.map (fun x => { Cluster.reset with cycle := x.cycle, edgeAt := x.edgeAt }),
    stks := d.stks.map (fun x => { Stack.reset with record := x.record }),
    slown := d.slown, move := d.move, mbox := { d.mbox with torn := d.mbox.torn || d.mgmt.updating }, fab := { Fabric.reset with devno := d.fab.devno, down := d.fab.down },
    mgmt := { Mgmt.reset with
      mcctl := d.mgmt.mcctl, thermstat := d.mgmt.thermstat, sensors := d.mgmt.sensors, cold := false, stage := 1,
      heartbeat := d.ctime, linkUp := d.mgmt.linkUp, doe := d.mgmt.doe, cePosted := d.mgmt.cePosted },
    marks := d.marks.filter (fun m => match m.1 with
      | .dram _ => true
      | .vault _ _ => true
      | _ => false) }

/-- Allocations of flocks are lost; direct memory that a vault's reset split adds is undefined. -/
def warmStores (s : State) : List Write :=
  s.sto.filterMap (fun x => match x.key with
    | .vault _ => none
    | k => some (.drop k)) ++
  (List.range 64).filterMap (fun v =>
    if directSize (s.dev.vault v).split < directSize 1 then some (.wipe (.vault v) (directSize (s.dev.vault v).split) (s.dev.free + v)) else none)

/-- A warm start: the slices give up their lines, a slice move is abandoned, and the device begins at stage 1. -/
def warmStart : Eff :=
  seqE [
    look fun s => forE (List.range 64) (fun v => forE (s.dev.vault v).lines (fun l => flushLine l.line)),
    abandonMove,
    look fun s => wr (warmStores s),
    upd (fun d => { warmDev d with free := d.free + 64 }) ]

/-- After a thermal TRIP the DRAM rails are off: no warm start is possible (R367, R425). -/
def Mgmt.tripped (m : Mgmt) : Bool := decide (m.failCode = 4 ∧ m.stage = 1)

/-- PF_RESET (R357): a function-level reset of PF_0 or a secondary bus reset begins a warm start, also while the compute rails
are off: the always-on domain and DRAM have power then (R424). -/
def execPfReset (s : State) : Host.Outcome State Fault Refusal :=
  commit (look fun s => if s.dev.mgmt.stage = 0 ∨ s.dev.mgmt.tripped then skip else warmStart) s

/-- The device after power-off: DRAM, vaults and every register are lost but the non-volatile storage. -/
def coldDev (d : Dev) (stage : Nat) : Dev :=
  { Dev.reset with
    ctime := d.ctime, agenda := d.agenda, free := d.free, nextId := d.nextId,
    stks := d.stks.map (fun x => { Stack.reset with record := x.record }),
    mbox := { Mailbox.reset with image := d.mbox.image, torn := d.mbox.torn || d.mgmt.updating },
    mgmt := { Mgmt.reset with stage := stage, heartbeat := d.ctime } }

/-- COLD_START (R367): power-good rises from module power-off. -/
def execColdStart (s : State) : Host.Outcome State Fault Refusal :=
  commit (losePower.andThen (upd (fun d => coldDev d 0))) s

/-! ## START_STAGE (R366-R368, R414, R431) -/

/-- What the CRC-32 of a training record covers. -/
def TrainRec.body (r : TrainRec) : List Byte := leBytes 8 r.serial.toNat ++ leBytes 2 r.temp ++ r.results

/-- The record of a training of stack `h`: its results are the device's own. -/
def Dev.trained (d : Dev) (h : Nat) : TrainRec :=
  let r : TrainRec :=
    { serial := Config.stackSerial h, temp := Config.stackTemp h d.ctime,
      results := (List.range 64).map (Config.undefByte (d.free + h)), crc := 0 }
  { r with crc := Config.crc32 r.body }

/-- A stored record may be restored: its CRC checks, its serial number is the stack's, and the stack's temperature lies within
15 °C of the training temperature. -/
def TrainRec.usable (r : TrainRec) (h t : Nat) : Bool :=
  let now := Config.stackTemp h t
  decide (r.crc = Config.crc32 r.body ∧ r.serial = Config.stackSerial h ∧ now ≤ r.temp + 120 ∧ r.temp ≤ now + 120)

/-- Stage 2: a warm start restores the stacks whose records may be used; the others are trained. `bad` bit h says that both
trainings of stack h fail: its record is discarded. -/
def trainStacks (bad : Nat) : Dev → Dev := fun d =>
  { d with
    free := d.free + 8,
    stks := d.stks.mapIdx (fun h st =>
      if !d.mgmt.cold && st.record.any (fun r => r.usable h d.ctime) then { st with trn := 1 }
      else if bad.testBit h then { st with trn := 3, record := none }
      else { st with trn := 2, record := some (d.trained h) }) }

/-- The next stage. At stage 1 the stored image is verified; `failed` names at stage 2 the stacks as above, at stage 3 the
clusters that fail: bits 63:0 logic BIST, bits 127:64 memory BIST; `follows` says at stage 4 that the link partner follows the
retraining that the device asks for. -/
def startStage (follows : Bool) (failed : Nat) : Eff := look fun s =>
  let m := s.dev.mgmt
  let stage (n : Nat) : Dev → Dev := fun d => { d with mgmt := { d.mgmt with stage := n } }
  let fail (n : Nat) : Dev → Dev := fun d => { d with mgmt := { d.mgmt with failCode := n, starting := false } }
  if !m.starting then skip
  else
    match m.stage with
    | 0 => upd (stage 1)
    | 1 =>
      if !s.dev.mbox.verified then upd (fail 1)
      else
        (upd (fun d => stage 2 (trainStacks failed { d with mbox := { d.mbox with running := d.mbox.image } }))).andThen (look fun s =>
          let lost := (List.range 8).filter (fun h => (s.dev.stk h).trn = 3)
          if lost = [] then skip
          else
            (forE lost (fun h => (bankRecord (64 + h) 3 none 0x23 0 0 0).andThen
              (postEvent 0 (mcEvent (64 + h) 3 0x23 0 0xFF 0 s.dev.ctime)))).andThen (upd (fail 2)))
    | 2 =>
      seqE [
        forE (List.range 64) vaultFlush,
        forE ((List.range 64).filter failed.testBit) (fun c => testFailed c true),
        forE ((List.range 64).filter (fun c => failed.testBit (64 + c))) (fun c => testFailed c false),
        upd (fun d => stage 3 { d with
          clusters := d.clusters.map (fun c => { c with lastTest := d.ctime }),
          mgmt := { d.mgmt with failCode := if failed % 2 ^ 128 = 0 then 0 else 3 } }) ]
    | _ =>
      seqE [
        upd (fun d =>
          let gen := if follows then 7 else d.mgmt.linkGen
          { d with mgmt := { d.mgmt with stage := 4, starting := false, startEvt := true, linkGen := gen } }),
        (match s.dev.move.lost with
          | some src => (devEvent 8 (BitVec.ofNat 64 src) 0xFF).andThen
              (upd (fun d => { d with move := { d.move with lost := none } }))
          | none => skip),
        deliverAll,
        startEvent ]

/-- START_STAGE (R367). -/
def execStartStage (follows : Bool) (failed : Nat) (s : State) : Host.Outcome State Fault Refusal :=
  commit (startStage follows failed) s

/-! ## Mailbox commands (R368-R371) -/

/-- The mailbox runs a command. -/
def mbRun (cmd : Nat) (e : Eff) : Eff := look fun s => if s.dev.mbox.state = 1 ∧ s.dev.mbox.cmd = cmd then e else skip

/-- Bytes of MBDATA. -/
def Mailbox.bytes (m : Mailbox) (off n : Nat) : List Byte := (List.range n).map (fun i => (aget m.data (off + i)).getD 0)
/-- A little-endian word of MBDATA. -/
def Mailbox.word (m : Mailbox) (off n : Nat) : Nat := leNat (m.bytes off n)

/-- Puts a result at the start of MBDATA. -/
def mbAnswer (bs : List Byte) : Dev → Dev := fun d =>
  { d with mbox := { d.mbox with data := bs.zipIdx.foldl (fun l x => aset l x.2 x.1) d.mbox.data } }

/-- INFO (R371): part number, serial number and the version of the stored image, 8 bytes each. -/
def execInfo (s : State) : Host.Outcome State Fault Refusal :=
  commit (mbRun 1 ((upd (fun d =>
    mbAnswer ((List.range 16).map Config.identity ++ leBytes 8 (Config.imageVersion d.mbox.image).toNat) d)).andThen (mbDone 0))) s

/-- A bank as the host reads it (R382). -/
def Bank.bytes (b : Bank) : List Byte :=
  leBytes 8 b.status.toNat ++ leBytes 8 b.addr.toNat ++ leBytes 8 b.synd.toNat ++ leBytes 8 b.time.toNat ++ List.replicate 32 0

/-- MCREAD (R371): the banks named by a 128-bit mask in MBDATA, in increasing number, as many as MBDATA holds. -/
def execMcread (s : State) : Host.Outcome State Fault Refusal :=
  commit (mbRun 2 ((upd (fun d =>
    mbAnswer ((((List.range 128).filter (fun i => (d.mbox.word 0 16).testBit i)).take 64).flatMap (fun i => (d.bank i).bytes)) d)).andThen
      (mbDone 0))) s

/-- FWBEGIN (R371): the image size, in the first 4 bytes of MBDATA. -/
def execFwbegin (s : State) : Host.Outcome State Fault Refusal :=
  commit (mbRun 3 (look fun s =>
    let n := s.dev.mbox.word 0 4
    if n = 0 then mbDone 2
    else (upd (fun d => { d with mbox := { d.mbox with upSize := some n, upData := [] } })).andThen (mbDone 0))) s

/-- FWDATA (R371): MBDATA's bytes, as many as the update still lacks. -/
def execFwdata (s : State) : Host.Outcome State Fault Refusal :=
  commit (mbRun 4 (look fun s =>
    match s.dev.mbox.upSize with
    | none => mbDone 2
    | some n =>
      (upd (fun d => { d with mbox := { d.mbox with
        upData := d.mbox.upData ++ d.mbox.bytes 0 (min 4096 (n - d.mbox.upData.length)) } })).andThen (mbDone 0))) s

/-- FWEND (R369): a complete image that verifies replaces the stored one; the update ends. -/
def execFwend (s : State) : Host.Outcome State Fault Refusal :=
  commit (mbRun 5 (look fun s =>
    if s.dev.mgmt.updating = false then mbDone 2
    else
      (upd (fun d =>
        { d with
          mbox := { d.mbox with image := d.mbox.upData, upSize := none, upData := [], torn := false },
          mgmt := { d.mgmt with updating := false, fwStopped := true, heartbeat := d.ctime } })).andThen (mbDone 0))) s

/-- RESET (R367, R425): a warm start; after a TRIP, once every sensor is below 110 °C, a start that runs as a cold one. It
keeps the banks and resets MCCTL (DESIGN CHOICE, log 69: no rule says whether it is the cold reset of R381 and R385). -/
def execReset (s : State) : Host.Outcome State Fault Refusal :=
  commit (mbRun 6 (look fun s =>
    let m := s.dev.mgmt
    if m.tripped then
      if m.sensors.any (fun r => decide (880 ≤ r.2)) then mbDone 2
      else
        (losePower.andThen (upd (fun d =>
          let c := coldDev d 1
          { c with banks := d.banks, mbox := { d.mbox with data := [] }, move := { c.move with lost := d.move.lost },
                   mgmt := { c.mgmt with thermstat := d.mgmt.thermstat, sensors := d.mgmt.sensors, linkUp := d.mgmt.linkUp } }))).andThen
          (mbDone 0)
    else warmStart.andThen (mbDone 0))) s

/-- SETDEV (R371): the Twill device number, in the first 2 bytes of MBDATA. -/
def execSetdev (s : State) : Host.Outcome State Fault Refusal :=
  commit (mbRun 7 (look fun s =>
    let n := s.dev.mbox.word 0 2
    if 4096 ≤ n then mbDone 2
    else (upd (fun d => { d with fab := { d.fab with devno := n } })).andThen (mbDone 0))) s

/-- SETBOUND (R323, R371): kind, instance and bound, 4 bytes each. -/
def execSetbound (s : State) : Host.Outcome State Fault Refusal :=
  commit (mbRun 8 (look fun s =>
    let m := s.dev.mbox
    if 4 < m.word 0 4 ∨ kindRange (m.word 0 4) ≤ m.word 4 4 then mbDone 2
    else (boundWrite (m.word 0 4) (m.word 4 4) (m.word 8 4)).andThen (mbDone 0))) s

/-- SELFTEST (R393): every idle cluster not tested for IDLEH hours, whatever IDLEST holds. -/
def execSelftest (s : State) : Host.Outcome State Fault Refusal :=
  commit (mbRun 9 (look fun s =>
    (forE ((List.range 64).filter s.dev.testDue) (fun c => testStart c 3 false)).andThen (mbDone 0))) s

/-! ## SPDM (R370) -/

/-- Request codes of SPDM 1.2 that the device supports: GET_VERSION, GET_CAPABILITIES, NEGOTIATE_ALGORITHMS, GET_DIGESTS,
GET_CERTIFICATE, CHALLENGE, GET_MEASUREMENTS. -/
def spdmCodes : List Nat := [0x84, 0xE1, 0xE3, 0x81, 0x82, 0x83, 0xE0]

/-- A signature of 64 bytes. -/
def signed (bs : List Byte) : List Byte := (List.range 64).map (Config.signature bs)

/-- The header of a message of SPDM 1.2 (log 65). -/
def spdmHead (code p1 p2 : Nat) : List Byte := [0x12, BitVec.ofNat 8 code, BitVec.ofNat 8 p1, BitVec.ofNat 8 p2]

/-- The ERROR message. -/
def spdmError (err p2 : Nat) : List Byte := spdmHead 0x7F err p2

/-- The certificate chain of slot 0, its first word the length. -/
def certChain : List Byte := leBytes 4 1024 ++ (List.range 1020).map (Config.measurement 0)

/-- The value of a measurement block (R370). -/
def Dev.measure (d : Dev) (i : Nat) : List Byte :=
  match i with
  | 2 => digest d.mbox.running
  | 3 => leBytes 8 (Config.securityVersion d.mbox.running) ++ leBytes 8 Config.fusedMinimum
  | 5 => d.stks.flatMap (fun st => (st.record.map (fun r => digest r.body)).getD [])
  | _ => (List.range 32).map (Config.measurement i)

/-- A measurement block: index, DMTF format, size, and the value with its type and size. -/
def Dev.measureBlock (d : Dev) (i : Nat) : List Byte :=
  let v := d.measure i
  [BitVec.ofNat 8 i, 1] ++ leBytes 2 (v.length + 3) ++ [if i = 3 then 7 else 0] ++ leBytes 2 v.length ++ v

/-- A nonce of the device. -/
def Dev.nonce (d : Dev) : List Byte := (List.range 32).map (Config.undefByte d.free)

/-- The measurements that a request asks for: the count of the blocks, all of them, or one. -/
def Dev.measurements (d : Dev) (msg : List Byte) : List Byte :=
  let p1 := field msg 2 1
  let p2 := field msg 3 1
  let is := if p2 = 0xFF then [1, 2, 3, 4, 5] else if p2 = 0 then [] else [p2]
  if p2 ≠ 0xFF ∧ 5 < p2 then spdmError 1 0
  else
    let body := is.flatMap d.measureBlock
    let rest := spdmHead 0x60 (if p2 = 0 then 5 else 0) 0 ++ leBytes 1 is.length ++ leBytes 3 body.length ++ body ++ d.nonce ++ [0, 0]
    if bit p1 0 then rest ++ signed (msg ++ rest) else rest

/-- The responder's next state of agreement and its answer. Version, capabilities and algorithms are agreed in that order
before anything else; slot 0 alone is there. -/
def Dev.spdm (d : Dev) (msg : List Byte) : Nat × List Byte :=
  let a := d.mgmt.doe.agreed
  let slot := field msg 2 1 % 16
  let early : Nat × List Byte := (a, spdmError 4 0)
  match field msg 1 1 with
  | 0x84 => (1, [0x10, 0x04, 0, 0, 0, 1, 0, 0x12])
  | 0xE1 => if a ≠ 1 then early else (2, spdmHead 0x61 0 0 ++ [0, 20, 0, 0] ++ leBytes 4 0x16 ++ leBytes 4 4096 ++ leBytes 4 4096)
  | 0xE3 =>
    if a ≠ 2 then early
    else
      (3, spdmHead 0x63 0 0 ++ leBytes 2 36 ++ [1, 0] ++ leBytes 4 2 ++ leBytes 4 0x10 ++ leBytes 4 1 ++ List.replicate 12 0 ++
        [0, 0] ++ leBytes 2 0)
  | 0x81 => if a ≠ 3 then early else (a, spdmHead 0x01 0 1 ++ digest certChain)
  | 0x82 =>
    if a ≠ 3 then early
    else if slot ≠ 0 ∨ certChain.length ≤ field msg 4 2 then (a, spdmError 1 0)
    else
      let part := (certChain.drop (field msg 4 2)).take (field msg 6 2)
      (a, spdmHead 0x02 0 0 ++ leBytes 2 part.length ++ leBytes 2 (certChain.length - field msg 4 2 - part.length) ++ part)
  | 0x83 =>
    if a ≠ 3 then early
    else if slot ≠ 0 then (a, spdmError 1 0)
    else
      let sum := if field msg 3 1 = 0 then [] else digest ([1, 2, 3, 4, 5].flatMap d.measureBlock)
      let rest := spdmHead 0x03 0 1 ++ digest certChain ++ d.nonce ++ sum ++ [0, 0]
      (a, rest ++ signed (msg ++ rest))
  | 0xE0 => if a ≠ 3 then early else (a, d.measurements msg)
  | c => (a, spdmError 7 c)

/-- SPDM_REQUEST (R370), from stage 1 on. -/
def execSpdmRequest (msg : List Byte) (s : State) : Host.Outcome State Fault Refusal :=
  commit (upd (fun d =>
    if d.mgmt.stage = 0 ∨ d.mgmt.linkUp = false then d
    else
      let (a, ans) := d.spdm msg
      let code := field msg 1 1
      { d with
        free := d.free + 1,
        mgmt := { d.mgmt with doe := { agreed := a, req := some (code, spdmCodes.contains code), answer := ans } } })) s

/-! ## Function-level reset of a virtual function (R357) -/

/-- VF_FLR: SAVE to every context of the virtual device. -/
def vfFlr (v : Nat) : Eff := look fun s =>
  if 16 ≤ v ∨ s.dev.mgmt.stage ≠ 4 then skip
  else
    let ks := s.dev.ofVdev v
    seqE [
      upd (fun d => ks.foldl (fun d k => d.modCtx k (fun c => { c with flr := true })) d),
      forE ks (fun k => beginDrain k true true),
      flrEnd v ]

/-- VF_FLR (R357). -/
def execVfFlr (v : Nat) (s : State) : Host.Outcome State Fault Refusal := commit (vfFlr v) s

end Sys2Proof.Machine
end

