-- ==== Sys2Proof/Machine/Dispatch.lean ====
section
/-! DEFINITION. The meaning of every instruction, one arm per constructor. -/

namespace Sys2Proof.Machine

open Sys2Proof

def exec (i : Instr) (s : State) : Host.Outcome State Fault Refusal :=
  match i with
  | .nop w => Sys2Proof.Machine.execNop w s
  | .bra w => Sys2Proof.Machine.execBra w s
  | .brc w => Sys2Proof.Machine.execBrc w s
  | .call w => Sys2Proof.Machine.execCall w s
  | .calli w => Sys2Proof.Machine.execCalli w s
  | .jmpi w => Sys2Proof.Machine.execJmpi w s
  | .ret w => Sys2Proof.Machine.execRet w s
  | .exit w => Sys2Proof.Machine.execExit w s
  | .demote w => Sys2Proof.Machine.execDemote w s
  | .commit w => Sys2Proof.Machine.execCommit w s
  | .yield w => Sys2Proof.Machine.execYield w s
  | .trap w => Sys2Proof.Machine.execTrap w s
  | .rtt w => Sys2Proof.Machine.execRtt w s
  | .launch w => Sys2Proof.Machine.execLaunch w s
  | .bar w => Sys2Proof.Machine.execBar w s
  | .hbar w => Sys2Proof.Machine.execHbar w s
  | .mfsr w => Sys2Proof.Machine.execMfsr w s
  | .mtsr w => Sys2Proof.Machine.execMtsr w s
  | .flushi w => Sys2Proof.Machine.execFlushi w s
  | .tlbinv w => Sys2Proof.Machine.execTlbinv w s
  | .time w => Sys2Proof.Machine.execTime w s
  | .tid w => Sys2Proof.Machine.execTid w s
  | .movk w => Sys2Proof.Machine.execMovk w s
  | .sleep w => Sys2Proof.Machine.execSleep w s
  | .watch w => Sys2Proof.Machine.execWatch w s
  | .wait w => Sys2Proof.Machine.execWait w s
  | .waitbm w => Sys2Proof.Machine.execWaitbm w s
  | .stepdl w => Sys2Proof.Machine.execStepdl w s
  | .slack w => Sys2Proof.Machine.execSlack w s
  | .bmode w => Sys2Proof.Machine.execBmode w s
  | .iaddT w => Sys2Proof.Machine.execIaddT w s
  | .iaddI w => Sys2Proof.Machine.execIaddI w s
  | .isubT w => Sys2Proof.Machine.execIsubT w s
  | .isubI w => Sys2Proof.Machine.execIsubI w s
  | .iaddc w => Sys2Proof.Machine.execIaddc w s
  | .imulT w => Sys2Proof.Machine.execImulT w s
  | .imulI w => Sys2Proof.Machine.execImulI w s
  | .imulh w => Sys2Proof.Machine.execImulh w s
  | .imad w => Sys2Proof.Machine.execImad w s
  | .imadw w => Sys2Proof.Machine.execImadw w s
  | .iminT w => Sys2Proof.Machine.execIminT w s
  | .iminI w => Sys2Proof.Machine.execIminI w s
  | .imaxT w => Sys2Proof.Machine.execImaxT w s
  | .imaxI w => Sys2Proof.Machine.execImaxI w s
  | .iabs w => Sys2Proof.Machine.execIabs w s
  | .isad w => Sys2Proof.Machine.execIsad w s
  | .andT w => Sys2Proof.Machine.execAndT w s
  | .andI w => Sys2Proof.Machine.execAndI w s
  | .orT w => Sys2Proof.Machine.execOrT w s
  | .orI w => Sys2Proof.Machine.execOrI w s
  | .xorT w => Sys2Proof.Machine.execXorT w s
  | .xorI w => Sys2Proof.Machine.execXorI w s
  | .andnT w => Sys2Proof.Machine.execAndnT w s
  | .andnI w => Sys2Proof.Machine.execAndnI w s
  | .logt w => Sys2Proof.Machine.execLogt w s
  | .shlT w => Sys2Proof.Machine.execShlT w s
  | .shlI w => Sys2Proof.Machine.execShlI w s
  | .shrT w => Sys2Proof.Machine.execShrT w s
  | .shrI w => Sys2Proof.Machine.execShrI w s
  | .shraT w => Sys2Proof.Machine.execShraT w s
  | .shraI w => Sys2Proof.Machine.execShraI w s
  | .rotlT w => Sys2Proof.Machine.execRotlT w s
  | .rotlI w => Sys2Proof.Machine.execRotlI w s
  | .funnel w => Sys2Proof.Machine.execFunnel w s
  | .bfeT w => Sys2Proof.Machine.execBfeT w s
  | .bfeI w => Sys2Proof.Machine.execBfeI w s
  | .bfi w => Sys2Proof.Machine.execBfi w s
  | .popc w => Sys2Proof.Machine.execPopc w s
  | .clz w => Sys2Proof.Machine.execClz w s
  | .ctz w => Sys2Proof.Machine.execCtz w s
  | .brev w => Sys2Proof.Machine.execBrev w s
  | .permb w => Sys2Proof.Machine.execPermb w s
  | .permn w => Sys2Proof.Machine.execPermn w s
  | .sel w => Sys2Proof.Machine.execSel w s
  | .icmpT w => Sys2Proof.Machine.execIcmpT w s
  | .icmpI w => Sys2Proof.Machine.execIcmpI w s
  | .pcomb w => Sys2Proof.Machine.execPcomb w s
  | .mov w => Sys2Proof.Machine.execMov w s
  | .movi w => Sys2Proof.Machine.execMovi w s
  | .movx w => Sys2Proof.Machine.execMovx w s
  | .leaT w => Sys2Proof.Machine.execLeaT w s
  | .leaI w => Sys2Proof.Machine.execLeaI w s
  | .aper w => Sys2Proof.Machine.execAper w s
  | .lxchT w => Sys2Proof.Machine.execLxchT w s
  | .lxchI w => Sys2Proof.Machine.execLxchI w s
  | .poll w => Sys2Proof.Machine.execPoll w s
  | .redx w => Sys2Proof.Machine.execRedx w s
  | .scanx w => Sys2Proof.Machine.execScanx w s
  | .eqmask w => Sys2Proof.Machine.execEqmask w s
  | .lead w => Sys2Proof.Machine.execLead w s
  | .faddT w => Sys2Proof.Machine.execFaddT w s
  | .faddI w => Sys2Proof.Machine.execFaddI w s
  | .fsub w => Sys2Proof.Machine.execFsub w s
  | .fmulT w => Sys2Proof.Machine.execFmulT w s
  | .fmulI w => Sys2Proof.Machine.execFmulI w s
  | .ffmaT w => Sys2Proof.Machine.execFfmaT w s
  | .ffmaI w => Sys2Proof.Machine.execFfmaI w s
  | .fminT w => Sys2Proof.Machine.execFminT w s
  | .fminI w => Sys2Proof.Machine.execFminI w s
  | .fmaxT w => Sys2Proof.Machine.execFmaxT w s
  | .fmaxI w => Sys2Proof.Machine.execFmaxI w s
  | .fcmpT w => Sys2Proof.Machine.execFcmpT w s
  | .fcmpI w => Sys2Proof.Machine.execFcmpI w s
  | .frcp w => Sys2Proof.Machine.execFrcp w s
  | .frsq w => Sys2Proof.Machine.execFrsq w s
  | .fsqrt w => Sys2Proof.Machine.execFsqrt w s
  | .fexp2 w => Sys2Proof.Machine.execFexp2 w s
  | .flog2 w => Sys2Proof.Machine.execFlog2 w s
  | .fsin w => Sys2Proof.Machine.execFsin w s
  | .fcos w => Sys2Proof.Machine.execFcos w s
  | .ftanh w => Sys2Proof.Machine.execFtanh w s
  | .daddT w => Sys2Proof.Machine.execDaddT w s
  | .daddI w => Sys2Proof.Machine.execDaddI w s
  | .dmulT w => Sys2Proof.Machine.execDmulT w s
  | .dmulI w => Sys2Proof.Machine.execDmulI w s
  | .dfma w => Sys2Proof.Machine.execDfma w s
  | .dmin w => Sys2Proof.Machine.execDmin w s
  | .dmax w => Sys2Proof.Machine.execDmax w s
  | .dcmp w => Sys2Proof.Machine.execDcmp w s
  | .drcp w => Sys2Proof.Machine.execDrcp w s
  | .pkadd w => Sys2Proof.Machine.execPkadd w s
  | .pkmul w => Sys2Proof.Machine.execPkmul w s
  | .pkfma w => Sys2Proof.Machine.execPkfma w s
  | .pksub w => Sys2Proof.Machine.execPksub w s
  | .pkmin w => Sys2Proof.Machine.execPkmin w s
  | .pkmax w => Sys2Proof.Machine.execPkmax w s
  | .idot4 w => Sys2Proof.Machine.execIdot4 w s
  | .cvt w => Sys2Proof.Machine.execCvt w s
  | .cvtn w => Sys2Proof.Machine.execCvtn w s
  | .cvts w => Sys2Proof.Machine.execCvts w s
  | .packn w => Sys2Proof.Machine.execPackn w s
  | .unpackn w => Sys2Proof.Machine.execUnpackn w s
  | .ld w => Sys2Proof.Machine.execLd w s
  | .st w => Sys2Proof.Machine.execSt w s
  | .ldbnd w => Sys2Proof.Machine.execLdbnd w s
  | .tilefill w => Sys2Proof.Machine.execTilefill w s
  | .ldmc w => Sys2Proof.Machine.execLdmc w s
  | .stf w => Sys2Proof.Machine.execStf w s
  | .zfill w => Sys2Proof.Machine.execZfill w s
  | .pref w => Sys2Proof.Machine.execPref w s
  | .ldacc w => Sys2Proof.Machine.execLdacc w s
  | .stacc w => Sys2Proof.Machine.execStacc w s
  | .atom w => Sys2Proof.Machine.execAtom w s
  | .cas w => Sys2Proof.Machine.execCas w s
  | .red w => Sys2Proof.Machine.execRed w s
  | .fence w => Sys2Proof.Machine.execFence w s
  | .mma w => Sys2Proof.Machine.execMma w s
  | .mmaQ8 w => Sys2Proof.Machine.execMmaQ8 w s
  | .mmaQ6 w => Sys2Proof.Machine.execMmaQ6 w s
  | .mmaQ4 w => Sys2Proof.Machine.execMmaQ4 w s
  | .smma w => Sys2Proof.Machine.execSmma w s
  | .smmaQ8 w => Sys2Proof.Machine.execSmmaQ8 w s
  | .smmaQ6 w => Sys2Proof.Machine.execSmmaQ6 w s
  | .smmaQ4 w => Sys2Proof.Machine.execSmmaQ4 w s
  | .mmaw w => Sys2Proof.Machine.execMmaw w s
  | .mmawQ8 w => Sys2Proof.Machine.execMmawQ8 w s
  | .mmawQ6 w => Sys2Proof.Machine.execMmawQ6 w s
  | .mmawQ4 w => Sys2Proof.Machine.execMmawQ4 w s
  | .accz w => Sys2Proof.Machine.execAccz w s
  | .accdrain w => Sys2Proof.Machine.execAccdrain w s
  | .accload w => Sys2Proof.Machine.execAccload w s
  | .copy w => Sys2Proof.Machine.execCopy w s
  | .copymc w => Sys2Proof.Machine.execCopymc w s
  | .copyq w => Sys2Proof.Machine.execCopyq w s
  | .spush w => Sys2Proof.Machine.execSpush w s
  | .qpop w => Sys2Proof.Machine.execQpop w s
  | .pld w => Sys2Proof.Machine.execPld w s
  | .pst w => Sys2Proof.Machine.execPst w s
  | .patom w => Sys2Proof.Machine.execPatom w s
  | .coll w => Sys2Proof.Machine.execColl w s
  | .issueSlot core pg => Sys2Proof.Machine.execIssueSlot core pg s
  | .reconvHoldExpire r => Sys2Proof.Machine.execReconvHoldExpire r s
  | .yieldExpire r => Sys2Proof.Machine.execYieldExpire r s
  | .sleepWake r => Sys2Proof.Machine.execSleepWake r s
  | .barrierWaveRelease cluster => Sys2Proof.Machine.execBarrierWaveRelease cluster s
  | .rendezvousFaultTrap r => Sys2Proof.Machine.execRendezvousFaultTrap r s
  | .loadReturn id fill => Sys2Proof.Machine.execLoadReturn id fill s
  | .storePerformed id => Sys2Proof.Machine.execStorePerformed id s
  | .sliceRead id => Sys2Proof.Machine.execSliceRead id s
  | .sliceWrite id => Sys2Proof.Machine.execSliceWrite id s
  | .sliceStf id => Sys2Proof.Machine.execSliceStf id s
  | .sliceZfill id => Sys2Proof.Machine.execSliceZfill id s
  | .sliceAtomic id => Sys2Proof.Machine.execSliceAtomic id s
  | .watchRequest id => Sys2Proof.Machine.execWatchRequest id s
  | .watchWake r => Sys2Proof.Machine.execWatchWake r s
  | .multicastRequest id => Sys2Proof.Machine.execMulticastRequest id s
  | .multicastTimeout vault entry => Sys2Proof.Machine.execMulticastTimeout vault entry s
  | .multicastRecordExpire vault => Sys2Proof.Machine.execMulticastRecordExpire vault s
  | .aliasRead id => Sys2Proof.Machine.execAliasRead id s
  | .aliasWrite id => Sys2Proof.Machine.execAliasWrite id s
  | .dramRequest stack pc => Sys2Proof.Machine.execDramRequest stack pc s
  | .dramRefresh stack pc bank => Sys2Proof.Machine.execDramRefresh stack pc bank s
  | .selfRefreshEntry stack pc => Sys2Proof.Machine.execSelfRefreshEntry stack pc s
  | .selfRefreshExit stack pc => Sys2Proof.Machine.execSelfRefreshExit stack pc s
  | .selfRefreshExitTimeout stack pc => Sys2Proof.Machine.execSelfRefreshExitTimeout stack pc s
  | .pageWalk core ctx va kind => Sys2Proof.Machine.execPageWalk core ctx va kind s
  | .copyUnitTransfer core id unit => Sys2Proof.Machine.execCopyUnitTransfer core id unit s
  | .copyqEntryPlace core id => Sys2Proof.Machine.execCopyqEntryPlace core id s
  | .engineAccept core matrix => Sys2Proof.Machine.execEngineAccept core matrix s
  | .matrixGroupUpdate core id row col => Sys2Proof.Machine.execMatrixGroupUpdate core id row col s
  | .smmaMetaPop core id => Sys2Proof.Machine.execSmmaMetaPop core id s
  | .accOpProgress core id => Sys2Proof.Machine.execAccOpProgress core id s
  | .peerTargetRequest m => Sys2Proof.Machine.execPeerTargetRequest m s
  | .peerResponse m => Sys2Proof.Machine.execPeerResponse m s
  | .twillFlitReceive port f => Sys2Proof.Machine.execTwillFlitReceive port f s
  | .twillPortDown port => Sys2Proof.Machine.execTwillPortDown port s
  | .peerStreamTimeout ctx dev => Sys2Proof.Machine.execPeerStreamTimeout ctx dev s
  | .collComplete id sends => Sys2Proof.Machine.execCollComplete id sends s
  | .collTimeout id => Sys2Proof.Machine.execCollTimeout id s
  | .flockPlace ctx => Sys2Proof.Machine.execFlockPlace ctx s
  | .herdPlace ctx => Sys2Proof.Machine.execHerdPlace ctx s
  | .flockComplete core slot => Sys2Proof.Machine.execFlockComplete core slot s
  | .flockAbort core slot => Sys2Proof.Machine.execFlockAbort core slot s
  | .abortAllocFree core slot => Sys2Proof.Machine.execAbortAllocFree core slot s
  | .runAccept r => Sys2Proof.Machine.execRunAccept r s
  | .tileEvalPlace ctx run => Sys2Proof.Machine.execTileEvalPlace ctx run s
  | .tileOutcome core slot => Sys2Proof.Machine.execTileOutcome core slot s
  | .sqtail f ctx val => Sys2Proof.Machine.execSqtail f ctx val s
  | .stepBegin ctx => Sys2Proof.Machine.execStepBegin ctx s
  | .runNode ctx node => Sys2Proof.Machine.execRunNode ctx node s
  | .condNode ctx node => Sys2Proof.Machine.execCondNode ctx node s
  | .loopNode ctx node => Sys2Proof.Machine.execLoopNode ctx node s
  | .waitvNode ctx node => Sys2Proof.Machine.execWaitvNode ctx node s
  | .waitvResolve ctx node => Sys2Proof.Machine.execWaitvResolve ctx node s
  | .signalNode ctx node => Sys2Proof.Machine.execSignalNode ctx node s
  | .testNode ctx node => Sys2Proof.Machine.execTestNode ctx node s
  | .testResolve ctx node => Sys2Proof.Machine.execTestResolve ctx node s
  | .endNode ctx node => Sys2Proof.Machine.execEndNode ctx node s
  | .stepComplete ctx => Sys2Proof.Machine.execStepComplete ctx s
  | .serverReplenish kind inst slot => Sys2Proof.Machine.execServerReplenish kind inst slot s
  | .srvAdmit r => Sys2Proof.Machine.execSrvAdmit r s
  | .srvRelease r => Sys2Proof.Machine.execSrvRelease r s
  | .srvUpdate r => Sys2Proof.Machine.execSrvUpdate r s
  | .routeadm ctx hops => Sys2Proof.Machine.execRouteadm ctx hops s
  | .routeAdmitTimeout ctx hop => Sys2Proof.Machine.execRouteAdmitTimeout ctx hop s
  | .admboundWrite kind inst val => Sys2Proof.Machine.execAdmboundWrite kind inst val s
  | .preempt f ctx => Sys2Proof.Machine.execPreempt f ctx s
  | .save f ctx => Sys2Proof.Machine.execSave f ctx s
  | .resume f ctx => Sys2Proof.Machine.execResume f ctx s
  | .skip f ctx => Sys2Proof.Machine.execSkip f ctx s
  | .replay f ctx fid => Sys2Proof.Machine.execReplay f ctx fid s
  | .invtlb f ctx => Sys2Proof.Machine.execInvtlb f ctx s
  | .flushic f ctx => Sys2Proof.Machine.execFlushic f ctx s
  | .ctxcmdDone ctx => Sys2Proof.Machine.execCtxcmdDone ctx s
  | .drainLimit ctx => Sys2Proof.Machine.execDrainLimit ctx s
  | .flockSave core slot => Sys2Proof.Machine.execFlockSave core slot s
  | .contextStopped ctx => Sys2Proof.Machine.execContextStopped ctx s
  | .flockRestore ctx => Sys2Proof.Machine.execFlockRestore ctx s
  | .governorEval => Sys2Proof.Machine.execGovernorEval s
  | .voltageRampDone die => Sys2Proof.Machine.execVoltageRampDone die s
  | .dividerStep die => Sys2Proof.Machine.execDividerStep die s
  | .raiseTimeout die supply => Sys2Proof.Machine.execRaiseTimeout die supply s
  | .ceilWrite die val => Sys2Proof.Machine.execCeilWrite die val s
  | .mgmtTableWrite w => Sys2Proof.Machine.execMgmtTableWrite w s
  | .droopAlarm cluster supply => Sys2Proof.Machine.execDroopAlarm cluster supply s
  | .droopStretchEnd cluster => Sys2Proof.Machine.execDroopStretchEnd cluster s
  | .droopResponseEnd cluster => Sys2Proof.Machine.execDroopResponseEnd cluster s
  | .thermalMark sensor reading => Sys2Proof.Machine.execThermalMark sensor reading s
  | .warnCeilStep die => Sys2Proof.Machine.execWarnCeilStep die s
  | .powerMeasure watts => Sys2Proof.Machine.execPowerMeasure watts s
  | .powerLimitThrottle watts => Sys2Proof.Machine.execPowerLimitThrottle watts s
  | .critEnter sensor => Sys2Proof.Machine.execCritEnter sensor s
  | .critSaveLimit => Sys2Proof.Machine.execCritSaveLimit s
  | .computeRailsOff => Sys2Proof.Machine.execComputeRailsOff s
  | .critRecover failed => Sys2Proof.Machine.execCritRecover failed s
  | .thermalTrip sensor => Sys2Proof.Machine.execThermalTrip sensor s
  | .fwHeartbeat => Sys2Proof.Machine.execFwHeartbeat s
  | .watchdogExpire => Sys2Proof.Machine.execWatchdogExpire s
  | .containedEvent ctx => Sys2Proof.Machine.execContainedEvent ctx s
  | .bankClear bank => Sys2Proof.Machine.execBankClear bank s
  | .patrolScrub g => Sys2Proof.Machine.execPatrolScrub g s
  | .idleSelftest cluster => Sys2Proof.Machine.execIdleSelftest cluster s
  | .selftestAbandon cluster => Sys2Proof.Machine.execSelftestAbandon cluster s
  | .clusterTestEnd cluster logicFail memFail => Sys2Proof.Machine.execClusterTestEnd cluster logicFail memFail s
  | .splitChange vault => Sys2Proof.Machine.execSplitChange vault s
  | .moveStart val => Sys2Proof.Machine.execMoveStart val s
  | .movePageCopy => Sys2Proof.Machine.execMovePageCopy s
  | .moveEnd val => Sys2Proof.Machine.execMoveEnd val s
  | .eqhead f val => Sys2Proof.Machine.execEqhead f val s
  | .eqbase f val => Sys2Proof.Machine.execEqbase f val s
  | .hostWindowAccess f off data n => Sys2Proof.Machine.execHostWindowAccess f off data n s
  | .registerWrite f off width val => Sys2Proof.Machine.execRegisterWrite f off width val s
  | .info => Sys2Proof.Machine.execInfo s
  | .mcread => Sys2Proof.Machine.execMcread s
  | .fwbegin => Sys2Proof.Machine.execFwbegin s
  | .fwdata => Sys2Proof.Machine.execFwdata s
  | .fwend => Sys2Proof.Machine.execFwend s
  | .reset => Sys2Proof.Machine.execReset s
  | .setdev => Sys2Proof.Machine.execSetdev s
  | .setbound => Sys2Proof.Machine.execSetbound s
  | .selftest => Sys2Proof.Machine.execSelftest s
  | .spdmRequest code => Sys2Proof.Machine.execSpdmRequest code s
  | .coldStart => Sys2Proof.Machine.execColdStart s
  | .startStage follows failed => Sys2Proof.Machine.execStartStage follows failed s
  | .vfFlr v => Sys2Proof.Machine.execVfFlr v s
  | .pfReset => Sys2Proof.Machine.execPfReset s
  | .pcieLinkDown => Sys2Proof.Machine.execPcieLinkDown s
  | .pcieLinkUp => Sys2Proof.Machine.execPcieLinkUp s
  | .pseudoChannelRetrain stack pc => Sys2Proof.Machine.execPseudoChannelRetrain stack pc s
  | .eqlog f val => Sys2Proof.Machine.execEqlog f val s
  | .powerLimitRelease watts => Sys2Proof.Machine.execPowerLimitRelease watts s

end Sys2Proof.Machine
end

