-- ==== Sys2Proof/Machine/Clock.lean ====
section
/-! DEFINITION. The passing of time: CTIME, the edges of the dies' and the clusters' clocks, and what happens at them
(R181, R328, R333, R339, R341, R349; log 6). -/

namespace Sys2Proof.Machine

/-- The count that stands for the present clock of a unit: its cluster's or its die's CYCLE, else CTIME. -/
def Dev.stamp (d : Dev) : Dom → Nat
  | .die n => (d.die n).cycle
  | .core n => (d.cluster (clusterOf n)).cycle
  | .droop c => (d.cluster c).cycle
  | .waves c => (d.cluster c).cycle
  | _ => d.ctime

/-- Only the acts of the present clocks count. -/
def Dev.prune (d : Dev) : Dev := { d with seen := d.seen.filter (fun e => e.clock = d.stamp e.dom) }

/-- Edges of a die's clock in `n` ticks at its present rate. -/
def Die.edges (x : Die) (n : Nat) : Nat := if x.powered then (x.phase + n * x.rate) / 16 else 0

/-- A die `n` ticks later. -/
def Die.run (x : Die) (n : Nat) : Die :=
  if x.powered then { x with cycle := x.cycle + x.edges n, phase := (x.phase + n * x.rate) % 16 } else x

/-- Ticks until the last of the edges that fall in `n` ticks. -/
def Die.lastEdge (x : Die) (n : Nat) : Nat := ceilDiv (16 * x.edges n - x.phase) x.rate

/-- A cluster at an edge of its die at CTIME `now`: a stretched clock takes two of them; a response goes through its parts
(R349). -/
def Cluster.edge (now : Nat) (c : Cluster) : Cluster :=
  if c.stretched && !c.half then { c with half := true }
  else ({ c with cycle := c.cycle + 1, edgeAt := now, half := false } : Cluster).stretchEnd.responseEnd

/-- A core at an edge of its cluster: a write of FOLDCFG in the clock before takes effect (R181). -/
def Core.edge (c : Core) : Core :=
  match c.foldNext with
  | some w => { c with foldcfg := w, foldNext := none }
  | none => c

/-- The clusters one tick later. -/
def Dev.clusterEdges (d : Dev) : List Cluster :=
  d.clusters.zipIdx.map (fun (c, i) => if (d.die (i / 16)).edges 1 = 1 then c.edge (d.ctime + 1) else c)

/-- One tick of CTIME. -/
def Dev.tick1 (d : Dev) : Dev :=
  let cs := d.clusterEdges
  let moved (i : Nat) : Bool := (cs[i]?.getD .reset).cycle ≠ (d.cluster i).cycle
  let d1 : Dev :=
    { d with
      ctime := d.ctime + 1,
      dies := d.dies.map (fun x => x.run 1),
      clusters := cs,
      cores := d.cores.zipIdx.map (fun (c, i) => if moved (clusterOf i) then c.edge else c) }
  let d2 := (List.range 4).foldl (fun d i => dividerDone i d) d1
  let freed (i : Nat) : Bool := d.drooping i && !d2.drooping i
  let d3 := (List.range 4).foldl (fun d i => if freed i then d.advance i else d) d2
  ((List.range 64).foldl (fun d k => owe k d) d3).prune

/-- Nothing happens at the coming edges but their counts: no droop response, no divider step, no write of FOLDCFG to take
effect, no context that may overrun its drain limit. -/
def Dev.quiet (d : Dev) : Bool :=
  d.clusters.all (fun c => decide (c.droop = .none) && !c.half) && d.dies.all (fun x => x.step.isNone) &&
    d.cores.all (fun c => c.foldNext.isNone) && d.ctxs.all (fun c => decide (c.cstate ≠ .draining ∧ c.cstate ≠ .saving))

/-- `n` ticks in which nothing happens but the counts of edges. -/
def Dev.glide (d : Dev) (n : Nat) : Dev :=
  ({ d with
    ctime := d.ctime + n,
    dies := d.dies.map (fun x => x.run n),
    clusters := d.clusters.zipIdx.map (fun (c, i) =>
      let x := d.die (i / 16)
      if x.edges n = 0 then c else { c with cycle := c.cycle + x.edges n, edgeAt := d.ctime + x.lastEdge n }) } : Dev).prune

/-- `n` ticks of CTIME. -/
def Dev.ticks : Nat → Dev → Dev
  | 0, d => d
  | n + 1, d => if d.quiet then d.glide (n + 1) else d.tick1.ticks n

end Sys2Proof.Machine
end

