-- ==== Sys2Proof/Machine/Order.lean ====
section
/-! DEFINITION. The order of acts of one clock on one unit (R66, R77, R100, R181, R232, R264, R297, R305, R324, R350, R384,
R389, R411, R439; log 44): each such act has a rank at its unit, and one that comes after an act of higher rank in the same
clock waits for the next clock. -/

namespace Sys2Proof.Machine

/-- An act at a unit: its rank, and whether an act of equal rank bars it too. -/
structure Ranked where
  dom : Dom
  rank : Nat
  strict : Bool
  deriving DecidableEq, Repr

/-! ## What an act does -/

/-- Evictions come after every request to their line (R100). -/
def rankEvict : Nat := 257

/-- A slot of a core: instances by flock slot, then port groups. In a core each comes once in a clock. -/
def slotRanks (core x : Nat) : List Ranked :=
  [⟨.core core, x, true⟩, ⟨.die (dieOf core), 32 * core + x, false⟩, ⟨.slots, 32 * core + x, false⟩]

/-- The place of a tile among those under evaluation. -/
def tileRanks (d : Dev) (core slot : Nat) : List Ranked :=
  match d.flock? core slot with
  | none => []
  | some f =>
    match f.tile, (d.run? f.ctx f.run).bind (·.bounds) with
    | some t, some b => [⟨.run f.ctx f.run, b.running.findIdx (· = t), false⟩]
    | _, _ => []

/-- A port group's slot is one of the clock: the core runs and issue is not withheld. -/
def Dev.slotRuns (d : Dev) (core pg : Nat) : Bool :=
  !d.stopped && decide (core < 256 ∧ pg < 4) && !d.withheld core && (d.die (dieOf core)).powered

/-- A slot of a port group. -/
def slotTurn (d : Dev) (core pg : Nat) : List Ranked :=
  if d.slotRuns core pg then ⟨.server 0 (4 * core + pg), 0, false⟩ :: slotRanks core (16 + pg) else []

/-- A thread's server command: releases and updates before admissions, those by context (R324). -/
def commandRanks (d : Dev) (r : TRef) (admits : Bool) : List Ranked :=
  match d.thread? r with
  | some th => [⟨.server (selKind th.srv.sel) (selInst th.srv.sel), if admits then 2 + th.srv.ctx else 1, false⟩]
  | none => []

/-- A host command to a context, as CTXCMD or as a register write (R389, R411). -/
def ctxRanks (ctx : Nat) (replay : Bool) : List Ranked :=
  ⟨.stop ctx, 0, false⟩ :: (if replay then [⟨.faults ctx, 0, false⟩] else [])

/-- The ranks of the steps of other agents. -/
def agentRanks (i : Instr) (s : State) : List Ranked :=
  let d := s.dev
  match i with
  | .issueSlot core pg => slotTurn d core pg
  | .rendezvousFaultTrap r => if r ∈ slotTraps r.core (pgOf r.t) s then slotTurn d r.core (pgOf r.t) else []
  | .copyUnitTransfer core _ _ => [⟨.server 2 core, 0, false⟩]
  | .matrixGroupUpdate core _ _ _ => [⟨.server 1 core, 0, false⟩]
  | .accOpProgress core _ => [⟨.server 1 core, 0, false⟩]
  | .dramRequest stack _ => [⟨.server 3 stack, 0, false⟩]
  | .srvAdmit r => commandRanks d r true
  | .srvRelease r => commandRanks d r false
  | .srvUpdate r => commandRanks d r false
  | .barrierWaveRelease c => ⟨.waves c, 1, false⟩ :: (List.range 4).map (fun i => ⟨.core (4 * c + i), 64, false⟩)
  | .tileOutcome core slot => tileRanks d core slot
  | .stepComplete ctx => ctxRanks ctx false
  | .replay _ ctx _ => ctxRanks ctx true
  | .preempt _ ctx => ctxRanks ctx false
  | .save _ ctx => ctxRanks ctx false
  | .resume _ ctx => ctxRanks ctx false
  | .skip _ ctx => ctxRanks ctx false
  | .invtlb _ ctx => ctxRanks ctx false
  | .flushic _ ctx => ctxRanks ctx false
  | .registerWrite _ off width val =>
    let w : RegWrite := ⟨off % 0x1000, width, val⟩
    if off < 0x40000 ∧ w.hits 8 4 then ctxRanks (off / 0x1000) (decide (bits (w.over 8 4 0) 0 8 = 5)) else []
  | .droopAlarm cluster _ => [⟨.droop cluster, 0, false⟩]
  | _ => []

/-- The ranks of a turn's act. -/
def Act.ranks (a : Act) (s : State) : List Ranked :=
  match a with
  | .occur i => agentRanks i s
  | .access core slot => if s.dev.stopped || !(s.dev.die (dieOf core)).powered then [] else slotRanks core slot
  | _ => []

/-! ## What a change shows -/

/-- The contexts whose numbers of a kind differ. -/
def ctxsWhere (s t : Dev) (p : Ctx → Ctx → Bool) : List Nat :=
  ((s.ctxs.zip t.ctxs).zipIdx.filter (fun x => p x.1.1 x.1.2)).map (·.2)

/-- Threads of a flock that wait for page faults. -/
def Flock.parked (f : Flock) : Nat :=
  ((f.inst.toList ++ f.threads).filter (fun th => match th.wait with
    | .fault _ => true
    | _ => false)).length

/-- Servers of one list that the other lacks (R324). -/
def serversWithout (xs ys : List Server) : List Server :=
  xs.filter (fun v => ys.all (fun w => ¬(w.kind = v.kind ∧ w.inst = v.inst ∧ w.slot = v.slot ∧ w.ctx = v.ctx)))

/-- Requesters of a context that wait for its page faults, beside its threads: aborted flocks and copies (R407, R411). -/
def Dev.heldFaults (d : Dev) (ctx : Nat) : Nat :=
  (((d.ctx ctx).runs.map (fun r => r.blocked.length)).sum) +
    ((d.cores.flatMap (·.cpy)).filter (fun o => o.ctx = ctx)).foldl (fun n o => n + o.held.length) 0

/-- The places that an act has reached, as it went (R77, R100). -/
def reachedRanks (s t : Dev) : List Ranked :=
  (t.seen.take (t.seen.length - s.seen.length)).map (fun e => ⟨e.dom, e.rank, false⟩)

/-- Lines that have left a slice, beside those that the act reaches: evictions (R100). -/
def evictRanks (s t : Dev) (own : List Ranked) : List Ranked :=
  (s.vaults.zip t.vaults).flatMap (fun (a, b) =>
    (a.lines.filter (fun l => b.lines.all (fun k => k.line ≠ l.line) && own.all (fun r => r.dom ≠ .line l.line))).map
      (fun l => ⟨.line l.line, rankEvict, false⟩))

/-- The acts that the change from `s` to `t` shows, beside those of the turn itself. -/
def shownRanks (s t : Dev) (own : List Ranked) : List Ranked :=
  evictRanks s t (own ++ reachedRanks s t) ++
  ((serversWithout t.servers s.servers).map (fun v => ⟨.server v.kind v.inst, 2 + v.ctx, false⟩)) ++
  ((serversWithout s.servers t.servers).map (fun v => ⟨.server v.kind v.inst, 1, false⟩)) ++
  ((t.admbounds.filter (fun x => kget s.admbounds x.1 ≠ some x.2)).map (fun x => ⟨.server x.1.1 x.1.2, 100, false⟩)) ++
  (((s.clusters.zip t.clusters).zipIdx.filter (fun x => x.1.2.waveClock = x.1.2.cycle ∧
      (x.1.1.waveClock, x.1.1.waveNew) ≠ (x.1.2.waveClock, x.1.2.waveNew))).map (fun x => ⟨.waves x.2, 0, false⟩)) ++
  ((ctxsWhere s t (fun a b => a.sqhead ≠ b.sqhead)).map (fun k => ⟨.ring k, 0, false⟩)) ++
  ((ctxsWhere s t (fun a b => a.sqhead = b.sqhead && (a.sqtail ≠ b.sqtail || a.entries.length ≠ b.entries.length))).map
    (fun k => ⟨.ring k, 1, false⟩)) ++
  ((ctxsWhere s t (fun a b => a.nextFid ≠ b.nextFid)).map (fun k => ⟨.faults k, 1, false⟩)) ++
  (((List.range 64).filter (fun k => decide (s.heldFaults k < t.heldFaults k))).map (fun k => ⟨.faults k, 1, false⟩)) ++
  ((t.flocks.filter (fun f => (s.flock? f.core f.slot).any (fun g => g.parked < f.parked))).map (fun f => ⟨.faults f.ctx, 1, false⟩)) ++
  ((ctxsWhere s t (fun a b => a.cstate ≠ .errstop && b.cstate = .errstop)).map (fun k => ⟨.stop k, 1, false⟩)) ++
  (((s.banks.zip t.banks).zipIdx.filter (fun x => bit x.1.1.status.toNat 63 && !bit x.1.2.status.toNat 63)).map (fun x =>
    ⟨.bank x.2, 0, false⟩))

/-! ## The order -/

/-- `n` ticks of CTIME pass (R341); in them each Twill port has a clock in which it may send (R320). -/
def passTime (n : Nat) (s : State) : State :=
  if n = 0 then s
  else { s with dev := State.pump { s with dev := s.dev.ticks n } }

/-- An act that should have come before one that has been made in the same clock. -/
def Ranked.late (r : Ranked) (d : Dev) : Bool :=
  d.seen.any (fun e => decide (e.dom = r.dom ∧ e.clock = d.stamp r.dom ∧ (r.rank < e.rank ∨ (r.strict ∧ r.rank = e.rank))))

/-- Acts are kept for their clock. -/
def keepRanks (rs : List Ranked) : Dev → Dev := fun d =>
  { d with seen := rs.map (fun r => ⟨r.dom, d.stamp r.dom, r.rank⟩) ++ d.seen }

/-- The acts of a change from `s` to `t` are kept; RISK of a die clears as soon as no step with a raised risk has work
there (R335). -/
def noted (rs : List Ranked) (t : State) : State := { t with dev := riskClear (keepRanks rs t.dev) }

/-- The outcome of a change at `s` that no order holds back. -/
def note (s : State) (o : Host.Outcome State Fault Refusal) : Host.Outcome State Fault Refusal :=
  match o with
  | .next t => .next (noted (shownRanks s.dev t.dev []) t)
  | x => x

/-- An act between `s` and `t` is late in its clock. -/
def lateAct (s t : Dev) (own : List Ranked) : Bool :=
  (own ++ reachedRanks s t ++ shownRanks s t own).any (fun r => r.late s)

/-- The outcome of a turn at `s`, its time passed: an act that is late waits for the next clock. -/
def turnOutcome (t : Turn) (s : State) (o : Host.Outcome State Fault Refusal) : Host.Outcome State Fault Refusal :=
  match o with
  | .next u =>
    let own := t.act.ranks s
    if lateAct s.dev u.dev own then .next { s with dev := { s.dev with agenda := { t with dt := 1 } :: s.dev.agenda } }
    else .next (noted (own ++ shownRanks s.dev u.dev own) u)
  | x => x

/-- The outcome of a chosen group's word at `s`: where its fetch or its accesses would come before requests of the same clock to
one of its lines or blocks that have been made, the group waits a tick (R77, R100). -/
def wordOutcome (s : State) (o : Host.Outcome State Fault Refusal) : Host.Outcome State Fault Refusal :=
  match o with
  | .next t => if (reachedRanks s.dev t.dev).any (fun r => r.late s.dev) then .next (passTime 1 s) else note s o
  | x => x

end Sys2Proof.Machine
end

