-- ==== Sys2Proof/Machine/Place.lean ====
section
/-! DEFINITION. What the step does around instructions: passing time, the access engine's turn, faults of the machine
around the program; and the placement of one instruction for the next step (logs 4, 6, 7). -/

namespace Sys2Proof.Machine

/-- The state in which a fetched word executes. -/
def fetched (g : Group) (s : State) : State := s.apply (fetchGroupE g s)

/-- The turn has left the agenda, and its time has passed (log 6). -/
def turnStart (t : Turn) (s : State) : State :=
  passTime t.dt { s with dev := { s.dev with agenda := s.dev.agenda.tail } }

/-- The access engine issues the next instruction of a flock's instance (R160), after entering its block. -/
def accessTurn (core slot : Nat) : Eff :=
  (settle ⟨core, slot, instId⟩ 64).andThen (look fun s =>
    withE (s.dev.flock? core slot) fun f =>
      withE f.inst fun th =>
        if s.dev.stopped ∨ (s.dev.die (dieOf core)).powered = false ∨ (s.dev.ctx f.ctx).cstate = .saving ∨ th.ended ≠ none ∨ th.enter ≠ none ∨ th.wait ≠ .none then skip
        else upd (fun d => { d with issuing := some ⟨core, f.ctx, false, th.pc, [⟨core, slot, instId⟩]⟩ }))

/-- A core's instruction cache takes a code word with a line that it fetches, or by prefetch (R125). -/
def warmE (core pa : Nat) : Eff := look fun s =>
  let l : Loc := .dram (pa / 8 * 8)
  if 256 ≤ core ∨ inDram pa = false ∨ s.dev.eccBad l 8 then skip
  else upd (fun d => d.cacheWord core (codeKey l) (leNat (s.point l 8)))

/-- A stored granule exists: its unit holds it now. -/
def Dev.holds (d : Dev) (g : Granule) : Bool :=
  match g with
  | .dram pa => inDram pa
  | .vault v off => decide (v < 64 ∧ off < directSize (d.vault v).split)
  | .spad c f off => (d.flock? c f).any (fun x => decide (off < x.kern.spadBytes))
  | .reg c f t v => ((d.flock? c f).bind (fun x => (x.thread? t).map (fun th => (x, th)))).any (fun x => decide (v < x.1.regWords))
  | .acc c f i => (d.flock? c f).any (fun x => decide (i < x.kern.accSlots))
  | .slice pa _ => d.inSlice (pa / 128)
  | .l1 c pa => ((d.core c).line? (pa / 128)).isSome
  | .icache c pa => (d.core c).icache.any (fun x => x.1 / 8 = pa / 8)
  | .borrowed c _ => d.tlbs.any (fun t => t.place = .victim c false)
  | .freeReg c pg lane i => decide (c < 256 ∧ pg < 4 ∧ lane < 32 ∧ i < 2048)
  | .freeAcc c i => decide (c < 256 ∧ i < 786432)

/-- A residue mismatch of an instruction's result (R377, R382): SYND holds the two residues. -/
def residue (core : Nat) (ctx code : Nat) (pc : W64) (again : Bool) : Eff := look fun s =>
  let synd : W64 := s.dev.syndrome &&& 0xF
  (if again then contained ctx (clusterOf core) code (core % 4) pc synd
    else bankRecord (clusterOf core) 1 (some ctx) code (core % 4) pc synd).andThen (upd Dev.fresh)

/-- A fault that ends one request: its context stops, or the request alone is lost (R379). -/
def lostRequest (ctx : Option Nat) (bank code : Nat) : Eff :=
  match ctx with
  | some k => contained k bank code 0 0 0
  | none => containedNone bank code 0 0 0

/-- Faults of the machine around the program (R377, R381, R387, R390): stored bits keep the fault until they are read; the
others are detected at once. Network faults lie in the banks of clusters and crossbars. -/
def upsetE (u : Upset) : Eff := look fun s =>
  match u with
  | .stored g beyond => whenE (s.dev.holds g) (upd (fun d => { d with marks := d.marks ++ [(g, beyond)] }))
  | .lane r again =>
    withE (s.dev.flock? r.core r.slot) fun f =>
      withE (f.thread? r.t) fun th => residue r.core f.ctx 0x1 th.pc again
  | .dot core id again =>
    withE ((s.dev.core core).mat.find? (fun o => o.id = id)) fun o => residue core o.ctx 0x2 o.pc again
  | .bus r =>
    withE (s.dev.flock? r.core r.slot) fun f =>
      withE (f.thread? r.t) fun th => bankRecord (clusterOf r.core) 1 (some f.ctx) 0x3 (r.core % 4) th.pc 0
  | .net bank ctx header again =>
    if !(decide (bank < 64) || decide (72 ≤ bank ∧ bank < 84)) then skip
    else if !again then bankRecord bank 1 ctx 0x30 0 0 0
    else if header then fatal bank 0x30 0 0 0
    else lostRequest ctx bank 0x30
  | .serge link lost =>
    if 8 ≤ link then skip
    else if lost then fatal (84 + link) 0x31 0 0 0
    else bankRecord (84 + link) 1 none 0x31 0 0 0
  | .twill port => if 16 ≤ port then skip else bankRecord (92 + port) 1 none 0x32 0 0 0
  | .ctl bank ctx beyond =>
    if bank < 110 ∨ 112 < bank then skip
    else if beyond && ctx.isSome then lostRequest ctx bank 0x40
    else bankRecord bank 1 ctx 0x40 0 0 0
  | .mgmt bank beyond =>
    if bank < 113 ∨ 116 < bank then skip
    else if beyond then fatal bank 0x50 0 0 0
    else bankRecord bank 1 none 0x50 0 0 0

/-! ## One instruction for the next step (log 7) -/

/-- Where the model lays the page tables and the code of a placed instruction. -/
def placeRoot : Nat := 0x10000
def placeCode : Nat := 0x100000

/-- A kernel of one thread with every register. -/
def placeKern : Kern :=
  { desc := 0, restart := false, bounds := false, access := false, entry := BitVec.ofNat 64 (placeCode - 8), aentry := 0,
    n := 2047, sx := 1, sy := 1, sz := 1, herd := 1, scratch := 4096, acc := 1024, stk := 0,
    fpre := List.replicate 8 0, bedge := 0, bdepth := 0, bbudget := 0, wins := 0 }

/-- A thread as placed, its undefined registers at 0. -/
def placeThread (t : Nat) (pc : W64) : Thread :=
  { t := t, pc := pc, enter := none, blkEnd := pc + 64, intv := false, regs := [], undef := none,
    preds := List.replicate 8 .f, xs := List.replicate 4 0, cnt := ⟨0, 0, 0, 0⟩, rpc := none, helper := false,
    retaddr := 0, srstate := 1, lb := ⟨0, 0, 0, 0⟩, trap := ⟨false, false, 0, 0, 0, 0, 0⟩, srv := ⟨0, 0, 0, 0, []⟩,
    wait := .none, waited := 0, ended := none, iv := ⟨[], [], 0, [], false⟩, converged := false,
    oqpos := List.replicate 8 0, after := [], afterW := [], seen := [], l1floor := 0 }

def placeRegs : PlacedRegs := { ptroot := BitVec.ofNat 64 placeRoot, stkbase := 0, vwbase := 0, vwsize := 0 }

/-- A flock of context 0 with one thread. -/
def placeFlock : Flock :=
  { core := 0, slot := 0, ctx := 0, run := 1, g := 0, fx := 0, fy := 0, fz := 0, hidx := 0, herd := 0,
    kern := placeKern, ks := [], fs := List.replicate 8 0, ms := List.replicate 32 0,
    oq := List.replicate 8 ⟨0, []⟩, committed := true, sigma := some 0, threads := [placeThread 0 (BitVec.ofNat 64 placeCode)],
    inst := none, barDone := false, regs := placeRegs, tile := none, dead := false, finished := false }

/-- Page-table entries that map the first GiB to itself with W and X, and the instruction's words. -/
def placeBytes (w : Nat) : List Write :=
  memWrites placeRoot (leBytes 8 0x11001) ++ memWrites 0x11000 (leBytes 8 0x12001) ++
    memWrites 0x12000 (leBytes 8 0x3F) ++ memWrites placeCode (leBytes 16 w)

/-- The machine with one thread of one flock, chosen to issue, at an instruction with these bits. -/
def placeWord (s : State) (w : Nat) : State :=
  let s1 := s.applyWrites (placeBytes w)
  { s1 with dev :=
    { s.dev with
      flocks := placeFlock :: s.dev.flocks.filter (fun f => ¬(f.core = 0 ∧ f.slot = 0)),
      issuing := some ⟨0, 0, false, BitVec.ofNat 64 placeCode, [⟨0, 0, 0⟩]⟩,
      seen := [],
      stopped := false } }

end Sys2Proof.Machine
end

