-- ==== Sys2Proof/Machine/Step.lean ====
section
/-! DEFINITION. One step of the machine: the chosen issue group's word, or the next turn of the agenda (log 4). -/

namespace Sys2Proof.Machine

/-- One step. A chosen group's word is fetched, decoded and executed, unless its accesses would come too late in their clock (R100); otherwise the next agent on the agenda moves, once its
time has passed; with an empty agenda one tick of CTIME passes. -/
def step (s : State) : Host.Outcome State Fault Refusal :=
  match s.dev.issuing with
  | some g =>
    match fetchGroup s g with
    | .words w lit =>
      match decode w lit with
      | .ok i => wordOutcome s (exec i (fetched g s))
      | .error _ => wordOutcome s (commit issueIllegal (fetched g s))
    | .bad x va => wordOutcome s (commit (fetchFail g x va) s)
  | none =>
    match s.dev.agenda with
    | [] => .next (passTime 1 s)
    | t :: _ =>
      match t.act with
      | .occur i => turnOutcome t (turnStart t s) (exec i (turnStart t s))
      | .access core slot => turnOutcome t (turnStart t s) (commit (accessTurn core slot) (turnStart t s))
      | .upset u => turnOutcome t (turnStart t s) (commit (upsetE u) (turnStart t s))
      | .warm core pa => turnOutcome t (turnStart t s) (commit (warmE core pa) (turnStart t s))
      | .hostRead f off n => turnOutcome t (turnStart t s) (commit (hostRead f off n) (turnStart t s))
      | .hostStore pa bs => turnOutcome t (turnStart t s) (commit (hostStore pa bs) (turnStart t s))

/-- A machine whose very next step fetches and runs the instruction with these bits (log 7). -/
def State.withFetchWord (s : State) (nbits w : Nat) : State := placeWord s (w % 2 ^ nbits)

end Sys2Proof.Machine
end

