-- ==== Sys2Proof/Safety.lean ====
section
/-! DEFINITION. The terms in which claims speak of a run: the canonical form of the stored bytes, and a word that its
group performs. -/

namespace Sys2Proof.Machine

/-! ## Stored bytes -/

/-- Physical memory has its canonical form. -/
def State.MemOk (s : State) : Prop := Memory.wf s.mem = true

/-- Local stores have one record a key, each with its bytes by rising offset. -/
def State.StoOk (s : State) : Prop :=
  (s.sto.map (·.key)).Nodup ∧ ∀ x ∈ s.sto, x.cells.Pairwise (fun a b => a.1 < b.1)

/-- The device has its parts in their numbers (R8, R16, R23, R358, R381). -/
structure Dev.Sizes (d : Dev) : Prop where
  cores : d.cores.length = 256
  clusters : d.clusters.length = 64
  vaults : d.vaults.length = 64
  dies : d.dies.length = 4
  stks : d.stks.length = 8
  ctxs : d.ctxs.length = 64
  queues : d.queues.length = 17
  banks : d.banks.length = 128
  waypart : d.waypart.length = 64

/-! ## A word that performs (R38, R42, R48, R105, R109, R112, R135) -/

/-- The environment of a member at its group's issue. -/
def envAt (s : State) (g : Group) (major : Nat) (b : Body) (row : Row) (r : TRef) (f : Flock) (th : Thread) : Env :=
  ⟨s, s, f, r, f, th, major, b, row, g⟩

/-- A member performs the word: the word is legal for its engine (R113, R135), its guard is true (R109), no register of the
word awaits a result and no wait of the instruction holds (R38), it is no helper for which the word is suppressed (R48),
its operands lie below N and are aligned (R105, R112), no stored bit carries a fault (R377), and for a cross-lane word
its member set is complete (R42, R194). -/
structure Performs (v : Env) : Prop where
  whole : v.s.dev.marks = []
  legal : v.illegal = false
  results : v.blocked = false
  guard : v.guard = .t
  acts : (v.th.helper && suppressed v.major) = false
  operands : v.regBad = none
  goes : v.stays = false
  members : crossLane v.major = true → v.complete = true ∧ v.inGroup = true ∧ v.spoiled = false

/-- The same but for the waits of the single instruction (R38), which a claim then states itself: a word that is no
cross-lane word. -/
structure Fits (v : Env) : Prop where
  whole : v.s.dev.marks = []
  legal : v.illegal = false
  results : v.blocked = false
  guard : v.guard = .t
  acts : (v.th.helper && suppressed v.major) = false
  operands : v.regBad = none

/-- The chosen group's word is this one, a legal encoding (R135), its members are threads of different numbers that stand
at it, and each of them meets `P`. -/
structure AllMeet (s : State) (g : Group) (major : Nat) (b : Body) (row : Row) (P : Env → Prop) : Prop where
  chosen : s.dev.issuing = some g
  encoding : reject major b = none
  word : rowOf major b = some row
  distinct : g.members.Nodup
  each : ∀ r ∈ g.members, ∃ f th, memberOf s g r = some (f, th) ∧ P (envAt s g major b row r f th)

/-- Every member of the chosen group performs the word. -/
def AllPerform (s : State) (g : Group) (major : Nat) (b : Body) (row : Row) : Prop := AllMeet s g major b row Performs

/-- A member changes by `k` of its flock and itself as they stood at the group's issue. -/
def memberChange (s : State) (g : Group) (k : TRef → Flock → Thread → Thread → Thread) (d : Dev) (r : TRef) : Dev :=
  match memberOf s g r with
  | some (f, th) => d.modThread r (k r f th)
  | none => d

/-- Every member of a group changes by `k`, and nothing else does; the group has issued. -/
def State.eachMember (s : State) (g : Group) (k : TRef → Flock → Thread → Thread → Thread) : State :=
  { s with dev := g.members.foldl (memberChange s g k) { s.dev with issuing := none } }

/-! ## What claims say of a word -/

/-- A thread that has taken a branch (R122, R162): its PC is at the target, whose header it enters from the branch word. -/
def Thread.taken (th : Thread) (target : W64) : Thread := { th with waited := 0, pc := target, enter := some th.pc }

/-- A thread that has issued a word of so many words stands at the next word (R38, R122). -/
def Thread.issued (th : Thread) (words : Nat) : Thread := { th.goNext words with waited := 0 }

/-- Wherever every member of the chosen group meets `P`, the instruction answers with the next state in which each member
has changed by `k` of what it meets, and nothing else has changed. -/
def ChangesIf (i : Instr) (major : Nat) (b : Body) (P : Env → Prop) (k : Env → Thread → Thread) : Prop :=
  ∀ s g row, AllMeet s g major b row P →
    exec i s = .next (s.eachMember g (fun r f th => k (envAt s g major b row r f th)))

/-- The same for members that perform the word, are interval threads or not (R79), and meet the condition `c`. -/
def ChangesWhen (i : Instr) (major : Nat) (b : Body) (iv : Bool) (c : Env → Prop) (k : Env → Thread → Thread) : Prop :=
  ChangesIf i major b (fun v => Performs v ∧ v.th.intv = iv ∧ c v) k

/-- The same without a condition. -/
def ChangesMembers (i : Instr) (major : Nat) (b : Body) (iv : Bool) (k : Env → Thread → Thread) : Prop :=
  ChangesWhen i major b iv (fun _ => True) k

/-- The word of an element-mode thread writes `val` to its `n` destination registers. -/
def WritesReg (i : Instr) (major : Nat) (b : Body) (n : Nat) (val : Env → Nat) : Prop :=
  ChangesMembers i major b false (fun v x => (x.wrN n b.vd (val v)).issued v.words)

/-- The word of an element-mode thread writes a predicate. -/
def WritesPred (i : Instr) (major : Nat) (b : Body) (val : Env → Tri) : Prop :=
  ChangesMembers i major b false (fun v x => (x.setPred b.vd.num (val v)).issued v.words)

/-- A truth value as an element-mode predicate. -/
def known (p : Prop) [Decidable p] : Tri := if p then .t else .f

/-- The integer type that VAR names (R134). -/
def Env.ty (v : Env) : ITy := ity v.h.var
/-- How LIT extends under an integer type (R120). -/
def litExt (t : ITy) : LitExt := if t.sg then .sign else .zero
/-- Sources A, B and C under the word's integer type (R115, R120). -/
def Env.intA (v : Env) : Nat := v.srcN v.ty.regs v.b.va (litExt v.ty)
def Env.intB (v : Env) : Nat :=
  match v.b with
  | .i w => immVal w v.ty.regs (litExt v.ty) v.ty.sg
  | b => v.srcN v.ty.regs b.vb (litExt v.ty)
def Env.intC (v : Env) : Nat := v.srcN v.ty.regs v.b.vc (litExt v.ty)
/-- Sources A and B as raw bits, of so many registers: IMM and a 64-bit LIT extend with zeros and signs (R115, R120). -/
def Env.rawA (v : Env) : Nat := v.srcN v.ty.regs v.b.va .sign
def Env.rawOfB (v : Env) (n : Nat) (x : LitExt) : Nat :=
  match v.b with
  | .i w => immVal w n x false
  | b => v.srcN n b.vb x

/-- Element `i` of a register value as an exact integer (R58). -/
def laneVal (t : ITy) (x i : Nat) : Int := t.val (x / 2 ^ (t.w * i))
def Env.elA (v : Env) (i : Nat) : Int := laneVal v.ty v.intA i
def Env.elB (v : Env) (i : Nat) : Int := laneVal v.ty v.intB i
def Env.elC (v : Env) (i : Nat) : Int := laneVal v.ty v.intC i
/-- The register value whose elements are the low bits of these integers. -/
def ofLanes (t : ITy) (f : Nat → Int) : Nat :=
  ((List.range t.k).map (fun i => (f i % (2 ^ t.w : Nat)).toNat * 2 ^ (t.w * i))).sum
/-- An exact integer, held to the type's range with `sat` (R83). -/
def held (t : ITy) (sat : Bool) (x : Int) : Int := if sat then max t.min (min t.max x) else x

/-- Element `i` of a floating source A, B or C as a code; C of the I format is the old destination (R115, R120, R198,
R204). -/
def Env.flA (v : Env) (t : FTy) (i : Nat) : Nat := (v.fsrc t v.b.va).lo / 2 ^ (t.w * i) % 2 ^ t.w
def Env.flB (v : Env) (t : FTy) (i : Nat) : Nat := (v.fsrcB t).lo / 2 ^ (t.w * i) % 2 ^ t.w
def Env.flC (v : Env) (t : FTy) (i : Nat) : Nat :=
  match v.b with
  | .i _ => v.srcN t.regs v.b.vd / 2 ^ (t.w * i) % 2 ^ t.w
  | b => (v.fsrc t b.vc).lo / 2 ^ (t.w * i) % 2 ^ t.w
/-- The register value of element codes. -/
def ofCodes (t : FTy) (f : Nat → Nat) : Nat :=
  ((List.range t.k).map (fun i => f i % 2 ^ t.w * 2 ^ (t.w * i))).sum

/-- Thread `v.r` alone is the chosen group, an element-mode thread, and performs the word. -/
structure Alone (s : State) (major : Nat) (b : Body) (v : Env) : Prop where
  env : v = envAt s v.grp major b v.row v.r v.f v.th
  one : v.grp.members = [v.r]
  stands : memberOf s v.grp v.r = some (v.f, v.th)
  performs : AllPerform s v.grp major b v.row
  element : v.th.intv = false

/-- The same of a word whose own waits the claim states. -/
structure Stands (s : State) (major : Nat) (b : Body) (v : Env) : Prop where
  env : v = envAt s v.grp major b v.row v.r v.f v.th
  one : v.grp.members = [v.r]
  stands : memberOf s v.grp v.r = some (v.f, v.th)
  fits : AllMeet s v.grp major b v.row Fits
  element : v.th.intv = false

/-- The chosen group has issued; nothing else has changed. -/
def State.begun (s : State) : State := { s with dev := { s.dev with issuing := none } }
/-- The environment once its group has issued. -/
def Env.now (v : Env) : Env := { v with s := v.s.begun }

/-- The device changes by `D`, and the one thread of the group goes to its next word. -/
def State.issueBy (s : State) (v : Env) (D : Dev → Dev) : State :=
  { s with dev := (D s.begun.dev).modThread v.r (fun x => x.issued v.words) }

/-- The one thread of the group changes by `k`, and nothing else does. -/
def State.changes (s : State) (v : Env) (k : Thread → Thread) : State :=
  { s with dev := s.begun.dev.modThread v.r k }

/-- Nothing but one thread has changed, and it is `x` now. -/
def State.onlyThread (s t : State) (r : TRef) (x : Thread) : Prop :=
  t.mem = s.mem ∧ t.sto = s.sto ∧ { t.dev with flocks := s.dev.flocks } = s.dev ∧ t.dev.thread? r = some x ∧
    ∀ r', r' ≠ r → t.dev.thread? r' = s.dev.thread? r'

/-- The device has changed by `D`, and nothing else. -/
def State.device (s : State) (D : Dev → Dev) : State := { s with dev := D s.dev }

/-- The bytes of memory, or of local stores, are as before. -/
def State.sameBytes (s t : State) : Prop := t.mem = s.mem ∧ t.sto = s.sto

/-- The second state is the first but for what a step keeps for the order of a clock (log 44), and RISK of dies (R335). -/
def State.apartFromOrder (s t : State) : Prop :=
  s.sameBytes t ∧ { t.dev with seen := s.dev.seen, dies := s.dev.dies } = s.dev ∧
    t.dev.dies.map (fun x => { x with risk := false }) = s.dev.dies.map (fun x => { x with risk := false })

/-- A request that a member sends in device `d`: numbered next, not yet performed, with the order and scope of the word
(R127, R216, R271, R326). -/
structure Asks (d : Dev) (v : Env) (q : Req) (kind : ReqKind) (loc : Loc) (n : Nat) (data : List Byte) (dest : Nat) :
    Prop where
  id : q.id = d.nextId
  ref : q.ref = v.r
  ctx : q.ctx = v.f.ctx
  kind : q.kind = kind
  loc : q.loc = loc
  n : q.n = n
  data : q.data = data
  dest : q.dest = dest
  ord : q.ord = v.b.ord
  scope : q.scope = v.b.scope
  hint : q.hint = v.h.mod
  open_ : q.performed = false ∧ q.l1 = false ∧ q.val = []

/-- The one thread of the group has sent a request: its counter is up (R127), the request is in flight, the device then
changes by `D`, and the thread goes to its next word. -/
def State.sent (s : State) (v : Env) (q : Req) (D : Dev → Dev) : State :=
  { s with dev := (D { (s.dev.modThread v.r (fun x => x.sends q)) with
      reqs := s.dev.reqs ++ [q], nextId := s.dev.nextId + 1 }).modThread v.r (fun x => x.issued v.words) }

/-- Where the access of the one thread leads (R84-R95): a place, whether its value stays out of the caches, and the state
once the access is translated. -/
def Env.leads (v : Env) (rc : Reach) (kind : AccKind) (a : W64) (al dn : Nat) (loc : Loc) (nc : Bool) (s1 : State) : Prop :=
  ∃ pre, v.now.reach rc kind a al dn = .at_ loc nc pre ∧ commit pre v.s.begun = .next s1

/-- The apertures of a word: stack, scratchpad, vault. -/
def allAp : Reach := ⟨true, true, true⟩
def vaultAp : Reach := ⟨false, false, true⟩
def globalAp : Reach := ⟨false, false, false⟩

/-- The handler that a thread of the environment traps to (R397). -/
def Env.handler (v : Env) : W64 := v.s.dev.trapVec v.f.ctx v.r.t
/-- A trap of the thread is delivered to its handler: no handler runs, and one is set (R398, R401). -/
def Env.delivers (v : Env) : Prop := v.th.trap.intrap = false ∧ v.handler ≠ 0

end Sys2Proof.Machine
end

