-- ==== Sys2Proof/Certificates/Slice0/Obligations.lean ====
section
/-! DEFINITION. The statements for the provers. -/

open Sys2Proof Sys2Proof.Machine

/-! ## Integer words -/

/-- R185, R186: IADD, ISUB, IABS, IMIN and IMAX of element-mode threads act on each element of the type that VAR names, on exact
integers, and write the low bits, or with MOD = 1 of IADD, ISUB and IABS the value held to the type's range. R185, R186: IMUL
and IMAD write the low bits of A × B and A × B + C, IMULH the high half of the exact product, rounded toward −∞, IMADW the low
64 bits of the 32-bit A × B plus the 64-bit C, and ISAD the absolute differences of all elements added to C, one .n32
accumulator for a packed type. R186: IADDC adds A, B and, with MOD<0>, a carry in from VC; it writes the low bits, and with
MOD<1> VC takes the carry out of the exact sum. -/
def Obligations.IntegerArithmetic_result : Prop :=
  ((∀ w, WritesReg (.iaddT w) 0x20 (.t w) (ity w.h.var).regs
    (fun v => ofLanes v.ty (fun i => held v.ty (v.h.mod = 1) (v.elA i + v.elB i)))) ∧
  (∀ w, WritesReg (.iaddI w) 0x50 (.i w) (ity w.h.var).regs
    (fun v => ofLanes v.ty (fun i => held v.ty (v.h.mod = 1) (v.elA i + v.elB i)))) ∧
  (∀ w, WritesReg (.isubT w) 0x21 (.t w) (ity w.h.var).regs
    (fun v => ofLanes v.ty (fun i => held v.ty (v.h.mod = 1) (v.elA i - v.elB i)))) ∧
  (∀ w, WritesReg (.isubI w) 0x51 (.i w) (ity w.h.var).regs
    (fun v => ofLanes v.ty (fun i => held v.ty (v.h.mod = 1) (v.elA i - v.elB i)))) ∧
  (∀ w, WritesReg (.iabs w) 0x29 (.t w) (ity w.h.var).regs
    (fun v => ofLanes v.ty (fun i => held v.ty (v.h.mod = 1) |v.elA i|))) ∧
  (∀ w, WritesReg (.iminT w) 0x27 (.t w) (ity w.h.var).regs
    (fun v => ofLanes v.ty (fun i => min (v.elA i) (v.elB i)))) ∧
  (∀ w, WritesReg (.iminI w) 0x53 (.i w) (ity w.h.var).regs
    (fun v => ofLanes v.ty (fun i => min (v.elA i) (v.elB i)))) ∧
  (∀ w, WritesReg (.imaxT w) 0x28 (.t w) (ity w.h.var).regs
    (fun v => ofLanes v.ty (fun i => max (v.elA i) (v.elB i)))) ∧
  (∀ w, WritesReg (.imaxI w) 0x54 (.i w) (ity w.h.var).regs
    (fun v => ofLanes v.ty (fun i => max (v.elA i) (v.elB i))))) ∧
  ((∀ w, WritesReg (.imulT w) 0x23 (.t w) (ity w.h.var).regs (fun v => ofLanes v.ty (fun i => v.elA i * v.elB i))) ∧
  (∀ w, WritesReg (.imulI w) 0x52 (.i w) (ity w.h.var).regs (fun v => ofLanes v.ty (fun i => v.elA i * v.elB i))) ∧
  (∀ w, WritesReg (.imulh w) 0x24 (.t w) (ity w.h.var).regs
    (fun v => ofLanes v.ty (fun i => v.elA i * v.elB i / (2 ^ v.ty.w : Nat)))) ∧
  (∀ w, WritesReg (.imad w) 0x25 (.t w) (ity w.h.var).regs
    (fun v => ofLanes v.ty (fun i => v.elA i * v.elB i + v.elC i))) ∧
  (∀ w, WritesReg (.imadw w) 0x26 (.t w) 2 (fun v =>
    wrap 64 (v.ty.val (v.v32 v.b.va).toNat * v.ty.val (v.v32 v.b.vb).toNat +
      (ity (v.h.var + 2)).val (v.v64 v.b.vc (litExt v.ty)).toNat))) ∧
  (∀ w, WritesReg (.isad w) 0x2A (.t w) (ity w.h.var).regs (fun v =>
    if v.h.var < 4 then ofLanes v.ty (fun i => |v.elA i - v.elB i| + v.elC i)
    else wrap 32 ((v.v32 v.b.vc).toNat +
      ((List.range v.ty.k).map (fun i =>
        |laneVal v.ty (v.v32 v.b.va).toNat i - laneVal v.ty (v.v32 v.b.vb).toNat i|)).sum)))) ∧
  (∀ w, ChangesMembers (.iaddc w) 0x22 (.t w) false (fun v x =>
    let sum := v.srcN v.ty.regs v.b.va + v.srcN v.ty.regs v.b.vb +
      (if bit v.h.mod 0 ∧ v.th.pred v.b.vc.num = .t then 1 else 0)
    let y := x.wrN v.ty.regs v.b.vd sum
    (if bit v.h.mod 1 then y.setPred v.b.vc.num (if 2 ^ v.ty.w ≤ sum then .t else .f) else y).issued v.words))

/-- R185, R187: AND, OR, XOR and ANDN combine A and B bit by bit; bit i of LOGT's result is bit 4·D + 2·B + A of its table, where
D, B and A are the bits i of the old destination and the sources. R187: SHL and SHR multiply and divide A by 2^B, SHRA divides
its signed value rounding toward −∞, for every B, the low bits of the result written; ROTL moves bit j to (j + B) mod w;
FUNNEL writes the high half of Concat(A, B) shifted left by min(C, 32). R188: BFE takes LEN bits of A from POS, sign-extended
for a signed type, bits at w and above being the sign or 0; BFI lays the low LEN bits of B over A at POS; POPC, CLZ and CTZ
count ones, leading and trailing zeros (w when there is no one); BREV reverses the bits. -/
def Obligations.BitWords_result : Prop :=
  ((∀ w, WritesReg (.andT w) 0x2B (.t w) (ity w.h.var).regs
    (fun v => ofBits v.ty.w (fun i => bit v.rawA i && bit (v.rawOfB v.ty.regs .sign) i))) ∧
  (∀ w, WritesReg (.andI w) 0x55 (.i w) (ity w.h.var).regs
    (fun v => ofBits v.ty.w (fun i => bit v.rawA i && bit (v.rawOfB v.ty.regs .sign) i))) ∧
  (∀ w, WritesReg (.orT w) 0x2C (.t w) (ity w.h.var).regs
    (fun v => ofBits v.ty.w (fun i => bit v.rawA i || bit (v.rawOfB v.ty.regs .sign) i))) ∧
  (∀ w, WritesReg (.orI w) 0x56 (.i w) (ity w.h.var).regs
    (fun v => ofBits v.ty.w (fun i => bit v.rawA i || bit (v.rawOfB v.ty.regs .sign) i))) ∧
  (∀ w, WritesReg (.xorT w) 0x2D (.t w) (ity w.h.var).regs
    (fun v => ofBits v.ty.w (fun i => bit v.rawA i != bit (v.rawOfB v.ty.regs .sign) i))) ∧
  (∀ w, WritesReg (.xorI w) 0x57 (.i w) (ity w.h.var).regs
    (fun v => ofBits v.ty.w (fun i => bit v.rawA i != bit (v.rawOfB v.ty.regs .sign) i))) ∧
  (∀ w, WritesReg (.andnT w) 0x2E (.t w) (ity w.h.var).regs
    (fun v => ofBits v.ty.w (fun i => bit v.rawA i && !bit (v.rawOfB v.ty.regs .sign) i))) ∧
  (∀ w, WritesReg (.andnI w) 0x58 (.i w) (ity w.h.var).regs
    (fun v => ofBits v.ty.w (fun i => bit v.rawA i && !bit (v.rawOfB v.ty.regs .sign) i))) ∧
  (∀ w, WritesReg (.logt w) 0x2F (.t w) (ity w.h.var).regs
    (fun v => ofBits v.ty.w (fun i => v.b.vc.num.testBit (4 * (bit (v.srcN v.ty.regs v.b.vd) i).toNat +
      2 * (bit (v.srcN v.ty.regs v.b.vb) i).toNat + (bit v.rawA i).toNat))))) ∧
  ((∀ w, WritesReg (.shlT w) 0x30 (.t w) (ity w.h.var).regs (fun v => v.rawA * 2 ^ v.rawOfB 1 .zero % 2 ^ v.ty.w)) ∧
  (∀ w, WritesReg (.shlI w) 0x59 (.i w) (ity w.h.var).regs (fun v => v.rawA * 2 ^ v.rawOfB 1 .zero % 2 ^ v.ty.w)) ∧
  (∀ w, WritesReg (.shrT w) 0x31 (.t w) (ity w.h.var).regs (fun v => v.rawA / 2 ^ v.rawOfB 1 .zero)) ∧
  (∀ w, WritesReg (.shrI w) 0x5A (.i w) (ity w.h.var).regs (fun v => v.rawA / 2 ^ v.rawOfB 1 .zero)) ∧
  (∀ w, WritesReg (.shraT w) 0x32 (.t w) (ity w.h.var).regs
    (fun v => wrap v.ty.w (toSigned v.ty.w v.rawA / (2 ^ v.rawOfB 1 .zero : Nat)))) ∧
  (∀ w, WritesReg (.shraI w) 0x5B (.i w) (ity w.h.var).regs
    (fun v => wrap v.ty.w (toSigned v.ty.w v.rawA / (2 ^ v.rawOfB 1 .zero : Nat)))) ∧
  (∀ w, WritesReg (.rotlT w) 0x33 (.t w) (ity w.h.var).regs
    (fun v => ofBits v.ty.w (fun i => bit v.rawA ((i + v.ty.w - v.rawOfB 1 .zero % v.ty.w) % v.ty.w)))) ∧
  (∀ w, WritesReg (.rotlI w) 0x5C (.i w) (ity w.h.var).regs
    (fun v => ofBits v.ty.w (fun i => bit v.rawA ((i + v.ty.w - v.rawOfB 1 .zero % v.ty.w) % v.ty.w)))) ∧
  (∀ w, WritesReg (.funnel w) 0x34 (.t w) 1
    (fun v => ((v.v32 v.b.va).toNat * 2 ^ 32 + (v.v32 v.b.vb).toNat) * 2 ^ min (v.v32 v.b.vc).toNat 32 / 2 ^ 32 % 2 ^ 32))) ∧
  ((∀ w, WritesReg (.bfeT w) 0x35 (.t w) (ity w.h.var).regs (fun v =>
    let c := v.srcN v.ty.regs v.b.vb
    let len := min (bits c 8 8) v.ty.w
    let field := ofBits len (fun i => bit v.intA (min (bits c 0 8 + i) (v.ty.w - 1)) &&
      (v.ty.sg || decide (bits c 0 8 + i < v.ty.w)))
    if v.ty.sg ∧ len ≠ 0 then wrap v.ty.w (toSigned len field) else field)) ∧
  (∀ w, WritesReg (.bfeI w) 0x5D (.i w) (ity w.h.var).regs (fun v =>
    let c := w.imm
    let len := min (bits c 8 8) v.ty.w
    let field := ofBits len (fun i => bit v.intA (min (bits c 0 8 + i) (v.ty.w - 1)) &&
      (v.ty.sg || decide (bits c 0 8 + i < v.ty.w)))
    if v.ty.sg ∧ len ≠ 0 then wrap v.ty.w (toSigned len field) else field)) ∧
  (∀ w, WritesReg (.bfi w) 0x36 (.t w) (ity w.h.var).regs (fun v =>
    let c := v.srcN v.ty.regs v.b.vc
    ofBits v.ty.w (fun j => if bits c 0 8 ≤ j ∧ j < bits c 0 8 + bits c 8 8
      then bit (v.srcN v.ty.regs v.b.vb) (j - bits c 0 8) else bit v.rawA j))) ∧
  (∀ w, WritesReg (.popc w) 0x37 (.t w) 1 (fun v => ((List.range v.ty.w).filter (fun i => bit v.rawA i)).length)) ∧
  (∀ w, WritesReg (.clz w) 0x38 (.t w) 1 (fun v => if v.rawA = 0 then v.ty.w else v.ty.w - 1 - Nat.log2 v.rawA)) ∧
  (∀ w, WritesReg (.ctz w) 0x39 (.t w) 1 (fun v => ((List.range v.ty.w).find? (fun i => bit v.rawA i)).getD v.ty.w)) ∧
  (∀ w, WritesReg (.brev w) 0x3A (.t w) (ity w.h.var).regs
    (fun v => ofBits v.ty.w (fun i => bit v.rawA (v.ty.w - 1 - i)))))

/-- R189, R172, R191: PERMB picks four bytes of A and B by the nibbles of C, a nibble of 8 or more giving the byte's sign; PERMN
looks bytes up in a table of 16; MOV copies A; MOVI writes IMM or LIT; MOVK copies a k register or a pair; LEA adds B · 2^sh
to the 64-bit A; APER writes the aperture class. R191, R106: MOVX sets an index register (MOD 0), copies one into a register
(MOD 1), or adds to one (MOD 2). -/
def Obligations.MovesAndIndexes_result : Prop :=
  ((∀ w, WritesReg (.permb w) 0x3B (.t w) 1 (fun v =>
    let byte (s : Nat) : Nat :=
      bits (if s % 8 < 4 then (v.v32 v.b.va).toNat else (v.v32 v.b.vb).toNat) (8 * (s % 4)) 8
    ((List.range 4).map (fun i =>
      let s := bits (v.v32 v.b.vc).toNat (4 * i) 4
      (if s < 8 then byte s else if bit (byte s) 7 then 255 else 0) * 2 ^ (8 * i))).sum)) ∧
  (∀ w, WritesReg (.permn w) 0x3C (.t w) 1 (fun v =>
    let byte (s : Nat) : Nat := bits (if s < 8 then (v.v64 v.b.va).toNat else (v.v64 v.b.vb).toNat) (8 * (s % 8)) 8
    ((List.range 4).map (fun i => byte (bits (v.v32 v.b.vc).toNat (8 * i + 4 * v.h.mod) 4) * 2 ^ (8 * i))).sum)) ∧
  (∀ w, WritesReg (.mov w) 0x40 (.t w) (ity w.h.var).regs (fun v => v.rawA)) ∧
  (∀ w, WritesReg (.movi w) 0x41 (.i w) (ity w.h.var).regs (fun v => v.intB)) ∧
  (∀ w, WritesReg (.movk w) 0x16 (.i w) (ity w.h.var).regs (fun v =>
    (v.f.k (bits w.imm 0 8)).toNat + (if v.ty.regs = 2 then 2 ^ 32 * (v.f.k (bits w.imm 0 8 + 1)).toNat else 0))) ∧
  (∀ w, WritesReg (.leaT w) 0x43 (.t w) 2 (fun v =>
    wrap 64 ((v.v64 v.b.va .zero).toNat + v.ty.val (v.v32 v.b.vb).toNat * (2 ^ w.vc.num : Nat)))) ∧
  (∀ w, WritesReg (.leaI w) 0x5F (.i w) 2 (fun v =>
    wrap 64 ((v.v64 v.b.va .zero).toNat + v.ty.val (immVal w 1 .sign v.ty.sg)))) ∧
  (∀ w, WritesReg (.aper w) 0x44 (.t w) 1 (fun v => aperture (v.v64 v.b.va).toNat))) ∧
  (∀ w, ChangesMembers (.movx w) 0x42 (.t w) false (fun v x =>
    (match v.h.mod with
      | 0 => x.setX v.b.vd.num (v.v32 v.b.va)
      | 1 => x.wrN 1 v.b.vd (v.th.x v.b.va.num).toNat
      | _ => x.setX v.b.vd.num (x.x v.b.vd.num + v.v32 v.b.va)).issued v.words))

/-- A relation of exact integers by its code (R83, R190). -/
abbrev intRelation (c : Nat) (a b : Int) : Prop :=
  (c = 0 ∧ a = b) ∨ (c = 1 ∧ a ≠ b) ∨ (c = 2 ∧ a < b) ∨ (c = 3 ∧ a ≤ b) ∨ (c = 4 ∧ a > b) ∨ (c = 5 ∧ a ≥ b)

/-- R190: ICMP writes to a predicate its old value combined under MOD with the outcome of comparing A and B under the type; the
I format has the relation in IMM<21:19> and B in IMM<18:0>, sign- or zero-extended by the type; relation codes 6 and 7 are
unassigned encodings. PCOMB writes the bit of its table that its two predicates select, the first being the low bit of the
index. SEL takes A where its predicate is TRUE, else B. A destination of p0 discards the result. -/
def Obligations.IntegerCompare_result : Prop :=
  (∀ w, WritesPred (.icmpT w) 0x3E (.t w) (fun v =>
    combine v.h.mod (v.th.pred w.vd.num) (known (intRelation w.vc.num (v.elA 0) (v.elB 0))))) ∧
  (∀ w, WritesPred (.icmpI w) 0x5E (.i w) (fun v =>
    combine v.h.mod (v.th.pred w.vd.num) (known (intRelation (bits w.imm 19 3) (v.elA 0)
      (if v.ty.sg then toSigned 19 w.imm else (bits w.imm 0 19 : Nat)))))) ∧
  (∀ m p q, combine m p q = if m = 0 then q else if m = 1 then p.and q else if m = 2 then p.or q else p.xor q) ∧
  (∀ w l, bits w 56 8 = 0x3E → bit w 55 = false → 6 ≤ bits w 0 11 → ∃ e, decode w l = .error e) ∧
  (∀ w l, bits w 56 8 = 0x5E → 6 ≤ bits w 19 3 → ∃ e, decode w l = .error e) ∧
  (∀ w, ChangesWhen (.pcomb w) 0x3F (.t w) false
    (fun v => v.th.pred w.va.num ≠ .u ∧ v.th.pred w.vb.num ≠ .u)
    (fun v x => (x.setPred w.vd.num (known (w.vc.num.testBit ((if v.th.pred w.va.num = .t then 1 else 0) +
      (if v.th.pred w.vb.num = .t then 2 else 0)) = true))).issued v.words)) ∧
  (∀ w, ChangesWhen (.sel w) 0x3D (.t w) false (fun v => v.th.pred w.vc.num ≠ .u) (fun v x =>
    (x.wrN v.ty.regs w.vd (if v.th.pred w.vc.num = .t then v.rawA else v.srcN v.ty.regs w.vb)).issued v.words)) ∧
  (∀ (th : Thread) p, th.setPred 0 p = th)

/-! ## Cross-lane words (R193-R195) -/

/-- R195: LXCH writes a member the value of the member on the lane that MOD and the lane operand B name, its own where no member
is there; EQMASK the lanes of the members that hold its value; LEAD TRUE in the lowest member that is no helper, in the lowest
of all where all are helpers, FALSE in the others. R195: POLL gives every member whether the predicate is TRUE in all members,
in any, the same in all, or (MOD = 3) the lanes where it is TRUE; REDX gives every member the sum, minimum, maximum or bitwise
OR over the members, SCANX over the members on lanes up to its own; LIT as a 64-bit operand extends with zeros under .n64 and
with its sign as raw bits (R120). -/
def Obligations.CrossLane_result : Prop :=
  ((∀ w, WritesReg (.lxchT w) 0x45 (.t w) (intRegs w.h.var) (fun v =>
    let b := (v.v32 w.vb).toNat
    let lane : Int := match w.h.mod with
      | 0 => (b % 32 : Nat)
      | 1 => (v.r.t % 32 : Nat) - b
      | 2 => (v.r.t % 32 : Nat) + b
      | _ => ((v.r.t % 32) ^^^ (b % 32) : Nat)
    ((v.set.find? (fun u => ((u.r.t % 32 : Nat) : Int) = lane)).getD v).srcN (intRegs w.h.var) w.va)) ∧
  (∀ w, WritesReg (.lxchI w) 0x4B (.i w) (intRegs w.h.var) (fun v =>
    let b := w.imm % 32
    let lane : Int := match w.h.mod with
      | 0 => b
      | 1 => (v.r.t % 32 : Nat) - b
      | 2 => (v.r.t % 32 : Nat) + b
      | _ => ((v.r.t % 32) ^^^ b : Nat)
    ((v.set.find? (fun u => ((u.r.t % 32 : Nat) : Int) = lane)).getD v).srcN (intRegs w.h.var) w.va)) ∧
  (∀ w, WritesReg (.eqmask w) 0x49 (.t w) 1 (fun v =>
    ((v.set.filter (fun u => u.srcN (intRegs w.h.var) w.va = v.srcN (intRegs w.h.var) w.va)).map
      (fun u => 2 ^ (u.r.t % 32))).sum)) ∧
  (∀ w, WritesPred (.lead w) 0x4A (.t w) (fun v =>
    known (((v.set.find? (fun u => !u.th.helper)).orElse (fun _ => v.set.head?)).map (fun u : Env => u.r.t % 32) =
      some (v.r.t % 32))))) ∧
  ((∀ w, ChangesWhen (.poll w) 0x46 (.t w) false (fun v => ∀ u ∈ v.set, u.th.pred w.va.num ≠ .u) (fun v x =>
    let yes := v.set.filter (fun u => u.th.pred w.va.num = .t)
    (match w.h.mod with
      | 0 => x.setPred w.vd.num (known (yes.length = v.set.length))
      | 1 => x.setPred w.vd.num (known (yes ≠ []))
      | 2 => x.setPred w.vd.num (known (yes.length = v.set.length ∨ yes = []))
      | _ => x.wrN 1 w.vd ((yes.map (fun u : Env => 2 ^ (u.r.t % 32))).sum)).issued v.words)) ∧
  (∀ w, WritesReg (.redx w) 0x47 (.t w) (ity w.h.var).regs (fun v =>
    let l := v.set.map (fun u => u.srcN v.ty.regs w.va (if w.h.var = 3 ∧ w.h.mod ≠ 3 then .zero else .sign))
    match w.h.mod with
    | 0 => wrap v.ty.w ((l.map v.ty.val).sum)
    | 1 => wrap v.ty.w ((l.map v.ty.val).min?.getD 0)
    | 2 => wrap v.ty.w ((l.map v.ty.val).max?.getD 0)
    | _ => ofBits v.ty.w (fun i => l.any (fun x => bit x i)))) ∧
  (∀ w, WritesReg (.scanx w) 0x48 (.t w) (ity w.h.var).regs (fun v =>
    let l := (v.set.filter (fun u => u.r.t % 32 ≤ v.r.t % 32)).map
      (fun u => u.srcN v.ty.regs w.va (if w.h.var = 3 ∧ w.h.mod ≠ 3 then .zero else .sign))
    match w.h.mod with
    | 0 => wrap v.ty.w ((l.map v.ty.val).sum)
    | 1 => wrap v.ty.w ((l.map v.ty.val).min?.getD 0)
    | 2 => wrap v.ty.w ((l.map v.ty.val).max?.getD 0)
    | _ => ofBits v.ty.w (fun i => l.any (fun x => bit x i)))))

/-! ## Floating-point words (R197-R211) -/

/-- The minimum (`mx` false) or maximum of two codes (R200): −0 is below +0; a NaN gives way to a number, or with
`nanRule` a NaN operand is delivered quiet, as two NaN always are. -/
def minOrMax (f : FFmt) (mx nanRule : Bool) (a b : Nat) : Nat :=
  match f.isNan a, f.isNan b with
  | true, true => f.quiet a
  | true, false => if nanRule then f.quiet a else b
  | false, true => if nanRule then f.quiet b else a
  | false, false =>
    let below : Bool := (f.dec a).lt (f.dec b) || ((f.dec a).eq (f.dec b) && (f.dec a).neg && !(f.dec b).neg)
    if mx then (if below then b else a) else (if below then a else b)

/-- R199, R61: FADD, FSUB, FMUL, FFMA and their binary64 forms deliver the exact sum, difference, product or A × B + C, rounded
once under VAR; a NaN operand is delivered quiet, an invalid operation as the default NaN. R200, R201: FMIN, FMAX, DMIN and
DMAX deliver the smaller or greater operand under the NaN rule of MOD; FCMP and DCMP combine under MOD the old predicate with
the outcome of their relation code on less, equal, greater or unordered, a code of 8 or more holding of unordered operands
too. R202, R203: the reciprocals, roots and elementary functions write the value that the device's tables give within the
bounds of R202, the same for the same operand (AccuracyBounds_result states the bounds; the free part is Config's, log 12). R204,
R205: the packed words act on both 16-bit elements of the format that MOD names, each rounded once; IDOT4 adds to C the
products of the four byte pairs, held to the range with MOD = 1. -/
def Obligations.FloatWords_result : Prop :=
  ((∀ w, WritesReg (.faddT w) 0x60 (.t w) 1 (fun v => ofCodes tyF32 (fun i =>
    f32.result v.h.var [v.flA tyF32 i, v.flB tyF32 i]
      (FV.add (v.h.var = 3) (f32.dec (v.flA tyF32 i)) (f32.dec (v.flB tyF32 i)))))) ∧
  (∀ w, WritesReg (.faddI w) 0x80 (.i w) 1 (fun v => ofCodes tyF32 (fun i =>
    f32.result v.h.var [v.flA tyF32 i, v.flB tyF32 i]
      (FV.add (v.h.var = 3) (f32.dec (v.flA tyF32 i)) (f32.dec (v.flB tyF32 i)))))) ∧
  (∀ w, WritesReg (.fsub w) 0x61 (.t w) 1 (fun v => ofCodes tyF32 (fun i =>
    f32.result v.h.var [v.flA tyF32 i, v.flB tyF32 i]
      (FV.add (v.h.var = 3) (f32.dec (v.flA tyF32 i)) (f32.dec (v.flB tyF32 i)).negate)))) ∧
  (∀ w, WritesReg (.fmulT w) 0x62 (.t w) 1 (fun v => ofCodes tyF32 (fun i =>
    f32.result v.h.var [v.flA tyF32 i, v.flB tyF32 i] ((f32.dec (v.flA tyF32 i)).mul (f32.dec (v.flB tyF32 i)))))) ∧
  (∀ w, WritesReg (.fmulI w) 0x81 (.i w) 1 (fun v => ofCodes tyF32 (fun i =>
    f32.result v.h.var [v.flA tyF32 i, v.flB tyF32 i] ((f32.dec (v.flA tyF32 i)).mul (f32.dec (v.flB tyF32 i)))))) ∧
  (∀ w, WritesReg (.ffmaT w) 0x63 (.t w) 1 (fun v => ofCodes tyF32 (fun i =>
    f32.result v.h.var [v.flA tyF32 i, v.flB tyF32 i, v.flC tyF32 i]
      (FV.add (v.h.var = 3) ((f32.dec (v.flA tyF32 i)).mul (f32.dec (v.flB tyF32 i))) (f32.dec (v.flC tyF32 i)))))) ∧
  (∀ w, WritesReg (.ffmaI w) 0x82 (.i w) 1 (fun v => ofCodes tyF32 (fun i =>
    f32.result v.h.var [v.flA tyF32 i, v.flB tyF32 i, v.flC tyF32 i]
      (FV.add (v.h.var = 3) ((f32.dec (v.flA tyF32 i)).mul (f32.dec (v.flB tyF32 i))) (f32.dec (v.flC tyF32 i)))))) ∧
  (∀ w, WritesReg (.daddT w) 0x70 (.t w) 2 (fun v => ofCodes tyF64 (fun i =>
    f64.result v.h.var [v.flA tyF64 i, v.flB tyF64 i]
      (FV.add (v.h.var = 3) (f64.dec (v.flA tyF64 i)) (f64.dec (v.flB tyF64 i)))))) ∧
  (∀ w, WritesReg (.daddI w) 0x86 (.i w) 2 (fun v => ofCodes tyF64 (fun i =>
    f64.result v.h.var [v.flA tyF64 i, v.flB tyF64 i]
      (FV.add (v.h.var = 3) (f64.dec (v.flA tyF64 i)) (f64.dec (v.flB tyF64 i)))))) ∧
  (∀ w, WritesReg (.dmulT w) 0x71 (.t w) 2 (fun v => ofCodes tyF64 (fun i =>
    f64.result v.h.var [v.flA tyF64 i, v.flB tyF64 i] ((f64.dec (v.flA tyF64 i)).mul (f64.dec (v.flB tyF64 i)))))) ∧
  (∀ w, WritesReg (.dmulI w) 0x87 (.i w) 2 (fun v => ofCodes tyF64 (fun i =>
    f64.result v.h.var [v.flA tyF64 i, v.flB tyF64 i] ((f64.dec (v.flA tyF64 i)).mul (f64.dec (v.flB tyF64 i)))))) ∧
  (∀ w, WritesReg (.dfma w) 0x72 (.t w) 2 (fun v => ofCodes tyF64 (fun i =>
    f64.result v.h.var [v.flA tyF64 i, v.flB tyF64 i, v.flC tyF64 i]
      (FV.add (v.h.var = 3) ((f64.dec (v.flA tyF64 i)).mul (f64.dec (v.flB tyF64 i))) (f64.dec (v.flC tyF64 i))))))) ∧
  ((∀ w, WritesReg (.fminT w) 0x64 (.t w) 1 (fun v => ofCodes tyF32 (fun i =>
    minOrMax f32 false (w.h.mod = 1) (v.flA tyF32 i) (v.flB tyF32 i)))) ∧
  (∀ w, WritesReg (.fminI w) 0x83 (.i w) 1 (fun v => ofCodes tyF32 (fun i =>
    minOrMax f32 false (w.h.mod = 1) (v.flA tyF32 i) (v.flB tyF32 i)))) ∧
  (∀ w, WritesReg (.fmaxT w) 0x65 (.t w) 1 (fun v => ofCodes tyF32 (fun i =>
    minOrMax f32 true (w.h.mod = 1) (v.flA tyF32 i) (v.flB tyF32 i)))) ∧
  (∀ w, WritesReg (.fmaxI w) 0x84 (.i w) 1 (fun v => ofCodes tyF32 (fun i =>
    minOrMax f32 true (w.h.mod = 1) (v.flA tyF32 i) (v.flB tyF32 i)))) ∧
  (∀ w, WritesReg (.dmin w) 0x73 (.t w) 2 (fun v => ofCodes tyF64 (fun i =>
    minOrMax f64 false (w.h.mod = 1) (v.flA tyF64 i) (v.flB tyF64 i)))) ∧
  (∀ w, WritesReg (.dmax w) 0x74 (.t w) 2 (fun v => ofCodes tyF64 (fun i =>
    minOrMax f64 true (w.h.mod = 1) (v.flA tyF64 i) (v.flB tyF64 i)))) ∧
  (∀ w, WritesPred (.fcmpT w) 0x66 (.t w) (fun v => combine v.h.mod (v.th.pred w.vd.num)
    (known (relHolds w.vc.num ((f32.dec (v.flA tyF32 0)).rel (f32.dec (v.flB tyF32 0))) = true)))) ∧
  (∀ w, WritesPred (.fcmpI w) 0x85 (.i w) (fun v => combine v.h.mod (v.th.pred w.vd.num)
    (known (relHolds (bits w.imm 18 4) ((f32.dec (v.flA tyF32 0)).rel (f32.dec (w.imm % 2 ^ 18 * 2 ^ 14))) = true)))) ∧
  (∀ w, WritesPred (.dcmp w) 0x75 (.t w) (fun v => combine v.h.mod (v.th.pred w.vd.num)
    (known (relHolds w.vc.num ((f64.dec (v.flA tyF64 0)).rel (f64.dec (v.flB tyF64 0))) = true))))) ∧
  ((∀ w, WritesReg (.frcp w) 0x67 (.t w) 1 (fun v => ofCodes tyF32 (fun i => frcpVal (v.flA tyF32 i)))) ∧
  (∀ w, WritesReg (.frsq w) 0x68 (.t w) 1 (fun v => ofCodes tyF32 (fun i => frsqVal (v.flA tyF32 i)))) ∧
  (∀ w, WritesReg (.fsqrt w) 0x69 (.t w) 1 (fun v => ofCodes tyF32 (fun i => fsqrtVal w.h.var (v.flA tyF32 i)))) ∧
  (∀ w, WritesReg (.fexp2 w) 0x6A (.t w) 1 (fun v => ofCodes tyF32 (fun i => fexp2Val (v.flA tyF32 i)))) ∧
  (∀ w, WritesReg (.flog2 w) 0x6B (.t w) 1 (fun v => ofCodes tyF32 (fun i => flog2Val (v.flA tyF32 i)))) ∧
  (∀ w, WritesReg (.fsin w) 0x6C (.t w) 1 (fun v => ofCodes tyF32 (fun i => fsinVal (v.flA tyF32 i)))) ∧
  (∀ w, WritesReg (.fcos w) 0x6D (.t w) 1 (fun v => ofCodes tyF32 (fun i => fcosVal (v.flA tyF32 i)))) ∧
  (∀ w, WritesReg (.ftanh w) 0x6E (.t w) 1 (fun v => ofCodes tyF32 (fun i => ftanhVal (v.flA tyF32 i)))) ∧
  (∀ w, WritesReg (.drcp w) 0x76 (.t w) 2 (fun v => ofCodes tyF64 (fun i => drcpVal (v.flA tyF64 i))))) ∧
  ((∀ w, WritesReg (.pkadd w) 0x77 (.t w) 1 (fun v => let t := tyPacked w.h.mod; ofCodes t (fun i =>
    t.f.result v.h.var [v.flA t i, v.flB t i] (FV.add (v.h.var = 3) (t.f.dec (v.flA t i)) (t.f.dec (v.flB t i)))))) ∧
  (∀ w, WritesReg (.pksub w) 0x7A (.t w) 1 (fun v => let t := tyPacked w.h.mod; ofCodes t (fun i =>
    t.f.result v.h.var [v.flA t i, v.flB t i]
      (FV.add (v.h.var = 3) (t.f.dec (v.flA t i)) (t.f.dec (v.flB t i)).negate)))) ∧
  (∀ w, WritesReg (.pkmul w) 0x78 (.t w) 1 (fun v => let t := tyPacked w.h.mod; ofCodes t (fun i =>
    t.f.result v.h.var [v.flA t i, v.flB t i] ((t.f.dec (v.flA t i)).mul (t.f.dec (v.flB t i)))))) ∧
  (∀ w, WritesReg (.pkfma w) 0x79 (.t w) 1 (fun v => let t := tyPacked w.h.mod; ofCodes t (fun i =>
    t.f.result v.h.var [v.flA t i, v.flB t i, v.flC t i]
      (FV.add (v.h.var = 3) ((t.f.dec (v.flA t i)).mul (t.f.dec (v.flB t i))) (t.f.dec (v.flC t i)))))) ∧
  (∀ w, WritesReg (.pkmin w) 0x7B (.t w) 1 (fun v => let t := tyPacked w.h.mod; ofCodes t (fun i =>
    minOrMax t.f false false (v.flA t i) (v.flB t i)))) ∧
  (∀ w, WritesReg (.pkmax w) 0x7C (.t w) 1 (fun v => let t := tyPacked w.h.mod; ofCodes t (fun i =>
    minOrMax t.f true false (v.flA t i) (v.flB t i)))) ∧
  (∀ w, WritesReg (.idot4 w) 0x7D (.t w) 1 (fun v =>
    let acc : ITy := ⟨v.ty.sg, 32, 1⟩
    wrap 32 (held acc (w.h.mod = 1) (acc.val (v.v32 w.vc).toNat +
      ((List.range 4).map (fun i => laneVal v.ty (v.v32 w.va).toNat i * laneVal v.ty (v.v32 w.vb).toNat i)).sum)))))

/-- R208-R210: CVT and CVTS convert between the two types of IMM; CVTN with DIR = 0 and PACKN write narrow codes into their
places of the old destination, the other bits unchanged, drawing from SRSTATE where VAR is stochastic; CVTN with DIR = 1 and
UNPACKN deliver narrow elements as standard codes. The format register's width must be the word's. The rows of R208: between
integers CVT keeps the low bits and CVTS clamps; a float to an integer rounds under VAR and clamps, a NaN giving 0; an
integer to a float rounds the exact integer, CVTS saturating first; a float to a float rounds under VAR, a NaN following R61;
to E8M0 a positive number rounds and clamps, +∞ is 0xFF or with CVTS 254, anything else 0xFF; E8M0 reads as its value, 0xFF
as NaN. That CVTN with DIR = 1 and MOD 1 saturates to the standard format is the model's reading of R209 (log 30). -/
def Obligations.Conversions_result : Prop :=
  ((∀ (a b : ITy) mode c, convPt (.int a) (.int b) false mode c = wrap (max 32 b.w) (b.val (wrap b.w (a.val c))) ∧
    convPt (.int a) (.int b) true mode c = wrap (max 32 b.w) (max b.min (min b.max (a.val c)))) ∧
  (∀ (f : FFmt) (b : ITy) sat mode c,
    let x := f.dec (c % 2 ^ f.width)
    (x.isNan = true → convPt (.flt f) (.int b) sat mode c = 0) ∧
    (x = .inf false → convPt (.flt f) (.int b) sat mode c = wrap (max 32 b.w) b.max) ∧
    (x = .inf true → convPt (.flt f) (.int b) sat mode c = wrap (max 32 b.w) b.min) ∧
    (∀ s m e, x = .fin s m e →
      convPt (.flt f) (.int b) sat mode c = wrap (max 32 b.w) (max b.min (min b.max (x.toInt mode))))) ∧
  (∀ (a : ITy) (g : FFmt) mode c, convPt (.int a) (.flt g) false mode c = g.round mode 0 (.ofInt (a.val c)) ∧
    convPt (.int a) (.flt g) true mode c = g.round mode 0 (g.saturate (.ofInt (a.val c)))) ∧
  (∀ (f g : FFmt) mode c, f.isNan (c % 2 ^ f.width) = false →
    convPt (.flt f) (.flt g) false mode c = g.round mode 0 (f.dec (c % 2 ^ f.width)) ∧
    convPt (.flt f) (.flt g) true mode c = g.round mode 0 (g.saturate (f.dec (c % 2 ^ f.width)))) ∧
  (∀ mode c, f32.isNan (c % 2 ^ 32) = true → convPt (.flt f32) (.flt f32) false mode c = f32.quiet (c % 2 ^ 32)) ∧
  (∀ (f : FFmt) sat mode c,
    let x := f.dec (c % 2 ^ f.width)
    (x = .inf false → convPt (.flt f) .e8 sat mode c = if sat then 254 else 255) ∧
    (x ≠ .inf false → convPt (.flt f) .e8 sat mode c = encE8 x)) ∧
  (∀ (g : FFmt) (b : ITy) sat mode c, (c % 256 = 255 →
      convPt .e8 (.flt g) sat mode c = g.defNan ∧ convPt .e8 (.int b) sat mode c = 0) ∧
    (c % 256 ≠ 255 → convPt .e8 (.flt g) false mode c = g.round mode 0 (decE8 (c % 256))))) ∧
  (∀ w, WritesReg (.cvt w) 0x88 (.i w) (cvtRegs (bits w.imm 0 6)) (fun v =>
    convPt (ctype (bits w.imm 6 6)) (ctype (bits w.imm 0 6)) false w.h.var
      (v.srcN (cvtRegs (bits w.imm 6 6)) w.va % 2 ^ (ctype (bits w.imm 6 6)).width))) ∧
  (∀ w, WritesReg (.cvts w) 0x8A (.i w) (cvtRegs (bits w.imm 0 6)) (fun v =>
    convPt (ctype (bits w.imm 6 6)) (ctype (bits w.imm 0 6)) true w.h.var
      (v.srcN (cvtRegs (bits w.imm 6 6)) w.va % 2 ^ (ctype (bits w.imm 6 6)).width))) ∧
  (∀ w, ChangesWhen (.cvtn w) 0x89 (.i w) false
    (fun v => (narrowFmt (v.f.freg (bits w.imm 0 3))).width = widBits (bits w.imm 3 2) ∧
      bits w.imm 6 4 ∈ [8, 9, 10, 11])
    (fun v x =>
      let f := narrowFmt (v.f.freg (bits w.imm 0 3))
      let std := bits w.imm 6 4
      if bit w.imm 5 then
        match ctype std with
        | .flt g => (x.wrN (cvtRegs std) w.vd
            (widenEl f g (w.h.mod = 1) w.h.var (getElem (bits w.imm 3 2) (bits w.imm 10 3) (v.v32 w.va).toNat))).issued v.words
        | _ => x.issued v.words
      else
        let r := roundAll f w.h.var v.th.srstate [satIf (w.h.mod = 1) f ((ctype std).val (v.srcN (cvtRegs std) w.va))]
        ({ x.wrN 1 w.vd (putElem (bits w.imm 3 2) (bits w.imm 10 3) (v.v32 w.vd).toNat (r.1.headD 0)) with
            srstate := r.2 } : Thread).issued v.words)) ∧
  (∀ w, ChangesWhen (.packn w) 0x8B (.t w) false
    (fun v => (narrowFmt (v.f.freg (bits w.vc.num 0 3))).width = widBits (bits w.vc.num 3 2))
    (fun v x =>
      let f := narrowFmt (v.f.freg (bits w.vc.num 0 3))
      let wid := bits w.vc.num 3 2
      let pos := bits w.vc.num 5 3
      let r := roundAll f w.h.var v.th.srstate
        [satIf (w.h.mod = 1) f (f32.dec (v.v32 w.va).toNat), satIf (w.h.mod = 1) f (f32.dec (v.v32 w.vb).toNat)]
      ({ x.wrN 1 w.vd (putElem wid (pos + 1) (putElem wid pos (v.v32 w.vd).toNat (r.1[0]?.getD 0)) (r.1[1]?.getD 0)) with
          srstate := r.2 } : Thread).issued v.words)) ∧
  (∀ w, ChangesWhen (.unpackn w) 0x8C (.t w) false
    (fun v => (narrowFmt (v.f.freg (bits w.vc.num 0 3))).width = widBits (bits w.vc.num 3 2))
    (fun v x =>
      let f := narrowFmt (v.f.freg (bits w.vc.num 0 3))
      let el (i : Nat) : Nat :=
        widenEl f f32 false w.h.var (getElem (bits w.vc.num 3 2) (bits w.vc.num 5 3 + i) (v.v32 w.va).toNat)
      (x.wrN 2 w.vd (el 0 + 2 ^ 32 * el 1)).issued v.words))

/-! ## Control flow (R162, R164, R400) -/

/-- R117, R162: the target of a branch word is its address plus 8·OFF, OFF a signed 24-bit number; BRA and CALL go there, BRC
does so when the signed register in VA meets nz, z, lt or ge against 0 and else goes to the next word; VA of every other
branch word is 2047. CALL and CALLI set RETADDR to the address after the word and its literal; CALLI and JMPI go to the
address in a register pair, RET to RETADDR. -/
def Obligations.Branches_result : Prop :=
  (∀ w, ChangesMembers (.bra w) 0x01 (.b w) false
    (fun v x => x.taken (v.th.pc + 8 * (BitVec.ofNat 24 w.off).signExtend 64))) ∧
  (∀ w, ChangesMembers (.brc w) 0x02 (.b w) false (fun v x =>
    let a := (v.v32 w.va).toInt
    if (w.h.mod = 0 ∧ a ≠ 0) ∨ (w.h.mod = 1 ∧ a = 0) ∨ (w.h.mod = 2 ∧ a < 0) ∨ (w.h.mod = 3 ∧ 0 ≤ a)
    then x.taken (v.th.pc + 8 * (BitVec.ofNat 24 w.off).signExtend 64) else x.issued v.words)) ∧
  (∀ w, ChangesMembers (.call w) 0x03 (.b w) false (fun v x =>
    ({ x with retaddr := v.th.pc + 8 } : Thread).taken (v.th.pc + 8 * (BitVec.ofNat 24 w.off).signExtend 64))) ∧
  (∀ w, ChangesMembers (.calli w) 0x04 (.t w) false (fun v x =>
    ({ x with retaddr := v.th.pc + (if w.h.long then 16 else 8) } : Thread).taken (v.v64 w.va))) ∧
  (∀ w, ChangesMembers (.jmpi w) 0x05 (.t w) false (fun v x => x.taken (v.v64 w.va))) ∧
  (∀ w, ChangesWhen (.ret w) 0x06 (.t w) false (fun v => v.th.retaddr ≠ 0) (fun v x => x.taken v.th.retaddr)) ∧
  (∀ w, rangeOk (.b w) = true → -(2 ^ 23) ≤ (BitVec.ofNat 24 w.off).toInt ∧ (BitVec.ofNat 24 w.off).toInt < 2 ^ 23) ∧
  (∀ major w, reject major (.b w) = none → major ≠ 0x02 → w.va = .direct 2047)

/-! ## Waits, identity, system registers -/

/-- R164, R175, R48, R266: NOP has no effect; YIELD makes a thread not ready for the next 8 granted slots, an instance not; SLEEP
makes it not ready until CTIME reaches the wake time, at once if it has; DEMOTE makes it a helper; BMODE sets its launch
bounds mode. R173, R174, R265, R375: TIME writes the CYCLE count of the thread's cluster (MOD 0) or CTIME at the start of the
cluster's present edge (MOD 1); TID the component
of the thread's identity; SLACK what the governor published for the thread's context on its die, 2^63 − 1 while TVALID is 0. -/
def Obligations.ModesAndIdentity_result : Prop :=
  ((∀ w iv, ChangesMembers (.nop w) 0x00 (.t w) iv (fun v x => x.issued v.words)) ∧
  (∀ w, ChangesMembers (.yield w) 0x0A (.t w) false (fun v x =>
    (if v.r.t = instId then x else { x with wait := .yield 8 }).issued v.words)) ∧
  (∀ w, ChangesMembers (.sleep w) 0x17 (.t w) false (fun v x =>
    (if (v.v64 w.va .zero).toNat ≤ v.s.dev.ctime then x
      else { x with wait := .sleep (v.v64 w.va .zero).toNat }).issued v.words)) ∧
  (∀ w, ChangesMembers (.demote w) 0x08 (.t w) false (fun v x => ({ x with helper := true } : Thread).issued v.words)) ∧
  (∀ w, ChangesWhen (.bmode w) 0x1D (.i w) false (fun v => w.h.mod = 2 → (v.v32 w.va).toNat % 2 ^ 16 ≠ 0) (fun v x =>
    ({ x with lb := if w.h.mod = 2
        then ⟨2, bits w.imm 0 2, bits w.imm 2 3, (v.v32 w.va).toNat % 2 ^ 16⟩ else ⟨w.h.mod, 0, 0, 0⟩ } : Thread).issued
      v.words))) ∧
  ((∀ w, WritesReg (.time w) 0x14 (.t w) 2 (fun v =>
    if w.h.mod = 0 then (v.s.dev.cluster (v.r.core / 4)).cycle else (v.s.dev.cluster (v.r.core / 4)).edgeAt)) ∧
  (∀ w, WritesReg (.tid w) 0x15 (.t w) 1 (fun v =>
    let k := v.f.kern
    let tx := v.r.t % k.sx
    let ty := v.r.t / k.sx % k.sy
    let tz := v.r.t / (k.sx * k.sy)
    match w.va.num with
    | 0 => tx
    | 1 => ty
    | 2 => tz
    | 3 => v.r.t
    | 4 => v.f.fx
    | 5 => v.f.fy
    | 6 => v.f.fz
    | 7 => v.f.hidx
    | 8 => v.r.core
    | 9 => v.r.slot
    | 10 => v.f.fx * k.sx + tx
    | 11 => v.f.fy * k.sy + ty
    | _ => v.f.fz * k.sz + tz)) ∧
  (∀ w, WritesReg (.slack w) 0x1C (.t w) 2 (fun v =>
    let x := v.s.dev.die (v.r.core / 64)
    if x.tvalid then ((x.slack[v.f.ctx]?).getD 0x7FFFFFFFFFFFFFFF).toNat else 2 ^ 63 - 1)))

/-- R203: the results of a function of one binary32 operand on +0, −0, +∞ and −∞. -/
abbrev onSpecials (g : Nat → Nat) (atZero atNegZero atInf atNegInf : Nat) : Prop :=
  g 0 = atZero ∧ g 0x80000000 = atNegZero ∧ g 0x7F800000 = atInf ∧ g 0xFF800000 = atNegInf

/-- R202, R203: the bounds of the functions whose words FloatWords_result names. FRCP of a finite operand but zero keeps its
sign, and is infinite where the reciprocal exceeds the largest finite value; else no binary32 value lies between it and the
reciprocal, and it is the reciprocal where that is a binary32 value; so FRSQ of a positive operand. FSQRT is the square root
rounded under VAR: it lies on the same side of each value's rounding as the root of that value. DRCP is within a relative 2^-23
of a normal reciprocal. FEXP2 of an integer, FLOG2 of a power of two and FTANH from 9.1 on are exact; elsewhere FEXP2, FLOG2,
FSIN, FCOS and FTANH lie within the bounds of R202 of the model's functions exp2Any, log2Val, sinVal, cosVal and tanhVal, its
series for these functions, of more than 80 bits (log 12). Special operands give the results of R203, and a NaN operand
itself, quiet. -/
def Obligations.AccuracyBounds_result : Prop :=
  (∀ a s m e, f32.dec a = .fin s m e → m ≠ 0 →
    let x := FV.fin s m e
    let r := f32.dec (frcpVal a)
    let y (c : Nat) : FV := (f32.dec c).mul x
    r.neg = s ∧
    (((f32.dec 0x7F7FFFFF).mul x.abs).lt (.ofInt 1) = true → r = .inf s) ∧
    (((f32.dec 0x7F7FFFFF).mul x.abs).lt (.ofInt 1) = false → r.isInf = false ∧ r.isNan = false ∧
      ∀ c, ¬((r.mul x).lt (y c) = true ∧ (y c).lt (.ofInt 1) = true) ∧
        ¬((FV.ofInt 1).lt (y c) = true ∧ (y c).lt (r.mul x) = true) ∧
        ((y c).eq (.ofInt 1) = true → (r.mul x).eq (.ofInt 1) = true))) ∧
  (∀ a m e, f32.dec a = .fin false m e → m ≠ 0 →
    let x := FV.fin false m e
    let r := f32.dec (frsqVal a)
    let y (v : FV) : FV := (v.mul v).mul x
    r.neg = false ∧ r.isInf = false ∧ r.isNan = false ∧
    ∀ c < 0x80000000, ¬((y r).lt (y (f32.dec c)) = true ∧ (y (f32.dec c)).lt (.ofInt 1) = true) ∧
      ¬((FV.ofInt 1).lt (y (f32.dec c)) = true ∧ (y (f32.dec c)).lt (y r) = true) ∧
      ((y (f32.dec c)).eq (.ofInt 1) = true → (y r).eq (.ofInt 1) = true)) ∧
  (∀ a m e mode n k, f32.dec a = .fin false m e → m ≠ 0 → mode < 4 →
    let x := FV.fin false m e
    let v := FV.fin false n k
    let r := f32.dec (fsqrtVal mode a)
    ((v.mul v).le x = true → (f32.dec (f32.round mode 0 v)).le r = true) ∧
    (x.le (v.mul v) = true → r.le (f32.dec (f32.round mode 0 v)) = true)) ∧
  (∀ a s m e, f64.dec a = .fin s m e → m ≠ 0 →
    let x := FV.fin s m e
    (((f64.dec 0x7FEFFFFFFFFFFFFF).mul x.abs).lt (.ofInt 1) = true → f64.dec (drcpVal a) = .inf s) ∧
    (((f64.dec 0x7FEFFFFFFFFFFFFF).mul x.abs).lt (.ofInt 1) = false → x.abs.le (.pow2 1022) = true →
      ((f64.dec (drcpVal a)).mul x).within (.ofInt 1) (.pow2 (-23)) = true)) ∧
  (∀ a s m e, f32.dec a = .fin s m e →
    let x := FV.fin s m e
    (∀ n : Int, -149 ≤ n → n ≤ 127 → x.eq (.ofInt n) = true → (f32.dec (fexp2Val a)).eq (.pow2 n) = true) ∧
    ((FV.ofInt 128).le x = true → fexp2Val a = 0x7F800000) ∧
    (f32.exceeds (exp2Any x) = false →
      (f32.dec (fexp2Val a)).within (exp2Any x) (f32.ulps 2 (exp2Any x)) = true ∧ (f32.dec (fexp2Val a)).neg = false) ∧
    (s = false → m ≠ 0 →
      (∀ n : Int, x.eq (.pow2 n) = true → (f32.dec (flog2Val a)).eq (.ofInt n) = true) ∧
      ((∀ n : Int, x.eq (.pow2 n) = false) → (f32.dec (flog2Val a)).within (log2Val x)
        (if (FV.pow2 (-1)).le x = true ∧ x.le (.pow2 1) = true then .pow2 (-22) else f32.ulps 2 (log2Val x)) = true)) ∧
    (f32.dec (fsinVal a)).within (sinVal x) (.pow2 (-21)) = true ∧
    (f32.dec (fcosVal a)).within (cosVal x) (.pow2 (-21)) = true ∧
    ((FV.ofInt 91).le ((FV.ofInt 10).mul x.abs) = true → (f32.dec (ftanhVal a)).eq (.ofInt (if s then -1 else 1)) = true) ∧
    ((FV.ofInt 91).le ((FV.ofInt 10).mul x.abs) = false →
      (f32.dec (ftanhVal a)).within (tanhVal x) (.pow2 (-21)) = true)) ∧
  (onSpecials frcpVal 0x7F800000 0xFF800000 0 0x80000000 ∧ onSpecials frsqVal 0x7F800000 0xFF800000 0 0x7FC00000 ∧
    (∀ mode, onSpecials (fsqrtVal mode) 0 0x80000000 0x7F800000 0x7FC00000) ∧
    onSpecials fexp2Val 0x3F800000 0x3F800000 0x7F800000 0 ∧
    onSpecials flog2Val 0xFF800000 0xFF800000 0x7F800000 0x7FC00000 ∧
    onSpecials fsinVal 0 0x80000000 0x7FC00000 0x7FC00000 ∧ onSpecials fcosVal 0x3F800000 0x3F800000 0x7FC00000 0x7FC00000 ∧
    onSpecials ftanhVal 0 0x80000000 0x3F800000 0xBF800000) ∧
  (drcpVal 0 = 0x7FF0000000000000 ∧ drcpVal (2 ^ 63) = 0xFFF0000000000000 ∧ drcpVal 0x7FF0000000000000 = 0 ∧
    drcpVal 0xFFF0000000000000 = 2 ^ 63) ∧
  (∀ a m e, f32.dec a = .fin true m e → m ≠ 0 →
    frsqVal a = 0x7FC00000 ∧ (∀ mode, fsqrtVal mode a = 0x7FC00000) ∧ flog2Val a = 0x7FC00000) ∧
  (∀ a s, f32.dec a = .nan s → ∀ g ∈ [frcpVal, frsqVal, fsqrtVal 0, fsqrtVal 1, fsqrtVal 2, fsqrtVal 3, fexp2Val, flog2Val,
    fsinVal, fcosVal, ftanhVal], g a = a ||| 2 ^ 22) ∧
  (∀ a s, f64.dec a = .nan s → drcpVal a = a ||| 2 ^ 51)

/-- R178-R180: MFSR writes a register's value to VD where the thread may read it; among the registers: SRSTATE, RETADDR, the
context, the core, the format registers, FOLDCFG, the trap registers, SPLIT, WAYPART, GOVCFG, DROOPCFG, SLOPELIM and THERMSTAT
as State holds them. R181, R70: MTSR to a register of the thread itself writes it: SRSTATE (0 becoming 1), RETADDR, TRAPPC,
TRAPCODE, TRAPADDR, and the staged SRVSEL, SRVQ and SRVT. R181, R101, R45, R337, R350, R351, R63: a privileged MTSR to a
register of the device writes it with its reserved bits zero: FOLDCFG of the thread's core, as the value of its next clock,
a WAYPART, GOVCFG, DROOPCFG and
SLOPELIM of a cluster; any thread writes a format register of its flock. R184: TLBINV in privileged mode removes the context's
entries that cover the page of the address (MOD 0), the context's entries (MOD 1), or all (MOD 2). R350: a write of DROOPCFG
comes after an alarm of its clock. R183: FLUSHI invalidates every line of the issuing core's instruction cache, at once, so
that every fetch that the core starts after it reads code from memory; it reaches no other core. In interval mode it issues
with no effect. -/
def Obligations.SystemRegisters_result : Prop :=
  ((∀ w, ChangesWhen (.mfsr w) 0x10 (.i w) false
    (fun v => v.r.t ≠ instId ∧ (privileged v.f v.th = true ∨ (sysReg (w.imm % 4096)).map (·.rdPriv) = some false))
    (fun v x => (x.wrN (intRegs w.h.var) w.vd (v.sysRead (w.imm % 4096))).issued v.words)) ∧
  (∀ v : Env,
    v.sysRead 0x000 = v.th.srstate.toNat ∧ v.sysRead 0x001 = v.th.retaddr.toNat ∧ v.sysRead 0x002 = v.f.ctx ∧
    v.sysRead 0x003 = v.r.core ∧ (∀ i < 8, v.sysRead (0x008 + i) = (v.f.freg i).toNat) ∧
    v.sysRead 0x010 = (v.s.dev.core v.r.core).foldcfg.toNat ∧ v.sysRead 0x020 = v.th.trap.pc.toNat ∧
    v.sysRead 0x021 = v.th.trap.code.toNat ∧ v.sysRead 0x022 = v.th.trap.addr.toNat ∧
    (∀ i < 64, v.sysRead (0x040 + i) = (v.s.dev.vault i).split) ∧
    (∀ i < 64, v.sysRead (0x080 + i) = ((v.s.dev.waypart[i]?).getD 0).toNat) ∧
    v.sysRead 0x108 = v.s.dev.mgmt.govcfg.toNat ∧
    (∀ i < 64, v.sysRead (0x140 + i) = (v.s.dev.cluster i).droopcfg.toNat) ∧
    (∀ i < 64, v.sysRead (0x180 + i) = (v.s.dev.cluster i).slopelim.toNat) ∧
    v.sysRead 0x1C0 = v.s.dev.mgmt.thermstat.toNat ∧ v.sysRead 0x200 = v.th.srv.sel.toNat ∧
    v.sysRead 0x201 = v.th.srv.q.toNat ∧ v.sysRead 0x202 = v.th.srv.t.toNat)) ∧
  (∀ w, ChangesWhen (.mtsr w) 0x11 (.i w) false
    (fun v => v.r.t ≠ instId ∧ (privileged v.f v.th = true ∨ (sysReg (w.imm % 4096)).map (·.wrPriv) = some false) ∧
      w.imm % 4096 ∈ [0x000, 0x001, 0x020, 0x021, 0x022, 0x200, 0x201, 0x202])
    (fun v x =>
      let y := v.v32 w.va
      let z := v.v64 w.va
      (if w.imm % 4096 = 0x000 then { x with srstate := if y = 0 then 1 else y }
        else if w.imm % 4096 = 0x001 then { x with retaddr := z }
        else if w.imm % 4096 = 0x020 then { x with trap := { x.trap with pc := z } }
        else if w.imm % 4096 = 0x021 then { x with trap := { x.trap with code := y } }
        else if w.imm % 4096 = 0x022 then { x with trap := { x.trap with addr := z } }
        else if w.imm % 4096 = 0x200 then { x with srv := { x.srv with sel := y &&& 0x0003FFEF } }
        else if w.imm % 4096 = 0x201 then { x with srv := { x.srv with q := y } }
        else { x with srv := { x.srv with t := y } }).issued v.words)) ∧
  (∀ s w v, Alone s 0x11 (.i w) v → v.r.t ≠ instId →
    let n := w.imm % 4096
    let y := v.v32 w.va
    (∀ i < 8, n = 0x008 + i → exec (.mtsr w) s = .next (s.issueBy v (fun d =>
      d.modFlock v.r.core v.r.slot (fun f => { f with fs := f.fs.set i (y &&& 0x003FF771) })))) ∧
    (privileged v.f v.th = true →
      (n = 0x010 → exec (.mtsr w) s = .next (s.issueBy v (fun d =>
        d.modCore v.r.core (fun c => { c with foldNext := some (y &&& 0xFF) })))) ∧
      (∀ c : Core, c.foldNext = some (y &&& 0xFF) → c.edge.foldcfg = y &&& 0xFF) ∧
      (∀ i < 64, n = 0x080 + i → exec (.mtsr w) s = .next (s.issueBy v (fun d =>
        { d with waypart := d.waypart.set i (y &&& 0x003FFFFF) }))) ∧
      (n = 0x108 → exec (.mtsr w) s = .next (s.issueBy v (fun d =>
        { d with mgmt := { d.mgmt with govcfg := y &&& 0x001FFFFF } }))) ∧
      (∀ i < 64, n = 0x140 + i → exec (.mtsr w) s = .next (s.issueBy v (fun d =>
        { (d.modCluster i (fun c => { c with droopcfg := y &&& 0xFFFF01FF })) with
          seen := ⟨.droop i, (d.cluster i).cycle, 1⟩ :: d.seen }))) ∧
      (∀ i < 64, n = 0x180 + i → exec (.mtsr w) s = .next (s.issueBy v (fun d =>
        d.modCluster i (fun c => { c with slopelim := y &&& 0x0000FF3F })))))) ∧
  ((∀ s w v, Alone s 0x13 (.t w) v → privileged v.f v.th = true → exec (.tlbinv w) s = .next (s.issueBy v (fun d =>
    { d with tlbs := d.tlbs.filter (fun t =>
        (w.h.mod = 0 ∧ ¬(t.ctx = v.f.ctx ∧ (v.v64 w.va).toNat % 2 ^ 57 / 2 ^ t.size = t.page)) ∨
        (w.h.mod = 1 ∧ t.ctx ≠ v.f.ctx)) })))) ∧
  ((∀ s w v, Alone s 0x12 (.t w) v → ∃ t, exec (.flushi w) s = .next t ∧
    t = s.issueBy v (fun d => d.modCore v.r.core (fun c => { c with icache := [] })) ∧
    (v.r.core < s.dev.cores.length → ∀ l, codeWord t v.r.core l = leNat (t.point l 8)) ∧
    ∀ n, n ≠ v.r.core → t.dev.core n = s.dev.core n) ∧
  (∀ w, ChangesMembers (.flushi w) 0x12 (.t w) true (fun v x => x.issued v.words)))

/-- R398, R399: what the delivery of a trap sets. R166, R400: TRAP delivers the software trap with its 16-bit code in SUB and
TRAPADDR 0; RTT in a handler clears INTRAP, restores the helper flag and goes on at TRAPPC. -/
def Obligations.Traps_result : Prop :=
  (∀ (th : Thread) (vec : W64) (code : W32) (addr pc : W64),
    let t := th.deliver vec code addr pc
    t.trap.intrap = true ∧ t.trap.pc = pc ∧ t.trap.code = code ∧ t.trap.addr = addr ∧ t.trap.kept = th.helper ∧
    t.helper = false ∧ t.pc = vec ∧ t.enter = some 0 ∧ t.wait = .none ∧
    t.regs = th.regs ∧ t.preds = th.preds ∧ t.xs = th.xs ∧ t.cnt = th.cnt ∧ t.retaddr = th.retaddr ∧
    t.srstate = th.srstate) ∧
  ((∀ w, ChangesWhen (.trap w) 0x0B (.i w) false (fun v => v.delivers)
    (fun v x => x.deliver v.handler (BitVec.ofNat 32 (w.imm % 2 ^ 16 * 2 ^ 16 + 3)) 0 v.th.pc)) ∧
  (∀ w, ChangesWhen (.rtt w) 0x0C (.t w) false
    (fun v => v.th.trap.intrap = true ∧ v.th.trap.pc.toNat % 8 = 0 ∧
      ∃ x pa, fetchAt v.s v.f v.th.trap.pc.toNat = .word x pa)
    (fun v x => ({ x with waited := 0 } : Thread).return
      (match fetchAt v.s v.f v.th.trap.pc.toNat with
        | .word y _ => (rdHeader y).isSome
        | _ => false))) ∧
  (∀ (th : Thread) (hdr : Bool), (th.return hdr).trap.intrap = false ∧ (th.return hdr).helper = th.trap.kept ∧
    (th.return hdr).pc = th.trap.pc ∧ (th.return hdr).regs = th.regs ∧ (th.return hdr).preds = th.preds))

/-- R47, R54: EXIT retires its thread; COMMIT sets the committed flag of every flock of the herd. R171, R129: LAUNCH, once the
thread's earlier stores to its block are performed, commits the flock and makes its thread wait for the control plane with
the 64 bytes of its block and the register of VD. R264: STEPDL writes its operand's 8 bytes at CSAVE of the thread's
context, as the bytes of host memory where CSAVE lies there; without a save area it has no effect. Each of the four
completes on these conditions alone. -/
def Obligations.ExitCommitLaunch_result : Prop :=
  ((∀ s w v, Stands s 0x07 (.t w) v → ∃ t, exec (.exit w) s = .next t ∧
    (t.dev.thread? v.r).map (·.ended) = some (some .exited) ∧ s.sameBytes t) ∧
  (∀ s w v, Stands s 0x09 (.t w) v →
    exec (.commit w) s = .next (s.issueBy v (commitFlock v.r.core v.r.slot)) ∧
    ∀ x ∈ s.dev.herdOf v.f, ((commitFlock v.r.core v.r.slot s.dev).flock? x.core x.slot).map (·.committed) = some true)) ∧
  (∀ s w v blk, Stands s 0x0D (.e w) v → v.blkPending = false → v.blk = some blk →
    let dest := if w.vd.isVz then 2047 else (w.vd.index v.th).toNat
    (launchRsvd blk = false → exec (.launch w) s = .next (s.issueBy v (fun d =>
      (commitFlock v.r.core v.r.slot d).modThread v.r (fun x => { x with wait := .launch dest blk })))) ∧
    (launchRsvd blk = true → v.delivers → exec (.launch w) s =
      .next (s.changes v (fun x => x.deliver v.handler (trapCode 11 0x18) v.blkAddr v.th.pc)))) ∧
  (∀ s w v, Stands s 0x1B (.t w) v →
    let c := (s.dev.ctx v.f.ctx).eff
    let bs := leBytes 8 (v.v64 w.va .zero).toNat
    (c.csave = 0 ∨ c.csavesz = 0 → exec (.stepdl w) s = .next (s.issueBy v id)) ∧
    (c.csave ≠ 0 → c.csavesz ≠ 0 → ∃ s1, commit (physWrite c.csave.toNat bs) s.begun = .next s1 ∧
      exec (.stepdl w) s = .next (s1.device (fun d => d.modThread v.r (fun x => x.issued v.words)))) ∧
    (c.csavesz ≠ 0 → 2 ^ 51 ≤ c.csave.toNat → c.csave.toNat + 8 ≤ 2 ^ 52 →
      exec (.stepdl w) s = .next ((s.applyWrites (memWrites c.csave.toNat bs)).issueBy v id)))

/-! ## Memory words (R127, R213-R229) -/

/-- R213, R214, R127: LD sends a load of the VAR's bytes at the place its address leads to, LDCNT rising; where L1 does not hold
the line, or the page is uncacheable, the value comes from the point later; else it may be the line's bytes. LDBND in element
mode is LD. R214, R222, R223, R219, R127: ST, STF, ZFILL and TILEFILL send a store of the low bytes of VD (ZFILL of 128 zero
bytes) at the place their address leads to, STCNT rising; STF and ZFILL act as ST on an uncacheable page; TILEFILL's address
is its base plus W times the thread's column and its pitches times its row and plane. R220, R223, R224: LDMC sends a multicast
load for the cores of its mask; PREF sends a prefetch of the line of a cacheable DRAM address or has no effect, and changes no page-table entry; LDACC and
STACC access the accumulator slot V(VA) plus the offset. -/
def Obligations.LoadsAndStores_issue : Prop :=
  ((∀ s w v loc nc s1, Alone s 0x90 (.m w) v →
    v.leads allAp .read v.addr (memBytes w.h.var) (memRegs w.h.var) loc nc s1 →
    ∃ q, Asks s1.dev v q (.ld w.h.var) loc (memBytes w.h.var) [] v.destReg ∧
      (nc = true ∨ (∀ pa, loc = .dram pa → (s1.dev.core v.r.core).line? (pa / 128) = none) →
        exec (.ld w) s = .next (State.sent { s1 with dev := s1.dev.fresh } v q id)) ∧
      ∃ t, exec (.ld w) s = .next t ∧ t.mem = s1.mem ∧ t.sto = s1.sto ∧
        (t.dev.reqs = s1.dev.reqs ++ [q] ∨ ∃ pa l, loc = .dram pa ∧
          (s1.dev.core v.r.core).line? (pa / 128) = some l ∧
          t.dev.reqs = s1.dev.reqs ++ [{ q with performed := true, l1 := true, val := l.data }])) ∧
  (∀ s w v loc nc s1, Alone s 0x92 (.m w) v →
    v.leads allAp .read (v.v64 w.va) (memBytes w.h.var) (memRegs w.h.var) loc nc s1 →
    ∃ q t, Asks s1.dev v q (.ld w.h.var) loc (memBytes w.h.var) [] v.destReg ∧ exec (.ldbnd w) s = .next t ∧
      t.mem = s1.mem ∧ t.sto = s1.sto ∧ ∃ q', t.dev.reqs = s1.dev.reqs ++ [q'] ∧ q'.id = q.id ∧ q'.kind = q.kind ∧
        q'.loc = loc ∧ q'.n = q.n ∧ q'.dest = q.dest)) ∧
  ((∀ s w v loc nc s1, Alone s 0x91 (.m w) v →
    v.leads allAp .write v.addr (memBytes w.h.var) 0 loc nc s1 →
    ∃ q, Asks s1.dev v q .st loc (memBytes w.h.var) (v.storeData (memBytes w.h.var)) 2047 ∧
      exec (.st w) s = .next (s1.sent v q (l1Store q))) ∧
  (∀ s w v loc nc s1, Alone s 0x95 (.m w) v →
    v.leads globalAp .write (v.v64 w.va) (memBytes w.h.var) 0 loc nc s1 →
    ∃ q, Asks s1.dev v q (if nc then .st else .stf (bits w.off 0 8)) loc (memBytes w.h.var)
        (v.storeData (memBytes w.h.var)) 2047 ∧
      exec (.stf w) s = .next (s1.sent v q (l1Store q))) ∧
  (∀ s w v loc nc s1, Alone s 0x96 (.m w) v → loc.isMx = false → v.leads allAp .write v.addr 128 0 loc nc s1 →
    ∃ q, Asks s1.dev v q (if nc then .st else .zfill) loc 128 (List.replicate 128 0) 2047 ∧
      exec (.zfill w) s = .next (s1.sent v q (l1Store q))) ∧
  (∀ s w v loc nc s1, Alone s 0x93 (.m w) v → loc.isMx = false →
    let id (n : Nat) : W64 := BitVec.ofNat 64 (tidVal v.f v.r.core v.r.slot v.r.t n)
    v.leads allAp .write (v.v64 w.va + BitVec.ofNat 64 (memBytes w.h.var) * id 10 + v.pitch 0 * id 11 + v.pitch 8 * id 12)
      (memBytes w.h.var) 0 loc nc s1 →
    ∃ q, Asks s1.dev v q .st loc (memBytes w.h.var) (v.storeData (memBytes w.h.var)) 2047 ∧
      exec (.tilefill w) s = .next (s1.sent v q (l1Store q)))) ∧
  ((∀ s w v loc s1, Alone s 0x94 (.m w) v → w.off.testBit (v.r.core % 16) = true →
    v.leads vaultAp .read (v.v64 w.va) (memBytes w.h.var) (memRegs w.h.var) loc false s1 →
    ∃ q, Asks s1.dev v q (.ldmc (w.off * 2 ^ (v.r.core / 16 * 16))) loc (memBytes w.h.var) [] v.destReg ∧
      exec (.ldmc w) s = .next (s1.sent v q id)) ∧
  (∀ s w v, Alone s 0x97 (.m w) v →
    (∀ pa pre, v.now.reach ⟨true, false, false⟩ .read v.addr 1 0 ≠ .at_ (.dram pa) false pre) →
    exec (.pref w) s = .next (s.issueBy v Dev.fresh)) ∧
  (∀ s w v pa pre, Alone s 0x97 (.m w) v → v.now.reach ⟨true, false, false⟩ .read v.addr 1 0 = .at_ (.dram pa) false pre →
    exec (.pref w) s = .next (s.issueBy v (fun d => d.fresh.fresh)) ∨
    ∃ q, Asks s.dev v q .pref (.dram (pa / 128 * 128)) 128 [] 2047 ∧
      exec (.pref w) s = .next (State.sent { s with dev := s.begun.dev.fresh.fresh } v q id)) ∧
  (∀ s w v, Alone s 0x98 (.m w) v → 0 ≤ v.slotNo → v.slotNo + memRegs w.h.var ≤ v.f.kern.accSlots →
    (memRegs w.h.var = 2 → v.slotNo % 2 = 0) →
    ∃ q, Asks s.dev v q .ldacc (.acc v.r.core v.r.slot v.slotNo.toNat) (memBytes w.h.var) [] v.destReg ∧
      exec (.ldacc w) s = .next (s.begun.sent v q id)) ∧
  (∀ s w v, Alone s 0x99 (.m w) v → 0 ≤ v.slotNo → v.slotNo + memRegs w.h.var ≤ v.f.kern.accSlots →
    (memRegs w.h.var = 2 → v.slotNo % 2 = 0) →
    ∃ q, Asks s.dev v q .stacc (.acc v.r.core v.r.slot v.slotNo.toNat) (memBytes w.h.var)
        (v.storeData (memBytes w.h.var)) 2047 ∧
      exec (.stacc w) s = .next (s.begun.sent v q id)) ∧
  (∀ v : Env, ∀ w, v.b = .m w →
    v.slotNo = ((lo32 (v.v64 w.va)).toNat : Int) + (if w.offLit then w.h.lit.toInt else (BitVec.ofNat 16 w.off).toInt)))

/-! ## Queues, matrix, copy, peer words -/

/-- R128, R253, R254: WAIT completes wherever its thread's four counters are within their bounds, and WAITBM wherever its bits
are set, those from OFF to OFF + LEN (MOD 0) or those of its mask (MOD 1); until then the thread stays at the word. WAIT with
a copy bound below 31, and WAITBM, then acquire: no later load is served by an L1 line filled before. R255, R256: SPUSH
completes wherever its operand queue has fewer than 16 entries, and appends the value; QPOP completes wherever an entry stands
at the thread's own read position: it writes the entry, steps the position, and frees what every remaining thread has read. -/
def Obligations.WaitsAndQueues_result : Prop :=
  ((∀ s w v, Stands s 0x19 (.w w) v →
    v.th.cnt.ld ≤ w.ldc → v.th.cnt.st ≤ w.stc → v.th.cnt.cp ≤ w.cpc → v.th.cnt.tl ≤ w.tlc →
    exec (.wait w) s = .next (s.issueBy v (if w.cpc < 31 then acquireL1 v.r else id))) ∧
  (∀ s w v, Stands s 0x1A (.t w) v →
    (if w.h.mod = 0 then ∀ i ≤ w.vb.num, (v.f.m w.vd.num).getLsbD (w.va.num + i) = true
      else ∀ i < 32, (v.v32 w.va).getLsbD i = true → (v.f.m w.vd.num).getLsbD (32 * w.vb.num + i) = true) →
    exec (.waitbm w) s = .next (s.issueBy v (acquireL1 v.r))) ∧
  (∀ s w g row, AllMeet s g 0x19 (.w w) row (fun v => v.illegal = false ∧ v.guard = .t ∧ v.th.intv = false ∧
      (w.ldc < v.th.cnt.ld ∨ w.stc < v.th.cnt.st ∨ w.cpc < v.th.cnt.cp ∨ w.tlc < v.th.cnt.tl)) →
    exec (.wait w) s = .next { s with dev := { s.dev with issuing := none } })) ∧
  ((∀ s w v q, Stands s 0xB3 (.t w) v → v.f.oq[w.vd.num]? = some q → q.items.length < 16 → exec (.spush w) s = .next (s.issueBy v (fun d =>
    d.modFlock v.r.core v.r.slot (fun f => { f with oq := f.oq.mapIdx (fun i q =>
      if i = w.vd.num then { q with items := q.items ++ [BitVec.ofNat 64 (v.srcN (intRegs w.h.var) w.va)] } else q) })))) ∧
  (∀ s w v q e, Stands s 0xB4 (.t w) v → v.f.kern.access = true → v.f.oq[w.va.num]? = some q →
    let pos := v.th.oqpos[w.va.num]?.getD 0
    q.items[pos - q.base]? = some e → q.base ≤ pos →
    exec (.qpop w) s = .next (s.issueBy v (fun d =>
      (d.modThread v.r (fun x => { (x.wrN (intRegs w.h.var) w.vd e.toNat) with oqpos := x.oqpos.set w.va.num (pos + 1) })).modFlock
        v.r.core v.r.slot Flock.oqFree))))

/-- The words of the matrix engine with their majors (R235-R241). -/
abbrev matrixWords (w : EWord) : List (Nat × Instr) :=
  [(0xA0, .mma w), (0xA1, .mmaQ8 w), (0xA2, .mmaQ6 w), (0xA3, .mmaQ4 w), (0xA4, .smma w), (0xA5, .smmaQ8 w),
    (0xA6, .smmaQ6 w), (0xA7, .smmaQ4 w), (0xA8, .mmaw w), (0xA9, .mmawQ8 w), (0xAA, .mmawQ6 w), (0xAB, .mmawQ4 w)]

/-- The matrix engine has taken an operation, TLCNT rising (R127, R230). -/
abbrev toEngine (v : Env) (o : MatOp) (d : Dev) : Dev :=
  { ((d.modCore v.r.core (fun c => { c with mat := c.mat ++ [o] })).modThread v.r
      (fun x => { x with cnt := { x.cnt with tl := x.cnt.tl + 1 } })) with nextId := d.nextId + 1 }

/-- R127, R129, R232, R235-R241, R403: a word of the matrix engine hands the engine an operation with its block, element types and
scales, TLCNT rising; while the engine has no room its thread waits for it; an offending field takes the trap OPERAND with the
field's offset in SUB and the block's address in TRAPADDR. R131, R245, R246, R127: ACCZ, ACCDRAIN and ACCLOAD hand the engine
their operation with its block, TLCNT rising. -/
def Obligations.EngineWords_issue : Prop :=
  (∀ s w v i major blk, (major, i) ∈ matrixWords w → Alone s major (.e w) v → v.now.blk = some blk →
    let x := matBlk blk
    let e := v.elems
    e.1.1.badFmt = false → e.2.1.badFmt = false → v.now.mxOperand x.aaddr = false → v.now.mxOperand x.baddr = false →
    (∀ sub, v.now.matBad blk e.1.1 e.2.1 = some sub → v.delivers →
      exec i s = .next (s.changes v (fun y => y.deliver v.handler (trapCode 11 sub) v.blkAddr v.th.pc))) ∧
    (v.now.matBad blk e.1.1 e.2.1 = none →
      ∀ sc : Option (List Byte), (if w.vd.isVz then sc = none else ∃ bs, v.now.scales x = .inl bs ∧ sc = some bs) →
      ((s.dev.core v.r.core).mat.length < 32 →
        ∃ o : MatOp, o.id = s.dev.nextId ∧ o.ref = v.r ∧ o.ctx = v.f.ctx ∧ o.kind = v.matKind ∧ o.blk = blk ∧
          o.ea = e.1.1 ∧ o.eb = e.2.1 ∧ o.scales = sc ∧ o.qs = w.qs ∧ o.next = 0 ∧ o.prog = [] ∧ o.metas = [] ∧
          exec i s = .next (s.issueBy v (toEngine v o))) ∧
      (32 ≤ (s.dev.core v.r.core).mat.length →
        exec i s = .next (s.changes v (fun y => { y with waited := 0, wait := .engine true }))))) ∧
  (∀ s w v i major kind blk,
    (major, i, kind) ∈ [(0xAC, Instr.accz w, MatKind.accz), (0xAD, .accdrain w, .drain), (0xAE, .accload w, .load)] →
    Alone s major (.e w) v → v.now.blk = some blk → v.now.accBad blk kind = none →
    ((accBlk blk).efmt = 4 → kind ≠ .accz → (narrowFmt (v.f.freg (accBlk blk).afr)).width = 8) →
    (s.dev.core v.r.core).mat.length < 32 →
    ∃ o : MatOp, o.id = s.dev.nextId ∧ o.ref = v.r ∧ o.ctx = v.f.ctx ∧ o.kind = kind ∧ o.blk = blk ∧
      o.afr = v.f.freg (accBlk blk).afr ∧ o.next = 0 ∧ exec i s = .next (s.issueBy v (toEngine v o)))

/-- R132, R231, R234, R247-R251: COPY, COPYMC and COPYQ hand the copy engine an operation with its block and addresses,
CPCNT rising; VD receives the promised time: without a server of the context, the later of CTIME plus the row's latency
and the engine's last promise still to come, plus the bytes at the row's rate; COPY clears the bits of its chunks in
its m register. -/
def Obligations.CopyWords_issue : Prop :=
  ∀ s w v i major kind blk,
    (major, i, kind) ∈ [(0xB0, Instr.copy w, CopyKind.copy), (0xB1, .copymc w, .mc), (0xB2, .copyq w, .q)] →
    Alone s major (.e w) v → v.now.blk = some blk → (v.f.kern.access = true → v.r.t = instId) →
    (v.r.t = instId → w.vd.isVz = false → w.vd.index v.th % 4 = 0) →
    let moved (k : Nat) : W64 := if v.r.t = instId ∧ w.vd.isVz = false
      then pair (v.th.reg ((w.vd.index v.th).toNat + k)) (v.th.reg ((w.vd.index v.th).toNat + k + 1)) else 0
    let sad := BitVec.ofNat 64 (field blk 0 8) + moved 0
    let dad := BitVec.ofNat 64 (field blk 8 8) + moved 2
    v.now.copyBad blk kind sad dad = none → (s.dev.core v.r.core).cpy.length < 64 → v.r.core < s.dev.cores.length →
    ∃ t p o, exec i s = .next t ∧ t.mem = s.mem ∧ t.sto = s.sto ∧
      (t.dev.core v.r.core).cpy = (s.dev.core v.r.core).cpy ++ [o] ∧
      (o.kind = kind ∧ o.blk = blk ∧ o.ref = v.r ∧ o.sadr = sad ∧ o.dadr = dad ∧ o.done = [] ∧
        o.m = (if kind = .q then w.qs else w.aux)) ∧
      t.dev.thread? v.r = some (Thread.issued
        { (v.th.wr64 w.vd (BitVec.ofNat 64 p)) with cnt := { v.th.cnt with cp := v.th.cnt.cp + 1 } } v.words) ∧
      (s.dev.server? 2 v.r.core v.f.ctx = none →
        let row := max (copyRow s v.f sad) (if kind = .q then 0 else copyRow s v.f dad)
        p = max (s.dev.ctime + (copyRate row).1)
              (if s.dev.ctime ≤ (s.dev.core v.r.core).plast then (s.dev.core v.r.core).plast else 0) +
            ceilDiv (copyBlk blk).bytes (copyRate row).2) ∧
      (kind = .copy → (t.dev.flock? v.r.core v.r.slot).map (fun f => f.ms) =
        some (v.f.ms.set w.aux (v.f.m w.aux &&& ~~~ BitVec.ofNat 128 (2 ^ (copyBlk blk).chunks - 1))))

/-- R257, R258, R85, R362, R54: PLD, PST and PATOM send a peer request to the rank in bits 63:48 of their address, at the offset
in bits 47:0, within the rank's window; PST and PATOM commit the flock first. R260-R262, R363, R54: COLL commits the flock and
enters its context's participation, numbered within its group, with the group's size, the device's rank and the rank numbers
of the group's table. Each completes wherever its thread's counter is below its maximum (R127) and the tables lie in memory. -/
def Obligations.PeerAndCollective_issue : Prop :=
  (let fits (s : State) (v : Env) (fa : W64) (n : Nat) : Prop :=
    bits fa.toNat 48 16 < (s.dev.ctx v.f.ctx).eff.rankcnt.toNat ∧
    inRegion (s.dev.rankAt v.f.ctx (bits fa.toNat 48 16)) = true ∧
    bits fa.toNat 0 48 + n ≤ (s.rankEnt v.f.ctx (bits fa.toNat 48 16)).wsize ∧ fa.toNat % n = 0
  let place (fa : W64) : Loc := .peer (bits fa.toNat 48 16) (bits fa.toNat 0 48)
  (∀ s w v, Stands s 0xB5 (.m w) v → v.th.cnt.ld < 63 → fits s v v.addr (memBytes w.h.var) →
    ∃ q, Asks s.dev v.fabric q (.pld w.h.var) (place v.addr) (memBytes w.h.var) [] v.destReg ∧
      exec (.pld w) s = .next (s.begun.sent v q id)) ∧
  (∀ s w v, Stands s 0xB6 (.m w) v → v.th.cnt.st < 63 → fits s v v.addr (memBytes w.h.var) →
    ∃ q, Asks s.dev v.fabric q .pst (place v.addr) (memBytes w.h.var) (v.storeData (memBytes w.h.var)) 2047 ∧
      exec (.pst w) s = .next (State.sent { s with dev := commitFlock v.r.core v.r.slot s.begun.dev } v q id)) ∧
  (∀ s w v, Stands s 0xB7 (.m w) v → v.th.cnt.ld < 63 → fits s v (v.v64 w.va + (BitVec.ofNat 12 w.off).signExtend 64) (memBytes w.h.var) →
    ∃ q, Asks s.dev v.fabric q (.patom (bits w.off 12 4))
        (place (v.v64 w.va + (BitVec.ofNat 12 w.off).signExtend 64)) (memBytes w.h.var)
        (v.storeData (memBytes w.h.var)) v.destReg ∧
      exec (.patom w) s = .next (State.sent { s with dev := commitFlock v.r.core v.r.slot s.begun.dev } v q id))) ∧
  (∀ s w v blk, Stands s 0xB8 (.e w) v → v.blkPending = false → v.now.blk = some blk → (collBlk blk).group < 4096 →
    inRegion (s.dev.groupAt v.f.ctx (collBlk blk).group) = true →
    let e := s.groupEnt v.f.ctx (collBlk blk).group
    (collBlk blk).bad blk e.g e.rank = none → inRegion e.at_ = true → inRegion (e.at_ + 4 * e.g - 1) = true →
    let n := (kget s.dev.fab.collSeq (v.f.ctx, (collBlk blk).group)).getD 0
    ∃ c : Coll, c.id = s.dev.nextId ∧ c.ctx = v.f.ctx ∧ c.blk = blk ∧ c.seq = n ∧ c.at_ = s.dev.ctime ∧
      c.g = e.g ∧ c.rank = e.rank ∧ c.ranks = s.groupRanks e ∧
      exec (.coll w) s = .next (s.issueBy v (fun d =>
        { commitFlock v.r.core v.r.slot d with
          nextId := s.dev.nextId + 1,
          fab := { s.dev.fab with colls := s.dev.fab.colls ++ [c],
                                  collSeq := kset s.dev.fab.collSeq (v.f.ctx, (collBlk blk).group) (n + 1) } })))

/-! ## Scheduling (R37-R45, R164, R169, R175, R352, R406) -/

/-- The teams with threads that have not ended, increasing (R169). -/
abbrev teamsLeft (f : Flock) : List TeamRef :=
  ((List.range 32).filter (fun k => f.threads.any (fun th => decide (th.ended = none ∧ th.t / 32 = k)))).map
    (fun k => ⟨f.core, f.slot, k⟩)

/-- Every remaining thread of a flock waits for its wave, and no other has changed its wait. -/
abbrev allWave (f y : Flock) : Prop :=
  y.threads.map (fun x => (x.t, x.ended, x.wait)) =
    f.threads.map (fun x => (x.t, x.ended, if x.ended = none then Wait.wave else x.wait))

/-- R168-R170: BAR and HBAR make their thread wait at the barrier; while another remaining thread of the flock, or for HBAR of a
flock of the herd, has not arrived, nothing else changes; once all have and no access of them is outstanding, every remaining
thread of the flock, or of every flock of the herd, waits for its wave. The cluster has queued them as one barrier, the teams
of a BAR in increasing number, those of an HBAR by flock index in the herd and team, behind the waves of earlier clocks and
among those of the same clock by core and flock slot. R43, R169,
R352: the head wave of a cluster whose SPACE clocks have passed is released: the threads of its
first WTEAMS teams wait no longer, and the rest of the wave stays at the head. -/
def Obligations.BarrierWords_result : Prop :=
  ((∀ s w v, Stands s 0x0E (.t w) v → (∃ t ∈ v.f.threads, t.t ≠ v.r.t ∧ t.ended = none ∧ t.wait ≠ .bar) →
    exec (.bar w) s = .next (s.issueBy v (fun d => d.modThread v.r (fun x => { x with wait := .bar })))) ∧
  (∀ s w v, Stands s 0x0F (.t w) v → (∃ x ∈ s.dev.herdOf v.f, ∃ t ∈ x.threads,
      ¬(x.core = v.r.core ∧ x.slot = v.r.slot ∧ t.t = v.r.t) ∧ t.ended = none ∧ t.wait ≠ .hbar) →
    exec (.hbar w) s = .next (s.issueBy v (fun d => d.modThread v.r (fun x => { x with wait := .hbar })))) ∧
  (∀ s w v, Stands s 0x0E (.t w) v → (∀ t ∈ v.f.threads, t.t ≠ v.r.t → t.ended = none → t.wait = .bar) →
    s.dev.drained v.f true = true →
    ∃ t y, exec (.bar w) s = .next t ∧ t.dev.flock? v.r.core v.r.slot = some y ∧ allWave v.f y ∧
      (v.r.core / 4 < s.dev.clusters.length →
        t.dev.cluster (v.r.core / 4) = (s.dev.cluster (v.r.core / 4)).queueWave (teamsLeft v.f))) ∧
  (∀ s w v, Stands s 0x0F (.t w) v → v.f ∈ s.dev.herdOf v.f →
    (s.dev.flocks.map (fun f => (f.core, f.slot))).Nodup → (∀ x ∈ s.dev.herdOf v.f, x.hidx < 4) →
    (∀ x ∈ s.dev.herdOf v.f, s.dev.drained x false = true ∧ ∀ t ∈ x.threads,
      ¬(x.core = v.r.core ∧ x.slot = v.r.slot ∧ t.t = v.r.t) → t.ended = none → t.wait = .hbar) →
    ∃ t, exec (.hbar w) s = .next t ∧
      (∀ x ∈ s.dev.herdOf v.f, ∃ y, t.dev.flock? x.core x.slot = some y ∧ allWave x y) ∧
      (v.r.core / 4 < s.dev.clusters.length →
        t.dev.cluster (v.r.core / 4) = (s.dev.cluster (v.r.core / 4)).queueWave
          (((List.range 4).flatMap (fun i => (s.dev.herdOf v.f).filter (fun x => x.hidx = i))).flatMap teamsLeft))) ∧
  (∀ (c : Cluster) w a b, c.waves = a ++ b → b.length = (if c.waveClock = c.cycle then c.waveNew else 0) →
    ∃ x y, b = x ++ y ∧ (c.queueWave w).waves = a ++ x ++ w :: y ∧ (∀ u ∈ x, waveKey u ≤ waveKey w) ∧
      ∀ u, y.head? = some u → waveKey w < waveKey u)) ∧
  (∀ s k wv ws, k < s.dev.clusters.length → (s.dev.cluster k).waves = wv :: ws → s.dev.stopped = false →
    (∀ c, (s.dev.cluster k).lastWave = some c →
      c + (s.dev.cluster k).slopelim.toNat / 256 % 256 ≤ (s.dev.cluster k).cycle) →
    let n := wteams (s.dev.cluster k).slopelim
    ∃ t, exec (.barrierWaveRelease k) s = .next t ∧ s.sameBytes t ∧
      (t.dev.cluster k).waves = (if wv.drop n = [] then ws else wv.drop n :: ws) ∧
      (t.dev.cluster k).lastWave = some (s.dev.cluster k).cycle ∧
      ∀ x ∈ wv.take n, ∀ f, t.dev.flock? x.core x.slot = some f → ∀ th ∈ f.threads, th.t / 32 = x.team → th.wait ≠ .wave)

/-- R44, R45, R164, R175, R406: a SLEEP ends once CTIME has reached its wake time, a YIELD once no slot is left to pass, a
reconvergence hold once its clocks have passed or its thread has waited 1,024 slots; in each of these nothing but the one
thread changes. A pending rendezvous fault is taken in a slot that chooses its key: its trap is delivered with its lane and
mask in TRAPADDR. R38, R39, R42: within a granted context the fold takes the key of a thread that has waited 1,024 slots or
more, the longest-waiting one, and else an entry whose threads cover most lanes. An issue group holds ready threads of one
context, one mode and one PC on distinct lanes, member sets whole, and leaves out a ready thread of the key only for a set on
one of its lanes that has waited as long; a slot with one ready thread in its port group chooses it. That an entry of held
threads alone is passed over is the model's choice (log 67), and how equal waits are decided its reading (log 26). -/
def Obligations.ReadinessAndSlots_result : Prop :=
  ((∀ s r th w, s.dev.thread? r = some th → th.wait = .sleep w → w ≤ s.dev.ctime →
    ∃ t, exec (.sleepWake r) s = .next t ∧ s.onlyThread t r { th with wait := .none }) ∧
  (∀ s r th, s.dev.thread? r = some th → th.wait = .yield 0 →
    ∃ t, exec (.yieldExpire r) s = .next t ∧ s.onlyThread t r { th with wait := .none }) ∧
  (∀ s r th since, s.dev.thread? r = some th → th.wait = .held since →
    since + (s.dev.core r.core).foldcfg.toNat % 256 ≤ (s.dev.die (r.core / 64)).cycle ∨ 1024 ≤ th.waited →
    ∃ t, exec (.reconvHoldExpire r) s = .next t ∧ s.onlyThread t r { th with wait := .none }) ∧
  (∀ s r f th a, (s.dev.flocks.map (fun f => (f.core, f.slot))).Nodup → s.dev.flock? r.core r.slot = some f →
    f.thread? r.t = some th → th.wait = .pend a → r ∈ slotTraps r.core (r.t / 32 % 4) s →
    (∀ u ∈ slotTraps r.core (r.t / 32 % 4) s, ∃ g x, s.dev.flock? u.core u.slot = some g ∧ g.thread? u.t = some x ∧
      x.intv = false ∧ x.trap.intrap = false ∧ s.dev.trapVec g.ctx u.t ≠ 0) →
    ∃ t x, exec (.rendezvousFaultTrap r) s = .next t ∧ t.dev.thread? r = some x ∧ x.trap.intrap = true ∧
      x.trap.pc = th.pc ∧ x.trap.code = trapCode 9 0 ∧ x.trap.addr = a ∧ x.trap.kept = th.helper ∧ x.helper = false ∧
      x.pc = s.dev.trapVec f.ctx r.t ∧ x.wait = .none ∧ x.regs = th.regs ∧ x.preds = th.preds)) ∧
  ((∀ entries cs c, chooseKey entries cs = some c →
    (∃ x ∈ cs, (x.part = .can ∨ x.part = .pend) ∧ 1024 ≤ x.waited) →
    c ∈ cs ∧ (c.part = .can ∨ c.part = .pend) ∧ ∀ x ∈ cs, (x.part = .can ∨ x.part = .pend) → x.waited ≤ c.waited) ∧
  (∀ entries cs c, chooseKey entries cs = some c → (∀ x ∈ cs, (x.part = .can ∨ x.part = .pend) → x.waited < 1024) →
    c ∈ cs ∧ (c.part = .can ∨ c.part = .pend) ∧ (∃ e ∈ entries, e.holds c = true) ∧
      ∀ e ∈ entries, ∀ x ∈ cs, (x.part = .can ∨ x.part = .pend) → e.holds x = true → cover cs x ≤ cover cs c) ∧
  (∀ cs key,
    let g := gather cs key
    let here (c : Cand) : Prop := c ∈ cs ∧ c.part = .can ∧ c.ctx = key.ctx ∧ c.intv = key.intv ∧ c.pc = key.pc
    (∀ r ∈ g, ∃ c, here c ∧ r ∈ c.set ∧ ∀ x ∈ c.set, x ∈ g) ∧
    ((∀ c ∈ cs, (c.set.map (fun r => r.t % 32)).Nodup) → (g.map (fun r => r.t % 32)).Nodup) ∧
    (∀ c, here c → (∀ x ∈ c.set, x ∈ g) ∨ ∃ c', here c' ∧ (∀ x ∈ c'.set, x ∈ g) ∧ c.waited ≤ c'.waited ∧
      ∃ x ∈ c.set, ∃ y ∈ c'.set, x.t % 32 = y.t % 32)) ∧
  (∀ s core pg f th v, s.dev.stopped = false → core < 256 → pg < 4 → s.dev.withheld core = false →
    (s.dev.die (core / 64)).powered = true → s.dev.flocks.filter (fun x => x.core = core) = [f] → f.dead = false →
    f.live.filter (fun x => x.t / 32 % 4 = pg) = [th] → th.enter = none → th.wait = .none → th.blkEnd ≠ 0 → f.ctx < 64 →
    (s.dev.ctx f.ctx).cstate ≠ .saving → (∀ x ∈ s.dev.servers, ¬(x.kind = 0 ∧ x.inst = 4 * core + pg)) →
    envOf s ⟨core, f.slot, th.t⟩ f th = some v → crossLane v.major = false → v.ready = true →
    core < s.dev.cores.length →
    ∃ t, exec (.issueSlot core pg) s = .next t ∧ s.sameBytes t ∧
      t.dev.issuing = some ⟨core, f.ctx, th.intv, th.pc, [⟨core, f.slot, th.t⟩]⟩))

/-! ## Slices, loads, stores (R98-R102, R127, R177, R213-R228) -/

/-- R226-R228, R54: ATOM, RED and CAS send their atomic at the place the address leads to, the flock being committed first where
that place is in global or stack memory. R229, R177: FENCE changes no register and no byte, and orders by ORD and scope:
earlier loads and atomics before later accesses, earlier accesses but peer stores before later writes; at .hd or wider no
later load is served by an L1 line filled before; WATCH
parks its thread with a request of its comparison at the place the address leads to. R226: the value that each atomic
operation leaves, of old value `y` and operand `x` in `w` bytes; .fadd rounds the exact sum to the nearest, a NaN following
R61, .fmin and .fmax are the number forms of R200. -/
def Obligations.AtomicsAndFence_result : Prop :=
  ((∀ s w v loc nc s1, Alone s 0x9A (.m w) v → loc.isMx = false → (loc.isHost = true → hostAtom (bits w.off 12 4) = true) →
    v.leads allAp .atomic (v.v64 w.va + (BitVec.ofNat 12 w.off).signExtend 64) (memBytes w.h.var) 0 loc nc s1 →
    ∃ q, Asks s1.dev v q (.atom (bits w.off 12 4)) loc (memBytes w.h.var) (v.storeData (memBytes w.h.var)) v.destReg ∧
      exec (.atom w) s = .next (State.sent
        { s1 with dev := if loc.isVirt then commitFlock v.r.core v.r.slot s1.dev else s1.dev } v q id)) ∧
  (∀ s w v loc nc s1, Alone s 0x9C (.m w) v → loc.isMx = false → (loc.isHost = true → hostAtom (bits w.off 12 4) = true) →
    v.leads allAp .atomic (v.v64 w.va + (BitVec.ofNat 12 w.off).signExtend 64) (memBytes w.h.var) 0 loc nc s1 →
    ∃ q, Asks s1.dev v q (.red (bits w.off 12 4)) loc (memBytes w.h.var) (v.storeData (memBytes w.h.var)) 2047 ∧
      exec (.red w) s = .next (State.sent
        { s1 with dev := if loc.isVirt then commitFlock v.r.core v.r.slot s1.dev else s1.dev } v q id)) ∧
  (∀ s w v loc nc s1, Alone s 0x9B (.m w) v → loc.isMx = false →
    v.leads allAp .atomic v.addr (memBytes w.h.var) 0 loc nc s1 →
    ∃ q, Asks s1.dev v q .cas loc (memBytes w.h.var) v.casData v.destReg ∧
      exec (.cas w) s = .next (State.sent
        { s1 with dev := if loc.isVirt then commitFlock v.r.core v.r.slot s1.dev else s1.dev } v q id))) ∧
  ((∀ s w v, Alone s 0x9D (.m w) v →
    ∃ t, exec (.fence w) s = .next t ∧ t.mem = s.mem ∧ t.sto = s.sto ∧
      (t.dev.reqs.map (fun q => (q.id, q.kind, q.loc, q.data))) = (s.dev.reqs.map (fun q => (q.id, q.kind, q.loc, q.data))) ∧
      ∃ x, t.dev.thread? v.r = some x ∧ x.regs = v.th.regs ∧ x.preds = v.th.preds ∧ x.cnt = v.th.cnt ∧
        x.pc = v.th.pc + BitVec.ofNat 64 (8 * v.words) ∧
        ((w.ord = 1 ∨ w.ord = 3) → ∀ q ∈ s.dev.inFlight v.r, (q.kind.isLoad = true ∨ ∃ op, q.kind = .red op) →
          (q.id, false) ∈ x.after) ∧
        ((w.ord = 2 ∨ w.ord = 3) → w.scope ≠ 0 → ∀ q ∈ s.dev.inFlight v.r, q.kind ≠ .pst →
          (q.id, decide (w.scope = 1)) ∈ x.afterW) ∧
        (2 ≤ w.scope → x.l1floor = s.dev.nextId)) ∧
  (∀ s w v loc nc s1, Alone s 0x18 (.m w) v → loc.isHost = false →
    let n := if w.h.var % 2 = 0 then 4 else 8
    v.leads vaultAp .read v.addr n 0 loc nc s1 →
    ∃ q, Asks s1.dev v q (.watch w.h.var) loc n (v.storeData n) 2047 ∧
      exec (.watch w) s = .next (s1.sent v q (fun d => d.modThread v.r (fun x => { x with wait := .watch }))))) ∧
  (∀ w y x, (w = 4 ∨ w = 8) → y < 2 ^ (8 * w) → x < 2 ^ (8 * w) →
    let sg (z : Nat) : Int := toSigned (8 * w) z
    atomNew 0 w y x = (y + x) % 2 ^ (8 * w) ∧
    sg (atomNew 1 w y x) = min (sg y) (sg x) ∧ sg (atomNew 2 w y x) = max (sg y) (sg x) ∧
    atomNew 3 w y x = min y x ∧ atomNew 4 w y x = max y x ∧
    (∀ i, (atomNew 5 w y x).testBit i = (y.testBit i && x.testBit i)) ∧
    (∀ i, (atomNew 6 w y x).testBit i = (y.testBit i || x.testBit i)) ∧
    (∀ i, (atomNew 7 w y x).testBit i = (y.testBit i != x.testBit i)) ∧
    atomNew 8 w y x = x ∧ atomNew 9 w y x = (if x ≤ y then 0 else y + 1) ∧
    atomNew 10 w y x = (if y = 0 ∨ x < y then x else y - 1) ∧
    let f := if w = 4 then f32 else f64
    atomNew 11 w y x = f.result 0 [y, x] (FV.add false (f.dec y) (f.dec x)) ∧
    atomNew 12 w y x = minOrMax f false false y x ∧ atomNew 13 w y x = minOrMax f true false y x)

/-- No stored byte carries a fault (R377), and no watch entry stands for the request. -/
abbrev plainRequest (s : State) (id : Nat) (q : Req) : Prop :=
  s.dev.due id = some q ∧ s.dev.marks = [] ∧ s.dev.vaults.length = 64 ∧ ∀ v ∈ s.dev.vaults, ∀ e ∈ v.watch, e.req ≠ id

/-- R98-R100, R214, R227, R271: a load, a store, an STF, a ZFILL or an atomic that is due reaches its slice and is
performed: a load takes the bytes of the point (a cacheable DRAM load its whole line), a store's bytes are read there
afterwards, and an atomic takes the old bytes and leaves the new value, a CAS its second operand where the old bytes
equal its first. That a store of more than 8 bytes, ZFILL on an uncacheable page, writes 8 of them and goes on with the
rest, and that a ZFILL of a cacheable line is one write of the line, is the model's reading of R269 and R98 (log 16). -/
def Obligations.SliceRequests_result : Prop :=
  (∀ s id q, plainRequest s id q → q.kind.isRead = true → q.loc.atSlice = true →
    ∃ t x, exec (.sliceRead id) s = .next t ∧ t.dev.req? id = some x ∧ x.performed = true ∧
      x.val = (match q.loc with
        | .dram pa => if q.nc then s.point q.loc q.n else s.point (.dram (pa / 128 * 128)) 128
        | l => s.point l q.n)) ∧
  (∀ s id q i, s.MemOk → plainRequest s id q → q.data.length = q.n → (∀ pa, q.loc = .dram pa → pa % 128 + q.n ≤ 128) →
    q.loc.atSlice = true →
    (i = .sliceWrite id ∧ q.kind = .st ∧ q.n ≤ 8) ∨ (∃ c, i = .sliceStf id ∧ q.kind = .stf c ∧ q.n ≤ 8) ∨
      (i = .sliceZfill id ∧ q.kind = .zfill ∧ q.n = 128 ∧ q.data = List.replicate 128 0) →
    ∃ t x, exec i s = .next t ∧ t.dev.req? id = some x ∧ x.performed = true ∧ t.point q.loc q.n = q.data) ∧
  (∀ s id q, s.MemOk → plainRequest s id q → q.data.length = q.n → (∀ pa, q.loc = .dram pa → pa % 128 + 8 ≤ 128) →
    q.loc.atSlice = true → q.kind = .st → 8 < q.n →
    ∃ t, exec (.sliceWrite id) s = .next t ∧ t.dev.req? id = some (q.rest 8) ∧ t.point q.loc 8 = q.data.take 8) ∧
  (∀ s id q, s.MemOk → plainRequest s id q → q.kind.isAtomic = true → q.loc.atSlice = true → q.n = 4 ∨ q.n = 8 →
    (q.kind = .cas → q.data.length = 2 * q.n) → (∀ pa, q.loc = .dram pa → pa % 128 + q.n ≤ 128) →
    ∃ t x, exec (.sliceAtomic id) s = .next t ∧ t.dev.req? id = some x ∧ x.performed = true ∧
      x.val = s.point q.loc q.n ∧
      t.point q.loc q.n = (match q.kind with
        | .atom op => leBytes q.n (atomNew op q.n (leNat (s.point q.loc q.n)) (leNat q.data))
        | .red op => leBytes q.n (atomNew op q.n (leNat (s.point q.loc q.n)) (leNat q.data))
        | _ => if s.point q.loc q.n = q.data.take q.n then (q.data.drop q.n).take q.n else s.point q.loc q.n))

/-- After a return the thread is `y`, but for a barrier that the return completes (R43, R170). -/
abbrev returned (t : State) (r : TRef) (y : Thread) : Prop :=
  (t.dev.thread? r).map (fun x => (x.regs, x.cnt, x.pc, x.preds)) = some (y.regs, y.cnt, y.pc, y.preds) ∧
    (y.wait ≠ .bar → y.wait ≠ .hbar → t.dev.thread? r = some y)

/-- R127, R213, R271: a performed load returns: its value, extended under VAR, is in the destination, LDCNT falls and the request
is gone; a load from a scratchpad, a vault, an accumulator or host memory performs as it returns. R127, R225, R271: a store to
a scratchpad, an accumulator store, a vault or host memory that is due performs: its bytes are read at its place, every other
byte of memory and of every local store is as before, STCNT falls and the request is gone; a store that is performed already
only leaves. That a ZFILL of a scratchpad or vault writes 8 bytes and goes on with the rest is the model's reading of R269
(log 16). -/
def Obligations.Performed_result : Prop :=
  ((∀ s id q th fill, s.dev.req? id = some q → q.performed = true → q.dram = false → q.kind.isLoad = true →
    (q.ord = 0 ∨ q.ord = 2 ∨ q.scope < 1) → s.dev.thread? q.ref = some th → th.intv = false →
    ∃ t, exec (.loadReturn id fill) s = .next t ∧ s.sameBytes t ∧ t.dev.req? id = none ∧
      t.dev.thread? q.ref = some { (th.wrN (if q.n = 8 then 2 else 1) (.direct q.dest) q.result) with
        cnt := { th.cnt with ld := th.cnt.ld - 1 } }) ∧
  (∀ s id q th fill, s.dev.due id = some q → s.dev.marks = [] → q.dram = false →
    q.kind = .ldacc ∨ (∃ var, q.kind = .ld var) →
    (∀ pa, q.loc ≠ .dram pa) → q.loc.direct = true → (q.loc.isHost = true → s.dev.mgmt.linkUp = true) →
    (q.ord = 0 ∨ q.ord = 2 ∨ q.scope < 1) → s.dev.thread? q.ref = some th → th.intv = false →
    ∃ t, exec (.loadReturn id fill) s = .next t ∧ s.sameBytes t ∧ t.dev.req? id = none ∧
      returned t q.ref { (th.wrN (if q.n = 8 then 2 else 1) (.direct q.dest)
          (Req.result { q with val := s.point q.loc q.n })) with cnt := { th.cnt with ld := th.cnt.ld - 1 } }) ∧
  (∀ q : Req, ∀ var, q.kind = .ld var → (∀ pa, q.loc ≠ .dram pa) →
    q.result = (match var with
      | 0 => wrap 32 (toSigned 8 (leNat (q.val.take q.n)))
      | 2 => wrap 32 (toSigned 16 (leNat (q.val.take q.n)))
      | _ => leNat (q.val.take q.n)))) ∧
  ((∀ s id q, s.dev.due id = some q → s.dev.marks = [] → q.kind = .st ∨ q.kind = .stacc → q.data.length = q.n → q.n ≤ 8 →
    (q.loc.isHost = true → s.dev.mgmt.linkUp = true) →
    (∀ (k : StoKey) (off : Nat), (∃ c l, q.loc = .spad c l off ∧ k = .spad c l) ∨ (∃ v, q.loc = .vault v off ∧ k = .vault v) ∨
        (∃ c l i, q.loc = .acc c l i ∧ off = 4 * i ∧ k = .acc c l) →
      ∃ t, exec (.storePerformed id) s = .next t ∧ t.mem = s.mem ∧ t.dev.req? id = none ∧
        t.point q.loc q.n = q.data ∧
        (∀ th, s.dev.thread? q.ref = some th → (t.dev.thread? q.ref).map (·.cnt) = some { th.cnt with st := th.cnt.st - 1 }) ∧
        ∀ k' off', k' ≠ k ∨ off' < off ∨ off + q.n ≤ off' → (t.store k').read off' = (s.store k').read off') ∧
    (∀ pa, s.MemOk → q.loc = .host pa →
      ∃ t, exec (.storePerformed id) s = .next t ∧ t.sto = s.sto ∧ t.dev.req? id = none ∧
        (∀ th, s.dev.thread? q.ref = some th → (t.dev.thread? q.ref).map (·.cnt) = some { th.cnt with st := th.cnt.st - 1 }) ∧
        (∀ i < q.n, some (Memory.read t.mem (pa + i)) = q.data[i]?) ∧
        ∀ a, a < pa ∨ pa + q.n ≤ a → Memory.read t.mem a = Memory.read s.mem a)) ∧
  (∀ s id q, s.dev.due id = some q → s.dev.marks = [] → q.kind = .st ∨ q.kind = .zfill → q.data.length = q.n → 8 < q.n →
    ∀ (k : StoKey) (off : Nat), (∃ c l, q.loc = .spad c l off ∧ k = .spad c l) ∨ (∃ v, q.loc = .vault v off ∧ k = .vault v) →
      ∃ t, exec (.storePerformed id) s = .next t ∧ t.mem = s.mem ∧ t.dev.req? id = some (q.rest 8) ∧
        t.point q.loc 8 = q.data.take 8 ∧
        ∀ k' off', k' ≠ k ∨ off' < off ∨ off + 8 ≤ off' → (t.store k').read off' = (s.store k').read off') ∧
  (∀ s id q th, s.dev.req? id = some q → q.performed = true → q.kind.isStore = true → s.dev.thread? q.ref = some th →
    ∃ t, exec (.storePerformed id) s = .next t ∧ s.sameBytes t ∧ t.dev.req? id = none ∧
      t.dev.thread? q.ref = some { th with cnt := { th.cnt with st := th.cnt.st - 1 } }))

/-- R102, R177, R98: a WATCH whose comparison holds, or whose table is full, is answered at once; another waits as an entry of its
slice's table, a WATCH of a reduced-format page after the slices have given up its storage lines (R104); the wake of an
answered WATCH makes its thread ready. A store performed at its slice that meets an entry of the slice's table takes the
entry out and answers its request with the value found where the comparison then holds, and else leaves it. R220, R221, R374: a multicast request opens an entry of its line and mask or joins one;
the entry closes once every core of its mask has joined, or 2,048 ticks after it opened, and every joined request then has the
bytes of the line as they were at that point, as every other request of its core for that line and mask; where a record of
the line is kept or the table is full, the request is answered by a read of its own, with the requests of its core that
share it; a record lapses after 2,048 ticks. -/
def Obligations.WatchAndMulticast_result : Prop :=
  ((∀ s id q cmp s1, s.dev.due id = some q → q.kind = .watch cmp → s.dev.marks = [] →
    (if q.loc.isMx = true then commit (mxFlush q.loc q.n) s = .next s1 else s1 = s) →
    let k := s.dev.watchHome q.loc
    let val := s.point q.loc q.n
    (cmpHolds cmp (leNat val) (leNat q.data) = true ∨ 128 ≤ (s.dev.vault k).watch.length →
      exec (.watchRequest id) s = .next (s1.device (fun d =>
        d.modReq id (fun x => { x with performed := true, val := val })))) ∧
    (cmpHolds cmp (leNat val) (leNat q.data) = false → (s.dev.vault k).watch.length < 128 →
      (∀ e ∈ (s.dev.vault k).watch, e.req ≠ id) →
      exec (.watchRequest id) s = .next (s1.device (fun d => d.modVault k (fun x =>
        { x with watch := x.watch ++ [⟨some q.ref, q.ctx, q.loc, q.n, cmp, BitVec.ofNat 64 (leNat q.data), id⟩] }))))) ∧
  (∀ s r q th, (s.dev.inFlight r).find? (fun q => q.performed && (match q.kind with
      | .watch _ => true
      | _ => false)) = some q → s.dev.thread? r = some th → th.wait = .watch →
    ∃ t, exec (.watchWake r) s = .next t ∧ s.sameBytes t ∧ (t.dev.thread? r).map (·.wait) = some .none ∧
      t.dev.req? q.id = none) ∧
  (∀ m v, cmpHolds 0 m v = decide (m = v) ∧ cmpHolds 2 m v = decide (m ≠ v) ∧ cmpHolds 4 m v = decide (m < v) ∧
    cmpHolds 6 m v = decide (v ≤ m)) ∧
  (∀ s id q e, s.MemOk → plainRequest s id q → q.kind = .st → q.n ≤ 8 → q.data.length = q.n → q.loc.atSlice = true →
    (∀ pa, q.loc = .dram pa → pa % 128 + q.n ≤ 128) →
    let k := q.loc.mcVault s.dev
    let moved : Loc := match q.loc with
      | .dram pa => .dram (s.dev.redirect pa)
      | l => l
    e ∈ (s.dev.vault k).watch → (∀ u ∈ (s.dev.vault k).watch, u.req = e.req → u = e) →
    ∃ t, exec (.sliceWrite id) s = .next t ∧
      (if s.dev.meets moved q.n e.loc e.n = true ∧ cmpHolds e.cmp (leNat (t.point e.loc e.n)) e.val.toNat = true
        then e ∉ (t.dev.vault k).watch ∧ ∀ r x, e.ref = some r → s.dev.req? e.req = some x →
          (∃ c, x.kind = .watch c) → ∃ y, t.dev.req? e.req = some y ∧ y.performed = true ∧ y.val = t.point e.loc e.n
        else e ∈ (t.dev.vault k).watch))) ∧
  ((∀ s id q mask, s.dev.due id = some q → q.kind = .ldmc mask → s.dev.marks = [] →
    let k := q.loc.mcVault s.dev
    let key (e : McEnt) : Bool := e.ctx = q.ctx ∧ e.line = q.loc.line ∧ e.mask = mask
    let new : McEnt := ⟨q.ctx, q.loc.line, mask, q.group, q.cls, s.dev.ctime, [id]⟩
    (∀ e ∈ (s.dev.vault k).mc ++ (s.dev.vault k).mcOld, s.dev.ctime < e.time + 2048) →
    ((s.dev.vault k).mc.find? key = none → (s.dev.vault k).mcOld.any key = false → (s.dev.vault k).mc.length < 32 →
      s.dev.mcFull new = false →
      exec (.multicastRequest id) s = .next (s.device (fun d => d.modVault k (fun x => { x with mc := x.mc ++ [new] })))) ∧
    (∀ e, (s.dev.vault k).mc.find? key = some e →
      let joined : McEnt := { e with joined := e.joined.filter (· ≠ id) ++ [id] }
      (s.dev.mcFull joined = false →
        exec (.multicastRequest id) s = .next (s.device (fun d => d.modVault k (fun x =>
          { x with mc := x.mc.map (fun y => if y = e then joined else y) })))) ∧
      (s.dev.mcFull joined = true → (s.dev.reqs.map (·.id)).Nodup →
        (∀ v ∈ s.dev.vaults, ∀ u ∈ v.watch, ∀ j ∈ joined.joined, ∀ q, s.dev.req? j = some q → ∀ p ∈ s.dev.shares q, u.req ≠ p.id) →
        ∃ t, exec (.multicastRequest id) s = .next t ∧ joined ∉ (t.dev.vault k).mc ∧
          ∀ j ∈ joined.joined, ∀ q, s.dev.req? j = some q → ∀ p ∈ s.dev.shares q,
            ∃ x, t.dev.req? p.id = some x ∧ x.performed = true ∧ x.val = s.point p.loc p.n)) ∧
    ((s.dev.vault k).mc.find? key = none → (s.dev.vault k).mcOld.any key = true ∨ 32 ≤ (s.dev.vault k).mc.length →
      (s.dev.reqs.map (·.id)).Nodup → (∀ v ∈ s.dev.vaults, ∀ u ∈ v.watch, ∀ p ∈ s.dev.shares q, u.req ≠ p.id) →
      (∀ v ∈ s.dev.vaults, ∀ u ∈ v.watch, u.req ≠ id) →
      ∃ t x, exec (.multicastRequest id) s = .next t ∧ t.dev.req? id = some x ∧ x.performed = true ∧
        x.val = s.point q.reads.1 q.reads.2 ∧
        ∀ p ∈ s.dev.shares q, p.id ≠ id →
          ∃ y, t.dev.req? p.id = some y ∧ y.performed = true ∧ y.val = s.point p.loc p.n)) ∧
  (∀ s k i e, (s.dev.vault k).mc[i]? = some e → e.time + 2048 ≤ s.dev.ctime → s.dev.marks = [] →
    (s.dev.reqs.map (·.id)).Nodup →
    (∀ v ∈ s.dev.vaults, ∀ u ∈ v.watch, ∀ j ∈ e.joined, ∀ q, s.dev.req? j = some q → ∀ p ∈ s.dev.shares q, u.req ≠ p.id) →
    ∃ t, exec (.multicastTimeout k i) s = .next t ∧ e ∉ (t.dev.vault k).mc ∧
      ∀ j ∈ e.joined, ∀ q, s.dev.req? j = some q → ∀ p ∈ s.dev.shares q,
        ∃ x, t.dev.req? p.id = some x ∧ x.performed = true ∧ x.val = s.point p.loc p.n) ∧
  (∀ s k, exec (.multicastRecordExpire k) s = .next (s.device (fun d => d.modVault k (fun x =>
    { x with mcOld := x.mcOld.filter (fun e => decide (s.dev.ctime < e.time + 2048)) })))))

/-- R75, R76, R103, R104: an access of a reduced-format page is performed by the controller: a load takes the bytes of the BF16
view; a store within one block of 32 elements leaves in DRAM the codes and the scale that the block of the view, once the
slices have written its storage back, with the store's bytes in it encodes to. R326, R364, R365, R415: of the waiting requests that have passed the stack's arbiter or have
no context, and whose bank's refreshes are not overdue, a pseudo-channel serves the one of the lowest class, then the earliest
stamp, and of equals the first to come; a refresh is postponed behind requests to its bank up to 8 times; an idle
pseudo-channel enters self-refresh after SRIDLE µs, leaves it 800 ticks after a request waits, and a failed exit stops the
contexts that own the waiting requests and awaits training. What a bank is, and that an exit takes 800 ticks from the request,
are the model's (log 28). -/
def Obligations.MemoryController_result : Prop :=
  ((∀ s id q base fmt off, s.dev.due id = some q → s.dev.marks = [] → q.kind.isRead = true → q.loc = .mxel base fmt off →
    ∃ t x, exec (.aliasRead id) s = .next t ∧ t.dev.req? id = some x ∧ x.performed = true ∧
      x.val = s.mxBytes base fmt off q.n) ∧
  (∀ s id q base fmt off s1, s.MemOk → s.dev.due id = some q → s.dev.marks = [] → q.kind = .st →
    q.loc = .mxel base fmt off → commit (mxFlush q.loc q.n) s = .next s1 →
    0 < q.n → q.n ≤ 8 → off % 64 + q.n ≤ 64 → off < 65536 → q.data.length = q.n → s.dev.move.stat = 0 → fmt < 6 →
    base + 33 * 1024 ≤ 2 ^ 39 → (∀ v ∈ s.dev.vaults, ∀ u ∈ v.watch, u.req ≠ id) →
    let b := off / 64
    let new := overlay (mxView fmt (s1.mxBlock base fmt b).2 (s1.mxBlock base fmt b).1) (off % 64) q.data
    ∃ t x, exec (.aliasWrite id) s = .next t ∧ t.dev.req? id = some x ∧ x.performed = true ∧
      t.mxBlock base fmt b = (mxPack fmt (mxEncode fmt (mxBfs new)).2, (mxEncode fmt (mxBfs new)).1 % 256))) ∧
  ((∀ l q, pickReq l = some q → q ∈ l ∧ ∀ x ∈ l, q.cls < x.cls ∨ (q.cls = x.cls ∧ q.stamp ≤ x.stamp)) ∧
  (∀ s h n, h < 8 → h < s.dev.stks.length → (s.dev.pcAt h n).st = .active → (∀ k, (s.dev.stk h).asking k = []) →
    s.dev.fab.waits = [] →
    let may (x : DramReq) : Prop := (x.ctx = none ∨ x.admitted = true) ∧ (s.dev.pcAt h n).owed x.bank < 8
    (∀ a q b, (s.dev.pcAt h n).waiting = a ++ q :: b → may q →
      (∀ x ∈ a, may x → q.cls < x.cls ∨ (q.cls = x.cls ∧ q.stamp < x.stamp)) →
      (∀ x ∈ b, may x → q.cls < x.cls ∨ (q.cls = x.cls ∧ q.stamp ≤ x.stamp)) →
      ∃ t, exec (.dramRequest h n) s = .next t ∧ s.sameBytes t ∧ (t.dev.pcAt h n).waiting = a ++ b ∧
        (t.dev.pcAt h n).idleSince = s.dev.ctime ∧
        ∀ id, q.req = some id → q ∉ b →
          (∀ h', ∀ p ∈ (s.dev.stk h').pcs, ∀ x ∈ p.waiting, x.req = some id → h' = h ∧ p.pc = n ∧ x = q) →
          ∀ x, t.dev.req? id = some x → x.dram = false) ∧
    ((∀ x ∈ (s.dev.pcAt h n).waiting, ¬may x) →
      ∃ t, exec (.dramRequest h n) s = .next t ∧ s.sameBytes t ∧ t.dev.pcAt h n = s.dev.pcAt h n)) ∧
  (∀ s h n bank, h < 8 → bank < 64 → (s.dev.pcAt h n).st = .active →
    let p := s.dev.pcAt h n
    let busy : Bool := p.waiting.any (fun q => q.bank = bank)
    exec (.dramRefresh h n bank) s = .next (s.device (putPcE h { p with
      postponed := aset p.postponed bank (if busy = true ∧ p.owed bank < 8 then p.owed bank + 1 else p.owed bank - 1) }))) ∧
  (∀ s h n, h < 8 → n < 256 → (s.dev.stk h).sridle ≠ 0 → (s.dev.pcAt h n).st = .active → (s.dev.pcAt h n).waiting = [] →
    (s.dev.pcAt h n).idleSince + 4000 * (s.dev.stk h).sridle ≤ s.dev.ctime →
    exec (.selfRefreshEntry h n) s =
      .next (s.device (putPcE h { s.dev.pcAt h n with st := .selfRefresh, enterAt := some s.dev.ctime }))) ∧
  (∀ s h n, (s.dev.pcAt h n).st = .selfRefresh → (s.dev.pcAt h n).waiting ≠ [] →
    exec (.selfRefreshExit h n) s =
      .next (s.device (putPcE h { s.dev.pcAt h n with st := .exiting, exitAt := s.dev.ctime }))) ∧
  (∀ s h n, (s.dev.pcAt h n).st = .exiting → (s.dev.pcAt h n).exitAt + 800 ≤ s.dev.ctime → s.dev.fab.waits = [] →
    exec (.selfRefreshExit h n) s =
      .next (s.device (putPcE h { s.dev.pcAt h n with st := .active, idleSince := s.dev.ctime }))) ∧
  (∀ s h n, h < s.dev.stks.length → (s.dev.pcAt h n).st = .exiting → (s.dev.pcAt h n).exitAt + 8000 ≤ s.dev.ctime →
    ∃ t, exec (.selfRefreshExitTimeout h n) s = .next t ∧ ((t.dev.stk h).pc? n).st = .retrain ∧
      ∀ q ∈ (s.dev.pcAt h n).waiting, ∀ k, q.owner = some k → k < s.dev.ctxs.length → (t.dev.ctx k).cstate = .errstop) ∧
  (∀ s h n, (s.dev.pcAt h n).st = .retrain → s.dev.fab.waits = [] →
    exec (.pseudoChannelRetrain h n) s =
      .next (s.device (putPcE h { s.dev.pcAt h n with st := .active, idleSince := s.dev.ctime }))))

/-- R91-R94: a walk that finds a legal leaf which permits the access sets A, and for a write D, in the leaf entry, and the
core's TLBs hold the translation from then on. -/
def Obligations.PageWalk_result : Prop :=
  ∀ s core ctx va kind e at_ size, s.MemOk → core < 256 → ctx < 64 → va < 2 ^ 57 → s.dev.stopped = false →
    s.dev.tlb? core ctx va = none → s.dev.vaults.length = 64 →
    walk s (s.dev.ctx ctx).eff.vdev.toNat va 4 (s.dev.ctx ctx).eff.ptroot.toNat = .leaf e at_ size →
    permits kind e = true →
    ∃ t, exec (.pageWalk core ctx va kind) s = .next t ∧
      (leNat (t.phys at_ 1)).testBit 4 = true ∧
      (kind = .write ∨ kind = .atomic → (leNat (t.phys at_ 1)).testBit 5 = true) ∧
      ∃ x, t.dev.tlb? core ctx va = some x ∧ x.size = size ∧ x.page = va / 2 ^ size

/-! ## Engines (R225, R230-R251) -/

/-- One operation alone in a core's matrix engine that can go on: no server is at the engine, what it must follow is
performed, no stored byte carries a fault. -/
abbrev engineFree (s : State) (core : Nat) (o : MatOp) : Prop :=
  (s.dev.core core).mat = [o] ∧ core < s.dev.cores.length ∧ o.ctx < 64 ∧ o.after.all s.dev.isDone = true ∧
    s.dev.marks = [] ∧ s.dev.stopped = false ∧ s.dev.withheld core = false ∧
    ∀ x ∈ s.dev.servers, ¬(x.kind = 1 ∧ x.inst = core)

/-- R238, R244, R127: a group update of element (i, j) leaves in its accumulator at DSLOT the update of the group, of the value
there before, of the one at CSLOT for the first group, or of zero with ZC; it is one step more of the operation, and after its
last step the operation is gone and TLCNT falls. The engine keeps each element that it has read. An integer update adds the exact products
of the group's bytes modulo 2^32.
R240, R251: an SMMA takes the entry at the head of its metadata queue. R245, R246, R225: ACCZ makes an accumulator zero,
ACCLOAD converts a scratchpad element into one, ACCDRAIN converts one into a scratchpad element, and zeroes it with ZAFT; each
is one element more of its operation. -/
def Obligations.MatrixEngine_result : Prop :=
  ((∀ s core o i j, engineFree s core o → (o.kind = .mma ∨ o.kind = .smma ∨ o.kind = .mmaw) →
    let x := matBlk o.blk
    let g := (kget o.prog (i, j)).getD 0
    let n := 4 * o.ea.per
    i < x.m → j < x.n → g < x.groups → (o.kind = .smma → g < o.metas.length ∧ o.next < x.m * x.n * o.metas.length) →
    let acc := if g = 0 ∧ x.zc = true then 0 else leNat (s.point (o.acc (if g = 0 then x.cslot else x.dslot) i j) n)
    ∃ t, exec (.matrixGroupUpdate core o.id i j) s = .next t ∧ t.mem = s.mem ∧
      t.point (o.acc x.dslot i j) n = leBytes n ((o.takes s i j g).update i j g acc) ∧
      (o.next + 1 < x.m * x.n * x.groups → (t.dev.core core).mat =
        [{ o with next := o.next + 1, prog := kset o.prog (i, j) (g + 1), elems := (o.takes s i j g).elems }]) ∧
      (x.m * x.n * x.groups ≤ o.next + 1 → (t.dev.core core).mat = [] ∧
        (t.dev.thread? o.ref).map (·.cnt.tl) = (s.dev.thread? o.ref).map (fun th => th.cnt.tl - 1))) ∧
  (∀ (o : MatOp) s i j g k c, kget o.elems k = some c → kget (o.takes s i j g).elems k = some c) ∧
  (∀ (o : MatOp) s i j g acc, o.kind = .mma → o.ea = .s8 → o.eb = .s8 → o.elems = [] →
    let x := matBlk o.blk
    let a (k : Nat) : Int := toSigned 8 (s.spadBits o.spA (8 * (x.aaddr % 2 ^ 21) + x.aBit .mma 8 i k) 8)
    let b (k : Nat) : Int := toSigned 8 (s.spadBits o.spB (8 * (x.baddr % 2 ^ 21) + x.bBit 8 k j) 8)
    (o.takes s i j g).update i j g acc =
      wrap 32 ((acc : Int) + ((List.range 32).map (fun k => a (32 * g + k) * b (32 * g + k))).sum)) ∧
  (∀ (x : MatBlk) w i k, x.at_ = false → x.aBit .mma w i k = 8 * (i * x.lda) + k * w) ∧
  (∀ (x : MatBlk) w k j, x.bt = false → x.bBit w k j = 8 * (k * x.ldb) + j * w)) ∧
  (∀ s core o q e es, (s.dev.core core).mat = [o] → core < s.dev.cores.length → o.after.all s.dev.isDone = true →
    o.kind = .smma → o.metas.length < (matBlk o.blk).groups → (s.dev.core core).metaq[o.qs]? = some q →
    q.bound = some (o.ref.core, o.ref.slot) → q.items = e :: es →
    ∃ t, exec (.smmaMetaPop core o.id) s = .next t ∧ s.sameBytes t ∧
      ((t.dev.core core).metaq[o.qs]?).map (·.items) = some es ∧
      (t.dev.core core).mat = [{ o with metas := o.metas ++ [e] }]) ∧
  (∀ s core o, engineFree s core o →
    let x := accBlk o.blk
    let n := 4 * accPer x.efmt
    let slot : Loc := .acc o.ref.core o.ref.slot (x.slot + accPer x.efmt * o.next)
    let elem : Loc := .spad o.spA.1 o.spA.2 (x.saddr % 2 ^ 21 + o.next / x.cols * x.lds + o.next % x.cols * accSize x.efmt)
    let goesOn (t : State) : Prop := (o.next + 1 < x.rows * x.cols → ∃ p, (t.dev.core core).mat = [p] ∧ p.next = o.next + 1) ∧
      (x.rows * x.cols ≤ o.next + 1 → (t.dev.core core).mat = [])
    (o.kind = .accz →
      ∃ t, exec (.accOpProgress core o.id) s = .next t ∧ t.point slot n = List.replicate n 0 ∧ goesOn t) ∧
    (o.kind = .load →
      ∃ t, exec (.accOpProgress core o.id) s = .next t ∧ goesOn t ∧
        t.point slot n = leBytes n (loadVal x (narrowFmt o.afr) (leNat (s.point elem (accSize x.efmt))))) ∧
    (o.kind = .drain → ∀ th, s.dev.thread? o.ref = some th →
      let r := drainVal x (narrowFmt o.afr) th.srstate (leNat (s.point slot n))
      ∃ t, exec (.accOpProgress core o.id) s = .next t ∧ goesOn t ∧
        t.point elem (accSize x.efmt) = leBytes (accSize x.efmt) r.1 ∧
        (t.dev.thread? o.ref).map (·.srstate) = some r.2 ∧
        t.point slot n = (if x.zaft then List.replicate n 0 else s.point slot n)))

/-- R249, R251, R232: a copy's unit between local stores is read once and written, with free bytes where its destination is
the place of a source unit too (log 75); its chunk's bit being set once the chunk
is written and the copy ending with its last unit; 64 units of a COPYQ become an entry of its queue; threads that wait
for an engine go on as there is room. -/
def Obligations.CopyEngine_result : Prop :=
  (∀ s core o f unit ls ld, (s.dev.core core).cpy = [o] → core < s.dev.cores.length →
    s.dev.flock? o.ref.core o.ref.slot = some f → o.ctx < 64 → o.kind = .copy → o.targets = [(f.core, f.slot)] →
    unit < (copyBlk o.blk).units → unit ∉ o.done → o.done.length < (copyBlk o.blk).units → o.held = [] →
    o.after.all s.dev.isDone = true → s.dev.marks = [] → s.dev.stopped = false →
    (∀ x ∈ s.dev.servers, ¬(x.kind = 2 ∧ x.inst = core)) →
    let x := copyBlk o.blk
    steer s.dev f 0 copyAp (x.src o.sadr unit).toNat = .place ls →
    steer s.dev f 0 copyAp (x.dst o.dadr unit).toNat = .place ld →
    ∃ t, exec (.copyUnitTransfer core o.id unit) s = .next t ∧ t.mem = s.mem ∧
      t.point ld 16 = (if o.meets s ld = true then (List.range 16).map (Config.undefByte s.dev.free) else s.point ls 16) ∧
      (o.done.length + 1 < x.units → (t.dev.core core).cpy = [{ o with done := unit :: o.done }]) ∧
      (o.done.length + 1 = x.units → (t.dev.core core).cpy = [] ∧
        (t.dev.thread? o.ref).map (·.cnt.cp) = (s.dev.thread? o.ref).map (fun th => th.cnt.cp - 1)) ∧
      ((∀ i < 32, 32 * (unit / 32) + i < x.units → 32 * (unit / 32) + i ∈ unit :: o.done) →
        (t.dev.flock? f.core f.slot).map (fun y => y.m o.m) =
          some ((f.m o.m) ||| (if o.m < f.ms.length then BitVec.ofNat 128 (2 ^ (unit / 32)) else 0)))) ∧
  (∀ s core o q (c : Nat → List Byte), (s.dev.core core).cpy = [o] → core < s.dev.cores.length → o.kind = .q →
    (s.dev.core core).metaq[o.m]? = some q → q.bound = some (o.ref.core, o.ref.slot) → q.items.length < 16 →
    (∀ i < 64, aget o.buf (64 * o.placed + i) = some (c i)) →
    ∃ t, exec (.copyqEntryPlace core o.id) s = .next t ∧ s.sameBytes t ∧
      ((t.dev.core core).metaq[o.m]?).map (·.items) = some (q.items ++ [((List.range 64).map c).flatten]) ∧
      ((t.dev.core core).cpy = [] ↔ (copyBlk o.blk).units ≤ 64 * (o.placed + 1))) ∧
  (∀ s core matrix, ∃ t, exec (.engineAccept core matrix) s = .next t ∧ s.sameBytes t ∧
    let room := if matrix then 32 - (s.dev.core core).mat.length else 64 - (s.dev.core core).cpy.length
    ∀ r ∈ (s.dev.engineWaiters core matrix).take room, ∀ x, t.dev.thread? r = some x → x.wait = .none)

/-! ## The Twill fabric (R258, R261, R361, R426-R429) -/

/-- R258, R361, R362, R426: the next request of a stream is performed at the target and answered: a load and an atomic with the
bytes there, a store with the answer alone; one that was answered is answered again and not performed; one that is not next
waits. TAG 0 begins a stream's record anew, but not where it repeats within 1 ms the request that began it (log 27). R258, R404: an answer ends the request
that it answers: a load or an atomic writes its destination, LDCNT falling; a store's STCNT falls; a refusal stops the
context. -/
def Obligations.PeerRequests_result : Prop :=
  ((∀ s m l, s.dev.stopped = false → s.dev.mgmt.stage = 4 → okRequest m = true → s.dev.fab.waits = [] →
    kget (s.dev.streamIn m).olds m.tag = none → m.tag = nextTag (s.dev.streamIn m).last → s.dev.marks = [] →
    s.peerAsleep m = none → (l.isHost = true → s.dev.mgmt.linkUp = true) →
    let c := (s.dev.ctx m.tctx).eff
    let va := c.expbase.toNat + m.fa % 2 ^ 48
    let kind : AccKind := if m.kind = 1 then .read else if m.kind = 3 then .write else .atomic
    let seq := s.dev.fab.seqs[s.dev.port m.src]?.getD 0
    m.fa % 2 ^ 48 < c.expsize.toNat → va < 2 ^ 57 → s.vat m.tctx c.ptroot va kind = .at_ l →
    (m.kind = 1 → ∃ t, exec (.peerTargetRequest m) s = .next t ∧ t.dev.fab.sends = s.dev.fab.sends ++
      [(s.dev.port m.src, ⟨2, m.src, seq, true,
        { m with kind := 2, src := s.dev.fab.devno, dst := m.src, op := 0, data := s.point l m.size }⟩)]) ∧
    (m.kind = 5 → l.isMx = false → (l.isHost = true → hostAtom m.op = true) →
      ∃ t, exec (.peerTargetRequest m) s = .next t ∧ t.dev.fab.sends = s.dev.fab.sends ++
      [(s.dev.port m.src, ⟨6, m.src, seq, true,
        { m with kind := 6, src := s.dev.fab.devno, dst := m.src, op := 0, data := s.point l m.size }⟩)]) ∧
    (m.kind = 3 → s.MemOk → ∀ pa, l = .host pa → ∃ t, exec (.peerTargetRequest m) s = .next t ∧
      (∀ i < m.size, some (Memory.read t.mem (pa + i)) = m.data[i]?) ∧ t.dev.fab.sends = s.dev.fab.sends ++
      [(s.dev.port m.src, ⟨4, m.src, seq, true,
        { m with kind := 4, src := s.dev.fab.devno, dst := m.src, op := 0, data := [] }⟩)])) ∧
  (∀ s m, s.dev.stopped = false → s.dev.mgmt.stage = 4 → okRequest m = true → s.dev.fab.waits = [] →
    (∀ a, kget (s.dev.streamIn m).olds m.tag = some a →
      exec (.peerTargetRequest m) s = .next (s.device (fun d => sendFlit (Answer.msg a d m) d))) ∧
    (kget (s.dev.streamIn m).olds m.tag = none → m.tag ≠ nextTag (s.dev.streamIn m).last →
      exec (.peerTargetRequest m) s = .next (s.device (parkPeer m)))) ∧
  (∀ (d : Dev) m st, d.fab.ins.find? (fun y => y.src = m.src ∧ y.sctx = m.sctx) = some st →
    let again : Prop := ∃ t, st.first = some (m, t) ∧ d.ctime < t + 4000000
    (m.tag ≠ 0 ∨ again → d.streamIn m = st) ∧
    (m.tag = 0 → ¬again → (d.streamIn m).olds = [] ∧ nextTag (d.streamIn m).last = 0))) ∧
  (∀ s m o q th, s.dev.stopped = false → s.dev.mgmt.stage = 4 → s.dev.answered m = some o → s.dev.req? o.req = some q →
    s.dev.thread? q.ref = some th → th.intv = false →
    (m.kind = 4 → ∃ t, exec (.peerResponse m) s = .next t ∧ s.sameBytes t ∧ t.dev.req? q.id = none ∧
      returned t q.ref { th with cnt := { th.cnt with st := th.cnt.st - 1 } }) ∧
    (m.kind = 2 ∨ m.kind = 6 → q.kind.isLoad = true → (∀ pa, q.loc ≠ .dram pa) → (q.ord = 0 ∨ q.ord = 2 ∨ q.scope < 1) →
      ∃ t, exec (.peerResponse m) s = .next t ∧ s.sameBytes t ∧ t.dev.req? q.id = none ∧
        returned t q.ref { (th.wrN (if q.n = 8 then 2 else 1) (.direct q.dest)
          (Req.result { q with val := m.data, performed := true })) with cnt := { th.cnt with ld := th.cnt.ld - 1 } }) ∧
    (m.kind = 9 → q.ctx < s.dev.ctxs.length → ∃ t, exec (.peerResponse m) s = .next t ∧
      (t.dev.ctx q.ctx).cstate = .errstop))

/-- R361, R367, R377, R427, R428: a flit that fails its check is recorded and waits for its retry; one whose route entry is not
0x8000 goes on through the port of its route with that link's next sequence number; a request or an answer whose entry is
0x8000 acts. When a port goes down, what is unanswered on it waits, in order, to be sent again on the valid alternate of its
route, bits 7:4 of the entry, and goes at the port's turn. A stream that has waited 1 ms breaks: its requests are dropped, its context stops, and it
restarts with TAG 0. R261, R284, R408, R429: a collective that is due reads SEND, writes RECV from the contributions of all
ranks, then SEQ at DONE, and ends; one that has waited 10 ms, or whose data cannot cross the fabric, writes free bytes to RECV
and stops its context. That the 10 ms run from the issue, and how a collective's data cross, are the model's (logs 27 and 57). -/
def Obligations.FabricAndCollectives_result : Prop :=
  ((∀ s port f, s.dev.stopped = false → s.dev.mgmt.stage = 4 → port < 16 →
    (f.ok = false → ∃ t, exec (.twillFlitReceive port f) s = .next t ∧ t.dev.fab = s.dev.fab ∧
      (92 + port < s.dev.banks.length → t.dev.bank (92 + port) =
        (s.dev.bank (92 + port)).record (92 + port) 1 none 0x32 0 0 0 s.dev.ctime)) ∧
    (f.ok = true → s.dev.routeOf f.dst ≠ 0x8000 →
      let p := s.dev.port f.dst
      let n := s.dev.fab.seqs[p]?.getD 0
      exec (.twillFlitReceive port f) s = .next (s.device (fun d =>
        { d with fab := { d.fab with
            sends := d.fab.sends ++ [(p, ⟨f.kind, f.dst, n, true, { f.msg with kind := f.kind, dst := f.dst }⟩)],
            seqs := d.fab.seqs.set p ((n + 1) % 256) } }))) ∧
    (f.ok = true → s.dev.routeOf f.dst = 0x8000 →
      (f.kind ∈ [1, 3, 5] → exec (.twillFlitReceive port f) s =
        exec (.peerTargetRequest { f.msg with kind := f.kind, dst := f.dst }) s) ∧
      (f.kind ∈ [2, 4, 6, 9] → exec (.twillFlitReceive port f) s =
        exec (.peerResponse { f.msg with kind := f.kind, dst := f.dst }) s))) ∧
  (∀ s port, s.dev.stopped = false → port < 16 → port ∉ s.dev.fab.down → s.dev.fab.colls = [] →
    let alt (o : PeerOut) : Nat := bits (s.dev.routeOf o.msg.dst) 4 4
    let lost := s.dev.fab.outs.filter (fun o => o.port = port)
    (∀ o ∈ lost, bit (s.dev.routeOf o.msg.dst) 8 = true ∧ bits (s.dev.routeOf o.msg.dst) 0 4 = port ∧
      alt o ∉ port :: s.dev.fab.down) →
    ∃ t, exec (.twillPortDown port) s = .next t ∧ t.dev.fab.down = port :: s.dev.fab.down ∧
      t.dev.fab.queue = s.dev.fab.queue.filter (fun x => decide (t.dev.port x.2.dst ≠ port)) ++
        lost.map (fun o => (o.msg.sctx, o.msg)) ∧
      ∀ o ∈ lost, t.dev.port o.msg.dst = alt o ∧ ∃ o' ∈ t.dev.fab.outs, o'.msg = o.msg ∧ o'.port = alt o) ∧
  (∀ (s : State) port (x : Nat × PeerMsg), x.1 < 64 → port < 16 → (s.dev.queued port).head? = some x → (∀ y ∈ s.dev.queued port, y.1 = x.1) →
    (∀ q ∈ s.leaving s.dev port, q.ctx = x.1) → (∀ v ∈ s.dev.servers, ¬(v.kind = 4 ∧ v.inst = port)) →
    (s.portTurn port s.dev).fab.sends = s.dev.fab.sends ++
      [(port, ⟨x.2.kind, x.2.dst, s.dev.fab.seqs[port]?.getD 0, true, x.2⟩)]) ∧
  (∀ s ctx dev, s.dev.stopped = false → ctx < s.dev.ctxs.length →
    (∃ o ∈ s.dev.fab.outs, o.msg.sctx = ctx ∧ o.msg.dst = dev ∧ o.sent + 4000000 ≤ s.dev.ctime) →
    ∃ t, exec (.peerStreamTimeout ctx dev) s = .next t ∧ (t.dev.ctx ctx).cstate = .errstop ∧
      (∀ o ∈ t.dev.fab.outs, ¬(o.msg.sctx = ctx ∧ o.msg.dst = dev)) ∧
      nextTag ((kget t.dev.fab.tags (ctx, dev)).getD 0) = 0)) ∧
  ((∀ s c sends s0 s1 s2 s3, s.dev.fab.colls.find? (fun y => y.id = c.id) = some c → s.dev.stopped = false →
    sends.length = c.g → c.after.all s.dev.isDone = true → s.collCut c = false →
    let x := collBlk c.blk
    let n := x.sendBytes c.g
    let own := s.vbytes c.ctx c.ptroot x.send n
    let res := x.result (sends.set c.rank own) c.rank
    x.kind ≠ 3 → (∀ q < c.g, q ≠ c.rank → (sends[q]?.getD []).length = n) →
    s.vbad c.ctx c.ptroot x.send n .read = none → s.vecc c.ctx c.ptroot x.send n .read = false →
    commit (vreadE c.ctx c.ptroot x.send n) s = .next s0 → commit (collSend c own) s0 = .next s1 →
    s1.vbad c.ctx c.ptroot x.recv res.length .write = none → s1.vecc c.ctx c.ptroot x.recv res.length .write = false →
    commit (vwriteE c.ctx c.ptroot x.recv res) s1 = .next s2 →
    s2.vbad c.ctx c.ptroot x.done 8 .write = none → s2.vecc c.ctx c.ptroot x.done 8 .write = false → commit (vwriteE c.ctx c.ptroot x.done (leBytes 8 x.seq)) s2 = .next s3 →
    exec (.collComplete c.id sends) s = .next (s3.device (fun d =>
      { d with fab := { d.fab with colls := d.fab.colls.filter (fun y => y.id ≠ c.id) } }))) ∧
  (∀ (x : CollBlk) xs rank, (x.kind = 1 → x.result xs rank = xs.flatten) ∧
    (x.kind = 3 → x.result xs rank = xs[x.root]?.getD []) ∧
    (x.kind = 0 → x.result xs rank = (List.range x.count).flatMap (fun e => leBytes x.es (x.reduce xs e))) ∧
    (x.kind = 2 → x.result xs rank = (List.range x.count).flatMap (fun e => leBytes x.es (x.reduce xs (x.count * rank + e))))) ∧
  (∀ s c s1, s.dev.fab.colls.find? (fun y => y.id = c.id) = some c → s.dev.stopped = false →
    (c.at_ + 40000000 ≤ s.dev.ctime ∨ s.collCut c = true) → c.ctx < s.dev.ctxs.length →
    commit (vwriteE c.ctx c.ptroot (collBlk c.blk).recv ((List.range ((collBlk c.blk).recvBytes c.g)).map
      (fun i => Config.undefByte s.dev.free i))) s = .next s1 →
    ∃ t, exec (.collTimeout c.id) s = .next t ∧ commit (contained c.ctx 109 0x35 0 0 0) (s1.device Dev.fresh) = .next t ∧
      (t.dev.ctx c.ctx).cstate = .errstop))

/-! ## Runs, flocks, tiles (R50-R55, R285-R302, R313-R317) -/

/-- The control plane reads `w` at a virtual address of the context, and `s1` is the state after. -/
abbrev readsWord (s : State) (ctx a n : Nat) (w : List Byte) (s1 : State) : Prop :=
  let root := (s.dev.ctx ctx).eff.ptroot
  s.vbad ctx root a n .read = none ∧ s.vecc ctx root a n .read = false ∧ s.vbytes ctx root a n = w ∧
    commit (vreadE ctx root a n) s = .next s1

/-- The control plane writes `bs` at a virtual address of the context, and `s1` is the state after. -/
abbrev writesWord (s : State) (ctx a : Nat) (bs : List Byte) (s1 : State) : Prop :=
  let root := (s.dev.ctx ctx).eff.ptroot
  s.vbad ctx root a bs.length .write = none ∧ s.vecc ctx root a bs.length .write = false ∧
    commit (vwriteE ctx root a bs) s = .next s1

/-- R50, R70, R51, R317: the flock that is due in its context's turn is placed in the lowest free slot of its core: its threads
stand before the header at the kernel's entry, no wait, counter or helper flag set and SRSTATE not 0, with the run's arguments
and the kernel's format registers; it is committed unless its kernel may restart. A herd's flocks are placed together. R52,
R285, R54, R55: a flock whose threads have ended with their counters at zero completes: once its bit in the completion bitmap
is written its slot is free and the run counts it; at a drain's limit an uncommitted flock is aborted, its threads gone and
itself at the head of its run's queue; an aborted flock's allocations are freed once no request of it is in flight. R50 asks for
a free slot: that it is the lowest, and that a herd's flocks take their cores and slots one after another, is the model's choice
(log 24). -/
def Obligations.FlockLife_result : Prop :=
  ((∀ s ctx r g core slot, s.dev.nextSpot ctx = some (r, [(g, core)]) → s.dev.isTurn ctx = true → r.kern.herd = 1 →
    s.dev.run? ctx r.num = some r → s.dev.freeSlot core = some slot →
    ∃ t f, exec (.flockPlace ctx) s = .next t ∧ t.mem = s.mem ∧ t.dev.flocks = s.dev.flocks ++ [f] ∧
      (f.core = core ∧ f.slot = slot ∧ f.ctx = ctx ∧ f.run = r.num ∧ f.g = g ∧ f.kern = r.kern) ∧
      (f.fx = g % r.gx ∧ f.fy = g / r.gx % r.gy ∧ f.fz = g / (r.gx * r.gy)) ∧
      f.ks = r.ks ∧ f.fs = r.kern.fpre.map (· &&& fsrMask) ∧ f.committed = (!r.kern.restart) ∧ f.dead = false ∧
      f.threads.map (·.t) = ((r.spawn g).getD []).map (·.1) ∧
      (∀ th ∈ f.threads, th.pc = r.kern.entry ∧ th.enter = some 0 ∧ th.wait = .none ∧ th.ended = none ∧
        th.helper = false ∧ th.cnt = ⟨0, 0, 0, 0⟩ ∧ th.srstate ≠ 0 ∧ th.trap.intrap = false ∧ th.intv = false) ∧
      (t.store (.spad core slot)).cells = []) ∧
  (∀ s ctx r ps, s.dev.nextSpot ctx = some (r, ps) → s.dev.isTurn ctx = true → 1 < r.kern.herd →
    s.dev.run? ctx r.num = some r → (ps.map (·.2)).Nodup → (∀ p ∈ ps, (s.dev.freeSlot p.2).isSome = true) →
    ∃ t fs, exec (.herdPlace ctx) s = .next t ∧ t.mem = s.mem ∧ t.dev.flocks = s.dev.flocks ++ fs ∧
      fs.map (fun f => (f.g, f.core, some f.slot)) = ps.map (fun p => (p.1, p.2, s.dev.freeSlot p.2)) ∧
      ∀ f ∈ fs, f.ctx = ctx ∧ f.run = r.num ∧ f.kern = r.kern ∧ f.committed = (!r.kern.restart) ∧ f.dead = false ∧
        f.hidx = f.g % r.kern.herd ∧ f.threads.map (·.t) = ((r.spawn f.g).getD []).map (·.1))) ∧
  ((∀ s core slot f r w s0 s1 r1, s.dev.flock? core slot = some f → f.dead = false → f.finished = false → f.tile = none →
    (f.threads ++ f.inst.toList).all (fun th => th.ended.isSome && th.quiet && th.seen.all s.dev.reached) = true →
    s.dev.stopped = false →
    (∀ o ∈ (s.dev.core core).mat, ¬(o.ref.core = core ∧ o.ref.slot = slot)) →
    (∀ o ∈ (s.dev.core core).cpy, ¬(o.ref.core = core ∧ o.ref.slot = slot)) →
    s.dev.run? f.ctx f.run = some r →
    let a := r.bitmap.toNat + f.g / 8
    readsWord s f.ctx a 1 w s0 → writesWord s0 f.ctx a (leBytes 1 (leNat w ||| 2 ^ (f.g % 8))) s1 →
    s1.dev.flock? core slot = some f → s1.dev.run? f.ctx f.run = some r1 → f.g ∉ r1.done →
    r1.done.length + 1 < r1.count → f ∈ s1.dev.herdOf f →
    (∀ x ∈ s1.dev.herdOf f, x.finished = true ∨ (x.core = core ∧ x.slot = slot)) → f.ctx < s1.dev.ctxs.length →
    ∃ t, exec (.flockComplete core slot) s = .next t ∧ t.mem = s1.mem ∧ t.dev.flock? core slot = none ∧
      (t.dev.run? f.ctx f.run).map (·.done) = some (r1.done ++ [f.g])) ∧
  (∀ s core slot f r w s0 s1 s2, s.dev.flock? core slot = some f → f.dead = false → f.finished = false → f.tile = none →
    (f.threads ++ f.inst.toList).all (fun th => th.ended.isSome && th.quiet && th.seen.all s.dev.reached) = true →
    s.dev.stopped = false →
    (∀ o ∈ (s.dev.core core).mat, ¬(o.ref.core = core ∧ o.ref.slot = slot)) →
    (∀ o ∈ (s.dev.core core).cpy, ¬(o.ref.core = core ∧ o.ref.slot = slot)) →
    s.dev.run? f.ctx f.run = some r →
    let a := r.bitmap.toNat + f.g / 8
    readsWord s f.ctx a 1 w s0 → writesWord s0 f.ctx a (leBytes 1 (leNat w ||| 2 ^ (f.g % 8))) s1 →
    commit (herdFree core slot) (s1.device (fun d => d.modRun f.ctx f.run (fun r =>
      if r.done.contains f.g then r else { r with done := r.done ++ [f.g] }))) = .next s2 →
    exec (.flockComplete core slot) s = commit (runEnd f.ctx f.run)
      (s2.device (fun d => d.modRun f.ctx f.run (fun r => r.ended (core / 64) (d.die (core / 64)).cycle)))) ∧
  (∀ s ctx num r s1, s.dev.run? ctx num = some r → r.complete = false → r.count ≤ r.done.length → r.bounds = none →
    s.dev.walking ctx = true →
    (if r.cdone = 0 then s1 = s else writesWord s ctx r.cdone.toNat (leBytes 8 num) s1) → s1.dev.walking ctx = true →
    let s2 := s1.device (fun d => d.modRun ctx num (fun r => { r with complete := true }))
    (r.node = none ∨ r.risk = true → commit (runEnd ctx num) s = .next s2) ∧
    (∀ i, r.node = some i → r.risk = false → commit (runEnd ctx num) s = commit (resolve ctx i .performed (fun _ => true)) s2)) ∧
  (∀ s core slot f r, s.dev.flock? core slot = some f → f.dead = false → f.committed = false → f.tile = none → f.hidx < 4 →
    (s.dev.ctx f.ctx).cstate = .draining → s.dev.drainEnd f.ctx ≤ s.dev.ctime → s.dev.herdOf f = [f] →
    s.dev.run? f.ctx f.run = some r → f.ctx < s.dev.ctxs.length →
    ∃ t, exec (.flockAbort core slot) s = .next t ∧ t.mem = s.mem ∧
      (t.dev.flock? core slot).map (fun x => (x.dead, x.threads, x.inst)) = some (true, [], none) ∧
      (t.dev.run? f.ctx f.run).map (·.queue) = some (f.g :: r.queue)) ∧
  (∀ s core slot f, s.dev.flock? core slot = some f → f.dead = true →
    (∀ q ∈ s.dev.reqs, ¬(q.ref.core = core ∧ q.ref.slot = slot)) →
    ∃ t, exec (.abortAllocFree core slot) s = .next t ∧ t.mem = s.mem ∧ t.dev.flock? core slot = none ∧
      t.dev.reqs = s.dev.reqs))

/-- R171, R313, R314: a LAUNCH whose earlier writes are visible is answered: an accepted run takes the context's next run number,
its bitmap zeroed first, its flocks queued in increasing index, and VD holds the number; a refused one leaves 0 in VD; one whose
words cannot be translated is a step error of reason 5, at no node (R417). A block with a zero grid dimension or more than 256 arguments is refused. R289, R290, R296-R301: the tile at the head of a run's
evaluation queue is placed as a flock of interval threads, one for each thread id in the tile, its budget charged, or becomes a
SCATTER leaf where the budget does not hold them; a tile with an UNKNOWN thread splits into its quarters while the depth allows,
and is a SCATTER leaf at the depth's limit; a decided tile that stored is a SETTLED leaf, one that did not is a DONE leaf, its
recorded fills made first. R300: a flock of which every element lies in DONE leaves has its bit set without placement. That such a step error names no node
is the model's reading (log 25). -/
def Obligations.RunsAndTiles_result : Prop :=
  ((∀ s r f th dest blk run s1 s2, s.dev.flock? r.core r.slot = some f → f.thread? r.t = some th →
    th.wait = .launch dest blk → (s.dev.inFlight r).all (fun q => !q.pendingAt false) = true →
    th.seen.all s.dev.reached = true → s.dev.stopped = false →
    (s.dev.ctx f.ctx).cstate ≠ .errstop → acceptRun s f.ctx blk th.lb none false = .ok run →
    commit (acceptE f.ctx blk (some run.kern.wins)) s = .next s1 → (s1.dev.ctx f.ctx).cstate ≠ .errstop →
    let n := (s1.dev.ctx f.ctx).nextRun
    writesWord s1 f.ctx run.bitmap.toNat (List.replicate (ceilDiv run.count 8) 0) s2 →
    exec (.runAccept r) s = .next (s2.device (fun d =>
      (d.modCtx f.ctx (fun c => { c with runs := c.runs ++ [{ run with num := n }], nextRun := runAfter n })).modThread r
        (fun x => { (if dest = 2047 then x else x.setReg dest (BitVec.ofNat 32 n)) with wait := .none, waited := 0 })))) ∧
  (∀ s r f th dest blk wins s1, s.dev.flock? r.core r.slot = some f → f.thread? r.t = some th →
    th.wait = .launch dest blk → (s.dev.inFlight r).all (fun q => !q.pendingAt false) = true →
    th.seen.all s.dev.reached = true → s.dev.stopped = false →
    (s.dev.ctx f.ctx).cstate ≠ .errstop → acceptRun s f.ctx blk th.lb none false = .refuse wins →
    commit (acceptE f.ctx blk wins) s = .next s1 →
    exec (.runAccept r) s = .next (s1.device (fun d => d.modThread r
      (fun x => { (if dest = 2047 then x else x.setReg dest 0) with wait := .none, waited := 0 })))) ∧
  (∀ s r f th dest blk s1, s.dev.flock? r.core r.slot = some f → f.thread? r.t = some th →
    th.wait = .launch dest blk → (s.dev.inFlight r).all (fun q => !q.pendingAt false) = true →
    th.seen.all s.dev.reached = true → s.dev.stopped = false →
    (s.dev.ctx f.ctx).cstate ≠ .errstop → acceptRun s f.ctx blk th.lb none false = .unreadable →
    commit (acceptE f.ctx blk none) s = .next s1 →
    exec (.runAccept r) s = commit (stepError f.ctx 0xFFFFFFFF 5) s1) ∧
  (∀ s ctx blk lb node risk, (launchBlk blk).gx = 0 ∨ (launchBlk blk).gy = 0 ∨ (launchBlk blk).gz = 0 ∨
      256 < (launchBlk blk).nargs → acceptRun s ctx blk lb node risk = .refuse none) ∧
  (∀ s ctx blk lb node risk r, acceptRun s ctx blk lb node risk = .ok r →
    r.queue = List.range (r.gx * r.gy * r.gz) ∧ r.done = [] ∧ r.complete = false ∧ r.ks.length ≤ 256 ∧
    1 ≤ r.kern.n ∧ r.kern.n ≤ 2047 ∧ r.kern.sx * r.kern.sy * r.kern.sz ≤ 1024 ∧ r.kern.herd ≤ 4)) ∧
  ((∀ s ctx num r b tl rest core slot, s.dev.run? ctx num = some r → r.num = num → r.bounds = some b → b.queue = tl :: rest →
    (s.dev.ctx ctx).cstate = .running → s.dev.stopped = false → (tl.ids r.kern).length ≤ b.budget →
    (tl.flocks r).all (fun x => r.wins.all (fun w => w.met (s.dev.ctx ctx) x)) = true →
    s.dev.bestCore ((s.dev.homes ctx).flatMap coresOf) r.kern (tl.ids r.kern) true = some core →
    s.dev.freeSlot core = some slot →
    ∃ t f, exec (.tileEvalPlace ctx num) s = .next t ∧ t.mem = s.mem ∧ t.dev.flocks = s.dev.flocks ++ [f] ∧
      f.core = core ∧ f.slot = slot ∧ f.tile = some tl ∧ f.committed = false ∧
      f.threads.map (·.t) = tl.ids r.kern ∧ (∀ th ∈ f.threads, th.intv = true ∧ th.pc = r.kern.entry) ∧
      (ctx < s.dev.ctxs.length → (t.dev.run? ctx num).bind (·.bounds) =
        some { b with queue := rest, running := b.running ++ [tl], budget := b.budget - (tl.ids r.kern).length })) ∧
  (∀ s core slot f tl r b b', s.dev.flock? core slot = some f → f.tile = some tl → f.dead = false →
    s.dev.run? f.ctx f.run = some r → r.bounds = some b → s.dev.stopped = false →
    f.threads.all (fun th => th.ended.isSome) = true → f.ctx < s.dev.ctxs.length → r.done.length < r.count →
    (∀ g ∈ r.queue, ({ r with bounds := some b' } : Run).spawn g ≠ some []) →
    let unknown := f.threads.any (fun th => th.ended = some .unknown)
    let gone := b.running.filter (· ≠ tl)
    (unknown = true ∧ tl.depth < b.depth ∧
        b' = { b with running := gone, splits := b.splits ++ [tl], queue := b.queue ++ tl.quarters b }) ∨
      (unknown = true ∧ b.depth ≤ tl.depth ∧
        b' = { b with running := gone, leaves := b.leaves ++ [(tl, 3)], queue := b.queue.filter (· ≠ tl) }) ∨
      (unknown = false ∧ f.threads.any (fun th => th.iv.stored) = true ∧
        b' = { b with running := gone, leaves := b.leaves ++ [(tl, 1)], queue := b.queue.filter (· ≠ tl) }) ∨
      (unknown = false ∧ f.threads.any (fun th => th.iv.stored) = false ∧ f.fillList tl = [] ∧
        b' = { b with running := gone, leaves := b.leaves ++ [(tl, 0)], queue := b.queue.filter (· ≠ tl) }) →
    ∃ t, exec (.tileOutcome core slot) s = .next t ∧ t.mem = s.mem ∧ t.dev.flock? core slot = none ∧
      (t.dev.run? f.ctx f.run).bind (·.bounds) = some b')) ∧
  ((∀ s ctx num r b tl rest, s.dev.run? ctx num = some r → r.bounds = some b → b.queue = tl :: rest →
    (s.dev.ctx ctx).cstate = .running → s.dev.stopped = false → b.budget < (tl.ids r.kern).length →
    exec (.tileEvalPlace ctx num) s = commit (fillFlocks ctx num) (s.device (modBounds ctx num (fun b =>
      { b with leaves := b.leaves ++ [(tl, 3)], running := b.running.filter (· ≠ tl), queue := b.queue.filter (· ≠ tl) })))) ∧
  (∀ s core slot f tl r b x v off nc s1, s.dev.flock? core slot = some f → f.tile = some tl → f.dead = false →
    s.dev.run? f.ctx f.run = some r → r.bounds = some b → s.dev.stopped = false →
    f.threads.all (fun th => th.ended.isSome) = true → f.threads.any (fun th => th.ended = some .unknown) = false →
    f.threads.any (fun th => th.iv.stored) = false → f.fillList tl = [x] → fillTo s f x = .at_ (.vault v off) nc →
    steer s.dev f x.t ⟨false, true, true⟩ x.a.toNat = .place (.vault v off) → s.dev.marks = [] →
    commit ((pointWrite (fillWho s.dev f x.t nc) .plain (.vault v off) (leBytes x.w x.val.toNat)).andThen
      (discard (fun y => y.core = core ∧ y.slot = slot))) s = .next s1 →
    s1.point (.vault v off) x.w = leBytes x.w x.val.toNat ∧
    exec (.tileOutcome core slot) s = commit (fillFlocks f.ctx f.run) (s1.device (modBounds f.ctx f.run (fun b =>
      { b with leaves := b.leaves ++ [(tl, 0)], running := b.running.filter (· ≠ tl), queue := b.queue.filter (· ≠ tl) })))) ∧
  (∀ s ctx num r g w s0 s1, s.dev.run? ctx num = some r → r.queue.filter (fun g => r.spawn g = some []) = [g] →
    s.dev.walking ctx = true →
    let a := r.bitmap.toNat + g / 8
    readsWord s ctx a 1 w s0 → writesWord s0 ctx a (leBytes 1 (leNat w ||| 2 ^ (g % 8))) s1 → s1.dev.walking ctx = true →
    commit (fillFlocks ctx num) s = commit (runEnd ctx num) (s1.device (fun d => d.modRun ctx num (fun r =>
      { (if r.done.contains g then r else { r with done := r.done ++ [g] }) with queue := r.queue.filter (· ≠ g) })))))

/-! ## Submission and the graph walker (R303-R312, R417) -/

/-- The node stands due in a running context: the walker can read it, it is of the kind and legal, and an edge to it
carried "taken", or it is node 0 or END; `s1` is the state once it is read. -/
abbrev nodeStands (s : State) (ctx i kind : Nat) (st : Machine.Step) (b : List Byte) (s1 : State) : Prop :=
  (s.dev.ctx ctx).step = some st ∧ s.dev.stopped = false ∧ (s.dev.ctx ctx).cstate = .running ∧ i < st.nnodes ∧
    s.nodeBytes ctx st i = some b ∧ (nodeHead b).kind = kind ∧ (st.node i).st = .idle ∧
    (st.node i).taken + (st.node i).skips = (nodeHead b).npred ∧ (i = 0 ∨ (st.node i).taken ≠ 0 ∨ kind = 6) ∧
    (nodeHead b).bad b st.nnodes = none ∧ commit (nodeReadE ctx st i) s = .next s1 ∧ s1.dev.walking ctx = true

/-- R307-R309: a node that is due acts and is resolved: RUN launches its block's run and is busy until it completes; COND takes
the successor of its word, the last one at most; LOOP takes its body while its word is not 0 and its limit is not reached,
else its exit, the edges of both being the model's reading (log 25); END is busy until the step completes. A resolved node's
edges raise the counts of its ordinary successors, as "taken" where the node's choice says so and else as skipped. The last
back edge of a LOOP's iteration makes the LOOP due again, its count of iterations higher by one, and the nodes of its body are
as if not yet reached, their watch entries gone; an earlier one is only counted. R307, R102, R311: WAITV is resolved where its comparison holds, else it is busy with an entry in its
slice's table, and resolved by the slice's wake; SIGNAL writes its word and is resolved; TEST writes TESTREQ and TESTKIND of the
save area, with its pending bit, and clears its clusters' bits of the summary bank once none of its clusters holds a flock of
the context, begins the self-test of each of them that is held empty, and is resolved once every
one of them has ended. -/
def Obligations.Graph_result : Prop :=
  ((∀ s ctx i st b s1 blk s2 run s3 s4, nodeStands s ctx i 0 st b s1 → readsWord s1 ctx (field b 0x10 8) 64 blk s2 →
    acceptRun s2 ctx blk ⟨0, 0, 0, 0⟩ (some i) false = .ok run → commit (acceptE ctx blk (some run.kern.wins)) s2 = .next s3 →
    s3.dev.walking ctx = true → run.node = some i →
    writesWord s3 ctx run.bitmap.toNat (List.replicate (ceilDiv run.count 8) 0) s4 →
    let n := (s3.dev.ctx ctx).nextRun
    exec (.runNode ctx i) s = .next (s4.device (fun d => modNode ctx i (fun x => { x with st := .busy })
      (d.modCtx ctx (fun c => { c with runs := c.runs ++ [{ run with num := n }], nextRun := runAfter n }))))) ∧
  (∀ s ctx i st b s1 w s2, nodeStands s ctx i 1 st b s1 → readsWord s1 ctx (field b 0x10 8) 4 w s2 →
    ∃ t, commit (resolve ctx i .performed (fun k => k = min (leNat w) ((nodeHead b).nsucc - 1))) s2 = .next t ∧
      exec (.condNode ctx i) s = .next t) ∧
  (∀ s ctx i st b s1 w s2, nodeStands s ctx i 2 st b s1 → readsWord s1 ctx (field b 0x10 8) 4 w s2 →
    (leNat w ≠ 0 → (field b 0x1C 4 = 0 ∨ (st.node i).iters < field b 0x1C 4) →
      ∃ t, commit (edge ctx i ((nodeHead b).succ[0]?.getD 0) true) (s2.device (modNode ctx i (fun n =>
          { n with st := .performed, inBody := true, backs := 0 }))) = .next t ∧ exec (.loopNode ctx i) s = .next t) ∧
    (leNat w = 0 ∨ (field b 0x1C 4 ≠ 0 ∧ field b 0x1C 4 ≤ (st.node i).iters) →
      ∃ t, commit (resolve ctx i .performed (fun k => k = 1)) (s2.device (modNode ctx i (fun n =>
          { n with inBody := false, backs := 0 }))) = .next t ∧ exec (.loopNode ctx i) s = .next t)) ∧
  (∀ s ctx i st b s1, nodeStands s ctx i 6 st b s1 →
    exec (.endNode ctx i) s = .next (s1.device (fun d => (modNode ctx i (fun x => { x with st := .busy }) d).modCtx ctx (fun c =>
      { c with step := c.step.map (fun st => { st with ending := true }) })))) ∧
  (∀ s ctx u j st b taken, (s.dev.ctx ctx).step = some st → s.nodeBytes ctx st j = some b → (nodeHead b).kind ≠ 2 →
    (st.node j).st = .idle → (st.node j).taken + (st.node j).skips < (nodeHead b).npred →
    commit (edge ctx u j taken) s = .next (s.device (modNode ctx j (fun n =>
      { n with taken := n.taken + taken.toNat, skips := n.skips + (!taken).toNat, iters := 0 })))) ∧
  (∀ s ctx i st b c choice, (s.dev.ctx ctx).step = some st → (s.dev.ctx ctx).cstate ≠ .errstop →
    s.nodeBytes ctx st i = some b → i ∉ (nodeHead b).succ →
    (∀ j ∈ (nodeHead b).succ, ∃ bj, s.nodeBytes ctx st j = some bj ∧ (nodeHead bj).kind ≠ 2 ∧ (st.node j).st = .idle ∧
      (st.node j).taken + (st.node j).skips + (nodeHead b).succ.count j ≤ (nodeHead bj).npred) →
    commit (resolve ctx i c choice) s = .next (s.device (fun d => (nodeHead b).succ.zipIdx.foldl
      (fun d x => modNode ctx x.1 (fun n => { n with
        taken := n.taken + (choice x.2).toNat, skips := n.skips + (!choice x.2).toNat, iters := 0 }) d)
      (modNode ctx i (fun n => { n with st := c }) d)))) ∧
  (∀ s ctx u j st b taken, (s.dev.ctx ctx).step = some st → s.nodeBytes ctx st j = some b → (nodeHead b).kind = 2 →
    (st.node j).st = .performed → (st.node j).inBody = true →
    let body (m : Nat) : Prop := field b 0x18 2 ≤ m ∧ m ≤ field b 0x1A 2
    let backs := s.backEdges ctx st j (field b 0x18 2, field b 0x1A 2)
    body u →
    ((st.node j).backs + 1 < backs →
      commit (edge ctx u j taken) s = .next (s.device (modNode ctx j (fun n => { n with backs := n.backs + 1 })))) ∧
    (backs ≤ (st.node j).backs + 1 →
      ∃ t st', commit (edge ctx u j taken) s = .next t ∧ s.sameBytes t ∧ (t.dev.ctx ctx).step = some st' ∧
        st'.node j = { st.node j with backs := 0, inBody := false, iters := (st.node j).iters + 1, st := .idle } ∧
        (∀ m, m ≠ j → st'.node m = if body m then Node.fresh m else st.node m) ∧
        ∀ v ∈ t.dev.vaults, ∀ e ∈ v.watch, e.ref = none → e.ctx = ctx → e.req ≠ j → ¬body e.req))) ∧
  ((∀ s ctx i st b s1 w s2, nodeStands s ctx i 3 st b s1 → readsWord s1 ctx (field b 0x10 8) 4 w s2 →
    let cmp := 2 * (field b 0x1C 1 % 4)
    let v := field b 0x18 4
    (cmpHolds cmp (leNat w) v = true →
      ∃ t, commit (resolve ctx i .performed (fun _ => true)) s2 = .next t ∧ exec (.waitvNode ctx i) s = .next t) ∧
    (cmpHolds cmp (leNat w) v = false → ∀ l, s2.vat ctx (s2.dev.ctx ctx).eff.ptroot (field b 0x10 8) .read = .at_ l →
      l.isHost = false → (s2.dev.vault (s2.dev.watchHome l)).watch.length < 128 →
      exec (.waitvNode ctx i) s = .next (s2.device (fun d =>
        (modNode ctx i (fun x => { x with st := .busy }) d).modVault (s2.dev.watchHome l) (fun x =>
          { x with watch := x.watch ++ [⟨none, ctx, l, 4, cmp, BitVec.ofNat 64 v, i⟩] }))))) ∧
  (∀ s ctx i st b, (s.dev.ctx ctx).step = some st → s.dev.stopped = false → (s.dev.ctx ctx).cstate = .running →
    (st.node i).st = .busy → s.nodeBytes ctx st i = some b → (nodeHead b).kind = 3 → (st.node i).woke = true →
    ∃ t, commit (resolve ctx i .performed (fun _ => true)) (s.device (fun d => { d with vaults := d.vaults.map (fun x =>
        { x with watch := x.watch.filter (fun e => ¬(e.ref = none ∧ e.ctx = ctx ∧ e.req = i)) }) })) = .next t ∧
      exec (.waitvResolve ctx i) s = .next t) ∧
  (∀ s ctx i st b s1 s2, nodeStands s ctx i 4 st b s1 →
    writesWord s1 ctx (field b 0x10 8) (leBytes 8 (field b 0x18 8)) s2 → field b 0x20 4 = 0 →
    ∃ t, commit (resolve ctx i .performed (fun _ => true)) (s2.device (modNode ctx i (fun x => { x with st := .busy }))) =
        .next t ∧ exec (.signalNode ctx i) s = .next t) ∧
  (∀ s ctx i st b s1, nodeStands s ctx i 5 st b s1 → s1.MemOk → s1.dev.clusters.length = 64 → s1.dev.vaults.length = 64 →
    s1.dev.banks.length = 128 → s1.dev.stopped = false → s1.dev.mgmt.tests = [] → s1.dev.marks = [] →
    (∀ f ∈ s1.dev.flocks, f.ctx = ctx → (field b 0x10 8).testBit (f.core / 4) = false) →
    let csave := (s1.dev.ctx ctx).eff.csave.toNat
    let mask := field b 0x10 8
    let kinds := testKinds (field b 0x18 1)
    csave % 64 = 0 → (inDram csave = true ∨ inHost csave = true) →
    ∃ t st', exec (.testNode ctx i) s = .next t ∧ t.phys (csave + 0x10) 8 = leBytes 8 mask ∧
      (mask ≠ 0 → t.phys (csave + 0x18) 4 = leBytes 4 (field b 0x18 1 + 2 ^ 31) ∧ ⟨csave + 0x18, mask, kinds⟩ ∈ t.dev.mgmt.tests) ∧
      (t.dev.bank 127).addr = (s1.dev.bank 127).addr &&& ~~~BitVec.ofNat 64 mask ∧
      (t.dev.ctx ctx).step = some st' ∧ (st'.node i).st = .busy ∧ (st'.node i).mask = mask ∧ (st'.node i).woke = true ∧
      ∀ q < 64, mask.testBit q = true → s1.dev.emptyFor q = true → (t.dev.cluster q).test = some (kinds, true)) ∧
  (∀ s ctx i st b, (s.dev.ctx ctx).step = some st → s.dev.stopped = false → (s.dev.ctx ctx).cstate = .running →
    (st.node i).st = .busy → s.nodeBytes ctx st i = some b → (nodeHead b).kind = 5 → (st.node i).woke = true →
    (s.dev.bank 127).addr.toNat &&& (st.node i).mask = (st.node i).mask →
    ∃ t, commit (resolve ctx i .performed (fun _ => true)) s = .next t ∧ exec (.testResolve ctx i) s = .next t))

/-- R304-R306, R373: SQTAIL takes the entries from SQHEAD up to the new tail in ring order, and a tail equal to SQHEAD posts
nothing; a virtual function's doorbell of context 0 does nothing; a step begins with the head entry: the context's
registers take effect, the header gives the graph, DEADLINE and STEPID go to the save area. R312, R303, R305: a step completes
once END is performed and every run has completed: its completion signal, written where it has one, holds its STEPID; SQHEAD
moves on, and the context has no step and no run. -/
def Obligations.StepLife_result : Prop :=
  ((∀ s fn ctx val, s.dev.mayAct fn ctx = true → s.dev.stopped = false →
    let c := s.dev.ctx ctx
    let n := 2 ^ c.regs.sqlog.toNat
    let idx := (List.range ((val % n + n - c.sqhead % n) % n)).map (fun i => (c.sqhead + i) % n)
    4 ≤ c.regs.sqlog.toNat → c.regs.sqlog.toNat ≤ 12 → (∀ i ∈ idx, inRegion (c.regs.sqbase.toNat + 16 * i) = true) →
    s.dev.marks = [] →
    exec (.sqtail fn ctx val) s = .next (s.device (fun d => d.modCtx ctx (fun c =>
      { c with sqtail := val % 2 ^ 32, entries := if idx = [] then c.entries else idx.map (s.ringEntry ctx) })))) ∧
  (∀ s v val, exec (.sqtail (.vf v) 0 val) s = .next s) ∧
  (∀ s ctx e es b s1 s2 s3, ctx < 64 → s.dev.stopped = false →
    let c := s.dev.ctx ctx
    c.entries = e :: es → c.cstate = .running → c.step = none → c.regs.csave ≠ 0 → c.regs.csavesz ≠ 0 →
    readsWord (s.device (fun d => d.modCtx ctx (fun c => { c with eff := c.regs }))) ctx e.step.toNat 64 b s1 →
    0 < field b 0 4 → field b 0 4 ≤ 65535 → field b 0x10 8 % 64 = 0 →
    commit (physWrite c.regs.csave.toNat ((b.drop 8).take 8)) s1 = .next s2 →
    commit (physWrite (c.regs.csave.toNat + 8) (leBytes 4 e.stepid.toNat)) s2 = .next s3 →
    ∃ st : Machine.Step, st.entry = e ∧ st.nnodes = field b 0 4 ∧ st.risknode = field b 4 4 ∧
      st.nodes = BitVec.ofNat 64 (field b 0x10 8) ∧ st.done = BitVec.ofNat 64 (field b 0x18 8) ∧ st.list = [] ∧
      st.ending = false ∧ exec (.stepBegin ctx) s = .next (s3.device (fun d =>
        { d with mgmt := { d.mgmt with deadlineAt := some d.ctime } }.modCtx ctx (fun c => { c with step := some st }))))) ∧
  (∀ s ctx st s1, (s.dev.ctx ctx).step = some st → s.dev.stopped = false → st.ending = true →
    (s.dev.ctx ctx).cstate = .running → (∀ r ∈ (s.dev.ctx ctx).runs, r.complete = true) → st.signalled = false →
    (if st.done = 0 then s1 = s else writesWord s ctx st.done.toNat (leBytes 8 st.entry.stepid.toNat) s1) →
    st.entry.sflags.toNat % 2 = 0 → ctx < s1.dev.ctxs.length → s1.dev.ctx ctx = s.dev.ctx ctx →
    ∃ t, exec (.stepComplete ctx) s = .next t ∧ t.mem = s1.mem ∧ (t.dev.ctx ctx).step = none ∧ (t.dev.ctx ctx).runs = [] ∧
      (t.dev.ctx ctx).entries = (s.dev.ctx ctx).entries.tail ∧
      (t.dev.ctx ctx).sqhead = ((s.dev.ctx ctx).sqhead + 1) % 2 ^ (s.dev.ctx ctx).regs.sqlog.toNat)

/-! ## Servers and admission (R318-R327, R362, R419) -/

/-- The instruction answers with a next state that is so. -/
abbrev Answers (i : Instr) (s : State) (P : State → Prop) : Prop := ∃ t, exec i s = .next t ∧ P t

/-- The order that the arbiter serves servers in: earliest deadline, then lower slot (R320). -/
abbrev servesFirst (u w : Server) : Prop := u.d < w.d ∨ (u.d = w.d ∧ u.slot ≤ w.slot)

/-- R319, R320: a wake renews budget and deadline where the old budget would be too much for the time left, and else keeps
them; a charge that leaves c at 0 or below throttles a HARD server and postpones a SOFT one by as many periods as make
c positive; a THROTTLED server gains Q at its deadline, and goes on where c is then positive. The arbiter
grants the ACTIVE server of earliest deadline, the lower slot first, and where none can be served a context without a
server. -/
def Obligations.ServerRules_result : Prop :=
  (∀ (v : Server) (t : Nat), v.wake t =
    if v.c * v.t ≥ ((v.d : Int) - t) * v.q * srvUnit then { v with c := v.q * srvUnit, d := t + v.t, st := .active }
    else { v with st := .active }) ∧
  (∀ (v : Server) (x : Nat), 0 < v.q →
    (0 < v.c - x → v.charge x = { v with c := v.c - x }) ∧
    (v.c - x ≤ 0 → v.hard = true → v.charge x = { v with c := v.c - x, st := .throttled }) ∧
    (v.c - x ≤ 0 → v.hard = false → ∃ k : Nat, 0 < v.c - x + k * (v.q * srvUnit) ∧
      v.c - x + k * (v.q * srvUnit) ≤ v.q * srvUnit ∧
      v.charge x = { v with c := v.c - x + k * (v.q * srvUnit), d := v.d + k * v.t })) ∧
  (∀ s kind inst slot v, s.dev.slot? kind inst slot = some v → v.st = .throttled → v.d ≤ s.dev.ctime / 40 → 0 < v.q →
    0 < v.c + v.q * srvUnit →
    Answers (.serverReplenish kind inst slot) s (fun t => s.sameBytes t ∧ { t.dev with servers := s.dev.servers } = s.dev ∧
      t.dev.slot? kind inst slot = some { v with
        c := v.c + v.q * srvUnit, d := v.d + v.t, st := if s.hasWork kind inst v.ctx then .active else .idle } ∧
      ∀ k i l, ¬(k = kind ∧ i = inst ∧ l = slot) → t.dev.slot? k i l = s.dev.slot? k i l)) ∧
  (∀ (d : Dev) kind inst can rr v, v ∈ d.servers → v.kind = kind → v.inst = inst → v.st = .active → v.ctx ∈ can →
    ∃ u ∈ d.servers, u.kind = kind ∧ u.inst = inst ∧ u.st = .active ∧ u.ctx ∈ can ∧ d.grant kind inst can rr = some u.ctx ∧
      ∀ w ∈ d.servers, w.kind = kind → w.inst = inst → w.st = .active → w.ctx ∈ can → servesFirst u w) ∧
  (∀ (d : Dev) kind inst can rr k, (∀ w ∈ d.servers, ¬(w.kind = kind ∧ w.inst = inst ∧ w.st = .active ∧ w.ctx ∈ can)) →
    d.grant kind inst can rr = some k →
    k ∈ can ∧ ∀ w ∈ d.servers, ¬(w.kind = kind ∧ w.inst = inst ∧ w.ctx = k))

/-- A thread whose server command is answered: STATUS of its selection, CMD reads 0, and the thread goes on. -/
abbrev srvAnswered (status : Nat) (x : Thread) : Thread :=
  { x with srv := { x.srv with status := kset x.srv.status x.srv.sel.toNat status, ctl := x.srv.ctl &&& 0xFFFFFFF3 }, wait := .none, waited := 0 }

/-- What names a server, and its rate. -/
abbrev serverKeys (l : List Server) : List (Nat × Nat × Nat × Nat × Nat × Bool) :=
  l.map (fun v => (v.kind, v.inst, v.ctx, v.q, v.t, v.hard))

/-- Route-admission flits of an operation wait for the ports toward the devices of a route's hops that have not refused, in
record order (R325, R361). -/
abbrev hopsTold (ctx : Nat) (d t : Dev) (op : Nat) (l : List RouteHop) : Prop :=
  let far := l.filter (fun x => decide (x.dev ≠ d.fab.devno ∧ x.ans ≠ some false))
  (∀ x ∈ far, d.port x.dev ≠ 16 ∧ d.port x.dev ∉ d.fab.down) →
    t.fab.queue = d.fab.queue ++ far.map (fun x => (ctx, hopMsg d op ctx x))

/-- The servers left when what a route holds here is released. -/
abbrev routeFreed (ctx : Nat) (d : Dev) (l : List RouteHop) : List Server :=
  d.servers.filter (fun v => l.all (fun x => decide (¬(x.dev = d.fab.devno ∧ x.ans = some true ∧ v.kind = 4 ∧
    v.inst = x.hop.port ∧ v.slot = x.slot ∧ v.ctx = ctx))))

/-- What becomes of a route whose hops have these answers: every hop granted, the first that has not granted refused, or that
one still to answer (R325, R419). -/
abbrev routeEnds (ctx : Nat) (d : Dev) (l : List RouteHop) (t : Dev) : Prop :=
  let before (i : Nat) : Prop := ∀ j z, j < i → l[j]? = some z → z.ans = some true
  ((∀ z ∈ l, z.ans = some true) → (t.ctx ctx).routestat = 2 ∧ (t.ctx ctx).route = [] ∧ t.servers = d.servers ∧
    hopsTold ctx d t hopKeep l) ∧
  (∀ i y, l[i]? = some y → before i → y.ans = some false →
    (t.ctx ctx).routestat = BitVec.ofNat 32 (3 + i * 2 ^ 16) ∧ (t.ctx ctx).route = [] ∧ t.servers = routeFreed ctx d l ∧
    hopsTold ctx d t hopRelease l) ∧
  (∀ i y, l[i]? = some y → before i → y.ans = none →
    (t.ctx ctx).routestat = 1 ∧ (t.ctx ctx).route = l ∧ t.servers = d.servers ∧ t.fab.queue = d.fab.queue)

/-- The server that a thread's staged registers describe, at an instance's slot (R319, R321). -/
abbrev stagedServer (v : SrvRegs) : Server :=
  ⟨selKind v.sel, selInst v.sel, selSlot v.sel, v.ctx, v.q.toNat, v.t.toNat, 0, 0, v.hard, .idle, v.group, v.cls⟩

/-- R322, R323, R331: a thread's server command is answered: an invalid one with STATUS 3, one that would take the load above
ADMBOUND with STATUS 2, and else it admits the staged server with c and d 0, replaces the parameters of the one in the slot
with c capped at the new Q, or frees the slot. That STATUS 3 answers a CTX whose virtual device lacks the instance's cluster,
and that a release leaves STATUS 0, are the model's reading (log 19). R325, R419, R22, R323, R327: a route admission holds a server
at every hop of its own device that grants one, and asks the devices of the other hops; once every hop has granted, the route is
reserved and the devices keep what they hold; where the first hop that has not granted refuses, or has not answered after 100 µs,
ROUTESTAT names it and everything held is released. A device that is asked for a hop holds a server there and says yes, or says no. A bound's write stands at once, and 0 at an
issue-port group pre-empts a context served there, urgently. What a route-admission flit carries, how the hops' answers reach
the requester, and that a route waits on an earlier hop though a later one has refused, are the model's own (logs 20 and 56). -/
def Obligations.Admission_result : Prop :=
  (∀ s r x, s.dev.thread? r = some x → x.wait = .unit →
    let v := x.srv
    let kind := selKind v.sel
    let inst := selInst v.sel
    let slot := selSlot v.sel
    let there : Prop := kind ≤ 4 ∧ inst < kindRange kind
    let rate : Prop := 1 ≤ v.q.toNat ∧ v.q.toNat ≤ v.t.toNat ∧ v.t.toNat ≤ 10 ^ 8
    let news := loadTerm v.q.toNat v.t.toNat
    let free : Prop := s.dev.slot? kind inst slot = none ∧ s.dev.server? kind inst v.ctx = none
    (v.cmd = 1 →
      (¬(there ∧ rate ∧ free ∧ s.dev.mayServe v.ctx kind inst = true) →
        exec (.srvAdmit r) s = .next (s.device (fun d => d.modThread r (srvAnswered 3)))) ∧
      (there → rate → free → s.dev.mayServe v.ctx kind inst = true →
        exec (.srvAdmit r) s = .next (s.device (fun d =>
          if s.dev.bound kind inst < s.dev.load kind inst + news then d.modThread r (srvAnswered 2)
          else ({ d with servers := d.servers ++ [stagedServer v] } : Dev).modThread r (srvAnswered 1))))) ∧
    (v.cmd = 3 →
      (¬(there ∧ rate ∧ s.dev.slot? kind inst slot ≠ none) →
        exec (.srvUpdate r) s = .next (s.device (fun d => d.modThread r (srvAnswered 3)))) ∧
      (∀ y, there → rate → s.dev.slot? kind inst slot = some y →
        exec (.srvUpdate r) s = .next (s.device (fun d =>
          if s.dev.bound kind inst < s.dev.load kind inst - loadTerm y.q y.t + news then d.modThread r (srvAnswered 2)
          else (d.modServer kind inst slot (fun y =>
            { y with q := v.q.toNat, t := v.t.toNat, hard := v.hard, group := v.group, cls := v.cls,
                     c := min y.c (v.q.toNat * srvUnit) })).modThread r (srvAnswered 1))))) ∧
    (v.cmd = 2 →
      (¬(there ∧ s.dev.slot? kind inst slot ≠ none) →
        exec (.srvRelease r) s = .next (s.device (fun d => d.modThread r (srvAnswered 3)))) ∧
      (∀ y, there → s.dev.slot? kind inst slot = some y →
        exec (.srvRelease r) s = .next (s.device (fun d =>
          ({ d with servers := d.servers.filter (· ≠ y) } : Dev).modThread r (srvAnswered 0)))))) ∧
  ((∀ s ctx hops a b1 s1 b2 s2, ctx < 64 → (s.dev.ctx ctx).routestat = 1 → (s.dev.ctx ctx).routeblk = some a →
    (s.dev.ctx ctx).route = [] →
    readsWord s ctx a.toNat 8 b1 s1 → 0 < field b1 0 4 → field b1 0 4 ≤ 16 →
    (s1.dev.ctx ctx).eff.ptroot = (s.dev.ctx ctx).eff.ptroot → readsWord s1 ctx (a.toNat + 8) (16 * field b1 0 4) b2 s2 →
    ctx < s2.dev.ctxs.length → s2.dev.marks = [] → (s2.dev.ctx ctx).routestat = 1 →
    let hs := (List.range (field b1 0 4)).map (fun i => hopOf ((b2.drop (16 * i)).take 16))
    let x := hs.foldl (routeTake s2 ctx) (s2.dev, [])
    let asked := hopSend ctx hopAsk (s2.dev.farHops x.2) x.1
    x.2.map (·.hop) = hs ∧ asked.servers = x.1.servers ∧ hopsTold ctx x.1 asked hopAsk x.2 ∧
    serverKeys x.1.servers = serverKeys s2.dev.servers ++
      (x.2.filter (fun y => decide (y.dev = s2.dev.fab.devno ∧ y.ans = some true))).map
        (fun y => (4, y.hop.port, ctx, y.hop.q, y.hop.t, y.hop.hard)) ∧
    routeFreed ctx x.1 x.2 = s2.dev.servers ∧
    Answers (.routeadm ctx hops) s (fun t => s2.sameBytes t ∧
      routeEnds ctx asked (x.2.mapIdx (fun i y => if y.ans = none then { y with ans := hops[i]? } else y)) t.dev)) ∧
  (∀ s ctx hops a, ctx < 64 → ctx < s.dev.ctxs.length → (s.dev.ctx ctx).routestat = 1 → (s.dev.ctx ctx).routeblk = some a →
    (s.dev.ctx ctx).route ≠ [] →
    Answers (.routeadm ctx hops) s (fun t => s.sameBytes t ∧ routeEnds ctx s.dev
      ((s.dev.ctx ctx).route.mapIdx (fun i y => if y.ans = none then { y with ans := hops[i]? } else y)) t.dev)) ∧
  (∀ s ctx i y, (s.dev.ctx ctx).routestat = 1 → ctx < s.dev.ctxs.length → (s.dev.ctx ctx).route[i]? = some y →
    y.ans ≠ some true → (∀ j z, j < i → (s.dev.ctx ctx).route[j]? = some z → z.ans = some true) →
    (s.dev.ctx ctx).routeAt + 400000 ≤ s.dev.ctime →
    Answers (.routeAdmitTimeout ctx i) s (fun t => s.sameBytes t ∧
      (t.dev.ctx ctx).routestat = BitVec.ofNat 32 (3 + i * 2 ^ 16) ∧ (t.dev.ctx ctx).route = [] ∧
      t.dev.servers = routeFreed ctx s.dev (s.dev.ctx ctx).route ∧
      hopsTold ctx s.dev t.dev hopRelease (s.dev.ctx ctx).route)) ∧
  (∀ s port f, s.dev.stopped = false → s.dev.mgmt.stage = 4 → port < 16 → f.ok = true → f.kind = 8 →
    s.dev.routeOf f.dst = 0x8000 → f.msg.op = hopYes ∨ f.msg.op = hopNo →
    exec (.twillFlitReceive port f) s = .next (s.device (fun d => d.modCtx f.msg.tctx (fun c =>
      { c with route := hearHop f.msg.src f.msg.sctx f.msg.fa (decide (f.msg.op = hopYes)) c.route })))) ∧
  (∀ s port f, s.dev.stopped = false → s.dev.mgmt.stage = 4 → port < 16 → f.ok = true → f.kind = 8 →
    s.dev.routeOf f.dst = 0x8000 → f.msg.op = hopAsk →
    (∀ x ∈ s.dev.fab.hops, ¬(x.src = f.msg.src ∧ x.sctx = f.msg.sctx ∧ x.port = f.msg.fa)) →
    let h : Hop := ⟨0, f.msg.fa, bit (field f.msg.data 0 2) 0, field f.msg.data 2 4, field f.msg.data 6 4⟩
    (s.dev.takeHop f.msg.tctx h = none → Answers (.twillFlitReceive port f) s (fun t => s.sameBytes t ∧
      t.dev.servers = s.dev.servers ∧ t.dev.fab.hops = s.dev.fab.hops ∧
      ∃ x, t.dev.fab.sends = s.dev.fab.sends ++ [x] ∧ x.2.kind = 8 ∧ x.2.dst = f.msg.src ∧ x.2.msg.op = hopNo)) ∧
    (∀ d slot, s.dev.takeHop f.msg.tctx h = some d → s.dev.openSlot 4 f.msg.fa = some slot →
      Answers (.twillFlitReceive port f) s (fun t => s.sameBytes t ∧
        t.dev.servers = s.dev.servers ++ [newServer 4 f.msg.fa slot f.msg.tctx h.q h.t h.hard 15 3] ∧
        t.dev.fab.hops = s.dev.fab.hops ++ [⟨f.msg.src, f.msg.sctx, f.msg.fa, slot, false⟩] ∧
        ∃ x, t.dev.fab.sends = s.dev.fab.sends ++ [x] ∧ x.2.kind = 8 ∧ x.2.dst = f.msg.src ∧ x.2.msg.op = hopYes))) ∧
  (∀ s kind inst val, kind ≤ 4 → inst < kindRange kind → (kind ≠ 0 ∨ val % 2 ^ 32 ≠ 0) →
    exec (.admboundWrite kind inst val) s =
      .next (s.device (fun d => { d with admbounds := kset d.admbounds (kind, inst) (val % 2 ^ 32) }))) ∧
  (∀ s inst k, inst < 1024 → s.dev.servedAt inst = [k] → (s.dev.ctx k).cstate = .running → (s.dev.ctx k).eff.csave = 0 →
    exec (.admboundWrite 0 inst 0) s = .next (s.device (fun d =>
      ({ d with admbounds := kset d.admbounds (0, inst) 0 } : Dev).modCtx k (fun c =>
        { c with urgent := true, drainAt := s.dev.ctime, naborted := 0, nsaved := c.saved.length, owed := [],
                 cstate := .draining })))) ∧
  (∀ (d : Dev) kind inst val, kind < 5 → inst < kindRange kind →
    ({ d with admbounds := kset d.admbounds (kind, inst) val } : Dev).bound kind inst = val))

/-! ## Contexts (R327-R330, R356, R388, R410) -/

/-- A context enters a state of R327, in its register and, where it has a save area, in the area's CSTATE (R330). -/
abbrev entersState (k : Nat) (c : CState) (s s' : State) : Prop :=
  let s1 := s.device (fun d => d.modCtx k (fun x => { x with cstate := c }))
  if (s.dev.ctx k).eff.csave = 0 ∨ (s.dev.ctx k).eff.csavesz = 0 then s' = s1
  else commit (physWrite ((s.dev.ctx k).eff.csave.toNat + 12) (leBytes 4 c.num)) s1 = .next s'

/-- A context begins to drain at this CTIME, urgently or not. -/
abbrev drainBegun (k : Nat) (urgent : Bool) (s : State) : State := s.device (fun d => d.modCtx k (fun c =>
  { c with urgent := urgent, drainAt := d.ctime, naborted := 0, nsaved := c.saved.length, owed := [] }))

/-- R356, R327, R388, R410: a function's commands to a context it may act on. PREEMPT and SAVE drain a running context;
SAVE makes a drain urgent; RESUME restores a stopped context and lets one in ERRSTOP run; SKIP passes the head entry in
ERRSTOP; REPLAY ends a fault's record, at once or at the restore of a stopped context; INVTLB and FLUSHIC drop the
context's translations and its cores' instruction caches, at the moment they are written (the model's reading, log 34), and
event 13 follows. A function that may not act on the context changes nothing. -/
def Obligations.ContextCommands_result : Prop :=
  (∀ s f k, s.dev.mayAct f k = true →
    let c := s.dev.ctx k
    (c.cstate = .running → ∃ s', entersState k .draining (drainBegun k false s) s' ∧ exec (.preempt f k) s = .next s') ∧
    (c.cstate = .running → ∃ s', entersState k .draining (drainBegun k true s) s' ∧ exec (.save f k) s = .next s') ∧
    (c.cstate = .draining →
      exec (.save f k) s = .next (s.device (fun d => d.modCtx k (fun c => { c with urgent := true })))) ∧
    (c.cstate = .stopped → s.dev.stopped = false → ∃ s', entersState k .restoring s s' ∧ exec (.resume f k) s = .next s') ∧
    (c.cstate = .errstop → s.dev.stopped = false → ∃ s', entersState k .running s s' ∧ exec (.resume f k) s = .next s') ∧
    (c.cstate = .errstop → exec (.skip f k) s = .next (s.device (fun d => d.modCtx k (fun c =>
      { c with sqhead := (c.sqhead + 1) % 2 ^ c.regs.sqlog.toNat, entries := c.entries.tail })))) ∧
    (exec (.invtlb f k) s = .next (s.device (fun d => ({ d with tlbs := d.tlbs.filter (fun t => t.ctx ≠ k) } : Dev).modCtx k
      (fun c => { c with cmds := c.cmds ++ [6] })))) ∧
    (exec (.flushic f k) s = .next (s.device (fun d => ({ d with cores := d.cores.mapIdx (fun i x =>
      if i / 4 ∈ s.dev.clustersOf c.vdevNow then { x with icache := [] } else x) } : Dev).modCtx k
        (fun c => { c with cmds := c.cmds ++ [7] }))))) ∧
  (∀ s f k fid, s.dev.mayAct f k = true → 0 < fid → fid < 2 ^ 24 →
    ((s.dev.ctx k).cstate = .stopped → exec (.replay f k fid) s =
      .next (s.device (fun d => d.modCtx k (fun c => { c with replays := c.replays ++ [fid] })))) ∧
    ((s.dev.ctx k).cstate ≠ .stopped → k < s.dev.ctxs.length → Answers (.replay f k fid) s (fun t => s.sameBytes t ∧
      (t.dev.ctx k).faults = (s.dev.ctx k).faults.filter (fun r => r.fid ≠ fid) ∧
      ((s.dev.ctx k).faults.any (fun r => r.fid = fid) = true → t.dev.flocks = s.dev.flocks.map (fun x =>
        if x.ctx = k then
          { x with
            threads := x.threads.map (fun th => if th.wait = .fault fid then { th with wait := .none, waited := 0 } else th),
            inst := x.inst.map (fun th => if th.wait = .fault fid then { th with wait := .none, waited := 0 } else th) }
        else x))))) ∧
  (∀ s k cmd rest, (s.dev.ctx k).cmds = cmd :: rest →
    ∃ t, commit (ctxEvent k 13 (((s.dev.ctx k).step.map (·.entry.stepid)).getD 0) (cmd.setWidth 64) 0)
        (s.device (fun d => d.modCtx k (fun c => { c with cmds := rest }))) = .next t ∧
      exec (.ctxcmdDone k) s = .next t) ∧
  (∀ s f k fid, s.dev.mayAct f k = false →
    ∀ i ∈ [.preempt f k, .save f k, .resume f k, .skip f k, .replay f k fid, .invtlb f k, .flushic f k], exec i s = .next s)

/-- A thread as it is saved, as it stood, or without the registers above the LIVEHI of the block at whose first
instruction it stands (R123, R329). -/
abbrev savedFrom (s : State) (f : Flock) (th y : Thread) : Prop :=
  y = th.saved ∨ ∃ h seed, liveAt s f th = some h ∧ y = th.saved.omit f.kern.n h seed

/-- R328: at the drain limit a context whose resident flocks have all committed goes on to SAVING if its drain is urgent or a
flock is parked for a page fault, and else runs on; an uncommitted flock is aborted. The port groups that hold threads of its
committed flocks after the limit owe the overrun. A context without resident flocks is STOPPED: each port group that owes is
charged the overrun, in whole server ticks past the limit (log 33), event 10 reports it, and event 4 the new state (R413, R418);
the limit is 0 after CRIT (R424). R329, R330, R123, R99: a flock that is alone in its herd and can be saved leaves its core;
its threads and allocations are kept with the context, NSAVED counts it, and forwarded lines are written back. The first saved
flock goes back to the core and slot found for it with what was kept, or, where its save area has been changed, with undefined
registers; once none is left, the context runs, the replays held for it applied. That threads and allocations are kept beside
memory, and that an image of free bytes stands for them in the save area, is the model's choice (log 21), and that every
forwarded line is written back too (log 46). -/
def Obligations.DrainAndSave_result : Prop :=
  ((∀ s k, (s.dev.ctx k).cstate = .draining → s.dev.drainEnd k ≤ s.dev.ctime →
    (∀ f ∈ s.dev.resident k, f.committed = true) →
    (s.dev.resident k ≠ [] → (s.dev.ctx k).urgent = true ∨ (s.dev.resident k).any s.dev.parked = true →
      ∃ s', entersState k .saving s s' ∧ exec (.drainLimit k) s = .next s') ∧
    (¬(s.dev.resident k ≠ [] ∧ ((s.dev.ctx k).urgent = true ∨ (s.dev.resident k).any s.dev.parked = true)) →
      exec (.drainLimit k) s = .next s)) ∧
  (∀ (d : Dev) k f th, k < d.ctxs.length → (d.ctx k).cstate = .draining ∨ (d.ctx k).cstate = .saving →
    d.drainEnd k < d.ctime → f ∈ d.flocks → f.ctx = k → f.committed = true → f.dead = false → th ∈ f.threads →
    th.ended = none → (0, 4 * f.core + th.t / 32 % 4) ∈ ((owe k d).ctx k).owed) ∧
  (∀ s k f, (s.dev.ctx k).cstate = .draining → s.dev.drainEnd k ≤ s.dev.ctime → s.dev.resident k = [f] →
    f.committed = false → s.dev.flock? f.core f.slot = some f →
    ∃ s', commit (abortFlock f none) s = .next s' ∧
      (s'.dev.resident k = [] → exec (.drainLimit k) s = .next s')) ∧
  (∀ s k, (s.dev.ctx k).cstate = .draining ∨ (s.dev.ctx k).cstate = .saving → (∀ f ∈ s.dev.flocks, f.ctx ≠ k) →
    (∀ j, (s.dev.ctx j).flr = false) →
    let c := s.dev.ctx k
    let limit := if s.dev.mgmt.crit.isSome then 0 else c.eff.drainlim.toNat
    let late := s.dev.ctime / 40 - (c.drainAt / 40 + limit)
    let stepid := (c.step.map (·.entry.stepid)).getD 0
    ∃ s1 s3 s4, entersState k .stopped s s1 ∧
      (let s2 := s1.device (fun d => c.owed.foldl
          (fun d x => if late = 0 then d else chargeServer x.1 x.2 k (late * 40 * 65536) d)
          (d.modCtx k (fun c => { c with urgent := false, owed := [] })))
        if late = 0 then s3 = s2
        else commit (ctxEvent k 10 stepid (BitVec.ofNat 64 late)
          (BitVec.ofNat 64 (c.naborted % 2 ^ 16 + c.nsaved % 2 ^ 16 * 2 ^ 16))) s2 = .next s3) ∧
      commit (ctxEvent k 4 stepid 3 (BitVec.ofNat 64 c.nsaved)) s3 = .next s4 ∧ exec (.contextStopped k) s = .next s4)) ∧
  ((∀ s core slot f, s.dev.flock? core slot = some f → f.core = core → f.slot = slot →
    (s.dev.ctx f.ctx).cstate = .saving → s.dev.stopped = false →
    s.dev.herdOf f = [f] → s.dev.savable f = true → flockMarks s.dev f = [] → f.ctx < s.dev.ctxs.length →
    (∀ j, s.dev.canSave j = true → bits (s.dev.ctx j).eff.prio.toNat 0 4 ≤ bits (s.dev.ctx f.ctx).eff.prio.toNat 0 4) →
    f.ctx < 64 →
    ∃ s1 s2 s3 x t, (if x.imageAt = 0 then s2 = s1 else commit (physWrite x.imageAt x.image) s1 = .next s2) ∧
      x.imageLen = f.imageBytes ∧ x.imageAt = (s.dev.ctx f.ctx).imageSlot f.imageBytes ∧
      commit (physWrite ((s.dev.ctx f.ctx).eff.csave.toNat + 0x1C) (leBytes 4 ((s.dev.ctx f.ctx).nsaved + 1))) s2 = .next s3 ∧
      commit fwdFlush s3 = .next t ∧ exec (.flockSave core slot) s = .next t ∧
      s1.mem = s.mem ∧ s1.dev.flock? core slot = none ∧ (s1.dev.ctx f.ctx).saved = (s.dev.ctx f.ctx).saved ++ [x] ∧
      { x.flock with threads := f.threads, inst := f.inst } = f ∧ x.flock.inst = f.inst.map (·.saved) ∧
      List.Forall₂ (savedFrom s f) f.threads x.flock.threads ∧
      (s1.store (.kept x.key false)).cells = (s.store (.spad core slot)).cells ∧
      (s1.store (.kept x.key true)).cells = (s.store (.acc core slot)).cells) ∧
  (∀ s k x rest core slot, (s.dev.ctx k).cstate = .restoring → s.dev.stopped = false → (s.dev.ctx k).saved = x :: rest →
    (∀ y ∈ rest, sameHerd x y = false) → s.dev.spotsBack k [x] = some [(core, slot)] → k < s.dev.ctxs.length →
    s.dev.marks = [] →
    Answers (.flockRestore k) s (fun t => t.mem = s.mem ∧ (t.dev.ctx k).saved = rest ∧ (t.dev.ctx k).cstate = .restoring ∧
      (s.kept x = false → ∃ f, t.dev.flocks = s.dev.flocks ++ [f] ∧ f.core = core ∧ f.slot = slot ∧ f.ctx = x.flock.ctx ∧
        ∀ th ∈ f.threads, th.regs = [] ∧ th.undef ≠ none) ∧
      (s.kept x = true → t.dev.flocks = s.dev.flocks ++ [{ x.flock with
        core := core, slot := slot, threads := x.flock.threads.map (fun th => { th with l1floor := s.dev.nextId + 1 }),
        inst := x.flock.inst.map (fun th => { th with l1floor := s.dev.nextId + 1 }) }] ∧
      (t.store (.spad core slot)).cells = (s.store (.kept x.key false)).cells ∧
      (t.store (.acc core slot)).cells = (s.store (.kept x.key true)).cells))) ∧
  (∀ s k, (s.dev.ctx k).cstate = .restoring → s.dev.stopped = false → (s.dev.ctx k).saved = [] →
    ∃ s', entersState k .running (s.device (fun d => (s.dev.ctx k).replays.foldl (fun d i => replayNow k i d)
        (d.modCtx k (fun c => { c with replays := [], nsaved := 0 })))) s' ∧ exec (.flockRestore k) s = .next s'))

/-! ## Governor, clock generators, droop (R333-R350, R421) -/

/-- R342-R346, R420: an evaluation that is due leaves in each powered die under the governor the point that the greatest
requirement of its contexts with work asks for, or CEIL with GEN 0, taken to an enabled point. A context's requirement is
the lowest enabled point up to CEIL at which its projected finish keeps the guard time before its deadline, or CEIL, with
the deadline at risk, where there is none; NODL without a deadline; CEIL with its work unknown, and CEIL while a risk raised
for the step on that die stands (R347). The projected finish at a point is the present, the time that the steps to it take, and
the work over the clocks per tick at the point times the smallest fraction of issue that the context has in a port group of the
die: Q/T of its server there, or what the instance's load leaves, at least 2^-16. The slack that the evaluation publishes is the
deadline less guard time and finish at the new TGT; the greatest number without a deadline, the least with the work unknown;
it is held to the magnitudes below 2^63, which the spec says of its lower end alone (log 77). After a fatal stop only the dies
go on to their goal (the model's reading, log 35). An evaluation that is not due changes nothing. -/
def Obligations.Governor_result : Prop :=
  (∀ s, s.dev.ctime % 40000 ≠ 0 → s.dev.mgmt.deadlineAt ≠ some s.dev.ctime → exec .governorEval s = .next s) ∧
  (∀ s, s.dev.ctime % 40000 = 0 ∨ s.dev.mgmt.deadlineAt = some s.dev.ctime → s.dev.stopped = false → s.dev.marks = [] →
    (∀ k st, (s.dev.ctx k).step = some st → st.nnodes ≤ st.risknode) → s.dev.dies.length = 4 →
    Answers .governorEval s (fun t => ∀ die < 4, (s.dev.die die).powered = true → (s.dev.die die).tvalid = true →
      let on := s.plans.filter (fun p =>
        s.dev.worksOn p.ctx die ((s.dev.ctx p.ctx).workOn p.stepid die) || s.dev.held p.ctx die)
      let most := (on.map (fun p => (s.dev.require p die ((s.dev.ctx p.ctx).workOn p.stepid die)).1)).foldl max 0
      (t.dev.die die).tgt = s.dev.snap die (if s.dev.mgmt.gen then most else (s.dev.die die).ceil) ∧
      ∀ p ∈ s.plans, (t.dev.die die).slack[p.ctx]? =
        some (s.dev.slackOf p die (t.dev.die die).tgt ((s.dev.ctx p.ctx).workOn p.stepid die)))) ∧
  (∀ (d : Dev) ctx die i (w : Nat × Nat), 0 < w.2 → (∀ v ∈ d.servers, 0 < v.t) →
    let u := d.issueShare ctx die
    let full (k : Nat) : Prop := w.1 * 16 * u.2 ≤ k * (w.2 * (4 + i) * u.1)
    ∃ k, full k ∧ (∀ j < k, ¬full j) ∧ d.finish ctx die i w = d.ctime + d.transTime die i + k) ∧
  (∀ (d : Dev) die i, let cur := (d.die die).cur
    (i = cur → d.transTime die i = 0) ∧ (i < cur → d.transTime die i = (cur - i) * 2000) ∧
    (cur ≤ i → d.transTime die (i + 1) = d.transTime die i + 400 * (d.vmv (i + 1) - d.vmv i) + 2000)) ∧
  (∀ (d : Dev) ctx die, (∀ v ∈ d.servers, 0 < v.t) →
    let u := d.issueShare ctx die
    u.1 ≤ u.2 ∧ (∀ j < 256, u.1 * (d.share ctx (256 * die + j)).2 ≤ (d.share ctx (256 * die + j)).1 * u.2) ∧
    (u = (1, 1) ∨ ∃ j < 256, u = d.share ctx (256 * die + j))) ∧
  (∀ (d : Dev) ctx inst,
    (∀ v, d.server? 0 inst ctx = some v → d.share ctx inst = if v.q * 65536 < v.t then (1, 65536) else (v.q, v.t)) ∧
    (d.server? 0 inst ctx = none → d.share ctx inst = (max 1 (65536 - d.load 0 inst), 65536))) ∧
  (∀ (d : Dev) (p : Plan) die i,
    (p.dl = 0 → ∀ w, (d.slackOf p die i w).toInt = 2 ^ 63 - 1) ∧
    (p.dl ≠ 0 → (d.slackOf p die i none).toInt = -2 ^ 63 ∧ ∀ w,
      let slack : Int := p.dl - d.mgmt.guardTicks - d.finish p.ctx die i w
      (d.slackOf p die i (some w)).toInt =
        if slack < -(2 ^ 63 - 1) then -(2 ^ 63 - 1) else if 2 ^ 63 - 1 < slack then 2 ^ 63 - 1 else slack)) ∧
  (∀ s, s.dev.ctime % 40000 = 0 → s.dev.stopped = true → exec .governorEval s =
    .next (s.device (fun d => (((d.advance 0).advance 1).advance 2).advance 3))) ∧
  (∀ (d : Dev) (p : Plan) die w, p.dl ≠ 0 →
    (∀ st, (d.ctx p.ctx).step = some st → st.riskRaised = true → die ∉ st.riskDies) →
    let meets (i : Nat) : Prop := d.enabled i = true ∧ d.finish p.ctx die i w + d.mgmt.guardTicks ≤ p.dl
    let ceil := (d.die die).ceil
    ((∃ i ≤ ceil, meets i) → ∃ i ≤ ceil, meets i ∧ (∀ j < i, ¬meets j) ∧ d.require p die (some w) = (i, false)) ∧
    ((∀ i ≤ ceil, ¬meets i) → d.require p die (some w) = (ceil, true)) ∧ d.require p die none = (ceil, false)) ∧
  (∀ (d : Dev) (p : Plan) die w, p.dl = 0 →
    (∀ st, (d.ctx p.ctx).step = some st → st.riskRaised = true → die ∉ st.riskDies) →
    d.require p die w = (min d.mgmt.nodl (d.die die).ceil, false)) ∧
  (∀ (d : Dev) (p : Plan) die w st, (d.ctx p.ctx).step = some st → st.riskRaised = true → die ∈ st.riskDies →
    d.require p die w = ((d.die die).ceil, false)) ∧
  (∀ (d : Dev) die i, i ≤ (d.die die).ceil →
    (∀ j, i ≤ j → j ≤ (d.die die).ceil → d.enabled j = true → (∀ l, i ≤ l → l < j → d.enabled l = false) →
      d.snap die i = j) ∧
    (∀ j < i, (∀ l, i ≤ l → l ≤ (d.die die).ceil → d.enabled l = false) → d.enabled j = true →
      (∀ l, j < l → l < i → d.enabled l = false) → d.snap die i = j))

/-- R338-R340, R336, R421: a die heads for TGT, or FBK while TVALID is 0, never above CEIL, one point at a time: a raise ramps the
supply to the higher VMV at 10 mV per µs, at once where an unfinished fall is still above it, and then steps the divider, a
lowering steps the divider in 0.5 µs and then lets the supply fall; no step starts during a droop response. CEIL clamps a TGT
chosen in its clock and ends a raise above it; a supply more than 20 mV short 10 µs after its ramp abandons the raise. TVALID 0 holds a die at FBK without slack, and OP_6 stays enabled. That CEIL bounds
FBK too is the model's reading (log 22). R349, R350: an alarm is raised where the supply lies more than 2 × THRESH mV below
CUR's VMV: it counts in ALARMS, up to 0xFFFF, and starts a response in this clock; stretched edges end after clock 6, and
full issue resumes at clock 71, when a waiting step of the die may start. In between the engine and the port groups of the cluster
lose the clocks after the sixth that are even. -/
def Obligations.ClockAndDroop_result : Prop :=
  ((∀ s die p, (s.dev.die die).ramp = some p →
    let x := s.dev.die die
    let vmv := s.dev.vmv p
    let raise : Prop := x.cur < p ∧ x.step = none
    (raise → (s.dev.ctime < x.rampAt + 400 * (vmv - x.supply) → exec (.voltageRampDone die) s = .next s) ∧
      (x.rampAt + 400 * (vmv - x.supply) ≤ s.dev.ctime →
        let now := s.dev.supplyNow die
        exec (.voltageRampDone die) s = .next (s.device (fun d => d.modDie die (fun x =>
          { x with supply := now, rampAt := d.ctime, ramp := if now = vmv then none else some p, step := some p,
                   stepAt := d.ctime }))))) ∧
    (¬raise → (s.dev.ctime < x.rampAt + 400 * (max x.supply vmv - min x.supply vmv) →
        exec (.voltageRampDone die) s = .next s) ∧
      (x.rampAt + 400 * (max x.supply vmv - min x.supply vmv) ≤ s.dev.ctime →
        exec (.voltageRampDone die) s = .next (s.device (fun d => d.modDie die (fun x =>
          { x with supply := vmv, ramp := none })))))) ∧
  (∀ s die p, (s.dev.die die).step = some p →
    let x := s.dev.die die
    (s.dev.ctime < x.stepAt + 2000 → exec (.dividerStep die) s = .next s) ∧
    (x.stepAt + 2000 ≤ s.dev.ctime → exec (.dividerStep die) s = .next (s.device (fun d =>
      let d1 := d.modDie die (fun x => { x with cur := p, step := none })
      (if p < x.cur then d1.modDie die (fun x => { x with supply := d1.supplyNow die, ramp := some p, rampAt := d1.ctime })
        else d1).advance die)))) ∧
  (∀ (d : Dev) die, (d.die die).step = none → (d.die die).raising = none → (d.die die).powered = true →
    let x := d.die die
    let goal := min (if x.tvalid then x.tgt else 6) x.ceil
    (goal = x.cur → d.advance die = d.modDie die (fun x => { x with trans := false })) ∧
    (goal ≠ x.cur → d.drooping die = true → d.advance die = d) ∧
    (x.cur < goal → d.drooping die = false → d.advance die = d.modDie die (fun x =>
      { x with supply := d.supplyNow die, ramp := some (x.cur + 1), rampAt := d.ctime, trans := true })) ∧
    (goal < x.cur → d.drooping die = false → d.advance die = d.modDie die (fun x =>
      { x with step := some (x.cur - 1), stepAt := d.ctime, trans := true }))) ∧
  (∀ s die p supply, (s.dev.die die).raising = some p → die < s.dev.dies.length →
    let x := s.dev.die die
    let due := x.rampAt + 400 * (s.dev.vmv p - x.supply) + 40000
    (s.dev.ctime < due ∨ s.dev.vmv p ≤ supply + 20 → exec (.raiseTimeout die supply) s = .next s) ∧
    (due ≤ s.dev.ctime → supply + 20 < s.dev.vmv p → ∃ s1, commit (bankRecord 114 1 none 0x90 die 0 0) s = .next s1 ∧
      Answers (.raiseTimeout die supply) s (fun t => t.mem = s1.mem ∧ t.sto = s1.sto ∧ (t.dev.die die).cur = x.cur ∧
        (t.dev.die die).ceil = x.cur ∧ (t.dev.die die).goal ≤ x.cur ∧ (t.dev.die die).supply = supply))) ∧
  (∀ s die val, s.dev.mgmt.fwStopped = false → s.dev.mgmt.updating = false → die < 4 → val ≤ 12 → die < s.dev.dies.length →
    Answers (.ceilWrite die val) s (fun t => s.sameBytes t ∧ (t.dev.die die).ceil = val ∧
      (t.dev.die die).tgt = (if s.dev.ctime % 40000 = 0 ∨ s.dev.mgmt.deadlineAt = some s.dev.ctime
        then min (s.dev.die die).tgt val else (s.dev.die die).tgt) ∧ (t.dev.die die).goal ≤ val ∧
      (t.dev.die die).cur = (s.dev.die die).cur ∧
      ((s.dev.die die).raising = some ((s.dev.die die).cur + 1) → val ≤ (s.dev.die die).cur →
        (t.dev.die die).ramp = some (s.dev.die die).cur) ∧ ∀ k ≠ die, t.dev.die k = s.dev.die k)) ∧
  (∀ s i en vmv, s.dev.mgmt.fwStopped = false → s.dev.mgmt.updating = false → i < 13 →
    exec (.mgmtTableWrite (.optbl i en vmv)) s = .next (s.device (fun d =>
      { d with mgmt := { d.mgmt with optbl := d.mgmt.optbl.set i (en || decide (i = 6), vmv % 2 ^ 16) } }))) ∧
  (∀ s die, s.dev.mgmt.fwStopped = false → s.dev.mgmt.updating = false → die < 4 →
    exec (.mgmtTableWrite (.tvalid die true)) s =
      .next (s.device (fun d => d.modDie die (fun x => { x with tvalid := true }))) ∧
    (die < s.dev.dies.length → Answers (.mgmtTableWrite (.tvalid die false)) s (fun t => s.sameBytes t ∧
      (t.dev.die die).tvalid = false ∧ (t.dev.die die).tgt = min 6 (s.dev.die die).ceil ∧
      (t.dev.die die).slack = List.replicate 64 0x7FFFFFFFFFFFFFFF)))) ∧
  ((∀ s q supply, q < 64 → bit (s.dev.cluster q).droopcfg.toNat 8 = true → (s.dev.die (q / 16)).powered = true →
    ((s.dev.cluster q).droop = .none ∨ (s.dev.cluster q).droopAt ≠ (s.dev.cluster q).cycle) →
    let cfg := (s.dev.cluster q).droopcfg.toNat
    let vmv := s.dev.vmv (s.dev.die (q / 16)).cur
    (vmv ≤ supply + 2 * (cfg % 256) → exec (.droopAlarm q supply) s = .next s) ∧
    (supply + 2 * (cfg % 256) < vmv → exec (.droopAlarm q supply) s = .next (s.device (fun d => d.modCluster q (fun c =>
      { c with droop := .stretch, droopAt := c.cycle, half := false,
               droopcfg := BitVec.ofNat 32 (cfg % 65536 + min 65535 (cfg / 65536 + 1) * 65536) }))))) ∧
  (∀ s q, (s.dev.cluster q).droop = .stretch → (s.dev.cluster q).droopAt + 7 ≤ (s.dev.cluster q).cycle →
    exec (.droopStretchEnd q) s = .next (s.device (fun d => d.modCluster q (fun c => { c with droop := .halved })))) ∧
  (∀ s q, (s.dev.cluster q).droop = .halved → (s.dev.cluster q).droopAt + 71 ≤ (s.dev.cluster q).cycle →
    exec (.droopResponseEnd q) s = .next (s.device (fun d =>
      (d.modCluster q (fun c => { c with droop := .none })).advance (q / 16)))) ∧
  (∀ (d : Dev) core, d.mgmt.throttled = false → d.withheld core =
    decide ((d.cluster (core / 4)).droop = .halved ∧ ((d.cluster (core / 4)).cycle - (d.cluster (core / 4)).droopAt) % 2 = 0)))

/-! ## Heat, module power, firmware (R353, R354, R422-R425) -/

/-- The power controller's firmware runs, and no CRIT sequence stands. -/
abbrev firmwareRuns (s : State) : Prop :=
  s.dev.mgmt.fwStopped = false ∧ s.dev.mgmt.updating = false ∧ s.dev.mgmt.crit = none

/-- R353, R354, R424: a sensor is at WARN, CRIT or TRIP from 95, 105 or 115 °C on, and until it has fallen 5 °C below; a change of
its mark posts event 11. At WARN a die's CEIL falls by one point each 100 µs down to OP_4, and rises again to OP_12 after it.
Every 100 µs module power above 3,600 W lowers the CEIL of the die with the highest CUR, and power below 3,420 W raises the
lowest one that was lowered for it. R422, R423: 10 ms without a heartbeat the watchdog stops the firmware, TVALID of every die
falls to 0, CODE 0x0091 is recorded, and the fourth firing within an hour is reported and leaves the firmware stopped; a
heartbeat lets the firmware run, which is restarted from the stored image where that verifies (R368). While it is stopped, power
above 3,600 W for 1 ms halves issue until power falls below 3,420 W. How the times of steps are counted is the model's reading
(log 37). -/
def Obligations.ThermalAndFirmware_result : Prop :=
  ((∀ old reading m, 1 ≤ m → m ≤ 3 → (m ≤ markOf old reading ↔
    680 + 80 * m ≤ reading ∨ (m ≤ old ∧ 680 + 80 * m < reading + 40))) ∧
  (∀ s sensor reading, sensor < 5 →
    let old := s.dev.mgmt.mark sensor
    let new := markOf old reading
    ∃ s1 t, s1.mem = s.mem ∧ s1.sto = s.sto ∧ { s1.dev with mgmt := s.dev.mgmt } = s.dev ∧
      s1.dev.mgmt.mark sensor = new ∧ (∀ k < 5, k ≠ sensor → s1.dev.mgmt.mark k = s.dev.mgmt.mark k) ∧
      aget s1.dev.mgmt.sensors sensor = some reading ∧
      s1.dev.mgmt.thermstat.toNat / 2 ^ 20 = min 4095 ((s1.dev.mgmt.sensors.map (·.2)).foldl max 0) ∧
      (if new = old then t = s1
        else commit (devEvent 11 (BitVec.ofNat 64 (new + sensor * 2 ^ 8)) (BitVec.ofNat 64 reading)) s1 = .next t) ∧
      exec (.thermalMark sensor reading) s = .next t) ∧
  (∀ s die, die < 4 → die < s.dev.dies.length → firmwareRuns s → (s.dev.die die).warnAt + 400000 ≤ s.dev.ctime →
    let x := s.dev.die die
    (s.dev.mgmt.mark die ≠ 0 → 4 < x.ceil → Answers (.warnCeilStep die) s (fun t => s.sameBytes t ∧
      (t.dev.die die).ceil = x.ceil - 1 ∧ (t.dev.die die).goal ≤ x.ceil - 1 ∧
      (t.dev.die die).warnAt = s.dev.ctime ∧ ∀ k ≠ die, t.dev.die k = s.dev.die k)) ∧
    (s.dev.mgmt.mark die ≠ 0 → x.ceil ≤ 4 → exec (.warnCeilStep die) s = .next s) ∧
    (s.dev.mgmt.mark die = 0 → x.warned = true → Answers (.warnCeilStep die) s (fun t => s.sameBytes t ∧
      (t.dev.die die).ceil = min 12 (x.ceil + 1) ∧ ((t.dev.die die).warned = true ↔ x.ceil + 1 < 12) ∧
      (t.dev.die die).warnAt = s.dev.ctime ∧ ∀ k ≠ die, t.dev.die k = s.dev.die k))) ∧
  (∀ s watts, s.dev.dies.length = 4 → firmwareRuns s → s.dev.mgmt.measuredAt + 400000 ≤ s.dev.ctime →
    (3600 < watts → ∃ i < 4, (∀ j < 4, (s.dev.die j).cur ≤ (s.dev.die i).cur ∧ ((s.dev.die j).cur = (s.dev.die i).cur → i ≤ j)) ∧
      Answers (.powerMeasure watts) s (fun t => s.sameBytes t ∧ (t.dev.die i).ceil = (s.dev.die i).ceil - 1 ∧
        t.dev.mgmt.measuredAt = s.dev.ctime ∧ ∀ j ≠ i, t.dev.die j = s.dev.die j)) ∧
    (watts < 3420 → (∃ j < 4, 0 < (s.dev.die j).lowered) → ∃ i < 4, 0 < (s.dev.die i).lowered ∧
      (∀ j < 4, 0 < (s.dev.die j).lowered → (s.dev.die i).ceil ≤ (s.dev.die j).ceil) ∧
      Answers (.powerMeasure watts) s (fun t => s.sameBytes t ∧ (t.dev.die i).ceil = min 12 ((s.dev.die i).ceil + 1) ∧
        (t.dev.die i).lowered = (s.dev.die i).lowered - 1 ∧ ∀ j ≠ i, t.dev.die j = s.dev.die j)) ∧
    (3420 ≤ watts → watts ≤ 3600 → exec (.powerMeasure watts) s =
      .next (s.device (fun d => { d with mgmt := { d.mgmt with measuredAt := d.ctime } }))))) ∧
  ((∀ s, s.dev.mgmt.updating = false → s.dev.mgmt.firings.length < 4 →
    (s.dev.mgmt.fwStopped = true → s.dev.mbox.verified = true) →
    exec .fwHeartbeat s = .next (s.device (fun d => { d with mgmt := { d.mgmt with
      heartbeat := d.ctime, fwStopped := false, throttled := !d.mgmt.fwStopped && d.mgmt.throttled,
      overSince := if d.mgmt.fwStopped then none else d.mgmt.overSince } }))) ∧
  (∀ s, s.dev.mgmt.updating = true ∨ 4 ≤ s.dev.mgmt.firings.length ∨
      (s.dev.mgmt.fwStopped = true ∧ s.dev.mbox.verified = false) → exec .fwHeartbeat s = .next s) ∧
  (∀ s, s.dev.mgmt.updating = false → s.dev.mgmt.firings.length < 4 →
    (s.dev.ctime < s.dev.mgmt.heartbeat + 40000000 → exec .watchdogExpire s = .next s) ∧
    (s.dev.mgmt.heartbeat + 40000000 ≤ s.dev.ctime →
      let fs := s.dev.ctime :: s.dev.mgmt.firings.filter (fun t => s.dev.ctime < t + 3600 * 4000000000)
      let s1 := s.device (fun d => allInvalid { d with
        mbox := { d.mbox with running := if d.mbox.verified then d.mbox.image else d.mbox.running },
        mgmt := { d.mgmt with firings := fs, fwStopped := true, heartbeat := d.ctime } })
      ∃ s2 t, commit (bankRecord 114 1 none 0x91 0 0 0) s1 = .next s2 ∧
        (if 4 ≤ fs.length then commit (postEvent 0 (mcEvent 114 1 0x91 0 0xFF 0 s.dev.ctime)) s2 = .next t else t = s2) ∧
        exec .watchdogExpire s = .next t ∧ ∀ i < 4, i < s.dev.dies.length → (s1.dev.die i).tvalid = false)) ∧
  (∀ s watts,
    let m := s.dev.mgmt
    let halted : Prop := m.fwStopped = true ∨ m.updating = true
    let next (m' : Mgmt) := exec (.powerLimitThrottle watts) s = .next (s.device (fun d => { d with mgmt := m' }))
    (¬halted → next m) ∧ (halted → watts ≤ 3600 → next { m with overSince := none }) ∧
    (halted → 3600 < watts → m.overSince = none → next { m with overSince := some s.dev.ctime }) ∧
    (halted → 3600 < watts → ∀ t, m.overSince = some t →
      (t + 4000000 ≤ s.dev.ctime → next { m with throttled := true }) ∧ (s.dev.ctime < t + 4000000 → next m))) ∧
  (∀ s watts, (watts < 3420 → exec (.powerLimitRelease watts) s =
      .next (s.device (fun d => { d with mgmt := { d.mgmt with throttled := false, overSince := none } }))) ∧
    (3420 ≤ watts → exec (.powerLimitRelease watts) s = .next s)))

/-- R424, R425: a sensor at CRIT sets every CEIL to OP_0 and every issue-port-group bound to 0, and drains every running
context urgently; 50 ms later contexts still draining or saving are in ERRSTOP; once none is, no flock and no
request left, the stacks' channels are in self-refresh and the compute dies without power; below 100 °C the power and
the bounds return, but for clusters that fail their test. A sensor at TRIP stops the device at stage 1 with FAIL 4, without
a flock. That CRIT keeps the old bounds, and what a TRIP loses, are the model's readings (log 37). -/
def Obligations.CritAndTrip_result : Prop :=
  (∀ s sensor, sensor < 5 → 2 ≤ s.dev.mgmt.mark sensor → s.dev.mgmt.crit = none → s.dev.mgmt.railsOff = false →
    s.dev.dies.length = 4 → s.dev.ctxs.length = 64 →
    Answers (.critEnter sensor) s (fun t => t.dev.mgmt.crit = some s.dev.ctime ∧ (∀ die < 4, (t.dev.die die).ceil = 0) ∧
      (∀ i < 1024, t.dev.bound 0 i = 0) ∧ (∀ kind inst, 1 ≤ kind → t.dev.bound kind inst = s.dev.bound kind inst) ∧
      ∀ k < 64, (s.dev.ctx k).cstate = .running → (t.dev.ctx k).cstate = .draining ∧ (t.dev.ctx k).urgent = true)) ∧
  (∀ s since, s.dev.mgmt.crit = some since → s.dev.ctxs.length = 64 →
    (s.dev.ctime < since + 200000000 → exec .critSaveLimit s = .next s) ∧
    (since + 200000000 ≤ s.dev.ctime → Answers .critSaveLimit s (fun t => ∀ k < 64,
      if (s.dev.ctx k).cstate = .draining ∨ (s.dev.ctx k).cstate = .saving then (t.dev.ctx k).cstate = .errstop
      else (t.dev.ctx k).cstate = (s.dev.ctx k).cstate))) ∧
  (∀ s since, s.dev.mgmt.crit = some since → s.dev.mgmt.railsOff = false → s.dev.flocks = [] → s.dev.reqs = [] →
    (∀ k < 64, (s.dev.ctx k).cstate ≠ .draining ∧ (s.dev.ctx k).cstate ≠ .saving) →
    (∀ st ∈ s.dev.stks, ∀ p ∈ st.pcs, p.waiting = []) →
    Answers .computeRailsOff s (fun t => s.sameBytes t ∧ t.dev.mgmt.railsOff = true ∧
      (∀ x ∈ t.dev.dies, x.powered = false) ∧ (∀ st ∈ t.dev.stks, ∀ p ∈ st.pcs, p.st = .selfRefresh) ∧
      t.dev.vaults = s.dev.vaults ∧ t.dev.ctxs = s.dev.ctxs)) ∧
  (∀ s since failed, s.dev.mgmt.crit = some since → s.dev.mgmt.railsOff = true → (∀ r ∈ s.dev.mgmt.sensors, r.2 < 800) →
    Answers (.critRecover failed) s (fun t => t.dev.mgmt.railsOff = false ∧ t.dev.mgmt.crit = none ∧
      (∀ x ∈ t.dev.dies, x.powered = true) ∧
      (∀ q < 64, ∀ i < 16, failed.testBit q = true ∨ failed.testBit (64 + q) = true → t.dev.bound 0 (16 * q + i) = 0) ∧
      (failed % 2 ^ 128 = 0 → t.dev.admbounds = s.dev.admbounds.filter (fun x => x.1.1 ≠ 0) ++ s.dev.mgmt.critBounds))) ∧
  (∀ s sensor, sensor < 5 → s.dev.mgmt.mark sensor = 3 → ¬(s.dev.mgmt.stage = 1 ∧ s.dev.mgmt.failCode = 4) →
    s.dev.ctxs.length = 64 →
    Answers (.thermalTrip sensor) s (fun t => t.dev.stopped = true ∧ t.dev.mgmt.stage = 1 ∧ t.dev.mgmt.failCode = 4 ∧
      t.dev.flocks = [] ∧ t.dev.reqs = [] ∧ (∀ x ∈ t.dev.dies, x.powered = false) ∧
      (∀ k < 64, (t.dev.ctx k).cstate = .errstop) ∧ ∀ c ∈ t.mem, 2 ^ 39 ≤ c.1))

/-! ## Repair, self-test, slice moves (R97, R332, R360, R383, R387, R391-R395) -/

/-- R387, R383, R394: the event of a contained stop goes out once no write of the context is in flight; writing 1 to V clears a
bank; scrub writes a corrected word back and records it, and records one beyond correction and leaves it. R391-R393, R395: an
idle cluster not tested for IDLEH hours begins both tests while IDLEST is 1, one that a request names begins the kinds of the
request once it is empty, and memory BIST leaves nothing in the caches and the victim TLB of its cores; a test that the host
did not ask for ends without a result when a flock needs its cluster; a test that has run its time leaves ENDED, and with a failure FAILED and the
cluster's issue-port-group bounds at 0. That an idle test runs both kinds, and that both together take the sum of their times,
is the model's reading (log 41). -/
def Obligations.RecordsAndTests_result : Prop :=
  ((∀ s k e, (s.dev.ctx k).stopEvt = some e →
    let busy := s.dev.reqs.any (fun q => q.ctx = k && q.writes && !q.performed)
    (busy = true → exec (.containedEvent k) s = .next s) ∧
    (busy = false → ∃ t, commit (postEvent (s.dev.queueOf k) e)
        (s.device (fun d => d.modCtx k (fun c => { c with stopEvt := none }))) = .next t ∧
      exec (.containedEvent k) s = .next t)) ∧
  (∀ s bank, (s.dev.bank bank).status.toNat.testBit 63 = true → exec (.bankClear bank) s = .next (s.device (fun d =>
    { d with banks := d.banks.set bank ⟨0, 0, 0, 0⟩,
             mgmt := { d.mgmt with cePosted := d.mgmt.cePosted.filter (· ≠ bank) } }))) ∧
  (∀ s g b, bits s.dev.mgmt.mcctl.toNat 8 8 ≠ 0 → scrubs s.dev g = true → s.dev.marks.filter (fun m => m.1 = g) = [(g, b)] →
    let (bank, code, inst, addr) := markBank g
    (b = true → ∃ t, commit (eccRecord bank 0 none 0x22 inst addr) s = .next t ∧ exec (.patrolScrub g) s = .next t) ∧
    (b = false → ∃ s1, commit (eccRecord bank 1 none code inst addr) s = .next s1 ∧
      Answers (.patrolScrub g) s (fun t => t.mem = s1.mem ∧ t.sto = s1.sto ∧ { t.dev with marks := s1.dev.marks } = s1.dev ∧
        ∀ m, m ∈ t.dev.marks ↔ m ∈ s.dev.marks ∧ m ≠ (g, false)))) ∧
  (∀ (b : Bank) bank cls ctx code inst addr synd time,
    (b.status.toNat.testBit 63 = false → (b.record bank cls ctx code inst addr synd time).addr = addr ∧
      (b.record bank cls ctx code inst addr synd time).synd = synd) ∧
    let first : Prop := bits b.status.toNat 60 2 < cls ∨ (bits b.status.toNat 60 2 = cls ∧ b.time = BitVec.ofNat 64 time ∧
      code < bits b.status.toNat 32 16)
    (b.status.toNat.testBit 63 = true → first → (b.record bank cls ctx code inst addr synd time).addr = addr) ∧
    (b.status.toNat.testBit 63 = true → ¬first →
      (b.record bank cls ctx code inst addr synd time).addr = b.addr ∧
      (b.record bank cls ctx code inst addr synd time).time = b.time))) ∧
  ((∀ s q, s.dev.mgmt.mcctl.toNat.testBit 0 = true → s.dev.stopped = false → s.dev.testDue q = true →
    (∀ x ∈ s.dev.mgmt.tests, x.mask.testBit q = false) →
    s.dev.clusters.length = 64 → Answers (.idleSelftest q) s (fun t => (t.dev.cluster q).test = some (3, false) ∧
      (t.dev.cluster q).testAt = s.dev.ctime ∧
      (∀ e ∈ t.dev.tlbs, ∀ c b, e.place = .victim c b → c / 4 ≠ q) ∧
      ∀ i ∈ coresOf q, i < s.dev.cores.length → (t.dev.core i).l1 = [] ∧ (t.dev.core i).icache = [])) ∧
  (∀ s q, s.dev.mgmt.mcctl.toNat.testBit 0 = false → (∀ x ∈ s.dev.mgmt.tests, x.mask.testBit q = false) →
    exec (.idleSelftest q) s = .next s) ∧
  (∀ s q x, q < 64 → s.dev.mgmt.tests.find? (fun x => x.mask.testBit q) = some x → s.dev.clusters.length = 64 →
    let free : Prop := s.dev.stopped = false ∧ (s.dev.cluster q).test = none ∧ (∀ f ∈ s.dev.flocks, f.core / 4 ≠ q) ∧
      (s.dev.die (q / 16)).powered = true
    (free → Answers (.idleSelftest q) s (fun t => (t.dev.cluster q).test = some (x.kinds, true) ∧
      (t.dev.cluster q).testAt = s.dev.ctime)) ∧ (¬free → exec (.idleSelftest q) s = .next s)) ∧
  (∀ s q kinds, (s.dev.cluster q).test = some (kinds, false) →
    (s.dev.wants q = true →
      exec (.selftestAbandon q) s = .next (s.device (fun d => d.modCluster q (fun c => { c with test := none })))) ∧
    (s.dev.wants q = false → exec (.selftestAbandon q) s = .next s)) ∧
  (∀ s q kinds asked lf mf, q < 64 → s.dev.clusters.length = 64 → s.dev.banks.length = 128 →
    (s.dev.cluster q).test = some (kinds, asked) → (∀ f ∈ s.dev.flocks, f.core / 4 ≠ q) →
    (s.dev.cluster q).testAt + (if kinds.testBit 0 then 6000000 else 0) + (if kinds.testBit 1 then 1600000 else 0) ≤
      s.dev.ctime →
    let bad := lf && kinds.testBit 0 || mf && kinds.testBit 1
    Answers (.clusterTestEnd q lf mf) s (fun t => (t.dev.cluster q).test = none ∧
      (t.dev.cluster q).lastTest = s.dev.ctime ∧ (t.dev.bank 127).addr.toNat.testBit q = true ∧
      (bad = true → (t.dev.bank 127).synd.toNat.testBit q = true ∧ ∀ i < 16, t.dev.bound 0 (16 * q + i) = 0) ∧
      (bad = false → (t.dev.bank 127).synd = (s.dev.bank 127).synd ∧ t.dev.admbounds = s.dev.admbounds))))

/-- R97, R332, R360: a change of SPLIT empties the slice, takes effect, and lets its thread go on. A slice move gives the free
slice S′ to the owner of S, copies S page by page into it, and at its end, once every page is copied, gives S to its new
owner and reports it by event 8; MOVECMD refuses a start while a move runs or with S′ not free, and an end before the copy has
finished. -/
def Obligations.SplitAndMove_result : Prop :=
  (∀ s v r p rest, (s.dev.vault v).pendSplit = (r, p) :: rest → v < s.dev.vaults.length →
    Answers (.splitChange v) s (fun t => (t.dev.vault v).split = p ∧ (t.dev.vault v).pendSplit = rest ∧
      (p ≠ (s.dev.vault v).split → (∀ l ∈ (t.dev.vault v).lines, homeOf (l.line * 128) ≠ v) ∧ (t.dev.vault v).watch = []) ∧
      ∀ x, s.dev.thread? r = some x → x.wait = .unit → (t.dev.thread? r).map (·.wait) = some .none)) ∧
  (∀ s val, val.testBit 63 = true →
    let src := bits val 0 9
    let dst := bits val 9 9
    ((s.dev.move.stat ≠ 0 ∨ s.dev.owner dst ≠ 0xFF) →
      exec (.moveStart val) s = .next (s.device (fun d => { d with move := { d.move with refused := true } }))) ∧
    (s.dev.move.stat = 0 → s.dev.owner dst = 0xFF → src ≠ dst → s.dev.stopped = false →
      exec (.moveStart val) s = .next (s.device (fun d =>
        { d with
          slown := aset d.slown dst (d.owner src),
          move := { d.move with stat := 1, refused := false, src := src, dst := dst, owner := bits val 18 4, moved := 0 } })))) ∧
  (∀ s, s.dev.move.stat = 1 → s.dev.stopped = false → s.dev.marks = [] → (∀ x ∈ s.dev.vaults, x.lines = [] ∧ x.watch = []) →
    s.MemOk → s.dev.move.src ≠ s.dev.move.dst → s.dev.move.moved < 16384 →
    let m := s.dev.move
    Answers .movePageCopy s (fun t => t.dev.move.moved = m.moved + 1 ∧
      t.dev.move.stat = (if m.moved + 1 = 16384 then 2 else 1) ∧
      ∀ i, Memory.read t.mem i =
        if m.dst * 2 ^ 30 + m.moved * 2 ^ 16 ≤ i ∧ i < m.dst * 2 ^ 30 + (m.moved + 1) * 2 ^ 16 then
          Memory.read s.mem (m.src * 2 ^ 30 + (i - m.dst * 2 ^ 30))
        else Memory.read s.mem i)) ∧
  (∀ s val, val.testBit 62 = true → val.testBit 63 = false →
    let m := s.dev.move
    (m.stat ≠ 2 → exec (.moveEnd val) s = .next (s.device (fun d => { d with move := { d.move with refused := true } }))) ∧
    (m.stat = 2 → ∃ t, commit (devEvent 8 (BitVec.ofNat 64 m.src) (BitVec.ofNat 64 m.owner)) (s.device (fun d =>
        { d with
          cores := d.cores.map (fun c => { c with l1 := c.l1.filter (fun l => l.line / 2 ^ 23 ≠ m.src) }),
          slown := aset d.slown m.src m.owner, move := { m with stat := 0, refused := false } })) = .next t ∧
      exec (.moveEnd val) s = .next t))

/-! ## The host interface (R5, R355-R359, R371, R430) -/

/-- R358, R359: an event that its queue can take is written as a 32-byte record at EQTAIL, which then advances,
PHASE toggling at the ring's end; a queue that is full, disabled, or before stage 4 holds up to 64 events; beyond them a
device-wide event is counted in EQLOST and an event of a context stays pending. A record that is written sends its MSI-X
message, or leaves it pending while the vector is masked (R355). Writes of EQBASE, EQLOG and EQHEAD set the ring, its size and
the host's index, and held events go out. Where in physical memory EQBASE lies is the model's choice (log 47), as are an
EQLOG outside 4 to 16, stored but a queue disabled, the tail taken into the new ring and an EQHEAD kept as written (log 40), and
the vector's mask and pending bit (log 48). -/
def Obligations.EventQueues_result : Prop :=
  (∀ s q e, s.MemOk → (s.dev.queue q).held = [] → s.dev.canTake q = true → q < s.dev.queues.length →
    let x := s.dev.queue q
    let at_ := hostPa (x.base.toNat + 32 * x.tail)
    ∃ t, commit (postEvent q e) s = .next t ∧
      Memory.reads t.mem at_ 32 =
        leBytes 2 e.code ++ leBytes 1 e.ctx ++ leBytes 1 x.phase.toNat ++ leBytes 4 e.stepid.toNat ++ leBytes 8 e.time ++
          leBytes 8 e.d0.toNat ++ leBytes 8 e.d1.toNat ∧
      (∀ a, a < at_ ∨ at_ + 32 ≤ a → Memory.read t.mem a = Memory.read s.mem a) ∧
      (t.dev.queue q).msiPend = x.msiMask ∧
      (t.dev.queue q).msiSent = (if x.msiMask = true then x.msiSent else x.msiSent + 1) ∧
      (t.dev.queue q).tail = (x.tail + 1) % 2 ^ x.log.toNat ∧
      (t.dev.queue q).phase = (if (x.tail + 1) % 2 ^ x.log.toNat = 0 then !x.phase else x.phase)) ∧
  (∀ s q e, ¬((s.dev.queue q).held = [] ∧ s.dev.canTake q = true) →
    ((s.dev.queue q).held.length < 64 → commit (postEvent q e) s =
      .next (s.device (fun d => d.modQueue q (fun x => { x with held := x.held ++ [e] })))) ∧
    (64 ≤ (s.dev.queue q).held.length → e.ctx ≠ 0xFF → commit (postEvent q e) s =
      .next (s.device (fun d => d.modCtx e.ctx (fun c => { c with pendEv := c.pendEv ++ [e] })))) ∧
    (64 ≤ (s.dev.queue q).held.length → e.ctx = 0xFF → q < s.dev.queues.length → ∃ t, commit (postEvent q e) s = .next t ∧
      s.sameBytes t ∧ (t.dev.queue q).lost.toNat = min (2 ^ 32 - 1) ((s.dev.queue q).lost.toNat + 1) ∧
      (t.dev.queue q).held = (s.dev.queue q).held)) ∧
  (∀ (s : State) q, (s.dev.canTake q = true ↔ 4 ≤ (s.dev.queue q).log.toNat ∧ (s.dev.queue q).log.toNat ≤ 16 ∧ s.dev.mgmt.stage = 4 ∧ s.dev.mgmt.linkUp = true ∧
    ((s.dev.queue q).tail + 1) % 2 ^ (s.dev.queue q).log.toNat ≠
      (s.dev.queue q).head % 2 ^ (s.dev.queue q).log.toNat)) ∧
  (∀ s f val, s.dev.reaches f = true →
    (∃ t, commit deliverAll (s.device (fun d => d.modQueue (queueNum f) (fun q =>
        { q with base := BitVec.ofNat 64 val, lost := 0 }))) = .next t ∧ exec (.eqbase f val) s = .next t) ∧
    (∃ t, commit deliverAll (s.device (fun d => d.modQueue (queueNum f) (fun q =>
        { q with head := val % 2 ^ 32 }))) = .next t ∧ exec (.eqhead f val) s = .next t) ∧
    (∃ t t', commit deliverAll (s.device (fun d => d.modQueue (queueNum f) (fun q =>
        { q with log := BitVec.ofNat 32 val, tail := if 4 ≤ val ∧ val ≤ 16 then q.tail % 2 ^ val else q.tail }))) = .next t ∧
      (if t.dev.mgmt.startEvt = true ∧ (t.dev.queue 0).log ≠ 0 then
          commit (devEvent 6 4 0) (t.device (fun d => { d with mgmt := { d.mgmt with startEvt := false } })) = .next t'
        else t' = t) ∧ exec (.eqlog f val) s = .next t'))

/-- R5, R355, R356, R397, R360, R430: a function's write of BAR 0 reaches the register of its offset: SQTAIL, a context's
registers, of which a VF writes neither TRAPVEC nor PRIO, VDCLUS of PF_0's device region, the address of its MSI-X vector; it
changes nothing while the link is down. A read gives a register's value, and zero for the write-only CTXCMD, for a page that
the function may not reach, and so for a VF in the page of context 0 (R373). A window write puts its bytes at the home slice
where the function may reach it, and changes nothing elsewhere; a window read answers with the bytes there, zero where the
function may not reach them. The place of the MSI-X table is the model's (log 48), and that the registers of the device
region and the MSI-X table answer from stage 1 on (log 40). -/
def Obligations.HostAccess_result : Prop :=
  (∀ s f k val, k < 64 → val < 2 ^ 32 → s.dev.mgmt.linkUp = true →
    exec (.registerWrite f (0x1000 * k) 4 val) s = exec (.sqtail f k val) s) ∧
  (∀ s f k val, s.dev.mayAct f k = true → val < 2 ^ 64 →
    exec (.registerWrite f (0x1000 * k + 0x40) 8 val) s = .next (s.device (fun d => d.modCtx k (fun c =>
      { c with regs := { c.regs with ptroot := BitVec.ofNat 64 val } })))) ∧
  (∀ s k val, s.dev.mayAct .pf k = true → val < 2 ^ 64 →
    exec (.registerWrite .pf (0x1000 * k + 0xB0) 8 val) s = .next (s.device (fun d => d.modCtx k (fun c =>
      { c with regs := { c.regs with trapvec := BitVec.ofNat 64 val } })))) ∧
  (∀ s v k val, s.dev.mayAct (.vf v) k = true → val < 2 ^ 32 →
    exec (.registerWrite (.vf v) (0x1000 * k + 0xB0) 8 val) s = .next s ∧
    exec (.registerWrite (.vf v) (0x1000 * k + 0x7C) 4 val) s = .next s) ∧
  (∀ s v val, s.dev.mgmt.linkUp = true → s.dev.mgmt.stage ≠ 0 → v < 16 → val < 2 ^ 64 →
    exec (.registerWrite .pf (0x60000 + 8 * v) 8 val) s =
      .next (s.device (fun d => { d with vdclus := d.vdclus.set v (BitVec.ofNat 64 val) }))) ∧
  (∀ s f off width val, s.dev.mgmt.linkUp = false → exec (.registerWrite f off width val) s = .next s) ∧
  (∀ s f off bs, s.dev.reaches f = true → off + bs.length ≤ 2 ^ 34 → s.dev.marks = [] → s.dev.vaults.length = 64 → s.MemOk →
    let pa := s.dev.winbase.toNat + off
    bs ≠ [] → pa % 128 + bs.length ≤ 128 →
    (s.dev.windowOk f pa = true → Answers (.hostWindowAccess f off (some bs) 0) s (fun t =>
      t.point (.dram pa) bs.length = bs)) ∧
    (s.dev.windowOk f pa = false → exec (.hostWindowAccess f off (some bs) 0) s = .next s) ∧
    Answers (.hostWindowAccess f off none bs.length) s (fun t => t.dev.answer =
      .data (if s.dev.windowOk f pa = true then s.point (.dram pa) bs.length else List.replicate bs.length 0))) ∧
  (∀ s val, s.dev.mgmt.linkUp = true → s.dev.mgmt.stage ≠ 0 → val < 2 ^ 64 →
    exec (.registerWrite .pf 0x70000 8 val) s = .next (s.device (fun d => d.modQueue 0 (fun q =>
      ({ q with msiAddr := BitVec.ofNat 64 val } : EvQueue).unmasked)))) ∧
  (∀ (d : Dev) f k i, k < 64 → i < 0x1000 →
    (d.mayAct f k = false → d.barByte f (0x1000 * k + i) = 0) ∧
    (8 ≤ i → i < 12 → d.barByte f (0x1000 * k + i) = 0) ∧
    (d.mayAct f k = true → 4 ≤ i → i < 8 →
      d.barByte f (0x1000 * k + i) = BitVec.ofNat 8 (bits (d.ctx k).sqhead (8 * (i - 4)) 8)) ∧
    (d.mayAct f k = true → 0x40 ≤ i → i < 0x48 →
      d.barByte f (0x1000 * k + i) = BitVec.ofNat 8 (bits (d.ctx k).regs.ptroot.toNat (8 * (i - 0x40)) 8))) ∧
  (∀ (d : Dev) v i, i < 0x1000 → d.barByte (.vf v) i = 0) ∧
  (∀ s, s.dev.mgmt.linkUp = false → exec .pcieLinkDown s = .next s) ∧
  (∀ s, s.dev.mgmt.linkUp = true → ∃ t, commit (bankRecord 108 0 none 0x36 0 0 0)
      (s.device (fun d => { d with mgmt := { d.mgmt with linkUp := false } })) = .next t ∧ exec .pcieLinkDown s = .next t) ∧
  (∀ s, ∃ t, commit deliverAll (s.device (fun d => { d with mgmt := { d.mgmt with linkUp := true } })) = .next t ∧
    exec .pcieLinkUp s = .next t)

/-- A mailbox command that runs ends with an error code, after `s1`: STATE is DONE, and event 7 reports MBSTAT. -/
abbrev mailboxEnds (i : Instr) (s s1 : State) (err : Nat) : Prop :=
  ∃ t, commit (devEvent 7 (BitVec.ofNat 64 (16 * err + 2)) 0)
      (s1.device (fun d => { d with mbox := { d.mbox with state := 2, err := err } })) = .next t ∧ exec i s = .next t

/-- The mailbox runs a command. -/
abbrev mailboxRuns (s : State) (cmd : Nat) : Prop := s.dev.mbox.state = 1 ∧ s.dev.mbox.cmd = cmd

/-- The bytes at the start of MBDATA. -/
abbrev mailboxHolds (s : State) (bs : List Byte) : Prop := s.dev.mbox.bytes 0 bs.length = bs

/-- R371, R368, R369: MBCMD starts a command, unless one runs (ERR 3), it is unknown (ERR 1) or, before stage 4, SETBOUND or
SELFTEST (ERR 4); MCREAD gives the named banks, one after another in increasing number; FWBEGIN, FWDATA and FWEND open an
update, append to it and replace the stored image, where the image is complete, its signature checks and its security version
is at least the fused minimum: while it writes, the firmware is stopped and every die falls back; SETDEV, SETBOUND and SELFTEST
act and end. Where in MBDATA arguments and results lie, and that it holds the first 64 of the named banks, is the model's choice
(log 23); which arguments end with ERR 2 is its reading (log 40), and that SELFTEST runs both kinds (log 41). -/
def Obligations.Mailbox_result : Prop :=
  (∀ s cmd, s.dev.mgmt.linkUp = true → s.dev.mgmt.stage = 4 → cmd < 2 ^ 16 →
    let i := Instr.registerWrite .pf 0x50000 2 cmd
    (s.dev.mbox.state = 1 → exec i s = .next (s.device (fun d => { d with mbox := { d.mbox with err := 3 } }))) ∧
    (s.dev.mbox.state ≠ 1 → cmd = 0 ∨ 9 < cmd → mailboxEnds i s s 1) ∧
    (s.dev.mbox.state ≠ 1 → 1 ≤ cmd → cmd ≤ 9 → cmd ≠ 5 →
      exec i s = .next (s.device (fun d => { d with mbox := { d.mbox with state := 1, err := 0, cmd := cmd } })))) ∧
  (∀ s cmd, s.dev.mgmt.linkUp = true → s.dev.mgmt.stage ≠ 0 → s.dev.mgmt.stage ≠ 4 → s.dev.mbox.state ≠ 1 →
    cmd = 8 ∨ cmd = 9 → mailboxEnds (.registerWrite .pf 0x50000 2 cmd) s s 4) ∧
  (∀ s, s.dev.mgmt.linkUp = true → s.dev.mgmt.stage ≠ 0 → s.dev.mbox.state ≠ 1 →
    let m := s.dev.mbox
    let good : Prop := m.upSize = some m.upData.length ∧ imageValid m.upData = true ∧
      Config.fusedMinimum ≤ Config.securityVersion m.upData
    let s1 := s.device (fun d => { d with mbox := { d.mbox with state := 1, err := 0, cmd := 5 } })
    (¬good → exec (.registerWrite .pf 0x50000 2 5) s = .next s1) ∧
    (good → exec (.registerWrite .pf 0x50000 2 5) s =
      .next (s1.device (fun d => allInvalid { d with mgmt := { d.mgmt with updating := true } })) ∧
      ∀ i < 4, i < s.dev.dies.length →
        ((allInvalid { s1.dev with mgmt := { s1.dev.mgmt with updating := true } }).die i).tvalid = false)) ∧
  (∀ s, mailboxRuns s 1 → ∃ s1, mailboxHolds s1 ((List.range 16).map Config.identity ++
      leBytes 8 (Config.imageVersion s.dev.mbox.image).toNat) ∧ mailboxEnds .info s s1 0) ∧
  (∀ s b, mailboxRuns s 2 → b < 128 → s.dev.mbox.word 0 16 = 2 ^ b →
    ∃ s1, mailboxHolds s1 (leBytes 8 (s.dev.bank b).status.toNat ++ leBytes 8 (s.dev.bank b).addr.toNat ++
      leBytes 8 (s.dev.bank b).synd.toNat ++ leBytes 8 (s.dev.bank b).time.toNat ++ List.replicate 32 0) ∧
      mailboxEnds .mcread s s1 0) ∧
  (∀ s, mailboxRuns s 2 →
    let named := (List.range 128).filter (fun b => (s.dev.mbox.word 0 16).testBit b)
    ∃ s1, (∀ i b, i < 64 → named[i]? = some b → (s1.dev.mbox.bytes (64 * i) 64) =
      leBytes 8 (s.dev.bank b).status.toNat ++ leBytes 8 (s.dev.bank b).addr.toNat ++ leBytes 8 (s.dev.bank b).synd.toNat ++
        leBytes 8 (s.dev.bank b).time.toNat ++ List.replicate 32 0) ∧ mailboxEnds .mcread s s1 0) ∧
  (∀ s, mailboxRuns s 3 →
    (s.dev.mbox.word 0 4 = 0 → mailboxEnds .fwbegin s s 2) ∧
    (s.dev.mbox.word 0 4 ≠ 0 → mailboxEnds .fwbegin s (s.device (fun d =>
      { d with mbox := { d.mbox with upSize := some (s.dev.mbox.word 0 4), upData := [] } })) 0)) ∧
  (∀ s, mailboxRuns s 4 →
    (s.dev.mbox.upSize = none → mailboxEnds .fwdata s s 2) ∧
    (∀ n, s.dev.mbox.upSize = some n → mailboxEnds .fwdata s (s.device (fun d =>
      { d with mbox := { d.mbox with
        upData := d.mbox.upData ++ d.mbox.bytes 0 (min 4096 (n - d.mbox.upData.length)) } })) 0)) ∧
  (∀ s, mailboxRuns s 5 →
    (s.dev.mgmt.updating = false → mailboxEnds .fwend s s 2) ∧
    (s.dev.mgmt.updating = true → mailboxEnds .fwend s (s.device (fun d =>
      { d with
        mbox := { d.mbox with image := d.mbox.upData, upSize := none, upData := [], torn := false },
        mgmt := { d.mgmt with updating := false, fwStopped := true, heartbeat := d.ctime } })) 0)) ∧
  (∀ s, mailboxRuns s 7 →
    (4096 ≤ s.dev.mbox.word 0 2 → mailboxEnds .setdev s s 2) ∧
    (s.dev.mbox.word 0 2 < 4096 → mailboxEnds .setdev s (s.device (fun d =>
      { d with fab := { d.fab with devno := s.dev.mbox.word 0 2 } })) 0)) ∧
  (∀ s, mailboxRuns s 8 →
    let kind := s.dev.mbox.word 0 4
    let inst := s.dev.mbox.word 4 4
    (4 < kind ∨ kindRange kind ≤ inst → mailboxEnds .setbound s s 2) ∧
    (kind ≤ 4 → inst < kindRange kind → ∃ s1, exec (.admboundWrite kind inst (s.dev.mbox.word 8 4)) s = .next s1 ∧
      mailboxEnds .setbound s s1 0)) ∧
  (∀ s, mailboxRuns s 9 → ∃ s1, mailboxEnds .selftest s s1 0 ∧
    (s.dev.clusters.length = 64 → ∀ q < 64, s.dev.testDue q = true → (s1.dev.cluster q).test = some (3, false)))

/-- R357, R366-R370: a reset of PF_0, and the mailbox's RESET, begin a warm start at stage 1, also while the compute rails are
off, which keeps what DRAM holds, the banks and the counts, and ends every flock and step; power-on begins a cold one at
stage 0. The stages follow in order: the stored image verified or FAIL 1, where an image whose update was cut short fails;
stacks restored by a warm start from a record whose CRC and serial number check within 15 °C of its training, or trained, or
FAIL 2; self-tests or FAIL 3; and full function. A reset of a VF drains the contexts of its virtual device, urgently. An SPDM
request gets its response; before version, capabilities and algorithms are agreed the later ones get an error, as does an
unsupported code; the layout of the messages is the model's (log 65), their codes are those of SPDM 1.2 (log 39), and what the
starts keep beyond the spec's words is the model's (log 38). -/
def Obligations.StartUp_result : Prop :=
  (∀ s : State, s.dev.mgmt.stage ≠ 0 → ¬(s.dev.mgmt.failCode = 4 ∧ s.dev.mgmt.stage = 1) → ∃ s1, exec .pfReset s = .next s1 ∧
    s1.dev.mgmt.stage = 1 ∧ s1.dev.mgmt.cold = false ∧ s1.dev.mgmt.starting = true ∧ s1.dev.stopped = false ∧
    s1.dev.flocks = [] ∧ s1.dev.reqs = [] ∧ s1.dev.ctxs = Dev.reset.ctxs ∧ s1.dev.cores = Dev.reset.cores ∧
    (s.dev.marks = [] → s1.dev.banks = s.dev.banks) ∧ s1.dev.ctime = s.dev.ctime ∧
    s1.dev.mbox.torn = (s.dev.mbox.torn || s.dev.mgmt.updating) ∧
    ((∀ v ∈ s.dev.vaults, v.lines = []) → s.dev.move.stat = 0 → s1.mem = s.mem) ∧
    (mailboxRuns s 6 → mailboxEnds .reset s s1 0)) ∧
  (∀ s, Answers .coldStart s (fun t => t.dev.mgmt.stage = 0 ∧ t.dev.mgmt.cold = true ∧ t.dev.mgmt.starting = true ∧
    t.dev.flocks = [] ∧ t.dev.reqs = [] ∧ t.dev.ctxs = Dev.reset.ctxs ∧ t.dev.vaults = Dev.reset.vaults ∧
    t.dev.mbox.image = s.dev.mbox.image ∧ t.dev.mbox.torn = (s.dev.mbox.torn || s.dev.mgmt.updating) ∧ ∀ c ∈ t.mem, 2 ^ 39 ≤ c.1)) ∧
  (∀ (s : State) follows failed, s.dev.mgmt.starting = true →
    let m := s.dev.mgmt
    let good : Prop := s.dev.mbox.torn = false ∧ imageValid s.dev.mbox.image = true ∧
      Config.fusedMinimum ≤ Config.securityVersion s.dev.mbox.image
    let kept (h : Nat) : Bool := (s.dev.stk h).record.any (fun r => decide (r.crc = Config.crc32 r.body ∧
      r.serial = Config.stackSerial h ∧ Config.stackTemp h s.dev.ctime ≤ r.temp + 120 ∧
      r.temp ≤ Config.stackTemp h s.dev.ctime + 120))
    (m.stage = 0 → exec (.startStage follows failed) s = .next (s.device (fun d => { d with mgmt := { m with stage := 1 } }))) ∧
    (m.stage = 1 → Answers (.startStage follows failed) s (fun t =>
      (¬good → t = s.device (fun d => { d with mgmt := { m with failCode := 1, starting := false } })) ∧
      (good → t.dev.mgmt.stage = 2 ∧ t.dev.mbox.running = s.dev.mbox.image ∧
      (∀ h < 8, h < s.dev.stks.length → (t.dev.stk h).trn =
        if m.cold = false ∧ kept h = true then 1 else if failed.testBit h then 3 else 2) ∧
      (s.dev.stks.length = 8 → ((∃ h < 8, (t.dev.stk h).trn = 3) → t.dev.mgmt.failCode = 2 ∧ t.dev.mgmt.starting = false) ∧
        ((∀ h < 8, (t.dev.stk h).trn ≠ 3) → t.dev.mgmt.failCode = m.failCode ∧ t.dev.mgmt.starting = true))))) ∧
    (m.stage = 2 → Answers (.startStage follows failed) s (fun t => t.dev.mgmt.stage = 3 ∧
      t.dev.mgmt.failCode = (if failed % 2 ^ 128 = 0 then 0 else 3) ∧
      ∀ q < 64, failed.testBit q = true → ∀ i < 16, t.dev.bound 0 (16 * q + i) = 0)) ∧
    (m.stage = 3 → Answers (.startStage follows failed) s (fun t => t.dev.mgmt.stage = 4 ∧ t.dev.mgmt.starting = false ∧
      t.dev.mgmt.linkGen = (if follows = true then 7 else m.linkGen) ∧
      (t.dev.mgmt.startEvt = true ↔ (s.dev.queue 0).log = 0)))) ∧
  (∀ s follows failed, s.dev.mgmt.starting = false → exec (.startStage follows failed) s = .next s) ∧
  (∀ s msg, s.dev.mgmt.stage ≠ 0 → s.dev.mgmt.linkUp = true →
    let code := field msg 1 1
    exec (.spdmRequest msg) s = .next (s.device (fun d =>
      { d with
        free := d.free + 1,
        mgmt := { d.mgmt with doe := { agreed := (d.spdm msg).1, req := some (code, spdmCodes.contains code),
                                       answer := (d.spdm msg).2 } } }))) ∧
  (∀ (d : Dev) msg,
    let code := field msg 1 1
    (code ∈ [0x81, 0x82, 0x83, 0xE0] → d.mgmt.doe.agreed ≠ 3 →
      d.spdm msg = (d.mgmt.doe.agreed, [0x12, 0x7F, 4, 0])) ∧
    (code ∉ spdmCodes → d.spdm msg = (d.mgmt.doe.agreed, [0x12, 0x7F, 7, BitVec.ofNat 8 code])) ∧
    (code = 0x84 → (d.spdm msg).1 = 1) ∧ (code = 0xE1 → d.mgmt.doe.agreed = 1 → (d.spdm msg).1 = 2) ∧
    (code = 0xE3 → d.mgmt.doe.agreed = 2 → (d.spdm msg).1 = 3)) ∧
  (∀ s v, v < 16 → s.dev.mgmt.stage = 4 → s.dev.ctxs.length = 64 → Answers (.vfFlr v) s (fun t =>
    ∀ k < 64, (s.dev.ctx k).vdevNow = v → (s.dev.ctx k).cstate = .running →
      (t.dev.ctx k).cstate = .draining ∧ (t.dev.ctx k).urgent = true ∧ (t.dev.ctx k).flr = true))

/-! ## Words that do not perform, and illegal uses (R38, R48, R105, R109, R112, R113, R135, R396-R403, R432) -/

/-- A member takes a trap: no handler of it runs, and one is set (R398, R401). -/
abbrev trapped (code sub : Nat) (addr : Env → W64) (v : Env) (x : Thread) : Thread :=
  x.deliver v.handler (BitVec.ofNat 32 (sub * 2 ^ 16 + code)) (addr v) v.th.pc

/-- The word of a member is one that its engine executes, no register of it awaits a result, and it is no cross-lane word. -/
abbrev stands (v : Env) : Prop := v.illegal = false ∧ v.blocked = false ∧ crossLane v.major = false

/-- The first direct register field at or above N, and the first register operand against R105, R112 and R113. -/
abbrev firstDirect (v : Env) : Option Int := firstBad (v.operands.map (fun (u, f) => badDirect v.nregs u f))

/-- R38, R48, R109, R113, R135, R396, R432: for every word and every member that stands at it: with a guard that is FALSE it
only goes on; for a helper a suppressed word writes 0 to its destination and goes on; a register awaited keeps it at
the word, unchanged; a word that its engine does not execute takes the trap ILLEGAL, and a register operand out of bounds
the trap REGBOUND with its index, also where the guard is FALSE and the field is direct. That a destination awaited keeps a
word back as a source does, how a register pair is bounded, and that a helper takes no trap for a relative destination, are the
model's readings (logs 10, 11 and 14). -/
def Obligations.WordOutcomes_result : Prop :=
  ∀ i major b, rawOf i = some (major, b) →
    ChangesIf i major b (fun v => stands v ∧ v.guard = .f ∧ firstDirect v = none) (fun v x => x.issued v.words) ∧
    ChangesIf i major b (fun v => stands v ∧ v.guard = .t ∧ firstDirect v = none ∧ v.th.helper = true ∧
        suppressed v.major = true) (fun v x =>
      let z := zeroRegs v.major v.h.var
      (if z = 0 ∨ (badReg v.th v.nregs (dst z) b.vd).isSome then x else x.wrN z b.vd 0).issued v.words) ∧
    ChangesIf i major b (fun v => v.illegal = false ∧ v.blocked = true) (fun _ x => x) ∧
    ChangesIf i major b (fun v => v.illegal = true ∧ v.inGroup = true ∧ v.th.intv = false ∧ v.delivers)
      (trapped 1 0 (fun _ => 0)) ∧
    ∀ e : Int,
      ChangesIf i major b (fun v => stands v ∧ v.guard = .t ∧ (v.th.helper = false ∨ suppressed v.major = false) ∧
        v.regBad = some e ∧ v.th.intv = false ∧ v.delivers) (trapped 4 0 (fun _ => BitVec.ofInt 64 e)) ∧
      ChangesIf i major b (fun v => stands v ∧ v.guard = .f ∧ firstDirect v = some e ∧ v.th.intv = false ∧ v.delivers)
        (trapped 4 0 (fun _ => BitVec.ofInt 64 e))

/-- R84-R90, R85, R403: the top byte of a generic address steers it: global memory; vault memory, behind VWBASE and within
VWSIZE and the vault's direct size, VSEL 64 the vault beneath the issuer; the thread's stack, behind STKBASE and within
STKSZ; the scratchpad of the flock or of a flock of its herd, within its allocation; the limits hold the offset (that a stack
address is taken modulo 2^57, and that APERTURE comes before ALIGN, are the model's choices, logs 52 and 55). Every other address is an illegal use,
and a load or a store at one takes the trap APERTURE, ALIGN where it is not aligned, or PERM where its page does not permit
it, with the address. -/
def Obligations.Apertures_result : Prop :=
  (∀ d f t rc a, a < 2 ^ 57 → steer d f t rc a = .virt a) ∧
  (∀ d f t rc vs off, vs < 128 → off < 2 ^ 23 →
    let v := if vs = 64 then f.core / 4 else vs
    steer d f t rc (0xFD * 2 ^ 56 + vs * 2 ^ 23 + off) =
      if rc.vault = true ∧ vs ≤ 64 ∧ off < f.regs.vwsize.toNat ∧
          f.regs.vwbase.toNat + off < directSize (d.vault v).split
      then .place (.vault v (f.regs.vwbase.toNat + off)) else .bad 6) ∧
  (∀ d f t rc off, off < 2 ^ 14 → steer d f t rc (0xFE * 2 ^ 56 + off) =
    if rc.stack = true ∧ off < f.kern.stk
    then .virt ((f.regs.stkbase.toNat + (f.sigma.getD 0 * 1024 + t) * f.kern.stk + off) % 2 ^ 57) else .bad 6) ∧
  (∀ d f t rc off, off < 2 ^ 21 → steer d f t rc (0xFF * 2 ^ 56 + off) =
    if rc.spad = true ∧ off < f.kern.spadBytes then .place (.spad f.core f.slot off) else .bad 6) ∧
  (∀ d f t rc hfi off, hfi < 4 → off < 2 ^ 21 →
    steer d f t rc (0xFF * 2 ^ 56 + 2 ^ 26 + hfi * 2 ^ 24 + off) =
      if rc.spad = true ∧ off < f.kern.spadBytes then
        (match (d.herdOf f).find? (fun x => x.hidx = hfi) with
          | some x => .place (.spad x.core x.slot off)
          | none => .bad 6)
      else .bad 6) ∧
  (∀ d f t rc a, a < 2 ^ 64 → 2 ^ 57 ≤ a →
    (a / 2 ^ 56 < 0xFD ∨ (a / 2 ^ 56 = 0xFD ∧ a / 2 ^ 30 % 2 ^ 26 ≠ 0) ∨ (a / 2 ^ 56 = 0xFE ∧ a / 2 ^ 14 % 2 ^ 42 ≠ 0) ∨
      (a / 2 ^ 56 = 0xFF ∧ (a / 2 ^ 27 % 2 ^ 29 ≠ 0 ∨ a / 2 ^ 21 % 8 ≠ 0 ∨ (a / 2 ^ 26 % 2 = 0 ∧ a / 2 ^ 24 % 4 ≠ 0)))) →
    steer d f t rc a = .bad 6) ∧
  (∀ w major i, (major, i) ∈ [(0x90, Instr.ld w), (0x91, Instr.st w)] → ∀ code,
    ChangesWhen i major (.m w) false (fun v => v.th.helper = false ∧ v.delivers ∧
      (match steer v.s.dev v.f v.r.t allAp v.addr.toNat with
        | .bad _ => code = 6
        | .place _ => v.addr.toNat % memBytes w.h.var ≠ 0 ∧ code = 7
        | .virt va => (v.addr.toNat % memBytes w.h.var ≠ 0 ∧ code = 7) ∨
            (v.addr.toNat % memBytes w.h.var = 0 ∧ code = 8 ∧
            (xlat v.s (some v.r.core) v.f.ctx v.f.regs.ptroot va (if major = 0x90 then .read else .write) = .perm ∨
              xlat v.s (some v.r.core) v.f.ctx v.f.regs.ptroot va (if major = 0x90 then .read else .write) = .denied))))
      (trapped code 0 (fun v => v.addr)))

/-! ## Interval threads (R79-R82, R159, R192, R295) -/

/-- The extent of element `i` of an interval source (R81). -/
abbrev laneExt (t : ITy) (r : Raw) (i : Nat) : Ext := t.ext (r.lo / 2 ^ (t.w * i)) (r.hi / 2 ^ (t.w * i))
/-- The interval of element extents. -/
abbrev ofExts (t : ITy) (f : Nat → Ext) : Raw := ⟨ofLanes t (fun i => (f i).1), ofLanes t (fun i => (f i).2), false⟩
/-- Element `i` of interval sources A and B of the word. -/
abbrev extA (v : Env) (i : Nat) : Ext := laneExt v.ty (v.raw v.b.va v.ty.regs (litExt v.ty)) i
abbrev extB (v : Env) (i : Nat) : Ext := laneExt v.ty (v.rawB v.ty.regs (litExt v.ty) v.ty.sg) i
/-- The word of an interval thread writes an interval. -/
abbrev WritesInterval (i : Instr) (major : Nat) (b : Body) (n : Nat) (val : Env → Raw) : Prop :=
  ChangesMembers i major b true (fun v x => (x.wrIv n b.vd (val v)).issued v.words)

/-- R81: an integer interval of a type reads as its ends, or as the full range where lo > hi under the type; an exact extent
within the range is the result, and any other gives the full range. IADD, ISUB, IMIN and IMAX of an interval thread write
such results (clamped ends with .sat), and ICMP TRUE, FALSE or UNKNOWN. -/
def Obligations.IntervalIntegers_result : Prop :=
  (∀ (t : ITy) lo hi, (t.val lo ≤ t.val hi → t.ext lo hi = (t.val lo, t.val hi)) ∧
    (t.val hi < t.val lo → t.ext lo hi = (t.min, t.max))) ∧
  (∀ (t : ITy) (e : Ext), (t.min ≤ e.1 → e.2 ≤ t.max → t.fit false e = e) ∧
    (e.1 < t.min ∨ t.max < e.2 → t.fit false e = (t.min, t.max))) ∧
  (∀ w, WritesInterval (.iaddT w) 0x20 (.t w) (ity w.h.var).regs (fun v => ofExts v.ty (fun i =>
    v.ty.fit (v.h.mod = 1) ((extA v i).1 + (extB v i).1, (extA v i).2 + (extB v i).2)))) ∧
  (∀ w, WritesInterval (.iaddI w) 0x50 (.i w) (ity w.h.var).regs (fun v => ofExts v.ty (fun i =>
    v.ty.fit (v.h.mod = 1) ((extA v i).1 + (extB v i).1, (extA v i).2 + (extB v i).2)))) ∧
  (∀ w, WritesInterval (.isubT w) 0x21 (.t w) (ity w.h.var).regs (fun v => ofExts v.ty (fun i =>
    v.ty.fit (v.h.mod = 1) ((extA v i).1 - (extB v i).2, (extA v i).2 - (extB v i).1)))) ∧
  (∀ w, WritesInterval (.iminT w) 0x27 (.t w) (ity w.h.var).regs (fun v => ofExts v.ty (fun i =>
    (min (extA v i).1 (extB v i).1, min (extA v i).2 (extB v i).2)))) ∧
  (∀ w, WritesInterval (.imaxT w) 0x28 (.t w) (ity w.h.var).regs (fun v => ofExts v.ty (fun i =>
    (max (extA v i).1 (extB v i).1, max (extA v i).2 (extB v i).2)))) ∧
  (∀ w, ChangesMembers (.icmpT w) 0x3E (.t w) true (fun v x => (x.setPred w.vd.num
    (combine v.h.mod (v.th.pred w.vd.num) (compareExt w.vc.num (extA v 0) (extB v 0)))).issued v.words))

/-- Element `i` of a value lies in element `i` of an interval. -/
abbrev liesIn (t : ITy) (r : Raw) (x i : Nat) : Prop := (laneExt t r i).1 ≤ laneVal t x i ∧ laneVal t x i ≤ (laneExt t r i).2

/-- R82, R192: the interval results contain the results: whatever values are drawn from the sources' intervals,
the elementwise integer operation's result lies in the result interval; a comparison that is TRUE of intervals is true of
every pair of values, one that is FALSE of none, and one that is UNKNOWN is true of some pair and false of another. -/
def Obligations.IntervalSoundness : Prop :=
  (∀ var < 8, ∀ (sat : Bool) (o : IntOp) (a b c : Raw) (x y z : Nat),
    let t := ity var
    o ∈ [addOp, subOp, mulOp, mulhOp t.w, madOp, minOp, maxOp, absOp, sadOp] →
    (∀ i < t.k, liesIn t a x i ∧ liesIn t b y i ∧ liesIn t c z i) →
    ∀ i < t.k, liesIn t (intIv t sat o a b c) (intEl t sat o x y z) i) ∧
  (∀ (c : Nat) (a b : Ext), c < 6 → a.1 ≤ a.2 → b.1 ≤ b.2 →
    (compareExt c a b = .t ↔ ∀ x y, a.1 ≤ x → x ≤ a.2 → b.1 ≤ y → y ≤ b.2 → intRelation c x y) ∧
    (compareExt c a b = .f ↔ ∀ x y, a.1 ≤ x → x ≤ a.2 → b.1 ≤ y → y ≤ b.2 → ¬intRelation c x y))

/-- R163, R166, R178, R180, R184, R266, R403: outside privileged mode a privileged register and TLBINV take the trap PRIV, as RTT
does with INTRAP 0; RET with RETADDR 0 takes TARGET with its own address, BMODE.on with a budget of 0 OPERAND. R82, R159,
R295: an interval thread ends UNKNOWN at a word with the rule NONE, at one with a guard that is UNKNOWN, and where an
element-mode thread would take a trap; memory stays as it is. -/
def Obligations.IllegalAndEnds_result : Prop :=
  ((∀ w, ChangesWhen (.mfsr w) 0x10 (.i w) false (fun v => v.r.t ≠ instId ∧ privileged v.f v.th = false ∧
    (sysReg (w.imm % 4096)).map (·.rdPriv) = some true ∧ v.delivers) (trapped 2 0 (fun _ => 0))) ∧
  (∀ w, ChangesWhen (.mtsr w) 0x11 (.i w) false (fun v => v.r.t ≠ instId ∧ privileged v.f v.th = false ∧
    (sysReg (w.imm % 4096)).map (·.wrPriv) = some true ∧ v.delivers) (trapped 2 0 (fun _ => 0))) ∧
  (∀ w, ChangesWhen (.tlbinv w) 0x13 (.t w) false (fun v => privileged v.f v.th = false ∧ v.delivers)
    (trapped 2 0 (fun _ => 0))) ∧
  (∀ w, ChangesWhen (.rtt w) 0x0C (.t w) false (fun v => v.delivers) (trapped 2 0 (fun _ => 0))) ∧
  (∀ w, ChangesWhen (.ret w) 0x06 (.t w) false (fun v => v.th.retaddr = 0 ∧ v.delivers) (trapped 5 0 (fun v => v.th.pc))) ∧
  (∀ w, ChangesWhen (.bmode w) 0x1D (.i w) false (fun v => w.h.mod = 2 ∧ (v.v32 w.va).toNat % 2 ^ 16 = 0 ∧ v.delivers)
    (trapped 11 0xFFFF (fun _ => 0)))) ∧
  ((∀ s g row r f th w i major, (major, i) ∈ [(0x08, Instr.demote w), (0x0C, Instr.rtt w), (0x0E, Instr.bar w),
      (0x0F, Instr.hbar w), (0x13, Instr.tlbinv w), (0x14, Instr.time w), (0x1C, Instr.slack w), (0x22, Instr.iaddc w)] →
    AllPerform s g major (.t w) row → g.members = [r] → memberOf s g r = some (f, th) → th.intv = true →
    Answers i s (fun t => s.sameBytes t ∧ (t.dev.thread? r).map (·.ended) = some (some .unknown))) ∧
  (∀ s g row r f th i major b, rawOf i = some (major, b) → s.dev.issuing = some g → g.members = [r] →
    rowOf major b = some row → memberOf s g r = some (f, th) → th.intv = true →
    let v := envAt s g major b row r f th
    (v.illegal = true ∧ v.inGroup = true) ∨ (stands v ∧ v.guard = .u ∧ firstDirect v = none) ∨
      (stands v ∧ v.guard = .t ∧ v.th.helper = false ∧ v.regBad ≠ none) →
    Answers i s (fun t => s.sameBytes t ∧ (t.dev.thread? r).map (·.ended) = some (some .unknown))))

/-! ## Contained stops (R387, R401) -/

/-- R401: a trap that is raised with INTRAP set, or without a handler, is not delivered: the context is stopped as
contained, the record in the bank of the thread's cluster holding CLASS 2, CODE 0x0070, the trapping PC and the TRAPCODE
value that delivery would have written, in every context. R387: after a contained stop of a context no flock of it is
resident, no translation and no watch entry of it is left, its state is ERRSTOP and its step and runs are gone; servers
and the flocks of other contexts are as before. -/
def Obligations.UndeliveredTrap_result : Prop :=
  (∀ s r f th code sub addr pc, s.dev.flock? r.core r.slot = some f → f.thread? r.t = some th → th.intv = false →
    th.trap.intrap = true ∨ s.dev.trapVec f.ctx r.t = 0 →
    commit (takeTrap r code sub addr pc) s =
      commit (contained f.ctx (r.core / 4) 0x70 (r.core % 4) pc (BitVec.ofNat 64 ((sub * 2 ^ 16 + code) % 2 ^ 32))) s) ∧
  (∀ s k bank code inst addr synd, (s.dev.ctx k).cstate ≠ .errstop → k < 64 → s.dev.ctxs.length = 64 →
    ∃ t, commit (contained k bank code inst addr synd) s = .next t ∧
      t.dev.flocks = s.dev.flocks.filter (fun f => f.ctx ≠ k) ∧ t.dev.servers = s.dev.servers ∧
      (∀ e ∈ t.dev.tlbs, e.ctx ≠ k) ∧ (∀ v ∈ t.dev.vaults, ∀ e ∈ v.watch, e.ctx ≠ k) ∧
      (t.dev.ctx k).cstate = .errstop ∧ (t.dev.ctx k).step = none ∧ (t.dev.ctx k).runs = [] ∧
      (bank < s.dev.banks.length → (s.dev.bank bank).status.toNat.testBit 63 = false → code < 2 ^ 16 → inst < 256 →
        let b := t.dev.bank bank
        b.addr = addr ∧ b.synd = synd ∧ b.time = BitVec.ofNat 64 s.dev.ctime ∧ b.status.toNat.testBit 63 = true ∧
        bits b.status.toNat 60 2 = 2 ∧ bits b.status.toNat 32 16 = code ∧ bits b.status.toNat 50 6 = k ∧
        bits b.status.toNat 57 1 = 1))

/-! ## Encodings (R107-R121, R133, R135) -/

/-- R4, R108, R114, R119, R121: words that the spec works out decode to the instructions that they stand for, one also from its
bytes, and a header word to its fields; with a WAIT written from R114, which the spec does not work out, every format has
one. -/
def Obligations.Words_decode : Prop :=
  (let plain (var mod : Nat) : Hd := ⟨0, false, var, 0, mod, false, 0⟩
  let z : Fld := .direct 2047
  decode 0x2004_000A_0100_27FF 0 = .ok (.iaddT ⟨⟨2, false, 0, 0, 0, false, 0⟩, .direct 5, .direct 4, .direct 4, z⟩) ∧
  decode 0x4590_300A_0100_37FF 0x0000_1800_FFFF_FFFF =
    .ok (.lxchT ⟨⟨0, false, 1, 0, 3, true, 0xFFFFFFFF⟩, .direct 5, .direct 4, .direct 6, .lit⟩) ∧
  decode 0x1610_0009_FFC0_0000 0 = .ok (.movk ⟨plain 1 0, .direct 4, z, 0, false⟩) ∧
  decode 0x9A50_000C_0208_041E 0 = .ok (.atom ⟨plain 5 0, .direct 6, .direct 8, 0x2010, false, 3, 3⟩) ∧
  decode 0x90C0_0020_0200_101A 0x0140_0000_0000_0000 =
    .ok (.ld ⟨⟨0, false, 4, 0, 0, true, 0⟩, .rel 1 16, .direct 8, 64, false, 3, 1⟩) ∧
  decode 0x0100_0FFE_0000_0001 0 = .ok (.bra ⟨plain 0 0, z, 1⟩) ∧
  decode 0xA020_0FFF_FFC0_8000 0 = .ok (.mma ⟨plain 2 0, z, z, 256, 0, 0⟩) ∧
  decode 0x1900_0FFE_EE80_0000 0 = .ok (.wait ⟨plain 0 0, 63, 62, 29, 13⟩) ∧
  decodeBytes [0xFF, 0x27, 0x00, 0x01, 0x0A, 0x00, 0x04, 0x20, 0xAA] =
    .ok (.iaddT ⟨⟨2, false, 0, 0, 0, false, 0⟩, .direct 5, .direct 4, .direct 4, z⟩, [0xAA]) ∧
  rdHeader 0xF018_0480_0032_0006 = some ⟨6, 9, 6, 1, 6⟩ ∧ rdHeader 0x2004_000A_0100_27FF = none)

/-- R107-R120, R133, R135: every well-formed instruction with words of its own is decoded from the words that encode it,
each field at each value that the encoding admits; the words are of 64 bits, and the second is zero where L = 0. -/
def Obligations.EncodeThenDecode : Prop :=
  ∀ i w l, i.wf = true → encode i = some (w, l) →
    w < 2 ^ 64 ∧ l < 2 ^ 57 ∧ (bit w 55 = false → l = 0) ∧ decode w l = .ok i

/-- R107-R120, R135: whatever decodes is well-formed and is encoded by the same instruction word; of the literal word, only
the index-register bits of operands that are not relative may differ. Decoding refuses the reserved majors (R135), a guard
PRED = 0 with PNEG = 1, any set bit among 63:57 and 42:32 of a literal word, and LIT without LSEL. -/
def Obligations.DecodeThenEncode : Prop :=
  (∀ w l i, w < 2 ^ 64 → l < 2 ^ 64 → decode w l = .ok i →
    i.wf = true ∧ ∃ l', encode i = some (w, l') ∧ decode w l' = .ok i ∧
      (bit w 55 = true → bits l' 0 45 = bits l 0 45)) ∧
  (∀ w l, 0xF0 ≤ bits w 56 8 → ∃ e, decode w l = .error e) ∧
  (∀ w l, bits w 49 3 = 0 → bit w 48 = true → ∃ e, decode w l = .error e) ∧
  (∀ w l, bit w 55 = true → bits l 57 7 ≠ 0 ∨ bits l 32 11 ≠ 0 ∨ (bits l 43 2 = 0 ∧ bits l 0 32 ≠ 0) →
    ∃ e, decode w l = .error e)

/-! ## The step (R38, R46, R107, R125, R135) -/

/-- The step of a chosen group whose word has an outcome: a fault of it, its next state, or, where it has reached a line or
block too late in the clock, a tick of time. -/
abbrev stepsWord (s : State) (o : Host.Outcome State Fault Refusal) : Prop :=
  (∀ e, o = .fault e → step s = .fault e) ∧
  ∀ t, o = .next t →
    let late : Prop := ∃ r ∈ reachedRanks s.dev t.dev, r.late s.dev = true
    (late → step s = .next (passTime 1 s)) ∧ (¬late → ∃ u, step s = .next u ∧ t.apartFromOrder u)

/-- R38, R107, R125, R135: a step with a chosen group runs the instruction that the words at the group's PC decode to, in
the state that the fetch leaves, whose flocks and bytes of local stores are as before; words that are no instruction make
every member take the trap ILLEGAL before any effect. The words are the bytes at the translated address, little-endian, where
the core's instruction cache has no copy of them; a second word is read where L = 1, the format has a literal word and the
block goes on. Without a group the next turn of the agenda passes its time and acts, unless in this clock an act that has to
follow it has been made: then it waits a tick, and so does a word whose fetch or accesses would come before a later request of
its clock to one of their lines or blocks (log 44); an empty agenda lets one tick of CTIME pass. Beside what the
instruction or act does a step keeps what it did for that order, and clears RISK of dies (R335). No step refuses, and an
instruction that no thread reaches has no effect (R46). -/
def Obligations.StepRunsDecoded : Prop :=
  (∀ s g w lit i, s.dev.issuing = some g → fetchGroup s g = .words w lit → decode w lit = .ok i →
    stepsWord s (exec i (fetched g s)) ∧ (fetched g s).sto = s.sto ∧ (fetched g s).dev.issuing = some g ∧
      (s.dev.marks = [] → (fetched g s).dev.flocks = s.dev.flocks)) ∧
  (∀ s g w lit e, s.dev.issuing = some g → fetchGroup s g = .words w lit → decode w lit = .error e → g.members.Nodup →
    (∀ r ∈ g.members, ∃ f th, memberOf (fetched g s) g r = some (f, th) ∧ th.intv = false ∧ th.trap.intrap = false ∧
      (fetched g s).dev.trapVec f.ctx r.t ≠ 0) →
    stepsWord s (.next ((fetched g s).eachMember g (fun r f th x =>
      x.deliver ((fetched g s).dev.trapVec f.ctx r.t) 1 0 th.pc)))) ∧
  (∀ s g f pa leaf, s.dev.groupFlock g = some f → g.pc.toNat < 2 ^ 57 → s.dev.marks = [] →
    xlat s (some f.core) f.ctx f.regs.ptroot g.pc.toNat .fetch = .ok pa leaf →
    let loc := placeOf pa leaf g.pc.toNat
    s.dev.codeCopies f.core (codeKey loc) = [] →
    let w := leNat (s.point loc 8)
    (s.dev.wantsLit g w = false → fetchGroup s g = .words w 0) ∧
    (let s1 := s.apply (fetchE g.lead f g.pc.toNat s)
     s.dev.wantsLit g w = true → s1.dev.marks = [] → ∀ pa' leaf', (g.pc + 8).toNat < 2 ^ 57 →
      xlat s1 (some f.core) f.ctx f.regs.ptroot (g.pc + 8).toNat .fetch = .ok pa' leaf' →
      let loc' := placeOf pa' leaf' (g.pc + 8).toNat
      s1.dev.codeCopies f.core (codeKey loc') = [] → fetchGroup s g = .words w (leNat (s1.point loc' 8)))) ∧
  (∀ (d : Dev) (g : Group) w, d.wantsLit g w = true ↔ bit w 55 = true ∧
    fmtOf (bits w 56 8) ∉ [none, some .b, some .w] ∧
    ∃ r ∈ g.members, ∃ th, d.thread? r = some th ∧ g.pc + 8 ≠ th.blkEnd) ∧
  (∀ s i dt ts, s.dev.issuing = none → s.dev.agenda = ⟨dt, .occur i⟩ :: ts →
    let s1 := turnStart ⟨dt, .occur i⟩ s
    s1.dev.ctime = s.dev.ctime + dt ∧ s1.dev.agenda = ts ∧ s1.mem = s.mem ∧ s1.sto = s.sto ∧
    (∀ e, exec i s1 = .fault e → step s = .fault e) ∧
    ∀ t, exec i s1 = .next t →
      let own := (Act.occur i).ranks s1
      let late : Prop := ∃ r ∈ own ++ reachedRanks s1.dev t.dev ++ shownRanks s1.dev t.dev own, r.late s1.dev = true
      (¬late → ∃ u, step s = .next u ∧ t.apartFromOrder u) ∧
      (late → step s = .next (s1.device (fun d => { d with agenda := ⟨1, .occur i⟩ :: ts })))) ∧
  (∀ s, s.dev.issuing = none → s.dev.agenda = [] →
    step s = .next (passTime 1 s) ∧ (passTime 1 s).dev.ctime = s.dev.ctime + 1) ∧
  (∀ s x, step s ≠ .refused x) ∧
  (∀ s i major b, rawOf i = some (major, b) → s.dev.issuing = none → exec i s = .next s)

/-- The memory keeps its canonical form, local stores have one record a key with rising offsets, and the device has its
parts in their numbers (R16, R93): every step keeps them. -/
def Obligations.StepKeepsForm : Prop :=
  ∀ s t, step s = .next t → (s.MemOk → t.MemOk) ∧ (s.StoOk → t.StoOk) ∧ (s.dev.Sizes → t.dev.Sizes)

/-- Reset leaves the form of StepKeepsForm, and every field with a reset value in the spec at it: FOLDCFG 0x20 (R45), SPLIT 1
(R97), WAYPART 0x0000_FFFF (R101), servers none and ADMBOUND 0x0001_0000 (R321), OPSTAT with CEIL, TGT and CUR 6 (R335), OPTBL
enabled with the VMV of R333 (R336), GOVCFG (R337), DROOPCFG (R350), SLOPELIM (R351), THERMSTAT 0 (R353), STKCFG 0 (R365),
COLD 1 and FAIL 0 (R367), the mailbox idle (R371), banks empty (R383), MCCTL (R385). -/
def Obligations.Reset_values : Prop :=
  let d := State.reset.dev
  State.reset.MemOk ∧ State.reset.StoOk ∧ d.Sizes ∧
  (∀ n, (d.core n).foldcfg = 0x20) ∧ (∀ n, (d.vault n).split = 1) ∧ (∀ n < 64, d.waypart[n]? = some 0x0000FFFF) ∧
  d.servers = [] ∧ (∀ k < 5, ∀ i < kindRange k, d.bound k i = 0x00010000) ∧
  (∀ n, (d.die n).opstat = 6 * 2 ^ 16 + 6 * 2 ^ 12 + 6 * 2 ^ 8 + 6) ∧
  (List.range 13).map (fun i => d.mgmt.optblWord i) =
    [600, 615, 630, 650, 670, 695, 720, 750, 780, 815, 850, 895, 950].map (2 ^ 31 + ·) ∧
  d.mgmt.govcfg = BitVec.ofNat 32 (2 ^ 20 + 12 * 2 ^ 16 + 50) ∧
  (∀ n, (d.cluster n).droopcfg = BitVec.ofNat 32 (2 ^ 8 + 15) ∧
    (d.cluster n).slopelim = BitVec.ofNat 32 (4 * 2 ^ 8 + 4)) ∧
  d.mgmt.thermstat = 0 ∧ (∀ h, (d.stk h).trn = 0 ∧ (d.stk h).sridle = 0) ∧ d.mgmt.cold = true ∧ d.mgmt.failCode = 0 ∧
  d.mbox.state = 0 ∧ d.mbox.err = 0 ∧ (∀ n, d.bank n = ⟨0, 0, 0, 0⟩) ∧
  d.mgmt.mcctl = BitVec.ofNat 32 (0x10 * 2 ^ 16 + 24 * 2 ^ 8 + 24 * 2 ^ 2)
end

