-- ==== Sys2Proof/Laws/Commit.lean ====
section
/-! SUPPORT. What `commit` makes of each way to build an operation: later proofs run an operation by these equations and
never unfold a Delta. -/

namespace Sys2Proof.Machine

/-! ## Writes leave the device alone -/

@[simp] theorem State.applyWrite_dev (s : State) (w : Write) : (s.applyWrite w).dev = s.dev := by
  cases w <;> rfl

@[simp] theorem State.applyWrites_dev (s : State) (ws : List Write) : (s.applyWrites ws).dev = s.dev := by
  induction ws generalizing s with
  | nil => rfl
  | cons w ws ih => simpa [State.applyWrites] using ih (s.applyWrite w)

@[simp] theorem State.applyWrites_nil (s : State) : s.applyWrites [] = s := rfl

theorem State.applyWrites_append (s : State) (a b : List Write) :
    s.applyWrites (a ++ b) = (s.applyWrites a).applyWrites b := by
  simp [State.applyWrites, List.foldl_append]

/-- Writing bytes does not look at the device. -/
theorem State.applyWrite_withDev (s : State) (d : Dev) (w : Write) :
    State.applyWrite { s with dev := d } w = { s.applyWrite w with dev := d } := by
  cases w <;> rfl

theorem State.applyWrites_withDev (s : State) (d : Dev) (ws : List Write) :
    State.applyWrites { s with dev := d } ws = { s.applyWrites ws with dev := d } := by
  induction ws generalizing s with
  | nil => rfl
  | cons w ws ih =>
    simp only [State.applyWrites, List.foldl_cons] at ih ⊢
    rw [State.applyWrite_withDev]
    exact ih (s.applyWrite w)

@[simp] theorem State.apply_dev (s : State) (δ : Delta) : (s.apply δ).dev = δ.dev := rfl
@[simp] theorem State.apply_mem (s : State) (δ : Delta) : (s.apply δ).mem = (s.applyWrites δ.writes).mem := rfl
@[simp] theorem State.apply_sto (s : State) (δ : Delta) : (s.apply δ).sto = (s.applyWrites δ.writes).sto := rfl

/-- One change after another. -/
theorem State.apply_apply (s : State) (a b : Delta) :
    (s.apply a).apply b = s.apply ⟨b.dev, a.writes ++ b.writes, b.stop⟩ := by
  simp [State.apply, State.applyWrites_withDev, State.applyWrites_append]

/-! ## commit -/

theorem commit_next {a : Eff} {s t : State} :
    commit a s = .next t ↔ (a s).stop = none ∧ t = s.apply (a s) := by
  unfold commit
  split <;> simp_all [eq_comm]

/-- No operation answers with a refusal. -/
theorem commit_ne_refused (a : Eff) (s : State) (x : Refusal) : commit a s ≠ .refused x := by
  unfold commit
  split <;> simp

@[simp] theorem commit_skip (s : State) : commit skip s = .next s := rfl

@[simp] theorem commit_upd (f : Dev → Dev) (s : State) : commit (upd f) s = .next { s with dev := f s.dev } := rfl

@[simp] theorem commit_wr (ws : List Write) (s : State) : commit (wr ws) s = .next (s.applyWrites ws) := by
  have h := State.applyWrites_dev s ws
  unfold commit wr State.apply
  simp only
  rw [← h]

@[simp] theorem commit_halt (e : Fault) (s : State) : commit (halt e) s = .fault e := rfl

theorem commit_look (f : State → Eff) (s : State) : commit (look f) s = commit (f s) s := rfl

/-- One operation after another: the second runs from where the first has led. -/
theorem commit_andThen (a b : Eff) (s : State) :
    commit (a.andThen b) s =
      match commit a s with
      | .next t => commit b t
      | .fault e => .fault e
      | .refused x => .refused x := by
  unfold commit Eff.andThen
  cases h : (a s).stop with
  | some e => simp only [h]
  | none =>
    cases h2 : (b (s.apply (a s))).stop <;> simp only [h, h2, State.apply_apply]

theorem commit_andThen_of_next {a b : Eff} {s t : State} (h : commit a s = .next t) :
    commit (a.andThen b) s = commit b t := by
  rw [commit_andThen, h]

@[simp] theorem commit_withE_some {α : Type} (x : α) (f : α → Eff) (s : State) :
    commit (withE (some x) f) s = commit (f x) s := rfl

@[simp] theorem commit_withE_none {α : Type} (f : α → Eff) (s : State) :
    commit (withE none f) s = .next s := rfl

@[simp] theorem commit_whenE_true (a : Eff) (s : State) : commit (whenE true a) s = commit a s := rfl

@[simp] theorem commit_whenE_false (a : Eff) (s : State) : commit (whenE false a) s = .next s := rfl

@[simp] theorem commit_forE_nil {α : Type} (f : α → Eff) (s : State) : commit (forE [] f) s = .next s := rfl

theorem commit_forE_cons {α : Type} (x : α) (l : List α) (f : α → Eff) (s : State) :
    commit (forE (x :: l) f) s =
      match commit (f x) s with
      | .next t => commit (forE l f) t
      | .fault e => .fault e
      | .refused r => .refused r := by
  cases l with
  | nil =>
    simp only [forE, List.map, seqE]
    cases commit (f x) s <;> rfl
  | cons y l => simpa [forE, seqE] using commit_andThen (f x) (forE (y :: l) f) s

@[simp] theorem commit_updT (r : TRef) (g : Thread → Thread) (s : State) :
    commit (updT r g) s = .next { s with dev := s.dev.modThread r g } := rfl

end Sys2Proof.Machine
end

