-- ==== Sys2Proof/Laws/Effects.lean ====
section
/-! SUPPORT. Two things that hold of an operation by its parts: that it never stops, and that it relates the device before
and after as a reflexive and transitive relation does; and so for the operations that every agent shares. -/

namespace Sys2Proof.Machine

/-! ## Operations that never stop -/

/-- The operation stops in no state. -/
def Eff.Calm (a : Eff) : Prop := ∀ s, (a s).stop = none

theorem Eff.Calm.next {a : Eff} (h : a.Calm) (s : State) : commit a s = .next (s.apply (a s)) :=
  commit_next.2 ⟨h s, rfl⟩

theorem calm_skip : skip.Calm := fun _ => rfl
theorem calm_upd (f : Dev → Dev) : (upd f).Calm := fun _ => rfl
theorem calm_wr (ws : List Write) : (wr ws).Calm := fun _ => rfl
theorem calm_look {f : State → Eff} (h : ∀ s, (f s).Calm) : (look f).Calm := fun s => h s s

theorem calm_andThen {a b : Eff} (ha : a.Calm) (hb : b.Calm) : (a.andThen b).Calm := by
  intro s
  simp only [Eff.andThen, ha s, hb _]

theorem calm_seqE {l : List Eff} (h : ∀ a ∈ l, a.Calm) : (seqE l).Calm := by
  induction l with
  | nil => exact calm_skip
  | cons a r ih =>
    cases r with
    | nil => exact h a (by simp)
    | cons b r => exact calm_andThen (h a (by simp)) (ih fun x hx => h x (by simp [List.mem_cons.1 hx]))

theorem calm_forE {α : Type} {l : List α} {f : α → Eff} (h : ∀ x ∈ l, (f x).Calm) : (forE l f).Calm := by
  refine calm_seqE fun a ha => ?_
  obtain ⟨x, hx, rfl⟩ := List.mem_map.1 ha
  exact h x hx

theorem calm_whenE {b : Bool} {a : Eff} (h : a.Calm) : (whenE b a).Calm := by
  cases b
  · exact calm_skip
  · exact h

theorem calm_withE {α : Type} {o : Option α} {f : α → Eff} (h : ∀ x, (f x).Calm) : (withE o f).Calm := by
  cases o
  · exact calm_skip
  · exact h _

/-! ## Operations under a relation of devices -/

/-- The device after the operation stands in `R` to the device before. -/
def Eff.Keeps (R : Dev → Dev → Prop) (a : Eff) : Prop := ∀ s, R s.dev (a s).dev

/-- What makes a relation pass through composition. -/
structure Steady (R : Dev → Dev → Prop) : Prop where
  refl : ∀ d, R d d
  trans : ∀ d e f, R d e → R e f → R d f

theorem Steady.eq {α : Type} (p : Dev → α) : Steady (fun d e => p e = p d) :=
  ⟨fun _ => rfl, fun _ _ _ h k => k.trans h⟩

theorem Steady.inv (p : Dev → Prop) : Steady (fun d e => p d → p e) := ⟨fun _ h => h, fun _ _ _ h k x => k (h x)⟩

section
variable {R : Dev → Dev → Prop}

/-- The device after a commit. -/
theorem Eff.Keeps.next {a : Eff} (h : a.Keeps R) {s t : State} (ht : commit a s = .next t) : R s.dev t.dev := by
  obtain ⟨-, rfl⟩ := commit_next.1 ht
  exact h s

theorem keeps_skip (h : Steady R) : skip.Keeps R := fun s => h.refl s.dev
theorem keeps_wr (h : Steady R) (ws : List Write) : (wr ws).Keeps R := fun s => h.refl s.dev
theorem keeps_halt (h : Steady R) (e : Fault) : (halt e).Keeps R := fun s => h.refl s.dev
theorem keeps_upd {f : Dev → Dev} (hf : ∀ d, R d (f d)) : (upd f).Keeps R := fun s => hf s.dev
theorem keeps_look {f : State → Eff} (hf : ∀ s, (f s).Keeps R) : (look f).Keeps R := fun s => hf s s

theorem keeps_andThen (h : Steady R) {a b : Eff} (ha : a.Keeps R) (hb : b.Keeps R) : (a.andThen b).Keeps R := by
  intro s
  have h1 := ha s
  have h2 := hb (s.apply (a s))
  unfold Eff.andThen
  cases hs : (a s).stop with
  | some _ => simpa only [hs] using h1
  | none => simpa only [hs] using h.trans _ _ _ h1 h2

theorem keeps_seqE (h : Steady R) {l : List Eff} (hl : ∀ a ∈ l, a.Keeps R) : (seqE l).Keeps R := by
  induction l with
  | nil => exact keeps_skip h
  | cons a r ih =>
    cases r with
    | nil => exact hl a (by simp)
    | cons b r => exact keeps_andThen h (hl a (by simp)) (ih fun x hx => hl x (by simp [List.mem_cons.1 hx]))

theorem keeps_forE (h : Steady R) {α : Type} {l : List α} {f : α → Eff} (hf : ∀ x ∈ l, (f x).Keeps R) :
    (forE l f).Keeps R := by
  refine keeps_seqE h fun a ha => ?_
  obtain ⟨x, hx, rfl⟩ := List.mem_map.1 ha
  exact hf x hx

theorem keeps_whenE (h : Steady R) {b : Bool} {a : Eff} (ha : a.Keeps R) : (whenE b a).Keeps R := by
  cases b
  · exact keeps_skip h
  · exact ha

theorem keeps_withE (h : Steady R) {α : Type} {o : Option α} {f : α → Eff} (hf : ∀ x, (f x).Keeps R) :
    (withE o f).Keeps R := by
  cases o
  · exact keeps_skip h
  · exact hf _

end

/-! ## Host events and banks (R359, R384) -/

theorem calm_putEvent (q : Nat) (e : Event) : (putEvent q e).Calm :=
  calm_look fun _ => calm_andThen (calm_wr _) (calm_upd _)

/-- Raising an event never stops. -/
theorem calm_postEvent (q : Nat) (e : Event) : (postEvent q e).Calm := by
  refine calm_look fun s => ?_
  dsimp only
  split
  · exact calm_putEvent _ _
  · split
    · exact calm_upd _
    · split <;> exact calm_upd _

/-- Recording a fault never stops. -/
theorem calm_bankRecord (bank cls : Nat) (ctx : Option Nat) (code inst : Nat) (addr synd : W64) :
    (bankRecord bank cls ctx code inst addr synd).Calm := by
  refine calm_look fun s => ?_
  dsimp only
  split
  · exact calm_andThen (calm_upd _) (calm_andThen (calm_upd _) (calm_postEvent _ _))
  · exact calm_upd _

theorem calm_eccRecord (bank cls : Nat) (ctx : Option Nat) (code inst : Nat) (addr : W64) :
    (eccRecord bank cls ctx code inst addr).Calm := calm_look fun _ => calm_andThen (calm_bankRecord _ _ _ _ _ _ _) (calm_upd _)

theorem calm_lineMarks (ln : Nat) : (lineMarks ln).Calm := by
  refine calm_look fun s => calm_seqE fun a ha => ?_
  simp only [List.mem_cons, List.not_mem_nil, or_false] at ha
  rcases ha with rfl | rfl
  · exact calm_forE fun _ _ => calm_eccRecord _ _ _ _ _ _
  · exact calm_upd _

/-! ## Slices (R98-R102) -/

theorem calm_writeBack (l : Line) : (writeBack l).Calm :=
  calm_andThen (calm_lineMarks _) (calm_andThen (calm_wr _) (calm_upd _))
theorem calm_watchCheck (v : Nat) (loc : Loc) (n : Nat) : (watchCheck v loc n).Calm := calm_look fun _ => calm_upd _
theorem calm_touchLine (ln : Nat) : (touchLine ln).Calm := calm_upd _

theorem calm_allocLine (w : Who) (l ln : Nat) (st : LineSt) (data : List Byte) : (allocLine w l ln st data).Calm := by
  refine calm_look fun s => ?_
  dsimp only
  split
  · exact calm_skip
  · split
    · exact calm_upd _
    · split
      · exact calm_andThen (calm_upd _) (calm_upd _)
      · exact calm_andThen (calm_writeBack _) (calm_andThen (calm_upd _) (calm_upd _))

theorem calm_fillMarks (ctx : Option Nat) (ln : Nat) : (fillMarks ctx ln).Calm :=
  calm_look fun _ => calm_forE fun _ _ => calm_andThen (calm_eccRecord _ _ _ _ _ _) (calm_upd _)

/-- A write at a slice never stops. -/
theorem calm_sliceWriteE (w : Who) (k : WrKind) (pa : Nat) (bs : List Byte) : (sliceWriteE w k pa bs).Calm := by
  refine calm_look fun s => ?_
  dsimp only
  have hset : ∀ (f : Dev → Dev) n, ((upd f).andThen (touchLine n)).Calm :=
    fun f n => calm_andThen (calm_upd f) (calm_touchLine n)
  refine calm_andThen (calm_upd _) (calm_andThen ?_ (calm_watchCheck _ _ _))
  repeat' first
    | with_reducible exact hset _ _
    | with_reducible exact calm_andThen (calm_writeBack _) (hset _ _)
    | with_reducible exact calm_allocLine _ _ _ _ _
    | with_reducible exact calm_andThen (calm_upd _) (calm_allocLine _ _ _ _ _)
    | with_reducible exact calm_andThen (calm_upd _) (calm_andThen (calm_whenE (calm_fillMarks _ _)) (calm_allocLine _ _ _ _ _))
    | with_reducible exact calm_skip
    | with_reducible exact calm_andThen (calm_wr _) (calm_upd _)
    | split

theorem calm_containedNone (bank code inst : Nat) (addr synd : W64) : (containedNone bank code inst addr synd).Calm :=
  calm_look fun _ => calm_andThen (calm_bankRecord _ _ _ _ _ _ _) (calm_postEvent _ _)

/-- A unit's write within a line never stops. -/
theorem calm_lineWrite (w : Who) (k : WrKind) (pa : Nat) (bs : List Byte) : (lineWrite w k pa bs).Calm := by
  refine calm_look fun s => ?_
  dsimp only
  split
  · exact calm_andThen (calm_containedNone _ _ _ _ _) (calm_upd _)
  · exact calm_sliceWriteE _ _ _ _

/-- A write at a physical address never stops. -/
theorem calm_physPut (w : Who) (k : WrKind) (pa : Nat) (bs : List Byte) : (physPut w k pa bs).Calm := by
  unfold physPut
  split
  · exact calm_wr _
  · dsimp only
    refine calm_andThen (calm_lineWrite _ _ _ _) ?_
    split
    · exact calm_lineWrite _ _ _ _
    · exact calm_skip

theorem calm_physWrite (pa : Nat) (bs : List Byte) : (physWrite pa bs).Calm := calm_physPut _ _ _ _

/-- A read at a slice never stops. -/
theorem calm_sliceReadE (w : Who) (pa : Nat) : (sliceReadE w pa).Calm := by
  refine calm_look fun s => ?_
  dsimp only
  refine calm_andThen (calm_upd _) ?_
  repeat' first
    | with_reducible exact calm_andThen (calm_upd _) (calm_watchCheck _ _ _)
    | with_reducible exact calm_touchLine _
    | with_reducible exact calm_andThen (calm_upd _) (calm_andThen (calm_fillMarks _ _) (calm_allocLine _ _ _ _ _))
    | with_reducible exact calm_upd _
    | split

/-- What a slice leaves as it is: everything but vaults, DRAM queues, requests, the nodes that watches wake, and what faults
of stored bits leave in the banks, their marks and the host's event queues. -/
structure SliceKeeps (d e : Dev) : Prop where
  rest : { e with vaults := d.vaults, stks := d.stks, reqs := d.reqs, ctxs := d.ctxs, banks := d.banks, marks := d.marks,
                  free := d.free, queues := d.queues, mgmt := d.mgmt, seen := d.seen } = d
  vaults : e.vaults.length = d.vaults.length
  stks : e.stks.length = d.stks.length
  banks : e.banks.length = d.banks.length
  queues : e.queues.length = d.queues.length
  mgmt : { e.mgmt with cePosted := d.mgmt.cePosted } = d.mgmt
  ctxs : e.ctxs.map (fun c => { c with step := none }) = d.ctxs.map (fun c => { c with step := none })

theorem sliceKeeps_steady : Steady SliceKeeps where
  refl d := ⟨rfl, rfl, rfl, rfl, rfl, rfl, rfl⟩
  trans d e f h k := ⟨by rw [← h.rest, ← k.rest], k.vaults.trans h.vaults, k.stks.trans h.stks, k.banks.trans h.banks,
    k.queues.trans h.queues, by rw [← h.mgmt, ← k.mgmt], k.ctxs.trans h.ctxs⟩

theorem sliceKeeps_modVault (d : Dev) (n : Nat) (g : Vault → Vault) : SliceKeeps d (d.modVault n g) :=
  ⟨rfl, by simp [Dev.modVault], rfl, rfl, rfl, rfl, rfl⟩
theorem sliceKeeps_modStk (d : Dev) (n : Nat) (g : Stack → Stack) : SliceKeeps d (d.modStk n g) :=
  ⟨rfl, rfl, by simp [Dev.modStk], rfl, rfl, rfl, rfl⟩
theorem sliceKeeps_modReq (d : Dev) (n : Nat) (g : Req → Req) : SliceKeeps d (d.modReq n g) :=
  ⟨rfl, rfl, rfl, rfl, rfl, rfl, rfl⟩
theorem sliceKeeps_modQueue (d : Dev) (n : Nat) (g : EvQueue → EvQueue) : SliceKeeps d (d.modQueue n g) :=
  ⟨rfl, rfl, rfl, rfl, by simp [Dev.modQueue], rfl, rfl⟩
theorem sliceKeeps_marks (d : Dev) (ms : List Mark) : SliceKeeps d { d with marks := ms } := ⟨rfl, rfl, rfl, rfl, rfl, rfl, rfl⟩
theorem sliceKeeps_dropLine (d : Dev) (ln : Nat) : SliceKeeps d (d.dropLine ln) :=
  sliceKeeps_steady.trans _ _ _ (sliceKeeps_modVault d _ _) (sliceKeeps_marks _ _)

theorem sliceKeeps_modCtx (d : Dev) (n : Nat) (g : Ctx → Ctx)
    (hg : ∀ c, ({ g c with step := none } : Ctx) = { c with step := none }) : SliceKeeps d (d.modCtx n g) := by
  refine ⟨rfl, rfl, rfl, rfl, rfl, rfl, ?_⟩
  apply List.ext_getElem?
  intro i
  simp only [Dev.modCtx, List.getElem?_map, List.getElem?_modify]
  cases d.ctxs[i]? with
  | none => rfl
  | some c =>
    by_cases h : n = i
    · simp [h, hg]
    · simp [h]

theorem sliceKeeps_dramAsk (w : Who) (pa n : Nat) (d : Dev) : SliceKeeps d (dramAsk w pa n d) := by
  unfold dramAsk
  dsimp only
  split
  · exact sliceKeeps_steady.trans _ _ _ (sliceKeeps_modStk _ _ _) (sliceKeeps_modReq _ _ _)
  · exact sliceKeeps_modStk _ _ _

theorem sliceKeeps_wake (e : WatchEnt) (val : List Byte) (d : Dev) : SliceKeeps d (wake e val d) := by
  unfold wake
  split
  · exact sliceKeeps_modReq _ _ _
  · exact sliceKeeps_modCtx _ _ _ fun _ => rfl

theorem sliceKeeps_touched (w : Who) (ln : Nat) (d : Dev) : SliceKeeps d (touched w ln d) :=
  ⟨rfl, rfl, rfl, rfl, rfl, rfl, rfl⟩

theorem keeps_devicePost (q : Nat) (e : Event) (h : e.ctx = 0xFF) : (postEvent q e).Keeps SliceKeeps := by
  refine keeps_look fun s => ?_
  dsimp only
  split
  · exact keeps_look fun _ => keeps_andThen sliceKeeps_steady (keeps_wr sliceKeeps_steady _)
      (keeps_upd fun _ => sliceKeeps_modQueue _ _ _)
  · split
    · exact keeps_upd fun _ => sliceKeeps_modQueue _ _ _
    · exact keeps_upd fun _ => sliceKeeps_modQueue _ _ _

theorem keeps_bankRecord (bank cls : Nat) (ctx : Option Nat) (code inst : Nat) (addr synd : W64) :
    (bankRecord bank cls ctx code inst addr synd).Keeps SliceKeeps := by
  have hs := sliceKeeps_steady
  refine keeps_look fun s => ?_
  dsimp only
  split
  · exact keeps_andThen hs (keeps_upd fun _ => ⟨rfl, rfl, rfl, by simp, rfl, rfl, rfl⟩)
      (keeps_andThen hs (keeps_upd fun _ => ⟨rfl, rfl, rfl, rfl, rfl, rfl, rfl⟩) (keeps_devicePost _ _ rfl))
  · exact keeps_upd fun _ => ⟨rfl, rfl, rfl, by simp, rfl, rfl, rfl⟩

theorem keeps_eccRecord (bank cls : Nat) (ctx : Option Nat) (code inst : Nat) (addr : W64) :
    (eccRecord bank cls ctx code inst addr).Keeps SliceKeeps :=
  keeps_look fun _ => keeps_andThen sliceKeeps_steady (keeps_bankRecord _ _ _ _ _ _ _)
    (keeps_upd fun _ => ⟨rfl, rfl, rfl, rfl, rfl, rfl, rfl⟩)

theorem keeps_lineMarks (ln : Nat) : (lineMarks ln).Keeps SliceKeeps := by
  refine keeps_look fun s => keeps_seqE sliceKeeps_steady fun a ha => ?_
  simp only [List.mem_cons, List.not_mem_nil, or_false] at ha
  rcases ha with rfl | rfl
  · exact keeps_forE sliceKeeps_steady fun _ _ => keeps_eccRecord _ _ _ _ _ _
  · exact keeps_upd fun _ => sliceKeeps_marks _ _

theorem keeps_writeBack (l : Line) : (writeBack l).Keeps SliceKeeps :=
  keeps_andThen sliceKeeps_steady (keeps_lineMarks _)
    (keeps_andThen sliceKeeps_steady (keeps_wr sliceKeeps_steady _) (keeps_upd (sliceKeeps_dramAsk _ _ _)))

theorem keeps_watchCheck (v : Nat) (loc : Loc) (n : Nat) : (watchCheck v loc n).Keeps SliceKeeps := by
  refine keeps_look fun s => keeps_upd fun d => ?_
  have h : ∀ (es : List WatchEnt) (d0 : Dev),
      SliceKeeps d0 (es.foldl (fun d e => wake e (s.point e.loc e.n) d) d0) := by
    intro es
    induction es with
    | nil => exact fun d0 => sliceKeeps_steady.refl d0
    | cons e es ih => exact fun d0 => sliceKeeps_steady.trans _ _ _ (sliceKeeps_wake _ _ _) (ih _)
  exact sliceKeeps_steady.trans _ _ _ (sliceKeeps_modVault _ _ _) (h _ _)

theorem keeps_touchLine (ln : Nat) : (touchLine ln).Keeps SliceKeeps := keeps_upd fun _ => sliceKeeps_modVault _ _ _

theorem keeps_allocLine (w : Who) (l ln : Nat) (st : LineSt) (data : List Byte) :
    (allocLine w l ln st data).Keeps SliceKeeps := by
  have hv : ∀ n g, (upd (fun d => d.modVault n g)).Keeps SliceKeeps := fun n g => keeps_upd fun _ => sliceKeeps_modVault _ _ _
  have hd : ∀ {l}, (upd (fun d => d.dropLine l)).Keeps SliceKeeps := fun {l} => keeps_upd fun _ => sliceKeeps_dropLine _ _
  refine keeps_look fun s => ?_
  dsimp only
  split
  · exact keeps_skip sliceKeeps_steady
  · split
    · exact hv _ _
    · split
      · exact keeps_andThen sliceKeeps_steady hd (hv _ _)
      · exact keeps_andThen sliceKeeps_steady (keeps_writeBack _) (keeps_andThen sliceKeeps_steady hd (hv _ _))

theorem keeps_fillMarks (ctx : Option Nat) (ln : Nat) : (fillMarks ctx ln).Keeps SliceKeeps :=
  keeps_look fun _ => keeps_forE sliceKeeps_steady fun _ _ => keeps_andThen sliceKeeps_steady (keeps_eccRecord _ _ _ _ _ _)
    (keeps_upd fun _ => sliceKeeps_marks _ _)

/-- A write at a slice changes only what SliceKeeps leaves open. -/
theorem keeps_sliceWriteE (w : Who) (k : WrKind) (pa : Nat) (bs : List Byte) : (sliceWriteE w k pa bs).Keeps SliceKeeps := by
  have ht := sliceKeeps_steady
  have hset : ∀ n g ln, ((upd (fun d => d.modVault n g)).andThen (touchLine ln)).Keeps SliceKeeps :=
    fun n g ln => keeps_andThen ht (keeps_upd fun _ => sliceKeeps_modVault _ _ _) (keeps_touchLine ln)
  have hfill : ∀ b x, (whenE b (fillMarks w.owner x)).Keeps SliceKeeps :=
    fun _ _ => keeps_whenE ht (keeps_fillMarks _ _)
  refine keeps_look fun s => ?_
  dsimp only
  refine keeps_andThen ht (keeps_upd (sliceKeeps_touched _ _)) (keeps_andThen ht ?_ (keeps_watchCheck _ _ _))
  repeat' first
    | with_reducible exact hfill _ _
    | with_reducible exact hset _ _ _
    | with_reducible exact keeps_andThen ht (keeps_writeBack _) (hset _ _ _)
    | with_reducible exact keeps_allocLine _ _ _ _ _
    | with_reducible exact keeps_andThen ht (keeps_upd (sliceKeeps_dramAsk _ _ _)) (keeps_allocLine _ _ _ _ _)
    | with_reducible refine keeps_andThen ht (keeps_upd (sliceKeeps_dramAsk _ _ _)) ?_
    | with_reducible refine keeps_andThen ht (keeps_whenE ht (keeps_fillMarks _ _)) ?_
    | with_reducible exact keeps_skip ht
    | with_reducible exact keeps_andThen ht (keeps_wr ht _) (keeps_upd (sliceKeeps_dramAsk _ _ _))
    | split

/-- The record and the event of a lost request, too. -/
theorem keeps_containedNone (bank code inst : Nat) (addr synd : W64) :
    (containedNone bank code inst addr synd).Keeps SliceKeeps :=
  keeps_look fun _ => keeps_andThen sliceKeeps_steady (keeps_bankRecord _ _ _ _ _ _ _) (keeps_devicePost _ _ rfl)

theorem keeps_lineWrite (w : Who) (k : WrKind) (pa : Nat) (bs : List Byte) : (lineWrite w k pa bs).Keeps SliceKeeps := by
  refine keeps_look fun s => ?_
  dsimp only
  split
  · exact keeps_andThen sliceKeeps_steady (keeps_containedNone _ _ _ _ _) (keeps_upd fun _ => ⟨rfl, rfl, rfl, rfl, rfl, rfl, rfl⟩)
  · exact keeps_sliceWriteE _ _ _ _

/-- The same of a write at a physical address. -/
theorem keeps_physPut (w : Who) (k : WrKind) (pa : Nat) (bs : List Byte) : (physPut w k pa bs).Keeps SliceKeeps := by
  unfold physPut
  split
  · exact keeps_wr sliceKeeps_steady _
  · dsimp only
    refine keeps_andThen sliceKeeps_steady (keeps_lineWrite _ _ _ _) ?_
    split
    · exact keeps_lineWrite _ _ _ _
    · exact keeps_skip sliceKeeps_steady

theorem keeps_physWrite (pa : Nat) (bs : List Byte) : (physWrite pa bs).Keeps SliceKeeps := keeps_physPut _ _ _ _

theorem SliceKeeps.flocks {d e : Dev} (h : SliceKeeps d e) : e.flocks = d.flocks := by rw [← h.rest]
theorem SliceKeeps.servers {d e : Dev} (h : SliceKeeps d e) : e.servers = d.servers := by rw [← h.rest]
theorem SliceKeeps.tlbs {d e : Dev} (h : SliceKeeps d e) : e.tlbs = d.tlbs := by rw [← h.rest]
theorem SliceKeeps.cores {d e : Dev} (h : SliceKeeps d e) : e.cores = d.cores := by rw [← h.rest]
theorem SliceKeeps.issuing {d e : Dev} (h : SliceKeeps d e) : e.issuing = d.issuing := by rw [← h.rest]

/-! ## Stops (R387) -/

theorem calm_discard (p : Flock → Bool) : (discard p).Calm := calm_look fun _ => calm_andThen (calm_upd _) (calm_wr _)

theorem calm_flushLine (ln : Nat) : (flushLine ln).Calm := by
  refine calm_look fun s => ?_
  dsimp only
  split
  · exact calm_skip
  · split
    · exact calm_upd _
    · exact calm_andThen (calm_writeBack _) (calm_upd _)

theorem calm_blurSave (k : Nat) : (blurSave k).Calm := by
  refine calm_look fun s => ?_
  dsimp only
  split
  · exact calm_skip
  · refine calm_seqE fun a ha => ?_
    simp only [List.mem_cons, List.not_mem_nil, or_false] at ha
    rcases ha with rfl | rfl | rfl
    · exact calm_forE fun _ _ => calm_flushLine _
    · exact calm_wr _
    · exact calm_upd _

theorem calm_setCState (k : Nat) (c : CState) : (setCState k c).Calm :=
  calm_look fun _ => calm_andThen (calm_upd _) (calm_whenE (calm_physWrite _ _))

/-- A contained stop never stops the machine. -/
theorem calm_contained (k bank code inst : Nat) (addr synd : W64) : (contained k bank code inst addr synd).Calm := by
  refine calm_andThen (calm_bankRecord _ _ _ _ _ _ _) (calm_look fun s => ?_)
  split
  · exact calm_skip
  · refine calm_seqE fun a ha => ?_
    simp only [List.mem_cons, List.not_mem_nil, or_false] at ha
    rcases ha with rfl | rfl | rfl | rfl | rfl | rfl
    · exact calm_blurSave _
    · exact calm_discard _
    · exact calm_wr _
    · exact calm_upd _
    · exact calm_upd _
    · exact calm_setCState _ _

/-! ## Ending a thread, and traps (R47, R398, R401) -/

theorem calm_barCheck (c l : Nat) : (barCheck c l).Calm := by
  refine calm_look fun s => calm_withE fun f => ?_
  split
  · exact calm_upd _
  · exact calm_skip

theorem calm_hbarCheck (c l : Nat) : (hbarCheck c l).Calm := by
  refine calm_look fun s => calm_withE fun f => ?_
  dsimp only
  split
  · exact calm_upd _
  · exact calm_skip

theorem calm_barriers (c l : Nat) : (barriers c l).Calm := calm_andThen (calm_barCheck c l) (calm_hbarCheck c l)

/-- Ending a thread never stops. -/
theorem calm_retire (r : TRef) (e : Ended) : (retire r e).Calm := by
  unfold retire
  split
  · exact calm_upd _
  · exact calm_andThen (calm_upd _) (calm_barriers _ _)

/-- Taking a trap never stops the machine. -/
theorem calm_takeTrap (r : TRef) (code sub : Nat) (addr pc : W64) : (takeTrap r code sub addr pc).Calm := by
  refine calm_look fun s => calm_withE fun f => calm_withE fun th => ?_
  dsimp only
  split
  · exact calm_retire _ _
  · split
    · exact calm_contained _ _ _ _ _ _
    · exact calm_upd _

theorem calm_trapHere (r : TRef) (code sub : Nat) (addr : W64) : (trapHere r code sub addr).Calm :=
  calm_look fun _ => calm_withE fun _ => calm_takeTrap _ _ _ _ _

end Sys2Proof.Machine
end

