-- ==== Sys2Proof/Laws/Exec.lean ====
section
/-! SUPPORT. Every instruction is an operation that `commit` runs; a word is one that its group issues. -/

namespace Sys2Proof.Machine

/-- A word of Swester is issued for the chosen group. -/
theorem exec_word {i : Instr} {major : Nat} {b : Body} (h : rawOf i = some (major, b)) :
    ∃ m, ∀ s, exec i s = commit (issue major b m) s := by
  cases i <;> cases h <;> exact ⟨_, fun _ => rfl⟩

/-- Every instruction is an operation on the state. -/
theorem exec_commit (i : Instr) : ∃ a, ∀ s, exec i s = commit a s := by
  cases i <;> first
    | exact ⟨_, fun _ => rfl⟩
    | (unfold exec
       simp only [execReconvHoldExpire, execYieldExpire, execSleepWake, execMulticastRecordExpire, execVoltageRampDone,
         execDividerStep, execCeilWrite, execMgmtTableWrite, execDroopAlarm, execDroopStretchEnd, execDroopResponseEnd,
         execWarnCeilStep, execPowerMeasure, execPowerLimitThrottle, execFwHeartbeat, execBankClear, execSelftestAbandon,
         execMoveStart, execSpdmRequest, execColdStart, execPowerLimitRelease]
       exact ⟨_, fun _ => rfl⟩)

/-- No instruction refuses. -/
theorem exec_ne_refused (i : Instr) (s : State) (x : Refusal) : exec i s ≠ .refused x := by
  obtain ⟨a, h⟩ := exec_commit i
  rw [h]
  exact commit_ne_refused a s x

/-- What a next state is: the state after the operation's change. -/
theorem exec_next {i : Instr} {s t : State} (h : exec i s = .next t) : ∃ δ : Delta, t = s.apply δ := by
  obtain ⟨a, ha⟩ := exec_commit i
  rw [ha] at h
  exact ⟨a s, (commit_next.1 h).2⟩

end Sys2Proof.Machine
end

