-- ==== Sys2Proof/Laws/Issue.lean ====
section
/-! SUPPORT. How a group issues: a word whose effect is a change of its own thread changes every member so, and nothing
else. -/

namespace Sys2Proof.Machine

/-! ## Threads by reference after a change of one -/

/-- What a change of threads and instance leaves of a flock. -/
def Flock.Like (f f' : Flock) : Prop := ∃ ths inst, f' = { f with threads := ths, inst := inst }

theorem Flock.Like.refl (f : Flock) : f.Like f := ⟨f.threads, f.inst, rfl⟩

theorem Flock.Like.trans {f f' f'' : Flock} (h : f.Like f') (h' : f'.Like f'') : f.Like f'' := by
  obtain ⟨a, b, rfl⟩ := h
  obtain ⟨c, d, rfl⟩ := h'
  exact ⟨c, d, rfl⟩

theorem Flock.modThread_like (f : Flock) (t : Nat) (g : Thread → Thread) : f.Like (f.modThread t g) := by
  unfold Flock.modThread
  split
  · exact ⟨f.threads, f.inst.map g, rfl⟩
  · exact ⟨_, f.inst, rfl⟩

theorem find?_map_keep {α : Type} (l : List α) (p : α → Bool) (g : α → α) (h : ∀ x, p (g x) = p x) :
    (l.map g).find? p = (l.find? p).map g := by
  induction l with
  | nil => rfl
  | cons x l ih =>
    simp only [List.map_cons, List.find?_cons, h]
    split
    · rfl
    · exact ih

/-- The thread of another number is as before. -/
theorem Flock.modThread_other (f : Flock) {t t' : Nat} (ht : t ≠ t') (g : Thread → Thread)
    (hg : ∀ x, (g x).t = x.t) : (f.modThread t g).thread? t' = f.thread? t' := by
  unfold Flock.modThread Flock.thread?
  by_cases h1 : t = instId
  · have h2 : t' ≠ instId := fun h => ht (h1.trans h.symm)
    simp [h1, h2]
  · by_cases h2 : t' = instId
    · simp [h1, h2]
    · simp only [h1, h2, if_false]
      rw [find?_map_keep]
      · cases hf : f.threads.find? (fun x => decide (x.t = t')) with
        | none => rfl
        | some y =>
          have hy : y.t = t' := by simpa using List.find?_some hf
          have : y.t ≠ t := fun h => ht (h.symm.trans hy)
          simp [this]
      · intro x
        by_cases hx : x.t = t <;> simp [hx, hg]

/-- The flock found is the first of its core and slot, changed if it holds the thread. -/
theorem Dev.modThread_flock? (d : Dev) (r : TRef) (g : Thread → Thread) (c sl : Nat) :
    (d.modThread r g).flock? c sl =
      (d.flock? c sl).map (fun f => if f.core = r.core ∧ f.slot = r.slot then f.modThread r.t g else f) := by
  unfold Dev.modThread Dev.modFlock Dev.flock?
  apply find?_map_keep
  intro f
  split
  · obtain ⟨ths, inst, h⟩ := f.modThread_like r.t g
    simp [h]
  · rfl

/-- A member of a group is as before when another thread changes; its flock differs in threads alone. -/
theorem memberOf_modThread {s : State} {g : Group} {r r' : TRef} {f : Flock} {th : Thread} (hr : r ≠ r')
    (k : Thread → Thread) (hk : ∀ x, (k x).t = x.t) (h : memberOf s g r' = some (f, th)) :
    ∃ f', f.Like f' ∧ memberOf { s with dev := s.dev.modThread r k } g r' = some (f', th) := by
  unfold memberOf at h ⊢
  simp only [Dev.modThread_flock?]
  cases hf : s.dev.flock? r'.core r'.slot with
  | none => simp [hf] at h
  | some f0 =>
    simp only [hf, Option.bind_some, Option.map_some] at h ⊢
    cases ht : f0.thread? r'.t with
    | none => simp [ht] at h
    | some th0 =>
      simp only [ht, Option.bind_some] at h
      split at h
      · rename_i hc
        obtain ⟨rfl, rfl⟩ : f0 = f ∧ th0 = th := by simpa using h
        have hcs : f0.core = r'.core ∧ f0.slot = r'.slot := by
          simpa [Dev.flock?] using List.find?_some hf
        by_cases hs : f0.core = r.core ∧ f0.slot = r.slot
        · have htt : r.t ≠ r'.t := by
            intro he
            apply hr
            cases r; cases r'
            simp_all
          refine ⟨f0.modThread r.t k, f0.modThread_like r.t k, ?_⟩
          simp only [hs, and_self, if_true, Flock.modThread_other f0 htt k hk, ht, Option.bind_some]
          obtain ⟨ths, inst, hl⟩ := f0.modThread_like r.t k
          rw [hl]
          simp [hc]
        · refine ⟨f0, Flock.Like.refl f0, ?_⟩
          simp only [hs, if_false, ht, Option.bind_some]
          simp [hc]
      · simp at h

/-! ## One member -/

/-- What a member sees when its turn comes: the group's state at issue, but for the threads of members before it. -/
structure Turned (s : State) (g : Group) (major : Nat) (b : Body) (row : Row) (v : Env) : Prop where
  s0 : v.s0 = s
  major : v.major = major
  b : v.b = b
  row : v.row = row
  grp : v.grp = g
  flock : v.f0.Like v.f
  dev : ∃ fl, v.s = { s with dev := { s.dev with issuing := none, flocks := fl } }
  member : v.r ∈ g.members
  stands : memberOf s g v.r = some (v.f0, v.th)
  now : memberOf v.s g v.r = some (v.f, v.th)

/-- The environment of a member at the issue, with what other members have changed before its turn. -/
def Env.turn (v : Env) (fl : List Flock) (ths : List Thread) (inst : Option Thread) : Env :=
  { v with s := { v.s with dev := { v.s.dev with issuing := none, flocks := fl } },
           f := { v.f with threads := ths, inst := inst } }

/-- A turned member in terms of its environment at the issue. -/
theorem Turned.eq {s : State} {g : Group} {major : Nat} {b : Body} {row : Row} {v : Env}
    (h : Turned s g major b row v) :
    ∃ fl ths inst, v = (envAt s g major b row v.r v.f0 v.th).turn fl ths inst := by
  obtain ⟨vs, vs0, vf0, vr, vf, vth, vmajor, vb, vrow, vgrp⟩ := v
  obtain ⟨h0, h1, h2, h3, h4, ⟨ths, inst, hl⟩, ⟨fl, hd⟩, -, -, -⟩ := h
  simp only at h0 h1 h2 h3 h4 hl hd
  subst h0 h1 h2 h3 h4 hl hd
  exact ⟨fl, ths, inst, rfl⟩

/-- Nothing but a flock's threads and instance enters into whether a word goes on, for every word but QPOP. -/
theorem stays_like {v : Env} {ths : List Thread} {inst : Option Thread} (hq : v.major ≠ 0xB4) :
    Env.stays { v with f := { v.f with threads := ths, inst := inst } } = v.stays := by
  unfold Env.stays
  simp only
  split <;> first | rfl | exact absurd (by assumption) hq

/-- A member that performs the word meets the instruction itself. -/
theorem stepMember_performs {u : Env} {fl : List Flock} {ths : List Thread} {inst : Option Thread} (m : Meaning)
    (hs0 : u.s0 = u.s) (hp : Performs u)
    (hq : Env.stays { u with f := { u.f with threads := ths, inst := inst } } = u.stays) :
    stepMember m (u.turn fl ths inst) = (m (u.turn fl ths inst)).finish (u.turn fl ths inst) := by
  obtain ⟨vs, vs0, vf0, vr, vf, vth, vmajor, vb, vrow, vgrp⟩ := u
  simp only at hs0 hq
  subst hs0
  let w : Env := ⟨vs0, vs0, vf0, vr, { vf with threads := ths, inst := inst }, vth, vmajor, vb, vrow, vgrp⟩
  have hl : w.illegal = false := hp.legal
  have hb : w.blocked = false := hp.results
  have hg : w.guard = .t := hp.guard
  have ha : (w.th.helper && suppressed w.major) = false := hp.acts
  have ho : w.regBad = none := hp.operands
  have hs : w.stays = false := hq.trans hp.goes
  have hx : crossLane w.major = true → w.complete = true ∧ w.inGroup = true ∧ w.spoiled = false := hp.members
  have hw : vs0.dev.marks = [] := hp.whole
  have hready : (w.ready && w.inGroup) = true := by
    cases hc : crossLane w.major with
    | true =>
      obtain ⟨h1, h2, h3⟩ := hx hc
      simp [Env.ready, hl, hb, hg, ha, ho, hs, hc, h1, h2, h3]
    | false => simp [Env.ready, Env.inGroup, hl, hb, hg, ha, ho, hs, hc]
  let v : Env := Env.turn ⟨vs0, vs0, vf0, vr, vf, vth, vmajor, vb, vrow, vgrp⟩ fl ths inst
  have hl' : v.illegal = false := hl
  have hg' : v.guard = .t := hg
  have ho' : v.regBad = none := ho
  have ha' : (v.th.helper && suppressed v.major) = false := ha
  have hr' : (({ v with s := v.s0 } : Env).ready && v.inGroup) = true := hready
  show stepMember m v = (m v).finish v
  have hw' : v.s.dev.marks = [] := hw
  simp only [stepMember, hr', hl', hg', ha', perform, ho', hw', Bool.not_true, Bool.false_eq_true, if_false, if_true]

/-! ## The group -/

/-- What `issue` does for one member. -/
def turnOf (s : State) (g : Group) (major : Nat) (b : Body) (row : Row) (m : Meaning) (r : TRef) : Eff :=
  look fun s1 =>
    withE (memberOf s g r) fun (f0, _) =>
      withE (memberOf s1 g r) fun (f, th) => stepMember m ⟨s1, s, f0, r, f, th, major, b, row, g⟩

theorem issue_chosen {s : State} {g : Group} {major : Nat} {b : Body} {row : Row} (m : Meaning)
    (hg : s.dev.issuing = some g) (hw : rowOf major b = some row) :
    commit (issue major b m) s =
      commit (forE g.members (turnOf s g major b row m)) { s with dev := { s.dev with issuing := none } } := by
  unfold issue
  rw [commit_look]
  simp only [hg, hw]
  exact commit_andThen_of_next rfl

/-- A meaning whose turn, for a member that meets `P`, changes that member by `k` and nothing else. -/
def ChangesOwn (m : Meaning) (s : State) (g : Group) (major : Nat) (b : Body) (row : Row) (P : Env → Prop)
    (k : Env → Thread → Thread) : Prop :=
  ∀ v : Env, Turned s g major b row v → P (envAt s g major b row v.r v.f0 v.th) →
    commit (stepMember m v) v.s =
      .next { v.s with dev := v.s.dev.modThread v.r (k (envAt s g major b row v.r v.f0 v.th)) }

/-- The turns of some members that still stand as at the issue. -/
theorem turns_eachMember {s : State} {g : Group} {major : Nat} {b : Body} {row : Row} {m : Meaning} {P : Env → Prop}
    {k : Env → Thread → Thread} (h : AllMeet s g major b row P) (hk : ∀ v x, (k v x).t = x.t)
    (hm : ChangesOwn m s g major b row P k) (ms : List TRef) (hnd : ms.Nodup)
    (hin : ∀ r ∈ ms, r ∈ g.members) (s1 : State)
    (hs : ∃ fl, s1 = { s with dev := { s.dev with issuing := none, flocks := fl } })
    (hmem : ∀ r ∈ ms, ∃ f0 th f, memberOf s g r = some (f0, th) ∧ f0.Like f ∧ memberOf s1 g r = some (f, th)) :
    commit (forE ms (turnOf s g major b row m)) s1 =
      .next { s1 with dev := ms.foldl (memberChange s g (fun r f th => k (envAt s g major b row r f th))) s1.dev } := by
  induction ms generalizing s1 with
  | nil => rfl
  | cons r ms ih =>
    obtain ⟨f0, th, f, h0, hlike, h1⟩ := hmem r (by simp)
    have hr : r ∈ g.members := hin r (by simp)
    obtain ⟨f', th', hp, hP⟩ := h.each r hr
    obtain ⟨rfl, rfl⟩ : f' = f0 ∧ th' = th := by simpa using hp.symm.trans h0
    have hturn : Turned s g major b row ⟨s1, s, f', r, f, th', major, b, row, g⟩ :=
      ⟨rfl, rfl, rfl, rfl, rfl, hlike, hs, hr, h0, h1⟩
    have hone : commit (turnOf s g major b row m r) s1 =
        .next { s1 with dev := s1.dev.modThread r (k (envAt s g major b row r f' th')) } := by
      unfold turnOf
      rw [commit_look]
      simp only [h0, h1, commit_withE_some]
      exact hm _ hturn hP
    rw [commit_forE_cons, hone]
    simp only
    rw [ih (List.nodup_cons.1 hnd).2 (fun x hx => hin x (by simp [hx]))]
    · simp [memberChange, h0]
    · obtain ⟨fl, rfl⟩ := hs
      exact ⟨_, rfl⟩
    · intro x hx
      obtain ⟨a, t, c, e1, e2, e3⟩ := hmem x (by simp [hx])
      have hne : r ≠ x := fun he => (List.nodup_cons.1 hnd).1 (he ▸ hx)
      obtain ⟨c', e4, e5⟩ := memberOf_modThread hne (k (envAt s g major b row r f' th')) (hk _) e3
      exact ⟨a, t, c', e1, e2.trans e4, e5⟩

/-- A word that changes its own thread, issued by a group whose members meet what it takes. -/
theorem issue_eachMember {s : State} {g : Group} {major : Nat} {b : Body} {row : Row} {m : Meaning} {P : Env → Prop}
    {k : Env → Thread → Thread} (h : AllMeet s g major b row P) (hk : ∀ v x, (k v x).t = x.t)
    (hm : ChangesOwn m s g major b row P k) :
    commit (issue major b m) s =
      .next (s.eachMember g (fun r f th => k (envAt s g major b row r f th))) := by
  rw [issue_chosen m h.chosen h.word]
  refine turns_eachMember h hk hm g.members h.distinct (fun _ hr => hr) _ ⟨s.dev.flocks, rfl⟩ fun r hr => ?_
  obtain ⟨f, th, hp, -⟩ := h.each r hr
  exact ⟨f, th, f, hp, Flock.Like.refl f, hp⟩

/-- A word that one thread alone issues: its meaning, in the state that the group leaves. -/
theorem issue_alone {s : State} {major : Nat} {b : Body} {v : Env} (m : Meaning) (h : Alone s major b v) :
    commit (issue major b m) s = commit ((m v.now).finish v.now) s.begun := by
  obtain ⟨f', th', hm, hp⟩ := h.performs.each v.r (by simp [h.one])
  obtain ⟨rfl, rfl⟩ : f' = v.f ∧ th' = v.th := by simpa using hm.symm.trans h.stands
  have h1 : memberOf s.begun v.grp v.r = some (v.f, v.th) := h.stands
  have hone : commit (turnOf s v.grp major b v.row m v.r) s.begun = commit ((m v.now).finish v.now) s.begun := by
    unfold turnOf
    rw [commit_look]
    simp only [h.stands, h1, commit_withE_some]
    have hv := h.env
    have ht : stepMember m v.now = (m v.now).finish v.now := by
      rw [hv] at *
      exact stepMember_performs (fl := s.dev.flocks) (ths := v.f.threads) (inst := v.f.inst) m rfl hp rfl
    have hn : v.now = ⟨s.begun, s, v.f, v.r, v.f, v.th, major, b, v.row, v.grp⟩ := by rw [hv]; rfl
    rw [← hn, ht]
  rw [issue_chosen m h.performs.chosen h.performs.word, h.one, commit_forE_cons]
  change (match commit (turnOf s v.grp major b v.row m v.r) s.begun with
    | .next t => commit (forE [] (turnOf s v.grp major b v.row m)) t
    | .fault e => .fault e
    | .refused r => .refused r) = _
  rw [hone]
  cases commit ((m v.now).finish v.now) s.begun <;> rfl

/-! ## Changes of a thread in a row -/

theorem Flock.modThread_modThread (f : Flock) (t : Nat) (g h : Thread → Thread) (hg : ∀ x, (g x).t = x.t) :
    (f.modThread t g).modThread t h = f.modThread t (fun x => h (g x)) := by
  unfold Flock.modThread
  by_cases h1 : t = instId
  · simp [h1, Option.map_map, Function.comp_def]
  · simp only [h1, if_false, List.map_map]
    congr 1
    refine List.map_congr_left fun x _ => ?_
    by_cases hx : x.t = t <;> simp [hx, hg]

theorem Dev.modThread_modThread (d : Dev) (r : TRef) (g h : Thread → Thread) (hg : ∀ x, (g x).t = x.t) :
    (d.modThread r g).modThread r h = d.modThread r (fun x => h (g x)) := by
  unfold Dev.modThread Dev.modFlock
  simp only [List.map_map]
  congr 1
  refine List.map_congr_left fun f _ => ?_
  obtain ⟨ths, inst, hl⟩ := f.modThread_like r.t g
  have hc : (f.modThread r.t g).core = f.core := by rw [hl]
  have hs : (f.modThread r.t g).slot = f.slot := by rw [hl]
  by_cases hx : f.core = r.core ∧ f.slot = r.slot
  · simp [hx, hc, hs, Flock.modThread_modThread f r.t g h hg]
  · simp [hx]

/-- A word that changes its thread's registers: the change, then the next word. -/
theorem put_finish (v : Env) (h : Thread → Thread) (hh : ∀ x, (h x).t = x.t) (s : State) :
    commit ((v.put h).finish v) s =
      .next { s with dev := s.dev.modThread v.r (fun x => (h x).issued v.words) } := by
  unfold Env.put Res.finish
  simp only
  rw [commit_andThen_of_next (commit_updT v.r h s)]
  unfold advance
  rw [commit_updT]
  simp only [Dev.modThread_modThread s.dev v.r h _ hh]
  rfl

/-- A word without effect. -/
theorem skip_finish (v : Env) (s : State) :
    commit ((Res.done skip).finish v) s = .next { s with dev := s.dev.modThread v.r (fun x => x.issued v.words) } := by
  unfold Res.finish
  simp only
  rw [commit_andThen_of_next (commit_skip s)]
  rfl

/-- A word that sets the PC of its thread. -/
theorem jump_finish (v : Env) (h : Thread → Thread) (s : State) :
    commit ((Res.jump (updT v.r h)).finish v) s =
      .next { s with dev := s.dev.modThread v.r (fun x => h { x with waited := 0 }) } := by
  unfold Res.finish
  simp only
  rw [commit_andThen_of_next (commit_updT v.r _ s), commit_updT]
  simp only [Dev.modThread_modThread s.dev v.r (fun x => { x with waited := 0 }) h (fun _ => rfl)]

end Sys2Proof.Machine
end

