-- ==== Sys2Proof/Laws/Memory.lean ====
section
/-! SUPPORT. Memory: reads after writes, and its canonical form, which every operation keeps. -/

namespace Sys2Proof.Machine

/-! ## The canonical form -/

theorem Memory.wf_cons {a : Nat} {v : Byte} {r : List Host.Cell} :
    Memory.wf ((a, v) :: r) = true ↔
      v ≠ Memory.unlisted ∧ (∀ x ∈ r.head?, a < x.1) ∧ Memory.wf r = true := by
  cases r with
  | nil => simp [Memory.wf]
  | cons y r =>
    obtain ⟨b, w⟩ := y
    simp only [Memory.wf, Bool.and_eq_true, decide_eq_true_eq, List.head?_cons, Option.mem_some_iff, forall_eq']
    tauto

theorem Memory.wf_tail {x : Host.Cell} {r : List Host.Cell} (h : Memory.wf (x :: r) = true) : Memory.wf r = true :=
  (Memory.wf_cons.1 h).2.2

/-- The first cell of a canonical list is its lowest. -/
theorem Memory.wf_lt {a : Nat} {v : Byte} {r : List Host.Cell} (h : Memory.wf ((a, v) :: r) = true) :
    ∀ x ∈ r, a < x.1 := by
  induction r generalizing a v with
  | nil => simp
  | cons y r ih =>
    obtain ⟨b, w⟩ := y
    have hb : a < b := (Memory.wf_cons.1 h).2.1 (b, w) rfl
    intro x hx
    rcases List.mem_cons.1 hx with rfl | hx
    · exact hb
    · exact Nat.lt_trans hb (ih (Memory.wf_tail h) x hx)

/-- An address below every listed one reads as unlisted. -/
theorem Memory.read_below {m : List Host.Cell} {a : Nat} (h : ∀ x ∈ m, a < x.1) :
    Memory.read m a = Memory.unlisted := by
  cases m with
  | nil => rfl
  | cons y r =>
    obtain ⟨b, w⟩ := y
    have hb : a < b := h (b, w) (by simp)
    simp [Memory.read, Nat.ne_of_lt hb, hb]

theorem Memory.write_head {m : List Host.Cell} {a c : Nat} {v : Byte}
    (hm : ∀ x ∈ m, c < x.1) (ha : c < a) : ∀ x ∈ Memory.write m a v, c < x.1 := by
  induction m with
  | nil => unfold Memory.write; split <;> simp [ha]
  | cons y r ih =>
    obtain ⟨b, w⟩ := y
    have hb : c < b := hm (b, w) (by simp)
    have hr : ∀ x ∈ r, c < x.1 := fun x hx => hm x (by simp [hx])
    unfold Memory.write
    split
    · split
      · exact hm
      · intro x hx
        rcases List.mem_cons.1 hx with rfl | hx
        · exact ha
        · exact hm x hx
    · split
      · split
        · exact hr
        · intro x hx
          rcases List.mem_cons.1 hx with rfl | hx
          · exact ha
          · exact hr x hx
      · intro x hx
        rcases List.mem_cons.1 hx with rfl | hx
        · exact hb
        · exact ih hr x hx

theorem Memory.wf_of_lt {a : Nat} {v : Byte} {r : List Host.Cell} (hv : v ≠ Memory.unlisted)
    (hl : ∀ x ∈ r, a < x.1) (hr : Memory.wf r = true) : Memory.wf ((a, v) :: r) = true :=
  Memory.wf_cons.2 ⟨hv, fun x hx => hl x (List.mem_of_mem_head? hx), hr⟩

/-- A write keeps the canonical form. -/
theorem Memory.write_wf {m : List Host.Cell} (h : Memory.wf m = true) (a : Nat) (v : Byte) :
    Memory.wf (Memory.write m a v) = true := by
  induction m with
  | nil =>
    unfold Memory.write
    split
    · rfl
    · rename_i hv; simp [Memory.wf, hv]
  | cons y r ih =>
    obtain ⟨b, w⟩ := y
    have hr := Memory.wf_tail h
    have hl := Memory.wf_lt h
    have hw := (Memory.wf_cons.1 h).1
    unfold Memory.write
    split
    · rename_i hab
      split
      · exact h
      · rename_i hv
        refine Memory.wf_of_lt hv (fun x hx => ?_) h
        rcases List.mem_cons.1 hx with rfl | hx
        · exact hab
        · exact Nat.lt_trans hab (hl x hx)
    · rename_i hab
      split
      · rename_i heq
        subst heq
        split
        · exact hr
        · rename_i hv; exact Memory.wf_of_lt hv hl hr
      · rename_i hne
        have hlt : b < a := by omega
        exact Memory.wf_of_lt hw (Memory.write_head hl hlt) (ih hr)

/-- Losing some cells keeps the canonical form. -/
theorem Memory.filter_wf {m : List Host.Cell} (h : Memory.wf m = true) (p : Host.Cell → Bool) :
    Memory.wf (m.filter p) = true := by
  induction m with
  | nil => rfl
  | cons y r ih =>
    obtain ⟨b, w⟩ := y
    have hr := ih (Memory.wf_tail h)
    rw [List.filter_cons]
    split
    · exact Memory.wf_of_lt (Memory.wf_cons.1 h).1
        (fun x hx => Memory.wf_lt h x (List.mem_of_mem_filter hx)) hr
    · exact hr

/-! ## Reads after writes -/

/-- The byte written is read back. -/
theorem Memory.read_write_same {m : List Host.Cell} (h : Memory.wf m = true) (a : Nat) (v : Byte) :
    Memory.read (Memory.write m a v) a = v := by
  induction m with
  | nil =>
    unfold Memory.write
    split
    · rename_i hv; simp [Memory.read, hv]
    · simp [Memory.read]
  | cons y r ih =>
    obtain ⟨b, w⟩ := y
    have hl := Memory.wf_lt h
    unfold Memory.write
    split
    · rename_i hab
      split
      · rename_i hv; simp [Memory.read, hab, Nat.ne_of_lt hab, hv]
      · simp [Memory.read]
    · rename_i hab
      split
      · rename_i heq
        subst heq
        split
        · rename_i hv; rw [Memory.read_below hl, hv]
        · simp [Memory.read]
      · rename_i hne
        simp only [Memory.read, if_neg hne, if_neg hab]
        exact ih (Memory.wf_tail h)

/-- Every other byte reads as before. -/
theorem Memory.read_write_other {m : List Host.Cell} (h : Memory.wf m = true) {a c : Nat} (v : Byte)
    (hc : c ≠ a) : Memory.read (Memory.write m a v) c = Memory.read m c := by
  induction m with
  | nil =>
    unfold Memory.write
    split
    · rfl
    · simp [Memory.read, hc]
  | cons y r ih =>
    obtain ⟨b, w⟩ := y
    have hl := Memory.wf_lt h
    unfold Memory.write
    split
    · rename_i hab
      split
      · rfl
      · by_cases hca : c < a
        · have hcb : c < b := Nat.lt_trans hca hab
          simp [Memory.read, hca, hcb, hc, Nat.ne_of_lt hcb]
        · simp [Memory.read, hc, hca]
    · rename_i hab
      split
      · rename_i heq
        subst heq
        have hr : c < a → ∀ x ∈ r, c < x.1 := fun hca x hx => Nat.lt_trans hca (hl x hx)
        split
        · by_cases hca : c < a
          · simp [Memory.read, hc, hca, Memory.read_below (hr hca)]
          · simp [Memory.read, hc, hca]
        · simp [Memory.read, hc]
      · simp only [Memory.read]
        by_cases hcb : c = b
        · simp [hcb]
        · simp only [if_neg hcb]
          rw [ih (Memory.wf_tail h)]

/-! ## Every operation keeps it -/

theorem State.applyWrite_memOk {s : State} (h : s.MemOk) (w : Write) : (s.applyWrite w).MemOk := by
  cases w with
  | mem a b => exact Memory.write_wf h a b
  | forget => exact Memory.filter_wf h _
  | sto | wipe | drop | move => exact h

theorem State.applyWrites_memOk {s : State} (h : s.MemOk) (ws : List Write) : (s.applyWrites ws).MemOk := by
  induction ws generalizing s with
  | nil => exact h
  | cons w ws ih => exact ih (State.applyWrite_memOk h w)

theorem State.apply_memOk {s : State} (h : s.MemOk) (δ : Delta) : (s.apply δ).MemOk :=
  State.applyWrites_memOk h δ.writes

/-- Whatever an operation does, memory keeps its canonical form. -/
theorem commit_memOk {a : Eff} {s t : State} (h : s.MemOk) (ht : commit a s = .next t) : t.MemOk := by
  obtain ⟨-, rfl⟩ := commit_next.1 ht
  exact State.apply_memOk h _

theorem State.reset_memOk : State.reset.MemOk := rfl

/-! ## Local stores -/

/-- Where a key list rises, replacing or inserting keeps it. -/
theorem aset_rising {α : Type} {l : List (Nat × α)} (h : l.Pairwise (fun a b => a.1 < b.1)) (k : Nat) (v : α) :
    (aset l k v).Pairwise (fun a b => a.1 < b.1) ∧ ∀ x ∈ aset l k v, x.1 = k ∨ ∃ y ∈ l, y.1 = x.1 := by
  induction l with
  | nil => simp [aset]
  | cons y r ih =>
    obtain ⟨a, w⟩ := y
    obtain ⟨hr, hl⟩ := List.pairwise_cons.1 h
    obtain ⟨ih1, ih2⟩ := ih hl
    unfold aset
    split
    · rename_i hk
      refine ⟨List.pairwise_cons.2 ⟨fun x hx => ?_, h⟩, fun x hx => ?_⟩
      · rcases List.mem_cons.1 hx with rfl | hx
        · exact hk
        · exact Nat.lt_trans hk (hr x hx)
      · rcases List.mem_cons.1 hx with rfl | hx
        · exact .inl rfl
        · exact .inr ⟨x, hx, rfl⟩
    · split
      · rename_i hk
        subst hk
        exact ⟨List.pairwise_cons.2 ⟨hr, hl⟩, fun x hx => by
          rcases List.mem_cons.1 hx with rfl | hx
          · exact .inl rfl
          · exact .inr ⟨x, by simp [hx], rfl⟩⟩
      · rename_i h1 h2
        refine ⟨List.pairwise_cons.2 ⟨fun x hx => ?_, ih1⟩, fun x hx => ?_⟩
        · rcases ih2 x hx with hx | ⟨y, hy, hx⟩
          · show a < x.1
            rw [hx]; omega
          · have := hr y hy
            show a < x.1
            rw [← hx]; exact this
        · rcases List.mem_cons.1 hx with rfl | hx
          · exact .inr ⟨(a, w), by simp, rfl⟩
          · rcases ih2 x hx with hx | ⟨y, hy, hx⟩
            · exact .inl hx
            · exact .inr ⟨y, by simp [hy], hx⟩

/-- The form of a list of local stores. -/
def storesOk (l : List Store) : Prop := (l.map (·.key)).Nodup ∧ ∀ x ∈ l, x.cells.Pairwise (fun a b => a.1 < b.1)

theorem storesOk_filter {l : List Store} (h : storesOk l) (p : Store → Bool) : storesOk (l.filter p) :=
  ⟨h.1.sublist ((List.filter_sublist (p := p)).map _), fun x hx => h.2 x (List.mem_of_mem_filter hx)⟩

theorem storesOk_put {l : List Store} (h : storesOk l) {st : Store} (hst : st.cells.Pairwise (fun a b => a.1 < b.1)) :
    storesOk (putStore l st) := by
  have hf := storesOk_filter h (fun x => decide (x.key ≠ st.key))
  refine ⟨?_, fun x hx => ?_⟩
  · unfold putStore
    rw [List.map_cons, List.nodup_cons]
    refine ⟨fun hm => ?_, hf.1⟩
    obtain ⟨x, hx, hk⟩ := List.mem_map.1 hm
    have := (List.mem_filter.1 hx).2
    simp [hk] at this
  · rcases List.mem_cons.1 hx with rfl | hx
    · exact hst
    · exact hf.2 x hx

theorem State.store_cells {s : State} (h : s.StoOk) (k : StoKey) : (s.store k).cells.Pairwise (fun a b => a.1 < b.1) := by
  unfold State.store
  split
  · rename_i x hx
    exact h.2 x (List.mem_of_find?_eq_some hx)
  · split <;> exact List.Pairwise.nil

theorem State.applyWrite_stoOk {s : State} (h : s.StoOk) (w : Write) : (s.applyWrite w).StoOk := by
  cases w with
  | mem a b => exact h
  | forget => exact h
  | sto k off b => exact storesOk_put h (aset_rising (State.store_cells h k) _ _).1
  | wipe k lo seed => exact storesOk_put h ((State.store_cells h k).filter _)
  | drop k => exact storesOk_filter h _
  | move k k' => exact storesOk_put (storesOk_filter h _) (State.store_cells h k)

theorem State.applyWrites_stoOk {s : State} (h : s.StoOk) (ws : List Write) : (s.applyWrites ws).StoOk := by
  induction ws generalizing s with
  | nil => exact h
  | cons w ws ih => exact ih (State.applyWrite_stoOk h w)

/-- Whatever an operation does, local stores keep their form. -/
theorem commit_stoOk {a : Eff} {s t : State} (h : s.StoOk) (ht : commit a s = .next t) : t.StoOk := by
  obtain ⟨-, rfl⟩ := commit_next.1 ht
  exact State.applyWrites_stoOk h _

theorem State.reset_stoOk : State.reset.StoOk := ⟨List.nodup_nil, fun _ hx => absurd hx (List.not_mem_nil)⟩

end Sys2Proof.Machine
end

