-- ==== Sys2Proof/Laws/PerInstr.lean ====
section
/-! SUPPORT. The opcode map and its inverse agree, constructor by constructor (R133). -/

open Sys2Proof

/-- The words of an instruction are those of the major form that the map gives it, in that form's format. -/
def Sys2Proof.Laws.OpMap.Statement (i : Instr) : Prop :=
  ∀ major b, rawOf i = some (major, b) → ofBody major b = some i ∧
    fmtOf major = some (match b with
      | .t _ => .t
      | .i _ => .i
      | .m _ => .m
      | .b _ => .b
      | .w _ => .w
      | .e _ => .e)

theorem Sys2Proof.Laws.OpMap.nop (x1 : TWord) : Statement (.nop x1) := by rintro _ _ ⟨⟩; exact ⟨rfl, rfl⟩
theorem Sys2Proof.Laws.OpMap.bra (x1 : BWord) : Statement (.bra x1) := by rintro _ _ ⟨⟩; exact ⟨rfl, rfl⟩
theorem Sys2Proof.Laws.OpMap.brc (x1 : BWord) : Statement (.brc x1) := by rintro _ _ ⟨⟩; exact ⟨rfl, rfl⟩
theorem Sys2Proof.Laws.OpMap.call (x1 : BWord) : Statement (.call x1) := by rintro _ _ ⟨⟩; exact ⟨rfl, rfl⟩
theorem Sys2Proof.Laws.OpMap.calli (x1 : TWord) : Statement (.calli x1) := by rintro _ _ ⟨⟩; exact ⟨rfl, rfl⟩
theorem Sys2Proof.Laws.OpMap.jmpi (x1 : TWord) : Statement (.jmpi x1) := by rintro _ _ ⟨⟩; exact ⟨rfl, rfl⟩
theorem Sys2Proof.Laws.OpMap.ret (x1 : TWord) : Statement (.ret x1) := by rintro _ _ ⟨⟩; exact ⟨rfl, rfl⟩
theorem Sys2Proof.Laws.OpMap.exit (x1 : TWord) : Statement (.exit x1) := by rintro _ _ ⟨⟩; exact ⟨rfl, rfl⟩
theorem Sys2Proof.Laws.OpMap.demote (x1 : TWord) : Statement (.demote x1) := by rintro _ _ ⟨⟩; exact ⟨rfl, rfl⟩
theorem Sys2Proof.Laws.OpMap.commit (x1 : TWord) : Statement (.commit x1) := by rintro _ _ ⟨⟩; exact ⟨rfl, rfl⟩
theorem Sys2Proof.Laws.OpMap.yield (x1 : TWord) : Statement (.yield x1) := by rintro _ _ ⟨⟩; exact ⟨rfl, rfl⟩
theorem Sys2Proof.Laws.OpMap.trap (x1 : IWord) : Statement (.trap x1) := by rintro _ _ ⟨⟩; exact ⟨rfl, rfl⟩
theorem Sys2Proof.Laws.OpMap.rtt (x1 : TWord) : Statement (.rtt x1) := by rintro _ _ ⟨⟩; exact ⟨rfl, rfl⟩
theorem Sys2Proof.Laws.OpMap.launch (x1 : EWord) : Statement (.launch x1) := by rintro _ _ ⟨⟩; exact ⟨rfl, rfl⟩
theorem Sys2Proof.Laws.OpMap.bar (x1 : TWord) : Statement (.bar x1) := by rintro _ _ ⟨⟩; exact ⟨rfl, rfl⟩
theorem Sys2Proof.Laws.OpMap.hbar (x1 : TWord) : Statement (.hbar x1) := by rintro _ _ ⟨⟩; exact ⟨rfl, rfl⟩
theorem Sys2Proof.Laws.OpMap.mfsr (x1 : IWord) : Statement (.mfsr x1) := by rintro _ _ ⟨⟩; exact ⟨rfl, rfl⟩
theorem Sys2Proof.Laws.OpMap.mtsr (x1 : IWord) : Statement (.mtsr x1) := by rintro _ _ ⟨⟩; exact ⟨rfl, rfl⟩
theorem Sys2Proof.Laws.OpMap.flushi (x1 : TWord) : Statement (.flushi x1) := by rintro _ _ ⟨⟩; exact ⟨rfl, rfl⟩
theorem Sys2Proof.Laws.OpMap.tlbinv (x1 : TWord) : Statement (.tlbinv x1) := by rintro _ _ ⟨⟩; exact ⟨rfl, rfl⟩
theorem Sys2Proof.Laws.OpMap.time (x1 : TWord) : Statement (.time x1) := by rintro _ _ ⟨⟩; exact ⟨rfl, rfl⟩
theorem Sys2Proof.Laws.OpMap.tid (x1 : TWord) : Statement (.tid x1) := by rintro _ _ ⟨⟩; exact ⟨rfl, rfl⟩
theorem Sys2Proof.Laws.OpMap.movk (x1 : IWord) : Statement (.movk x1) := by rintro _ _ ⟨⟩; exact ⟨rfl, rfl⟩
theorem Sys2Proof.Laws.OpMap.sleep (x1 : TWord) : Statement (.sleep x1) := by rintro _ _ ⟨⟩; exact ⟨rfl, rfl⟩
theorem Sys2Proof.Laws.OpMap.watch (x1 : MWord) : Statement (.watch x1) := by rintro _ _ ⟨⟩; exact ⟨rfl, rfl⟩
theorem Sys2Proof.Laws.OpMap.wait (x1 : WWord) : Statement (.wait x1) := by rintro _ _ ⟨⟩; exact ⟨rfl, rfl⟩
theorem Sys2Proof.Laws.OpMap.waitbm (x1 : TWord) : Statement (.waitbm x1) := by rintro _ _ ⟨⟩; exact ⟨rfl, rfl⟩
theorem Sys2Proof.Laws.OpMap.stepdl (x1 : TWord) : Statement (.stepdl x1) := by rintro _ _ ⟨⟩; exact ⟨rfl, rfl⟩
theorem Sys2Proof.Laws.OpMap.slack (x1 : TWord) : Statement (.slack x1) := by rintro _ _ ⟨⟩; exact ⟨rfl, rfl⟩
theorem Sys2Proof.Laws.OpMap.bmode (x1 : IWord) : Statement (.bmode x1) := by rintro _ _ ⟨⟩; exact ⟨rfl, rfl⟩
theorem Sys2Proof.Laws.OpMap.iaddT (x1 : TWord) : Statement (.iaddT x1) := by rintro _ _ ⟨⟩; exact ⟨rfl, rfl⟩
theorem Sys2Proof.Laws.OpMap.iaddI (x1 : IWord) : Statement (.iaddI x1) := by rintro _ _ ⟨⟩; exact ⟨rfl, rfl⟩
theorem Sys2Proof.Laws.OpMap.isubT (x1 : TWord) : Statement (.isubT x1) := by rintro _ _ ⟨⟩; exact ⟨rfl, rfl⟩
theorem Sys2Proof.Laws.OpMap.isubI (x1 : IWord) : Statement (.isubI x1) := by rintro _ _ ⟨⟩; exact ⟨rfl, rfl⟩
theorem Sys2Proof.Laws.OpMap.iaddc (x1 : TWord) : Statement (.iaddc x1) := by rintro _ _ ⟨⟩; exact ⟨rfl, rfl⟩
theorem Sys2Proof.Laws.OpMap.imulT (x1 : TWord) : Statement (.imulT x1) := by rintro _ _ ⟨⟩; exact ⟨rfl, rfl⟩
theorem Sys2Proof.Laws.OpMap.imulI (x1 : IWord) : Statement (.imulI x1) := by rintro _ _ ⟨⟩; exact ⟨rfl, rfl⟩
theorem Sys2Proof.Laws.OpMap.imulh (x1 : TWord) : Statement (.imulh x1) := by rintro _ _ ⟨⟩; exact ⟨rfl, rfl⟩
theorem Sys2Proof.Laws.OpMap.imad (x1 : TWord) : Statement (.imad x1) := by rintro _ _ ⟨⟩; exact ⟨rfl, rfl⟩
theorem Sys2Proof.Laws.OpMap.imadw (x1 : TWord) : Statement (.imadw x1) := by rintro _ _ ⟨⟩; exact ⟨rfl, rfl⟩
theorem Sys2Proof.Laws.OpMap.iminT (x1 : TWord) : Statement (.iminT x1) := by rintro _ _ ⟨⟩; exact ⟨rfl, rfl⟩
theorem Sys2Proof.Laws.OpMap.iminI (x1 : IWord) : Statement (.iminI x1) := by rintro _ _ ⟨⟩; exact ⟨rfl, rfl⟩
theorem Sys2Proof.Laws.OpMap.imaxT (x1 : TWord) : Statement (.imaxT x1) := by rintro _ _ ⟨⟩; exact ⟨rfl, rfl⟩
theorem Sys2Proof.Laws.OpMap.imaxI (x1 : IWord) : Statement (.imaxI x1) := by rintro _ _ ⟨⟩; exact ⟨rfl, rfl⟩
theorem Sys2Proof.Laws.OpMap.iabs (x1 : TWord) : Statement (.iabs x1) := by rintro _ _ ⟨⟩; exact ⟨rfl, rfl⟩
theorem Sys2Proof.Laws.OpMap.isad (x1 : TWord) : Statement (.isad x1) := by rintro _ _ ⟨⟩; exact ⟨rfl, rfl⟩
theorem Sys2Proof.Laws.OpMap.andT (x1 : TWord) : Statement (.andT x1) := by rintro _ _ ⟨⟩; exact ⟨rfl, rfl⟩
theorem Sys2Proof.Laws.OpMap.andI (x1 : IWord) : Statement (.andI x1) := by rintro _ _ ⟨⟩; exact ⟨rfl, rfl⟩
theorem Sys2Proof.Laws.OpMap.orT (x1 : TWord) : Statement (.orT x1) := by rintro _ _ ⟨⟩; exact ⟨rfl, rfl⟩
theorem Sys2Proof.Laws.OpMap.orI (x1 : IWord) : Statement (.orI x1) := by rintro _ _ ⟨⟩; exact ⟨rfl, rfl⟩
theorem Sys2Proof.Laws.OpMap.xorT (x1 : TWord) : Statement (.xorT x1) := by rintro _ _ ⟨⟩; exact ⟨rfl, rfl⟩
theorem Sys2Proof.Laws.OpMap.xorI (x1 : IWord) : Statement (.xorI x1) := by rintro _ _ ⟨⟩; exact ⟨rfl, rfl⟩
theorem Sys2Proof.Laws.OpMap.andnT (x1 : TWord) : Statement (.andnT x1) := by rintro _ _ ⟨⟩; exact ⟨rfl, rfl⟩
theorem Sys2Proof.Laws.OpMap.andnI (x1 : IWord) : Statement (.andnI x1) := by rintro _ _ ⟨⟩; exact ⟨rfl, rfl⟩
theorem Sys2Proof.Laws.OpMap.logt (x1 : TWord) : Statement (.logt x1) := by rintro _ _ ⟨⟩; exact ⟨rfl, rfl⟩
theorem Sys2Proof.Laws.OpMap.shlT (x1 : TWord) : Statement (.shlT x1) := by rintro _ _ ⟨⟩; exact ⟨rfl, rfl⟩
theorem Sys2Proof.Laws.OpMap.shlI (x1 : IWord) : Statement (.shlI x1) := by rintro _ _ ⟨⟩; exact ⟨rfl, rfl⟩
theorem Sys2Proof.Laws.OpMap.shrT (x1 : TWord) : Statement (.shrT x1) := by rintro _ _ ⟨⟩; exact ⟨rfl, rfl⟩
theorem Sys2Proof.Laws.OpMap.shrI (x1 : IWord) : Statement (.shrI x1) := by rintro _ _ ⟨⟩; exact ⟨rfl, rfl⟩
theorem Sys2Proof.Laws.OpMap.shraT (x1 : TWord) : Statement (.shraT x1) := by rintro _ _ ⟨⟩; exact ⟨rfl, rfl⟩
theorem Sys2Proof.Laws.OpMap.shraI (x1 : IWord) : Statement (.shraI x1) := by rintro _ _ ⟨⟩; exact ⟨rfl, rfl⟩
theorem Sys2Proof.Laws.OpMap.rotlT (x1 : TWord) : Statement (.rotlT x1) := by rintro _ _ ⟨⟩; exact ⟨rfl, rfl⟩
theorem Sys2Proof.Laws.OpMap.rotlI (x1 : IWord) : Statement (.rotlI x1) := by rintro _ _ ⟨⟩; exact ⟨rfl, rfl⟩
theorem Sys2Proof.Laws.OpMap.funnel (x1 : TWord) : Statement (.funnel x1) := by rintro _ _ ⟨⟩; exact ⟨rfl, rfl⟩
theorem Sys2Proof.Laws.OpMap.bfeT (x1 : TWord) : Statement (.bfeT x1) := by rintro _ _ ⟨⟩; exact ⟨rfl, rfl⟩
theorem Sys2Proof.Laws.OpMap.bfeI (x1 : IWord) : Statement (.bfeI x1) := by rintro _ _ ⟨⟩; exact ⟨rfl, rfl⟩
theorem Sys2Proof.Laws.OpMap.bfi (x1 : TWord) : Statement (.bfi x1) := by rintro _ _ ⟨⟩; exact ⟨rfl, rfl⟩
theorem Sys2Proof.Laws.OpMap.popc (x1 : TWord) : Statement (.popc x1) := by rintro _ _ ⟨⟩; exact ⟨rfl, rfl⟩
theorem Sys2Proof.Laws.OpMap.clz (x1 : TWord) : Statement (.clz x1) := by rintro _ _ ⟨⟩; exact ⟨rfl, rfl⟩
theorem Sys2Proof.Laws.OpMap.ctz (x1 : TWord) : Statement (.ctz x1) := by rintro _ _ ⟨⟩; exact ⟨rfl, rfl⟩
theorem Sys2Proof.Laws.OpMap.brev (x1 : TWord) : Statement (.brev x1) := by rintro _ _ ⟨⟩; exact ⟨rfl, rfl⟩
theorem Sys2Proof.Laws.OpMap.permb (x1 : TWord) : Statement (.permb x1) := by rintro _ _ ⟨⟩; exact ⟨rfl, rfl⟩
theorem Sys2Proof.Laws.OpMap.permn (x1 : TWord) : Statement (.permn x1) := by rintro _ _ ⟨⟩; exact ⟨rfl, rfl⟩
theorem Sys2Proof.Laws.OpMap.sel (x1 : TWord) : Statement (.sel x1) := by rintro _ _ ⟨⟩; exact ⟨rfl, rfl⟩
theorem Sys2Proof.Laws.OpMap.icmpT (x1 : TWord) : Statement (.icmpT x1) := by rintro _ _ ⟨⟩; exact ⟨rfl, rfl⟩
theorem Sys2Proof.Laws.OpMap.icmpI (x1 : IWord) : Statement (.icmpI x1) := by rintro _ _ ⟨⟩; exact ⟨rfl, rfl⟩
theorem Sys2Proof.Laws.OpMap.pcomb (x1 : TWord) : Statement (.pcomb x1) := by rintro _ _ ⟨⟩; exact ⟨rfl, rfl⟩
theorem Sys2Proof.Laws.OpMap.mov (x1 : TWord) : Statement (.mov x1) := by rintro _ _ ⟨⟩; exact ⟨rfl, rfl⟩
theorem Sys2Proof.Laws.OpMap.movi (x1 : IWord) : Statement (.movi x1) := by rintro _ _ ⟨⟩; exact ⟨rfl, rfl⟩
theorem Sys2Proof.Laws.OpMap.movx (x1 : TWord) : Statement (.movx x1) := by rintro _ _ ⟨⟩; exact ⟨rfl, rfl⟩
theorem Sys2Proof.Laws.OpMap.leaT (x1 : TWord) : Statement (.leaT x1) := by rintro _ _ ⟨⟩; exact ⟨rfl, rfl⟩
theorem Sys2Proof.Laws.OpMap.leaI (x1 : IWord) : Statement (.leaI x1) := by rintro _ _ ⟨⟩; exact ⟨rfl, rfl⟩
theorem Sys2Proof.Laws.OpMap.aper (x1 : TWord) : Statement (.aper x1) := by rintro _ _ ⟨⟩; exact ⟨rfl, rfl⟩
theorem Sys2Proof.Laws.OpMap.lxchT (x1 : TWord) : Statement (.lxchT x1) := by rintro _ _ ⟨⟩; exact ⟨rfl, rfl⟩
theorem Sys2Proof.Laws.OpMap.lxchI (x1 : IWord) : Statement (.lxchI x1) := by rintro _ _ ⟨⟩; exact ⟨rfl, rfl⟩
theorem Sys2Proof.Laws.OpMap.poll (x1 : TWord) : Statement (.poll x1) := by rintro _ _ ⟨⟩; exact ⟨rfl, rfl⟩
theorem Sys2Proof.Laws.OpMap.redx (x1 : TWord) : Statement (.redx x1) := by rintro _ _ ⟨⟩; exact ⟨rfl, rfl⟩
theorem Sys2Proof.Laws.OpMap.scanx (x1 : TWord) : Statement (.scanx x1) := by rintro _ _ ⟨⟩; exact ⟨rfl, rfl⟩
theorem Sys2Proof.Laws.OpMap.eqmask (x1 : TWord) : Statement (.eqmask x1) := by rintro _ _ ⟨⟩; exact ⟨rfl, rfl⟩
theorem Sys2Proof.Laws.OpMap.lead (x1 : TWord) : Statement (.lead x1) := by rintro _ _ ⟨⟩; exact ⟨rfl, rfl⟩
theorem Sys2Proof.Laws.OpMap.faddT (x1 : TWord) : Statement (.faddT x1) := by rintro _ _ ⟨⟩; exact ⟨rfl, rfl⟩
theorem Sys2Proof.Laws.OpMap.faddI (x1 : IWord) : Statement (.faddI x1) := by rintro _ _ ⟨⟩; exact ⟨rfl, rfl⟩
theorem Sys2Proof.Laws.OpMap.fsub (x1 : TWord) : Statement (.fsub x1) := by rintro _ _ ⟨⟩; exact ⟨rfl, rfl⟩
theorem Sys2Proof.Laws.OpMap.fmulT (x1 : TWord) : Statement (.fmulT x1) := by rintro _ _ ⟨⟩; exact ⟨rfl, rfl⟩
theorem Sys2Proof.Laws.OpMap.fmulI (x1 : IWord) : Statement (.fmulI x1) := by rintro _ _ ⟨⟩; exact ⟨rfl, rfl⟩
theorem Sys2Proof.Laws.OpMap.ffmaT (x1 : TWord) : Statement (.ffmaT x1) := by rintro _ _ ⟨⟩; exact ⟨rfl, rfl⟩
theorem Sys2Proof.Laws.OpMap.ffmaI (x1 : IWord) : Statement (.ffmaI x1) := by rintro _ _ ⟨⟩; exact ⟨rfl, rfl⟩
theorem Sys2Proof.Laws.OpMap.fminT (x1 : TWord) : Statement (.fminT x1) := by rintro _ _ ⟨⟩; exact ⟨rfl, rfl⟩
theorem Sys2Proof.Laws.OpMap.fminI (x1 : IWord) : Statement (.fminI x1) := by rintro _ _ ⟨⟩; exact ⟨rfl, rfl⟩
theorem Sys2Proof.Laws.OpMap.fmaxT (x1 : TWord) : Statement (.fmaxT x1) := by rintro _ _ ⟨⟩; exact ⟨rfl, rfl⟩
theorem Sys2Proof.Laws.OpMap.fmaxI (x1 : IWord) : Statement (.fmaxI x1) := by rintro _ _ ⟨⟩; exact ⟨rfl, rfl⟩
theorem Sys2Proof.Laws.OpMap.fcmpT (x1 : TWord) : Statement (.fcmpT x1) := by rintro _ _ ⟨⟩; exact ⟨rfl, rfl⟩
theorem Sys2Proof.Laws.OpMap.fcmpI (x1 : IWord) : Statement (.fcmpI x1) := by rintro _ _ ⟨⟩; exact ⟨rfl, rfl⟩
theorem Sys2Proof.Laws.OpMap.frcp (x1 : TWord) : Statement (.frcp x1) := by rintro _ _ ⟨⟩; exact ⟨rfl, rfl⟩
theorem Sys2Proof.Laws.OpMap.frsq (x1 : TWord) : Statement (.frsq x1) := by rintro _ _ ⟨⟩; exact ⟨rfl, rfl⟩
theorem Sys2Proof.Laws.OpMap.fsqrt (x1 : TWord) : Statement (.fsqrt x1) := by rintro _ _ ⟨⟩; exact ⟨rfl, rfl⟩
theorem Sys2Proof.Laws.OpMap.fexp2 (x1 : TWord) : Statement (.fexp2 x1) := by rintro _ _ ⟨⟩; exact ⟨rfl, rfl⟩
theorem Sys2Proof.Laws.OpMap.flog2 (x1 : TWord) : Statement (.flog2 x1) := by rintro _ _ ⟨⟩; exact ⟨rfl, rfl⟩
theorem Sys2Proof.Laws.OpMap.fsin (x1 : TWord) : Statement (.fsin x1) := by rintro _ _ ⟨⟩; exact ⟨rfl, rfl⟩
theorem Sys2Proof.Laws.OpMap.fcos (x1 : TWord) : Statement (.fcos x1) := by rintro _ _ ⟨⟩; exact ⟨rfl, rfl⟩
theorem Sys2Proof.Laws.OpMap.ftanh (x1 : TWord) : Statement (.ftanh x1) := by rintro _ _ ⟨⟩; exact ⟨rfl, rfl⟩
theorem Sys2Proof.Laws.OpMap.daddT (x1 : TWord) : Statement (.daddT x1) := by rintro _ _ ⟨⟩; exact ⟨rfl, rfl⟩
theorem Sys2Proof.Laws.OpMap.daddI (x1 : IWord) : Statement (.daddI x1) := by rintro _ _ ⟨⟩; exact ⟨rfl, rfl⟩
theorem Sys2Proof.Laws.OpMap.dmulT (x1 : TWord) : Statement (.dmulT x1) := by rintro _ _ ⟨⟩; exact ⟨rfl, rfl⟩
theorem Sys2Proof.Laws.OpMap.dmulI (x1 : IWord) : Statement (.dmulI x1) := by rintro _ _ ⟨⟩; exact ⟨rfl, rfl⟩
theorem Sys2Proof.Laws.OpMap.dfma (x1 : TWord) : Statement (.dfma x1) := by rintro _ _ ⟨⟩; exact ⟨rfl, rfl⟩
theorem Sys2Proof.Laws.OpMap.dmin (x1 : TWord) : Statement (.dmin x1) := by rintro _ _ ⟨⟩; exact ⟨rfl, rfl⟩
theorem Sys2Proof.Laws.OpMap.dmax (x1 : TWord) : Statement (.dmax x1) := by rintro _ _ ⟨⟩; exact ⟨rfl, rfl⟩
theorem Sys2Proof.Laws.OpMap.dcmp (x1 : TWord) : Statement (.dcmp x1) := by rintro _ _ ⟨⟩; exact ⟨rfl, rfl⟩
theorem Sys2Proof.Laws.OpMap.drcp (x1 : TWord) : Statement (.drcp x1) := by rintro _ _ ⟨⟩; exact ⟨rfl, rfl⟩
theorem Sys2Proof.Laws.OpMap.pkadd (x1 : TWord) : Statement (.pkadd x1) := by rintro _ _ ⟨⟩; exact ⟨rfl, rfl⟩
theorem Sys2Proof.Laws.OpMap.pkmul (x1 : TWord) : Statement (.pkmul x1) := by rintro _ _ ⟨⟩; exact ⟨rfl, rfl⟩
theorem Sys2Proof.Laws.OpMap.pkfma (x1 : TWord) : Statement (.pkfma x1) := by rintro _ _ ⟨⟩; exact ⟨rfl, rfl⟩
theorem Sys2Proof.Laws.OpMap.pksub (x1 : TWord) : Statement (.pksub x1) := by rintro _ _ ⟨⟩; exact ⟨rfl, rfl⟩
theorem Sys2Proof.Laws.OpMap.pkmin (x1 : TWord) : Statement (.pkmin x1) := by rintro _ _ ⟨⟩; exact ⟨rfl, rfl⟩
theorem Sys2Proof.Laws.OpMap.pkmax (x1 : TWord) : Statement (.pkmax x1) := by rintro _ _ ⟨⟩; exact ⟨rfl, rfl⟩
theorem Sys2Proof.Laws.OpMap.idot4 (x1 : TWord) : Statement (.idot4 x1) := by rintro _ _ ⟨⟩; exact ⟨rfl, rfl⟩
theorem Sys2Proof.Laws.OpMap.cvt (x1 : IWord) : Statement (.cvt x1) := by rintro _ _ ⟨⟩; exact ⟨rfl, rfl⟩
theorem Sys2Proof.Laws.OpMap.cvtn (x1 : IWord) : Statement (.cvtn x1) := by rintro _ _ ⟨⟩; exact ⟨rfl, rfl⟩
theorem Sys2Proof.Laws.OpMap.cvts (x1 : IWord) : Statement (.cvts x1) := by rintro _ _ ⟨⟩; exact ⟨rfl, rfl⟩
theorem Sys2Proof.Laws.OpMap.packn (x1 : TWord) : Statement (.packn x1) := by rintro _ _ ⟨⟩; exact ⟨rfl, rfl⟩
theorem Sys2Proof.Laws.OpMap.unpackn (x1 : TWord) : Statement (.unpackn x1) := by rintro _ _ ⟨⟩; exact ⟨rfl, rfl⟩
theorem Sys2Proof.Laws.OpMap.ld (x1 : MWord) : Statement (.ld x1) := by rintro _ _ ⟨⟩; exact ⟨rfl, rfl⟩
theorem Sys2Proof.Laws.OpMap.st (x1 : MWord) : Statement (.st x1) := by rintro _ _ ⟨⟩; exact ⟨rfl, rfl⟩
theorem Sys2Proof.Laws.OpMap.ldbnd (x1 : MWord) : Statement (.ldbnd x1) := by rintro _ _ ⟨⟩; exact ⟨rfl, rfl⟩
theorem Sys2Proof.Laws.OpMap.tilefill (x1 : MWord) : Statement (.tilefill x1) := by rintro _ _ ⟨⟩; exact ⟨rfl, rfl⟩
theorem Sys2Proof.Laws.OpMap.ldmc (x1 : MWord) : Statement (.ldmc x1) := by rintro _ _ ⟨⟩; exact ⟨rfl, rfl⟩
theorem Sys2Proof.Laws.OpMap.stf (x1 : MWord) : Statement (.stf x1) := by rintro _ _ ⟨⟩; exact ⟨rfl, rfl⟩
theorem Sys2Proof.Laws.OpMap.zfill (x1 : MWord) : Statement (.zfill x1) := by rintro _ _ ⟨⟩; exact ⟨rfl, rfl⟩
theorem Sys2Proof.Laws.OpMap.pref (x1 : MWord) : Statement (.pref x1) := by rintro _ _ ⟨⟩; exact ⟨rfl, rfl⟩
theorem Sys2Proof.Laws.OpMap.ldacc (x1 : MWord) : Statement (.ldacc x1) := by rintro _ _ ⟨⟩; exact ⟨rfl, rfl⟩
theorem Sys2Proof.Laws.OpMap.stacc (x1 : MWord) : Statement (.stacc x1) := by rintro _ _ ⟨⟩; exact ⟨rfl, rfl⟩
theorem Sys2Proof.Laws.OpMap.atom (x1 : MWord) : Statement (.atom x1) := by rintro _ _ ⟨⟩; exact ⟨rfl, rfl⟩
theorem Sys2Proof.Laws.OpMap.cas (x1 : MWord) : Statement (.cas x1) := by rintro _ _ ⟨⟩; exact ⟨rfl, rfl⟩
theorem Sys2Proof.Laws.OpMap.red (x1 : MWord) : Statement (.red x1) := by rintro _ _ ⟨⟩; exact ⟨rfl, rfl⟩
theorem Sys2Proof.Laws.OpMap.fence (x1 : MWord) : Statement (.fence x1) := by rintro _ _ ⟨⟩; exact ⟨rfl, rfl⟩
theorem Sys2Proof.Laws.OpMap.mma (x1 : EWord) : Statement (.mma x1) := by rintro _ _ ⟨⟩; exact ⟨rfl, rfl⟩
theorem Sys2Proof.Laws.OpMap.mmaQ8 (x1 : EWord) : Statement (.mmaQ8 x1) := by rintro _ _ ⟨⟩; exact ⟨rfl, rfl⟩
theorem Sys2Proof.Laws.OpMap.mmaQ6 (x1 : EWord) : Statement (.mmaQ6 x1) := by rintro _ _ ⟨⟩; exact ⟨rfl, rfl⟩
theorem Sys2Proof.Laws.OpMap.mmaQ4 (x1 : EWord) : Statement (.mmaQ4 x1) := by rintro _ _ ⟨⟩; exact ⟨rfl, rfl⟩
theorem Sys2Proof.Laws.OpMap.smma (x1 : EWord) : Statement (.smma x1) := by rintro _ _ ⟨⟩; exact ⟨rfl, rfl⟩
theorem Sys2Proof.Laws.OpMap.smmaQ8 (x1 : EWord) : Statement (.smmaQ8 x1) := by rintro _ _ ⟨⟩; exact ⟨rfl, rfl⟩
theorem Sys2Proof.Laws.OpMap.smmaQ6 (x1 : EWord) : Statement (.smmaQ6 x1) := by rintro _ _ ⟨⟩; exact ⟨rfl, rfl⟩
theorem Sys2Proof.Laws.OpMap.smmaQ4 (x1 : EWord) : Statement (.smmaQ4 x1) := by rintro _ _ ⟨⟩; exact ⟨rfl, rfl⟩
theorem Sys2Proof.Laws.OpMap.mmaw (x1 : EWord) : Statement (.mmaw x1) := by rintro _ _ ⟨⟩; exact ⟨rfl, rfl⟩
theorem Sys2Proof.Laws.OpMap.mmawQ8 (x1 : EWord) : Statement (.mmawQ8 x1) := by rintro _ _ ⟨⟩; exact ⟨rfl, rfl⟩
theorem Sys2Proof.Laws.OpMap.mmawQ6 (x1 : EWord) : Statement (.mmawQ6 x1) := by rintro _ _ ⟨⟩; exact ⟨rfl, rfl⟩
theorem Sys2Proof.Laws.OpMap.mmawQ4 (x1 : EWord) : Statement (.mmawQ4 x1) := by rintro _ _ ⟨⟩; exact ⟨rfl, rfl⟩
theorem Sys2Proof.Laws.OpMap.accz (x1 : EWord) : Statement (.accz x1) := by rintro _ _ ⟨⟩; exact ⟨rfl, rfl⟩
theorem Sys2Proof.Laws.OpMap.accdrain (x1 : EWord) : Statement (.accdrain x1) := by rintro _ _ ⟨⟩; exact ⟨rfl, rfl⟩
theorem Sys2Proof.Laws.OpMap.accload (x1 : EWord) : Statement (.accload x1) := by rintro _ _ ⟨⟩; exact ⟨rfl, rfl⟩
theorem Sys2Proof.Laws.OpMap.copy (x1 : EWord) : Statement (.copy x1) := by rintro _ _ ⟨⟩; exact ⟨rfl, rfl⟩
theorem Sys2Proof.Laws.OpMap.copymc (x1 : EWord) : Statement (.copymc x1) := by rintro _ _ ⟨⟩; exact ⟨rfl, rfl⟩
theorem Sys2Proof.Laws.OpMap.copyq (x1 : EWord) : Statement (.copyq x1) := by rintro _ _ ⟨⟩; exact ⟨rfl, rfl⟩
theorem Sys2Proof.Laws.OpMap.spush (x1 : TWord) : Statement (.spush x1) := by rintro _ _ ⟨⟩; exact ⟨rfl, rfl⟩
theorem Sys2Proof.Laws.OpMap.qpop (x1 : TWord) : Statement (.qpop x1) := by rintro _ _ ⟨⟩; exact ⟨rfl, rfl⟩
theorem Sys2Proof.Laws.OpMap.pld (x1 : MWord) : Statement (.pld x1) := by rintro _ _ ⟨⟩; exact ⟨rfl, rfl⟩
theorem Sys2Proof.Laws.OpMap.pst (x1 : MWord) : Statement (.pst x1) := by rintro _ _ ⟨⟩; exact ⟨rfl, rfl⟩
theorem Sys2Proof.Laws.OpMap.patom (x1 : MWord) : Statement (.patom x1) := by rintro _ _ ⟨⟩; exact ⟨rfl, rfl⟩
theorem Sys2Proof.Laws.OpMap.coll (x1 : EWord) : Statement (.coll x1) := by rintro _ _ ⟨⟩; exact ⟨rfl, rfl⟩
theorem Sys2Proof.Laws.OpMap.issueSlot (x1 x2 : Nat) : Statement (.issueSlot x1 x2) := by rintro _ _ ⟨⟩
theorem Sys2Proof.Laws.OpMap.reconvHoldExpire (x1 : TRef) : Statement (.reconvHoldExpire x1) := by rintro _ _ ⟨⟩
theorem Sys2Proof.Laws.OpMap.yieldExpire (x1 : TRef) : Statement (.yieldExpire x1) := by rintro _ _ ⟨⟩
theorem Sys2Proof.Laws.OpMap.sleepWake (x1 : TRef) : Statement (.sleepWake x1) := by rintro _ _ ⟨⟩
theorem Sys2Proof.Laws.OpMap.barrierWaveRelease (x1 : Nat) : Statement (.barrierWaveRelease x1) := by rintro _ _ ⟨⟩
theorem Sys2Proof.Laws.OpMap.rendezvousFaultTrap (x1 : TRef) : Statement (.rendezvousFaultTrap x1) := by rintro _ _ ⟨⟩
theorem Sys2Proof.Laws.OpMap.loadReturn (x1 : Nat) (x2 : Bool) : Statement (.loadReturn x1 x2) := by rintro _ _ ⟨⟩
theorem Sys2Proof.Laws.OpMap.storePerformed (x1 : Nat) : Statement (.storePerformed x1) := by rintro _ _ ⟨⟩
theorem Sys2Proof.Laws.OpMap.sliceRead (x1 : Nat) : Statement (.sliceRead x1) := by rintro _ _ ⟨⟩
theorem Sys2Proof.Laws.OpMap.sliceWrite (x1 : Nat) : Statement (.sliceWrite x1) := by rintro _ _ ⟨⟩
theorem Sys2Proof.Laws.OpMap.sliceStf (x1 : Nat) : Statement (.sliceStf x1) := by rintro _ _ ⟨⟩
theorem Sys2Proof.Laws.OpMap.sliceZfill (x1 : Nat) : Statement (.sliceZfill x1) := by rintro _ _ ⟨⟩
theorem Sys2Proof.Laws.OpMap.sliceAtomic (x1 : Nat) : Statement (.sliceAtomic x1) := by rintro _ _ ⟨⟩
theorem Sys2Proof.Laws.OpMap.watchRequest (x1 : Nat) : Statement (.watchRequest x1) := by rintro _ _ ⟨⟩
theorem Sys2Proof.Laws.OpMap.watchWake (x1 : TRef) : Statement (.watchWake x1) := by rintro _ _ ⟨⟩
theorem Sys2Proof.Laws.OpMap.multicastRequest (x1 : Nat) : Statement (.multicastRequest x1) := by rintro _ _ ⟨⟩
theorem Sys2Proof.Laws.OpMap.multicastTimeout (x1 x2 : Nat) : Statement (.multicastTimeout x1 x2) := by rintro _ _ ⟨⟩
theorem Sys2Proof.Laws.OpMap.multicastRecordExpire (x1 : Nat) : Statement (.multicastRecordExpire x1) := by rintro _ _ ⟨⟩
theorem Sys2Proof.Laws.OpMap.aliasRead (x1 : Nat) : Statement (.aliasRead x1) := by rintro _ _ ⟨⟩
theorem Sys2Proof.Laws.OpMap.aliasWrite (x1 : Nat) : Statement (.aliasWrite x1) := by rintro _ _ ⟨⟩
theorem Sys2Proof.Laws.OpMap.dramRequest (x1 x2 : Nat) : Statement (.dramRequest x1 x2) := by rintro _ _ ⟨⟩
theorem Sys2Proof.Laws.OpMap.dramRefresh (x1 x2 x3 : Nat) : Statement (.dramRefresh x1 x2 x3) := by rintro _ _ ⟨⟩
theorem Sys2Proof.Laws.OpMap.selfRefreshEntry (x1 x2 : Nat) : Statement (.selfRefreshEntry x1 x2) := by rintro _ _ ⟨⟩
theorem Sys2Proof.Laws.OpMap.selfRefreshExit (x1 x2 : Nat) : Statement (.selfRefreshExit x1 x2) := by rintro _ _ ⟨⟩
theorem Sys2Proof.Laws.OpMap.selfRefreshExitTimeout (x1 x2 : Nat) : Statement (.selfRefreshExitTimeout x1 x2) := by rintro _ _ ⟨⟩
theorem Sys2Proof.Laws.OpMap.pageWalk (x1 x2 x3 : Nat) (x4 : AccKind) : Statement (.pageWalk x1 x2 x3 x4) := by rintro _ _ ⟨⟩
theorem Sys2Proof.Laws.OpMap.copyUnitTransfer (x1 x2 x3 : Nat) : Statement (.copyUnitTransfer x1 x2 x3) := by rintro _ _ ⟨⟩
theorem Sys2Proof.Laws.OpMap.copyqEntryPlace (x1 x2 : Nat) : Statement (.copyqEntryPlace x1 x2) := by rintro _ _ ⟨⟩
theorem Sys2Proof.Laws.OpMap.engineAccept (x1 : Nat) (x2 : Bool) : Statement (.engineAccept x1 x2) := by rintro _ _ ⟨⟩
theorem Sys2Proof.Laws.OpMap.matrixGroupUpdate (x1 x2 x3 x4 : Nat) : Statement (.matrixGroupUpdate x1 x2 x3 x4) := by rintro _ _ ⟨⟩
theorem Sys2Proof.Laws.OpMap.smmaMetaPop (x1 x2 : Nat) : Statement (.smmaMetaPop x1 x2) := by rintro _ _ ⟨⟩
theorem Sys2Proof.Laws.OpMap.accOpProgress (x1 x2 : Nat) : Statement (.accOpProgress x1 x2) := by rintro _ _ ⟨⟩
theorem Sys2Proof.Laws.OpMap.peerTargetRequest (x1 : PeerMsg) : Statement (.peerTargetRequest x1) := by rintro _ _ ⟨⟩
theorem Sys2Proof.Laws.OpMap.peerResponse (x1 : PeerMsg) : Statement (.peerResponse x1) := by rintro _ _ ⟨⟩
theorem Sys2Proof.Laws.OpMap.twillFlitReceive (x1 : Nat) (x2 : Flit) : Statement (.twillFlitReceive x1 x2) := by rintro _ _ ⟨⟩
theorem Sys2Proof.Laws.OpMap.twillPortDown (x1 : Nat) : Statement (.twillPortDown x1) := by rintro _ _ ⟨⟩
theorem Sys2Proof.Laws.OpMap.peerStreamTimeout (x1 x2 : Nat) : Statement (.peerStreamTimeout x1 x2) := by rintro _ _ ⟨⟩
theorem Sys2Proof.Laws.OpMap.collComplete (x1 : Nat) (x2 : List (List Byte)) : Statement (.collComplete x1 x2) := by rintro _ _ ⟨⟩
theorem Sys2Proof.Laws.OpMap.collTimeout (x1 : Nat) : Statement (.collTimeout x1) := by rintro _ _ ⟨⟩
theorem Sys2Proof.Laws.OpMap.flockPlace (x1 : Nat) : Statement (.flockPlace x1) := by rintro _ _ ⟨⟩
theorem Sys2Proof.Laws.OpMap.herdPlace (x1 : Nat) : Statement (.herdPlace x1) := by rintro _ _ ⟨⟩
theorem Sys2Proof.Laws.OpMap.flockComplete (x1 x2 : Nat) : Statement (.flockComplete x1 x2) := by rintro _ _ ⟨⟩
theorem Sys2Proof.Laws.OpMap.flockAbort (x1 x2 : Nat) : Statement (.flockAbort x1 x2) := by rintro _ _ ⟨⟩
theorem Sys2Proof.Laws.OpMap.abortAllocFree (x1 x2 : Nat) : Statement (.abortAllocFree x1 x2) := by rintro _ _ ⟨⟩
theorem Sys2Proof.Laws.OpMap.runAccept (x1 : TRef) : Statement (.runAccept x1) := by rintro _ _ ⟨⟩
theorem Sys2Proof.Laws.OpMap.tileEvalPlace (x1 x2 : Nat) : Statement (.tileEvalPlace x1 x2) := by rintro _ _ ⟨⟩
theorem Sys2Proof.Laws.OpMap.tileOutcome (x1 x2 : Nat) : Statement (.tileOutcome x1 x2) := by rintro _ _ ⟨⟩
theorem Sys2Proof.Laws.OpMap.sqtail (x1 : Fn) (x2 x3 : Nat) : Statement (.sqtail x1 x2 x3) := by rintro _ _ ⟨⟩
theorem Sys2Proof.Laws.OpMap.stepBegin (x1 : Nat) : Statement (.stepBegin x1) := by rintro _ _ ⟨⟩
theorem Sys2Proof.Laws.OpMap.runNode (x1 x2 : Nat) : Statement (.runNode x1 x2) := by rintro _ _ ⟨⟩
theorem Sys2Proof.Laws.OpMap.condNode (x1 x2 : Nat) : Statement (.condNode x1 x2) := by rintro _ _ ⟨⟩
theorem Sys2Proof.Laws.OpMap.loopNode (x1 x2 : Nat) : Statement (.loopNode x1 x2) := by rintro _ _ ⟨⟩
theorem Sys2Proof.Laws.OpMap.waitvNode (x1 x2 : Nat) : Statement (.waitvNode x1 x2) := by rintro _ _ ⟨⟩
theorem Sys2Proof.Laws.OpMap.waitvResolve (x1 x2 : Nat) : Statement (.waitvResolve x1 x2) := by rintro _ _ ⟨⟩
theorem Sys2Proof.Laws.OpMap.signalNode (x1 x2 : Nat) : Statement (.signalNode x1 x2) := by rintro _ _ ⟨⟩
theorem Sys2Proof.Laws.OpMap.testNode (x1 x2 : Nat) : Statement (.testNode x1 x2) := by rintro _ _ ⟨⟩
theorem Sys2Proof.Laws.OpMap.testResolve (x1 x2 : Nat) : Statement (.testResolve x1 x2) := by rintro _ _ ⟨⟩
theorem Sys2Proof.Laws.OpMap.endNode (x1 x2 : Nat) : Statement (.endNode x1 x2) := by rintro _ _ ⟨⟩
theorem Sys2Proof.Laws.OpMap.stepComplete (x1 : Nat) : Statement (.stepComplete x1) := by rintro _ _ ⟨⟩
theorem Sys2Proof.Laws.OpMap.serverReplenish (x1 x2 x3 : Nat) : Statement (.serverReplenish x1 x2 x3) := by rintro _ _ ⟨⟩
theorem Sys2Proof.Laws.OpMap.srvAdmit (x1 : TRef) : Statement (.srvAdmit x1) := by rintro _ _ ⟨⟩
theorem Sys2Proof.Laws.OpMap.srvRelease (x1 : TRef) : Statement (.srvRelease x1) := by rintro _ _ ⟨⟩
theorem Sys2Proof.Laws.OpMap.srvUpdate (x1 : TRef) : Statement (.srvUpdate x1) := by rintro _ _ ⟨⟩
theorem Sys2Proof.Laws.OpMap.routeadm (x1 : Nat) (x2 : List Bool) : Statement (.routeadm x1 x2) := by rintro _ _ ⟨⟩
theorem Sys2Proof.Laws.OpMap.routeAdmitTimeout (x1 x2 : Nat) : Statement (.routeAdmitTimeout x1 x2) := by rintro _ _ ⟨⟩
theorem Sys2Proof.Laws.OpMap.admboundWrite (x1 x2 x3 : Nat) : Statement (.admboundWrite x1 x2 x3) := by rintro _ _ ⟨⟩
theorem Sys2Proof.Laws.OpMap.preempt (x1 : Fn) (x2 : Nat) : Statement (.preempt x1 x2) := by rintro _ _ ⟨⟩
theorem Sys2Proof.Laws.OpMap.save (x1 : Fn) (x2 : Nat) : Statement (.save x1 x2) := by rintro _ _ ⟨⟩
theorem Sys2Proof.Laws.OpMap.resume (x1 : Fn) (x2 : Nat) : Statement (.resume x1 x2) := by rintro _ _ ⟨⟩
theorem Sys2Proof.Laws.OpMap.skip (x1 : Fn) (x2 : Nat) : Statement (.skip x1 x2) := by rintro _ _ ⟨⟩
theorem Sys2Proof.Laws.OpMap.replay (x1 : Fn) (x2 x3 : Nat) : Statement (.replay x1 x2 x3) := by rintro _ _ ⟨⟩
theorem Sys2Proof.Laws.OpMap.invtlb (x1 : Fn) (x2 : Nat) : Statement (.invtlb x1 x2) := by rintro _ _ ⟨⟩
theorem Sys2Proof.Laws.OpMap.flushic (x1 : Fn) (x2 : Nat) : Statement (.flushic x1 x2) := by rintro _ _ ⟨⟩
theorem Sys2Proof.Laws.OpMap.ctxcmdDone (x1 : Nat) : Statement (.ctxcmdDone x1) := by rintro _ _ ⟨⟩
theorem Sys2Proof.Laws.OpMap.drainLimit (x1 : Nat) : Statement (.drainLimit x1) := by rintro _ _ ⟨⟩
theorem Sys2Proof.Laws.OpMap.flockSave (x1 x2 : Nat) : Statement (.flockSave x1 x2) := by rintro _ _ ⟨⟩
theorem Sys2Proof.Laws.OpMap.contextStopped (x1 : Nat) : Statement (.contextStopped x1) := by rintro _ _ ⟨⟩
theorem Sys2Proof.Laws.OpMap.flockRestore (x1 : Nat) : Statement (.flockRestore x1) := by rintro _ _ ⟨⟩
theorem Sys2Proof.Laws.OpMap.governorEval : Statement (.governorEval) := by rintro _ _ ⟨⟩
theorem Sys2Proof.Laws.OpMap.voltageRampDone (x1 : Nat) : Statement (.voltageRampDone x1) := by rintro _ _ ⟨⟩
theorem Sys2Proof.Laws.OpMap.dividerStep (x1 : Nat) : Statement (.dividerStep x1) := by rintro _ _ ⟨⟩
theorem Sys2Proof.Laws.OpMap.raiseTimeout (x1 x2 : Nat) : Statement (.raiseTimeout x1 x2) := by rintro _ _ ⟨⟩
theorem Sys2Proof.Laws.OpMap.ceilWrite (x1 x2 : Nat) : Statement (.ceilWrite x1 x2) := by rintro _ _ ⟨⟩
theorem Sys2Proof.Laws.OpMap.mgmtTableWrite (x1 : TableWrite) : Statement (.mgmtTableWrite x1) := by rintro _ _ ⟨⟩
theorem Sys2Proof.Laws.OpMap.droopAlarm (x1 x2 : Nat) : Statement (.droopAlarm x1 x2) := by rintro _ _ ⟨⟩
theorem Sys2Proof.Laws.OpMap.droopStretchEnd (x1 : Nat) : Statement (.droopStretchEnd x1) := by rintro _ _ ⟨⟩
theorem Sys2Proof.Laws.OpMap.droopResponseEnd (x1 : Nat) : Statement (.droopResponseEnd x1) := by rintro _ _ ⟨⟩
theorem Sys2Proof.Laws.OpMap.thermalMark (x1 x2 : Nat) : Statement (.thermalMark x1 x2) := by rintro _ _ ⟨⟩
theorem Sys2Proof.Laws.OpMap.warnCeilStep (x1 : Nat) : Statement (.warnCeilStep x1) := by rintro _ _ ⟨⟩
theorem Sys2Proof.Laws.OpMap.powerMeasure (x1 : Nat) : Statement (.powerMeasure x1) := by rintro _ _ ⟨⟩
theorem Sys2Proof.Laws.OpMap.powerLimitThrottle (x1 : Nat) : Statement (.powerLimitThrottle x1) := by rintro _ _ ⟨⟩
theorem Sys2Proof.Laws.OpMap.critEnter (x1 : Nat) : Statement (.critEnter x1) := by rintro _ _ ⟨⟩
theorem Sys2Proof.Laws.OpMap.critSaveLimit : Statement (.critSaveLimit) := by rintro _ _ ⟨⟩
theorem Sys2Proof.Laws.OpMap.computeRailsOff : Statement (.computeRailsOff) := by rintro _ _ ⟨⟩
theorem Sys2Proof.Laws.OpMap.critRecover (x1 : Nat) : Statement (.critRecover x1) := by rintro _ _ ⟨⟩
theorem Sys2Proof.Laws.OpMap.thermalTrip (x1 : Nat) : Statement (.thermalTrip x1) := by rintro _ _ ⟨⟩
theorem Sys2Proof.Laws.OpMap.fwHeartbeat : Statement (.fwHeartbeat) := by rintro _ _ ⟨⟩
theorem Sys2Proof.Laws.OpMap.watchdogExpire : Statement (.watchdogExpire) := by rintro _ _ ⟨⟩
theorem Sys2Proof.Laws.OpMap.containedEvent (x1 : Nat) : Statement (.containedEvent x1) := by rintro _ _ ⟨⟩
theorem Sys2Proof.Laws.OpMap.bankClear (x1 : Nat) : Statement (.bankClear x1) := by rintro _ _ ⟨⟩
theorem Sys2Proof.Laws.OpMap.patrolScrub (x1 : Granule) : Statement (.patrolScrub x1) := by rintro _ _ ⟨⟩
theorem Sys2Proof.Laws.OpMap.idleSelftest (x1 : Nat) : Statement (.idleSelftest x1) := by rintro _ _ ⟨⟩
theorem Sys2Proof.Laws.OpMap.selftestAbandon (x1 : Nat) : Statement (.selftestAbandon x1) := by rintro _ _ ⟨⟩
theorem Sys2Proof.Laws.OpMap.clusterTestEnd (x1 : Nat) (x2 x3 : Bool) : Statement (.clusterTestEnd x1 x2 x3) := by rintro _ _ ⟨⟩
theorem Sys2Proof.Laws.OpMap.splitChange (x1 : Nat) : Statement (.splitChange x1) := by rintro _ _ ⟨⟩
theorem Sys2Proof.Laws.OpMap.moveStart (x1 : Nat) : Statement (.moveStart x1) := by rintro _ _ ⟨⟩
theorem Sys2Proof.Laws.OpMap.movePageCopy : Statement (.movePageCopy) := by rintro _ _ ⟨⟩
theorem Sys2Proof.Laws.OpMap.moveEnd (x1 : Nat) : Statement (.moveEnd x1) := by rintro _ _ ⟨⟩
theorem Sys2Proof.Laws.OpMap.eqhead (x1 : Fn) (x2 : Nat) : Statement (.eqhead x1 x2) := by rintro _ _ ⟨⟩
theorem Sys2Proof.Laws.OpMap.eqbase (x1 : Fn) (x2 : Nat) : Statement (.eqbase x1 x2) := by rintro _ _ ⟨⟩
theorem Sys2Proof.Laws.OpMap.hostWindowAccess (x1 : Fn) (x2 : Nat) (x3 : Option (List Byte)) (x4 : Nat) : Statement (.hostWindowAccess x1 x2 x3 x4) := by rintro _ _ ⟨⟩
theorem Sys2Proof.Laws.OpMap.registerWrite (x1 : Fn) (x2 x3 x4 : Nat) : Statement (.registerWrite x1 x2 x3 x4) := by rintro _ _ ⟨⟩
theorem Sys2Proof.Laws.OpMap.info : Statement (.info) := by rintro _ _ ⟨⟩
theorem Sys2Proof.Laws.OpMap.mcread : Statement (.mcread) := by rintro _ _ ⟨⟩
theorem Sys2Proof.Laws.OpMap.fwbegin : Statement (.fwbegin) := by rintro _ _ ⟨⟩
theorem Sys2Proof.Laws.OpMap.fwdata : Statement (.fwdata) := by rintro _ _ ⟨⟩
theorem Sys2Proof.Laws.OpMap.fwend : Statement (.fwend) := by rintro _ _ ⟨⟩
theorem Sys2Proof.Laws.OpMap.reset : Statement (.reset) := by rintro _ _ ⟨⟩
theorem Sys2Proof.Laws.OpMap.setdev : Statement (.setdev) := by rintro _ _ ⟨⟩
theorem Sys2Proof.Laws.OpMap.setbound : Statement (.setbound) := by rintro _ _ ⟨⟩
theorem Sys2Proof.Laws.OpMap.selftest : Statement (.selftest) := by rintro _ _ ⟨⟩
theorem Sys2Proof.Laws.OpMap.spdmRequest (x1 : List Byte) : Statement (.spdmRequest x1) := by rintro _ _ ⟨⟩
theorem Sys2Proof.Laws.OpMap.coldStart : Statement (.coldStart) := by rintro _ _ ⟨⟩
theorem Sys2Proof.Laws.OpMap.startStage (x1 : Bool) (x2 : Nat) : Statement (.startStage x1 x2) := by rintro _ _ ⟨⟩
theorem Sys2Proof.Laws.OpMap.vfFlr (x1 : Nat) : Statement (.vfFlr x1) := by rintro _ _ ⟨⟩
theorem Sys2Proof.Laws.OpMap.pfReset : Statement (.pfReset) := by rintro _ _ ⟨⟩
theorem Sys2Proof.Laws.OpMap.pcieLinkDown : Statement (.pcieLinkDown) := by rintro _ _ ⟨⟩
theorem Sys2Proof.Laws.OpMap.pcieLinkUp : Statement (.pcieLinkUp) := by rintro _ _ ⟨⟩
theorem Sys2Proof.Laws.OpMap.pseudoChannelRetrain (x1 x2 : Nat) : Statement (.pseudoChannelRetrain x1 x2) := by rintro _ _ ⟨⟩
theorem Sys2Proof.Laws.OpMap.eqlog (x1 : Fn) (x2 : Nat) : Statement (.eqlog x1 x2) := by rintro _ _ ⟨⟩
theorem Sys2Proof.Laws.OpMap.powerLimitRelease (x1 : Nat) : Statement (.powerLimitRelease x1) := by rintro _ _ ⟨⟩

namespace Sys2Proof

/-- The map of every instruction. -/
theorem opMap_holds (i : Instr) : Laws.OpMap.Statement i := by
  cases i

  case nop => exact Laws.OpMap.nop _
  case bra => exact Laws.OpMap.bra _
  case brc => exact Laws.OpMap.brc _
  case call => exact Laws.OpMap.call _
  case calli => exact Laws.OpMap.calli _
  case jmpi => exact Laws.OpMap.jmpi _
  case ret => exact Laws.OpMap.ret _
  case exit => exact Laws.OpMap.exit _
  case demote => exact Laws.OpMap.demote _
  case commit => exact Laws.OpMap.commit _
  case yield => exact Laws.OpMap.yield _
  case trap => exact Laws.OpMap.trap _
  case rtt => exact Laws.OpMap.rtt _
  case launch => exact Laws.OpMap.launch _
  case bar => exact Laws.OpMap.bar _
  case hbar => exact Laws.OpMap.hbar _
  case mfsr => exact Laws.OpMap.mfsr _
  case mtsr => exact Laws.OpMap.mtsr _
  case flushi => exact Laws.OpMap.flushi _
  case tlbinv => exact Laws.OpMap.tlbinv _
  case time => exact Laws.OpMap.time _
  case tid => exact Laws.OpMap.tid _
  case movk => exact Laws.OpMap.movk _
  case sleep => exact Laws.OpMap.sleep _
  case watch => exact Laws.OpMap.watch _
  case wait => exact Laws.OpMap.wait _
  case waitbm => exact Laws.OpMap.waitbm _
  case stepdl => exact Laws.OpMap.stepdl _
  case slack => exact Laws.OpMap.slack _
  case bmode => exact Laws.OpMap.bmode _
  case iaddT => exact Laws.OpMap.iaddT _
  case iaddI => exact Laws.OpMap.iaddI _
  case isubT => exact Laws.OpMap.isubT _
  case isubI => exact Laws.OpMap.isubI _
  case iaddc => exact Laws.OpMap.iaddc _
  case imulT => exact Laws.OpMap.imulT _
  case imulI => exact Laws.OpMap.imulI _
  case imulh => exact Laws.OpMap.imulh _
  case imad => exact Laws.OpMap.imad _
  case imadw => exact Laws.OpMap.imadw _
  case iminT => exact Laws.OpMap.iminT _
  case iminI => exact Laws.OpMap.iminI _
  case imaxT => exact Laws.OpMap.imaxT _
  case imaxI => exact Laws.OpMap.imaxI _
  case iabs => exact Laws.OpMap.iabs _
  case isad => exact Laws.OpMap.isad _
  case andT => exact Laws.OpMap.andT _
  case andI => exact Laws.OpMap.andI _
  case orT => exact Laws.OpMap.orT _
  case orI => exact Laws.OpMap.orI _
  case xorT => exact Laws.OpMap.xorT _
  case xorI => exact Laws.OpMap.xorI _
  case andnT => exact Laws.OpMap.andnT _
  case andnI => exact Laws.OpMap.andnI _
  case logt => exact Laws.OpMap.logt _
  case shlT => exact Laws.OpMap.shlT _
  case shlI => exact Laws.OpMap.shlI _
  case shrT => exact Laws.OpMap.shrT _
  case shrI => exact Laws.OpMap.shrI _
  case shraT => exact Laws.OpMap.shraT _
  case shraI => exact Laws.OpMap.shraI _
  case rotlT => exact Laws.OpMap.rotlT _
  case rotlI => exact Laws.OpMap.rotlI _
  case funnel => exact Laws.OpMap.funnel _
  case bfeT => exact Laws.OpMap.bfeT _
  case bfeI => exact Laws.OpMap.bfeI _
  case bfi => exact Laws.OpMap.bfi _
  case popc => exact Laws.OpMap.popc _
  case clz => exact Laws.OpMap.clz _
  case ctz => exact Laws.OpMap.ctz _
  case brev => exact Laws.OpMap.brev _
  case permb => exact Laws.OpMap.permb _
  case permn => exact Laws.OpMap.permn _
  case sel => exact Laws.OpMap.sel _
  case icmpT => exact Laws.OpMap.icmpT _
  case icmpI => exact Laws.OpMap.icmpI _
  case pcomb => exact Laws.OpMap.pcomb _
  case mov => exact Laws.OpMap.mov _
  case movi => exact Laws.OpMap.movi _
  case movx => exact Laws.OpMap.movx _
  case leaT => exact Laws.OpMap.leaT _
  case leaI => exact Laws.OpMap.leaI _
  case aper => exact Laws.OpMap.aper _
  case lxchT => exact Laws.OpMap.lxchT _
  case lxchI => exact Laws.OpMap.lxchI _
  case poll => exact Laws.OpMap.poll _
  case redx => exact Laws.OpMap.redx _
  case scanx => exact Laws.OpMap.scanx _
  case eqmask => exact Laws.OpMap.eqmask _
  case lead => exact Laws.OpMap.lead _
  case faddT => exact Laws.OpMap.faddT _
  case faddI => exact Laws.OpMap.faddI _
  case fsub => exact Laws.OpMap.fsub _
  case fmulT => exact Laws.OpMap.fmulT _
  case fmulI => exact Laws.OpMap.fmulI _
  case ffmaT => exact Laws.OpMap.ffmaT _
  case ffmaI => exact Laws.OpMap.ffmaI _
  case fminT => exact Laws.OpMap.fminT _
  case fminI => exact Laws.OpMap.fminI _
  case fmaxT => exact Laws.OpMap.fmaxT _
  case fmaxI => exact Laws.OpMap.fmaxI _
  case fcmpT => exact Laws.OpMap.fcmpT _
  case fcmpI => exact Laws.OpMap.fcmpI _
  case frcp => exact Laws.OpMap.frcp _
  case frsq => exact Laws.OpMap.frsq _
  case fsqrt => exact Laws.OpMap.fsqrt _
  case fexp2 => exact Laws.OpMap.fexp2 _
  case flog2 => exact Laws.OpMap.flog2 _
  case fsin => exact Laws.OpMap.fsin _
  case fcos => exact Laws.OpMap.fcos _
  case ftanh => exact Laws.OpMap.ftanh _
  case daddT => exact Laws.OpMap.daddT _
  case daddI => exact Laws.OpMap.daddI _
  case dmulT => exact Laws.OpMap.dmulT _
  case dmulI => exact Laws.OpMap.dmulI _
  case dfma => exact Laws.OpMap.dfma _
  case dmin => exact Laws.OpMap.dmin _
  case dmax => exact Laws.OpMap.dmax _
  case dcmp => exact Laws.OpMap.dcmp _
  case drcp => exact Laws.OpMap.drcp _
  case pkadd => exact Laws.OpMap.pkadd _
  case pkmul => exact Laws.OpMap.pkmul _
  case pkfma => exact Laws.OpMap.pkfma _
  case pksub => exact Laws.OpMap.pksub _
  case pkmin => exact Laws.OpMap.pkmin _
  case pkmax => exact Laws.OpMap.pkmax _
  case idot4 => exact Laws.OpMap.idot4 _
  case cvt => exact Laws.OpMap.cvt _
  case cvtn => exact Laws.OpMap.cvtn _
  case cvts => exact Laws.OpMap.cvts _
  case packn => exact Laws.OpMap.packn _
  case unpackn => exact Laws.OpMap.unpackn _
  case ld => exact Laws.OpMap.ld _
  case st => exact Laws.OpMap.st _
  case ldbnd => exact Laws.OpMap.ldbnd _
  case tilefill => exact Laws.OpMap.tilefill _
  case ldmc => exact Laws.OpMap.ldmc _
  case stf => exact Laws.OpMap.stf _
  case zfill => exact Laws.OpMap.zfill _
  case pref => exact Laws.OpMap.pref _
  case ldacc => exact Laws.OpMap.ldacc _
  case stacc => exact Laws.OpMap.stacc _
  case atom => exact Laws.OpMap.atom _
  case cas => exact Laws.OpMap.cas _
  case red => exact Laws.OpMap.red _
  case fence => exact Laws.OpMap.fence _
  case mma => exact Laws.OpMap.mma _
  case mmaQ8 => exact Laws.OpMap.mmaQ8 _
  case mmaQ6 => exact Laws.OpMap.mmaQ6 _
  case mmaQ4 => exact Laws.OpMap.mmaQ4 _
  case smma => exact Laws.OpMap.smma _
  case smmaQ8 => exact Laws.OpMap.smmaQ8 _
  case smmaQ6 => exact Laws.OpMap.smmaQ6 _
  case smmaQ4 => exact Laws.OpMap.smmaQ4 _
  case mmaw => exact Laws.OpMap.mmaw _
  case mmawQ8 => exact Laws.OpMap.mmawQ8 _
  case mmawQ6 => exact Laws.OpMap.mmawQ6 _
  case mmawQ4 => exact Laws.OpMap.mmawQ4 _
  case accz => exact Laws.OpMap.accz _
  case accdrain => exact Laws.OpMap.accdrain _
  case accload => exact Laws.OpMap.accload _
  case copy => exact Laws.OpMap.copy _
  case copymc => exact Laws.OpMap.copymc _
  case copyq => exact Laws.OpMap.copyq _
  case spush => exact Laws.OpMap.spush _
  case qpop => exact Laws.OpMap.qpop _
  case pld => exact Laws.OpMap.pld _
  case pst => exact Laws.OpMap.pst _
  case patom => exact Laws.OpMap.patom _
  case coll => exact Laws.OpMap.coll _
  case issueSlot => exact Laws.OpMap.issueSlot _ _
  case reconvHoldExpire => exact Laws.OpMap.reconvHoldExpire _
  case yieldExpire => exact Laws.OpMap.yieldExpire _
  case sleepWake => exact Laws.OpMap.sleepWake _
  case barrierWaveRelease => exact Laws.OpMap.barrierWaveRelease _
  case rendezvousFaultTrap => exact Laws.OpMap.rendezvousFaultTrap _
  case loadReturn => exact Laws.OpMap.loadReturn _ _
  case storePerformed => exact Laws.OpMap.storePerformed _
  case sliceRead => exact Laws.OpMap.sliceRead _
  case sliceWrite => exact Laws.OpMap.sliceWrite _
  case sliceStf => exact Laws.OpMap.sliceStf _
  case sliceZfill => exact Laws.OpMap.sliceZfill _
  case sliceAtomic => exact Laws.OpMap.sliceAtomic _
  case watchRequest => exact Laws.OpMap.watchRequest _
  case watchWake => exact Laws.OpMap.watchWake _
  case multicastRequest => exact Laws.OpMap.multicastRequest _
  case multicastTimeout => exact Laws.OpMap.multicastTimeout _ _
  case multicastRecordExpire => exact Laws.OpMap.multicastRecordExpire _
  case aliasRead => exact Laws.OpMap.aliasRead _
  case aliasWrite => exact Laws.OpMap.aliasWrite _
  case dramRequest => exact Laws.OpMap.dramRequest _ _
  case dramRefresh => exact Laws.OpMap.dramRefresh _ _ _
  case selfRefreshEntry => exact Laws.OpMap.selfRefreshEntry _ _
  case selfRefreshExit => exact Laws.OpMap.selfRefreshExit _ _
  case selfRefreshExitTimeout => exact Laws.OpMap.selfRefreshExitTimeout _ _
  case pageWalk => exact Laws.OpMap.pageWalk _ _ _ _
  case copyUnitTransfer => exact Laws.OpMap.copyUnitTransfer _ _ _
  case copyqEntryPlace => exact Laws.OpMap.copyqEntryPlace _ _
  case engineAccept => exact Laws.OpMap.engineAccept _ _
  case matrixGroupUpdate => exact Laws.OpMap.matrixGroupUpdate _ _ _ _
  case smmaMetaPop => exact Laws.OpMap.smmaMetaPop _ _
  case accOpProgress => exact Laws.OpMap.accOpProgress _ _
  case peerTargetRequest => exact Laws.OpMap.peerTargetRequest _
  case peerResponse => exact Laws.OpMap.peerResponse _
  case twillFlitReceive => exact Laws.OpMap.twillFlitReceive _ _
  case twillPortDown => exact Laws.OpMap.twillPortDown _
  case peerStreamTimeout => exact Laws.OpMap.peerStreamTimeout _ _
  case collComplete => exact Laws.OpMap.collComplete _ _
  case collTimeout => exact Laws.OpMap.collTimeout _
  case flockPlace => exact Laws.OpMap.flockPlace _
  case herdPlace => exact Laws.OpMap.herdPlace _
  case flockComplete => exact Laws.OpMap.flockComplete _ _
  case flockAbort => exact Laws.OpMap.flockAbort _ _
  case abortAllocFree => exact Laws.OpMap.abortAllocFree _ _
  case runAccept => exact Laws.OpMap.runAccept _
  case tileEvalPlace => exact Laws.OpMap.tileEvalPlace _ _
  case tileOutcome => exact Laws.OpMap.tileOutcome _ _
  case sqtail => exact Laws.OpMap.sqtail _ _ _
  case stepBegin => exact Laws.OpMap.stepBegin _
  case runNode => exact Laws.OpMap.runNode _ _
  case condNode => exact Laws.OpMap.condNode _ _
  case loopNode => exact Laws.OpMap.loopNode _ _
  case waitvNode => exact Laws.OpMap.waitvNode _ _
  case waitvResolve => exact Laws.OpMap.waitvResolve _ _
  case signalNode => exact Laws.OpMap.signalNode _ _
  case testNode => exact Laws.OpMap.testNode _ _
  case testResolve => exact Laws.OpMap.testResolve _ _
  case endNode => exact Laws.OpMap.endNode _ _
  case stepComplete => exact Laws.OpMap.stepComplete _
  case serverReplenish => exact Laws.OpMap.serverReplenish _ _ _
  case srvAdmit => exact Laws.OpMap.srvAdmit _
  case srvRelease => exact Laws.OpMap.srvRelease _
  case srvUpdate => exact Laws.OpMap.srvUpdate _
  case routeadm => exact Laws.OpMap.routeadm _ _
  case routeAdmitTimeout => exact Laws.OpMap.routeAdmitTimeout _ _
  case admboundWrite => exact Laws.OpMap.admboundWrite _ _ _
  case preempt => exact Laws.OpMap.preempt _ _
  case save => exact Laws.OpMap.save _ _
  case resume => exact Laws.OpMap.resume _ _
  case skip => exact Laws.OpMap.skip _ _
  case replay => exact Laws.OpMap.replay _ _ _
  case invtlb => exact Laws.OpMap.invtlb _ _
  case flushic => exact Laws.OpMap.flushic _ _
  case ctxcmdDone => exact Laws.OpMap.ctxcmdDone _
  case drainLimit => exact Laws.OpMap.drainLimit _
  case flockSave => exact Laws.OpMap.flockSave _ _
  case contextStopped => exact Laws.OpMap.contextStopped _
  case flockRestore => exact Laws.OpMap.flockRestore _
  case governorEval => exact Laws.OpMap.governorEval
  case voltageRampDone => exact Laws.OpMap.voltageRampDone _
  case dividerStep => exact Laws.OpMap.dividerStep _
  case raiseTimeout => exact Laws.OpMap.raiseTimeout _ _
  case ceilWrite => exact Laws.OpMap.ceilWrite _ _
  case mgmtTableWrite => exact Laws.OpMap.mgmtTableWrite _
  case droopAlarm => exact Laws.OpMap.droopAlarm _ _
  case droopStretchEnd => exact Laws.OpMap.droopStretchEnd _
  case droopResponseEnd => exact Laws.OpMap.droopResponseEnd _
  case thermalMark => exact Laws.OpMap.thermalMark _ _
  case warnCeilStep => exact Laws.OpMap.warnCeilStep _
  case powerMeasure => exact Laws.OpMap.powerMeasure _
  case powerLimitThrottle => exact Laws.OpMap.powerLimitThrottle _
  case critEnter => exact Laws.OpMap.critEnter _
  case critSaveLimit => exact Laws.OpMap.critSaveLimit
  case computeRailsOff => exact Laws.OpMap.computeRailsOff
  case critRecover => exact Laws.OpMap.critRecover _
  case thermalTrip => exact Laws.OpMap.thermalTrip _
  case fwHeartbeat => exact Laws.OpMap.fwHeartbeat
  case watchdogExpire => exact Laws.OpMap.watchdogExpire
  case containedEvent => exact Laws.OpMap.containedEvent _
  case bankClear => exact Laws.OpMap.bankClear _
  case patrolScrub => exact Laws.OpMap.patrolScrub _
  case idleSelftest => exact Laws.OpMap.idleSelftest _
  case selftestAbandon => exact Laws.OpMap.selftestAbandon _
  case clusterTestEnd => exact Laws.OpMap.clusterTestEnd _ _ _
  case splitChange => exact Laws.OpMap.splitChange _
  case moveStart => exact Laws.OpMap.moveStart _
  case movePageCopy => exact Laws.OpMap.movePageCopy
  case moveEnd => exact Laws.OpMap.moveEnd _
  case eqhead => exact Laws.OpMap.eqhead _ _
  case eqbase => exact Laws.OpMap.eqbase _ _
  case hostWindowAccess => exact Laws.OpMap.hostWindowAccess _ _ _ _
  case registerWrite => exact Laws.OpMap.registerWrite _ _ _ _
  case info => exact Laws.OpMap.info
  case mcread => exact Laws.OpMap.mcread
  case fwbegin => exact Laws.OpMap.fwbegin
  case fwdata => exact Laws.OpMap.fwdata
  case fwend => exact Laws.OpMap.fwend
  case reset => exact Laws.OpMap.reset
  case setdev => exact Laws.OpMap.setdev
  case setbound => exact Laws.OpMap.setbound
  case selftest => exact Laws.OpMap.selftest
  case spdmRequest => exact Laws.OpMap.spdmRequest _
  case coldStart => exact Laws.OpMap.coldStart
  case startStage => exact Laws.OpMap.startStage _ _
  case vfFlr => exact Laws.OpMap.vfFlr _
  case pfReset => exact Laws.OpMap.pfReset
  case pcieLinkDown => exact Laws.OpMap.pcieLinkDown
  case pcieLinkUp => exact Laws.OpMap.pcieLinkUp
  case pseudoChannelRetrain => exact Laws.OpMap.pseudoChannelRetrain _ _
  case eqlog => exact Laws.OpMap.eqlog _ _
  case powerLimitRelease => exact Laws.OpMap.powerLimitRelease _

end Sys2Proof
end

