-- ==== Sys2Proof/Laws/State.lean ====
section
/-! SUPPORT. What each update of a record leaves: one lemma a field. -/

namespace Sys2Proof.Machine


/-! ## The device -/

@[simp] theorem Dev.modCore_ctime (d : Dev) (n : Nat) (g : Core → Core) : (d.modCore n g).ctime = d.ctime := rfl
@[simp] theorem Dev.modCore_agenda (d : Dev) (n : Nat) (g : Core → Core) : (d.modCore n g).agenda = d.agenda := rfl
@[simp] theorem Dev.modCore_issuing (d : Dev) (n : Nat) (g : Core → Core) : (d.modCore n g).issuing = d.issuing := rfl
@[simp] theorem Dev.modCore_free (d : Dev) (n : Nat) (g : Core → Core) : (d.modCore n g).free = d.free := rfl
@[simp] theorem Dev.modCore_nextId (d : Dev) (n : Nat) (g : Core → Core) : (d.modCore n g).nextId = d.nextId := rfl
@[simp] theorem Dev.modCore_stopped (d : Dev) (n : Nat) (g : Core → Core) : (d.modCore n g).stopped = d.stopped := rfl
@[simp] theorem Dev.modCore_flocks (d : Dev) (n : Nat) (g : Core → Core) : (d.modCore n g).flocks = d.flocks := rfl
@[simp] theorem Dev.modCore_clusters (d : Dev) (n : Nat) (g : Core → Core) : (d.modCore n g).clusters = d.clusters := rfl
@[simp] theorem Dev.modCore_vaults (d : Dev) (n : Nat) (g : Core → Core) : (d.modCore n g).vaults = d.vaults := rfl
@[simp] theorem Dev.modCore_dies (d : Dev) (n : Nat) (g : Core → Core) : (d.modCore n g).dies = d.dies := rfl
@[simp] theorem Dev.modCore_stks (d : Dev) (n : Nat) (g : Core → Core) : (d.modCore n g).stks = d.stks := rfl
@[simp] theorem Dev.modCore_tlbs (d : Dev) (n : Nat) (g : Core → Core) : (d.modCore n g).tlbs = d.tlbs := rfl
@[simp] theorem Dev.modCore_reqs (d : Dev) (n : Nat) (g : Core → Core) : (d.modCore n g).reqs = d.reqs := rfl
@[simp] theorem Dev.modCore_ctxs (d : Dev) (n : Nat) (g : Core → Core) : (d.modCore n g).ctxs = d.ctxs := rfl
@[simp] theorem Dev.modCore_placeTurn (d : Dev) (n : Nat) (g : Core → Core) : (d.modCore n g).placeTurn = d.placeTurn := rfl
@[simp] theorem Dev.modCore_servers (d : Dev) (n : Nat) (g : Core → Core) : (d.modCore n g).servers = d.servers := rfl
@[simp] theorem Dev.modCore_admbounds (d : Dev) (n : Nat) (g : Core → Core) : (d.modCore n g).admbounds = d.admbounds := rfl
@[simp] theorem Dev.modCore_waypart (d : Dev) (n : Nat) (g : Core → Core) : (d.modCore n g).waypart = d.waypart := rfl
@[simp] theorem Dev.modCore_vdclus (d : Dev) (n : Nat) (g : Core → Core) : (d.modCore n g).vdclus = d.vdclus := rfl
@[simp] theorem Dev.modCore_slown (d : Dev) (n : Nat) (g : Core → Core) : (d.modCore n g).slown = d.slown := rfl
@[simp] theorem Dev.modCore_winbase (d : Dev) (n : Nat) (g : Core → Core) : (d.modCore n g).winbase = d.winbase := rfl
@[simp] theorem Dev.modCore_routetbl (d : Dev) (n : Nat) (g : Core → Core) : (d.modCore n g).routetbl = d.routetbl := rfl
@[simp] theorem Dev.modCore_move (d : Dev) (n : Nat) (g : Core → Core) : (d.modCore n g).move = d.move := rfl
@[simp] theorem Dev.modCore_queues (d : Dev) (n : Nat) (g : Core → Core) : (d.modCore n g).queues = d.queues := rfl
@[simp] theorem Dev.modCore_mbox (d : Dev) (n : Nat) (g : Core → Core) : (d.modCore n g).mbox = d.mbox := rfl
@[simp] theorem Dev.modCore_fab (d : Dev) (n : Nat) (g : Core → Core) : (d.modCore n g).fab = d.fab := rfl
@[simp] theorem Dev.modCore_mgmt (d : Dev) (n : Nat) (g : Core → Core) : (d.modCore n g).mgmt = d.mgmt := rfl
@[simp] theorem Dev.modCore_banks (d : Dev) (n : Nat) (g : Core → Core) : (d.modCore n g).banks = d.banks := rfl
@[simp] theorem Dev.modCore_marks (d : Dev) (n : Nat) (g : Core → Core) : (d.modCore n g).marks = d.marks := rfl
@[simp] theorem Dev.modCore_seen (d : Dev) (n : Nat) (g : Core → Core) : (d.modCore n g).seen = d.seen := rfl
@[simp] theorem Dev.modCore_answer (d : Dev) (n : Nat) (g : Core → Core) : (d.modCore n g).answer = d.answer := rfl
@[simp] theorem Dev.modCluster_ctime (d : Dev) (n : Nat) (g : Cluster → Cluster) : (d.modCluster n g).ctime = d.ctime := rfl
@[simp] theorem Dev.modCluster_agenda (d : Dev) (n : Nat) (g : Cluster → Cluster) : (d.modCluster n g).agenda = d.agenda := rfl
@[simp] theorem Dev.modCluster_issuing (d : Dev) (n : Nat) (g : Cluster → Cluster) : (d.modCluster n g).issuing = d.issuing := rfl
@[simp] theorem Dev.modCluster_free (d : Dev) (n : Nat) (g : Cluster → Cluster) : (d.modCluster n g).free = d.free := rfl
@[simp] theorem Dev.modCluster_nextId (d : Dev) (n : Nat) (g : Cluster → Cluster) : (d.modCluster n g).nextId = d.nextId := rfl
@[simp] theorem Dev.modCluster_stopped (d : Dev) (n : Nat) (g : Cluster → Cluster) : (d.modCluster n g).stopped = d.stopped := rfl
@[simp] theorem Dev.modCluster_flocks (d : Dev) (n : Nat) (g : Cluster → Cluster) : (d.modCluster n g).flocks = d.flocks := rfl
@[simp] theorem Dev.modCluster_cores (d : Dev) (n : Nat) (g : Cluster → Cluster) : (d.modCluster n g).cores = d.cores := rfl
@[simp] theorem Dev.modCluster_vaults (d : Dev) (n : Nat) (g : Cluster → Cluster) : (d.modCluster n g).vaults = d.vaults := rfl
@[simp] theorem Dev.modCluster_dies (d : Dev) (n : Nat) (g : Cluster → Cluster) : (d.modCluster n g).dies = d.dies := rfl
@[simp] theorem Dev.modCluster_stks (d : Dev) (n : Nat) (g : Cluster → Cluster) : (d.modCluster n g).stks = d.stks := rfl
@[simp] theorem Dev.modCluster_tlbs (d : Dev) (n : Nat) (g : Cluster → Cluster) : (d.modCluster n g).tlbs = d.tlbs := rfl
@[simp] theorem Dev.modCluster_reqs (d : Dev) (n : Nat) (g : Cluster → Cluster) : (d.modCluster n g).reqs = d.reqs := rfl
@[simp] theorem Dev.modCluster_ctxs (d : Dev) (n : Nat) (g : Cluster → Cluster) : (d.modCluster n g).ctxs = d.ctxs := rfl
@[simp] theorem Dev.modCluster_placeTurn (d : Dev) (n : Nat) (g : Cluster → Cluster) : (d.modCluster n g).placeTurn = d.placeTurn := rfl
@[simp] theorem Dev.modCluster_servers (d : Dev) (n : Nat) (g : Cluster → Cluster) : (d.modCluster n g).servers = d.servers := rfl
@[simp] theorem Dev.modCluster_admbounds (d : Dev) (n : Nat) (g : Cluster → Cluster) : (d.modCluster n g).admbounds = d.admbounds := rfl
@[simp] theorem Dev.modCluster_waypart (d : Dev) (n : Nat) (g : Cluster → Cluster) : (d.modCluster n g).waypart = d.waypart := rfl
@[simp] theorem Dev.modCluster_vdclus (d : Dev) (n : Nat) (g : Cluster → Cluster) : (d.modCluster n g).vdclus = d.vdclus := rfl
@[simp] theorem Dev.modCluster_slown (d : Dev) (n : Nat) (g : Cluster → Cluster) : (d.modCluster n g).slown = d.slown := rfl
@[simp] theorem Dev.modCluster_winbase (d : Dev) (n : Nat) (g : Cluster → Cluster) : (d.modCluster n g).winbase = d.winbase := rfl
@[simp] theorem Dev.modCluster_routetbl (d : Dev) (n : Nat) (g : Cluster → Cluster) : (d.modCluster n g).routetbl = d.routetbl := rfl
@[simp] theorem Dev.modCluster_move (d : Dev) (n : Nat) (g : Cluster → Cluster) : (d.modCluster n g).move = d.move := rfl
@[simp] theorem Dev.modCluster_queues (d : Dev) (n : Nat) (g : Cluster → Cluster) : (d.modCluster n g).queues = d.queues := rfl
@[simp] theorem Dev.modCluster_mbox (d : Dev) (n : Nat) (g : Cluster → Cluster) : (d.modCluster n g).mbox = d.mbox := rfl
@[simp] theorem Dev.modCluster_fab (d : Dev) (n : Nat) (g : Cluster → Cluster) : (d.modCluster n g).fab = d.fab := rfl
@[simp] theorem Dev.modCluster_mgmt (d : Dev) (n : Nat) (g : Cluster → Cluster) : (d.modCluster n g).mgmt = d.mgmt := rfl
@[simp] theorem Dev.modCluster_banks (d : Dev) (n : Nat) (g : Cluster → Cluster) : (d.modCluster n g).banks = d.banks := rfl
@[simp] theorem Dev.modCluster_marks (d : Dev) (n : Nat) (g : Cluster → Cluster) : (d.modCluster n g).marks = d.marks := rfl
@[simp] theorem Dev.modCluster_seen (d : Dev) (n : Nat) (g : Cluster → Cluster) : (d.modCluster n g).seen = d.seen := rfl
@[simp] theorem Dev.modCluster_answer (d : Dev) (n : Nat) (g : Cluster → Cluster) : (d.modCluster n g).answer = d.answer := rfl
@[simp] theorem Dev.modVault_ctime (d : Dev) (n : Nat) (g : Vault → Vault) : (d.modVault n g).ctime = d.ctime := rfl
@[simp] theorem Dev.modVault_agenda (d : Dev) (n : Nat) (g : Vault → Vault) : (d.modVault n g).agenda = d.agenda := rfl
@[simp] theorem Dev.modVault_issuing (d : Dev) (n : Nat) (g : Vault → Vault) : (d.modVault n g).issuing = d.issuing := rfl
@[simp] theorem Dev.modVault_free (d : Dev) (n : Nat) (g : Vault → Vault) : (d.modVault n g).free = d.free := rfl
@[simp] theorem Dev.modVault_nextId (d : Dev) (n : Nat) (g : Vault → Vault) : (d.modVault n g).nextId = d.nextId := rfl
@[simp] theorem Dev.modVault_stopped (d : Dev) (n : Nat) (g : Vault → Vault) : (d.modVault n g).stopped = d.stopped := rfl
@[simp] theorem Dev.modVault_flocks (d : Dev) (n : Nat) (g : Vault → Vault) : (d.modVault n g).flocks = d.flocks := rfl
@[simp] theorem Dev.modVault_cores (d : Dev) (n : Nat) (g : Vault → Vault) : (d.modVault n g).cores = d.cores := rfl
@[simp] theorem Dev.modVault_clusters (d : Dev) (n : Nat) (g : Vault → Vault) : (d.modVault n g).clusters = d.clusters := rfl
@[simp] theorem Dev.modVault_dies (d : Dev) (n : Nat) (g : Vault → Vault) : (d.modVault n g).dies = d.dies := rfl
@[simp] theorem Dev.modVault_stks (d : Dev) (n : Nat) (g : Vault → Vault) : (d.modVault n g).stks = d.stks := rfl
@[simp] theorem Dev.modVault_tlbs (d : Dev) (n : Nat) (g : Vault → Vault) : (d.modVault n g).tlbs = d.tlbs := rfl
@[simp] theorem Dev.modVault_reqs (d : Dev) (n : Nat) (g : Vault → Vault) : (d.modVault n g).reqs = d.reqs := rfl
@[simp] theorem Dev.modVault_ctxs (d : Dev) (n : Nat) (g : Vault → Vault) : (d.modVault n g).ctxs = d.ctxs := rfl
@[simp] theorem Dev.modVault_placeTurn (d : Dev) (n : Nat) (g : Vault → Vault) : (d.modVault n g).placeTurn = d.placeTurn := rfl
@[simp] theorem Dev.modVault_servers (d : Dev) (n : Nat) (g : Vault → Vault) : (d.modVault n g).servers = d.servers := rfl
@[simp] theorem Dev.modVault_admbounds (d : Dev) (n : Nat) (g : Vault → Vault) : (d.modVault n g).admbounds = d.admbounds := rfl
@[simp] theorem Dev.modVault_waypart (d : Dev) (n : Nat) (g : Vault → Vault) : (d.modVault n g).waypart = d.waypart := rfl
@[simp] theorem Dev.modVault_vdclus (d : Dev) (n : Nat) (g : Vault → Vault) : (d.modVault n g).vdclus = d.vdclus := rfl
@[simp] theorem Dev.modVault_slown (d : Dev) (n : Nat) (g : Vault → Vault) : (d.modVault n g).slown = d.slown := rfl
@[simp] theorem Dev.modVault_winbase (d : Dev) (n : Nat) (g : Vault → Vault) : (d.modVault n g).winbase = d.winbase := rfl
@[simp] theorem Dev.modVault_routetbl (d : Dev) (n : Nat) (g : Vault → Vault) : (d.modVault n g).routetbl = d.routetbl := rfl
@[simp] theorem Dev.modVault_move (d : Dev) (n : Nat) (g : Vault → Vault) : (d.modVault n g).move = d.move := rfl
@[simp] theorem Dev.modVault_queues (d : Dev) (n : Nat) (g : Vault → Vault) : (d.modVault n g).queues = d.queues := rfl
@[simp] theorem Dev.modVault_mbox (d : Dev) (n : Nat) (g : Vault → Vault) : (d.modVault n g).mbox = d.mbox := rfl
@[simp] theorem Dev.modVault_fab (d : Dev) (n : Nat) (g : Vault → Vault) : (d.modVault n g).fab = d.fab := rfl
@[simp] theorem Dev.modVault_mgmt (d : Dev) (n : Nat) (g : Vault → Vault) : (d.modVault n g).mgmt = d.mgmt := rfl
@[simp] theorem Dev.modVault_banks (d : Dev) (n : Nat) (g : Vault → Vault) : (d.modVault n g).banks = d.banks := rfl
@[simp] theorem Dev.modVault_marks (d : Dev) (n : Nat) (g : Vault → Vault) : (d.modVault n g).marks = d.marks := rfl
@[simp] theorem Dev.modVault_seen (d : Dev) (n : Nat) (g : Vault → Vault) : (d.modVault n g).seen = d.seen := rfl
@[simp] theorem Dev.modVault_answer (d : Dev) (n : Nat) (g : Vault → Vault) : (d.modVault n g).answer = d.answer := rfl
@[simp] theorem Dev.modDie_ctime (d : Dev) (n : Nat) (g : Die → Die) : (d.modDie n g).ctime = d.ctime := rfl
@[simp] theorem Dev.modDie_agenda (d : Dev) (n : Nat) (g : Die → Die) : (d.modDie n g).agenda = d.agenda := rfl
@[simp] theorem Dev.modDie_issuing (d : Dev) (n : Nat) (g : Die → Die) : (d.modDie n g).issuing = d.issuing := rfl
@[simp] theorem Dev.modDie_free (d : Dev) (n : Nat) (g : Die → Die) : (d.modDie n g).free = d.free := rfl
@[simp] theorem Dev.modDie_nextId (d : Dev) (n : Nat) (g : Die → Die) : (d.modDie n g).nextId = d.nextId := rfl
@[simp] theorem Dev.modDie_stopped (d : Dev) (n : Nat) (g : Die → Die) : (d.modDie n g).stopped = d.stopped := rfl
@[simp] theorem Dev.modDie_flocks (d : Dev) (n : Nat) (g : Die → Die) : (d.modDie n g).flocks = d.flocks := rfl
@[simp] theorem Dev.modDie_cores (d : Dev) (n : Nat) (g : Die → Die) : (d.modDie n g).cores = d.cores := rfl
@[simp] theorem Dev.modDie_clusters (d : Dev) (n : Nat) (g : Die → Die) : (d.modDie n g).clusters = d.clusters := rfl
@[simp] theorem Dev.modDie_vaults (d : Dev) (n : Nat) (g : Die → Die) : (d.modDie n g).vaults = d.vaults := rfl
@[simp] theorem Dev.modDie_stks (d : Dev) (n : Nat) (g : Die → Die) : (d.modDie n g).stks = d.stks := rfl
@[simp] theorem Dev.modDie_tlbs (d : Dev) (n : Nat) (g : Die → Die) : (d.modDie n g).tlbs = d.tlbs := rfl
@[simp] theorem Dev.modDie_reqs (d : Dev) (n : Nat) (g : Die → Die) : (d.modDie n g).reqs = d.reqs := rfl
@[simp] theorem Dev.modDie_ctxs (d : Dev) (n : Nat) (g : Die → Die) : (d.modDie n g).ctxs = d.ctxs := rfl
@[simp] theorem Dev.modDie_placeTurn (d : Dev) (n : Nat) (g : Die → Die) : (d.modDie n g).placeTurn = d.placeTurn := rfl
@[simp] theorem Dev.modDie_servers (d : Dev) (n : Nat) (g : Die → Die) : (d.modDie n g).servers = d.servers := rfl
@[simp] theorem Dev.modDie_admbounds (d : Dev) (n : Nat) (g : Die → Die) : (d.modDie n g).admbounds = d.admbounds := rfl
@[simp] theorem Dev.modDie_waypart (d : Dev) (n : Nat) (g : Die → Die) : (d.modDie n g).waypart = d.waypart := rfl
@[simp] theorem Dev.modDie_vdclus (d : Dev) (n : Nat) (g : Die → Die) : (d.modDie n g).vdclus = d.vdclus := rfl
@[simp] theorem Dev.modDie_slown (d : Dev) (n : Nat) (g : Die → Die) : (d.modDie n g).slown = d.slown := rfl
@[simp] theorem Dev.modDie_winbase (d : Dev) (n : Nat) (g : Die → Die) : (d.modDie n g).winbase = d.winbase := rfl
@[simp] theorem Dev.modDie_routetbl (d : Dev) (n : Nat) (g : Die → Die) : (d.modDie n g).routetbl = d.routetbl := rfl
@[simp] theorem Dev.modDie_move (d : Dev) (n : Nat) (g : Die → Die) : (d.modDie n g).move = d.move := rfl
@[simp] theorem Dev.modDie_queues (d : Dev) (n : Nat) (g : Die → Die) : (d.modDie n g).queues = d.queues := rfl
@[simp] theorem Dev.modDie_mbox (d : Dev) (n : Nat) (g : Die → Die) : (d.modDie n g).mbox = d.mbox := rfl
@[simp] theorem Dev.modDie_fab (d : Dev) (n : Nat) (g : Die → Die) : (d.modDie n g).fab = d.fab := rfl
@[simp] theorem Dev.modDie_mgmt (d : Dev) (n : Nat) (g : Die → Die) : (d.modDie n g).mgmt = d.mgmt := rfl
@[simp] theorem Dev.modDie_banks (d : Dev) (n : Nat) (g : Die → Die) : (d.modDie n g).banks = d.banks := rfl
@[simp] theorem Dev.modDie_marks (d : Dev) (n : Nat) (g : Die → Die) : (d.modDie n g).marks = d.marks := rfl
@[simp] theorem Dev.modDie_seen (d : Dev) (n : Nat) (g : Die → Die) : (d.modDie n g).seen = d.seen := rfl
@[simp] theorem Dev.modDie_answer (d : Dev) (n : Nat) (g : Die → Die) : (d.modDie n g).answer = d.answer := rfl
@[simp] theorem Dev.modStk_ctime (d : Dev) (n : Nat) (g : Stack → Stack) : (d.modStk n g).ctime = d.ctime := rfl
@[simp] theorem Dev.modStk_agenda (d : Dev) (n : Nat) (g : Stack → Stack) : (d.modStk n g).agenda = d.agenda := rfl
@[simp] theorem Dev.modStk_issuing (d : Dev) (n : Nat) (g : Stack → Stack) : (d.modStk n g).issuing = d.issuing := rfl
@[simp] theorem Dev.modStk_free (d : Dev) (n : Nat) (g : Stack → Stack) : (d.modStk n g).free = d.free := rfl
@[simp] theorem Dev.modStk_nextId (d : Dev) (n : Nat) (g : Stack → Stack) : (d.modStk n g).nextId = d.nextId := rfl
@[simp] theorem Dev.modStk_stopped (d : Dev) (n : Nat) (g : Stack → Stack) : (d.modStk n g).stopped = d.stopped := rfl
@[simp] theorem Dev.modStk_flocks (d : Dev) (n : Nat) (g : Stack → Stack) : (d.modStk n g).flocks = d.flocks := rfl
@[simp] theorem Dev.modStk_cores (d : Dev) (n : Nat) (g : Stack → Stack) : (d.modStk n g).cores = d.cores := rfl
@[simp] theorem Dev.modStk_clusters (d : Dev) (n : Nat) (g : Stack → Stack) : (d.modStk n g).clusters = d.clusters := rfl
@[simp] theorem Dev.modStk_vaults (d : Dev) (n : Nat) (g : Stack → Stack) : (d.modStk n g).vaults = d.vaults := rfl
@[simp] theorem Dev.modStk_dies (d : Dev) (n : Nat) (g : Stack → Stack) : (d.modStk n g).dies = d.dies := rfl
@[simp] theorem Dev.modStk_tlbs (d : Dev) (n : Nat) (g : Stack → Stack) : (d.modStk n g).tlbs = d.tlbs := rfl
@[simp] theorem Dev.modStk_reqs (d : Dev) (n : Nat) (g : Stack → Stack) : (d.modStk n g).reqs = d.reqs := rfl
@[simp] theorem Dev.modStk_ctxs (d : Dev) (n : Nat) (g : Stack → Stack) : (d.modStk n g).ctxs = d.ctxs := rfl
@[simp] theorem Dev.modStk_placeTurn (d : Dev) (n : Nat) (g : Stack → Stack) : (d.modStk n g).placeTurn = d.placeTurn := rfl
@[simp] theorem Dev.modStk_servers (d : Dev) (n : Nat) (g : Stack → Stack) : (d.modStk n g).servers = d.servers := rfl
@[simp] theorem Dev.modStk_admbounds (d : Dev) (n : Nat) (g : Stack → Stack) : (d.modStk n g).admbounds = d.admbounds := rfl
@[simp] theorem Dev.modStk_waypart (d : Dev) (n : Nat) (g : Stack → Stack) : (d.modStk n g).waypart = d.waypart := rfl
@[simp] theorem Dev.modStk_vdclus (d : Dev) (n : Nat) (g : Stack → Stack) : (d.modStk n g).vdclus = d.vdclus := rfl
@[simp] theorem Dev.modStk_slown (d : Dev) (n : Nat) (g : Stack → Stack) : (d.modStk n g).slown = d.slown := rfl
@[simp] theorem Dev.modStk_winbase (d : Dev) (n : Nat) (g : Stack → Stack) : (d.modStk n g).winbase = d.winbase := rfl
@[simp] theorem Dev.modStk_routetbl (d : Dev) (n : Nat) (g : Stack → Stack) : (d.modStk n g).routetbl = d.routetbl := rfl
@[simp] theorem Dev.modStk_move (d : Dev) (n : Nat) (g : Stack → Stack) : (d.modStk n g).move = d.move := rfl
@[simp] theorem Dev.modStk_queues (d : Dev) (n : Nat) (g : Stack → Stack) : (d.modStk n g).queues = d.queues := rfl
@[simp] theorem Dev.modStk_mbox (d : Dev) (n : Nat) (g : Stack → Stack) : (d.modStk n g).mbox = d.mbox := rfl
@[simp] theorem Dev.modStk_fab (d : Dev) (n : Nat) (g : Stack → Stack) : (d.modStk n g).fab = d.fab := rfl
@[simp] theorem Dev.modStk_mgmt (d : Dev) (n : Nat) (g : Stack → Stack) : (d.modStk n g).mgmt = d.mgmt := rfl
@[simp] theorem Dev.modStk_banks (d : Dev) (n : Nat) (g : Stack → Stack) : (d.modStk n g).banks = d.banks := rfl
@[simp] theorem Dev.modStk_marks (d : Dev) (n : Nat) (g : Stack → Stack) : (d.modStk n g).marks = d.marks := rfl
@[simp] theorem Dev.modStk_seen (d : Dev) (n : Nat) (g : Stack → Stack) : (d.modStk n g).seen = d.seen := rfl
@[simp] theorem Dev.modStk_answer (d : Dev) (n : Nat) (g : Stack → Stack) : (d.modStk n g).answer = d.answer := rfl
@[simp] theorem Dev.modCtx_ctime (d : Dev) (n : Nat) (g : Ctx → Ctx) : (d.modCtx n g).ctime = d.ctime := rfl
@[simp] theorem Dev.modCtx_agenda (d : Dev) (n : Nat) (g : Ctx → Ctx) : (d.modCtx n g).agenda = d.agenda := rfl
@[simp] theorem Dev.modCtx_issuing (d : Dev) (n : Nat) (g : Ctx → Ctx) : (d.modCtx n g).issuing = d.issuing := rfl
@[simp] theorem Dev.modCtx_free (d : Dev) (n : Nat) (g : Ctx → Ctx) : (d.modCtx n g).free = d.free := rfl
@[simp] theorem Dev.modCtx_nextId (d : Dev) (n : Nat) (g : Ctx → Ctx) : (d.modCtx n g).nextId = d.nextId := rfl
@[simp] theorem Dev.modCtx_stopped (d : Dev) (n : Nat) (g : Ctx → Ctx) : (d.modCtx n g).stopped = d.stopped := rfl
@[simp] theorem Dev.modCtx_flocks (d : Dev) (n : Nat) (g : Ctx → Ctx) : (d.modCtx n g).flocks = d.flocks := rfl
@[simp] theorem Dev.modCtx_cores (d : Dev) (n : Nat) (g : Ctx → Ctx) : (d.modCtx n g).cores = d.cores := rfl
@[simp] theorem Dev.modCtx_clusters (d : Dev) (n : Nat) (g : Ctx → Ctx) : (d.modCtx n g).clusters = d.clusters := rfl
@[simp] theorem Dev.modCtx_vaults (d : Dev) (n : Nat) (g : Ctx → Ctx) : (d.modCtx n g).vaults = d.vaults := rfl
@[simp] theorem Dev.modCtx_dies (d : Dev) (n : Nat) (g : Ctx → Ctx) : (d.modCtx n g).dies = d.dies := rfl
@[simp] theorem Dev.modCtx_stks (d : Dev) (n : Nat) (g : Ctx → Ctx) : (d.modCtx n g).stks = d.stks := rfl
@[simp] theorem Dev.modCtx_tlbs (d : Dev) (n : Nat) (g : Ctx → Ctx) : (d.modCtx n g).tlbs = d.tlbs := rfl
@[simp] theorem Dev.modCtx_reqs (d : Dev) (n : Nat) (g : Ctx → Ctx) : (d.modCtx n g).reqs = d.reqs := rfl
@[simp] theorem Dev.modCtx_placeTurn (d : Dev) (n : Nat) (g : Ctx → Ctx) : (d.modCtx n g).placeTurn = d.placeTurn := rfl
@[simp] theorem Dev.modCtx_servers (d : Dev) (n : Nat) (g : Ctx → Ctx) : (d.modCtx n g).servers = d.servers := rfl
@[simp] theorem Dev.modCtx_admbounds (d : Dev) (n : Nat) (g : Ctx → Ctx) : (d.modCtx n g).admbounds = d.admbounds := rfl
@[simp] theorem Dev.modCtx_waypart (d : Dev) (n : Nat) (g : Ctx → Ctx) : (d.modCtx n g).waypart = d.waypart := rfl
@[simp] theorem Dev.modCtx_vdclus (d : Dev) (n : Nat) (g : Ctx → Ctx) : (d.modCtx n g).vdclus = d.vdclus := rfl
@[simp] theorem Dev.modCtx_slown (d : Dev) (n : Nat) (g : Ctx → Ctx) : (d.modCtx n g).slown = d.slown := rfl
@[simp] theorem Dev.modCtx_winbase (d : Dev) (n : Nat) (g : Ctx → Ctx) : (d.modCtx n g).winbase = d.winbase := rfl
@[simp] theorem Dev.modCtx_routetbl (d : Dev) (n : Nat) (g : Ctx → Ctx) : (d.modCtx n g).routetbl = d.routetbl := rfl
@[simp] theorem Dev.modCtx_move (d : Dev) (n : Nat) (g : Ctx → Ctx) : (d.modCtx n g).move = d.move := rfl
@[simp] theorem Dev.modCtx_queues (d : Dev) (n : Nat) (g : Ctx → Ctx) : (d.modCtx n g).queues = d.queues := rfl
@[simp] theorem Dev.modCtx_mbox (d : Dev) (n : Nat) (g : Ctx → Ctx) : (d.modCtx n g).mbox = d.mbox := rfl
@[simp] theorem Dev.modCtx_fab (d : Dev) (n : Nat) (g : Ctx → Ctx) : (d.modCtx n g).fab = d.fab := rfl
@[simp] theorem Dev.modCtx_mgmt (d : Dev) (n : Nat) (g : Ctx → Ctx) : (d.modCtx n g).mgmt = d.mgmt := rfl
@[simp] theorem Dev.modCtx_banks (d : Dev) (n : Nat) (g : Ctx → Ctx) : (d.modCtx n g).banks = d.banks := rfl
@[simp] theorem Dev.modCtx_marks (d : Dev) (n : Nat) (g : Ctx → Ctx) : (d.modCtx n g).marks = d.marks := rfl
@[simp] theorem Dev.modCtx_seen (d : Dev) (n : Nat) (g : Ctx → Ctx) : (d.modCtx n g).seen = d.seen := rfl
@[simp] theorem Dev.modCtx_answer (d : Dev) (n : Nat) (g : Ctx → Ctx) : (d.modCtx n g).answer = d.answer := rfl
@[simp] theorem Dev.modQueue_ctime (d : Dev) (n : Nat) (g : EvQueue → EvQueue) : (d.modQueue n g).ctime = d.ctime := rfl
@[simp] theorem Dev.modQueue_agenda (d : Dev) (n : Nat) (g : EvQueue → EvQueue) : (d.modQueue n g).agenda = d.agenda := rfl
@[simp] theorem Dev.modQueue_issuing (d : Dev) (n : Nat) (g : EvQueue → EvQueue) : (d.modQueue n g).issuing = d.issuing := rfl
@[simp] theorem Dev.modQueue_free (d : Dev) (n : Nat) (g : EvQueue → EvQueue) : (d.modQueue n g).free = d.free := rfl
@[simp] theorem Dev.modQueue_nextId (d : Dev) (n : Nat) (g : EvQueue → EvQueue) : (d.modQueue n g).nextId = d.nextId := rfl
@[simp] theorem Dev.modQueue_stopped (d : Dev) (n : Nat) (g : EvQueue → EvQueue) : (d.modQueue n g).stopped = d.stopped := rfl
@[simp] theorem Dev.modQueue_flocks (d : Dev) (n : Nat) (g : EvQueue → EvQueue) : (d.modQueue n g).flocks = d.flocks := rfl
@[simp] theorem Dev.modQueue_cores (d : Dev) (n : Nat) (g : EvQueue → EvQueue) : (d.modQueue n g).cores = d.cores := rfl
@[simp] theorem Dev.modQueue_clusters (d : Dev) (n : Nat) (g : EvQueue → EvQueue) : (d.modQueue n g).clusters = d.clusters := rfl
@[simp] theorem Dev.modQueue_vaults (d : Dev) (n : Nat) (g : EvQueue → EvQueue) : (d.modQueue n g).vaults = d.vaults := rfl
@[simp] theorem Dev.modQueue_dies (d : Dev) (n : Nat) (g : EvQueue → EvQueue) : (d.modQueue n g).dies = d.dies := rfl
@[simp] theorem Dev.modQueue_stks (d : Dev) (n : Nat) (g : EvQueue → EvQueue) : (d.modQueue n g).stks = d.stks := rfl
@[simp] theorem Dev.modQueue_tlbs (d : Dev) (n : Nat) (g : EvQueue → EvQueue) : (d.modQueue n g).tlbs = d.tlbs := rfl
@[simp] theorem Dev.modQueue_reqs (d : Dev) (n : Nat) (g : EvQueue → EvQueue) : (d.modQueue n g).reqs = d.reqs := rfl
@[simp] theorem Dev.modQueue_ctxs (d : Dev) (n : Nat) (g : EvQueue → EvQueue) : (d.modQueue n g).ctxs = d.ctxs := rfl
@[simp] theorem Dev.modQueue_placeTurn (d : Dev) (n : Nat) (g : EvQueue → EvQueue) : (d.modQueue n g).placeTurn = d.placeTurn := rfl
@[simp] theorem Dev.modQueue_servers (d : Dev) (n : Nat) (g : EvQueue → EvQueue) : (d.modQueue n g).servers = d.servers := rfl
@[simp] theorem Dev.modQueue_admbounds (d : Dev) (n : Nat) (g : EvQueue → EvQueue) : (d.modQueue n g).admbounds = d.admbounds := rfl
@[simp] theorem Dev.modQueue_waypart (d : Dev) (n : Nat) (g : EvQueue → EvQueue) : (d.modQueue n g).waypart = d.waypart := rfl
@[simp] theorem Dev.modQueue_vdclus (d : Dev) (n : Nat) (g : EvQueue → EvQueue) : (d.modQueue n g).vdclus = d.vdclus := rfl
@[simp] theorem Dev.modQueue_slown (d : Dev) (n : Nat) (g : EvQueue → EvQueue) : (d.modQueue n g).slown = d.slown := rfl
@[simp] theorem Dev.modQueue_winbase (d : Dev) (n : Nat) (g : EvQueue → EvQueue) : (d.modQueue n g).winbase = d.winbase := rfl
@[simp] theorem Dev.modQueue_routetbl (d : Dev) (n : Nat) (g : EvQueue → EvQueue) : (d.modQueue n g).routetbl = d.routetbl := rfl
@[simp] theorem Dev.modQueue_move (d : Dev) (n : Nat) (g : EvQueue → EvQueue) : (d.modQueue n g).move = d.move := rfl
@[simp] theorem Dev.modQueue_mbox (d : Dev) (n : Nat) (g : EvQueue → EvQueue) : (d.modQueue n g).mbox = d.mbox := rfl
@[simp] theorem Dev.modQueue_fab (d : Dev) (n : Nat) (g : EvQueue → EvQueue) : (d.modQueue n g).fab = d.fab := rfl
@[simp] theorem Dev.modQueue_mgmt (d : Dev) (n : Nat) (g : EvQueue → EvQueue) : (d.modQueue n g).mgmt = d.mgmt := rfl
@[simp] theorem Dev.modQueue_banks (d : Dev) (n : Nat) (g : EvQueue → EvQueue) : (d.modQueue n g).banks = d.banks := rfl
@[simp] theorem Dev.modQueue_marks (d : Dev) (n : Nat) (g : EvQueue → EvQueue) : (d.modQueue n g).marks = d.marks := rfl
@[simp] theorem Dev.modQueue_seen (d : Dev) (n : Nat) (g : EvQueue → EvQueue) : (d.modQueue n g).seen = d.seen := rfl
@[simp] theorem Dev.modQueue_answer (d : Dev) (n : Nat) (g : EvQueue → EvQueue) : (d.modQueue n g).answer = d.answer := rfl
@[simp] theorem Dev.modFlock_ctime (d : Dev) (c l : Nat) (g : Flock → Flock) : (d.modFlock c l g).ctime = d.ctime := rfl
@[simp] theorem Dev.modFlock_agenda (d : Dev) (c l : Nat) (g : Flock → Flock) : (d.modFlock c l g).agenda = d.agenda := rfl
@[simp] theorem Dev.modFlock_issuing (d : Dev) (c l : Nat) (g : Flock → Flock) : (d.modFlock c l g).issuing = d.issuing := rfl
@[simp] theorem Dev.modFlock_free (d : Dev) (c l : Nat) (g : Flock → Flock) : (d.modFlock c l g).free = d.free := rfl
@[simp] theorem Dev.modFlock_nextId (d : Dev) (c l : Nat) (g : Flock → Flock) : (d.modFlock c l g).nextId = d.nextId := rfl
@[simp] theorem Dev.modFlock_stopped (d : Dev) (c l : Nat) (g : Flock → Flock) : (d.modFlock c l g).stopped = d.stopped := rfl
@[simp] theorem Dev.modFlock_cores (d : Dev) (c l : Nat) (g : Flock → Flock) : (d.modFlock c l g).cores = d.cores := rfl
@[simp] theorem Dev.modFlock_clusters (d : Dev) (c l : Nat) (g : Flock → Flock) : (d.modFlock c l g).clusters = d.clusters := rfl
@[simp] theorem Dev.modFlock_vaults (d : Dev) (c l : Nat) (g : Flock → Flock) : (d.modFlock c l g).vaults = d.vaults := rfl
@[simp] theorem Dev.modFlock_dies (d : Dev) (c l : Nat) (g : Flock → Flock) : (d.modFlock c l g).dies = d.dies := rfl
@[simp] theorem Dev.modFlock_stks (d : Dev) (c l : Nat) (g : Flock → Flock) : (d.modFlock c l g).stks = d.stks := rfl
@[simp] theorem Dev.modFlock_tlbs (d : Dev) (c l : Nat) (g : Flock → Flock) : (d.modFlock c l g).tlbs = d.tlbs := rfl
@[simp] theorem Dev.modFlock_reqs (d : Dev) (c l : Nat) (g : Flock → Flock) : (d.modFlock c l g).reqs = d.reqs := rfl
@[simp] theorem Dev.modFlock_ctxs (d : Dev) (c l : Nat) (g : Flock → Flock) : (d.modFlock c l g).ctxs = d.ctxs := rfl
@[simp] theorem Dev.modFlock_placeTurn (d : Dev) (c l : Nat) (g : Flock → Flock) : (d.modFlock c l g).placeTurn = d.placeTurn := rfl
@[simp] theorem Dev.modFlock_servers (d : Dev) (c l : Nat) (g : Flock → Flock) : (d.modFlock c l g).servers = d.servers := rfl
@[simp] theorem Dev.modFlock_admbounds (d : Dev) (c l : Nat) (g : Flock → Flock) : (d.modFlock c l g).admbounds = d.admbounds := rfl
@[simp] theorem Dev.modFlock_waypart (d : Dev) (c l : Nat) (g : Flock → Flock) : (d.modFlock c l g).waypart = d.waypart := rfl
@[simp] theorem Dev.modFlock_vdclus (d : Dev) (c l : Nat) (g : Flock → Flock) : (d.modFlock c l g).vdclus = d.vdclus := rfl
@[simp] theorem Dev.modFlock_slown (d : Dev) (c l : Nat) (g : Flock → Flock) : (d.modFlock c l g).slown = d.slown := rfl
@[simp] theorem Dev.modFlock_winbase (d : Dev) (c l : Nat) (g : Flock → Flock) : (d.modFlock c l g).winbase = d.winbase := rfl
@[simp] theorem Dev.modFlock_routetbl (d : Dev) (c l : Nat) (g : Flock → Flock) : (d.modFlock c l g).routetbl = d.routetbl := rfl
@[simp] theorem Dev.modFlock_move (d : Dev) (c l : Nat) (g : Flock → Flock) : (d.modFlock c l g).move = d.move := rfl
@[simp] theorem Dev.modFlock_queues (d : Dev) (c l : Nat) (g : Flock → Flock) : (d.modFlock c l g).queues = d.queues := rfl
@[simp] theorem Dev.modFlock_mbox (d : Dev) (c l : Nat) (g : Flock → Flock) : (d.modFlock c l g).mbox = d.mbox := rfl
@[simp] theorem Dev.modFlock_fab (d : Dev) (c l : Nat) (g : Flock → Flock) : (d.modFlock c l g).fab = d.fab := rfl
@[simp] theorem Dev.modFlock_mgmt (d : Dev) (c l : Nat) (g : Flock → Flock) : (d.modFlock c l g).mgmt = d.mgmt := rfl
@[simp] theorem Dev.modFlock_banks (d : Dev) (c l : Nat) (g : Flock → Flock) : (d.modFlock c l g).banks = d.banks := rfl
@[simp] theorem Dev.modFlock_marks (d : Dev) (c l : Nat) (g : Flock → Flock) : (d.modFlock c l g).marks = d.marks := rfl
@[simp] theorem Dev.modFlock_seen (d : Dev) (c l : Nat) (g : Flock → Flock) : (d.modFlock c l g).seen = d.seen := rfl
@[simp] theorem Dev.modFlock_answer (d : Dev) (c l : Nat) (g : Flock → Flock) : (d.modFlock c l g).answer = d.answer := rfl
@[simp] theorem Dev.delFlock_ctime (d : Dev) (c l : Nat) : (d.delFlock c l).ctime = d.ctime := rfl
@[simp] theorem Dev.delFlock_agenda (d : Dev) (c l : Nat) : (d.delFlock c l).agenda = d.agenda := rfl
@[simp] theorem Dev.delFlock_issuing (d : Dev) (c l : Nat) : (d.delFlock c l).issuing = d.issuing := rfl
@[simp] theorem Dev.delFlock_free (d : Dev) (c l : Nat) : (d.delFlock c l).free = d.free := rfl
@[simp] theorem Dev.delFlock_nextId (d : Dev) (c l : Nat) : (d.delFlock c l).nextId = d.nextId := rfl
@[simp] theorem Dev.delFlock_stopped (d : Dev) (c l : Nat) : (d.delFlock c l).stopped = d.stopped := rfl
@[simp] theorem Dev.delFlock_cores (d : Dev) (c l : Nat) : (d.delFlock c l).cores = d.cores := rfl
@[simp] theorem Dev.delFlock_clusters (d : Dev) (c l : Nat) : (d.delFlock c l).clusters = d.clusters := rfl
@[simp] theorem Dev.delFlock_vaults (d : Dev) (c l : Nat) : (d.delFlock c l).vaults = d.vaults := rfl
@[simp] theorem Dev.delFlock_dies (d : Dev) (c l : Nat) : (d.delFlock c l).dies = d.dies := rfl
@[simp] theorem Dev.delFlock_stks (d : Dev) (c l : Nat) : (d.delFlock c l).stks = d.stks := rfl
@[simp] theorem Dev.delFlock_tlbs (d : Dev) (c l : Nat) : (d.delFlock c l).tlbs = d.tlbs := rfl
@[simp] theorem Dev.delFlock_reqs (d : Dev) (c l : Nat) : (d.delFlock c l).reqs = d.reqs := rfl
@[simp] theorem Dev.delFlock_ctxs (d : Dev) (c l : Nat) : (d.delFlock c l).ctxs = d.ctxs := rfl
@[simp] theorem Dev.delFlock_placeTurn (d : Dev) (c l : Nat) : (d.delFlock c l).placeTurn = d.placeTurn := rfl
@[simp] theorem Dev.delFlock_servers (d : Dev) (c l : Nat) : (d.delFlock c l).servers = d.servers := rfl
@[simp] theorem Dev.delFlock_admbounds (d : Dev) (c l : Nat) : (d.delFlock c l).admbounds = d.admbounds := rfl
@[simp] theorem Dev.delFlock_waypart (d : Dev) (c l : Nat) : (d.delFlock c l).waypart = d.waypart := rfl
@[simp] theorem Dev.delFlock_vdclus (d : Dev) (c l : Nat) : (d.delFlock c l).vdclus = d.vdclus := rfl
@[simp] theorem Dev.delFlock_slown (d : Dev) (c l : Nat) : (d.delFlock c l).slown = d.slown := rfl
@[simp] theorem Dev.delFlock_winbase (d : Dev) (c l : Nat) : (d.delFlock c l).winbase = d.winbase := rfl
@[simp] theorem Dev.delFlock_routetbl (d : Dev) (c l : Nat) : (d.delFlock c l).routetbl = d.routetbl := rfl
@[simp] theorem Dev.delFlock_move (d : Dev) (c l : Nat) : (d.delFlock c l).move = d.move := rfl
@[simp] theorem Dev.delFlock_queues (d : Dev) (c l : Nat) : (d.delFlock c l).queues = d.queues := rfl
@[simp] theorem Dev.delFlock_mbox (d : Dev) (c l : Nat) : (d.delFlock c l).mbox = d.mbox := rfl
@[simp] theorem Dev.delFlock_fab (d : Dev) (c l : Nat) : (d.delFlock c l).fab = d.fab := rfl
@[simp] theorem Dev.delFlock_mgmt (d : Dev) (c l : Nat) : (d.delFlock c l).mgmt = d.mgmt := rfl
@[simp] theorem Dev.delFlock_banks (d : Dev) (c l : Nat) : (d.delFlock c l).banks = d.banks := rfl
@[simp] theorem Dev.delFlock_marks (d : Dev) (c l : Nat) : (d.delFlock c l).marks = d.marks := rfl
@[simp] theorem Dev.delFlock_seen (d : Dev) (c l : Nat) : (d.delFlock c l).seen = d.seen := rfl
@[simp] theorem Dev.delFlock_answer (d : Dev) (c l : Nat) : (d.delFlock c l).answer = d.answer := rfl
@[simp] theorem Dev.modThread_ctime (d : Dev) (r : TRef) (g : Thread → Thread) : (d.modThread r g).ctime = d.ctime := rfl
@[simp] theorem Dev.modThread_agenda (d : Dev) (r : TRef) (g : Thread → Thread) : (d.modThread r g).agenda = d.agenda := rfl
@[simp] theorem Dev.modThread_issuing (d : Dev) (r : TRef) (g : Thread → Thread) : (d.modThread r g).issuing = d.issuing := rfl
@[simp] theorem Dev.modThread_free (d : Dev) (r : TRef) (g : Thread → Thread) : (d.modThread r g).free = d.free := rfl
@[simp] theorem Dev.modThread_nextId (d : Dev) (r : TRef) (g : Thread → Thread) : (d.modThread r g).nextId = d.nextId := rfl
@[simp] theorem Dev.modThread_stopped (d : Dev) (r : TRef) (g : Thread → Thread) : (d.modThread r g).stopped = d.stopped := rfl
@[simp] theorem Dev.modThread_cores (d : Dev) (r : TRef) (g : Thread → Thread) : (d.modThread r g).cores = d.cores := rfl
@[simp] theorem Dev.modThread_clusters (d : Dev) (r : TRef) (g : Thread → Thread) : (d.modThread r g).clusters = d.clusters := rfl
@[simp] theorem Dev.modThread_vaults (d : Dev) (r : TRef) (g : Thread → Thread) : (d.modThread r g).vaults = d.vaults := rfl
@[simp] theorem Dev.modThread_dies (d : Dev) (r : TRef) (g : Thread → Thread) : (d.modThread r g).dies = d.dies := rfl
@[simp] theorem Dev.modThread_stks (d : Dev) (r : TRef) (g : Thread → Thread) : (d.modThread r g).stks = d.stks := rfl
@[simp] theorem Dev.modThread_tlbs (d : Dev) (r : TRef) (g : Thread → Thread) : (d.modThread r g).tlbs = d.tlbs := rfl
@[simp] theorem Dev.modThread_reqs (d : Dev) (r : TRef) (g : Thread → Thread) : (d.modThread r g).reqs = d.reqs := rfl
@[simp] theorem Dev.modThread_ctxs (d : Dev) (r : TRef) (g : Thread → Thread) : (d.modThread r g).ctxs = d.ctxs := rfl
@[simp] theorem Dev.modThread_placeTurn (d : Dev) (r : TRef) (g : Thread → Thread) : (d.modThread r g).placeTurn = d.placeTurn := rfl
@[simp] theorem Dev.modThread_servers (d : Dev) (r : TRef) (g : Thread → Thread) : (d.modThread r g).servers = d.servers := rfl
@[simp] theorem Dev.modThread_admbounds (d : Dev) (r : TRef) (g : Thread → Thread) : (d.modThread r g).admbounds = d.admbounds := rfl
@[simp] theorem Dev.modThread_waypart (d : Dev) (r : TRef) (g : Thread → Thread) : (d.modThread r g).waypart = d.waypart := rfl
@[simp] theorem Dev.modThread_vdclus (d : Dev) (r : TRef) (g : Thread → Thread) : (d.modThread r g).vdclus = d.vdclus := rfl
@[simp] theorem Dev.modThread_slown (d : Dev) (r : TRef) (g : Thread → Thread) : (d.modThread r g).slown = d.slown := rfl
@[simp] theorem Dev.modThread_winbase (d : Dev) (r : TRef) (g : Thread → Thread) : (d.modThread r g).winbase = d.winbase := rfl
@[simp] theorem Dev.modThread_routetbl (d : Dev) (r : TRef) (g : Thread → Thread) : (d.modThread r g).routetbl = d.routetbl := rfl
@[simp] theorem Dev.modThread_move (d : Dev) (r : TRef) (g : Thread → Thread) : (d.modThread r g).move = d.move := rfl
@[simp] theorem Dev.modThread_queues (d : Dev) (r : TRef) (g : Thread → Thread) : (d.modThread r g).queues = d.queues := rfl
@[simp] theorem Dev.modThread_mbox (d : Dev) (r : TRef) (g : Thread → Thread) : (d.modThread r g).mbox = d.mbox := rfl
@[simp] theorem Dev.modThread_fab (d : Dev) (r : TRef) (g : Thread → Thread) : (d.modThread r g).fab = d.fab := rfl
@[simp] theorem Dev.modThread_mgmt (d : Dev) (r : TRef) (g : Thread → Thread) : (d.modThread r g).mgmt = d.mgmt := rfl
@[simp] theorem Dev.modThread_banks (d : Dev) (r : TRef) (g : Thread → Thread) : (d.modThread r g).banks = d.banks := rfl
@[simp] theorem Dev.modThread_marks (d : Dev) (r : TRef) (g : Thread → Thread) : (d.modThread r g).marks = d.marks := rfl
@[simp] theorem Dev.modThread_seen (d : Dev) (r : TRef) (g : Thread → Thread) : (d.modThread r g).seen = d.seen := rfl
@[simp] theorem Dev.modThread_answer (d : Dev) (r : TRef) (g : Thread → Thread) : (d.modThread r g).answer = d.answer := rfl
@[simp] theorem Dev.modReq_ctime (d : Dev) (n : Nat) (g : Req → Req) : (d.modReq n g).ctime = d.ctime := rfl
@[simp] theorem Dev.modReq_agenda (d : Dev) (n : Nat) (g : Req → Req) : (d.modReq n g).agenda = d.agenda := rfl
@[simp] theorem Dev.modReq_issuing (d : Dev) (n : Nat) (g : Req → Req) : (d.modReq n g).issuing = d.issuing := rfl
@[simp] theorem Dev.modReq_free (d : Dev) (n : Nat) (g : Req → Req) : (d.modReq n g).free = d.free := rfl
@[simp] theorem Dev.modReq_nextId (d : Dev) (n : Nat) (g : Req → Req) : (d.modReq n g).nextId = d.nextId := rfl
@[simp] theorem Dev.modReq_stopped (d : Dev) (n : Nat) (g : Req → Req) : (d.modReq n g).stopped = d.stopped := rfl
@[simp] theorem Dev.modReq_flocks (d : Dev) (n : Nat) (g : Req → Req) : (d.modReq n g).flocks = d.flocks := rfl
@[simp] theorem Dev.modReq_cores (d : Dev) (n : Nat) (g : Req → Req) : (d.modReq n g).cores = d.cores := rfl
@[simp] theorem Dev.modReq_clusters (d : Dev) (n : Nat) (g : Req → Req) : (d.modReq n g).clusters = d.clusters := rfl
@[simp] theorem Dev.modReq_vaults (d : Dev) (n : Nat) (g : Req → Req) : (d.modReq n g).vaults = d.vaults := rfl
@[simp] theorem Dev.modReq_dies (d : Dev) (n : Nat) (g : Req → Req) : (d.modReq n g).dies = d.dies := rfl
@[simp] theorem Dev.modReq_stks (d : Dev) (n : Nat) (g : Req → Req) : (d.modReq n g).stks = d.stks := rfl
@[simp] theorem Dev.modReq_tlbs (d : Dev) (n : Nat) (g : Req → Req) : (d.modReq n g).tlbs = d.tlbs := rfl
@[simp] theorem Dev.modReq_ctxs (d : Dev) (n : Nat) (g : Req → Req) : (d.modReq n g).ctxs = d.ctxs := rfl
@[simp] theorem Dev.modReq_placeTurn (d : Dev) (n : Nat) (g : Req → Req) : (d.modReq n g).placeTurn = d.placeTurn := rfl
@[simp] theorem Dev.modReq_servers (d : Dev) (n : Nat) (g : Req → Req) : (d.modReq n g).servers = d.servers := rfl
@[simp] theorem Dev.modReq_admbounds (d : Dev) (n : Nat) (g : Req → Req) : (d.modReq n g).admbounds = d.admbounds := rfl
@[simp] theorem Dev.modReq_waypart (d : Dev) (n : Nat) (g : Req → Req) : (d.modReq n g).waypart = d.waypart := rfl
@[simp] theorem Dev.modReq_vdclus (d : Dev) (n : Nat) (g : Req → Req) : (d.modReq n g).vdclus = d.vdclus := rfl
@[simp] theorem Dev.modReq_slown (d : Dev) (n : Nat) (g : Req → Req) : (d.modReq n g).slown = d.slown := rfl
@[simp] theorem Dev.modReq_winbase (d : Dev) (n : Nat) (g : Req → Req) : (d.modReq n g).winbase = d.winbase := rfl
@[simp] theorem Dev.modReq_routetbl (d : Dev) (n : Nat) (g : Req → Req) : (d.modReq n g).routetbl = d.routetbl := rfl
@[simp] theorem Dev.modReq_move (d : Dev) (n : Nat) (g : Req → Req) : (d.modReq n g).move = d.move := rfl
@[simp] theorem Dev.modReq_queues (d : Dev) (n : Nat) (g : Req → Req) : (d.modReq n g).queues = d.queues := rfl
@[simp] theorem Dev.modReq_mbox (d : Dev) (n : Nat) (g : Req → Req) : (d.modReq n g).mbox = d.mbox := rfl
@[simp] theorem Dev.modReq_fab (d : Dev) (n : Nat) (g : Req → Req) : (d.modReq n g).fab = d.fab := rfl
@[simp] theorem Dev.modReq_mgmt (d : Dev) (n : Nat) (g : Req → Req) : (d.modReq n g).mgmt = d.mgmt := rfl
@[simp] theorem Dev.modReq_banks (d : Dev) (n : Nat) (g : Req → Req) : (d.modReq n g).banks = d.banks := rfl
@[simp] theorem Dev.modReq_marks (d : Dev) (n : Nat) (g : Req → Req) : (d.modReq n g).marks = d.marks := rfl
@[simp] theorem Dev.modReq_seen (d : Dev) (n : Nat) (g : Req → Req) : (d.modReq n g).seen = d.seen := rfl
@[simp] theorem Dev.modReq_answer (d : Dev) (n : Nat) (g : Req → Req) : (d.modReq n g).answer = d.answer := rfl
@[simp] theorem Dev.delReq_ctime (d : Dev) (n : Nat) : (d.delReq n).ctime = d.ctime := rfl
@[simp] theorem Dev.delReq_agenda (d : Dev) (n : Nat) : (d.delReq n).agenda = d.agenda := rfl
@[simp] theorem Dev.delReq_issuing (d : Dev) (n : Nat) : (d.delReq n).issuing = d.issuing := rfl
@[simp] theorem Dev.delReq_free (d : Dev) (n : Nat) : (d.delReq n).free = d.free := rfl
@[simp] theorem Dev.delReq_nextId (d : Dev) (n : Nat) : (d.delReq n).nextId = d.nextId := rfl
@[simp] theorem Dev.delReq_stopped (d : Dev) (n : Nat) : (d.delReq n).stopped = d.stopped := rfl
@[simp] theorem Dev.delReq_flocks (d : Dev) (n : Nat) : (d.delReq n).flocks = d.flocks := rfl
@[simp] theorem Dev.delReq_cores (d : Dev) (n : Nat) : (d.delReq n).cores = d.cores := rfl
@[simp] theorem Dev.delReq_clusters (d : Dev) (n : Nat) : (d.delReq n).clusters = d.clusters := rfl
@[simp] theorem Dev.delReq_vaults (d : Dev) (n : Nat) : (d.delReq n).vaults = d.vaults := rfl
@[simp] theorem Dev.delReq_dies (d : Dev) (n : Nat) : (d.delReq n).dies = d.dies := rfl
@[simp] theorem Dev.delReq_stks (d : Dev) (n : Nat) : (d.delReq n).stks = d.stks := rfl
@[simp] theorem Dev.delReq_tlbs (d : Dev) (n : Nat) : (d.delReq n).tlbs = d.tlbs := rfl
@[simp] theorem Dev.delReq_ctxs (d : Dev) (n : Nat) : (d.delReq n).ctxs = d.ctxs := rfl
@[simp] theorem Dev.delReq_placeTurn (d : Dev) (n : Nat) : (d.delReq n).placeTurn = d.placeTurn := rfl
@[simp] theorem Dev.delReq_servers (d : Dev) (n : Nat) : (d.delReq n).servers = d.servers := rfl
@[simp] theorem Dev.delReq_admbounds (d : Dev) (n : Nat) : (d.delReq n).admbounds = d.admbounds := rfl
@[simp] theorem Dev.delReq_waypart (d : Dev) (n : Nat) : (d.delReq n).waypart = d.waypart := rfl
@[simp] theorem Dev.delReq_vdclus (d : Dev) (n : Nat) : (d.delReq n).vdclus = d.vdclus := rfl
@[simp] theorem Dev.delReq_slown (d : Dev) (n : Nat) : (d.delReq n).slown = d.slown := rfl
@[simp] theorem Dev.delReq_winbase (d : Dev) (n : Nat) : (d.delReq n).winbase = d.winbase := rfl
@[simp] theorem Dev.delReq_routetbl (d : Dev) (n : Nat) : (d.delReq n).routetbl = d.routetbl := rfl
@[simp] theorem Dev.delReq_move (d : Dev) (n : Nat) : (d.delReq n).move = d.move := rfl
@[simp] theorem Dev.delReq_queues (d : Dev) (n : Nat) : (d.delReq n).queues = d.queues := rfl
@[simp] theorem Dev.delReq_mbox (d : Dev) (n : Nat) : (d.delReq n).mbox = d.mbox := rfl
@[simp] theorem Dev.delReq_fab (d : Dev) (n : Nat) : (d.delReq n).fab = d.fab := rfl
@[simp] theorem Dev.delReq_mgmt (d : Dev) (n : Nat) : (d.delReq n).mgmt = d.mgmt := rfl
@[simp] theorem Dev.delReq_banks (d : Dev) (n : Nat) : (d.delReq n).banks = d.banks := rfl
@[simp] theorem Dev.delReq_marks (d : Dev) (n : Nat) : (d.delReq n).marks = d.marks := rfl
@[simp] theorem Dev.delReq_seen (d : Dev) (n : Nat) : (d.delReq n).seen = d.seen := rfl
@[simp] theorem Dev.delReq_answer (d : Dev) (n : Nat) : (d.delReq n).answer = d.answer := rfl
@[simp] theorem Dev.fresh_ctime (d : Dev) : (d.fresh).ctime = d.ctime := rfl
@[simp] theorem Dev.fresh_agenda (d : Dev) : (d.fresh).agenda = d.agenda := rfl
@[simp] theorem Dev.fresh_issuing (d : Dev) : (d.fresh).issuing = d.issuing := rfl
@[simp] theorem Dev.fresh_nextId (d : Dev) : (d.fresh).nextId = d.nextId := rfl
@[simp] theorem Dev.fresh_stopped (d : Dev) : (d.fresh).stopped = d.stopped := rfl
@[simp] theorem Dev.fresh_flocks (d : Dev) : (d.fresh).flocks = d.flocks := rfl
@[simp] theorem Dev.fresh_cores (d : Dev) : (d.fresh).cores = d.cores := rfl
@[simp] theorem Dev.fresh_clusters (d : Dev) : (d.fresh).clusters = d.clusters := rfl
@[simp] theorem Dev.fresh_vaults (d : Dev) : (d.fresh).vaults = d.vaults := rfl
@[simp] theorem Dev.fresh_dies (d : Dev) : (d.fresh).dies = d.dies := rfl
@[simp] theorem Dev.fresh_stks (d : Dev) : (d.fresh).stks = d.stks := rfl
@[simp] theorem Dev.fresh_tlbs (d : Dev) : (d.fresh).tlbs = d.tlbs := rfl
@[simp] theorem Dev.fresh_reqs (d : Dev) : (d.fresh).reqs = d.reqs := rfl
@[simp] theorem Dev.fresh_ctxs (d : Dev) : (d.fresh).ctxs = d.ctxs := rfl
@[simp] theorem Dev.fresh_placeTurn (d : Dev) : (d.fresh).placeTurn = d.placeTurn := rfl
@[simp] theorem Dev.fresh_servers (d : Dev) : (d.fresh).servers = d.servers := rfl
@[simp] theorem Dev.fresh_admbounds (d : Dev) : (d.fresh).admbounds = d.admbounds := rfl
@[simp] theorem Dev.fresh_waypart (d : Dev) : (d.fresh).waypart = d.waypart := rfl
@[simp] theorem Dev.fresh_vdclus (d : Dev) : (d.fresh).vdclus = d.vdclus := rfl
@[simp] theorem Dev.fresh_slown (d : Dev) : (d.fresh).slown = d.slown := rfl
@[simp] theorem Dev.fresh_winbase (d : Dev) : (d.fresh).winbase = d.winbase := rfl
@[simp] theorem Dev.fresh_routetbl (d : Dev) : (d.fresh).routetbl = d.routetbl := rfl
@[simp] theorem Dev.fresh_move (d : Dev) : (d.fresh).move = d.move := rfl
@[simp] theorem Dev.fresh_queues (d : Dev) : (d.fresh).queues = d.queues := rfl
@[simp] theorem Dev.fresh_mbox (d : Dev) : (d.fresh).mbox = d.mbox := rfl
@[simp] theorem Dev.fresh_fab (d : Dev) : (d.fresh).fab = d.fab := rfl
@[simp] theorem Dev.fresh_mgmt (d : Dev) : (d.fresh).mgmt = d.mgmt := rfl
@[simp] theorem Dev.fresh_banks (d : Dev) : (d.fresh).banks = d.banks := rfl
@[simp] theorem Dev.fresh_marks (d : Dev) : (d.fresh).marks = d.marks := rfl
@[simp] theorem Dev.fresh_seen (d : Dev) : (d.fresh).seen = d.seen := rfl
@[simp] theorem Dev.fresh_answer (d : Dev) : (d.fresh).answer = d.answer := rfl

/-! ## A thread -/

@[simp] theorem Thread.setReg_t (x : Thread) (i : Nat) (y : W32) : (x.setReg i y).t = x.t := rfl
@[simp] theorem Thread.setReg_pc (x : Thread) (i : Nat) (y : W32) : (x.setReg i y).pc = x.pc := rfl
@[simp] theorem Thread.setReg_enter (x : Thread) (i : Nat) (y : W32) : (x.setReg i y).enter = x.enter := rfl
@[simp] theorem Thread.setReg_blkEnd (x : Thread) (i : Nat) (y : W32) : (x.setReg i y).blkEnd = x.blkEnd := rfl
@[simp] theorem Thread.setReg_intv (x : Thread) (i : Nat) (y : W32) : (x.setReg i y).intv = x.intv := rfl
@[simp] theorem Thread.setReg_undef (x : Thread) (i : Nat) (y : W32) : (x.setReg i y).undef = x.undef := rfl
@[simp] theorem Thread.setReg_preds (x : Thread) (i : Nat) (y : W32) : (x.setReg i y).preds = x.preds := rfl
@[simp] theorem Thread.setReg_xs (x : Thread) (i : Nat) (y : W32) : (x.setReg i y).xs = x.xs := rfl
@[simp] theorem Thread.setReg_cnt (x : Thread) (i : Nat) (y : W32) : (x.setReg i y).cnt = x.cnt := rfl
@[simp] theorem Thread.setReg_rpc (x : Thread) (i : Nat) (y : W32) : (x.setReg i y).rpc = x.rpc := rfl
@[simp] theorem Thread.setReg_helper (x : Thread) (i : Nat) (y : W32) : (x.setReg i y).helper = x.helper := rfl
@[simp] theorem Thread.setReg_retaddr (x : Thread) (i : Nat) (y : W32) : (x.setReg i y).retaddr = x.retaddr := rfl
@[simp] theorem Thread.setReg_srstate (x : Thread) (i : Nat) (y : W32) : (x.setReg i y).srstate = x.srstate := rfl
@[simp] theorem Thread.setReg_lb (x : Thread) (i : Nat) (y : W32) : (x.setReg i y).lb = x.lb := rfl
@[simp] theorem Thread.setReg_trap (x : Thread) (i : Nat) (y : W32) : (x.setReg i y).trap = x.trap := rfl
@[simp] theorem Thread.setReg_srv (x : Thread) (i : Nat) (y : W32) : (x.setReg i y).srv = x.srv := rfl
@[simp] theorem Thread.setReg_wait (x : Thread) (i : Nat) (y : W32) : (x.setReg i y).wait = x.wait := rfl
@[simp] theorem Thread.setReg_waited (x : Thread) (i : Nat) (y : W32) : (x.setReg i y).waited = x.waited := rfl
@[simp] theorem Thread.setReg_ended (x : Thread) (i : Nat) (y : W32) : (x.setReg i y).ended = x.ended := rfl
@[simp] theorem Thread.setReg_iv (x : Thread) (i : Nat) (y : W32) : (x.setReg i y).iv = x.iv := rfl
@[simp] theorem Thread.setReg_converged (x : Thread) (i : Nat) (y : W32) : (x.setReg i y).converged = x.converged := rfl
@[simp] theorem Thread.setReg_oqpos (x : Thread) (i : Nat) (y : W32) : (x.setReg i y).oqpos = x.oqpos := rfl
@[simp] theorem Thread.setReg_after (x : Thread) (i : Nat) (y : W32) : (x.setReg i y).after = x.after := rfl
@[simp] theorem Thread.setReg_afterW (x : Thread) (i : Nat) (y : W32) : (x.setReg i y).afterW = x.afterW := rfl
@[simp] theorem Thread.setReg_seen (x : Thread) (i : Nat) (y : W32) : (x.setReg i y).seen = x.seen := rfl
@[simp] theorem Thread.setReg_l1floor (x : Thread) (i : Nat) (y : W32) : (x.setReg i y).l1floor = x.l1floor := rfl
@[simp] theorem Thread.setIv_t (x : Thread) (i : Nat) (lo hi : W32) (b : Bool) : (x.setIv i lo hi b).t = x.t := rfl
@[simp] theorem Thread.setIv_pc (x : Thread) (i : Nat) (lo hi : W32) (b : Bool) : (x.setIv i lo hi b).pc = x.pc := rfl
@[simp] theorem Thread.setIv_enter (x : Thread) (i : Nat) (lo hi : W32) (b : Bool) : (x.setIv i lo hi b).enter = x.enter := rfl
@[simp] theorem Thread.setIv_blkEnd (x : Thread) (i : Nat) (lo hi : W32) (b : Bool) : (x.setIv i lo hi b).blkEnd = x.blkEnd := rfl
@[simp] theorem Thread.setIv_intv (x : Thread) (i : Nat) (lo hi : W32) (b : Bool) : (x.setIv i lo hi b).intv = x.intv := rfl
@[simp] theorem Thread.setIv_undef (x : Thread) (i : Nat) (lo hi : W32) (b : Bool) : (x.setIv i lo hi b).undef = x.undef := rfl
@[simp] theorem Thread.setIv_preds (x : Thread) (i : Nat) (lo hi : W32) (b : Bool) : (x.setIv i lo hi b).preds = x.preds := rfl
@[simp] theorem Thread.setIv_xs (x : Thread) (i : Nat) (lo hi : W32) (b : Bool) : (x.setIv i lo hi b).xs = x.xs := rfl
@[simp] theorem Thread.setIv_cnt (x : Thread) (i : Nat) (lo hi : W32) (b : Bool) : (x.setIv i lo hi b).cnt = x.cnt := rfl
@[simp] theorem Thread.setIv_rpc (x : Thread) (i : Nat) (lo hi : W32) (b : Bool) : (x.setIv i lo hi b).rpc = x.rpc := rfl
@[simp] theorem Thread.setIv_helper (x : Thread) (i : Nat) (lo hi : W32) (b : Bool) : (x.setIv i lo hi b).helper = x.helper := rfl
@[simp] theorem Thread.setIv_retaddr (x : Thread) (i : Nat) (lo hi : W32) (b : Bool) : (x.setIv i lo hi b).retaddr = x.retaddr := rfl
@[simp] theorem Thread.setIv_srstate (x : Thread) (i : Nat) (lo hi : W32) (b : Bool) : (x.setIv i lo hi b).srstate = x.srstate := rfl
@[simp] theorem Thread.setIv_lb (x : Thread) (i : Nat) (lo hi : W32) (b : Bool) : (x.setIv i lo hi b).lb = x.lb := rfl
@[simp] theorem Thread.setIv_trap (x : Thread) (i : Nat) (lo hi : W32) (b : Bool) : (x.setIv i lo hi b).trap = x.trap := rfl
@[simp] theorem Thread.setIv_srv (x : Thread) (i : Nat) (lo hi : W32) (b : Bool) : (x.setIv i lo hi b).srv = x.srv := rfl
@[simp] theorem Thread.setIv_wait (x : Thread) (i : Nat) (lo hi : W32) (b : Bool) : (x.setIv i lo hi b).wait = x.wait := rfl
@[simp] theorem Thread.setIv_waited (x : Thread) (i : Nat) (lo hi : W32) (b : Bool) : (x.setIv i lo hi b).waited = x.waited := rfl
@[simp] theorem Thread.setIv_ended (x : Thread) (i : Nat) (lo hi : W32) (b : Bool) : (x.setIv i lo hi b).ended = x.ended := rfl
@[simp] theorem Thread.setIv_converged (x : Thread) (i : Nat) (lo hi : W32) (b : Bool) : (x.setIv i lo hi b).converged = x.converged := rfl
@[simp] theorem Thread.setIv_oqpos (x : Thread) (i : Nat) (lo hi : W32) (b : Bool) : (x.setIv i lo hi b).oqpos = x.oqpos := rfl
@[simp] theorem Thread.setIv_after (x : Thread) (i : Nat) (lo hi : W32) (b : Bool) : (x.setIv i lo hi b).after = x.after := rfl
@[simp] theorem Thread.setIv_afterW (x : Thread) (i : Nat) (lo hi : W32) (b : Bool) : (x.setIv i lo hi b).afterW = x.afterW := rfl
@[simp] theorem Thread.setIv_seen (x : Thread) (i : Nat) (lo hi : W32) (b : Bool) : (x.setIv i lo hi b).seen = x.seen := rfl
@[simp] theorem Thread.setIv_l1floor (x : Thread) (i : Nat) (lo hi : W32) (b : Bool) : (x.setIv i lo hi b).l1floor = x.l1floor := rfl
@[simp] theorem Thread.setPred_t (x : Thread) (i : Nat) (b : Tri) : (x.setPred i b).t = x.t := by unfold Thread.setPred; split <;> rfl
@[simp] theorem Thread.setPred_pc (x : Thread) (i : Nat) (b : Tri) : (x.setPred i b).pc = x.pc := by unfold Thread.setPred; split <;> rfl
@[simp] theorem Thread.setPred_enter (x : Thread) (i : Nat) (b : Tri) : (x.setPred i b).enter = x.enter := by unfold Thread.setPred; split <;> rfl
@[simp] theorem Thread.setPred_blkEnd (x : Thread) (i : Nat) (b : Tri) : (x.setPred i b).blkEnd = x.blkEnd := by unfold Thread.setPred; split <;> rfl
@[simp] theorem Thread.setPred_intv (x : Thread) (i : Nat) (b : Tri) : (x.setPred i b).intv = x.intv := by unfold Thread.setPred; split <;> rfl
@[simp] theorem Thread.setPred_regs (x : Thread) (i : Nat) (b : Tri) : (x.setPred i b).regs = x.regs := by unfold Thread.setPred; split <;> rfl
@[simp] theorem Thread.setPred_undef (x : Thread) (i : Nat) (b : Tri) : (x.setPred i b).undef = x.undef := by unfold Thread.setPred; split <;> rfl
@[simp] theorem Thread.setPred_xs (x : Thread) (i : Nat) (b : Tri) : (x.setPred i b).xs = x.xs := by unfold Thread.setPred; split <;> rfl
@[simp] theorem Thread.setPred_cnt (x : Thread) (i : Nat) (b : Tri) : (x.setPred i b).cnt = x.cnt := by unfold Thread.setPred; split <;> rfl
@[simp] theorem Thread.setPred_rpc (x : Thread) (i : Nat) (b : Tri) : (x.setPred i b).rpc = x.rpc := by unfold Thread.setPred; split <;> rfl
@[simp] theorem Thread.setPred_helper (x : Thread) (i : Nat) (b : Tri) : (x.setPred i b).helper = x.helper := by unfold Thread.setPred; split <;> rfl
@[simp] theorem Thread.setPred_retaddr (x : Thread) (i : Nat) (b : Tri) : (x.setPred i b).retaddr = x.retaddr := by unfold Thread.setPred; split <;> rfl
@[simp] theorem Thread.setPred_srstate (x : Thread) (i : Nat) (b : Tri) : (x.setPred i b).srstate = x.srstate := by unfold Thread.setPred; split <;> rfl
@[simp] theorem Thread.setPred_lb (x : Thread) (i : Nat) (b : Tri) : (x.setPred i b).lb = x.lb := by unfold Thread.setPred; split <;> rfl
@[simp] theorem Thread.setPred_trap (x : Thread) (i : Nat) (b : Tri) : (x.setPred i b).trap = x.trap := by unfold Thread.setPred; split <;> rfl
@[simp] theorem Thread.setPred_srv (x : Thread) (i : Nat) (b : Tri) : (x.setPred i b).srv = x.srv := by unfold Thread.setPred; split <;> rfl
@[simp] theorem Thread.setPred_wait (x : Thread) (i : Nat) (b : Tri) : (x.setPred i b).wait = x.wait := by unfold Thread.setPred; split <;> rfl
@[simp] theorem Thread.setPred_waited (x : Thread) (i : Nat) (b : Tri) : (x.setPred i b).waited = x.waited := by unfold Thread.setPred; split <;> rfl
@[simp] theorem Thread.setPred_ended (x : Thread) (i : Nat) (b : Tri) : (x.setPred i b).ended = x.ended := by unfold Thread.setPred; split <;> rfl
@[simp] theorem Thread.setPred_iv (x : Thread) (i : Nat) (b : Tri) : (x.setPred i b).iv = x.iv := by unfold Thread.setPred; split <;> rfl
@[simp] theorem Thread.setPred_converged (x : Thread) (i : Nat) (b : Tri) : (x.setPred i b).converged = x.converged := by unfold Thread.setPred; split <;> rfl
@[simp] theorem Thread.setPred_oqpos (x : Thread) (i : Nat) (b : Tri) : (x.setPred i b).oqpos = x.oqpos := by unfold Thread.setPred; split <;> rfl
@[simp] theorem Thread.setPred_after (x : Thread) (i : Nat) (b : Tri) : (x.setPred i b).after = x.after := by unfold Thread.setPred; split <;> rfl
@[simp] theorem Thread.setPred_afterW (x : Thread) (i : Nat) (b : Tri) : (x.setPred i b).afterW = x.afterW := by unfold Thread.setPred; split <;> rfl
@[simp] theorem Thread.setPred_seen (x : Thread) (i : Nat) (b : Tri) : (x.setPred i b).seen = x.seen := by unfold Thread.setPred; split <;> rfl
@[simp] theorem Thread.setPred_l1floor (x : Thread) (i : Nat) (b : Tri) : (x.setPred i b).l1floor = x.l1floor := by unfold Thread.setPred; split <;> rfl
@[simp] theorem Thread.setX_t (x : Thread) (i : Nat) (y : W32) : (x.setX i y).t = x.t := rfl
@[simp] theorem Thread.setX_pc (x : Thread) (i : Nat) (y : W32) : (x.setX i y).pc = x.pc := rfl
@[simp] theorem Thread.setX_enter (x : Thread) (i : Nat) (y : W32) : (x.setX i y).enter = x.enter := rfl
@[simp] theorem Thread.setX_blkEnd (x : Thread) (i : Nat) (y : W32) : (x.setX i y).blkEnd = x.blkEnd := rfl
@[simp] theorem Thread.setX_intv (x : Thread) (i : Nat) (y : W32) : (x.setX i y).intv = x.intv := rfl
@[simp] theorem Thread.setX_regs (x : Thread) (i : Nat) (y : W32) : (x.setX i y).regs = x.regs := rfl
@[simp] theorem Thread.setX_undef (x : Thread) (i : Nat) (y : W32) : (x.setX i y).undef = x.undef := rfl
@[simp] theorem Thread.setX_preds (x : Thread) (i : Nat) (y : W32) : (x.setX i y).preds = x.preds := rfl
@[simp] theorem Thread.setX_cnt (x : Thread) (i : Nat) (y : W32) : (x.setX i y).cnt = x.cnt := rfl
@[simp] theorem Thread.setX_rpc (x : Thread) (i : Nat) (y : W32) : (x.setX i y).rpc = x.rpc := rfl
@[simp] theorem Thread.setX_helper (x : Thread) (i : Nat) (y : W32) : (x.setX i y).helper = x.helper := rfl
@[simp] theorem Thread.setX_retaddr (x : Thread) (i : Nat) (y : W32) : (x.setX i y).retaddr = x.retaddr := rfl
@[simp] theorem Thread.setX_srstate (x : Thread) (i : Nat) (y : W32) : (x.setX i y).srstate = x.srstate := rfl
@[simp] theorem Thread.setX_lb (x : Thread) (i : Nat) (y : W32) : (x.setX i y).lb = x.lb := rfl
@[simp] theorem Thread.setX_trap (x : Thread) (i : Nat) (y : W32) : (x.setX i y).trap = x.trap := rfl
@[simp] theorem Thread.setX_srv (x : Thread) (i : Nat) (y : W32) : (x.setX i y).srv = x.srv := rfl
@[simp] theorem Thread.setX_wait (x : Thread) (i : Nat) (y : W32) : (x.setX i y).wait = x.wait := rfl
@[simp] theorem Thread.setX_waited (x : Thread) (i : Nat) (y : W32) : (x.setX i y).waited = x.waited := rfl
@[simp] theorem Thread.setX_ended (x : Thread) (i : Nat) (y : W32) : (x.setX i y).ended = x.ended := rfl
@[simp] theorem Thread.setX_iv (x : Thread) (i : Nat) (y : W32) : (x.setX i y).iv = x.iv := rfl
@[simp] theorem Thread.setX_converged (x : Thread) (i : Nat) (y : W32) : (x.setX i y).converged = x.converged := rfl
@[simp] theorem Thread.setX_oqpos (x : Thread) (i : Nat) (y : W32) : (x.setX i y).oqpos = x.oqpos := rfl
@[simp] theorem Thread.setX_after (x : Thread) (i : Nat) (y : W32) : (x.setX i y).after = x.after := rfl
@[simp] theorem Thread.setX_afterW (x : Thread) (i : Nat) (y : W32) : (x.setX i y).afterW = x.afterW := rfl
@[simp] theorem Thread.setX_seen (x : Thread) (i : Nat) (y : W32) : (x.setX i y).seen = x.seen := rfl
@[simp] theorem Thread.setX_l1floor (x : Thread) (i : Nat) (y : W32) : (x.setX i y).l1floor = x.l1floor := rfl
@[simp] theorem Thread.goNext_t (x : Thread) (n : Nat) : (x.goNext n).t = x.t := rfl
@[simp] theorem Thread.goNext_blkEnd (x : Thread) (n : Nat) : (x.goNext n).blkEnd = x.blkEnd := rfl
@[simp] theorem Thread.goNext_intv (x : Thread) (n : Nat) : (x.goNext n).intv = x.intv := rfl
@[simp] theorem Thread.goNext_regs (x : Thread) (n : Nat) : (x.goNext n).regs = x.regs := rfl
@[simp] theorem Thread.goNext_undef (x : Thread) (n : Nat) : (x.goNext n).undef = x.undef := rfl
@[simp] theorem Thread.goNext_preds (x : Thread) (n : Nat) : (x.goNext n).preds = x.preds := rfl
@[simp] theorem Thread.goNext_xs (x : Thread) (n : Nat) : (x.goNext n).xs = x.xs := rfl
@[simp] theorem Thread.goNext_cnt (x : Thread) (n : Nat) : (x.goNext n).cnt = x.cnt := rfl
@[simp] theorem Thread.goNext_rpc (x : Thread) (n : Nat) : (x.goNext n).rpc = x.rpc := rfl
@[simp] theorem Thread.goNext_helper (x : Thread) (n : Nat) : (x.goNext n).helper = x.helper := rfl
@[simp] theorem Thread.goNext_retaddr (x : Thread) (n : Nat) : (x.goNext n).retaddr = x.retaddr := rfl
@[simp] theorem Thread.goNext_srstate (x : Thread) (n : Nat) : (x.goNext n).srstate = x.srstate := rfl
@[simp] theorem Thread.goNext_lb (x : Thread) (n : Nat) : (x.goNext n).lb = x.lb := rfl
@[simp] theorem Thread.goNext_trap (x : Thread) (n : Nat) : (x.goNext n).trap = x.trap := rfl
@[simp] theorem Thread.goNext_srv (x : Thread) (n : Nat) : (x.goNext n).srv = x.srv := rfl
@[simp] theorem Thread.goNext_wait (x : Thread) (n : Nat) : (x.goNext n).wait = x.wait := rfl
@[simp] theorem Thread.goNext_waited (x : Thread) (n : Nat) : (x.goNext n).waited = x.waited := rfl
@[simp] theorem Thread.goNext_ended (x : Thread) (n : Nat) : (x.goNext n).ended = x.ended := rfl
@[simp] theorem Thread.goNext_iv (x : Thread) (n : Nat) : (x.goNext n).iv = x.iv := rfl
@[simp] theorem Thread.goNext_converged (x : Thread) (n : Nat) : (x.goNext n).converged = x.converged := rfl
@[simp] theorem Thread.goNext_oqpos (x : Thread) (n : Nat) : (x.goNext n).oqpos = x.oqpos := rfl
@[simp] theorem Thread.goNext_after (x : Thread) (n : Nat) : (x.goNext n).after = x.after := rfl
@[simp] theorem Thread.goNext_afterW (x : Thread) (n : Nat) : (x.goNext n).afterW = x.afterW := rfl
@[simp] theorem Thread.goNext_seen (x : Thread) (n : Nat) : (x.goNext n).seen = x.seen := rfl
@[simp] theorem Thread.goNext_l1floor (x : Thread) (n : Nat) : (x.goNext n).l1floor = x.l1floor := rfl
@[simp] theorem Thread.goTo_t (x : Thread) (a b : W64) : (x.goTo a b).t = x.t := rfl
@[simp] theorem Thread.goTo_blkEnd (x : Thread) (a b : W64) : (x.goTo a b).blkEnd = x.blkEnd := rfl
@[simp] theorem Thread.goTo_intv (x : Thread) (a b : W64) : (x.goTo a b).intv = x.intv := rfl
@[simp] theorem Thread.goTo_regs (x : Thread) (a b : W64) : (x.goTo a b).regs = x.regs := rfl
@[simp] theorem Thread.goTo_undef (x : Thread) (a b : W64) : (x.goTo a b).undef = x.undef := rfl
@[simp] theorem Thread.goTo_preds (x : Thread) (a b : W64) : (x.goTo a b).preds = x.preds := rfl
@[simp] theorem Thread.goTo_xs (x : Thread) (a b : W64) : (x.goTo a b).xs = x.xs := rfl
@[simp] theorem Thread.goTo_cnt (x : Thread) (a b : W64) : (x.goTo a b).cnt = x.cnt := rfl
@[simp] theorem Thread.goTo_rpc (x : Thread) (a b : W64) : (x.goTo a b).rpc = x.rpc := rfl
@[simp] theorem Thread.goTo_helper (x : Thread) (a b : W64) : (x.goTo a b).helper = x.helper := rfl
@[simp] theorem Thread.goTo_retaddr (x : Thread) (a b : W64) : (x.goTo a b).retaddr = x.retaddr := rfl
@[simp] theorem Thread.goTo_srstate (x : Thread) (a b : W64) : (x.goTo a b).srstate = x.srstate := rfl
@[simp] theorem Thread.goTo_lb (x : Thread) (a b : W64) : (x.goTo a b).lb = x.lb := rfl
@[simp] theorem Thread.goTo_trap (x : Thread) (a b : W64) : (x.goTo a b).trap = x.trap := rfl
@[simp] theorem Thread.goTo_srv (x : Thread) (a b : W64) : (x.goTo a b).srv = x.srv := rfl
@[simp] theorem Thread.goTo_wait (x : Thread) (a b : W64) : (x.goTo a b).wait = x.wait := rfl
@[simp] theorem Thread.goTo_waited (x : Thread) (a b : W64) : (x.goTo a b).waited = x.waited := rfl
@[simp] theorem Thread.goTo_ended (x : Thread) (a b : W64) : (x.goTo a b).ended = x.ended := rfl
@[simp] theorem Thread.goTo_iv (x : Thread) (a b : W64) : (x.goTo a b).iv = x.iv := rfl
@[simp] theorem Thread.goTo_converged (x : Thread) (a b : W64) : (x.goTo a b).converged = x.converged := rfl
@[simp] theorem Thread.goTo_oqpos (x : Thread) (a b : W64) : (x.goTo a b).oqpos = x.oqpos := rfl
@[simp] theorem Thread.goTo_after (x : Thread) (a b : W64) : (x.goTo a b).after = x.after := rfl
@[simp] theorem Thread.goTo_afterW (x : Thread) (a b : W64) : (x.goTo a b).afterW = x.afterW := rfl
@[simp] theorem Thread.goTo_seen (x : Thread) (a b : W64) : (x.goTo a b).seen = x.seen := rfl
@[simp] theorem Thread.goTo_l1floor (x : Thread) (a b : W64) : (x.goTo a b).l1floor = x.l1floor := rfl
@[simp] theorem Thread.taken_t (x : Thread) (a : W64) : (x.taken a).t = x.t := rfl
@[simp] theorem Thread.taken_blkEnd (x : Thread) (a : W64) : (x.taken a).blkEnd = x.blkEnd := rfl
@[simp] theorem Thread.taken_intv (x : Thread) (a : W64) : (x.taken a).intv = x.intv := rfl
@[simp] theorem Thread.taken_regs (x : Thread) (a : W64) : (x.taken a).regs = x.regs := rfl
@[simp] theorem Thread.taken_undef (x : Thread) (a : W64) : (x.taken a).undef = x.undef := rfl
@[simp] theorem Thread.taken_preds (x : Thread) (a : W64) : (x.taken a).preds = x.preds := rfl
@[simp] theorem Thread.taken_xs (x : Thread) (a : W64) : (x.taken a).xs = x.xs := rfl
@[simp] theorem Thread.taken_cnt (x : Thread) (a : W64) : (x.taken a).cnt = x.cnt := rfl
@[simp] theorem Thread.taken_rpc (x : Thread) (a : W64) : (x.taken a).rpc = x.rpc := rfl
@[simp] theorem Thread.taken_helper (x : Thread) (a : W64) : (x.taken a).helper = x.helper := rfl
@[simp] theorem Thread.taken_retaddr (x : Thread) (a : W64) : (x.taken a).retaddr = x.retaddr := rfl
@[simp] theorem Thread.taken_srstate (x : Thread) (a : W64) : (x.taken a).srstate = x.srstate := rfl
@[simp] theorem Thread.taken_lb (x : Thread) (a : W64) : (x.taken a).lb = x.lb := rfl
@[simp] theorem Thread.taken_trap (x : Thread) (a : W64) : (x.taken a).trap = x.trap := rfl
@[simp] theorem Thread.taken_srv (x : Thread) (a : W64) : (x.taken a).srv = x.srv := rfl
@[simp] theorem Thread.taken_wait (x : Thread) (a : W64) : (x.taken a).wait = x.wait := rfl
@[simp] theorem Thread.taken_ended (x : Thread) (a : W64) : (x.taken a).ended = x.ended := rfl
@[simp] theorem Thread.taken_iv (x : Thread) (a : W64) : (x.taken a).iv = x.iv := rfl
@[simp] theorem Thread.taken_converged (x : Thread) (a : W64) : (x.taken a).converged = x.converged := rfl
@[simp] theorem Thread.taken_oqpos (x : Thread) (a : W64) : (x.taken a).oqpos = x.oqpos := rfl
@[simp] theorem Thread.taken_after (x : Thread) (a : W64) : (x.taken a).after = x.after := rfl
@[simp] theorem Thread.taken_afterW (x : Thread) (a : W64) : (x.taken a).afterW = x.afterW := rfl
@[simp] theorem Thread.taken_seen (x : Thread) (a : W64) : (x.taken a).seen = x.seen := rfl
@[simp] theorem Thread.taken_l1floor (x : Thread) (a : W64) : (x.taken a).l1floor = x.l1floor := rfl
@[simp] theorem Thread.issued_blkEnd (x : Thread) (n : Nat) : (x.issued n).blkEnd = x.blkEnd := rfl
@[simp] theorem Thread.issued_intv (x : Thread) (n : Nat) : (x.issued n).intv = x.intv := rfl
@[simp] theorem Thread.issued_regs (x : Thread) (n : Nat) : (x.issued n).regs = x.regs := rfl
@[simp] theorem Thread.issued_undef (x : Thread) (n : Nat) : (x.issued n).undef = x.undef := rfl
@[simp] theorem Thread.issued_preds (x : Thread) (n : Nat) : (x.issued n).preds = x.preds := rfl
@[simp] theorem Thread.issued_xs (x : Thread) (n : Nat) : (x.issued n).xs = x.xs := rfl
@[simp] theorem Thread.issued_cnt (x : Thread) (n : Nat) : (x.issued n).cnt = x.cnt := rfl
@[simp] theorem Thread.issued_rpc (x : Thread) (n : Nat) : (x.issued n).rpc = x.rpc := rfl
@[simp] theorem Thread.issued_helper (x : Thread) (n : Nat) : (x.issued n).helper = x.helper := rfl
@[simp] theorem Thread.issued_retaddr (x : Thread) (n : Nat) : (x.issued n).retaddr = x.retaddr := rfl
@[simp] theorem Thread.issued_srstate (x : Thread) (n : Nat) : (x.issued n).srstate = x.srstate := rfl
@[simp] theorem Thread.issued_lb (x : Thread) (n : Nat) : (x.issued n).lb = x.lb := rfl
@[simp] theorem Thread.issued_trap (x : Thread) (n : Nat) : (x.issued n).trap = x.trap := rfl
@[simp] theorem Thread.issued_srv (x : Thread) (n : Nat) : (x.issued n).srv = x.srv := rfl
@[simp] theorem Thread.issued_wait (x : Thread) (n : Nat) : (x.issued n).wait = x.wait := rfl
@[simp] theorem Thread.issued_ended (x : Thread) (n : Nat) : (x.issued n).ended = x.ended := rfl
@[simp] theorem Thread.issued_iv (x : Thread) (n : Nat) : (x.issued n).iv = x.iv := rfl
@[simp] theorem Thread.issued_converged (x : Thread) (n : Nat) : (x.issued n).converged = x.converged := rfl
@[simp] theorem Thread.issued_oqpos (x : Thread) (n : Nat) : (x.issued n).oqpos = x.oqpos := rfl
@[simp] theorem Thread.issued_after (x : Thread) (n : Nat) : (x.issued n).after = x.after := rfl
@[simp] theorem Thread.issued_afterW (x : Thread) (n : Nat) : (x.issued n).afterW = x.afterW := rfl
@[simp] theorem Thread.issued_seen (x : Thread) (n : Nat) : (x.issued n).seen = x.seen := rfl
@[simp] theorem Thread.issued_l1floor (x : Thread) (n : Nat) : (x.issued n).l1floor = x.l1floor := rfl
@[simp] theorem Thread.deliver_t (x : Thread) (v : W64) (c : W32) (a p : W64) : (x.deliver v c a p).t = x.t := rfl
@[simp] theorem Thread.deliver_blkEnd (x : Thread) (v : W64) (c : W32) (a p : W64) : (x.deliver v c a p).blkEnd = x.blkEnd := rfl
@[simp] theorem Thread.deliver_intv (x : Thread) (v : W64) (c : W32) (a p : W64) : (x.deliver v c a p).intv = x.intv := rfl
@[simp] theorem Thread.deliver_regs (x : Thread) (v : W64) (c : W32) (a p : W64) : (x.deliver v c a p).regs = x.regs := rfl
@[simp] theorem Thread.deliver_undef (x : Thread) (v : W64) (c : W32) (a p : W64) : (x.deliver v c a p).undef = x.undef := rfl
@[simp] theorem Thread.deliver_preds (x : Thread) (v : W64) (c : W32) (a p : W64) : (x.deliver v c a p).preds = x.preds := rfl
@[simp] theorem Thread.deliver_xs (x : Thread) (v : W64) (c : W32) (a p : W64) : (x.deliver v c a p).xs = x.xs := rfl
@[simp] theorem Thread.deliver_cnt (x : Thread) (v : W64) (c : W32) (a p : W64) : (x.deliver v c a p).cnt = x.cnt := rfl
@[simp] theorem Thread.deliver_rpc (x : Thread) (v : W64) (c : W32) (a p : W64) : (x.deliver v c a p).rpc = x.rpc := rfl
@[simp] theorem Thread.deliver_retaddr (x : Thread) (v : W64) (c : W32) (a p : W64) : (x.deliver v c a p).retaddr = x.retaddr := rfl
@[simp] theorem Thread.deliver_srstate (x : Thread) (v : W64) (c : W32) (a p : W64) : (x.deliver v c a p).srstate = x.srstate := rfl
@[simp] theorem Thread.deliver_lb (x : Thread) (v : W64) (c : W32) (a p : W64) : (x.deliver v c a p).lb = x.lb := rfl
@[simp] theorem Thread.deliver_srv (x : Thread) (v : W64) (c : W32) (a p : W64) : (x.deliver v c a p).srv = x.srv := rfl
@[simp] theorem Thread.deliver_ended (x : Thread) (v : W64) (c : W32) (a p : W64) : (x.deliver v c a p).ended = x.ended := rfl
@[simp] theorem Thread.deliver_iv (x : Thread) (v : W64) (c : W32) (a p : W64) : (x.deliver v c a p).iv = x.iv := rfl
@[simp] theorem Thread.deliver_converged (x : Thread) (v : W64) (c : W32) (a p : W64) : (x.deliver v c a p).converged = x.converged := rfl
@[simp] theorem Thread.deliver_oqpos (x : Thread) (v : W64) (c : W32) (a p : W64) : (x.deliver v c a p).oqpos = x.oqpos := rfl
@[simp] theorem Thread.deliver_after (x : Thread) (v : W64) (c : W32) (a p : W64) : (x.deliver v c a p).after = x.after := rfl
@[simp] theorem Thread.deliver_afterW (x : Thread) (v : W64) (c : W32) (a p : W64) : (x.deliver v c a p).afterW = x.afterW := rfl
@[simp] theorem Thread.deliver_seen (x : Thread) (v : W64) (c : W32) (a p : W64) : (x.deliver v c a p).seen = x.seen := rfl
@[simp] theorem Thread.deliver_l1floor (x : Thread) (v : W64) (c : W32) (a p : W64) : (x.deliver v c a p).l1floor = x.l1floor := rfl
@[simp] theorem Thread.sends_t (x : Thread) (q : Req) : (x.sends q).t = x.t := rfl
@[simp] theorem Thread.sends_pc (x : Thread) (q : Req) : (x.sends q).pc = x.pc := rfl
@[simp] theorem Thread.sends_enter (x : Thread) (q : Req) : (x.sends q).enter = x.enter := rfl
@[simp] theorem Thread.sends_blkEnd (x : Thread) (q : Req) : (x.sends q).blkEnd = x.blkEnd := rfl
@[simp] theorem Thread.sends_intv (x : Thread) (q : Req) : (x.sends q).intv = x.intv := rfl
@[simp] theorem Thread.sends_regs (x : Thread) (q : Req) : (x.sends q).regs = x.regs := rfl
@[simp] theorem Thread.sends_undef (x : Thread) (q : Req) : (x.sends q).undef = x.undef := rfl
@[simp] theorem Thread.sends_preds (x : Thread) (q : Req) : (x.sends q).preds = x.preds := rfl
@[simp] theorem Thread.sends_xs (x : Thread) (q : Req) : (x.sends q).xs = x.xs := rfl
@[simp] theorem Thread.sends_rpc (x : Thread) (q : Req) : (x.sends q).rpc = x.rpc := rfl
@[simp] theorem Thread.sends_helper (x : Thread) (q : Req) : (x.sends q).helper = x.helper := rfl
@[simp] theorem Thread.sends_retaddr (x : Thread) (q : Req) : (x.sends q).retaddr = x.retaddr := rfl
@[simp] theorem Thread.sends_srstate (x : Thread) (q : Req) : (x.sends q).srstate = x.srstate := rfl
@[simp] theorem Thread.sends_lb (x : Thread) (q : Req) : (x.sends q).lb = x.lb := rfl
@[simp] theorem Thread.sends_trap (x : Thread) (q : Req) : (x.sends q).trap = x.trap := rfl
@[simp] theorem Thread.sends_srv (x : Thread) (q : Req) : (x.sends q).srv = x.srv := rfl
@[simp] theorem Thread.sends_wait (x : Thread) (q : Req) : (x.sends q).wait = x.wait := rfl
@[simp] theorem Thread.sends_waited (x : Thread) (q : Req) : (x.sends q).waited = x.waited := rfl
@[simp] theorem Thread.sends_ended (x : Thread) (q : Req) : (x.sends q).ended = x.ended := rfl
@[simp] theorem Thread.sends_iv (x : Thread) (q : Req) : (x.sends q).iv = x.iv := rfl
@[simp] theorem Thread.sends_converged (x : Thread) (q : Req) : (x.sends q).converged = x.converged := rfl
@[simp] theorem Thread.sends_oqpos (x : Thread) (q : Req) : (x.sends q).oqpos = x.oqpos := rfl
@[simp] theorem Thread.sends_afterW (x : Thread) (q : Req) : (x.sends q).afterW = x.afterW := rfl
@[simp] theorem Thread.sends_seen (x : Thread) (q : Req) : (x.sends q).seen = x.seen := rfl
@[simp] theorem Thread.sends_l1floor (x : Thread) (q : Req) : (x.sends q).l1floor = x.l1floor := rfl
@[simp] theorem Thread.wrN_pc (x : Thread) (n : Nat) (f : Fld) (y : Nat) : (x.wrN n f y).pc = x.pc := by unfold Thread.wrN Thread.wr64 Thread.wr32; split <;> split <;> rfl
@[simp] theorem Thread.wrN_enter (x : Thread) (n : Nat) (f : Fld) (y : Nat) : (x.wrN n f y).enter = x.enter := by unfold Thread.wrN Thread.wr64 Thread.wr32; split <;> split <;> rfl
@[simp] theorem Thread.wrN_blkEnd (x : Thread) (n : Nat) (f : Fld) (y : Nat) : (x.wrN n f y).blkEnd = x.blkEnd := by unfold Thread.wrN Thread.wr64 Thread.wr32; split <;> split <;> rfl
@[simp] theorem Thread.wrN_intv (x : Thread) (n : Nat) (f : Fld) (y : Nat) : (x.wrN n f y).intv = x.intv := by unfold Thread.wrN Thread.wr64 Thread.wr32; split <;> split <;> rfl
@[simp] theorem Thread.wrN_undef (x : Thread) (n : Nat) (f : Fld) (y : Nat) : (x.wrN n f y).undef = x.undef := by unfold Thread.wrN Thread.wr64 Thread.wr32; split <;> split <;> rfl
@[simp] theorem Thread.wrN_preds (x : Thread) (n : Nat) (f : Fld) (y : Nat) : (x.wrN n f y).preds = x.preds := by unfold Thread.wrN Thread.wr64 Thread.wr32; split <;> split <;> rfl
@[simp] theorem Thread.wrN_xs (x : Thread) (n : Nat) (f : Fld) (y : Nat) : (x.wrN n f y).xs = x.xs := by unfold Thread.wrN Thread.wr64 Thread.wr32; split <;> split <;> rfl
@[simp] theorem Thread.wrN_cnt (x : Thread) (n : Nat) (f : Fld) (y : Nat) : (x.wrN n f y).cnt = x.cnt := by unfold Thread.wrN Thread.wr64 Thread.wr32; split <;> split <;> rfl
@[simp] theorem Thread.wrN_rpc (x : Thread) (n : Nat) (f : Fld) (y : Nat) : (x.wrN n f y).rpc = x.rpc := by unfold Thread.wrN Thread.wr64 Thread.wr32; split <;> split <;> rfl
@[simp] theorem Thread.wrN_helper (x : Thread) (n : Nat) (f : Fld) (y : Nat) : (x.wrN n f y).helper = x.helper := by unfold Thread.wrN Thread.wr64 Thread.wr32; split <;> split <;> rfl
@[simp] theorem Thread.wrN_retaddr (x : Thread) (n : Nat) (f : Fld) (y : Nat) : (x.wrN n f y).retaddr = x.retaddr := by unfold Thread.wrN Thread.wr64 Thread.wr32; split <;> split <;> rfl
@[simp] theorem Thread.wrN_srstate (x : Thread) (n : Nat) (f : Fld) (y : Nat) : (x.wrN n f y).srstate = x.srstate := by unfold Thread.wrN Thread.wr64 Thread.wr32; split <;> split <;> rfl
@[simp] theorem Thread.wrN_lb (x : Thread) (n : Nat) (f : Fld) (y : Nat) : (x.wrN n f y).lb = x.lb := by unfold Thread.wrN Thread.wr64 Thread.wr32; split <;> split <;> rfl
@[simp] theorem Thread.wrN_trap (x : Thread) (n : Nat) (f : Fld) (y : Nat) : (x.wrN n f y).trap = x.trap := by unfold Thread.wrN Thread.wr64 Thread.wr32; split <;> split <;> rfl
@[simp] theorem Thread.wrN_srv (x : Thread) (n : Nat) (f : Fld) (y : Nat) : (x.wrN n f y).srv = x.srv := by unfold Thread.wrN Thread.wr64 Thread.wr32; split <;> split <;> rfl
@[simp] theorem Thread.wrN_wait (x : Thread) (n : Nat) (f : Fld) (y : Nat) : (x.wrN n f y).wait = x.wait := by unfold Thread.wrN Thread.wr64 Thread.wr32; split <;> split <;> rfl
@[simp] theorem Thread.wrN_waited (x : Thread) (n : Nat) (f : Fld) (y : Nat) : (x.wrN n f y).waited = x.waited := by unfold Thread.wrN Thread.wr64 Thread.wr32; split <;> split <;> rfl
@[simp] theorem Thread.wrN_ended (x : Thread) (n : Nat) (f : Fld) (y : Nat) : (x.wrN n f y).ended = x.ended := by unfold Thread.wrN Thread.wr64 Thread.wr32; split <;> split <;> rfl
@[simp] theorem Thread.wrN_iv (x : Thread) (n : Nat) (f : Fld) (y : Nat) : (x.wrN n f y).iv = x.iv := by unfold Thread.wrN Thread.wr64 Thread.wr32; split <;> split <;> rfl
@[simp] theorem Thread.wrN_converged (x : Thread) (n : Nat) (f : Fld) (y : Nat) : (x.wrN n f y).converged = x.converged := by unfold Thread.wrN Thread.wr64 Thread.wr32; split <;> split <;> rfl
@[simp] theorem Thread.wrN_oqpos (x : Thread) (n : Nat) (f : Fld) (y : Nat) : (x.wrN n f y).oqpos = x.oqpos := by unfold Thread.wrN Thread.wr64 Thread.wr32; split <;> split <;> rfl
@[simp] theorem Thread.wrN_after (x : Thread) (n : Nat) (f : Fld) (y : Nat) : (x.wrN n f y).after = x.after := by unfold Thread.wrN Thread.wr64 Thread.wr32; split <;> split <;> rfl
@[simp] theorem Thread.wrN_afterW (x : Thread) (n : Nat) (f : Fld) (y : Nat) : (x.wrN n f y).afterW = x.afterW := by unfold Thread.wrN Thread.wr64 Thread.wr32; split <;> split <;> rfl
@[simp] theorem Thread.wrN_seen (x : Thread) (n : Nat) (f : Fld) (y : Nat) : (x.wrN n f y).seen = x.seen := by unfold Thread.wrN Thread.wr64 Thread.wr32; split <;> split <;> rfl
@[simp] theorem Thread.wrN_l1floor (x : Thread) (n : Nat) (f : Fld) (y : Nat) : (x.wrN n f y).l1floor = x.l1floor := by unfold Thread.wrN Thread.wr64 Thread.wr32; split <;> split <;> rfl
@[simp] theorem Thread.wrIv_t (x : Thread) (n : Nat) (f : Fld) (r : Raw) : (x.wrIv n f r).t = x.t := by
  unfold Thread.wrIv; split <;> first | rfl | (dsimp only; split <;> rfl)
@[simp] theorem Thread.wrIv_pc (x : Thread) (n : Nat) (f : Fld) (r : Raw) : (x.wrIv n f r).pc = x.pc := by
  unfold Thread.wrIv; split <;> first | rfl | (dsimp only; split <;> rfl)
@[simp] theorem Thread.wrIv_enter (x : Thread) (n : Nat) (f : Fld) (r : Raw) : (x.wrIv n f r).enter = x.enter := by
  unfold Thread.wrIv; split <;> first | rfl | (dsimp only; split <;> rfl)
@[simp] theorem Thread.wrIv_blkEnd (x : Thread) (n : Nat) (f : Fld) (r : Raw) : (x.wrIv n f r).blkEnd = x.blkEnd := by
  unfold Thread.wrIv; split <;> first | rfl | (dsimp only; split <;> rfl)
@[simp] theorem Thread.wrIv_intv (x : Thread) (n : Nat) (f : Fld) (r : Raw) : (x.wrIv n f r).intv = x.intv := by
  unfold Thread.wrIv; split <;> first | rfl | (dsimp only; split <;> rfl)
@[simp] theorem Thread.wrIv_undef (x : Thread) (n : Nat) (f : Fld) (r : Raw) : (x.wrIv n f r).undef = x.undef := by
  unfold Thread.wrIv; split <;> first | rfl | (dsimp only; split <;> rfl)
@[simp] theorem Thread.wrIv_preds (x : Thread) (n : Nat) (f : Fld) (r : Raw) : (x.wrIv n f r).preds = x.preds := by
  unfold Thread.wrIv; split <;> first | rfl | (dsimp only; split <;> rfl)
@[simp] theorem Thread.wrIv_xs (x : Thread) (n : Nat) (f : Fld) (r : Raw) : (x.wrIv n f r).xs = x.xs := by
  unfold Thread.wrIv; split <;> first | rfl | (dsimp only; split <;> rfl)
@[simp] theorem Thread.wrIv_cnt (x : Thread) (n : Nat) (f : Fld) (r : Raw) : (x.wrIv n f r).cnt = x.cnt := by
  unfold Thread.wrIv; split <;> first | rfl | (dsimp only; split <;> rfl)
@[simp] theorem Thread.wrIv_rpc (x : Thread) (n : Nat) (f : Fld) (r : Raw) : (x.wrIv n f r).rpc = x.rpc := by
  unfold Thread.wrIv; split <;> first | rfl | (dsimp only; split <;> rfl)
@[simp] theorem Thread.wrIv_helper (x : Thread) (n : Nat) (f : Fld) (r : Raw) : (x.wrIv n f r).helper = x.helper := by
  unfold Thread.wrIv; split <;> first | rfl | (dsimp only; split <;> rfl)
@[simp] theorem Thread.wrIv_retaddr (x : Thread) (n : Nat) (f : Fld) (r : Raw) : (x.wrIv n f r).retaddr = x.retaddr := by
  unfold Thread.wrIv; split <;> first | rfl | (dsimp only; split <;> rfl)
@[simp] theorem Thread.wrIv_srstate (x : Thread) (n : Nat) (f : Fld) (r : Raw) : (x.wrIv n f r).srstate = x.srstate := by
  unfold Thread.wrIv; split <;> first | rfl | (dsimp only; split <;> rfl)
@[simp] theorem Thread.wrIv_lb (x : Thread) (n : Nat) (f : Fld) (r : Raw) : (x.wrIv n f r).lb = x.lb := by
  unfold Thread.wrIv; split <;> first | rfl | (dsimp only; split <;> rfl)
@[simp] theorem Thread.wrIv_trap (x : Thread) (n : Nat) (f : Fld) (r : Raw) : (x.wrIv n f r).trap = x.trap := by
  unfold Thread.wrIv; split <;> first | rfl | (dsimp only; split <;> rfl)
@[simp] theorem Thread.wrIv_srv (x : Thread) (n : Nat) (f : Fld) (r : Raw) : (x.wrIv n f r).srv = x.srv := by
  unfold Thread.wrIv; split <;> first | rfl | (dsimp only; split <;> rfl)
@[simp] theorem Thread.wrIv_wait (x : Thread) (n : Nat) (f : Fld) (r : Raw) : (x.wrIv n f r).wait = x.wait := by
  unfold Thread.wrIv; split <;> first | rfl | (dsimp only; split <;> rfl)
@[simp] theorem Thread.wrIv_waited (x : Thread) (n : Nat) (f : Fld) (r : Raw) : (x.wrIv n f r).waited = x.waited := by
  unfold Thread.wrIv; split <;> first | rfl | (dsimp only; split <;> rfl)
@[simp] theorem Thread.wrIv_ended (x : Thread) (n : Nat) (f : Fld) (r : Raw) : (x.wrIv n f r).ended = x.ended := by
  unfold Thread.wrIv; split <;> first | rfl | (dsimp only; split <;> rfl)
@[simp] theorem Thread.wrIv_converged (x : Thread) (n : Nat) (f : Fld) (r : Raw) : (x.wrIv n f r).converged = x.converged := by
  unfold Thread.wrIv; split <;> first | rfl | (dsimp only; split <;> rfl)
@[simp] theorem Thread.wrIv_oqpos (x : Thread) (n : Nat) (f : Fld) (r : Raw) : (x.wrIv n f r).oqpos = x.oqpos := by
  unfold Thread.wrIv; split <;> first | rfl | (dsimp only; split <;> rfl)
@[simp] theorem Thread.wrIv_after (x : Thread) (n : Nat) (f : Fld) (r : Raw) : (x.wrIv n f r).after = x.after := by
  unfold Thread.wrIv; split <;> first | rfl | (dsimp only; split <;> rfl)
@[simp] theorem Thread.wrIv_afterW (x : Thread) (n : Nat) (f : Fld) (r : Raw) : (x.wrIv n f r).afterW = x.afterW := by
  unfold Thread.wrIv; split <;> first | rfl | (dsimp only; split <;> rfl)
@[simp] theorem Thread.wrIv_seen (x : Thread) (n : Nat) (f : Fld) (r : Raw) : (x.wrIv n f r).seen = x.seen := by
  unfold Thread.wrIv; split <;> first | rfl | (dsimp only; split <;> rfl)
@[simp] theorem Thread.wrIv_l1floor (x : Thread) (n : Nat) (f : Fld) (r : Raw) : (x.wrIv n f r).l1floor = x.l1floor := by
  unfold Thread.wrIv; split <;> first | rfl | (dsimp only; split <;> rfl)

/-! ## A flock under a change of one thread -/

@[simp] theorem Flock.modThread_core (f : Flock) (t : Nat) (g : Thread → Thread) : (f.modThread t g).core = f.core := by
  unfold Flock.modThread; split <;> rfl
@[simp] theorem Flock.modThread_slot (f : Flock) (t : Nat) (g : Thread → Thread) : (f.modThread t g).slot = f.slot := by
  unfold Flock.modThread; split <;> rfl
@[simp] theorem Flock.modThread_ctx (f : Flock) (t : Nat) (g : Thread → Thread) : (f.modThread t g).ctx = f.ctx := by
  unfold Flock.modThread; split <;> rfl
@[simp] theorem Flock.modThread_run (f : Flock) (t : Nat) (g : Thread → Thread) : (f.modThread t g).run = f.run := by
  unfold Flock.modThread; split <;> rfl
@[simp] theorem Flock.modThread_g (f : Flock) (t : Nat) (g : Thread → Thread) : (f.modThread t g).g = f.g := by
  unfold Flock.modThread; split <;> rfl
@[simp] theorem Flock.modThread_fx (f : Flock) (t : Nat) (g : Thread → Thread) : (f.modThread t g).fx = f.fx := by
  unfold Flock.modThread; split <;> rfl
@[simp] theorem Flock.modThread_fy (f : Flock) (t : Nat) (g : Thread → Thread) : (f.modThread t g).fy = f.fy := by
  unfold Flock.modThread; split <;> rfl
@[simp] theorem Flock.modThread_fz (f : Flock) (t : Nat) (g : Thread → Thread) : (f.modThread t g).fz = f.fz := by
  unfold Flock.modThread; split <;> rfl
@[simp] theorem Flock.modThread_hidx (f : Flock) (t : Nat) (g : Thread → Thread) : (f.modThread t g).hidx = f.hidx := by
  unfold Flock.modThread; split <;> rfl
@[simp] theorem Flock.modThread_herd (f : Flock) (t : Nat) (g : Thread → Thread) : (f.modThread t g).herd = f.herd := by
  unfold Flock.modThread; split <;> rfl
@[simp] theorem Flock.modThread_kern (f : Flock) (t : Nat) (g : Thread → Thread) : (f.modThread t g).kern = f.kern := by
  unfold Flock.modThread; split <;> rfl
@[simp] theorem Flock.modThread_ks (f : Flock) (t : Nat) (g : Thread → Thread) : (f.modThread t g).ks = f.ks := by
  unfold Flock.modThread; split <;> rfl
@[simp] theorem Flock.modThread_fs (f : Flock) (t : Nat) (g : Thread → Thread) : (f.modThread t g).fs = f.fs := by
  unfold Flock.modThread; split <;> rfl
@[simp] theorem Flock.modThread_ms (f : Flock) (t : Nat) (g : Thread → Thread) : (f.modThread t g).ms = f.ms := by
  unfold Flock.modThread; split <;> rfl
@[simp] theorem Flock.modThread_oq (f : Flock) (t : Nat) (g : Thread → Thread) : (f.modThread t g).oq = f.oq := by
  unfold Flock.modThread; split <;> rfl
@[simp] theorem Flock.modThread_committed (f : Flock) (t : Nat) (g : Thread → Thread) : (f.modThread t g).committed = f.committed := by
  unfold Flock.modThread; split <;> rfl
@[simp] theorem Flock.modThread_sigma (f : Flock) (t : Nat) (g : Thread → Thread) : (f.modThread t g).sigma = f.sigma := by
  unfold Flock.modThread; split <;> rfl
@[simp] theorem Flock.modThread_barDone (f : Flock) (t : Nat) (g : Thread → Thread) : (f.modThread t g).barDone = f.barDone := by
  unfold Flock.modThread; split <;> rfl
@[simp] theorem Flock.modThread_regs (f : Flock) (t : Nat) (g : Thread → Thread) : (f.modThread t g).regs = f.regs := by
  unfold Flock.modThread; split <;> rfl
@[simp] theorem Flock.modThread_tile (f : Flock) (t : Nat) (g : Thread → Thread) : (f.modThread t g).tile = f.tile := by
  unfold Flock.modThread; split <;> rfl
@[simp] theorem Flock.modThread_dead (f : Flock) (t : Nat) (g : Thread → Thread) : (f.modThread t g).dead = f.dead := by
  unfold Flock.modThread; split <;> rfl
@[simp] theorem Flock.modThread_finished (f : Flock) (t : Nat) (g : Thread → Thread) : (f.modThread t g).finished = f.finished := by
  unfold Flock.modThread; split <;> rfl

/-! ## The state -/

@[simp] theorem State.begun_mem (s : State) : s.begun.mem = s.mem := rfl
@[simp] theorem State.device_mem (s : State) (D : Dev → Dev) : (s.device D).mem = s.mem := rfl
@[simp] theorem State.issueBy_mem (s : State) (v : Env) (D : Dev → Dev) : (s.issueBy v D).mem = s.mem := rfl
@[simp] theorem State.changes_mem (s : State) (v : Env) (k : Thread → Thread) : (s.changes v k).mem = s.mem := rfl
@[simp] theorem State.eachMember_mem (s : State) (g : Group) (k : TRef → Flock → Thread → Thread → Thread) :
    (s.eachMember g k).mem = s.mem := rfl
@[simp] theorem State.begun_sto (s : State) : s.begun.sto = s.sto := rfl
@[simp] theorem State.device_sto (s : State) (D : Dev → Dev) : (s.device D).sto = s.sto := rfl
@[simp] theorem State.issueBy_sto (s : State) (v : Env) (D : Dev → Dev) : (s.issueBy v D).sto = s.sto := rfl
@[simp] theorem State.changes_sto (s : State) (v : Env) (k : Thread → Thread) : (s.changes v k).sto = s.sto := rfl
@[simp] theorem State.eachMember_sto (s : State) (g : Group) (k : TRef → Flock → Thread → Thread → Thread) :
    (s.eachMember g k).sto = s.sto := rfl

@[simp] theorem State.device_dev (s : State) (D : Dev → Dev) : (s.device D).dev = D s.dev := rfl

end Sys2Proof.Machine
end

