-- ==== Sys2Proof/Laws/Words.lean ====
section
/-! SUPPORT. From what a meaning does for one member to what the instruction does for its group, and the elements of
integer operands. -/

namespace Sys2Proof.Machine

/-- From one member's turn to the group, for any condition on the members. -/
theorem changesIf_of {i : Instr} {major : Nat} {b : Body} {P : Env → Prop} {k : Env → Thread → Thread} {m : Meaning}
    (he : ∀ s, exec i s = commit (issue major b m) s) (hk : ∀ v x, (k v x).t = x.t)
    (hm : ∀ s g row, ChangesOwn m s g major b row P k) : ChangesIf i major b P k := by
  intro s g row h
  rw [he]
  exact issue_eachMember h hk (hm s g row)

/-- A word that, performed, changes its own thread by `k`, which other members' changes do not touch. -/
theorem changesWhen_of {i : Instr} {major : Nat} {b : Body} {iv : Bool} {c : Env → Prop} {k : Env → Thread → Thread}
    {m : Meaning} (hq : major ≠ 0xB4) (he : ∀ s, exec i s = commit (issue major b m) s)
    (hk : ∀ v x, (k v x).t = x.t)
    (hm : ∀ (u v : Env), u.major = major → u.b = b → Performs u → u.th.intv = iv → c u → reject major b = none →
      memberOf v.s v.grp v.r = some (v.f, v.th) → (∃ fl ths inst, v = u.turn fl ths inst) →
      commit ((m v).finish v) v.s = .next { v.s with dev := v.s.dev.modThread v.r (k u) }) :
    ChangesWhen i major b iv c k := by
  intro s g row h
  rw [he]
  refine issue_eachMember h hk fun v hv hP => ?_
  obtain ⟨fl, ths, inst, e⟩ := hv.eq
  obtain ⟨hp, hi, hc⟩ := hP
  have hone := hm _ v rfl rfl hp hi hc h.encoding (by have := hv.now; rwa [← hv.grp] at this) ⟨fl, ths, inst, e⟩
  rw [← hone]
  have hs := stepMember_performs (fl := fl) (ths := ths) (inst := inst) m (u := envAt s g major b row v.r v.f0 v.th) rfl hp
    (stays_like hq)
  rw [← e] at hs
  rw [hs]

@[simp] theorem Thread.wrN_t (x : Thread) (n : Nat) (f : Fld) (y : Nat) : (x.wrN n f y).t = x.t := by
  unfold Thread.wrN Thread.wr64 Thread.wr32
  split <;> split <;> rfl

@[simp] theorem Thread.issued_t (x : Thread) (n : Nat) : (x.issued n).t = x.t := rfl

/-- A word that, performed, writes registers of its own thread. -/
theorem writesReg_of {i : Instr} {major : Nat} {b : Body} {n : Nat} {val : Env → Nat} {m : Meaning}
    (hq : major ≠ 0xB4) (he : ∀ s, exec i s = commit (issue major b m) s)
    (hm : ∀ v : Env, v.major = major → v.b = b → reject major b = none → v.th.intv = false → v.regBad = none →
      m v = v.put (fun x => x.wrN n b.vd (val v)))
    (hkv : ∀ (v : Env) fl ths inst, val (v.turn fl ths inst) = val v) :
    WritesReg i major b n val := by
  unfold WritesReg ChangesMembers
  refine changesWhen_of hq he (fun v x => by simp) (fun u v h1 h2 hp h3 _ h4 _ ht => ?_)
  obtain ⟨fl, ths, inst, rfl⟩ := ht
  rw [hm (u.turn fl ths inst) h1 h2 h4 h3 hp.operands, put_finish _ _ (fun x => Thread.wrN_t _ _ _ _), hkv]
  rfl

/-! ## Elements -/

theorem ity_k (v : Nat) : (ity v).k = 1 ∨ (ity v).k = 2 ∨ (ity v).k = 4 := by
  unfold ity; split <;> simp

/-- Elements put together one by one are their sum. -/
theorem packInts_ofLanes (t : ITy) (hk : t.k = 1 ∨ t.k = 2 ∨ t.k = 4) (f : Nat → Int) :
    packInts t.w ((List.range t.k).map f) = ofLanes t f := by
  unfold ofLanes
  rcases hk with h | h | h <;> rw [h] <;> simp [List.range_succ, packInts, wrap] <;> ring

theorem laneVal_shift (t : ITy) (x i : Nat) : t.val (x >>> (t.w * i)) = laneVal t x i := by
  rw [laneVal, Nat.shiftRight_eq_div_pow]

theorem clamp_held (t : ITy) (h : t.min ≤ t.max) (sat : Bool) (x : Int) : (if sat then t.clamp x else x) = held t sat x := by
  unfold held ITy.clamp; split
  · simp only [max_def, min_def]; split_ifs <;> omega
  · rfl

theorem ity_minmax (v : Nat) : (ity v).min ≤ (ity v).max := by
  unfold ity; split <;> decide

end Sys2Proof.Machine
end

