-- ==== Sys2Proof/Tests/Setup.lean ====
section
/-! SUPPORT. Small states for tests and witnesses: one thread of one flock at an instruction, and what makes it perform. -/

namespace Sys2Proof.Tests

open Sys2Proof.Machine

/-- Common fields without guard and literal. -/
abbrev p (var mod : Nat) : Hd := ⟨0, false, var, 0, mod, false, 0⟩
/-- The unused register field, and a register field. -/
abbrev z : Fld := .direct 2047
abbrev v (n : Nat) : Fld := .direct n

/-- The code address of the placed thread, the thread, and the group of it alone. -/
abbrev here : W64 := BitVec.ofNat 64 placeCode
abbrev one : TRef := ⟨0, 0, 0⟩
abbrev alone : Group := ⟨0, 0, false, here, [one]⟩
/-- The thread as placed, and its flock. -/
abbrev th0 : Thread := placeThread 0 here
abbrev fl0 : Flock := placeFlock

/-- The machine after reset with one chosen thread of one flock, the device then changed by `D`. -/
def seat (th : Thread) (f : Flock) (D : Dev → Dev := id) : State :=
  let s := placeWord State.reset 0
  { s with dev := D { s.dev with flocks := [{ f with threads := [th] }] } }

theorem seat_cores (th : Thread) (f : Flock) : (seat th f).dev.cores.length = 256 := List.length_replicate

/-- A state whose local store `key` holds these bytes from an offset on. -/
def stored (s : State) (key : StoKey) (off : Nat) (bs : List Byte) : State :=
  { s with sto := ⟨key, [], bs.zipIdx.map (fun (b, i) => (off + i, b))⟩ :: s.sto }

/-- A parameter block, and any other structure in memory, given as fields: offset, bytes, value. -/
def block (n : Nat) (l : List (Nat × Nat × Nat)) : List Byte :=
  leBytes n (l.foldl (fun a x => a + x.2.2 % 256 ^ x.2.1 * 256 ^ x.1) 0)

/-- The environment of that thread at a word. -/
def envOf (s : State) (major : Nat) (b : Body) (g : Group := alone) (r : TRef := one) : Env :=
  let row := (rowOf major b).getD ⟨.none, .none, .none, .none, false⟩
  let m := (memberOf s g r).getD (fl0, th0)
  envAt s g major b row r m.1 m.2

/-- What Performs asks, as a Boolean. -/
def performsB (v : Env) : Bool :=
  v.s.dev.marks.isEmpty && !v.illegal && !v.blocked && (v.guard == .t) && !(v.th.helper && suppressed v.major) && v.regBad.isNone && !v.stays &&
    (!crossLane v.major || (v.complete && v.inGroup && !v.spoiled))

theorem performs_of {v : Env} (h : performsB v = true) : Performs v := by
  simp only [performsB, Bool.and_eq_true, Bool.not_eq_true', Bool.or_eq_true, beq_iff_eq, Option.isNone_iff_eq_none,
    List.isEmpty_iff] at h
  obtain ⟨⟨⟨⟨⟨⟨⟨h0, h1⟩, h2⟩, h3⟩, h4⟩, h5⟩, h6⟩, h7⟩ := h
  refine ⟨h0, h1, h2, h3, h4, h5, h6, fun hx => ?_⟩
  rcases h7 with h7 | ⟨⟨h7, h8⟩, h9⟩
  · exact absurd hx (by simp [h7])
  · exact ⟨h7, h8, h9⟩

/-- The thread stands in its group at a legal word. -/
def standsB (s : State) (major : Nat) (b : Body) (g : Group := alone) (r : TRef := one) : Bool :=
  decide (s.dev.issuing = some g) && (reject major b).isNone && (rowOf major b).isSome && decide (g.members = [r]) &&
    (memberOf s g r).isSome

theorem meet_of {s : State} {major : Nat} {b : Body} {g : Group} {r : TRef} {P : Env → Prop}
    (h : standsB s major b g r = true) (hP : P (envOf s major b g r)) :
    AllMeet s g major b (envOf s major b g r).row P := by
  simp only [standsB, Bool.and_eq_true, decide_eq_true_eq, Option.isNone_iff_eq_none, Option.isSome_iff_exists] at h
  obtain ⟨⟨⟨⟨h1, h2⟩, ⟨row, h3⟩⟩, h4⟩, ⟨m, h5⟩⟩ := h
  have hrow : (envOf s major b g r).row = row := by simp [envOf, h3, envAt]
  rw [hrow]
  refine ⟨h1, h2, h3, by simp [h4], fun r' hr => ?_⟩
  obtain rfl : r' = r := by simpa [h4] using hr
  refine ⟨m.1, m.2, h5, ?_⟩
  have : envOf s major b g r' = envAt s g major b row r' m.1 m.2 := by simp [envOf, h3, h5]
  rwa [← this]

/-- The thread alone performs the word, in element mode. -/
def aloneB (s : State) (major : Nat) (b : Body) (g : Group := alone) (r : TRef := one) : Bool :=
  standsB s major b g r && performsB (envOf s major b g r) && !(envOf s major b g r).th.intv

theorem alone_of {s : State} {major : Nat} {b : Body} {g : Group} {r : TRef} (h : aloneB s major b g r = true) :
    Alone s major b (envOf s major b g r) := by
  simp only [aloneB, Bool.and_eq_true, Bool.not_eq_true'] at h
  obtain ⟨⟨h1, h2⟩, h3⟩ := h
  have hm : AllPerform s g major b (envOf s major b g r).row := meet_of h1 (performs_of h2)
  have hs := h1
  simp only [standsB, Bool.and_eq_true, decide_eq_true_eq, Option.isNone_iff_eq_none, Option.isSome_iff_exists] at hs
  obtain ⟨⟨⟨⟨-, -⟩, ⟨row, h4⟩⟩, h5⟩, ⟨m, h6⟩⟩ := hs
  exact ⟨rfl, h5, by simp [envOf, envAt, h6], hm, h3⟩

/-- The thread performs the word, is an interval thread or not, and meets the condition `c`. -/
theorem when_of {s : State} {major : Nat} {b : Body} {g : Group} {r : TRef} {iv : Bool} {c : Env → Prop}
    (h : (standsB s major b g r && performsB (envOf s major b g r) && ((envOf s major b g r).th.intv == iv)) = true)
    (hc : c (envOf s major b g r)) :
    AllMeet s g major b (envOf s major b g r).row (fun v => Performs v ∧ v.th.intv = iv ∧ c v) := by
  simp only [Bool.and_eq_true, beq_iff_eq] at h
  exact meet_of h.1.1 ⟨performs_of h.1.2, h.2, hc⟩

/-- Some group of the state meets the conditions of a word. -/
abbrev CanMeet (major : Nat) (b : Body) (P : Env → Prop) : Prop := ∃ s g row, AllMeet s g major b row P
/-- The same for a word that performs, with a condition. -/
abbrev CanWhen (major : Nat) (b : Body) (iv : Bool) (c : Env → Prop) : Prop :=
  CanMeet major b (fun v => Performs v ∧ v.th.intv = iv ∧ c v)

/-! ## Many words at once -/

/-- Every member of the group stands at a legal word and meets `q`. -/
def eachB (s : State) (g : Group) (major : Nat) (b : Body) (q : Env → Bool) : Bool :=
  decide (s.dev.issuing = some g) && (reject major b).isNone && decide g.members.Nodup &&
  match rowOf major b with
  | none => false
  | some row => g.members.all (fun r =>
      match memberOf s g r with
      | some (f, th) => q (envAt s g major b row r f th)
      | none => false)

theorem each_of {s : State} {g : Group} {major : Nat} {b : Body} {q : Env → Bool} {P : Env → Prop}
    (h : eachB s g major b q = true) (hP : ∀ v, q v = true → P v) : CanMeet major b P := by
  unfold eachB at h
  cases hr : rowOf major b with
  | none => simp [hr] at h
  | some row =>
    simp only [hr, Bool.and_eq_true, decide_eq_true_eq, Option.isNone_iff_eq_none, List.all_eq_true] at h
    obtain ⟨⟨⟨h1, h2⟩, h3⟩, h4⟩ := h
    refine ⟨s, g, row, h1, h2, hr, h3, fun r hm => ?_⟩
    have h5 := h4 r hm
    cases hm' : memberOf s g r with
    | none => simp [hm'] at h5
    | some x =>
      rw [hm'] at h5
      exact ⟨x.1, x.2, rfl, hP _ h5⟩

/-- The thread of `s` performs each of the words, as an interval thread or not. -/
def performsAll (iv : Bool) (s : State) (l : List (Nat × Body)) (g : Group := alone) (r : TRef := one) : Bool :=
  l.all (fun x => standsB s x.1 x.2 g r && performsB (envOf s x.1 x.2 g r) && ((envOf s x.1 x.2 g r).th.intv == iv))

theorem can_all (s : State) {iv : Bool} {l : List (Nat × Body)} (h : performsAll iv s l = true) :
    ∀ x ∈ l, CanWhen x.1 x.2 iv (fun _ => True) := fun x hx =>
  ⟨_, _, _, when_of (List.all_eq_true.mp h x hx) trivial⟩

/-- The one thread of `s` performs the word and meets a condition. -/
theorem can_when (s : State) {major : Nat} {b : Body} {iv : Bool} {c : Env → Prop}
    (h : performsAll iv s [(major, b)] = true) (hc : c (envOf s major b)) : CanWhen major b iv c :=
  ⟨_, _, _, when_of (by simpa [performsAll] using h) hc⟩

/-- The one thread of `s` performs the word alone. -/
theorem sole {s : State} {major : Nat} {b : Body} (h : aloneB s major b = true) : Alone s major b (envOf s major b) :=
  alone_of h

/-- What Fits asks, as a Boolean. -/
def fitsB (v : Env) : Bool :=
  v.s.dev.marks.isEmpty && !v.illegal && !v.blocked && (v.guard == .t) && !(v.th.helper && suppressed v.major) &&
    v.regBad.isNone

theorem fits_of {v : Env} (h : fitsB v = true) : Fits v := by
  simp only [fitsB, Bool.and_eq_true, Bool.not_eq_true', beq_iff_eq, Option.isNone_iff_eq_none, List.isEmpty_iff] at h
  obtain ⟨⟨⟨⟨⟨h0, h1⟩, h2⟩, h3⟩, h4⟩, h5⟩ := h
  exact ⟨h0, h1, h2, h3, h4, h5⟩

/-- The thread alone stands at a word that fits it, in element mode. -/
def sitsB (s : State) (major : Nat) (b : Body) (g : Group := alone) (r : TRef := one) : Bool :=
  standsB s major b g r && fitsB (envOf s major b g r) && !(envOf s major b g r).th.intv

theorem sit_of {s : State} {major : Nat} {b : Body} {g : Group} {r : TRef} (h : sitsB s major b g r = true) :
    Stands s major b (envOf s major b g r) := by
  simp only [sitsB, Bool.and_eq_true, Bool.not_eq_true'] at h
  obtain ⟨⟨h1, h2⟩, h3⟩ := h
  have hm : AllMeet s g major b (envOf s major b g r).row Fits := meet_of h1 (fits_of h2)
  have hs := h1
  simp only [standsB, Bool.and_eq_true, decide_eq_true_eq, Option.isNone_iff_eq_none, Option.isSome_iff_exists] at hs
  obtain ⟨⟨⟨⟨-, -⟩, ⟨row, h4⟩⟩, h5⟩, ⟨m, h6⟩⟩ := hs
  exact ⟨rfl, h5, by simp [envOf, envAt, h6], hm, h3⟩

theorem sit {s : State} {major : Nat} {b : Body} (h : sitsB s major b = true) : Stands s major b (envOf s major b) := sit_of h

/-- The thread of `s` alone performs each of the words. -/
theorem alone_all {s : State} {l : List (Nat × Body)} {g : Group} {r : TRef}
    (h : l.all (fun x => aloneB s x.1 x.2 g r) = true) : ∀ x ∈ l, ∃ v, Alone s x.1 x.2 v := fun x hx =>
  ⟨_, alone_of (List.all_eq_true.mp h x hx)⟩

/-! ## States after an effect -/

/-- The state after an effect, and whether there is one. -/
def after (e : Eff) (s : State) : State :=
  match commit e s with
  | .next t => t
  | _ => s
def goes (e : Eff) (s : State) : Bool :=
  match commit e s with
  | .next _ => true
  | _ => false

theorem after_of {e : Eff} {s : State} (h : goes e s = true) : commit e s = .next (after e s) := by
  unfold goes at h
  unfold after
  split at h <;> simp_all

theorem went {i : Instr} {e : Eff} {s : State} (h : exec i s = commit e s) (hg : goes e s = true) : exec i s = .next (after e s) :=
  h.trans (after_of hg)

/-- Memory holds these bytes too. -/
def withMem (s : State) (a : Nat) (bs : List Byte) : State := s.applyWrites (memWrites a bs)

/-- Memory of a placed machine has its form. -/
theorem seat_memOk (th : Thread) (f : Flock) (D : Dev → Dev) : (seat th f D).MemOk :=
  show Memory.wf (placeWord State.reset 0).mem = true by decide

/-! ## Where an access leads -/

/-- The place that an access of the environment leads to. -/
def leadsTo (v : Env) (rc : Reach) (kind : AccKind) (a : W64) (al dn : Nat) : Option (Loc × Bool) :=
  match v.now.reach rc kind a al dn with
  | .at_ l nc pre =>
    match commit pre v.s.begun with
    | .next _ => some (l, nc)
    | _ => none
  | .ends _ => none

theorem leads_of {v : Env} {rc : Reach} {kind : AccKind} {a : W64} {al dn : Nat} {l : Loc} {nc : Bool}
    (h : leadsTo v rc kind a al dn = some (l, nc)) : ∃ s1, v.leads rc kind a al dn l nc s1 := by
  unfold leadsTo at h
  split at h
  · rename_i l' nc' pre hr
    split at h
    · rename_i s1 hs
      obtain ⟨rfl, rfl⟩ : l' = l ∧ nc' = nc := by simpa using h
      exact ⟨s1, pre, hr, hs⟩
    · simp at h
  · simp at h

/-! ## Words that the control plane reads and writes -/

abbrev readE (s : State) (ctx a n : Nat) : Eff := vreadE ctx (s.dev.ctx ctx).eff.ptroot a n
abbrev writeE (s : State) (ctx a : Nat) (bs : List Byte) : Eff := vwriteE ctx (s.dev.ctx ctx).eff.ptroot a bs
theorem reads_of {s : State} {ctx a n : Nat} {w : List Byte} (h1 : s.vbad ctx (s.dev.ctx ctx).eff.ptroot a n .read = none)
    (h2 : s.vecc ctx (s.dev.ctx ctx).eff.ptroot a n .read = false) (h3 : s.vbytes ctx (s.dev.ctx ctx).eff.ptroot a n = w)
    (h4 : goes (readE s ctx a n) s = true) : readsWord s ctx a n w (after (readE s ctx a n) s) := ⟨h1, h2, h3, after_of h4⟩
theorem writes_of {s : State} {ctx a : Nat} {bs : List Byte}
    (h1 : s.vbad ctx (s.dev.ctx ctx).eff.ptroot a bs.length .write = none)
    (h2 : s.vecc ctx (s.dev.ctx ctx).eff.ptroot a bs.length .write = false) (h3 : goes (writeE s ctx a bs) s = true) :
    writesWord s ctx a bs (after (writeE s ctx a bs) s) := ⟨h1, h2, after_of h3⟩

/-- The place of an access, where it finds one. -/
def placeOf? : Acc → Option (Loc × Bool)
  | .at_ l nc _ => some (l, nc)
  | .ends _ => none

theorem at_of {a : Acc} {l : Loc} {nc : Bool} (h : placeOf? a = some (l, nc)) : ∃ pre, a = .at_ l nc pre := by
  cases a with
  | at_ l' nc' pre =>
    obtain ⟨rfl, rfl⟩ : l' = l ∧ nc' = nc := by simpa [placeOf?] using h
    exact ⟨pre, rfl⟩
  | ends _ => simp [placeOf?] at h

end Sys2Proof.Tests
end

