-- ==== Sys2Proof/Tests/Slice0.lean ====
section
/-! SUPPORT. Tests: words written out from the spec's encodings, ill-formed terms refused, and single steps. -/

namespace Sys2Proof.Tests

open Sys2Proof.Machine

/-! ## Words without a literal, one of every instruction: fields placed as R108, R114-R119 place them, majors of R133 -/

/-- A word without literal stands for an instruction. -/
abbrev reads (w : Nat) (i : Instr) : Prop := decode w 0 = .ok i

theorem test_decode_control :
    reads 0x0000_0FFF_FFFF_FFFF (.nop (.mk (p 0 0) z z z z)) ∧
    reads 0x0100_0FFE_0000_0001 (.bra (.mk (p 0 0) z 0x1)) ∧
    reads 0x0200_300A_00FF_FFFE (.brc (.mk (p 0 3) (v 5) 0xFFFFFE)) ∧
    reads 0x0300_0FFE_0000_0010 (.call (.mk (p 0 0) z 0x10)) ∧
    reads 0x0400_0FFE_013F_FFFF (.calli (.mk (p 0 0) z (v 4) z z)) ∧
    reads 0x0500_0FFE_01BF_FFFF (.jmpi (.mk (p 0 0) z (v 6) z z)) ∧
    reads 0x0600_0FFF_FFFF_FFFF (.ret (.mk (p 0 0) z z z z)) ∧
    reads 0x0700_0FFF_FFFF_FFFF (.exit (.mk (p 0 0) z z z z)) ∧
    reads 0x0800_0FFF_FFFF_FFFF (.demote (.mk (p 0 0) z z z z)) ∧
    reads 0x0900_0FFF_FFFF_FFFF (.commit (.mk (p 0 0) z z z z)) ∧
    reads 0x0A00_0FFF_FFFF_FFFF (.yield (.mk (p 0 0) z z z z)) ∧
    reads 0x0B00_0FFF_FFC0_0041 (.trap (.mk (p 0 0) z z 0x41 false)) ∧
    reads 0x0C00_0FFF_FFFF_FFFF (.rtt (.mk (p 0 0) z z z z)) ∧
    reads 0x0D00_000A_0100_0080 (.launch (.mk (p 0 0) (v 5) (v 4) 1 0 0)) ∧
    reads 0x0E00_0FFF_FFFF_FFFF (.bar (.mk (p 0 0) z z z z)) ∧
    reads 0x0F00_0FFF_FFFF_FFFF (.hbar (.mk (p 0 0) z z z z)) := by decide

theorem test_decode_system :
    reads 0x1010_000B_FFC0_0010 (.mfsr (.mk (p 1 0) (v 5) z 0x10 false)) ∧
    reads 0x1110_0FFE_01C0_0203 (.mtsr (.mk (p 1 0) z (v 7) 0x203 false)) ∧
    reads 0x1200_0FFF_FFFF_FFFF (.flushi (.mk (p 0 0) z z z z)) ∧
    reads 0x1300_0FFE_023F_FFFF (.tlbinv (.mk (p 0 0) z (v 8) z z)) ∧
    reads 0x1400_1015_FFFF_FFFF (.time (.mk (p 0 1) (v 10) z z z)) ∧
    reads 0x1500_0006_01FF_FFFF (.tid (.mk (p 0 0) (v 3) (v 7) z z)) ∧
    reads 0x1610_0009_FFC0_0001 (.movk (.mk (p 1 0) (v 4) z 0x1 false)) ∧
    reads 0x1700_0FFE_033F_FFFF (.sleep (.mk (p 0 0) z (v 12) z z)) ∧
    reads 0x1810_1008_0180_041A (.watch (.mk (p 1 1) (v 4) (v 6) 0x10 false 3 1)) ∧
    reads 0x1900_0FFE_EE80_0000 (.wait (.mk (p 0 0) 63 62 29 13)) ∧
    reads 0x1A00_0006_0000_7FFF (.waitbm (.mk (p 0 0) (v 3) (v 0) (v 15) z)) ∧
    reads 0x1B00_0FFE_03BF_FFFF (.stepdl (.mk (p 0 0) z (v 14) z z)) ∧
    reads 0x1C00_0021_FFFF_FFFF (.slack (.mk (p 0 0) (v 16) z z z)) ∧
    reads 0x1D00_2FFE_0140_000E (.bmode (.mk (p 0 2) z (v 5) 0xE false)) := by decide

theorem test_decode_integer :
    reads 0x2020_100C_0200_57FF (.iaddT (.mk (p 2 1) (v 6) (v 8) (v 10) z)) ∧
    reads 0x2120_100C_0200_57FF (.isubT (.mk (p 2 1) (v 6) (v 8) (v 10) z)) ∧
    reads 0x2230_300C_0200_5004 (.iaddc (.mk (p 3 3) (v 6) (v 8) (v 10) (v 4))) ∧
    reads 0x2300_000A_0180_3FFF (.imulT (.mk (p 0 0) (v 5) (v 6) (v 7) z)) ∧
    reads 0x2410_000A_0180_3FFF (.imulh (.mk (p 1 0) (v 5) (v 6) (v 7) z)) ∧
    reads 0x2520_000C_0200_500C (.imad (.mk (p 2 0) (v 6) (v 8) (v 10) (v 12))) ∧
    reads 0x2600_000C_01C0_400A (.imadw (.mk (p 0 0) (v 6) (v 7) (v 8) (v 10))) ∧
    reads 0x2740_000A_0180_3FFF (.iminT (.mk (p 4 0) (v 5) (v 6) (v 7) z)) ∧
    reads 0x2870_000A_0180_3FFF (.imaxT (.mk (p 7 0) (v 5) (v 6) (v 7) z)) ∧
    reads 0x2960_100A_01BF_FFFF (.iabs (.mk (p 6 1) (v 5) (v 6) z z)) ∧
    reads 0x2A50_000A_0180_3808 (.isad (.mk (p 5 0) (v 5) (v 6) (v 7) (v 8))) ∧
    reads 0x2B10_0016_0180_3FFF (.andT (.mk (p 1 0) (v 11) (v 6) (v 7) z)) ∧
    reads 0x2C10_0018_0180_3FFF (.orT (.mk (p 1 0) (v 12) (v 6) (v 7) z)) ∧
    reads 0x2D10_001A_0180_3FFF (.xorT (.mk (p 1 0) (v 13) (v 6) (v 7) z)) ∧
    reads 0x2E10_001C_0180_3FFF (.andnT (.mk (p 1 0) (v 14) (v 6) (v 7) z)) ∧
    reads 0x2F30_000C_0200_5096 (.logt (.mk (p 3 0) (v 6) (v 8) (v 10) (v 150))) := by decide

theorem test_decode_bits :
    reads 0x3030_000C_0200_4FFF (.shlT (.mk (p 3 0) (v 6) (v 8) (v 9) z)) ∧
    reads 0x3110_000A_0180_3FFF (.shrT (.mk (p 1 0) (v 5) (v 6) (v 7) z)) ∧
    reads 0x3220_000C_0200_4FFF (.shraT (.mk (p 2 0) (v 6) (v 8) (v 9) z)) ∧
    reads 0x3310_000A_0180_3FFF (.rotlT (.mk (p 1 0) (v 5) (v 6) (v 7) z)) ∧
    reads 0x3410_000A_0180_3808 (.funnel (.mk (p 1 0) (v 5) (v 6) (v 7) (v 8))) ∧
    reads 0x3500_000A_0180_3FFF (.bfeT (.mk (p 0 0) (v 5) (v 6) (v 7) z)) ∧
    reads 0x3630_000C_0200_500C (.bfi (.mk (p 3 0) (v 6) (v 8) (v 10) (v 12))) ∧
    reads 0x3730_000A_01BF_FFFF (.popc (.mk (p 3 0) (v 5) (v 6) z z)) ∧
    reads 0x3810_000A_01BF_FFFF (.clz (.mk (p 1 0) (v 5) (v 6) z z)) ∧
    reads 0x3910_000A_01BF_FFFF (.ctz (.mk (p 1 0) (v 5) (v 6) z z)) ∧
    reads 0x3A30_0008_01BF_FFFF (.brev (.mk (p 3 0) (v 4) (v 6) z z)) ∧
    reads 0x3B10_000A_0180_3808 (.permb (.mk (p 1 0) (v 5) (v 6) (v 7) (v 8))) ∧
    reads 0x3C10_100A_0180_4009 (.permn (.mk (p 1 1) (v 5) (v 6) (v 8) (v 9))) ∧
    reads 0x3D10_000A_0180_3802 (.sel (.mk (p 1 0) (v 5) (v 6) (v 7) (v 2))) ∧
    reads 0x3E00_2002_0080_1805 (.icmpT (.mk (p 0 2) (v 1) (v 2) (v 3) (v 5))) ∧
    reads 0x3F10_0002_0080_180E (.pcomb (.mk (p 1 0) (v 1) (v 2) (v 3) (v 14))) := by decide

theorem test_decode_moves :
    reads 0x4010_000A_01BF_FFFF (.mov (.mk (p 1 0) (v 5) (v 6) z z)) ∧
    reads 0x4100_000B_FFFF_FFFF (.movi (.mk (p 0 0) (v 5) z 0x3FFFFF false)) ∧
    reads 0x4200_100A_00FF_FFFF (.movx (.mk (p 0 1) (v 5) (v 3) z z)) ∧
    reads 0x4300_000C_0200_4807 (.leaT (.mk (p 0 0) (v 6) (v 8) (v 9) (v 7))) ∧
    reads 0x4430_000A_01BF_FFFF (.aper (.mk (p 3 0) (v 5) (v 6) z z)) ∧
    reads 0x4510_300A_0100_3007 (.lxchT (.mk (p 1 3) (v 5) (v 4) (v 6) (v 7))) ∧
    reads 0x4610_2002_00BF_F807 (.poll (.mk (p 1 2) (v 1) (v 2) z (v 7))) ∧
    reads 0x4730_200C_023F_F809 (.redx (.mk (p 3 2) (v 6) (v 8) z (v 9))) ∧
    reads 0x4800_100A_01BF_F807 (.scanx (.mk (p 0 1) (v 5) (v 6) z (v 7))) ∧
    reads 0x4910_000A_01BF_F807 (.eqmask (.mk (p 1 0) (v 5) (v 6) z (v 7))) ∧
    reads 0x4A10_0005_FFFF_F807 (.lead (.mk (p 1 0) (v 2) z z (v 7))) ∧
    reads 0x4B10_100A_0180_0003 (.lxchI (.mk (p 1 1) (v 5) (v 6) 0x3 false)) := by decide

theorem test_decode_immediate :
    reads 0x5010_000A_0180_00B4 (.iaddI (.mk (p 1 0) (v 5) (v 6) 0xB4 false)) ∧
    reads 0x5110_000A_0180_00B5 (.isubI (.mk (p 1 0) (v 5) (v 6) 0xB5 false)) ∧
    reads 0x5210_000A_0180_00B6 (.imulI (.mk (p 1 0) (v 5) (v 6) 0xB6 false)) ∧
    reads 0x5310_000A_0180_00B7 (.iminI (.mk (p 1 0) (v 5) (v 6) 0xB7 false)) ∧
    reads 0x5410_000A_0180_00B8 (.imaxI (.mk (p 1 0) (v 5) (v 6) 0xB8 false)) ∧
    reads 0x5510_000A_0180_011D (.andI (.mk (p 1 0) (v 5) (v 6) 0x11D false)) ∧
    reads 0x5610_000A_0180_011E (.orI (.mk (p 1 0) (v 5) (v 6) 0x11E false)) ∧
    reads 0x5710_000A_0180_011F (.xorI (.mk (p 1 0) (v 5) (v 6) 0x11F false)) ∧
    reads 0x5810_000A_0180_0120 (.andnI (.mk (p 1 0) (v 5) (v 6) 0x120 false)) ∧
    reads 0x5910_000A_0180_0121 (.shlI (.mk (p 1 0) (v 5) (v 6) 0x121 false)) ∧
    reads 0x5A10_000A_0180_0122 (.shrI (.mk (p 1 0) (v 5) (v 6) 0x122 false)) ∧
    reads 0x5B00_000A_0180_001F (.shraI (.mk (p 0 0) (v 5) (v 6) 0x1F false)) ∧
    reads 0x5C30_000C_0200_003F (.rotlI (.mk (p 3 0) (v 6) (v 8) 0x3F false)) ∧
    reads 0x5D10_000A_0180_0204 (.bfeI (.mk (p 1 0) (v 5) (v 6) 0x204 false)) ∧
    reads 0x5E10_0004_0128_0064 (.icmpI (.mk (p 1 0) (v 2) (v 4) 0x280064 false)) ∧
    reads 0x5F10_000C_0200_0018 (.leaI (.mk (p 1 0) (v 6) (v 8) 0x18 false)) := by decide

theorem test_decode_float :
    reads 0x6030_000A_0180_3FFF (.faddT (.mk (p 3 0) (v 5) (v 6) (v 7) z)) ∧
    reads 0x6130_000A_0180_3FFF (.fsub (.mk (p 3 0) (v 5) (v 6) (v 7) z)) ∧
    reads 0x6230_000A_0180_3FFF (.fmulT (.mk (p 3 0) (v 5) (v 6) (v 7) z)) ∧
    reads 0x6320_0014_02C0_600D (.ffmaT (.mk (p 2 0) (v 10) (v 11) (v 12) (v 13))) ∧
    reads 0x6400_100A_0180_3FFF (.fminT (.mk (p 0 1) (v 5) (v 6) (v 7) z)) ∧
    reads 0x6500_000A_0180_3FFF (.fmaxT (.mk (p 0 0) (v 5) (v 6) (v 7) z)) ∧
    reads 0x6600_3002_0180_380D (.fcmpT (.mk (p 0 3) (v 1) (v 6) (v 7) (v 13))) ∧
    reads 0x6700_000A_01BF_FFFF (.frcp (.mk (p 0 0) (v 5) (v 6) z z)) ∧
    reads 0x6800_000A_01BF_FFFF (.frsq (.mk (p 0 0) (v 5) (v 6) z z)) ∧
    reads 0x6910_000A_01BF_FFFF (.fsqrt (.mk (p 1 0) (v 5) (v 6) z z)) ∧
    reads 0x6A00_000A_01BF_FFFF (.fexp2 (.mk (p 0 0) (v 5) (v 6) z z)) ∧
    reads 0x6B00_000A_01BF_FFFF (.flog2 (.mk (p 0 0) (v 5) (v 6) z z)) ∧
    reads 0x6C00_000A_01BF_FFFF (.fsin (.mk (p 0 0) (v 5) (v 6) z z)) ∧
    reads 0x6D00_000A_01BF_FFFF (.fcos (.mk (p 0 0) (v 5) (v 6) z z)) ∧
    reads 0x6E00_000A_01BF_FFFF (.ftanh (.mk (p 0 0) (v 5) (v 6) z z)) := by decide

theorem test_decode_double :
    reads 0x7010_000C_0200_57FF (.daddT (.mk (p 1 0) (v 6) (v 8) (v 10) z)) ∧
    reads 0x7100_000C_0200_57FF (.dmulT (.mk (p 0 0) (v 6) (v 8) (v 10) z)) ∧
    reads 0x7230_000C_0200_500C (.dfma (.mk (p 3 0) (v 6) (v 8) (v 10) (v 12))) ∧
    reads 0x7300_100C_0200_57FF (.dmin (.mk (p 0 1) (v 6) (v 8) (v 10) z)) ∧
    reads 0x7400_000C_0200_57FF (.dmax (.mk (p 0 0) (v 6) (v 8) (v 10) z)) ∧
    reads 0x7500_1004_0180_4004 (.dcmp (.mk (p 0 1) (v 2) (v 6) (v 8) (v 4))) ∧
    reads 0x7600_000C_023F_FFFF (.drcp (.mk (p 0 0) (v 6) (v 8) z z)) ∧
    reads 0x7710_100A_0180_3FFF (.pkadd (.mk (p 1 1) (v 5) (v 6) (v 7) z)) ∧
    reads 0x7810_100A_0180_3FFF (.pkmul (.mk (p 1 1) (v 5) (v 6) (v 7) z)) ∧
    reads 0x7920_000A_0180_3808 (.pkfma (.mk (p 2 0) (v 5) (v 6) (v 7) (v 8))) ∧
    reads 0x7A10_100A_0180_3FFF (.pksub (.mk (p 1 1) (v 5) (v 6) (v 7) z)) ∧
    reads 0x7B00_100A_0180_3FFF (.pkmin (.mk (p 0 1) (v 5) (v 6) (v 7) z)) ∧
    reads 0x7C00_000A_0180_3FFF (.pkmax (.mk (p 0 0) (v 5) (v 6) (v 7) z)) ∧
    reads 0x7D60_100A_0180_3808 (.idot4 (.mk (p 6 1) (v 5) (v 6) (v 7) (v 8))) := by decide

theorem test_decode_convert :
    reads 0x8010_000A_0181_2345 (.faddI (.mk (p 1 0) (v 5) (v 6) 0x12345 false)) ∧
    reads 0x8110_000A_0181_2345 (.fmulI (.mk (p 1 0) (v 5) (v 6) 0x12345 false)) ∧
    reads 0x8210_000A_0181_2345 (.ffmaI (.mk (p 1 0) (v 5) (v 6) 0x12345 false)) ∧
    reads 0x8300_100A_0180_0007 (.fminI (.mk (p 0 1) (v 5) (v 6) 0x7 false)) ∧
    reads 0x8400_000A_0180_0007 (.fmaxI (.mk (p 0 0) (v 5) (v 6) 0x7 false)) ∧
    reads 0x8500_1004_01A0_0005 (.fcmpI (.mk (p 0 1) (v 2) (v 6) 0x200005 false)) ∧
    reads 0x8630_000C_0200_0009 (.daddI (.mk (p 3 0) (v 6) (v 8) 0x9 false)) ∧
    reads 0x8700_000C_0200_0009 (.dmulI (.mk (p 0 0) (v 6) (v 8) 0x9 false)) ∧
    reads 0x8800_000C_01C0_0006 (.cvt (.mk (p 0 0) (v 6) (v 7) 0x6 false)) ∧
    reads 0x8940_100A_0180_0A41 (.cvtn (.mk (p 4 1) (v 5) (v 6) 0xA41 false)) ∧
    reads 0x8A10_000A_0180_0200 (.cvts (.mk (p 1 0) (v 5) (v 6) 0x200 false)) ∧
    reads 0x8B40_100A_0180_380A (.packn (.mk (p 4 1) (v 5) (v 6) (v 7) (v 10))) ∧
    reads 0x8C20_000C_01FF_F802 (.unpackn (.mk (p 2 0) (v 6) (v 7) z (v 2))) := by decide

theorem test_decode_memory :
    reads 0x9050_000C_0200_101A (.ld (.mk (p 5 0) (v 6) (v 8) 0x40 false 3 1)) ∧
    reads 0x9120_000A_0200_0224 (.st (.mk (p 2 0) (v 5) (v 8) 0x8 false 4 2)) ∧
    reads 0x9240_000A_0200_0180 (.ldbnd (.mk (p 4 0) (v 5) (v 8) 0x6 false 0 0)) ∧
    reads 0x9340_000A_0201_0080 (.tilefill (.mk (p 4 0) (v 5) (v 8) 0x402 false 0 0)) ∧
    reads 0x9440_000A_0200_03C0 (.ldmc (.mk (p 4 0) (v 5) (v 8) 0xF false 0 0)) ∧
    reads 0x9550_000C_0200_041C (.stf (.mk (p 5 0) (v 6) (v 8) 0x10 false 3 2)) ∧
    reads 0x9650_0FFE_0200_2000 (.zfill (.mk (p 5 0) z (v 8) 0x80 false 0 0)) ∧
    reads 0x9750_0FFE_0200_2000 (.pref (.mk (p 5 0) z (v 8) 0x80 false 0 0)) ∧
    reads 0x9840_000A_0180_00C0 (.ldacc (.mk (p 4 0) (v 5) (v 6) 0x3 false 0 0)) ∧
    reads 0x9950_000C_0200_0100 (.stacc (.mk (p 5 0) (v 6) (v 8) 0x4 false 0 0)) ∧
    reads 0x9A50_000C_0208_041E (.atom (.mk (p 5 0) (v 6) (v 8) 0x2010 false 3 3)) ∧
    reads 0x9B40_000C_0200_011E (.cas (.mk (p 4 0) (v 6) (v 8) 0x4 false 3 3)) ∧
    reads 0x9C40_000A_0234_0124 (.red (.mk (p 4 0) (v 5) (v 8) 0xD004 false 4 2)) ∧
    reads 0x9D00_0FFF_FFC0_002E (.fence (.mk (p 0 0) z z 0x0 false 5 3)) := by decide

theorem test_decode_matrix :
    reads 0xA020_0FFF_FFC0_8000 (.mma (.mk (p 2 0) z z 256 0 0)) ∧
    reads 0xA110_0FFE_0100_0120 (.mmaQ8 (.mk (p 1 0) z (v 4) 2 8 0)) ∧
    reads 0xA200_0FFE_0100_0100 (.mmaQ6 (.mk (p 0 0) z (v 4) 2 0 0)) ∧
    reads 0xA320_100A_0100_0190 (.mmaQ4 (.mk (p 2 1) (v 5) (v 4) 3 4 0)) ∧
    reads 0xA410_0FFE_0100_0283 (.smma (.mk (p 1 0) z (v 4) 5 0 3)) ∧
    reads 0xA510_0FFE_0100_0121 (.smmaQ8 (.mk (p 1 0) z (v 4) 2 8 1)) ∧
    reads 0xA600_0FFE_0100_0102 (.smmaQ6 (.mk (p 0 0) z (v 4) 2 0 2)) ∧
    reads 0xA720_100A_0100_0193 (.smmaQ4 (.mk (p 2 1) (v 5) (v 4) 3 4 3)) ∧
    reads 0xA820_100A_0100_0380 (.mmaw (.mk (p 2 1) (v 5) (v 4) 7 0 0)) ∧
    reads 0xA910_0FFE_0100_0120 (.mmawQ8 (.mk (p 1 0) z (v 4) 2 8 0)) ∧
    reads 0xAA00_0FFE_0100_0100 (.mmawQ6 (.mk (p 0 0) z (v 4) 2 0 0)) ∧
    reads 0xAB20_100A_0100_0190 (.mmawQ4 (.mk (p 2 1) (v 5) (v 4) 3 4 0)) ∧
    reads 0xAC00_0FFE_0100_0080 (.accz (.mk (p 0 0) z (v 4) 1 0 0)) ∧
    reads 0xAD00_0FFE_013F_FF80 (.accdrain (.mk (p 0 0) z (v 4) 32767 0 0)) ∧
    reads 0xAE00_0FFE_0100_0100 (.accload (.mk (p 0 0) z (v 4) 2 0 0)) := by decide

theorem test_decode_engines :
    reads 0xB000_000C_0200_027C (.copy (.mk (p 0 0) (v 6) (v 8) 4 31 0)) ∧
    reads 0xB100_000C_0200_0208 (.copymc (.mk (p 0 0) (v 6) (v 8) 4 2 0)) ∧
    reads 0xB200_000C_0200_0203 (.copyq (.mk (p 0 0) (v 6) (v 8) 4 0 3)) ∧
    reads 0xB310_0008_01BF_FFFF (.spush (.mk (p 1 0) (v 4) (v 6) z z)) ∧
    reads 0xB430_000C_017F_FFFF (.qpop (.mk (p 3 0) (v 6) (v 5) z z)) ∧
    reads 0xB540_000A_0200_011A (.pld (.mk (p 4 0) (v 5) (v 8) 0x4 false 3 1)) ∧
    reads 0xB640_000A_0200_0124 (.pst (.mk (p 4 0) (v 5) (v 8) 0x4 false 4 2)) ∧
    reads 0xB750_000C_0204_022E (.patom (.mk (p 5 0) (v 6) (v 8) 0x1008 false 5 3)) ∧
    reads 0xB800_0FFE_0200_0200 (.coll (.mk (p 0 0) z (v 8) 4 0 0)) := by decide

/-! ## Literal words (R119, R120): LIT in 31:0, LSEL 44:43, XI and REL of C 46:45 and 47, B 49:48 and 50, A 52:51 and 53,
D 55:54 and 56 -/

/-- Common fields of a word with L = 1. -/
abbrev pl (var mod : Nat) (lit : W32) : Hd := ⟨0, false, var, 0, mod, true, lit⟩

theorem test_decode_literal :
    decode 0x20A0_000A_01BF_FFFF 0x0000_1000_1234_5678 = .ok (.iaddT (.mk (pl 2 0 0x12345678) (v 5) (v 6) .lit z)) ∧
    decode 0x20A0_000B_FFC0_37FF 0x0000_0800_FFFF_FFFF = .ok (.iaddT (.mk (pl 2 0 0xFFFFFFFF) (v 5) .lit (v 6) z)) ∧
    decode 0x41A0_000B_FFC0_0000 0x0000_1000_8000_0000 = .ok (.movi (.mk (pl 2 0 0x80000000) (v 5) z 0 true)) := by decide

theorem test_decode_relative :
    decode 0x20A0_000A_0180_3FFF 0x0180_0000_0000_0000 = .ok (.iaddT (.mk (pl 2 0 0) (.rel 2 5) (v 6) (v 7) z)) ∧
    decode 0x20A0_000A_0180_3FFF 0x0038_0000_0000_0000 = .ok (.iaddT (.mk (pl 2 0 0) (v 5) (.rel 3 6) (v 7) z)) ∧
    decode 0x20A0_000A_0180_3FFF 0x0005_0000_0000_0000 = .ok (.iaddT (.mk (pl 2 0 0) (v 5) (v 6) (.rel 1 7) z)) := by decide

theorem test_decode_guard :
    decode 0x202B_000A_0180_3FFF 0 = .ok (.iaddT (.mk ⟨5, true, 2, 0, 0, false, 0⟩ (v 5) (v 6) (v 7) z)) ∧
    decode 0x2021_000A_0180_3FFF 0 = .error .guard := by decide

/-! ## Each refusal of the decoder -/

theorem test_decode_refusals :
    decode 0xEF00_0000_0000_0000 0 = .error .major ∧ decode 0xF000_0000_0000_0000 0 = .error .major ∧
    decode 0x2024_800A_0180_3FFF 0x0 = .ok (.iaddT (.mk ⟨2, false, 2, 2, 0, false, 0⟩ (v 5) (v 6) (v 7) z)) ∧
    decode 0x6040_000A_0180_3FFF 0 = .error .form ∧
    decode 0x0100_0FFE_0100_0001 0 = .error .reserved ∧
    decode 0x20A0_000A_0180_3FFF 0x0000_0000_0000_0001 = .error .literal ∧
    decode 0x20A0_000A_0180_3FFF 0x8000_0000_0000_0000 = .error .reserved ∧
    decode 0x2020_000A_0180_3800 0 = .error .operand ∧
    decodeBytes [0, 0, 0, 0, 0, 0, 0] = .error .short := by decide

/-! ## Ill-formed terms -/

theorem test_wf_range :
    reject 0x20 (.t (.mk (p 8 0) (v 5) (v 4) (v 4) z)) = some .range ∧
    reject 0x50 (.i (.mk (p 2 0) (v 5) (v 4) (2 ^ 22) false)) = some .range ∧
    Instr.wf (.iaddT (.mk (p 8 0) (v 5) (v 4) (v 4) z)) = false := by decide

theorem test_wf_form :
    reject 0x60 (.t (.mk (p 4 0) (v 5) (v 4) (v 4) z)) = some .form ∧
    Instr.wf (.faddT (.mk (p 4 0) (v 5) (v 4) (v 4) z)) = false := by decide

theorem test_wf_guard :
    Instr.wf (.iaddT (.mk ⟨0, true, 2, 0, 0, false, 0⟩ (v 5) (v 4) (v 4) z)) = false ∧
    reject 0x0E (.t (.mk ⟨1, false, 0, 0, 0, false, 0⟩ z z z z)) = some .guard := by decide

theorem test_wf_literal :
    reject 0x20 (.t (.mk (pl 2 0 1) (v 5) .lit .lit z)) = some .literal ∧
    reject 0x20 (.t (.mk (p 2 0) (v 5) (v 4) .lit z)) = some .literal ∧
    reject 0x20 (.t (.mk (pl 2 0 1) .lit (v 4) (v 4) z)) = some .literal ∧
    reject 0x20 (.t (.mk (pl 2 0 1) (v 5) (v 4) (v 4) z)) = some .literal ∧
    reject 0x50 (.i (.mk (pl 2 0 0) (v 5) (v 4) 1 true)) = some .literal := by decide

theorem test_wf_operand :
    reject 0x20 (.t (.mk (p 2 0) (v 5) (v 4) (v 4) (v 0))) = some .operand ∧
    reject 0x20 (.t (.mk (p 2 0) (v 2048) (v 4) (v 4) z)) = some .operand ∧
    reject 0x20 (.t (.mk (p 2 0) (.rel 0 4) (v 4) (v 4) z)) = some .operand ∧
    reject 0x3E (.t (.mk (p 0 0) (v 8) (v 4) (v 4) (v 0))) = some .operand ∧
    Instr.wf (.icmpT (.mk (p 0 0) (v 8) (v 4) (v 4) (v 0))) = false := by decide

/-! ## Single steps: expected values worked out by hand from the rules -/

/-- A thread with these registers. -/
abbrev holding (rs : List (Nat × W32)) : Thread := { th0 with regs := rs }
/-- What the one thread shows after an instruction. -/
def shows {α : Type} (i : Instr) (s : State) (k : Thread → α) : Option α :=
  match exec i s with
  | .next t => (t.dev.thread? one).map k
  | _ => none
/-- A register after an instruction of a thread with these registers. -/
abbrev leaves (i : Instr) (rs : List (Nat × W32)) (n : Nat) : Option W32 :=
  shows i (seat (holding rs) fl0) (fun t => t.reg n)

/-- R185, R186: sums wrap at the type's width; .sat holds them in range; a product's high half rounds toward −∞. -/
theorem test_integer_corners :
    leaves (.iaddT (.mk (p 0 0) (v 5) (v 6) (v 7) z)) [(6, 0xFFFFFFFF), (7, 2)] 5 = some 1 ∧
    leaves (.iaddT (.mk (p 0 1) (v 5) (v 6) (v 7) z)) [(6, 0x7FFFFFFF), (7, 1)] 5 = some 0x7FFFFFFF ∧
    leaves (.isubT (.mk (p 1 1) (v 5) (v 6) (v 7) z)) [(6, 1), (7, 2)] 5 = some 0 ∧
    leaves (.imulh (.mk (p 0 0) (v 5) (v 6) (v 7) z)) [(6, 0xFFFFFFFF), (7, 1)] 5 = some 0xFFFFFFFF := by decide

/-- R187: a shift by the width or more leaves zeros, or signs. -/
theorem test_shift_corners :
    leaves (.shlT (.mk (p 1 0) (v 5) (v 6) (v 7) z)) [(6, 1), (7, 32)] 5 = some 0 ∧
    leaves (.shraI (.mk (p 0 0) (v 5) (v 6) 40 false)) [(6, 0x80000000)] 5 = some 0xFFFFFFFF ∧
    leaves (.rotlT (.mk (p 1 0) (v 5) (v 6) (v 7) z)) [(6, 0x80000001), (7, 33)] 5 = some 3 := by decide

/-- R199, R61: 1.5 + 2.25 = 3.75, (+∞) + (−∞) is the default NaN, 1.0 / ... toward zero drops the last bit. -/
theorem test_float_sums :
    leaves (.faddT (.mk (p 0 0) (v 5) (v 6) (v 7) z)) [(6, 0x3FC00000), (7, 0x40100000)] 5 = some 0x40700000 ∧
    leaves (.faddT (.mk (p 0 0) (v 5) (v 6) (v 7) z)) [(6, 0x7F800000), (7, 0xFF800000)] 5 = some 0x7FC00000 ∧
    leaves (.faddT (.mk (p 1 0) (v 5) (v 6) (v 7) z)) [(6, 0x3F800001), (7, 0xB3800000)] 5 = some 0x3F800000 := by decide

/-- R191, R106: a register that is a source of its own destination is read first; an index register is set and used. -/
theorem test_moves :
    leaves (.mov (.mk (p 3 0) (v 6) (v 6) z z)) [(6, 7), (7, 8)] 7 = some 8 ∧
    shows (.movx (.mk (p 0 0) (v 2) (v 6) z z)) (seat (holding [(6, 0x1234)]) fl0) (fun t => t.x 2) = some 0x1234 := by decide

/-- R190: the relation is of signed numbers under .s32 and of unsigned ones under .n32. -/
theorem test_compare_signs :
    shows (.icmpT (.mk (p 0 0) (v 1) (v 6) (v 7) (v 2))) (seat (holding [(6, 0xFFFFFFFF), (7, 1)]) fl0) (fun t => t.pred 1) = some .t ∧
    shows (.icmpT (.mk (p 1 0) (v 1) (v 6) (v 7) (v 2))) (seat (holding [(6, 0xFFFFFFFF), (7, 1)]) fl0) (fun t => t.pred 1) = some .f := by
  decide

/-- R117, R162: OFF is signed, in words, from the branch word itself. -/
theorem test_branch_back :
    shows (.bra (.mk (p 0 0) z 0xFFFFFE)) (seat th0 fl0) (fun t => t.pc) = some (here - 16) ∧
    shows (.call (.mk (p 0 0) z 4)) (seat th0 fl0) (fun t => (t.pc, t.retaddr)) = some (here + 32, here + 8) := by decide

/-- R398, R399: TRAP saves its own address, and SUB holds the code. -/
theorem test_trap_entry :
    shows (.trap (.mk (p 0 0) z z 0x41 false))
      (seat th0 fl0 (fun d => d.modCtx 0 (fun c => { c with eff := { c.eff with trapvec := 0x8000 } })))
      (fun t => (t.pc, t.trap.pc, t.trap.code, t.trap.intrap)) = some (0x8000, here, 0x410003, true) := by decide

/-- R47: EXIT ends its thread. -/
theorem test_exit : shows (.exit (.mk (p 0 0) z z z z)) (seat th0 fl0) (fun t => t.ended) = some (some .exited) := by decide

/-- R38: the very next step fetches and runs a placed instruction: IADD.n32 v5, v4, v4. -/
theorem test_step_fetches :
    (match step (State.reset.withFetchWord 64 0x2000_000A_0100_27FF) with
      | .next t => (t.dev.thread? one).map (fun x => (x.pc, x.reg 5))
      | _ => none) = some (here + 8, 0) := by decide

end Sys2Proof.Tests
end

