-- ==== Sys2Proof/Tests/Witness1.lean ====
section
/-! SUPPORT. Witnesses of the statements about instruction words: for each hypothesis of such a statement, a thread at a
word of the instruction that meets it. -/

namespace Sys2Proof.Tests

open Sys2Proof.Machine

/-- A thread whose registers name lane 0 where a mask is read, and hold a few values. -/
abbrev th1 : Thread := { th0 with regs := [(7, 1), (9, 1), (5, 0x123), (6, 0x10000), (8, 0x20000)] }
/-- The machine with that thread alone at a word. -/
abbrev s1 : State := seat th1 fl0
/-- The same thread in interval mode. -/
abbrev sIv : State := seat { th1 with intv := true } fl0
/-- The same thread with a trap handler set for its context, in a context that is not privileged, and in a handler. -/
abbrev handled (d : Dev) : Dev := { d with ctxs := d.ctxs.map (fun c => { c with eff := { c.eff with trapvec := 0x8000 } }) }
abbrev sTrap : State := seat th1 fl0 handled
abbrev sUser : State := seat th1 { fl0 with ctx := 1 } (fun d => { handled d with issuing := some { alone with ctx := 1 } })
abbrev gUser : Group := { alone with ctx := 1 }
/-- Thirty-two threads of one flock in one group. -/
abbrev all32 : Group := { alone with members := (List.range 32).map (fun t => ⟨0, 0, t⟩) }
abbrev s32 : State := seat th1 fl0 (fun d => { d with
  flocks := [{ fl0 with threads := (List.range 32).map (fun t => { th1 with t := t }) }], issuing := some all32 })
/-- Format registers f1 and f2 hold E2M1 and E3M2. -/
abbrev sFmt : State := seat th1 { fl0 with fs := [0, 0x1121, 0x3231, 0, 0, 0, 0, 0] }
/-- The scratchpad holds a parameter block of zeros at offset 0. -/
abbrev sBlk : State := stored s1 (.spad 0 0) 0 (block 64 [])
/-- A block with a reserved bit of its bounds word set, and a handler. -/
abbrev oddBlk : List Byte := block 64 [(0x18, 8, 2 ^ 32)]
abbrev sOdd : State := stored sTrap (.spad 0 0) 0 oddBlk
/-- Context 0 has a save area in host memory, its last 8 bytes the last of host memory. -/
abbrev sSave : State := seat th1 fl0 (fun d => d.modCtx 0 (fun c =>
  { c with eff := { c.eff with csave := 0xFFFFFFFFFFFF8, csavesz := 64 } }))

/-- A word of every integer arithmetic instruction is performed. -/
theorem witness_IntegerArithmetic_result : ∀ x ∈ ([(0x20, .t (.mk (p 2 1) (v 6) (v 8) (v 10) z)),
    (0x50, .i (.mk (p 1 0) (v 5) (v 6) 0xB4 false)),
    (0x21, .t (.mk (p 2 1) (v 6) (v 8) (v 10) z)),
    (0x51, .i (.mk (p 1 0) (v 5) (v 6) 0xB5 false)),
    (0x29, .t (.mk (p 6 1) (v 5) (v 6) z z)),
    (0x27, .t (.mk (p 4 0) (v 5) (v 6) (v 7) z)),
    (0x53, .i (.mk (p 1 0) (v 5) (v 6) 0xB7 false)),
    (0x28, .t (.mk (p 7 0) (v 5) (v 6) (v 7) z)),
    (0x54, .i (.mk (p 1 0) (v 5) (v 6) 0xB8 false)),
    (0x23, .t (.mk (p 0 0) (v 5) (v 6) (v 7) z)),
    (0x52, .i (.mk (p 1 0) (v 5) (v 6) 0xB6 false)),
    (0x24, .t (.mk (p 1 0) (v 5) (v 6) (v 7) z)),
    (0x25, .t (.mk (p 2 0) (v 6) (v 8) (v 10) (v 12))),
    (0x26, .t (.mk (p 0 0) (v 6) (v 7) (v 8) (v 10))),
    (0x2A, .t (.mk (p 5 0) (v 5) (v 6) (v 7) (v 8))),
    (0x22, .t (.mk (p 3 3) (v 6) (v 8) (v 10) (v 4)))] : List (Nat × Body)),
    CanWhen x.1 x.2 false (fun _ => True) := can_all s1 (by decide)

/-- A word of every bit, shift and field instruction is performed. -/
theorem witness_BitWords_result : ∀ x ∈ ([(0x2B, .t (.mk (p 1 0) (v 11) (v 6) (v 7) z)),
    (0x55, .i (.mk (p 1 0) (v 5) (v 6) 0x11D false)),
    (0x2C, .t (.mk (p 1 0) (v 12) (v 6) (v 7) z)),
    (0x56, .i (.mk (p 1 0) (v 5) (v 6) 0x11E false)),
    (0x2D, .t (.mk (p 1 0) (v 13) (v 6) (v 7) z)),
    (0x57, .i (.mk (p 1 0) (v 5) (v 6) 0x11F false)),
    (0x2E, .t (.mk (p 1 0) (v 14) (v 6) (v 7) z)),
    (0x58, .i (.mk (p 1 0) (v 5) (v 6) 0x120 false)),
    (0x2F, .t (.mk (p 3 0) (v 6) (v 8) (v 10) (v 150))),
    (0x30, .t (.mk (p 3 0) (v 6) (v 8) (v 9) z)),
    (0x59, .i (.mk (p 1 0) (v 5) (v 6) 0x121 false)),
    (0x31, .t (.mk (p 1 0) (v 5) (v 6) (v 7) z)),
    (0x5A, .i (.mk (p 1 0) (v 5) (v 6) 0x122 false)),
    (0x32, .t (.mk (p 2 0) (v 6) (v 8) (v 9) z)),
    (0x5B, .i (.mk (p 0 0) (v 5) (v 6) 0x1F false)),
    (0x33, .t (.mk (p 1 0) (v 5) (v 6) (v 7) z)),
    (0x5C, .i (.mk (p 3 0) (v 6) (v 8) 0x3F false)),
    (0x34, .t (.mk (p 1 0) (v 5) (v 6) (v 7) (v 8))),
    (0x35, .t (.mk (p 0 0) (v 5) (v 6) (v 7) z)),
    (0x5D, .i (.mk (p 1 0) (v 5) (v 6) 0x204 false)),
    (0x36, .t (.mk (p 3 0) (v 6) (v 8) (v 10) (v 12))),
    (0x37, .t (.mk (p 3 0) (v 5) (v 6) z z)),
    (0x38, .t (.mk (p 1 0) (v 5) (v 6) z z)),
    (0x39, .t (.mk (p 1 0) (v 5) (v 6) z z)),
    (0x3A, .t (.mk (p 3 0) (v 4) (v 6) z z))] : List (Nat × Body)),
    CanWhen x.1 x.2 false (fun _ => True) := can_all s1 (by decide)

/-- A word of every move is performed. -/
theorem witness_MovesAndIndexes_result : ∀ x ∈ ([(0x3B, .t (.mk (p 1 0) (v 5) (v 6) (v 7) (v 8))),
    (0x3C, .t (.mk (p 1 1) (v 5) (v 6) (v 8) (v 9))),
    (0x40, .t (.mk (p 1 0) (v 5) (v 6) z z)),
    (0x41, .i (.mk (p 0 0) (v 5) z 0x3FFFFF false)),
    (0x16, .i (.mk (p 1 0) (v 4) z 0x1 false)),
    (0x43, .t (.mk (p 0 0) (v 6) (v 8) (v 9) (v 7))),
    (0x5F, .i (.mk (p 1 0) (v 6) (v 8) 0x18 false)),
    (0x44, .t (.mk (p 3 0) (v 5) (v 6) z z)),
    (0x42, .t (.mk (p 0 1) (v 5) (v 3) z z))] : List (Nat × Body)),
    CanWhen x.1 x.2 false (fun _ => True) := can_all s1 (by decide)

/-- ICMP is performed. -/
theorem witness_IntegerCompare_result : ∀ x ∈ ([(0x3E, .t (.mk (p 0 2) (v 1) (v 2) (v 3) (v 5))),
    (0x5E, .i (.mk (p 1 0) (v 2) (v 4) 0x280064 false))] : List (Nat × Body)),
    CanWhen x.1 x.2 false (fun _ => True) := can_all s1 (by decide)

/-- Relation codes 6 and 7, and PCOMB and SEL of predicates that are known. -/
theorem witness_IntegerCompare_result_rest :
    (bits 0x3E00_0002_0180_3806 56 8 = 0x3E ∧ bit 0x3E00_0002_0180_3806 55 = false ∧ 6 ≤ bits 0x3E00_0002_0180_3806 0 11) ∧
    (bits 0x5E00_0002_0130_0000 56 8 = 0x5E ∧ 6 ≤ bits 0x5E00_0002_0130_0000 19 3) ∧
    CanMeet 0x3F (.t (.mk (p 1 0) (v 1) (v 2) (v 3) (v 14))) (fun e => Performs e ∧ e.th.intv = false ∧
      (e.th.pred 2 ≠ .u ∧ e.th.pred 3 ≠ .u)) ∧
    CanMeet 0x3D (.t (.mk (p 1 0) (v 5) (v 6) (v 7) (v 2))) (fun e => Performs e ∧ e.th.intv = false ∧ e.th.pred 2 ≠ .u) :=
  ⟨by decide, by decide, can_when s1 (by decide) (by decide),
    can_when s1 (by decide) (by decide)⟩

/-- A member set of one thread performs the cross-lane words. -/
theorem witness_CrossLane_result : ∀ x ∈ ([(0x45, .t (.mk (p 1 3) (v 5) (v 4) (v 6) (v 7))),
    (0x49, .t (.mk (p 1 0) (v 5) (v 6) z (v 7))),
    (0x4A, .t (.mk (p 1 0) (v 2) z z (v 7))),
    (0x47, .t (.mk (p 3 2) (v 6) (v 8) z (v 9))),
    (0x48, .t (.mk (p 0 1) (v 5) (v 6) z (v 7)))] : List (Nat × Body)),
    CanWhen x.1 x.2 false (fun _ => True) := can_all s1 (by decide)

/-- Thirty-two threads at LXCH with an immediate lane, and POLL of predicates that are known. -/
theorem witness_CrossLane_result_rest :
    CanWhen 0x4B (.i (.mk (p 1 1) (v 5) (v 6) 3 false)) false (fun _ => True) ∧
    CanMeet 0x46 (.t (.mk (p 1 2) (v 1) (v 2) z (v 7)))
      (fun e => Performs e ∧ e.th.intv = false ∧ ∀ u ∈ e.set, u.th.pred 2 ≠ .u) :=
  ⟨each_of (s := s32) (g := all32) (q := fun e => performsB e && (e.th.intv == false)) (by decide)
      (fun e h => by simp only [Bool.and_eq_true, beq_iff_eq] at h; exact ⟨performs_of h.1, h.2, trivial⟩),
    can_when s1 (by decide) (by decide)⟩

/-- A word of every floating-point instruction is performed. -/
theorem witness_FloatWords_result : ∀ x ∈ ([(0x60, .t (.mk (p 3 0) (v 5) (v 6) (v 7) z)),
    (0x80, .i (.mk (p 1 0) (v 5) (v 6) 0x12345 false)),
    (0x61, .t (.mk (p 3 0) (v 5) (v 6) (v 7) z)),
    (0x62, .t (.mk (p 3 0) (v 5) (v 6) (v 7) z)),
    (0x81, .i (.mk (p 1 0) (v 5) (v 6) 0x12345 false)),
    (0x63, .t (.mk (p 2 0) (v 10) (v 11) (v 12) (v 13))),
    (0x82, .i (.mk (p 1 0) (v 5) (v 6) 0x12345 false)),
    (0x70, .t (.mk (p 1 0) (v 6) (v 8) (v 10) z)),
    (0x86, .i (.mk (p 3 0) (v 6) (v 8) 0x9 false)),
    (0x71, .t (.mk (p 0 0) (v 6) (v 8) (v 10) z)),
    (0x87, .i (.mk (p 0 0) (v 6) (v 8) 0x9 false)),
    (0x72, .t (.mk (p 3 0) (v 6) (v 8) (v 10) (v 12))),
    (0x64, .t (.mk (p 0 1) (v 5) (v 6) (v 7) z)),
    (0x83, .i (.mk (p 0 1) (v 5) (v 6) 0x7 false)),
    (0x65, .t (.mk (p 0 0) (v 5) (v 6) (v 7) z)),
    (0x84, .i (.mk (p 0 0) (v 5) (v 6) 0x7 false)),
    (0x73, .t (.mk (p 0 1) (v 6) (v 8) (v 10) z)),
    (0x74, .t (.mk (p 0 0) (v 6) (v 8) (v 10) z)),
    (0x66, .t (.mk (p 0 3) (v 1) (v 6) (v 7) (v 13))),
    (0x85, .i (.mk (p 0 1) (v 2) (v 6) 0x200005 false)),
    (0x75, .t (.mk (p 0 1) (v 2) (v 6) (v 8) (v 4))),
    (0x67, .t (.mk (p 0 0) (v 5) (v 6) z z)),
    (0x68, .t (.mk (p 0 0) (v 5) (v 6) z z)),
    (0x69, .t (.mk (p 1 0) (v 5) (v 6) z z)),
    (0x6A, .t (.mk (p 0 0) (v 5) (v 6) z z)),
    (0x6B, .t (.mk (p 0 0) (v 5) (v 6) z z)),
    (0x6C, .t (.mk (p 0 0) (v 5) (v 6) z z)),
    (0x6D, .t (.mk (p 0 0) (v 5) (v 6) z z)),
    (0x6E, .t (.mk (p 0 0) (v 5) (v 6) z z)),
    (0x76, .t (.mk (p 0 0) (v 6) (v 8) z z)),
    (0x77, .t (.mk (p 1 1) (v 5) (v 6) (v 7) z)),
    (0x78, .t (.mk (p 1 1) (v 5) (v 6) (v 7) z)),
    (0x79, .t (.mk (p 2 0) (v 5) (v 6) (v 7) (v 8))),
    (0x7A, .t (.mk (p 1 1) (v 5) (v 6) (v 7) z)),
    (0x7B, .t (.mk (p 0 1) (v 5) (v 6) (v 7) z)),
    (0x7C, .t (.mk (p 0 0) (v 5) (v 6) (v 7) z)),
    (0x7D, .t (.mk (p 6 1) (v 5) (v 6) (v 7) (v 8)))] : List (Nat × Body)),
    CanWhen x.1 x.2 false (fun _ => True) := can_all s1 (by decide)

/-- CVT and CVTS are performed. -/
theorem witness_Conversions_result : ∀ x ∈ ([(0x88, .i (.mk (p 0 0) (v 6) (v 7) 0x6 false)),
    (0x8A, .i (.mk (p 1 0) (v 5) (v 6) 0x200 false))] : List (Nat × Body)),
    CanWhen x.1 x.2 false (fun _ => True) := can_all s1 (by decide)

/-- CVTN in both directions, PACKN and UNPACKN with a format register of their width. -/
theorem witness_Conversions_result_rest :
    (∀ dir < 2, CanMeet 0x89 (.i (.mk (p (4 - 4 * dir) 1) (v 5) (v 6) (0xA40 + 32 * dir + 1) false)) (fun e =>
      Performs e ∧ e.th.intv = false ∧ ((narrowFmt (e.f.freg 1)).width = widBits 0 ∧ bits (0xA40 + 32 * dir + 1) 6 4 ∈ [8, 9, 10, 11]))) ∧
    CanMeet 0x8B (.t (.mk (p 4 1) (v 5) (v 6) (v 7) (v 0x0A))) (fun e =>
      Performs e ∧ e.th.intv = false ∧ (narrowFmt (e.f.freg (bits 0x0A 0 3))).width = widBits (bits 0x0A 3 2)) ∧
    CanMeet 0x8C (.t (.mk (p 2 0) (v 6) (v 7) z (v 1))) (fun e =>
      Performs e ∧ e.th.intv = false ∧ (narrowFmt (e.f.freg (bits 1 0 3))).width = widBits (bits 1 3 2)) := by
  refine ⟨?_, can_when sFmt (by decide) (by decide), can_when sFmt (by decide) (by decide)⟩
  intro dir h
  obtain rfl | rfl : dir = 0 ∨ dir = 1 := by omega
  · exact can_when sFmt (by decide) (by decide)
  · exact can_when sFmt (by decide) (by decide)

/-- A word of every branch is performed. -/
theorem witness_Branches_result : ∀ x ∈ ([(0x01, .b (.mk (p 0 0) z 0x1)),
    (0x02, .b (.mk (p 0 3) (v 5) 0xFFFFFE)),
    (0x03, .b (.mk (p 0 0) z 0x10)),
    (0x04, .t (.mk (p 0 0) z (v 4) z z)),
    (0x05, .t (.mk (p 0 0) z (v 6) z z))] : List (Nat × Body)),
    CanWhen x.1 x.2 false (fun _ => True) := can_all s1 (by decide)

/-- RET with a return address; an offset in range; branch words other than BRC. -/
theorem witness_Branches_result_rest :
    CanMeet 0x06 (.t (.mk (p 0 0) z z z z)) (fun e => Performs e ∧ e.th.intv = false ∧ e.th.retaddr ≠ 0) ∧
    rangeOk (.b (.mk (p 0 0) z (2 ^ 24 - 1))) = true ∧
    (reject 0x01 (.b (.mk (p 0 0) z 1)) = none ∧ (0x01 : Nat) ≠ 0x02) :=
  ⟨can_when (seat { th1 with retaddr := 0x4000 } fl0) (by decide) (by decide), by decide, by decide⟩

/-- A word of every instruction of modes, time and identity is performed. -/
theorem witness_ModesAndIdentity_result : ∀ x ∈ ([(0x00, .t (.mk (p 0 0) z z z z)),
    (0x0A, .t (.mk (p 0 0) z z z z)),
    (0x17, .t (.mk (p 0 0) z (v 12) z z)),
    (0x08, .t (.mk (p 0 0) z z z z)),
    (0x14, .t (.mk (p 0 1) (v 10) z z z)),
    (0x15, .t (.mk (p 0 0) (v 3) (v 7) z z)),
    (0x1C, .t (.mk (p 0 0) (v 16) z z z))] : List (Nat × Body)),
    CanWhen x.1 x.2 false (fun _ => True) := can_all s1 (by decide)

/-- NOP of an interval thread, and BMODE in every mode, with a budget in mode 2. -/
theorem witness_ModesAndIdentity_result_rest :
    CanWhen 0x00 (.t (.mk (p 0 0) z z z z)) true (fun _ => True) ∧
    (∀ x ∈ ([(0, z, 0), (1, z, 0), (2, v 5, 14)] : List (Nat × Fld × Nat)),
      CanMeet 0x1D (.i (.mk (p 0 x.1) z x.2.1 x.2.2 false)) (fun e => Performs e ∧ e.th.intv = false ∧
        (x.1 = 2 → (e.v32 x.2.1).toNat % 2 ^ 16 ≠ 0))) := by
  refine ⟨can_when sIv (by decide) trivial, fun x hx => ?_⟩
  simp only [List.mem_cons, List.not_mem_nil, or_false] at hx
  obtain rfl | rfl | rfl := hx <;> exact can_when s1 (by decide) (by decide)

/-- The value after 1 is no power of two. -/
theorem odd_no_pow2 (n : Int) : (FV.fin false 8388609 (-23)).eq (.pow2 n) = false := by
  simp only [FV.eq, FV.pow2, FV.isNan, FV.lt, FV.units, FV.exp, Bool.not_false, Bool.true_and, Bool.and_eq_false_iff,
    Bool.not_eq_false']
  rcases le_total n (-23) with h | h
  · have : (1 : Int) ≤ 2 ^ (-23 - n).toNat := one_le_pow₀ (by norm_num)
    right; simp [min_eq_left h]; omega
  · obtain ⟨k, rfl⟩ : ∃ k : Nat, n = k - 23 := ⟨(n + 23).toNat, by omega⟩
    by_cases hk : k ≤ 23
    · have : (2 : Int) ^ k ≤ 2 ^ 23 := pow_le_pow_right₀ (by norm_num) hk
      right; simp; omega
    · have : (2 : Int) ^ 24 ≤ 2 ^ k := pow_le_pow_right₀ (by norm_num) (by omega)
      left; simp; omega

set_option maxRecDepth 8000 in
/-- Operands of every premise about the functions' bounds: the largest, the least, a fraction and a negative value, with and
without an infinite reciprocal, an exact power, and a value whose hyperbolic tangent is one; NaN operands. -/
theorem witness_AccuracyBounds_result :
    (∀ x ∈ ([(0x7F000000, false, 8388608, 104), (1, false, 1, -149), (0xC1100000, true, 9437184, -20)] : List (Nat × Bool × Nat × Int)),
      f32.dec x.1 = .fin x.2.1 x.2.2.1 x.2.2.2 ∧ x.2.2.1 ≠ 0 ∧
        ((f32.dec 0x7F7FFFFF).mul (FV.fin x.2.1 x.2.2.1 x.2.2.2).abs).lt (.ofInt 1) = decide (x.1 = 1)) ∧
    (∀ x ∈ ([(0x7FD0000000000000, 4503599627370496, 970), (1, 1, -1074)] : List (Nat × Nat × Int)),
      let y := FV.fin false x.2.1 x.2.2
      f64.dec x.1 = y ∧ x.2.1 ≠ 0 ∧ ((f64.dec 0x7FEFFFFFFFFFFFFF).mul y.abs).lt (.ofInt 1) = decide (x.1 = 1) ∧ y.abs.le (.pow2 1022) = true) ∧
    (let x := FV.fin false 8388608 (-23)
      let v := FV.fin false 3 (-1);
      f32.dec 0x3F800000 = x ∧ x.eq (.ofInt 1) = true ∧ x.eq (.pow2 0) = true ∧ x.le (v.mul v) = true ∧ ((FV.pow2 (-1)).mul (.pow2 (-1))).le x = true) ∧
    (let x := FV.fin false 8388609 (-23);
      f32.dec 0x3F800001 = x ∧ (∀ n : Int, x.eq (.pow2 n) = false) ∧ f32.exceeds (exp2Any x) = false ∧ ((FV.pow2 (-1)).le x = true ∧ x.le (.pow2 1) = true) ∧
        (FV.ofInt 91).le ((FV.ofInt 10).mul x.abs) = false) ∧
    (let x := FV.fin false 8388608 (-16);
      f32.dec 0x43000000 = x ∧ (FV.ofInt 128).le x = true ∧ (FV.ofInt 91).le ((FV.ofInt 10).mul x.abs) = true) ∧
    (f32.dec 0x7FC00000 = .nan false ∧ f64.dec 0x7FF8000000000000 = .nan false) := by
  refine ⟨by decide, by decide, by decide, ⟨by decide, odd_no_pow2, by decide, by decide, by decide⟩, by decide, by decide⟩

/-- FLUSHI of a thread alone on an existing core, and of an interval thread. -/
theorem witness_SystemRegisters_result_flushi :
    (∃ e, Alone s1 0x12 (.t (.mk (p 0 0) z z z z)) e ∧ e.r.core < s1.dev.cores.length) ∧
    CanWhen 0x12 (.t (.mk (p 0 0) z z z z)) true (fun _ => True) :=
  ⟨⟨_, sole (by decide), lt_of_lt_of_eq (show (_ : Nat) < 256 by decide) (seat_cores _ _).symm⟩, can_when sIv (by decide) trivial⟩

/-- MFSR of a privileged thread, and of another at a register that every thread may read. -/
theorem witness_SystemRegisters_result_read :
    CanMeet 0x10 (.i (.mk (p 1 0) (v 5) z 0x010 false)) (fun e => Performs e ∧ e.th.intv = false ∧ (e.r.t ≠ instId ∧
      (privileged e.f e.th = true ∨ (sysReg (0x010 % 4096)).map (·.rdPriv) = some false))) ∧
    CanMeet 0x10 (.i (.mk (p 1 0) (v 5) z 0x002 false)) (fun e => Performs e ∧ e.th.intv = false ∧ (e.r.t ≠ instId ∧
      (privileged e.f e.th = true ∨ (sysReg (0x002 % 4096)).map (·.rdPriv) = some false))) :=
  ⟨can_when s1 (by decide) (by decide),
    ⟨_, _, _, when_of (s := sUser) (g := gUser) (r := one) (by decide) (by decide)⟩⟩

/-- MTSR to each register of the thread itself. -/
theorem witness_SystemRegisters_result_own :
    ∀ x ∈ ([(1, 0x000, v 7), (3, 0x001, v 6), (3, 0x020, v 6), (1, 0x021, v 7), (3, 0x022, v 6), (1, 0x200, v 7),
        (1, 0x201, v 7), (1, 0x202, v 7)] : List (Nat × Nat × Fld)),
      CanMeet 0x11 (.i (.mk (p x.1 0) z x.2.2 x.2.1 false)) (fun e => Performs e ∧ e.th.intv = false ∧ (e.r.t ≠ instId ∧
        (privileged e.f e.th = true ∨ (sysReg (x.2.1 % 4096)).map (·.wrPriv) = some false) ∧
        x.2.1 % 4096 ∈ [0x000, 0x001, 0x020, 0x021, 0x022, 0x200, 0x201, 0x202])) := by
  intro x hx
  simp only [List.mem_cons, List.not_mem_nil, or_false] at hx
  obtain rfl | rfl | rfl | rfl | rfl | rfl | rfl | rfl := hx <;>
    exact can_when s1 (by decide) (by decide)

/-- MTSR of a privileged thread to the first and last format register, FOLDCFG, WAYPART, GOVCFG, DROOPCFG and SLOPELIM. -/
theorem witness_SystemRegisters_result_device :
    ∀ n ∈ [0x008, 0x00F, 0x010, 0x080, 0x0BF, 0x108, 0x140, 0x17F, 0x180, 0x1BF],
      ∃ e, Alone s1 0x11 (.i (.mk (p 1 0) z (v 7) n false)) e ∧ e.r.t ≠ instId ∧ privileged e.f e.th = true := by
  intro n hn
  simp only [List.mem_cons, List.not_mem_nil, or_false] at hn
  obtain rfl | rfl | rfl | rfl | rfl | rfl | rfl | rfl | rfl | rfl := hn <;>
    exact ⟨_, sole (by decide), by decide, by decide⟩

/-- TLBINV of a privileged thread in each mode. -/
theorem witness_SystemRegisters_result_tlb :
    ∀ x ∈ ([(0, v 8), (1, z), (2, z)] : List (Nat × Fld)),
      ∃ e, Alone s1 0x13 (.t (.mk (p 0 x.1) z x.2 z z)) e ∧ privileged e.f e.th = true := by
  intro x hx
  simp only [List.mem_cons, List.not_mem_nil, or_false] at hx
  obtain rfl | rfl | rfl := hx <;> exact ⟨_, sole (by decide), by decide⟩

/-- TRAP with a handler set, and RTT in a handler with code at TRAPPC. -/
theorem witness_Traps_result :
    CanMeet 0x0B (.i (.mk (p 0 0) z z 0xFFFF false)) (fun e => Performs e ∧ e.th.intv = false ∧ e.delivers) ∧
    CanMeet 0x0C (.t (.mk (p 0 0) z z z z)) (fun e => Performs e ∧ e.th.intv = false ∧ (e.th.trap.intrap = true ∧
      e.th.trap.pc.toNat % 8 = 0 ∧ ∃ x pa, fetchAt e.s e.f e.th.trap.pc.toNat = .word x pa)) :=
  ⟨can_when sTrap (by decide) ⟨by decide, by decide⟩,
    can_when (seat { th1 with trap := ⟨true, false, here, 0x410003, 0, 0, 0⟩ } fl0) (by decide)
      ⟨by decide, by decide, _, _, rfl⟩⟩

/-- EXIT, COMMIT with its own flock in the herd, LAUNCH with a readable block, and STEPDL without a save area and with one
in host memory. -/
theorem witness_ExitCommitLaunch_result :
    (∃ e, Stands s1 0x07 (.t (.mk (p 0 0) z z z z)) e) ∧
    (∃ e, Stands s1 0x09 (.t (.mk (p 0 0) z z z z)) e ∧ e.f ∈ s1.dev.herdOf e.f) ∧
    (∃ e, Stands sBlk 0x0D (.e (.mk (p 0 0) (v 5) (v 10) 0 0 0)) e ∧ e.blk = some (block 64 []) ∧ launchRsvd (block 64 []) = false ∧
      e.blkPending = false) ∧
    (∃ e, Stands sOdd 0x0D (.e (.mk (p 0 0) (v 5) (v 10) 0 0 0)) e ∧ e.blk = some oddBlk ∧ launchRsvd oddBlk = true ∧
      e.blkPending = false ∧ e.delivers) ∧
    (∃ e, Stands s1 0x1B (.t (.mk (p 0 0) z (v 14) z z)) e ∧
      ((s1.dev.ctx e.f.ctx).eff.csave = 0 ∨ (s1.dev.ctx e.f.ctx).eff.csavesz = 0)) ∧
    (∃ e, Stands sSave 0x1B (.t (.mk (p 0 0) z (v 14) z z)) e ∧ (sSave.dev.ctx e.f.ctx).eff.csavesz ≠ 0 ∧
      2 ^ 51 ≤ (sSave.dev.ctx e.f.ctx).eff.csave.toNat ∧ (sSave.dev.ctx e.f.ctx).eff.csave.toNat + 8 ≤ 2 ^ 52) :=
  ⟨⟨_, sit (by decide)⟩, ⟨_, sit (by decide), by decide⟩, ⟨_, sit (by decide), by decide, by decide, by decide⟩,
    ⟨_, sit (by decide), by decide, by decide, by decide, by decide, by decide⟩,
    ⟨_, sit (by decide), by decide⟩, ⟨_, sit (by decide), by decide, by decide, by decide⟩⟩

end Sys2Proof.Tests
end

