-- ==== Sys2Proof/Tests/Witness2.lean ====
section
/-! SUPPORT. Witnesses of the statements about memory, engine and fabric words, and about words that do not perform. -/

namespace Sys2Proof.Tests

open Sys2Proof.Machine

/-- A thread with addresses in registers: v8 a DRAM address, v10 a scratchpad address, v12 a vault address. -/
abbrev thM : Thread := { th0 with regs :=
  [(5, 0x123), (6, 0x456), (8, 0x20000), (10, 0x40), (11, 0xFF000000), (12, 0x100), (13, 0xFD000000)] }
/-- Its flock has a vault window. -/
abbrev flM : Flock := { fl0 with regs := { placeRegs with vwsize := 0x1000 } }
abbrev sM : State := seat thM flM
/-- A memory word. -/
abbrev mem (var mod vd va off scope ord : Nat) : MWord := .mk (p var mod) (.direct vd) (.direct va) off false scope ord

/-- LD of each width, at DRAM and in the scratchpad; LDBND. -/
theorem witness_LoadsAndStores_issue_loads :
    (∀ x ∈ ([(0, 8), (1, 8), (2, 8), (3, 10), (4, 10), (5, 8)] : List (Nat × Nat)),
      ∃ e loc nc s1, Alone sM 0x90 (.m (mem x.1 0 6 x.2 64 3 1)) e ∧
        e.leads allAp .read e.addr (memBytes x.1) (memRegs x.1) loc nc s1) ∧
    (∃ e loc nc s1, Alone sM 0x92 (.m (mem 4 0 5 8 6 0 0)) e ∧
      e.leads allAp .read (e.v64 (v 8)) (memBytes 4) (memRegs 4) loc nc s1) := by
  refine ⟨fun x hx => ?_, ?_⟩
  · simp only [List.mem_cons, List.not_mem_nil, or_false] at hx
    obtain rfl | rfl | rfl | rfl | rfl | rfl := hx <;> exact ⟨_, _, _, _, sole (by decide), (leads_of (by rfl)).choose_spec⟩
  · exact ⟨_, _, _, _, sole (by decide), (leads_of (by rfl)).choose_spec⟩

/-- ST at DRAM, scratchpad and vault memory; STF, ZFILL and TILEFILL. -/
theorem witness_LoadsAndStores_issue_stores :
    (∀ va ∈ [8, 10, 12], ∃ e loc nc s1, Alone sM 0x91 (.m (mem 2 0 5 va 8 4 2)) e ∧
      e.leads allAp .write e.addr (memBytes 2) 0 loc nc s1) ∧
    (∃ e loc nc s1, Alone sM 0x95 (.m (mem 5 0 6 8 0x10 3 2)) e ∧
      e.leads globalAp .write (e.v64 (v 8)) (memBytes 5) 0 loc nc s1) ∧
    (∃ e loc nc s1, Alone sM 0x96 (.m (mem 5 0 2047 8 128 0 0)) e ∧ loc.isMx = false ∧
      e.leads allAp .write e.addr 128 0 loc nc s1) ∧
    (∃ e loc nc s1, Alone sM 0x93 (.m (mem 4 0 5 8 0x0402 0 0)) e ∧ loc.isMx = false ∧
      (let id (n : Nat) : W64 := BitVec.ofNat 64 (tidVal e.f e.r.core e.r.slot e.r.t n)
      e.leads allAp .write (e.v64 (v 8) + BitVec.ofNat 64 (memBytes 4) * id 10 + e.pitch 0 * id 11 + e.pitch 8 * id 12)
        (memBytes 4) 0 loc nc s1)) := by
  refine ⟨fun x hx => ?_, ⟨_, _, _, _, sole (by decide), (leads_of (by rfl)).choose_spec⟩,
    ⟨_, _, _, _, sole (by decide), rfl, (leads_of (l := .dram 0x20080) (nc := false) (by decide)).choose_spec⟩,
    ⟨_, _, _, _, sole (by decide), rfl, (leads_of (l := .dram 0x20000) (nc := false) (by decide)).choose_spec⟩⟩
  simp only [List.mem_cons, List.not_mem_nil, or_false] at hx
  obtain rfl | rfl | rfl := hx <;> exact ⟨_, _, _, _, sole (by decide), (leads_of (by rfl)).choose_spec⟩

/-- An access that finds a place. -/
abbrev isAt : Acc → Bool
  | .at_ _ _ _ => true
  | .ends _ => false

/-- LDMC of the core's own bit, PREF of a DRAM line and of an address without one, LDACC and STACC at the last slots. -/
theorem witness_LoadsAndStores_issue_rest :
    (∃ e loc s1, Alone sM 0x94 (.m (mem 4 0 5 8 0x0F 0 0)) e ∧ (0x0F : Nat).testBit (e.r.core % 16) = true ∧
      e.leads vaultAp .read (e.v64 (v 8)) (memBytes 4) (memRegs 4) loc false s1) ∧
    (∃ e, Alone sM 0x97 (.m (mem 5 0 2047 10 128 0 0)) e ∧
      ∀ pa pre, e.now.reach ⟨true, false, false⟩ .read e.addr 1 0 ≠ .at_ (.dram pa) false pre) ∧
    (∃ e pa pre, Alone sM 0x97 (.m (mem 5 0 2047 8 128 0 0)) e ∧
      e.now.reach ⟨true, false, false⟩ .read e.addr 1 0 = .at_ (.dram pa) false pre) ∧
    (∀ x ∈ ([(4, 1023), (5, 1022)] : List (Nat × Nat)), ∀ major ∈ [0x98, 0x99],
      ∃ e, Alone sM major (.m (mem x.1 0 6 14 x.2 0 0)) e ∧ 0 ≤ e.slotNo ∧
        e.slotNo + memRegs x.1 ≤ e.f.kern.accSlots ∧ (memRegs x.1 = 2 → e.slotNo % 2 = 0)) := by
  refine ⟨⟨_, _, _, sole (by decide), by decide, (leads_of (l := .dram 0x20000) (by decide)).choose_spec⟩,
    ⟨_, sole (by decide), fun pa pre h => ?_⟩, ⟨_, 0x20080, (at_of (by decide)).choose, sole (by decide), (at_of (by decide)).choose_spec⟩,
    fun x hx m hm => ?_⟩
  · exact absurd (congrArg isAt h) (by rw [show isAt (Acc.at_ (.dram pa) false pre) = true from rfl]; decide)
  · simp only [List.mem_cons, List.not_mem_nil, or_false] at hx hm
    obtain rfl | rfl := hx <;> obtain rfl | rfl := hm <;> exact ⟨_, sole (by decide), by decide, by decide, by decide⟩

/-- A flock whose m registers are all ones. -/
abbrev flBits : Flock := { flM with ms := List.replicate 32 (BitVec.ofNat 128 (2 ^ 128 - 1)) }

/-- WAIT whose bounds hold, and one that is passed by no counter; WAITBM with its bits set. -/
theorem witness_WaitsAndQueues_result_waits :
    (∃ e, Stands sM 0x19 (.w (.mk (p 0 0) 63 62 29 13)) e) ∧ (∃ e, Stands sM 0x19 (.w (.mk (p 0 0) 0 0 0 0)) e) ∧
    (∃ e, Stands (seat thM flBits) 0x1A (.t (.mk (p 0 0) (v 3) (v 0) (v 15) z)) e ∧
      ∀ i ≤ (v 15).num, (e.f.m (v 3).num).getLsbD ((v 0).num + i) = true) ∧
    (∃ e, Stands (seat thM flBits) 0x1A (.t (.mk (p 0 1) (v 3) (v 6) (v 3) z)) e ∧
      ∀ i < 32, (e.v32 (v 6)).getLsbD i = true → (e.f.m (v 3).num).getLsbD (32 * (v 3).num + i) = true) ∧
    CanMeet 0x19 (.w (.mk (p 0 0) 0 0 0 0)) (fun e => e.illegal = false ∧ e.guard = .t ∧ e.th.intv = false ∧
      (0 < e.th.cnt.ld ∨ 0 < e.th.cnt.st ∨ 0 < e.th.cnt.cp ∨ 0 < e.th.cnt.tl)) :=
  ⟨⟨_, sit (by decide)⟩, ⟨_, sit (by decide)⟩, ⟨_, sit (by decide), by decide⟩, ⟨_, sit (by decide), by decide⟩,
    ⟨seat { thM with cnt := ⟨1, 0, 0, 0⟩ } flM, alone, _, meet_of (r := one) (by decide) (by decide)⟩⟩

/-- A flock of an access kernel: its access-engine thread alone, with queue 0 holding an entry. -/
abbrev inst : TRef := ⟨0, 0, instId⟩
abbrev gInst : Group := { alone with members := [inst] }
abbrev flA : Flock := { flM with
  kern := { placeKern with access := true }, inst := some { thM with t := instId },
  oq := ⟨0, [7]⟩ :: List.replicate 7 ⟨0, []⟩ }
abbrev sInst : State := seat thM flA (fun d => { d with issuing := some gInst })
abbrev sPop : State := seat thM flA

/-- SPUSH of an access-engine thread, and QPOP of an element thread. -/
theorem witness_WaitsAndQueues_result_queues :
    (∃ e q, Stands sInst 0xB3 (.t (.mk (p 1 0) (v 4) (v 6) z z)) e ∧ e.f.oq[(v 4).num]? = some q ∧ q.items.length < 16) ∧
    (∃ e q x, Stands sPop 0xB4 (.t (.mk (p 3 0) (v 6) (v 0) z z)) e ∧ e.f.kern.access = true ∧
      e.f.oq[(v 0).num]? = some q ∧
      q.items[e.th.oqpos[(v 0).num]?.getD 0 - q.base]? = some x ∧ q.base ≤ e.th.oqpos[(v 0).num]?.getD 0) :=
  ⟨⟨_, ⟨0, []⟩, sit_of (g := gInst) (r := inst) (by decide), by decide, by decide⟩,
    ⟨_, ⟨0, [7]⟩, 7, sit (by decide), by decide, by decide, by decide, by decide⟩⟩

/-- A flock with a scratchpad of 64 KiB and 2,048 accumulator slots, its scratchpad holding a block at offset 0, its first format registers
E4M3, E3M2 and E2M1. -/
abbrev flE : Flock := { fl0 with kern := { placeKern with scratch := 65536, acc := 2048 }, fs := [0x107341, 0x3231, 0x1121, 0, 0, 0, 0, 0] }
/-- A thread with the block's address in v4 and v5. -/
abbrev thE : Thread := { th0 with regs := [(5, 0xFF000000)] }
abbrev sBlock (b : List Byte) (D : Dev → Dev := id) : State := stored (seat thE flE D) (.spad 0 0) 0 b
/-- A matrix block: A at 0x400, B at 0x1000, rows 32 bytes or more apart, 32 × 32 × 32, the sum from zero, CIN 32. -/
abbrev matB : List Byte := block 64 [(0, 8, 0xFF00000000000400), (8, 8, 0xFF00000000001000), (0x10, 4, 256), (0x14, 4, 256),
  (0x20, 4, 0x8000), (0x28, 2, 32)]
/-- The same with LDA no multiple of 16, and a handler set. -/
abbrev badB : List Byte := block 64 [(0, 8, 0xFF00000000000400), (8, 8, 0xFF00000000001000), (0x10, 4, 257), (0x14, 4, 256),
  (0x20, 4, 0x8000)]
abbrev sBad : State := sBlock badB (fun d => d.modCtx 0 (fun c => { c with eff := { c.eff with trapvec := 0x8000 } }))
/-- A team of 32 threads of which lane 0 is at the word. -/
abbrev sScale : State := sBlock matB (fun d => { d with
  flocks := [{ flE with threads := (List.range 32).map (fun t => { thE with t := t }) }] })
/-- The core's matrix engine holds 32 operations. -/
abbrev sFull : State := sBlock matB (fun d => d.modCore 0 (fun c =>
  { c with mat := List.replicate 32 ⟨0, one, 0, .mma, .s8, .s8, matB, none, 0, 0, (0, 0), (0, 0), [], [], 0, [], [], 0⟩ }))
/-- A result that is a list of scales. -/
theorem inl_of {α β : Type} {x : α ⊕ β} (h : x.isLeft = true) : x = .inl (x.getLeft h) := by
  cases x with
  | inl a => rfl
  | inr b => simp at h
/-- An engine word. -/
abbrev eng (var mod vd aux qs : Nat) : EWord := .mk (p var mod) (.direct vd) (v 4) 0 aux qs

set_option maxRecDepth 4000 in
/-- Each word of the matrix engine with a block in order, without scales. -/
theorem witness_EngineWords_issue_accepted :
    ∀ x ∈ ([(0xA0, 2, 0, 0), (0xA1, 0, 0, 0), (0xA2, 1, 4, 0), (0xA3, 2, 8, 0), (0xA4, 1, 0, 3), (0xA5, 0, 0, 1), (0xA6, 1, 4, 2),
        (0xA7, 2, 8, 3), (0xA8, 2, 0, 0), (0xA9, 0, 0, 0), (0xAA, 1, 4, 0), (0xAB, 2, 8, 0)] : List (Nat × Nat × Nat × Nat)),
      x.1 ∈ (matrixWords (eng x.2.1 0 2047 x.2.2.1 x.2.2.2)).map (·.1) ∧
      ∃ e, Alone (sBlock matB) x.1 (.e (eng x.2.1 0 2047 x.2.2.1 x.2.2.2)) e ∧ e.now.blk = some matB ∧
        e.elems.1.1.badFmt = false ∧ e.elems.2.1.badFmt = false ∧ e.now.mxOperand (matBlk matB).aaddr = false ∧
        e.now.mxOperand (matBlk matB).baddr = false ∧ e.now.matBad matB e.elems.1.1 e.elems.2.1 = none ∧
        ((sBlock matB).dev.core e.r.core).mat.length < 32 := by
  intro x hx
  simp only [List.mem_cons, List.not_mem_nil, or_false] at hx
  obtain rfl | rfl | rfl | rfl | rfl | rfl | rfl | rfl | rfl | rfl | rfl | rfl := hx <;>
    exact ⟨by decide, _, sole (by decide), by decide, by decide, by decide, by decide, by decide, by decide, by decide⟩


set_option maxRecDepth 4000 in
/-- A matrix word whose block offends at LDA, with a handler set; one with scales, its team having all its threads; and one
while the engine is full. -/
theorem witness_EngineWords_issue_rest :
    (∃ e b, Alone sBad 0xA0 (.e (eng 2 0 2047 0 0)) e ∧ e.now.blk = some b ∧ e.elems.1.1.badFmt = false ∧
      e.elems.2.1.badFmt = false ∧ e.now.mxOperand (matBlk b).aaddr = false ∧ e.now.mxOperand (matBlk b).baddr = false ∧
      e.now.matBad b e.elems.1.1 e.elems.2.1 = some 0x10 ∧ e.delivers) ∧
    (∃ e, Alone sScale 0xA1 (.e (eng 0 1 8 0 0)) e ∧ e.now.blk = some matB ∧ e.elems.1.1.badFmt = false ∧
      e.elems.2.1.badFmt = false ∧ e.now.mxOperand (matBlk matB).aaddr = false ∧
      e.now.mxOperand (matBlk matB).baddr = false ∧ e.now.matBad matB e.elems.1.1 e.elems.2.1 = none ∧
      (v 8).isVz = false ∧ (∃ bs, e.now.scales (matBlk matB) = .inl bs) ∧ (sScale.dev.core e.r.core).mat.length < 32) ∧
    (∃ e, Alone sFull 0xA0 (.e (eng 2 0 2047 0 0)) e ∧ e.now.blk = some matB ∧
      e.elems.1.1.badFmt = false ∧ e.elems.2.1.badFmt = false ∧
      e.now.mxOperand (matBlk matB).aaddr = false ∧ e.now.mxOperand (matBlk matB).baddr = false ∧
      e.now.matBad matB e.elems.1.1 e.elems.2.1 = none ∧ 32 ≤ (sFull.dev.core e.r.core).mat.length) :=
  ⟨⟨_, badB, sole (by decide), by decide, by decide, by decide, by decide, by decide, by decide, by decide, by decide⟩,
    ⟨_, sole (by decide), by decide, by decide, by decide, by decide, by decide, by decide, by decide, ⟨_, inl_of (by decide)⟩, by decide⟩,
    ⟨_, sole (by decide), by decide, by decide, by decide, by decide, by decide, by decide, by decide⟩⟩

/-- An accumulator block: slot 0, 4 × 4 elements in rows of 16 bytes at 0x400, as binary32 or in format f0. -/
abbrev accB (efmt : Nat) : List Byte := block 64 [(0, 8, 0xFF00000000000400), (0x0C, 2, 4), (0x0E, 2, 4), (0x10, 4, 16), (0x14, 4, efmt)]

set_option maxRecDepth 4000 in
/-- ACCZ, ACCDRAIN and ACCLOAD, with standard and narrow elements. -/
theorem witness_EngineWords_issue_accumulators :
    ∀ x ∈ ([(0xAC, .accz), (0xAD, .drain), (0xAE, .load)] : List (Nat × MatKind)), ∀ efmt ∈ [0, 4],
      ∃ e, Alone (sBlock (accB efmt)) x.1 (.e (eng 0 0 2047 0 0)) e ∧ e.now.blk = some (accB efmt) ∧
        e.now.accBad (accB efmt) x.2 = none ∧
        ((accBlk (accB efmt)).efmt = 4 → x.2 ≠ .accz → (narrowFmt (e.f.freg (accBlk (accB efmt)).afr)).width = 8) ∧
        ((sBlock (accB efmt)).dev.core e.r.core).mat.length < 32 := by
  intro x hx n hn
  simp only [List.mem_cons, List.not_mem_nil, or_false] at hx hn
  obtain rfl | rfl | rfl := hx <;> obtain rfl | rfl := hn <;>
    exact ⟨_, sole (by decide), by decide, by decide, by decide, by decide⟩

/-- A copy block: 1,024 bytes in one dimension from 0x400 of the scratchpad to 0x1000; for COPYMC with the mask of
its own flock. -/
abbrev copyB (mc : Bool) : List Byte := block 64 [(0, 8, 0xFF00000000000400), (8, 8, 0xFF00000000001000),
  (0x10, 4, 1024), (0x1C, 4, if mc then 0x11 else 1)]

set_option maxRecDepth 4000 in
/-- COPY, COPYMC and COPYQ of a thread alone, in order. -/
theorem witness_CopyWords_issue :
    ∀ x ∈ ([(0xB0, .copy, false, 31, 0), (0xB1, .mc, true, 2, 0), (0xB2, .q, false, 0, 3)] : List (Nat × CopyKind × Bool × Nat × Nat)),
      ∃ e, Alone (sBlock (copyB x.2.2.1)) x.1 (.e (eng 0 0 6 x.2.2.2.1 x.2.2.2.2)) e ∧ e.now.blk = some (copyB x.2.2.1) ∧
        (e.f.kern.access = true → e.r.t = instId) ∧ e.r.t ≠ instId ∧
        e.now.copyBad (copyB x.2.2.1) x.2.1 (BitVec.ofNat 64 (field (copyB x.2.2.1) 0 8)) (BitVec.ofNat 64 (field (copyB x.2.2.1) 8 8)) = none ∧
        ((sBlock (copyB x.2.2.1)).dev.core e.r.core).cpy.length < 64 := by
  intro x hx
  simp only [List.mem_cons, List.not_mem_nil, or_false] at hx
  obtain rfl | rfl | rfl := hx <;> exact ⟨_, sole (by decide), by decide, by decide, by decide, by decide, by decide⟩


/-- Tables of ranks and of groups in DRAM: rank 1 is device 5 with a window of 64 KiB, group 2 has size 4 and rank 1. -/
abbrev sFab (th : Thread) (b : List Byte) : State :=
  withMem (withMem (stored (seat th fl0 (fun d => d.modCtx 0 (fun c => { c with eff :=
    { c.eff with rankbase := 0x40000, rankcnt := 2, grpbase := 0x50000 } }))) (.spad 0 0) 0 b)
    0x40010 (block 16 [(0, 2, 5), (8, 8, 0x10000)])) 0x50020 (block 16 [(0, 4, 4), (4, 4, 1)])
/-- v8 and v9 name the last 8 bytes of rank 1's window. -/
abbrev thP : Thread := { th0 with regs := [(5, 0x123), (6, 0x456), (8, 0xFFF0), (9, 0x10000)] }
/-- A collective block: all-reduce of 16 binary32 sums in group 2. -/
abbrev collB : List Byte := block 64 [(0, 8, 0x60000), (8, 8, 0x70000), (0x10, 8, 0x80000), (0x18, 4, 16), (0x1C, 2, 2),
  (0x20, 4, 10 * 64), (0x24, 4, 9)]

set_option maxRecDepth 4000 in
/-- PLD, PST and PATOM at the last 8 bytes of a window, and COLL with a block in order. -/
theorem witness_PeerAndCollective_issue :
    let s := sFab thP []
    let fits (e : Env) (fa : W64) (n : Nat) : Prop :=
      bits fa.toNat 48 16 < (s.dev.ctx e.f.ctx).eff.rankcnt.toNat ∧
      inRegion (s.dev.rankAt e.f.ctx (bits fa.toNat 48 16)) = true ∧
      bits fa.toNat 0 48 + n ≤ (s.rankEnt e.f.ctx (bits fa.toNat 48 16)).wsize ∧ fa.toNat % n = 0
    (∃ e, Stands s 0xB5 (.m (mem 5 0 6 8 8 3 1)) e ∧ fits e e.addr (memBytes 5)) ∧
    (∃ e, Stands s 0xB6 (.m (mem 5 0 6 8 8 4 2)) e ∧ fits e e.addr (memBytes 5)) ∧
    (∃ e, Stands s 0xB7 (.m (mem 5 0 6 8 0x1008 5 3)) e ∧
      fits e (e.v64 (v 8) + (BitVec.ofNat 12 0x1008).signExtend 64) (memBytes 5)) ∧
    ∃ e, Stands (sFab thE collB) 0xB8 (.e (eng 0 0 2047 0 0)) e ∧ e.now.blk = some collB ∧ (collBlk collB).group < 4096 ∧
      inRegion ((sFab thE collB).dev.groupAt e.f.ctx (collBlk collB).group) = true ∧
      let g := (sFab thE collB).groupEnt e.f.ctx (collBlk collB).group
      (collBlk collB).bad collB g.g g.rank = none ∧ e.blkPending = false ∧ inRegion g.at_ = true ∧ inRegion (g.at_ + 4 * g.g - 1) = true :=
  ⟨⟨_, sit (by decide), by decide, by decide, by decide, by decide⟩,
    ⟨_, sit (by decide), by decide, by decide, by decide, by decide⟩,
    ⟨_, sit (by decide), by decide, by decide, by decide, by decide⟩,
    ⟨_, sit (by decide), by decide, by decide, by decide, by decide, by decide, by decide, by decide⟩⟩

/-- A flock of two threads, the second one waiting as `w` says. -/
abbrev sTwo (w : Wait) : State := seat th0 fl0 (fun d => { d with flocks := [{ fl0 with threads := [th0, { th0 with t := 1, wait := w }] }] })

/-- A flock of the placed one's herd on core 1, at its HBAR, and both. -/
abbrev mate : Flock := { fl0 with core := 1, hidx := 3, threads := [{ th0 with wait := .hbar }, { th0 with t := 40, wait := .hbar }] }
abbrev sHerd : State := seat th0 fl0 (fun d => { d with flocks := d.flocks ++ [mate] })

/-- BAR and HBAR while another thread has not arrived, and of the last thread, in a herd of one flock and of two. -/
theorem witness_BarrierWords_result_arrive :
    (∃ e, Stands (sTwo .none) 0x0E (.t (.mk (p 0 0) z z z z)) e ∧
      ∃ t ∈ e.f.threads, t.t ≠ e.r.t ∧ t.ended = none ∧ t.wait ≠ .bar) ∧
    (∃ e, Stands (sTwo .none) 0x0F (.t (.mk (p 0 0) z z z z)) e ∧
      ∃ t ∈ e.f.threads, t.t ≠ e.r.t ∧ t.ended = none ∧ t.wait ≠ .hbar) ∧
    (∃ e, Stands (sTwo .bar) 0x0E (.t (.mk (p 0 0) z z z z)) e ∧
      (∀ t ∈ e.f.threads, t.t ≠ e.r.t → t.ended = none → t.wait = .bar) ∧ (sTwo .bar).dev.drained e.f true = true) ∧
    (∀ s ∈ [sTwo .hbar, sHerd], ∃ e, Stands s 0x0F (.t (.mk (p 0 0) z z z z)) e ∧ e.f ∈ s.dev.herdOf e.f ∧
      (s.dev.flocks.map (fun f => (f.core, f.slot))).Nodup ∧ (∀ x ∈ s.dev.herdOf e.f, x.hidx < 4) ∧
      (∀ x ∈ s.dev.herdOf e.f, s.dev.drained x false = true ∧ ∀ t ∈ x.threads,
        ¬(x.core = e.r.core ∧ x.slot = e.r.slot ∧ t.t = e.r.t) → t.ended = none → t.wait = .hbar)) ∧
    sHerd.dev.herdOf { fl0 with threads := [th0] } = [{ fl0 with threads := [th0] }, mate] := by
  refine ⟨⟨_, sit (by decide), by decide⟩, ⟨_, sit (by decide), by decide⟩, ⟨_, sit (by decide), by decide, by decide⟩,
    fun s hs => ?_, by decide⟩
  simp only [List.mem_cons, List.not_mem_nil, or_false] at hs
  obtain rfl | rfl := hs <;> exact ⟨_, sit (by decide), by decide, by decide, by decide, by decide⟩

/-- A cluster with a wave of an earlier clock, and one of the present clock. -/
theorem witness_BarrierWords_result_queue :
    let c : Cluster := { Cluster.reset with waves := [[⟨9, 0, 0⟩], [⟨1, 0, 0⟩]], waveClock := 7, waveNew := 1, cycle := 7 }
    c.waves = [[⟨9, 0, 0⟩]] ++ [[⟨1, 0, 0⟩]] ∧
      ([[⟨1, 0, 0⟩]] : List (List TeamRef)).length = (if c.waveClock = c.cycle then c.waveNew else 0) := by decide

/-- A cluster with waves queued, at the clock at which its SPACE ends. -/
theorem witness_BarrierWords_result_wave :
    let s := State.reset.device (fun d => d.modCluster 0 (fun c => { c with waves := [[⟨0, 0, 0⟩, ⟨1, 0, 0⟩], [⟨2, 0, 0⟩]], lastWave := some 0, cycle := 4 }))
    0 < s.dev.clusters.length ∧ (s.dev.cluster 0).waves = [⟨0, 0, 0⟩, ⟨1, 0, 0⟩] :: [[⟨2, 0, 0⟩]] ∧ s.dev.stopped = false ∧
      ∀ c, (s.dev.cluster 0).lastWave = some c → c + (s.dev.cluster 0).slopelim.toNat / 256 % 256 ≤ (s.dev.cluster 0).cycle := by
  refine ⟨by decide, by decide, by decide, fun c h => ?_⟩
  obtain rfl : (0 : Nat) = c := Option.some.inj h
  decide

/-- A waiting thread of the machine. -/
abbrev sWait (w : Wait) (waited : Nat := 0) (D : Dev → Dev := id) : State := seat { th0 with wait := w, waited := waited } fl0 D

/-- A SLEEP at its wake time, a YIELD with no slot left, a hold whose clocks, or slots, have passed, and a rendezvous fault
with a handler. -/
theorem witness_ReadinessAndSlots_result_ends :
    ((sWait (.sleep 0)).dev.thread? one = some { th0 with wait := .sleep 0 } ∧ 0 ≤ (sWait (.sleep 0)).dev.ctime) ∧
    (sWait (.yield 0)).dev.thread? one = some { th0 with wait := .yield 0 } ∧
    (∀ x ∈ ([(0, 32), (1024, 0)] : List (Nat × Nat)),
      let s := sWait (.held 0) x.1 (fun d => d.modDie 0 (fun y => { y with cycle := x.2 }))
      s.dev.thread? one = some { th0 with wait := .held 0, waited := x.1 } ∧
        (0 + (s.dev.core one.core).foldcfg.toNat % 256 ≤ (s.dev.die (one.core / 64)).cycle ∨ 1024 ≤ x.1)) ∧
    (let s := sWait (.pend 7) 0 (fun d => d.modCtx 0 (fun c => { c with eff := { c.eff with trapvec := 0x8000 } }));
      (s.dev.flocks.map (fun f => (f.core, f.slot))).Nodup ∧
      (∃ f th, s.dev.flock? one.core one.slot = some f ∧ f.thread? one.t = some th ∧ th.wait = .pend 7) ∧
      one ∈ slotTraps 0 0 s ∧ ∀ u ∈ slotTraps 0 0 s, ∃ g x, s.dev.flock? u.core u.slot = some g ∧ g.thread? u.t = some x ∧
        x.intv = false ∧ x.trap.intrap = false ∧ s.dev.trapVec g.ctx u.t ≠ 0) := by
  refine ⟨by decide, by decide, fun x hx => ?_, ?_⟩
  · simp only [List.mem_cons, List.not_mem_nil, or_false] at hx
    obtain rfl | rfl := hx <;> decide
  · have h : slotTraps 0 0 (sWait (.pend 7) 0 (fun d => d.modCtx 0 (fun c => { c with eff := { c.eff with trapvec := 0x8000 } }))) =
      [one] := by decide
    dsimp only
    rw [h]
    refine ⟨by decide, ⟨_, _, rfl, rfl, by decide⟩, by decide, fun u hu => ?_⟩
    obtain rfl := List.mem_singleton.1 hu
    exact ⟨_, _, rfl, rfl, by decide, by decide, by decide⟩

/-- Ready threads of one key: two of one lane and a pair that issues together. -/
abbrev cand (t waited : Nat) (set : List Nat) : Cand := ⟨⟨0, 0, t⟩, 0, false, here, waited, .can, set.map (fun i => ⟨0, 0, i⟩)⟩

/-- The fold chooses among them where one has waited 1,024 slots, and where none has. -/
theorem witness_ReadinessAndSlots_result_fold :
    (∀ w ∈ [1024, 1023], let cs := [cand 0 w [0], cand 32 5 [32], cand 1 3 [1, 2], cand 2 3 [1, 2]]
      (∃ c, chooseKey [⟨0, 0, 0, false, here⟩] cs = some c) ∧ (∀ c ∈ cs, (c.set.map (fun r => r.t % 32)).Nodup) ∧
        ((∃ x ∈ cs, (x.part = .can ∨ x.part = .pend) ∧ 1024 ≤ x.waited) ↔ w = 1024)) := by
  intro w hw
  simp only [List.mem_cons, List.not_mem_nil, or_false] at hw
  obtain rfl | rfl := hw <;> exact ⟨⟨_, rfl⟩, by decide, by decide⟩

/-- A slot with one ready thread in its port group, no server at its instance. -/
theorem witness_ReadinessAndSlots_result_slot :
    let s := withMem (seat th0 fl0) placeCode (leBytes 8 0x0000_0FFF_FFFF_FFFF)
    ∃ f th e, s.dev.stopped = false ∧ s.dev.withheld 0 = false ∧ (s.dev.die 0).powered = true ∧
      s.dev.flocks.filter (fun x => x.core = 0) = [f] ∧ f.dead = false ∧ f.live.filter (fun x => x.t / 32 % 4 = 0) = [th] ∧
      th.enter = none ∧ th.wait = .none ∧ th.blkEnd ≠ 0 ∧ f.ctx < 64 ∧ (s.dev.ctx f.ctx).cstate ≠ .saving ∧
      (∀ x ∈ s.dev.servers, ¬(x.kind = 0 ∧ x.inst = 4 * 0 + 0)) ∧ Sys2Proof.Machine.envOf s ⟨0, f.slot, th.t⟩ f th = some e ∧
      crossLane e.major = false ∧ e.ready = true := by
  refine ⟨fl0, th0, (Sys2Proof.Machine.envOf (withMem (seat th0 fl0) placeCode (leBytes 8 0x0000_0FFF_FFFF_FFFF)) one fl0 th0).get (by decide),
    by decide, by decide, by decide, by decide, by decide, by decide, by decide, by decide, by decide, by decide, by decide, by decide,
    ?_, by decide, by decide⟩
  exact (Option.some_get _).symm

/-- Pairs of an old value and an operand at the bounds of their width. -/
theorem witness_AtomicsAndFence_result_values :
    (4 = 4 ∨ 4 = 8) ∧ (2 ^ 32 - 1 < 2 ^ (8 * 4) ∧ 0 < 2 ^ (8 * 4)) ∧ (8 = 4 ∨ 8 = 8) ∧ 2 ^ 64 - 1 < 2 ^ (8 * 8) := by decide

/-- ATOM, RED and CAS at DRAM; an atomic that host memory carries out; FENCE; WATCH at a vault address. -/
theorem witness_AtomicsAndFence_result :
    (∀ x ∈ ([(0x9A, 0x2000, 3, 3), (0x9A, 0x8000, 3, 3), (0x9C, 0xA000, 4, 2)] : List (Nat × Nat × Nat × Nat)),
      ∃ e loc nc s1, Alone sM x.1 (.m (mem 5 0 6 8 x.2.1 x.2.2.1 x.2.2.2)) e ∧ loc.isMx = false ∧
        (loc.isHost = true → hostAtom (bits x.2.1 12 4) = true) ∧
        e.leads allAp .atomic (e.v64 (v 8) + (BitVec.ofNat 12 x.2.1).signExtend 64) (memBytes 5) 0 loc nc s1) ∧
    (∃ e loc nc s1, Alone sM 0x9B (.m (mem 4 0 6 8 4 3 3)) e ∧ loc.isMx = false ∧
      e.leads allAp .atomic e.addr (memBytes 4) 0 loc nc s1) ∧
    (∃ e, Alone sM 0x9D (.m (.mk (p 0 0) z z 0 false 5 3)) e) ∧
    (∃ e loc nc s1, Alone sM 0x18 (.m (mem 1 1 4 12 16 3 1)) e ∧ loc.isHost = false ∧
      e.leads vaultAp .read e.addr 8 0 loc nc s1) := by
  refine ⟨fun x hx => ?_,
    ⟨_, _, _, _, sole (by decide), rfl, (leads_of (l := .dram 0x20004) (nc := false) (by decide)).choose_spec⟩, ⟨_, sole (by decide)⟩,
    ⟨_, _, _, _, sole (by decide), rfl, (leads_of (l := .vault 0 0x110) (nc := false) (by decide)).choose_spec⟩⟩
  simp only [List.mem_cons, List.not_mem_nil, or_false] at hx
  obtain rfl | rfl | rfl := hx <;> exact ⟨_, _, _, _, sole (by decide), rfl, by decide,
    (leads_of (l := .dram 0x20000) (nc := false) (by decide)).choose_spec⟩


/-! ## Words that do not perform -/

/-- A condition as a Boolean gives the condition. -/
theorem can_if {major : Nat} {b : Body} {P : Env → Prop} (s : State) (g : Group) (r : TRef)
    (h : standsB s major b g r = true) (hP : P (envOf s major b g r)) : CanMeet major b P := ⟨s, g, _, meet_of h hP⟩

/-- A word with a guard, p1, and plain IADD words: of v5, v6, v7, of a relative register beyond N, of a direct one beyond N. -/
abbrev add (h : Hd) (a : Fld) : TWord := .mk h (v 5) a (v 7) z
abbrev onP1 (long : Bool) : Hd := ⟨1, false, 1, 0, 0, long, 0⟩
/-- Every context has a trap handler. -/
abbrev handled2 (d : Dev) : Dev := { d with ctxs := d.ctxs.map (fun c => { c with eff := { c.eff with trapvec := 0x8000 } }) }
/-- A thread of context 1 with a handler. -/
abbrev gUser2 : Group := { alone with ctx := 1 }
abbrev sUser2 : State := seat thM { flM with ctx := 1 } (fun d => { handled2 d with issuing := some gUser2 })
/-- The memory slice that the pages lie in belongs to another virtual device. -/
abbrev sDeny : State := seat thM flM (fun d => { handled2 d with slown := [(0, 5)] })
/-- A flock of 16 registers, its thread with x0 at 16, a handler set. -/
abbrev sSmall (th : Thread) : State := seat { th with xs := [16, 0, 0, 0] } { fl0 with kern := { placeKern with n := 16 } } handled2
abbrev sIv2 : State := seat { th0 with intv := true, preds := [.t, .u, .f, .f, .f, .f, .f, .f] } { fl0 with kern := { placeKern with n := 16 } }
abbrev sBusy : State := seat th0 fl0 (fun d => { d with reqs := [⟨0, one, 0, .ld 4, .dram 0, 4, [], 6, 0, 0, 0, [], false, [], false, false, 0, 0, 0, false⟩] })

/-- A guard that is FALSE; a helper at a store; a source register that awaits a load; a word that its thread's engine does
not execute; registers beyond N, relative and direct, the latter with a guard that is FALSE too. -/
theorem witness_WordOutcomes_result :
    (∃ w, rawOf (.iaddT w) = some (0x20, .t w) ∧
      CanMeet 0x20 (.t w) (fun e => stands e ∧ e.guard = .f ∧ firstDirect e = none)) ∧
    (∃ w, rawOf (.st w) = some (0x91, .m w) ∧ CanMeet 0x91 (.m w) (fun e => stands e ∧ e.guard = .t ∧ firstDirect e = none ∧
      e.th.helper = true ∧ suppressed e.major = true)) ∧
    (∃ w, CanMeet 0x20 (.t w) (fun e => e.illegal = false ∧ e.blocked = true)) ∧
    (∃ w, CanMeet 0xB3 (.t w) (fun e => e.illegal = true ∧ e.inGroup = true ∧ e.th.intv = false ∧ e.delivers)) ∧
    (∃ w, CanMeet 0x20 (.t w) (fun e => stands e ∧ e.guard = .t ∧ (e.th.helper = false ∨ suppressed e.major = false) ∧
      e.regBad = some 16 ∧ e.th.intv = false ∧ e.delivers)) ∧
    (∃ w, CanMeet 0x20 (.t w) (fun e => stands e ∧ e.guard = .t ∧ (e.th.helper = false ∨ suppressed e.major = false) ∧
      e.regBad = some 17 ∧ e.th.intv = false ∧ e.delivers)) ∧
    (∃ w, CanMeet 0x20 (.t w) (fun e => stands e ∧ e.guard = .f ∧ firstDirect e = some 16 ∧ e.th.intv = false ∧ e.delivers)) :=
  ⟨⟨add (onP1 false) (v 6), rfl, can_if (seat th0 fl0) alone one (by decide) (by decide)⟩,
    ⟨mem 2 0 5 8 8 4 2, rfl, can_if (seat { thM with helper := true } flM) alone one (by decide) (by decide)⟩,
    ⟨add (p 1 0) (v 6), can_if sBusy alone one (by decide) (by decide)⟩,
    ⟨.mk (p 1 0) (v 4) (v 6) z z, can_if (sSmall th0) alone one (by decide) ⟨by decide, by decide, by decide, by decide, by decide⟩⟩,
    ⟨add (p 1 0) (v 16), can_if (sSmall th0) alone one (by decide) ⟨by decide, by decide, by decide, by decide, by decide, by decide, by decide⟩⟩,
    ⟨add ⟨0, false, 1, 0, 0, true, 0⟩ (.rel 0 1),
      can_if (sSmall th0) alone one (by decide) ⟨by decide, by decide, by decide, by decide, by decide, by decide, by decide⟩⟩,
    ⟨add (onP1 false) (v 16), can_if (sSmall th0) alone one (by decide) ⟨by decide, by decide, by decide, by decide, by decide, by decide⟩⟩⟩

/-- Addresses at the bounds of the apertures, and of each form that is none. -/
theorem witness_Apertures_result_ranges :
    (2 ^ 57 - 1 < 2 ^ 57) ∧ (127 < 128 ∧ 2 ^ 23 - 1 < 2 ^ 23) ∧ 2 ^ 14 - 1 < 2 ^ 14 ∧ 2 ^ 21 - 1 < 2 ^ 21 ∧ 3 < 4 ∧
    ∀ a ∈ [2 ^ 57, 0xFCFFFFFFFFFFFFFF, 0xFD00000040000000, 0xFE00000000004000, 0xFF00000008000000, 0xFF00000000200000, 0xFF00000001000000],
      a < 2 ^ 64 ∧ 2 ^ 57 ≤ a ∧
      (a / 2 ^ 56 < 0xFD ∨ (a / 2 ^ 56 = 0xFD ∧ a / 2 ^ 30 % 2 ^ 26 ≠ 0) ∨ (a / 2 ^ 56 = 0xFE ∧ a / 2 ^ 14 % 2 ^ 42 ≠ 0) ∨
      (a / 2 ^ 56 = 0xFF ∧ (a / 2 ^ 27 % 2 ^ 29 ≠ 0 ∨ a / 2 ^ 21 % 8 ≠ 0 ∨ (a / 2 ^ 26 % 2 = 0 ∧ a / 2 ^ 24 % 4 ≠ 0)))) := by decide

/-- The trap that an access of the environment takes, as a Boolean. -/
def codeB (e : Env) (n code : Nat) (kind : AccKind) : Bool :=
  match steer e.s.dev e.f e.r.t allAp e.addr.toNat with
  | .bad _ => decide (code = 6)
  | .place _ => decide (e.addr.toNat % n ≠ 0 ∧ code = 7)
  | .virt va => decide (e.addr.toNat % n ≠ 0 ∧ code = 7) || (decide (e.addr.toNat % n = 0 ∧ code = 8) &&
      decide (xlat e.s (some e.r.core) e.f.ctx e.f.regs.ptroot va kind = .perm ∨
        xlat e.s (some e.r.core) e.f.ctx e.f.regs.ptroot va kind = .denied))

theorem code_of {e : Env} {n code : Nat} {kind : AccKind} (h : codeB e n code kind = true) :
    (match steer e.s.dev e.f e.r.t allAp e.addr.toNat with
      | .bad _ => code = 6
      | .place _ => e.addr.toNat % n ≠ 0 ∧ code = 7
      | .virt va => (e.addr.toNat % n ≠ 0 ∧ code = 7) ∨ (e.addr.toNat % n = 0 ∧ code = 8 ∧
          (xlat e.s (some e.r.core) e.f.ctx e.f.regs.ptroot va kind = .perm ∨
            xlat e.s (some e.r.core) e.f.ctx e.f.regs.ptroot va kind = .denied))) := by
  unfold codeB at h
  split at h
  · simpa using h
  · simpa using h
  · simpa [and_assoc] using h

/-- The hypothesis of the traps of LD and ST: of an access of so many bytes, the trap with this code. -/
abbrev apTraps (var code major : Nat) : Env → Prop := (fun e => Performs e ∧ e.th.intv = false ∧
  (e.th.helper = false ∧ e.delivers ∧
    (match steer e.s.dev e.f e.r.t allAp e.addr.toNat with
    | .bad _ => code = 6
    | .place _ => e.addr.toNat % memBytes var ≠ 0 ∧ code = 7
    | .virt va => (e.addr.toNat % memBytes var ≠ 0 ∧ code = 7) ∨
        (e.addr.toNat % memBytes var = 0 ∧ code = 8 ∧
        (xlat e.s (some e.r.core) e.f.ctx e.f.regs.ptroot va (if major = 0x90 then .read else .write) = .perm ∨
          xlat e.s (some e.r.core) e.f.ctx e.f.regs.ptroot va (if major = 0x90 then .read else .write) = .denied)))))

/-- LD and ST at an address of no aperture, at misaligned addresses of the scratchpad and of DRAM, and at a DRAM address
that no page permits. -/
theorem witness_Apertures_result_traps :
    ∀ x ∈ ([(10, 4, 0x2000, 6), (10, 4, 2, 7), (8, 5, 4, 7), (8, 4, 0, 8)] : List (Nat × Nat × Nat × Nat)),
      ∀ major ∈ [0x90, 0x91], CanMeet major (.m (mem x.2.1 0 6 x.1 x.2.2.1 0 0)) (apTraps x.2.1 x.2.2.2 major) := by
  intro x hx m hm
  have of (s : State) (h1 : performsAll false s [(m, .m (mem x.2.1 0 6 x.1 x.2.2.1 0 0))] = true)
      (h2 : (envOf s m (.m (mem x.2.1 0 6 x.1 x.2.2.1 0 0))).th.helper = false)
      (h3 : (envOf s m (.m (mem x.2.1 0 6 x.1 x.2.2.1 0 0))).delivers)
      (h4 : codeB (envOf s m (.m (mem x.2.1 0 6 x.1 x.2.2.1 0 0))) (memBytes x.2.1) x.2.2.2 (if m = 0x90 then .read else .write) = true) :
      CanMeet m (.m (mem x.2.1 0 6 x.1 x.2.2.1 0 0)) (apTraps x.2.1 x.2.2.2 m) := can_when s h1 ⟨h2, h3, code_of h4⟩
  simp only [List.mem_cons, List.not_mem_nil, or_false] at hx hm
  obtain rfl | rfl | rfl | rfl := hx <;> obtain rfl | rfl := hm
  all_goals first
    | exact of (seat thM flM handled2) (by decide) (by decide) ⟨by decide, by decide⟩ (by decide)
    | exact of sDeny (by decide) (by decide) ⟨by decide, by decide⟩ (by decide)

/-! ## Interval threads -/

/-- Intervals in order and not, and exact extents within the range and beyond. -/
theorem witness_IntervalIntegers_result_ends :
    ((ity 0).val 5 ≤ (ity 0).val 5 ∧ (ity 0).val 0xFFFFFFFF < (ity 0).val 5) ∧
    ((ity 1).min ≤ (0 : Int) ∧ (2 ^ 32 - 1 : Int) ≤ (ity 1).max) ∧ ((-1 : Int) < (ity 1).min ∨ (ity 1).max < (-1 : Int)) ∧
    (2 ^ 31 - 1 : Int) ≤ (ity 0).max ∧ (ity 0).max < (2 ^ 31 : Int) := by decide

/-- An interval thread performs the integer words. -/
theorem witness_IntervalIntegers_result : ∀ x ∈ ([(0x20, .t (add (p 1 1) (v 6))), (0x50, .i (.mk (p 1 0) (v 5) (v 6) 100 false)),
    (0x21, .t (add (p 1 0) (v 6))), (0x27, .t (add (p 0 0) (v 6))), (0x28, .t (add (p 0 0) (v 6))),
    (0x3E, .t (.mk (p 0 2) (v 1) (v 2) (v 3) (v 5)))] : List (Nat × Body)), CanWhen x.1 x.2 true (fun _ => True) :=
  can_all (seat { thM with intv := true } flM) (by decide)

/-- Values in their intervals, at the ends; every operation is of the list; extents in order. -/
theorem witness_IntervalSoundness :
    (7 < 8 ∧ addOp ∈ [addOp, subOp, mulOp, mulhOp (ity 7).w, madOp, minOp, maxOp, absOp, sadOp]) ∧
    (∀ i < (ity 7).k, liesIn (ity 7) ⟨0x01020304, 0xFFFFFFFF, false⟩ 0xFFFFFFFF i ∧
      liesIn (ity 7) ⟨0x01020304, 0xFFFFFFFF, false⟩ 0x01020304 i ∧ liesIn (ity 7) ⟨0, 0, false⟩ 0 i) ∧
    (5 < 6 ∧ ((0 : Int), (0 : Int)).1 ≤ ((0 : Int), (0 : Int)).2) := by
  refine ⟨⟨by decide, List.mem_cons_self⟩, by decide, by decide⟩

/-- A thread outside privileged mode at a privileged register and at TLBINV, RTT without INTRAP, RET without an address,
BMODE.on with a budget of 0. -/
theorem witness_IllegalAndEnds_result_traps :
    CanMeet 0x10 (.i (.mk (p 1 0) (v 5) z 0x010 false)) (fun e => Performs e ∧ e.th.intv = false ∧ (e.r.t ≠ instId ∧
      privileged e.f e.th = false ∧ (sysReg (0x010 % 4096)).map (·.rdPriv) = some true ∧ e.delivers)) ∧
    CanMeet 0x11 (.i (.mk (p 1 0) z (v 7) 0x010 false)) (fun e => Performs e ∧ e.th.intv = false ∧ (e.r.t ≠ instId ∧
      privileged e.f e.th = false ∧ (sysReg (0x010 % 4096)).map (·.wrPriv) = some true ∧ e.delivers)) ∧
    CanMeet 0x13 (.t (.mk (p 0 0) z (v 8) z z)) (fun e => Performs e ∧ e.th.intv = false ∧ (privileged e.f e.th = false ∧ e.delivers)) ∧
    CanMeet 0x0C (.t (.mk (p 0 0) z z z z)) (fun e => Performs e ∧ e.th.intv = false ∧ e.delivers) ∧
    CanMeet 0x06 (.t (.mk (p 0 0) z z z z)) (fun e => Performs e ∧ e.th.intv = false ∧ (e.th.retaddr = 0 ∧ e.delivers)) ∧
    CanMeet 0x1D (.i (.mk (p 0 2) z (v 7) 14 false)) (fun e => Performs e ∧ e.th.intv = false ∧ (2 = 2 ∧
      (e.v32 (v 7)).toNat % 2 ^ 16 = 0 ∧ e.delivers)) :=
  ⟨⟨_, _, _, when_of (s := sUser2) (g := gUser2) (r := one) (by decide) ⟨by decide, by decide, by decide, by decide, by decide⟩⟩,
    ⟨_, _, _, when_of (s := sUser2) (g := gUser2) (r := one) (by decide) ⟨by decide, by decide, by decide, by decide, by decide⟩⟩,
    ⟨_, _, _, when_of (s := sUser2) (g := gUser2) (r := one) (by decide) ⟨by decide, by decide, by decide⟩⟩,
    can_when (seat thM flM handled2) (by decide) ⟨by decide, by decide⟩,
    can_when (seat thM flM handled2) (by decide) ⟨by decide, by decide, by decide⟩,
    can_when (seat thM flM handled2) (by decide) ⟨by decide, by decide, by decide, by decide⟩⟩

/-- An interval thread at each word without a rule, at a word with an UNKNOWN guard, at one that its engine does not
execute, and at one with a register beyond N. -/
theorem witness_IllegalAndEnds_result_ends :
    (∀ x ∈ ([(0x08, .t (.mk (p 0 0) z z z z)), (0x0C, .t (.mk (p 0 0) z z z z)), (0x0E, .t (.mk (p 0 0) z z z z)),
        (0x0F, .t (.mk (p 0 0) z z z z)), (0x13, .t (.mk (p 0 0) z (v 8) z z)), (0x14, .t (.mk (p 0 1) (v 10) z z z)),
        (0x1C, .t (.mk (p 0 0) (v 16) z z z)), (0x22, .t (.mk (p 3 3) (v 6) (v 8) (v 10) (v 4)))] : List (Nat × Body)),
      CanWhen x.1 x.2 true (fun _ => True)) ∧
    (let e := envOf sIv2 0xB3 (.t (.mk (p 1 0) (v 4) (v 6) z z)); e.illegal = true ∧ e.inGroup = true) ∧
    (let e := envOf sIv2 0x20 (.t (add (onP1 false) (v 6))); stands e ∧ e.guard = .u ∧ firstDirect e = none) ∧
    (let e := envOf sIv2 0x20 (.t (add (p 1 0) (v 16))); stands e ∧ e.guard = .t ∧ e.th.helper = false ∧ e.regBad ≠ none) :=
  ⟨can_all (seat { thM with intv := true } flM) (by decide), by decide, by decide, by decide⟩

end Sys2Proof.Tests
end

