-- ==== Sys2Proof/Tests/Witness3.lean ====
section
/-! SUPPORT. Witnesses of the statements about requests, slices, engines and the fabric. -/

namespace Sys2Proof.Tests

open Sys2Proof.Machine

/-- A request of the placed thread. -/
abbrev rq (id : Nat) (kind : ReqKind) (loc : Loc) (n : Nat) (data : List Byte) : Req :=
  ⟨id, one, 0, kind, loc, n, data, 6, 0, 0, 0, [], false, [], false, false, 0, 0, 0, false⟩
/-- The placed thread with requests in flight, the device then changed. -/
abbrev sReq (qs : List Req) (D : Dev → Dev := id) : State := seat { th0 with cnt := ⟨5, 5, 0, 0⟩ } fl0 (fun d => D { d with reqs := qs })
abbrev bytes (n : Nat) : List Byte := (List.range n).map (BitVec.ofNat 8)

set_option maxRecDepth 4000 in
/-- Loads, stores and atomics that are due, at the last bytes of a line and at a vault; what is left of a ZFILL of an uncacheable
line. -/
theorem witness_SliceRequests_result :
    (∀ q ∈ [rq 3 (.ld 4) (.dram 0x2007C) 4 [], { rq 3 (.ld 5) (.dram 0x20000) 8 [] with nc := true }, rq 3 (.ld 0) (.vault 2 9) 1 []],
      plainRequest (sReq [q]) 3 q ∧ q.kind.isRead = true ∧ q.loc.atSlice = true) ∧
    (∀ q ∈ [rq 3 .st (.dram 0x20078) 8 (bytes 8), rq 3 (.stf 7) (.dram 0x20000) 4 (bytes 4),
        rq 3 .zfill (.dram 0x20000) 128 (List.replicate 128 0)],
      (sReq [q]).MemOk ∧ plainRequest (sReq [q]) 3 q ∧ q.data.length = q.n ∧ q.loc.atSlice = true ∧
        (q.kind = .zfill ∨ q.n ≤ 8) ∧ (∀ pa, q.loc = .dram pa → pa % 128 + q.n ≤ 128)) ∧
    (∀ q ∈ [rq 3 .st (.dram 0x20000) 128 (List.replicate 128 0), rq 3 .st (.dram 0x20070) 16 (bytes 16)],
      (sReq [q]).MemOk ∧ plainRequest (sReq [q]) 3 q ∧ q.data.length = q.n ∧ q.loc.atSlice = true ∧ q.kind = .st ∧ 8 < q.n ∧
        (∀ pa, q.loc = .dram pa → pa % 128 + 8 ≤ 128)) ∧
    (∀ q ∈ [rq 3 (.atom 10) (.dram 0x20078) 8 (bytes 8), rq 3 (.red 0) (.vault 2 0) 4 (bytes 4), rq 3 .cas (.dram 0x20000) 4 (bytes 8)],
      (sReq [q]).MemOk ∧ plainRequest (sReq [q]) 3 q ∧ q.kind.isAtomic = true ∧ q.loc.atSlice = true ∧ (q.n = 4 ∨ q.n = 8) ∧
        (q.kind = .cas → q.data.length = 2 * q.n) ∧ (∀ pa, q.loc = .dram pa → pa % 128 + q.n ≤ 128)) := by
  have hm : ∀ q, (sReq [q]).MemOk := fun q => seat_memOk _ _ _
  have hpb {q : Req} (h : match q.loc with | .dram pa => pa % 128 + 8 ≤ 128 | _ => True) :
      ∀ pa, q.loc = .dram pa → pa % 128 + 8 ≤ 128 := fun pa e => by rw [e] at h; exact h
  have hpa {q : Req} (h : match q.loc with | .dram pa => pa % 128 + q.n ≤ 128 | _ => True) :
      ∀ pa, q.loc = .dram pa → pa % 128 + q.n ≤ 128 := fun pa e => by rw [e] at h; exact h
  refine ⟨fun q h => ?_, fun q h => ⟨hm q, ?_⟩, fun q h => ⟨hm q, ?_⟩, fun q h => ⟨hm q, ?_⟩⟩ <;>
    simp only [List.mem_cons, List.not_mem_nil, or_false] at h <;> obtain rfl | rfl | rfl := h
  · decide
  · decide
  · decide
  · exact ⟨by decide, by decide, by decide, by decide, hpa (by decide)⟩
  · exact ⟨by decide, by decide, by decide, by decide, hpa (by decide)⟩
  · exact ⟨by decide, by decide, by decide, by decide, hpa (by decide)⟩
  · exact ⟨by decide, by decide, by decide, by decide, by decide, hpb (by decide)⟩
  · exact ⟨by decide, by decide, by decide, by decide, by decide, hpb (by decide)⟩
  · exact ⟨by decide, by decide, by decide, by decide, by decide, hpa (by decide)⟩
  · exact ⟨by decide, by decide, by decide, by decide, by decide, hpa trivial⟩
  · exact ⟨by decide, by decide, by decide, by decide, by decide, hpa (by decide)⟩


set_option maxRecDepth 4000 in
/-- A load performed at its slice; loads of a scratchpad, an accumulator slot and host memory that are due. -/
theorem witness_Performed_result_loads :
    (∀ q ∈ [{ rq 3 (.ld 4) (.dram 0x2007C) 4 [] with performed := true, val := bytes 128 },
        { rq 3 (.ld 5) (.dram 0x20000) 8 [] with performed := true, val := bytes 128, ord := 1, scope := 0 }],
      (sReq [q]).dev.req? 3 = some q ∧ q.performed = true ∧ q.dram = false ∧ q.kind.isLoad = true ∧
        (q.ord = 0 ∨ q.ord = 2 ∨ q.scope < 1) ∧
        ∃ th, (sReq [q]).dev.thread? q.ref = some th ∧ th.intv = false) ∧
    (∀ q ∈ [rq 3 (.ld 2) (.spad 0 0 6) 2 [], rq 3 .ldacc (.acc 0 0 1023) 4 [], rq 3 (.ld 4) (.host 0xFFFFFFFFFFFFC) 4 []],
      (sReq [q]).dev.due 3 = some q ∧ (sReq [q]).dev.marks = [] ∧ q.dram = false ∧ (q.kind = .ldacc ∨ ∃ var, q.kind = .ld var) ∧
        (∀ pa, q.loc ≠ .dram pa) ∧ q.loc.direct = true ∧
        (q.loc.isHost = true → (sReq [q]).dev.mgmt.linkUp = true) ∧ (q.ord = 0 ∨ q.ord = 2 ∨ q.scope < 1) ∧
        ∃ th, (sReq [q]).dev.thread? q.ref = some th ∧ th.intv = false) ∧
    (∀ var ∈ [0, 2, 5], (rq 3 (.ld var) (.spad 0 0 0) 8 []).kind = .ld var ∧
      ∀ pa, (rq 3 (.ld var) (.spad 0 0 0) 8 []).loc ≠ .dram pa) := by
  refine ⟨fun q h => ?_, fun q h => ?_, fun var _ => ⟨rfl, fun pa h => nomatch h⟩⟩ <;>
    simp only [List.mem_cons, List.not_mem_nil, or_false] at h
  · obtain rfl | rfl := h <;> exact ⟨by decide, by decide, by decide, by decide, by decide, _, rfl, by decide⟩
  · obtain rfl | rfl | rfl := h
    · exact ⟨by decide, by decide, by decide, .inr ⟨2, rfl⟩, (fun _ h => nomatch h), by decide, by decide, by decide, _, rfl, by decide⟩
    · exact ⟨by decide, by decide, by decide, .inl rfl, (fun _ h => nomatch h), by decide, by decide, by decide, _, rfl, by decide⟩
    · exact ⟨by decide, by decide, by decide, .inr ⟨4, rfl⟩, (fun _ h => nomatch h), by decide, by decide, by decide, _, rfl, by decide⟩

set_option maxRecDepth 4000 in
/-- Stores to a scratchpad, a vault, an accumulator slot and host memory that are due, a ZFILL of a scratchpad and of a vault, and
one that is performed. -/
theorem witness_Performed_result_stores :
    (∀ q ∈ [rq 3 .st (.spad 0 0 6) 2 (bytes 2), rq 3 .st (.vault 63 0) 8 (bytes 8), rq 3 .stacc (.acc 0 0 1022) 8 (bytes 8),
        rq 3 .st (.host 0xFFFFFFFFFFFFC) 4 (bytes 4)],
      (sReq [q]).dev.due 3 = some q ∧ (sReq [q]).dev.marks = [] ∧ (q.kind = .st ∨ q.kind = .stacc) ∧ q.data.length = q.n ∧ q.n ≤ 8 ∧
        (q.loc.isHost = true → (sReq [q]).dev.mgmt.linkUp = true) ∧
        ((∃ (k : StoKey) (off : Nat), (∃ c l, q.loc = .spad c l off ∧ k = .spad c l) ∨ (∃ u, q.loc = .vault u off ∧ k = .vault u) ∨
          (∃ c l i, q.loc = .acc c l i ∧ off = 4 * i ∧ k = .acc c l)) ∨ ((sReq [q]).MemOk ∧ ∃ pa, q.loc = .host pa))) ∧
    (∀ q ∈ [rq 3 .zfill (.spad 0 0 0) 128 (List.replicate 128 0), rq 3 .st (.vault 63 120) 9 (bytes 9)],
      (sReq [q]).dev.due 3 = some q ∧ (sReq [q]).dev.marks = [] ∧ (q.kind = .st ∨ q.kind = .zfill) ∧ q.data.length = q.n ∧ 8 < q.n ∧
        ∃ (k : StoKey) (off : Nat), (∃ c l, q.loc = .spad c l off ∧ k = .spad c l) ∨ (∃ u, q.loc = .vault u off ∧ k = .vault u)) ∧
    (let q := { rq 3 .st (.dram 0x20000) 4 (bytes 4) with performed := true };
      (sReq [q]).dev.req? 3 = some q ∧ q.performed = true ∧ q.kind.isStore = true ∧ ∃ th, (sReq [q]).dev.thread? q.ref = some th) := by
  refine ⟨fun q h => ?_, fun q h => ?_, by decide, by decide, by decide, _, rfl⟩ <;>
    simp only [List.mem_cons, List.not_mem_nil, or_false] at h
  · obtain rfl | rfl | rfl | rfl := h
    · exact ⟨by decide, by decide, by decide, by decide, by decide, by decide, .inl ⟨_, _, .inl ⟨_, _, rfl, rfl⟩⟩⟩
    · exact ⟨by decide, by decide, by decide, by decide, by decide, by decide, .inl ⟨_, _, .inr (.inl ⟨_, rfl, rfl⟩)⟩⟩
    · exact ⟨by decide, by decide, by decide, by decide, by decide, by decide, .inl ⟨_, _, .inr (.inr ⟨_, _, _, rfl, rfl, rfl⟩)⟩⟩
    · exact ⟨by decide, by decide, by decide, by decide, by decide, by decide, .inr ⟨seat_memOk _ _ _, _, rfl⟩⟩
  · obtain rfl | rfl := h
    · exact ⟨by decide, by decide, by decide, by decide, by decide, _, _, .inl ⟨_, _, rfl, rfl⟩⟩
    · exact ⟨by decide, by decide, by decide, by decide, by decide, _, _, .inr ⟨_, rfl, rfl⟩⟩

/-- A watch request for a word of DRAM, and a watch entry. -/
abbrev wq (cmp : Nat) : Req := rq 3 (.watch cmp) (.dram 0x20000) 4 (leBytes 4 7)
abbrev entry (id cmp : Nat) (val : W64) : WatchEnt := ⟨some one, 0, .dram 0x20000, 4, cmp, val, id⟩

set_option maxRecDepth 8000 in
/-- A WATCH whose comparison holds (the word is 0, never above 7), one that waits, one at a full table; an answered WATCH and
its thread; an entry that a write of its word meets, with a value that answers it and one that does not; a WATCH of an alias
address. -/
theorem witness_WatchAndMulticast_result_watch :
    ((sReq [wq 2]).dev.due 3 = some (wq 2) ∧ (wq 2).kind = .watch 2 ∧ (sReq [wq 2]).dev.marks = [] ∧
      cmpHolds 2 (leNat ((sReq [wq 2]).point (wq 2).loc (wq 2).n)) (leNat (wq 2).data) = true) ∧
    ((sReq [wq 0]).dev.due 3 = some (wq 0) ∧ cmpHolds 0 (leNat ((sReq [wq 0]).point (wq 0).loc (wq 0).n)) (leNat (wq 0).data) = false ∧
      ((sReq [wq 0]).dev.vault ((sReq [wq 0]).dev.watchHome (wq 0).loc)).watch.length < 128 ∧
      ∀ e ∈ ((sReq [wq 0]).dev.vault ((sReq [wq 0]).dev.watchHome (wq 0).loc)).watch, e.req ≠ 3) ∧
    (let s := sReq [wq 0] (fun d => { d with vaults := d.vaults.map (fun x => { x with watch := List.replicate 128 (entry 9 0 7) }) });
      s.dev.due 3 = some (wq 0) ∧ s.dev.marks = [] ∧ 128 ≤ (s.dev.vault (s.dev.watchHome (wq 0).loc)).watch.length) ∧
    (let q := { wq 0 with performed := true };
      let s := seat { th0 with wait := .watch } fl0 (fun d => { d with reqs := [q] });
      (s.dev.inFlight one).find? (fun q => q.performed && (match q.kind with
        | .watch _ => true
        | _ => false)) = some q ∧ s.dev.thread? one = some { th0 with wait := .watch } ∧ ({ th0 with wait := .watch } : Thread).wait = .watch) ∧
    (let s := sReq [] (fun d => d.modVault 0 (fun x => { x with watch := [entry 9 0 0] }));
      s.dev.meets (.dram 0x20003) 1 (entry 9 0 0).loc (entry 9 0 0).n = true) ∧
    (∀ x ∈ ([(bytes 4, 0x3020100), (bytes 4, 7)] : List (List Byte × W64)),
      let q := rq 3 .st (.dram 0x20000) 4 x.1
      let e : WatchEnt := { entry 9 0 x.2 with ref := some one }
      let s := sReq [q, { wq 0 with id := 9 }] (fun d => d.modVault ((Loc.dram 0x20000).mcVault d) (fun x => { x with watch := [e] }));
      s.MemOk ∧ plainRequest s 3 q ∧ q.kind = .st ∧ q.n ≤ 8 ∧ q.data.length = q.n ∧ q.loc.atSlice = true ∧
      (∀ pa, q.loc = .dram pa → pa % 128 + q.n ≤ 128) ∧ e ∈ (s.dev.vault (q.loc.mcVault s.dev)).watch ∧
      (∀ u ∈ (s.dev.vault (q.loc.mcVault s.dev)).watch, u.req = e.req → u = e) ∧
      s.dev.meets (.dram (s.dev.redirect 0x20000)) q.n e.loc e.n = true ∧ ∃ y, s.dev.req? e.req = some y ∧ ∃ c, y.kind = .watch c) ∧
    (let q := rq 3 (.watch 0) (.mxel 0x20000 5 0) 4 (leBytes 4 7);
      (sReq [q]).dev.due 3 = some q ∧ q.loc.isMx = true ∧ ∃ s1, commit (mxFlush q.loc q.n) (sReq [q]) = .next s1) := by
  refine ⟨by decide, by decide, by decide, by decide, by decide, fun x hx => ?_, by decide, by decide, _, after_of (by decide)⟩
  simp only [List.mem_cons, List.not_mem_nil, or_false] at hx
  obtain rfl | rfl := hx <;> exact ⟨seat_memOk _ _ _, by decide, by decide, by decide, by decide, by decide,
    fun pa e => by cases e; decide, by decide, by decide, by decide, _, rfl, _, rfl⟩

/-- A multicast request for cores 0 and 1, and an entry of its line. -/
abbrev mq (id mask : Nat) : Req := rq id (.ldmc mask) (.dram 0x20000) 4 []
abbrev mcEnt (mask time : Nat) (joined : List Nat) : McEnt := ⟨0, .dram 0x20000, mask, 0, 0, time, joined⟩
/-- The home slice of the line has the entries `l`, and records `o`. -/
abbrev sMc (mask : Nat) (l o : List McEnt) : State := sReq [mq 3 mask, mq 4 mask] (fun d =>
  d.modVault ((mq 3 mask).loc.mcVault d) (fun x => { x with mc := l, mcOld := o }))

set_option maxRecDepth 8000 in
/-- A request that opens an entry, one that joins, one that completes its entry, one beside a record, and an entry 2,048 ticks
old. -/
theorem witness_WatchAndMulticast_result_multicast :
    (∀ x ∈ ([(3, [], []), (3, [mcEnt 3 0 [9]], []), (1, [mcEnt 1 0 [4]], []), (3, [], [mcEnt 3 0 []])] : List (Nat × List McEnt × List McEnt)),
      let s := sMc x.1 x.2.1 x.2.2
      let q := mq 3 x.1
      let k := q.loc.mcVault s.dev
      s.dev.due 3 = some q ∧ q.kind = .ldmc x.1 ∧ s.dev.marks = [] ∧
        (∀ e ∈ (s.dev.vault k).mc ++ (s.dev.vault k).mcOld, s.dev.ctime < e.time + 2048) ∧
        (s.dev.reqs.map (·.id)).Nodup ∧ ∀ u ∈ s.dev.vaults, u.watch = []) ∧
    (let s := sMc 3 [] []
      let key (e : McEnt) : Bool := e.ctx = 0 ∧ e.line = .dram 0x20000 ∧ e.mask = 3
      let k := (mq 3 3).loc.mcVault s.dev;
      (s.dev.vault k).mc.find? key = none ∧ (s.dev.vault k).mcOld.any key = false ∧ (s.dev.vault k).mc.length < 32 ∧
        s.dev.mcFull (mcEnt 3 0 [3]) = false) ∧
    (let s := sMc 3 [mcEnt 3 0 [9]] [];
      (s.dev.vault ((mq 3 3).loc.mcVault s.dev)).mc.find? (fun e => e.ctx = 0 ∧ e.line = .dram 0x20000 ∧ e.mask = 3) = some (mcEnt 3 0 [9]) ∧
        s.dev.mcFull (mcEnt 3 0 [9, 3]) = false) ∧
    (let s := sMc 1 [mcEnt 1 0 [4]] [];
      (s.dev.vault ((mq 3 1).loc.mcVault s.dev)).mc.find? (fun e => e.ctx = 0 ∧ e.line = .dram 0x20000 ∧ e.mask = 1) = some (mcEnt 1 0 [4]) ∧
        s.dev.mcFull (mcEnt 1 0 [4, 3]) = true ∧ ∃ q, s.dev.req? 3 = some q ∧ q ∈ s.dev.shares q) ∧
    (let s := sMc 3 [] [mcEnt 3 0 []];
      (s.dev.vault ((mq 3 3).loc.mcVault s.dev)).mcOld.any (fun e => e.ctx = 0 ∧ e.line = .dram 0x20000 ∧ e.mask = 3) = true) ∧
    (let s := (sMc 3 [mcEnt 3 0 [3]] []).device (fun d => { d with ctime := 2048 });
      (s.dev.vault ((mq 3 3).loc.mcVault s.dev)).mc[0]? = some (mcEnt 3 0 [3]) ∧ (mcEnt 3 0 [3]).time + 2048 ≤ s.dev.ctime ∧
        s.dev.marks = [] ∧ (s.dev.reqs.map (·.id)).Nodup ∧ (∀ u ∈ s.dev.vaults, u.watch = []) ∧
        ∃ q, s.dev.req? 3 = some q ∧ q ∈ s.dev.shares q) := by
  refine ⟨fun x hx => ?_, by decide, by decide, ⟨by decide, by decide, _, rfl, by decide⟩, by decide,
    ⟨by decide, by decide, by decide, by decide, by decide, _, rfl, by decide⟩⟩
  simp only [List.mem_cons, List.not_mem_nil, or_false] at hx
  obtain rfl | rfl | rfl | rfl := hx <;> decide


/-- An element of a reduced-format page. -/
abbrev mxLoc (fmt off : Nat) : Loc := .mxel 0x20000 fmt off

set_option maxRecDepth 8000 in
/-- A load and a store of elements of a reduced-format page, at a block's first and last bytes. -/
theorem witness_MemoryController_result_pages :
    (∀ off ∈ [0, 65528], (sReq [rq 3 (.ld 5) (mxLoc 5 off) 8 []]).dev.due 3 = some (rq 3 (.ld 5) (mxLoc 5 off) 8 []) ∧
      (sReq [rq 3 (.ld 5) (mxLoc 5 off) 8 []]).dev.marks = [] ∧ (rq 3 (.ld 5) (mxLoc 5 off) 8 []).kind.isRead = true) ∧
    (∀ off ∈ [0, 65528], let q := rq 3 .st (mxLoc 5 off) 8 (bytes 8)
      (sReq [q]).MemOk ∧ (sReq [q]).dev.due 3 = some q ∧ (sReq [q]).dev.marks = [] ∧ 0 < q.n ∧ q.n ≤ 8 ∧ off % 64 + q.n ≤ 64 ∧
        off < 65536 ∧ q.data.length = q.n ∧ (sReq [q]).dev.move.stat = 0 ∧ 5 < 6 ∧ 0x20000 + 33 * 1024 ≤ 2 ^ 39 ∧
        (∀ u ∈ (sReq [q]).dev.vaults, ∀ y ∈ u.watch, y.req ≠ 3) ∧ ∃ s1, commit (mxFlush q.loc q.n) (sReq [q]) = .next s1) := by
  refine ⟨by decide, fun off h => ⟨seat_memOk _ _ _, ?_⟩⟩
  simp only [List.mem_cons, List.not_mem_nil, or_false] at h
  obtain rfl | rfl := h <;>
    exact ⟨by decide, by decide, by decide, by decide, by decide, by decide, by decide, by decide, by decide, by decide, by decide,
      _, after_of (by decide)⟩

/-- Stack 7, whose pseudo-channel 255 is `p`, at a time. -/
abbrev sPc (p : PseudoChan) (time : Nat := 0) (sridle : Nat := 0) : State := State.reset.device (fun d =>
  { d with ctime := time, stks := (d.stks.map (fun x => { x with sridle := sridle })).modify 7 (fun x => { x with pcs := [p] }) })
abbrev dr (cls stamp : Nat) (ctx : Option Nat) (id : Nat := 3) : DramReq := ⟨some id, ctx, ctx, cls, stamp, 64, 63, ctx.isSome⟩

/-- The other stacks, and a stack beyond the last, have no pseudo-channel at work. -/
theorem stk_other (p : PseudoChan) (h : Nat) (hh : h ≠ 7) : ((sPc p).dev.stk h).pcs = [] := by
  have hd : ∀ h < 8, h ≠ 7 → ((sPc p).dev.stk h).pcs = [] := fun h h8 hh => by
    interval_cases h <;> first | rfl | exact absurd rfl hh
  by_cases h8 : h < 8
  · exact hd h h8 hh
  · have : (sPc p).dev.stks[h]? = none := List.getElem?_eq_none (by
      have : (sPc p).dev.stks.length = 8 := rfl
      omega)
    simp only [Dev.stk, this, Option.getD_none]
    rfl

/-- Requests of two classes and of one; a request alone, with 7 refreshes owed and with none; a request whose bank owes 8;
refreshes with and without a request; an idle channel as its time passes; exits due and failed; a channel that awaits training. -/
theorem witness_MemoryController_result_channels :
    (∃ q, pickReq [dr 2 0 none, dr 1 5 none, dr 1 4 none] = some q) ∧
    (∀ x ∈ ([([], dr 0 0 none, [], 0), ([], dr 0 0 none, [], 7), ([], dr 0 0 (some 63), [], 0),
        ([dr 2 0 none 4, dr 1 5 none 5], dr 1 4 none, [dr 1 4 none 6, dr 3 0 none 7], 0)] :
        List (List DramReq × DramReq × List DramReq × Nat)),
      let q := x.2.1
      let s := sPc ⟨255, .active, 0, none, 0, x.1 ++ q :: x.2.2.1, [(63, x.2.2.2)]⟩
      let may (x : DramReq) : Prop := (x.ctx = none ∨ x.admitted = true) ∧ (s.dev.pcAt 7 255).owed x.bank < 8;
      7 < 8 ∧ 7 < s.dev.stks.length ∧ (s.dev.pcAt 7 255).st = .active ∧ (∀ k, (s.dev.stk 7).asking k = []) ∧ s.dev.fab.waits = [] ∧
      (s.dev.pcAt 7 255).waiting = x.1 ++ q :: x.2.2.1 ∧ may q ∧
      (∀ y ∈ x.1, may y → q.cls < y.cls ∨ (q.cls = y.cls ∧ q.stamp < y.stamp)) ∧
      (∀ y ∈ x.2.2.1, may y → q.cls < y.cls ∨ (q.cls = y.cls ∧ q.stamp ≤ y.stamp)) ∧ q.req = some 3 ∧ q ∉ x.2.2.1 ∧
      ∀ h', ∀ p ∈ (s.dev.stk h').pcs, ∀ y ∈ p.waiting, y.req = some 3 → h' = 7 ∧ p.pc = 255 ∧ y = q) ∧
    (let s := sPc ⟨255, .active, 0, none, 0, [dr 0 0 none], [(63, 8)]⟩
      let may (x : DramReq) : Prop := (x.ctx = none ∨ x.admitted = true) ∧ (s.dev.pcAt 7 255).owed x.bank < 8;
      (s.dev.pcAt 7 255).st = .active ∧ ∀ x ∈ (s.dev.pcAt 7 255).waiting, ¬may x) ∧
    (∀ w ∈ [[], [dr 0 0 none]], 7 < 8 ∧ 63 < 64 ∧ ((sPc ⟨255, .active, 0, none, 0, w, [(63, 7)]⟩).dev.pcAt 7 255).st = .active) ∧
    (let s := sPc ⟨255, .active, 0, none, 0, [], []⟩ 4000 1;
      255 < 256 ∧ (s.dev.stk 7).sridle ≠ 0 ∧ (s.dev.pcAt 7 255).st = .active ∧ (s.dev.pcAt 7 255).waiting = [] ∧
      (s.dev.pcAt 7 255).idleSince + 4000 * (s.dev.stk 7).sridle ≤ s.dev.ctime) ∧
    (let s := sPc ⟨255, .selfRefresh, 0, none, 0, [dr 0 0 none], []⟩;
      (s.dev.pcAt 7 255).st = .selfRefresh ∧ (s.dev.pcAt 7 255).waiting ≠ []) ∧
    (let s := sPc ⟨255, .exiting, 0, none, 0, [dr 0 0 none], []⟩ 800;
      (s.dev.pcAt 7 255).st = .exiting ∧ (s.dev.pcAt 7 255).exitAt + 800 ≤ s.dev.ctime ∧ s.dev.fab.waits = []) ∧
    (let s := sPc ⟨255, .exiting, 0, none, 0, [dr 0 0 (some 63)], []⟩ 8000;
      7 < s.dev.stks.length ∧ (s.dev.pcAt 7 255).st = .exiting ∧ (s.dev.pcAt 7 255).exitAt + 8000 ≤ s.dev.ctime ∧
      dr 0 0 (some 63) ∈ (s.dev.pcAt 7 255).waiting ∧ (dr 0 0 (some 63)).owner = some 63 ∧ 63 < s.dev.ctxs.length) ∧
    (let s := sPc ⟨255, .retrain, 0, none, 0, [], []⟩; (s.dev.pcAt 7 255).st = .retrain ∧ s.dev.fab.waits = []) := by
  refine ⟨⟨_, rfl⟩, fun x hx => ?_, by decide, by decide, by decide, by decide, by decide, by decide, by decide⟩
  have hp : ∀ p : PseudoChan, ((sPc p).dev.stk 7).pcs = [p] := fun p => rfl
  refine ⟨by decide, show 7 < 8 by decide, rfl, fun k => ?_, rfl, rfl, ?_, ?_, ?_, ?_, ?_, fun h' p h1 y hy hr => ?_⟩
  · rw [Stack.asking, hp]
    simp only [List.mem_cons, List.not_mem_nil, or_false] at hx
    obtain rfl | rfl | rfl | rfl := hx <;> simp
  · simp only [List.mem_cons, List.not_mem_nil, or_false] at hx
    obtain rfl | rfl | rfl | rfl := hx <;> decide
  · simp only [List.mem_cons, List.not_mem_nil, or_false] at hx
    obtain rfl | rfl | rfl | rfl := hx <;> decide
  · simp only [List.mem_cons, List.not_mem_nil, or_false] at hx
    obtain rfl | rfl | rfl | rfl := hx <;> decide
  · simp only [List.mem_cons, List.not_mem_nil, or_false] at hx
    obtain rfl | rfl | rfl | rfl := hx <;> decide
  · simp only [List.mem_cons, List.not_mem_nil, or_false] at hx
    obtain rfl | rfl | rfl | rfl := hx <;> decide
  · by_cases h7 : h' = 7
    · subst h7
      rw [hp, List.mem_singleton] at h1
      subst h1
      refine ⟨rfl, rfl, ?_⟩
      simp only [List.mem_cons, List.not_mem_nil, or_false] at hx
      obtain rfl | rfl | rfl | rfl := hx <;>
        simp only [List.mem_cons, List.not_mem_nil, or_false, List.cons_append, List.nil_append] at hy
      · exact hy
      · exact hy
      · exact hy
      · obtain rfl | rfl | rfl | rfl | rfl := hy <;> first | rfl | exact absurd hr (by decide)
    · rw [stk_other _ _ h7] at h1
      exact absurd h1 (List.not_mem_nil)

set_option maxRecDepth 8000 in
/-- A read and a write that the walk of context 0 finds permitted, the leaf without A and D. -/
theorem witness_PageWalk_result :
    let s := withMem (seat th0 fl0 (fun d => d.modCtx 0 (fun c => { c with eff := { c.eff with ptroot := BitVec.ofNat 64 placeRoot } })))
      0x12000 (leBytes 8 0xF)
    s.MemOk ∧ 0 < 256 ∧ 0 < 64 ∧ 0x3FFFFFFF < 2 ^ 57 ∧ s.dev.stopped = false ∧ s.dev.tlb? 0 0 0x3FFFFFFF = none ∧
      s.dev.vaults.length = 64 ∧ ∃ e at_ size,
        walk s (s.dev.ctx 0).eff.vdev.toNat 0x3FFFFFFF 4 (s.dev.ctx 0).eff.ptroot.toNat = .leaf e at_ size ∧
        permits .read e = true ∧ permits .write e = true := by
  refine ⟨show Memory.wf _ = true by decide, by decide, by decide, by decide, by decide, by decide, by decide, ?_⟩
  exact ⟨0xF, 0x12000, 30, by decide, by decide, by decide⟩

/-! ## Engines -/

/-- A matrix operation, alone in the engine of core 0 beside queue contents. -/
abbrev mo (kind : MatKind) (blk : List Byte) (next : Nat) (metas : List (List Byte)) : MatOp :=
  ⟨0, one, 0, kind, .s8, .s8, blk, none, 3, 0x107341, (0, 0), (0, 0), [], [], next, metas, [], 0⟩
abbrev sMat (o : MatOp) : State := seat { th0 with cnt := ⟨0, 0, 0, 1⟩ } flE (fun d => d.modCore 0 (fun c =>
  { c with mat := [o], metaq := List.replicate 4 ⟨some (0, 0), [bytes 64]⟩ }))

set_option maxRecDepth 8000 in
/-- The first and the last update of MMA and of SMMA; the metadata queue; the accumulator words' first and last elements. -/
theorem witness_MatrixEngine_result :
    (∀ x ∈ ([(.mma, 0, []), (.mma, 1023, []), (.smma, 0, [bytes 64]), (.mmaw, 0, [])] : List (MatKind × Nat × List (List Byte))),
      let o := mo x.1 matB x.2.1 x.2.2
      engineFree (sMat o) 0 o ∧ (o.kind = .mma ∨ o.kind = .smma ∨ o.kind = .mmaw) ∧ 31 < (matBlk o.blk).m ∧
        31 < (matBlk o.blk).n ∧ (kget o.prog (31, 31)).getD 0 < (matBlk o.blk).groups ∧
        (o.kind = .smma → (kget o.prog (31, 31)).getD 0 < o.metas.length ∧
          o.next < (matBlk o.blk).m * (matBlk o.blk).n * o.metas.length)) ∧
    ((mo .mma matB 0 []).kind = .mma ∧ (mo .mma matB 0 []).ea = .s8 ∧ (mo .mma matB 0 []).eb = .s8 ∧
      (mo .mma matB 0 []).elems = [] ∧ (matBlk matB).at_ = false ∧ (matBlk matB).bt = false) ∧
    (let o := mo .smma matB 0 [];
      ((sMat o).dev.core 0).mat = [o] ∧ 0 < (sMat o).dev.cores.length ∧ o.after.all (sMat o).dev.isDone = true ∧
        o.kind = .smma ∧ o.metas.length < (matBlk o.blk).groups ∧
        ∃ q, ((sMat o).dev.core 0).metaq[o.qs]? = some q ∧ q.bound = some (o.ref.core, o.ref.slot) ∧ q.items = bytes 64 :: []) ∧
    (∀ kind ∈ [.accz, .load, .drain], ∀ next ∈ [0, 15], let o := mo kind (accB 4) next []
      engineFree (sMat o) 0 o ∧ o.kind = kind ∧ ∃ th, (sMat o).dev.thread? o.ref = some th) := by
  refine ⟨fun x hx => ?_, by decide, ⟨by decide, by decide, by decide, by decide, by decide, _, rfl, by decide, by decide⟩, fun k hk n hn => ?_⟩
  · simp only [List.mem_cons, List.not_mem_nil, or_false] at hx
    obtain rfl | rfl | rfl | rfl := hx <;> decide
  · simp only [List.mem_cons, List.not_mem_nil, or_false] at hk hn
    obtain rfl | rfl | rfl := hk <;> obtain rfl | rfl := hn <;> exact ⟨by decide, by decide, _, rfl⟩

/-- The flock of the copy as it stands. -/
abbrev flE' : Flock := { flE with threads := [{ th0 with cnt := ⟨0, 0, 1, 0⟩ }] }
/-- A copy operation, alone in the engine of core 0. -/
abbrev co (kind : CopyKind) (done : List Nat) (buf : List (Nat × List Byte)) : CopyOp :=
  ⟨0, one, 0, kind, copyB false, 0xFF00000000000400, 0xFF00000000001000, 3, [], [(0, 0)], done, [], buf, 0, placeRegs, 0⟩
abbrev sCpy (o : CopyOp) : State := seat { th0 with cnt := ⟨0, 0, 1, 0⟩ } flE (fun d => d.modCore 0 (fun c =>
  { c with cpy := [o], metaq := List.replicate 4 ⟨some (0, 0), []⟩ }))

set_option maxRecDepth 8000 in
/-- The first and the last unit of a copy between scratchpad addresses, and a queue copy with 64 units read. -/
theorem witness_CopyEngine_result :
    (∀ x ∈ ([([], 0), (List.range 63, 63)] : List (List Nat × Nat)),
      let o := co .copy x.1 []
      ((sCpy o).dev.core 0).cpy = [o] ∧ 0 < (sCpy o).dev.cores.length ∧ o.ctx < 64 ∧ o.kind = .copy ∧ o.targets = [(0, 0)] ∧
        x.2 < (copyBlk o.blk).units ∧ x.2 ∉ o.done ∧ o.done.length < (copyBlk o.blk).units ∧ o.held = [] ∧
        o.after.all (sCpy o).dev.isDone = true ∧ (sCpy o).dev.marks = [] ∧ (sCpy o).dev.stopped = false ∧
        (∀ y ∈ (sCpy o).dev.servers, ¬(y.kind = 2 ∧ y.inst = 0)) ∧
        ∃ f ls ld, (sCpy o).dev.flock? o.ref.core o.ref.slot = some f ∧
          steer (sCpy o).dev f 0 copyAp ((copyBlk o.blk).src o.sadr x.2).toNat = .place ls ∧
          steer (sCpy o).dev f 0 copyAp ((copyBlk o.blk).dst o.dadr x.2).toNat = .place ld) ∧
    (let o := co .q [] ((List.range 64).map (fun i => (i, bytes 16)));
      ((sCpy o).dev.core 0).cpy = [o] ∧ 0 < (sCpy o).dev.cores.length ∧ o.kind = .q ∧
        (∃ q, ((sCpy o).dev.core 0).metaq[o.m]? = some q ∧ q.bound = some (o.ref.core, o.ref.slot) ∧ q.items.length < 16) ∧
        ∀ i < 64, aget o.buf (64 * o.placed + i) = some (bytes 16)) := by
  refine ⟨fun x hx => ?_, by decide, by decide, by decide, ⟨_, rfl, by decide, by decide⟩, by decide⟩
  simp only [List.mem_cons, List.not_mem_nil, or_false] at hx
  obtain rfl | rfl := hx
  · exact ⟨by decide, by decide, by decide, by decide, by decide, by decide, by decide, by decide, by decide, by decide, by decide,
      by decide, by decide, flE', .spad 0 0 0x400, .spad 0 0 0x1000, by decide, by decide, by decide⟩
  · exact ⟨by decide, by decide, by decide, by decide, by decide, by decide, by decide, by decide, by decide, by decide, by decide,
      by decide, by decide, flE', .spad 0 0 0x7F0, .spad 0 0 0x13F0, by decide, by decide, by decide⟩


/-! ## The fabric -/

/-- Device 0 exports 64 KiB of context 1 from 0x30000 to stream 5:2, whose latest answered TAG was 6 and which keeps that answer;
the request with TAG 0 that began the stream came at CTIME 0. -/
abbrev sExp (root : Nat) (time : Nat := 0) : State := seat th0 fl0 (fun d => { (d.modCtx 1 (fun c => { c with eff :=
  { c.eff with expbase := 0x30000, expsize := 0x10000, ptroot := BitVec.ofNat 64 root } })) with
    ctime := time, mgmt := { d.mgmt with stage := 4 },
    fab := { d.fab with ins := [⟨5, 2, 6, [(6, (4, 0, []))], some (⟨1, 5, 2, 0, 1, 0, 0, 8, 0, []⟩, 0)⟩] } })
/-- A message to device 0. -/
abbrev msg (kind tag fa size : Nat) (data : List Byte) : PeerMsg := ⟨kind, 5, 2, 0, 1, tag, fa, size, 0, data⟩
/-- Page tables whose leaf maps the first GiB to the last one of host memory. -/
abbrev sExpHost : State := withMem (sExp placeRoot) 0x12000 (leBytes 8 (0xFFFFFC000003F))

/-- The request acts at a place. -/
abbrev peerActs (s : State) (m : PeerMsg) (kind : AccKind) (l : Loc) : Prop :=
  s.dev.stopped = false ∧ s.dev.mgmt.stage = 4 ∧ okRequest m = true ∧ s.dev.fab.waits = [] ∧
    kget (s.dev.streamIn m).olds m.tag = none ∧ m.tag = nextTag (s.dev.streamIn m).last ∧ s.dev.marks = [] ∧
    s.peerAsleep m = none ∧ (l.isHost = true → s.dev.mgmt.linkUp = true) ∧
    m.fa % 2 ^ 48 < (s.dev.ctx m.tctx).eff.expsize.toNat ∧ (s.dev.ctx m.tctx).eff.expbase.toNat + m.fa % 2 ^ 48 < 2 ^ 57 ∧
    s.vat m.tctx (s.dev.ctx m.tctx).eff.ptroot ((s.dev.ctx m.tctx).eff.expbase.toNat + m.fa % 2 ^ 48) kind = .at_ l

set_option maxRecDepth 8000 in
/-- A load at the first and the last bytes of the exported range, an atomic, a store into host memory; a repeated request, one
that comes too early; a request with TAG 0 that begins its stream anew, and one that repeats the first within 1 ms. -/
theorem witness_PeerRequests_result_target :
    (∀ x ∈ ([(0, 0x30000), (0xFFF8, 0x3FFF8)] : List (Nat × Nat)),
      peerActs (sExp placeRoot) (msg 1 7 x.1 8 []) .read (.dram x.2)) ∧
    (peerActs (sExp placeRoot) (msg 5 7 8 8 (bytes 8)) .atomic (.dram 0x30008) ∧ (Loc.dram 0x30008).isMx = false ∧
      ((Loc.dram 0x30008).isHost = true → hostAtom (msg 5 7 8 8 (bytes 8)).op = true)) ∧
    (peerActs sExpHost (msg 3 7 0xFFF8 8 (bytes 8)) .write (.host 0xFFFFFC003FFF8) ∧ sExpHost.MemOk) ∧
    (let s := sExp placeRoot
      let m := msg 3 6 0 8 (bytes 8);
      s.dev.stopped = false ∧ s.dev.mgmt.stage = 4 ∧ okRequest m = true ∧ s.dev.fab.waits = [] ∧
        ∃ a, kget (s.dev.streamIn m).olds m.tag = some a) ∧
    (let s := sExp placeRoot
      let m := msg 3 9 0 8 (bytes 8);
      okRequest m = true ∧ kget (s.dev.streamIn m).olds m.tag = none ∧ m.tag ≠ nextTag (s.dev.streamIn m).last) ∧
    (∀ x ∈ ([(msg 1 7 0 8 [], 0, true), (msg 1 0 0 8 [], 3999999, true), (msg 1 0 0 8 [], 4000000, false)] : List (PeerMsg × Nat × Bool)),
      let s := sExp placeRoot x.2.1
      ∃ st, s.dev.fab.ins.find? (fun y => y.src = x.1.src ∧ y.sctx = x.1.sctx) = some st ∧
        (x.2.2 = true → x.1.tag ≠ 0 ∨ ∃ t, st.first = some (x.1, t) ∧ s.dev.ctime < t + 4000000) ∧
        (x.2.2 = false → x.1.tag = 0 ∧ ¬∃ t, st.first = some (x.1, t) ∧ s.dev.ctime < t + 4000000)) := by
  refine ⟨fun x hx => ?_, by decide, ⟨by decide, show Memory.wf _ = true by decide⟩, ⟨by decide, by decide, by decide, by decide, _, rfl⟩,
    by decide, fun x hx => ?_⟩
  · simp only [List.mem_cons, List.not_mem_nil, or_false] at hx
    obtain rfl | rfl := hx <;> decide
  · simp only [List.mem_cons, List.not_mem_nil, or_false] at hx
    obtain rfl | rfl | rfl := hx
    · exact ⟨_, rfl, fun _ => .inl (by decide), fun h => absurd h (by decide)⟩
    · exact ⟨_, rfl, fun _ => .inr ⟨0, rfl, by decide⟩, fun h => absurd h (by decide)⟩
    · refine ⟨_, rfl, fun h => absurd h (by decide), fun _ => ⟨rfl, fun ⟨t, h, k⟩ => ?_⟩⟩
      obtain rfl : 0 = t := by simpa using h
      exact absurd k (by decide)

/-- A request of thread 0 outstanding at device 5, of kind `k`. -/
abbrev out (k : Nat) : PeerOut := ⟨⟨k, 0, 0, 5, 1, 9, 0, 8, 0, []⟩, 3, 2, 0⟩
abbrev sOut (k : Nat) (kind : ReqKind) (time : Nat := 0) : State := sReq [rq 3 kind (.peer 1 0) 8 []] (fun d =>
  { d with ctime := time, mgmt := { d.mgmt with stage := 4 }, fab := { d.fab with outs := [out k] },
           routetbl := [(0, 0x8000), (5, 0x132)] })

/-- Answers of a store, a load and an atomic, and a refusal. -/
theorem witness_PeerRequests_result_answers :
    ∀ x ∈ ([(3, .pst, 4, []), (1, .pld 5, 2, bytes 8), (5, .patom 0, 6, bytes 8), (1, .pld 5, 9, [])] : List (Nat × ReqKind × Nat × List Byte)),
      let s := sOut x.1 x.2.1
      let m : PeerMsg := ⟨x.2.2.1, 5, 0, 0, 1, 9, 0, 8, 0, x.2.2.2⟩
      let o := out x.1
      let q := rq 3 x.2.1 (.peer 1 0) 8 []
      s.dev.stopped = false ∧ s.dev.mgmt.stage = 4 ∧ s.dev.answered m = some o ∧ s.dev.req? o.req = some q ∧
        (∃ th, s.dev.thread? q.ref = some th ∧ th.intv = false) ∧ (m.kind = 2 ∨ m.kind = 6 → q.kind.isLoad = true) ∧
        (∀ pa, q.loc ≠ .dram pa) ∧ (q.ord = 0 ∨ q.ord = 2 ∨ q.scope < 1) ∧ q.ctx < s.dev.ctxs.length := by
  intro x hx
  simp only [List.mem_cons, List.not_mem_nil, or_false] at hx
  obtain rfl | rfl | rfl | rfl := hx <;> exact ⟨by decide, by decide, by decide, by decide, ⟨_, rfl, by decide⟩,
    by decide, (fun _ h => nomatch h), by decide, by decide⟩

set_option maxRecDepth 8000 in
/-- Flits that fail, pass through and arrive; a port with an alternate that goes down; a request that waits to be sent again; a
stream that has waited 1 ms. -/
theorem witness_FabricAndCollectives_result_ports :
    (∀ port ∈ [0, 15], let s := sOut 1 (.pld 5)
      let f (kind dst : Nat) (ok : Bool) : Flit := ⟨kind, dst, 0, ok, msg kind 7 0 8 []⟩;
      s.dev.stopped = false ∧ s.dev.mgmt.stage = 4 ∧ port < 16 ∧ ((f 1 0 false).ok = false ∧ 92 + port < s.dev.banks.length) ∧
        ((f 1 5 true).ok = true ∧ s.dev.routeOf (f 1 5 true).dst ≠ 0x8000) ∧
        ((f 1 0 true).ok = true ∧ s.dev.routeOf (f 1 0 true).dst = 0x8000 ∧ (f 1 0 true).kind ∈ [1, 3, 5]) ∧
        (f 9 0 true).ok = true ∧ s.dev.routeOf (f 9 0 true).dst = 0x8000 ∧ (f 9 0 true).kind ∈ [2, 4, 6, 9]) ∧
    (let s := sOut 1 (.pld 5);
      s.dev.stopped = false ∧ 2 < 16 ∧ 2 ∉ s.dev.fab.down ∧ s.dev.fab.colls = [] ∧
      s.dev.fab.outs.filter (fun o => o.port = 2) = [out 1] ∧
      ∀ o ∈ s.dev.fab.outs.filter (fun o => o.port = 2), bit (s.dev.routeOf o.msg.dst) 8 = true ∧
        bits (s.dev.routeOf o.msg.dst) 0 4 = 2 ∧ bits (s.dev.routeOf o.msg.dst) 4 4 ∉ 2 :: s.dev.fab.down) ∧
    (let s := (sReq []).device (fun d => { d with routetbl := [(5, 0x132)], fab := { d.fab with queue := [(0, (out 1).msg)] } });
      (0, (out 1).msg).1 < 64 ∧ (s.dev.queued 2).head? = some (0, (out 1).msg) ∧ (∀ y ∈ s.dev.queued 2, y.1 = 0) ∧
      (∀ q ∈ s.leaving s.dev 2, q.ctx = 0) ∧ ∀ v ∈ s.dev.servers, ¬(v.kind = 4 ∧ v.inst = 2)) ∧
    (let s := sOut 1 (.pld 5) 4000000;
      s.dev.stopped = false ∧ 0 < s.dev.ctxs.length ∧ ∃ o ∈ s.dev.fab.outs, o.msg.sctx = 0 ∧ o.msg.dst = 5 ∧ o.sent + 4000000 ≤ s.dev.ctime) := by
  refine ⟨?_, by decide, by decide, by decide⟩
  intro port hp
  simp only [List.mem_cons, List.not_mem_nil, or_false] at hp
  obtain rfl | rfl := hp <;> decide

/-- A participation of rank 1 of 4 in an all-reduce of 16 sums, an all-gather, a reduce-scatter and a broadcast of one element, from
pages of context 0. -/
abbrev collBlock (kind : Nat) : List Byte := block 64 [(0, 8, 0x60000), (8, 8, 0x70000), (0x10, 8, 0x80000), (0x18, 4, 1), (0x1C, 2, 2),
  (0x1E, 2, 3), (0x20, 4, 10 * 64 + kind), (0x24, 4, 9)]
abbrev coll (kind : Nat) : Coll := ⟨3, 0, one, collBlock kind, 4, 1, [0, 1, 2, 3], 0, 0, BitVec.ofNat 64 placeRoot, []⟩
abbrev sColl (kind : Nat) (time : Nat := 0) : State := seat th0 fl0 (fun d =>
  { (d.modCtx 0 (fun c => { c with eff := { c.eff with ptroot := BitVec.ofNat 64 placeRoot } })) with
    ctime := time, fab := { d.fab with colls := [coll kind] } })
abbrev given (kind : Nat) : List (List Byte) := List.replicate 4 (bytes ((collBlk (collBlock kind)).sendBytes 4))

set_option maxRecDepth 8000 in
/-- Collectives of three kinds that can complete, each kind's result, one that has waited 10 ms, and one whose next rank's port
is down. -/
theorem witness_FabricAndCollectives_result_collectives :
    (∀ kind ∈ [0, 1, 2],
      let s := sColl kind
      let c := coll kind
      let x := collBlk c.blk
      let n := x.sendBytes c.g
      let own := s.vbytes c.ctx c.ptroot x.send n
      let res := x.result ((given kind).set c.rank own) c.rank
      s.dev.fab.colls.find? (fun y => y.id = c.id) = some c ∧ s.dev.stopped = false ∧ (given kind).length = c.g ∧
        c.after.all s.dev.isDone = true ∧ s.collCut c = false ∧ x.kind ≠ 3 ∧
        (∀ q < c.g, q ≠ c.rank → ((given kind)[q]?.getD []).length = n) ∧
        s.vbad c.ctx c.ptroot x.send n .read = none ∧ s.vecc c.ctx c.ptroot x.send n .read = false ∧
        ∃ s0 s1 s2 s3, commit (vreadE c.ctx c.ptroot x.send n) s = .next s0 ∧ commit (collSend c own) s0 = .next s1 ∧
          s1.vbad c.ctx c.ptroot x.recv res.length .write = none ∧ s1.vecc c.ctx c.ptroot x.recv res.length .write = false ∧
          commit (vwriteE c.ctx c.ptroot x.recv res) s1 = .next s2 ∧
          s2.vbad c.ctx c.ptroot x.done 8 .write = none ∧ s2.vecc c.ctx c.ptroot x.done 8 .write = false ∧
          commit (vwriteE c.ctx c.ptroot x.done (leBytes 8 x.seq)) s2 = .next s3) ∧
    (∀ kind < 4, (collBlk (collBlock kind)).kind = kind) ∧
    (∀ x ∈ ([(40000000, []), (0, [0])] : List (Nat × List Nat)), let s := (sColl 0 x.1).device (fun d => { d with fab := { d.fab with down := x.2 } });
      s.dev.fab.colls.find? (fun y => y.id = (coll 0).id) = some (coll 0) ∧ s.dev.stopped = false ∧
      ((coll 0).at_ + 40000000 ≤ s.dev.ctime ∨ s.collCut (coll 0) = true) ∧
      (coll 0).ctx < s.dev.ctxs.length ∧ ∃ s1, commit (vwriteE 0 (coll 0).ptroot (collBlk (coll 0).blk).recv
        ((List.range ((collBlk (coll 0).blk).recvBytes (coll 0).g)).map (fun i => Config.undefByte s.dev.free i))) s = .next s1) := by
  refine ⟨fun k hk => ?_, by decide, fun x hx => ?_⟩ <;> simp only [List.mem_cons, List.not_mem_nil, or_false] at *
  swap
  · obtain rfl | rfl := hx <;> exact ⟨by decide, by decide, by decide, by decide, _, after_of (by decide)⟩
  obtain rfl | rfl | rfl := hk <;> exact ⟨by decide, by decide, by decide, by decide, by decide, by decide, by decide, by decide,
    by decide, _, _, _, _, after_of (by decide), after_of (by decide), by decide, by decide, after_of (by decide), by decide, by decide,
    after_of (by decide)⟩


end Sys2Proof.Tests
end

