-- ==== Sys2Proof/Tests/Witness4.lean ====
section
/-! SUPPORT. Witnesses of the statements about runs, graphs, steps, servers and contexts. -/

namespace Sys2Proof.Tests

open Sys2Proof.Machine

/-! ## Runs and flocks -/

/-- A kernel of two threads of 16 registers, as a record and as the bytes of its descriptor. -/
abbrev kern (herd : Nat) : Kern := { placeKern with desc := 0x200000, n := 16, sx := 2, scratch := 0, acc := 0, herd := herd }
abbrev kernBytes (herd : Nat) : List Byte := block 128 [(8, 8, placeCode - 8), (0x18, 2, 16), (0x1C, 2, 2), (0x1E, 2, 1), (0x20, 2, 1), (0x22, 2, herd)]
/-- A run of it over 2 × 1 × 1 flocks. -/
abbrev run (k : Kern) (done : List Nat) (b : Option Bounds) : Run :=
  { num := 1, node := none, risk := false, kern := k, gx := 2, gy := 1, gz := 1, ks := [], seed := 5, bitmap := 0x300000, cdone := 0,
    breport := 0, wins := [], queue := [0, 1].filter (fun g => g ∉ done), blocked := [], done := done, bounds := b, complete := false, meas := [] }
/-- The machine without a flock, context 0 with the pages of the placed machine, cluster 0 and some runs. -/
abbrev host0 (runs : List Run) (d : Dev) : Dev := { d.modCtx 0 (fun c =>
  { c with runs := runs, eff := { c.eff with ptroot := BitVec.ofNat 64 placeRoot } }) with vdclus := d.vdclus.set 0 1, issuing := none }
abbrev sRun (runs : List Run) : State := seat th0 fl0 (fun d => { host0 runs d with flocks := [] })
/-- A flock of the run, all its threads ended or not. -/
abbrev member (ended committed : Bool) : Flock :=
  { fl0 with kern := kern 1, run := 1, g := 0, committed := committed,
             threads := (List.range 2).map (fun t => { th0 with t := t, ended := if ended then some .exited else none }) }
abbrev sHeld (f : Flock) (D : Dev → Dev := id) : State :=
  seat th0 fl0 (fun d => D { host0 [{ run (kern 1) [] none with queue := [1] }] d with flocks := [f] })

set_option maxRecDepth 8000 in
/-- A context's next flock, and its next herd of two. -/
theorem witness_FlockLife_result_place :
    (let s := sRun [run (kern 1) [] none];
      ∃ g core slot, s.dev.nextSpot 0 = some (run (kern 1) [] none, [(g, core)]) ∧ s.dev.isTurn 0 = true ∧ (kern 1).herd = 1 ∧
        s.dev.run? 0 1 = some (run (kern 1) [] none) ∧ s.dev.freeSlot core = some slot) ∧
    (let s := sRun [run (kern 2) [] none];
      ∃ ps, s.dev.nextSpot 0 = some (run (kern 2) [] none, ps) ∧ s.dev.isTurn 0 = true ∧ 1 < (kern 2).herd ∧
        s.dev.run? 0 1 = some (run (kern 2) [] none) ∧ (ps.map (·.2)).Nodup ∧ (∀ p ∈ ps, (s.dev.freeSlot p.2).isSome = true) ∧ ps.length = 2) :=
  ⟨⟨0, 0, 0, by decide, by decide, by decide, by decide, by decide⟩,
    ⟨[(0, 0), (1, 1)], by decide, by decide, by decide, by decide, by decide, by decide, rfl⟩⟩

set_option maxRecDepth 8000 in
/-- A flock that can complete, alone and with its herd's state, one at a drain's limit, one that is aborted. -/
theorem witness_FlockLife_result_end :
    (let s := sHeld (member true true)
      let f := member true true
      let a := 0x300000 + f.g / 8;
      ∃ r w s0 s1 r1, s.dev.flock? 0 0 = some f ∧ f.dead = false ∧ f.finished = false ∧ f.tile = none ∧
        (f.threads ++ f.inst.toList).all (fun th => th.ended.isSome && th.quiet && th.seen.all s.dev.reached) = true ∧ s.dev.stopped = false ∧
        (∀ o ∈ (s.dev.core 0).mat, ¬(o.ref.core = 0 ∧ o.ref.slot = 0)) ∧ (∀ o ∈ (s.dev.core 0).cpy, ¬(o.ref.core = 0 ∧ o.ref.slot = 0)) ∧
        s.dev.run? f.ctx f.run = some r ∧ r.bitmap.toNat + f.g / 8 = a ∧ readsWord s f.ctx a 1 w s0 ∧
        writesWord s0 f.ctx a (leBytes 1 (leNat w ||| 2 ^ (f.g % 8))) s1 ∧
        s1.dev.flock? 0 0 = some f ∧ s1.dev.run? f.ctx f.run = some r1 ∧ f.g ∉ r1.done ∧ r1.done.length + 1 < r1.count ∧
        f ∈ s1.dev.herdOf f ∧ (∀ x ∈ s1.dev.herdOf f, x.finished = true ∨ (x.core = 0 ∧ x.slot = 0)) ∧ f.ctx < s1.dev.ctxs.length ∧
        ∃ s2, commit (herdFree 0 0) (s1.device (fun d => d.modRun f.ctx f.run (fun r =>
          if r.done.contains f.g then r else { r with done := r.done ++ [f.g] }))) = .next s2) ∧
    (let s := sHeld (member false false) (fun d => d.modCtx 0 (fun c => { c with cstate := .draining }))
      let f := member false false;
      ∃ r, s.dev.flock? 0 0 = some f ∧ f.dead = false ∧ f.committed = false ∧ f.tile = none ∧ f.hidx < 4 ∧
        (s.dev.ctx f.ctx).cstate = .draining ∧ s.dev.drainEnd f.ctx ≤ s.dev.ctime ∧ s.dev.herdOf f = [f] ∧
        s.dev.run? f.ctx f.run = some r ∧ f.ctx < s.dev.ctxs.length) ∧
    (let f := { member false false with dead := true, threads := [] }
      let s := sHeld f;
      s.dev.flock? 0 0 = some f ∧ f.dead = true ∧ ∀ q ∈ s.dev.reqs, ¬(q.ref.core = 0 ∧ q.ref.slot = 0)) := by
  refine ⟨⟨{ run (kern 1) [] none with queue := [1] }, [0], _, _, { run (kern 1) [] none with queue := [1] }, by decide, by decide, by decide, by decide, by decide, by decide, by decide, by decide, by decide,
    by decide, reads_of (by decide) (by decide) (by decide) (by decide), writes_of (by decide) (by decide) (by decide), by decide, by decide, by decide, by decide, by decide, by decide, by decide, _, after_of (by decide)⟩,
    ⟨{ run (kern 1) [] none with queue := [1] }, by decide, by decide, by decide, by decide, by decide, by decide, by decide, by decide, by decide, by decide⟩, by decide⟩

/-- Context 0 walks a step in which that run is done. -/
abbrev sDone (r : Run) : State := sRun [r] |>.device (fun d => d.modCtx 0 (fun c =>
  { c with step := some ⟨⟨0x500000, 7, 0⟩, 4, 4, 0x400000, 0x600000, [], false, false, [], false, false⟩ }))
abbrev runDone (node : Option Nat) (cdone : W64) : Run := { run (kern 1) [0, 1] none with node := node, cdone := cdone }

set_option maxRecDepth 8000 in
/-- A run whose flocks are done, of no node and of a node, with a completion word and without. -/
theorem witness_FlockLife_result_run :
    ∀ node ∈ [none, some 2], ∀ cdone ∈ [(0 : W64), 0x600000],
      let r := runDone node cdone
      let s := sDone r
      ∃ s1, s.dev.run? 0 1 = some r ∧ r.complete = false ∧ r.count ≤ r.done.length ∧ r.bounds = none ∧ s.dev.walking 0 = true ∧
        (if r.cdone = 0 then s1 = s else writesWord s 0 r.cdone.toNat (leBytes 8 1) s1) ∧ s1.dev.walking 0 = true ∧
        (r.node = none ∨ r.node = some 2) ∧ r.risk = false := by
  intro node hn cdone hc
  simp only [List.mem_cons, List.not_mem_nil, or_false] at hn hc
  obtain rfl | rfl := hc
  · obtain rfl | rfl := hn <;> exact ⟨_, by decide, by decide, by decide, by decide, by decide, rfl, by decide, by decide, by decide⟩
  · obtain rfl | rfl := hn <;>
      exact ⟨_, by decide, by decide, by decide, by decide, by decide, writes_of (by decide) (by decide) (by decide), by decide, by decide,
        by decide⟩

/-- A LAUNCH block of that kernel. -/
abbrev launchB (gx nargs : Nat) (kdesc : Nat := 0x200000) : List Byte := block 64 [(0, 8, kdesc), (0x10, 2, gx), (0x12, 2, 1), (0x14, 2, 1), (0x16, 2, nargs), (0x28, 8, 0x300000)]
/-- A thread that waits for the answer of its LAUNCH. -/
abbrev thL (b : List Byte) : Thread := { th0 with wait := .launch 5 b }
abbrev sLaunch (b : List Byte) : State := withMem (seat (thL b) fl0 (host0 [])) 0x200000 (kernBytes 1)

/-- The answer of an acceptance. -/
def acceptOf : Accept → Option (Option Run)
  | .ok r => some (some r)
  | .refuse none => some none
  | _ => none
def unread : Accept → Bool
  | .unreadable => true
  | _ => false
theorem ok_of {a : Accept} {r : Run} (h : acceptOf a = some (some r)) : a = .ok r := by
  unfold acceptOf at h
  split at h <;> simp_all
theorem refuse_of {a : Accept} (h : acceptOf a = some none) : a = .refuse none := by
  unfold acceptOf at h
  split at h <;> simp_all
theorem unread_of {a : Accept} (h : unread a = true) : a = .unreadable := by
  cases a <;> simp_all [unread]

set_option maxRecDepth 8000 in
/-- A LAUNCH that is accepted, one that is refused, one whose descriptor has no page, and blocks that are refused whatever the
rest. -/
theorem witness_RunsAndTiles_result_launch :
    (let s := sLaunch (launchB 2 0)
      ∃ f th run s1 s2, s.dev.flock? 0 0 = some f ∧ f.thread? 0 = some th ∧ th.wait = .launch 5 (launchB 2 0) ∧
        (s.dev.inFlight one).all (fun q => !q.pendingAt false) = true ∧ th.seen.all s.dev.reached = true ∧
        s.dev.stopped = false ∧ (s.dev.ctx f.ctx).cstate ≠ .errstop ∧ acceptRun s f.ctx (launchB 2 0) th.lb none false = .ok run ∧
        commit (acceptE f.ctx (launchB 2 0) (some run.kern.wins)) s = .next s1 ∧ (s1.dev.ctx f.ctx).cstate ≠ .errstop ∧
        writesWord s1 f.ctx run.bitmap.toNat (List.replicate (ceilDiv run.count 8) 0) s2) ∧
    (let s := sLaunch (launchB 2 257)
      ∃ f th s1, s.dev.flock? 0 0 = some f ∧ f.thread? 0 = some th ∧ th.wait = .launch 5 (launchB 2 257) ∧
        (s.dev.inFlight one).all (fun q => !q.pendingAt false) = true ∧ th.seen.all s.dev.reached = true ∧
        s.dev.stopped = false ∧ (s.dev.ctx f.ctx).cstate ≠ .errstop ∧ acceptRun s f.ctx (launchB 2 257) th.lb none false = .refuse none ∧
        commit (acceptE f.ctx (launchB 2 257) none) s = .next s1) ∧
    (let b := launchB 2 0 0x700000000000
      let s := sLaunch b
      ∃ f th s1, s.dev.flock? 0 0 = some f ∧ f.thread? 0 = some th ∧ th.wait = .launch 5 b ∧
        (s.dev.inFlight one).all (fun q => !q.pendingAt false) = true ∧ th.seen.all s.dev.reached = true ∧
        s.dev.stopped = false ∧ (s.dev.ctx f.ctx).cstate ≠ .errstop ∧ acceptRun s f.ctx b th.lb none false = .unreadable ∧
        commit (acceptE f.ctx b none) s = .next s1) ∧
    (∀ b ∈ [launchB 0 0, launchB 2 257], (launchBlk b).gx = 0 ∨ (launchBlk b).gy = 0 ∨ (launchBlk b).gz = 0 ∨
      256 < (launchBlk b).nargs) := by
  refine ⟨⟨_, _, { run (kern 1) [] none with num := 0, seed := 0 }, _, _, rfl, rfl, rfl, by decide, by decide, by decide, by decide, ok_of (by decide), after_of (by decide), by decide,
    writes_of (by decide) (by decide) (by decide)⟩,
    ⟨_, _, _, rfl, rfl, rfl, by decide, by decide, by decide, by decide, refuse_of (by decide), after_of (by decide)⟩,
    ⟨_, _, _, rfl, rfl, rfl, by decide, by decide, by decide, by decide, unread_of (by decide), after_of (by decide)⟩, by decide⟩

/-- A bounds run with tiles queued, running and settled; its tile of 8 elements. -/
abbrev tile (depth : Nat) : Tile := ⟨0, depth, 0, 3, 0, 0, 0, 0⟩
abbrev bounds (queue running : List Tile) : Bounds := ⟨8, 1, 100, 1, queue, running, [], []⟩
/-- An evaluation flock of the tile whose threads ended so, and of which the first stored or not. -/
abbrev evals (depth : Nat) (e : Ended) (st : Bool) : Flock := { member true false with
  tile := some (tile depth),
  threads := (List.range 2).map (fun t => { th0 with t := t, intv := true, ended := some e, iv := ⟨[], [], 0, [], st⟩ }) }
abbrev runT (b : Bounds) : Run := { run (kern 1) [] (some b) with queue := [] }
abbrev sTile (f : Flock) (b : Bounds) : State := seat th0 fl0 (fun d => { host0 [runT b] d with flocks := [f] })

set_option maxRecDepth 8000 in
/-- A tile at the head of its queue, with room and budget, and one beyond the budget. -/
theorem witness_RunsAndTiles_result_place :
    (let b := { bounds [tile 0] [] with budget := 1 }
      let r := run (kern 1) [] (some b)
      let s := sRun [r]
      s.dev.run? 0 1 = some r ∧ r.bounds = some b ∧ b.queue = tile 0 :: [] ∧ (s.dev.ctx 0).cstate = .running ∧ s.dev.stopped = false ∧
        b.budget < ((tile 0).ids r.kern).length) ∧
    let b := bounds [tile 0] []
    let r := run (kern 1) [] (some b)
    let s := sRun [r]
    s.dev.run? 0 1 = some r ∧ r.num = 1 ∧ r.bounds = some b ∧ b.queue = tile 0 :: [] ∧ (s.dev.ctx 0).cstate = .running ∧
      s.dev.stopped = false ∧ ((tile 0).ids r.kern).length ≤ b.budget ∧
      ((tile 0).flocks r).all (fun x => r.wins.all (fun w => w.met (s.dev.ctx 0) x)) = true ∧
      s.dev.bestCore ((s.dev.homes 0).flatMap coresOf) r.kern ((tile 0).ids r.kern) true = some 0 ∧ s.dev.freeSlot 0 = some 0 ∧
      0 < s.dev.ctxs.length := by decide

set_option maxRecDepth 8000 in
/-- A tile that splits, one that is a SCATTER leaf at the depth's limit, one that settles, and one that is done without a fill. -/
theorem witness_RunsAndTiles_result_outcome :
    ∀ x ∈ ([(0, .unknown, false), (1, .unknown, false), (0, .exited, true), (0, .exited, false)] : List (Nat × Ended × Bool)),
      let f := evals x.1 x.2.1 x.2.2
      let b := bounds [] [tile x.1]
      let s := sTile f b
      let r := runT b
      let unknown := f.threads.any (fun th => th.ended = some .unknown)
      let gone := b.running.filter (· ≠ tile x.1)
      let b' := if unknown then (if x.1 < b.depth then
          { b with running := gone, splits := b.splits ++ [tile x.1], queue := b.queue ++ (tile x.1).quarters b }
        else { b with running := gone, leaves := b.leaves ++ [(tile x.1, 3)], queue := b.queue.filter (· ≠ tile x.1) })
        else { b with running := gone, leaves := b.leaves ++ [(tile x.1, if x.2.2 then 1 else 0)], queue := b.queue.filter (· ≠ tile x.1) }
      s.dev.flock? 0 0 = some f ∧ f.tile = some (tile x.1) ∧ f.dead = false ∧ s.dev.run? f.ctx f.run = some r ∧ r.bounds = some b ∧
        s.dev.stopped = false ∧ f.threads.all (fun th => th.ended.isSome) = true ∧ f.ctx < s.dev.ctxs.length ∧
        r.done.length < r.count ∧ (∀ g ∈ r.queue, ({ r with bounds := some b' } : Run).spawn g ≠ some []) ∧
        ((unknown = true ∧ x.1 < b.depth) ∨ (unknown = true ∧ b.depth ≤ x.1) ∨
          (unknown = false ∧ f.threads.any (fun th => th.iv.stored) = true) ∨
          (unknown = false ∧ f.threads.any (fun th => th.iv.stored) = false ∧ f.fillList (tile x.1) = [])) := by
  intro x hx
  simp only [List.mem_cons, List.not_mem_nil, or_false] at hx
  obtain rfl | rfl | rfl | rfl := hx <;> decide

/-- A tile of one element, and its evaluation flock: thread 0 has recorded a fill of a word in its vault. -/
abbrev tile1 : Tile := ⟨0, 0, 0, 0, 0, 0, 0, 0⟩
abbrev fillF : Flock := { evals 0 .exited false with
  tile := some tile1,
  threads := (List.range 2).map (fun t => { th0 with
    t := t, intv := true, ended := some .exited,
    iv := ⟨[], [], 0, if t = 0 then [⟨BitVec.ofNat 64 (0xFD * 2 ^ 56 + 64), 0, 0, 9, 4⟩] else [], false⟩ }),
  regs := { fl0.regs with vwsize := 0x1000 } }

/-- The place of a fill, where it has one. -/
def fillsAt : FillTo → Option (Loc × Bool)
  | .at_ l nc => some (l, nc)
  | _ => none
theorem fill_of {x : FillTo} {l : Loc} {nc : Bool} (h : fillsAt x = some (l, nc)) : x = .at_ l nc := by
  cases x <;> simp_all [fillsAt]

set_option maxRecDepth 8000 in
/-- A tile that is done with a fill in a vault; a flock that lies in a tile that is done. -/
theorem witness_RunsAndTiles_result_fill :
    (let b := bounds [] [tile1]
      let f := fillF
      let s := sTile f b
      let x : FillAt := ⟨0, BitVec.ofNat 64 (0xFD * 2 ^ 56 + 64), 4, 9⟩
      ∃ s1, s.dev.flock? 0 0 = some f ∧ f.tile = some tile1 ∧ f.dead = false ∧ s.dev.run? f.ctx f.run = some (runT b) ∧
        (runT b).bounds = some b ∧ s.dev.stopped = false ∧ f.threads.all (fun th => th.ended.isSome) = true ∧
        f.threads.any (fun th => th.ended = some .unknown) = false ∧ f.threads.any (fun th => th.iv.stored) = false ∧
        f.fillList tile1 = [x] ∧ fillTo s f x = .at_ (.vault 0 64) false ∧
        steer s.dev f x.t ⟨false, true, true⟩ x.a.toNat = .place (.vault 0 64) ∧ s.dev.marks = [] ∧
        commit ((pointWrite (fillWho s.dev f x.t false) .plain (.vault 0 64) (leBytes x.w x.val.toNat)).andThen
          (discard (fun y => y.core = 0 ∧ y.slot = 0))) s = .next s1) ∧
    (let r := { run (kern 1) [] (some { bounds [] [] with leaves := [(⟨0, 0, 0, 1, 0, 0, 0, 0⟩, 0)] }) with num := 1 }
      let s := sDone r
      let a := r.bitmap.toNat + 0 / 8
      ∃ w s0 s1, s.dev.run? 0 1 = some r ∧ r.queue.filter (fun g => r.spawn g = some []) = [0] ∧ s.dev.walking 0 = true ∧
        readsWord s 0 a 1 w s0 ∧ writesWord s0 0 a (leBytes 1 (leNat w ||| 2 ^ (0 % 8))) s1 ∧ s1.dev.walking 0 = true) :=
  ⟨⟨_, by decide, by decide, by decide, by decide, by decide, by decide, by decide, by decide, by decide, by decide, fill_of (by decide), by decide,
      by decide, after_of (by decide)⟩,
    ⟨[0], _, _, by decide, by decide, by decide, reads_of (by decide) (by decide) (by decide) (by decide),
      writes_of (by decide) (by decide) (by decide), by decide⟩⟩


/-! ## Graphs -/

/-- A node stands due, as a Boolean. -/
def standsNode (s : State) (ctx i kind : Nat) (st : Machine.Step) (b : List Byte) : Bool :=
  decide ((s.dev.ctx ctx).step = some st) && !s.dev.stopped && decide ((s.dev.ctx ctx).cstate = .running) && decide (i < st.nnodes) &&
    decide (s.nodeBytes ctx st i = some b) && decide ((nodeHead b).kind = kind) && decide ((st.node i).st = .idle) &&
    decide ((st.node i).taken + (st.node i).skips = (nodeHead b).npred) && decide (i = 0 ∨ (st.node i).taken ≠ 0 ∨ kind = 6) &&
    decide ((nodeHead b).bad b st.nnodes = none) && goes (nodeReadE ctx st i) s && (after (nodeReadE ctx st i) s).dev.walking ctx
theorem node_of {s : State} {ctx i kind : Nat} {st : Machine.Step} {b : List Byte} (h : standsNode s ctx i kind st b = true) :
    nodeStands s ctx i kind st b (after (nodeReadE ctx st i) s) := by
  simp only [standsNode, Bool.and_eq_true, decide_eq_true_eq, Bool.not_eq_true'] at h
  obtain ⟨⟨⟨⟨⟨⟨⟨⟨⟨⟨⟨h1, h2⟩, h3⟩, h4⟩, h5⟩, h6⟩, h7⟩, h8⟩, h9⟩, h10⟩, h11⟩, h12⟩ := h
  exact ⟨h1, h2, h3, h4, h5, h6, h7, h8, h9, h10, after_of h11, h12⟩

/-- A step of four nodes at 0x400000, some of them as in `l`. -/
abbrev stp (l : List Node) : Machine.Step :=
  ⟨⟨0x500000, 7, 0⟩, 4, 4, 0x400000, 0x600000, l, false, false, [], false, false⟩
/-- Node bytes: kind, successors 1, 2, …, further fields. -/
abbrev nodeB (kind nsucc : Nat) (l : List (Nat × Nat × Nat)) : List Byte :=
  block 64 ([(0, 1, kind), (1, 1, nsucc), (4, 2, 1), (6, 2, 2)] ++ l)
/-- Context 0 walks the step; node 0 is `b`, and a word or block stands at 0x700000. -/
abbrev noFlock (d : Dev) : Dev := { host0 [] d with flocks := [] }
abbrev sNode (l : List Node) (b w : List Byte) (D : Dev → Dev := id) : State :=
  withMem (withMem (seat th0 fl0 (fun d => D ((noFlock d).modCtx 0 (fun c => { c with step := some (stp l) })))) 0x400000 b) 0x700000 w
/-- A node's record. -/
abbrev node (i : Nat) (st : NodeSt) (taken iters : Nat) (woke : Bool) (mask : Nat) : Node := ⟨i, st, taken, 0, iters, false, 0, woke, mask⟩

set_option maxRecDepth 8000 in
/-- RUN with a legal block. -/
theorem witness_Graph_result_run :
    ∃ s st b s1 blk s2 run s3 s4, nodeStands s 0 0 0 st b s1 ∧ readsWord s1 0 (field b 0x10 8) 64 blk s2 ∧
      acceptRun s2 0 blk ⟨0, 0, 0, 0⟩ (some 0) false = .ok run ∧ commit (acceptE 0 blk (some run.kern.wins)) s2 = .next s3 ∧ s3.dev.walking 0 = true ∧
      run.node = some 0 ∧ writesWord s3 0 run.bitmap.toNat (List.replicate (ceilDiv run.count 8) 0) s4 :=
  ⟨withMem (sNode [] (nodeB 0 1 [(0x10, 8, 0x700000)]) (launchB 2 0)) 0x200000 (kernBytes 1), stp [], nodeB 0 1 [(0x10, 8, 0x700000)], _, launchB 2 0, _,
    { run (kern 1) [] none with num := 0, seed := 0, node := some 0 }, _, _, node_of (by decide),
    reads_of (by decide) (by decide) (by decide) (by decide), ok_of (by decide), after_of (by decide), by decide, rfl,
    writes_of (by decide) (by decide) (by decide)⟩

set_option maxRecDepth 8000 in
/-- COND and LOOP: the body, the exit by the word, and the exit by the limit; END. -/
theorem witness_Graph_result_choices :
    (∃ s st b s1 w s2, nodeStands s 0 0 1 st b s1 ∧ readsWord s1 0 (field b 0x10 8) 4 w s2) ∧
    (∀ x ∈ ([(1, 0, 0), (0, 0, 0), (1, 3, 3)] : List (Nat × Nat × Nat)), ∃ s s1 s2,
      let st := stp [node 0 .idle 0 x.2.2 false 0]
      let b := nodeB 2 2 [(0x10, 8, 0x700000), (0x18, 2, 1), (0x1A, 2, 1), (0x1C, 4, x.2.1)]
      nodeStands s 0 0 2 st b s1 ∧ readsWord s1 0 (field b 0x10 8) 4 (leBytes 4 x.1) s2 ∧
        ((leNat (leBytes 4 x.1) ≠ 0 ∧ (field b 0x1C 4 = 0 ∨ (st.node 0).iters < field b 0x1C 4)) ∨
          (leNat (leBytes 4 x.1) = 0 ∨ (field b 0x1C 4 ≠ 0 ∧ field b 0x1C 4 ≤ (st.node 0).iters)))) ∧
    (∃ s st b s1, nodeStands s 0 0 6 st b s1) := by
  refine ⟨⟨sNode [] (nodeB 1 2 [(0x10, 8, 0x700000)]) (leBytes 4 9), stp [], nodeB 1 2 [(0x10, 8, 0x700000)], _, leBytes 4 9, _,
    node_of (by decide), reads_of (by decide) (by decide) (by decide) (by decide)⟩, fun x hx => ?_,
    sNode [] (nodeB 6 0 []) [], stp [], nodeB 6 0 [], _, node_of (by decide)⟩
  refine ⟨sNode [node 0 .idle 0 x.2.2 false 0] (nodeB 2 2 [(0x10, 8, 0x700000), (0x18, 2, 1), (0x1A, 2, 1), (0x1C, 4, x.2.1)]) (leBytes 4 x.1), _, _,
    node_of ?_, reads_of ?_ ?_ ?_ ?_, ?_⟩ <;>
    (simp only [List.mem_cons, List.not_mem_nil, or_false] at hx; obtain rfl | rfl | rfl := hx <;> decide)

set_option maxRecDepth 8000 in
/-- An edge to an ordinary node that misses one, and a resolved node without a successor. -/
theorem witness_Graph_result_edges :
    (let s := sNode [] (nodeB 0 0 [(2, 2, 1)]) []
      ∃ st b, (s.dev.ctx 0).step = some st ∧ s.nodeBytes 0 st 0 = some b ∧ (nodeHead b).kind ≠ 2 ∧ (st.node 0).st = .idle ∧
        (st.node 0).taken + (st.node 0).skips < (nodeHead b).npred) ∧
    (let s := sNode [] (nodeB 4 0 []) []
      ∃ st b, (s.dev.ctx 0).step = some st ∧ s.nodeBytes 0 st 0 = some b ∧ (nodeHead b).succ = []) :=
  ⟨⟨stp [], nodeB 0 0 [(2, 2, 1)], by decide, by decide, by decide, by decide, by decide⟩,
    ⟨stp [], nodeB 4 0 [], by decide, by decide, by decide⟩⟩

/-- Two nodes that miss an edge each; a LOOP over nodes 1 and 2, each of which leads back to it. -/
abbrev twoB : List Byte := nodeB 1 2 [] ++ nodeB 0 0 [(2, 2, 1)] ++ nodeB 0 0 [(2, 2, 1)]
abbrev loopB : List Byte := nodeB 2 2 [(0x10, 8, 0x700000), (0x18, 2, 1), (0x1A, 2, 2)]
abbrev backB : List Byte := block 64 [(0, 1, 4), (1, 1, 1), (2, 2, 1)]
abbrev inLoop (backs : Nat) : Node := { node 0 .performed 0 0 false 0 with inBody := true, backs := backs }

set_option maxRecDepth 8000 in
/-- A resolved node with two successors; a LOOP's first and last back edge. -/
theorem witness_Graph_result_successors :
    (let s := sNode [] twoB []
      ∃ st b, (s.dev.ctx 0).step = some st ∧ (s.dev.ctx 0).cstate ≠ .errstop ∧ s.nodeBytes 0 st 0 = some b ∧ 0 ∉ (nodeHead b).succ ∧
        (nodeHead b).succ = [1, 2] ∧
        (∀ j ∈ (nodeHead b).succ, ∃ bj, s.nodeBytes 0 st j = some bj ∧ (nodeHead bj).kind ≠ 2 ∧ (st.node j).st = .idle ∧
          (st.node j).taken + (st.node j).skips + (nodeHead b).succ.count j ≤ (nodeHead bj).npred)) ∧
    (∀ k ∈ [0, 1], let s := sNode [inLoop k] (loopB ++ backB ++ backB) []
      ∃ st, (s.dev.ctx 0).step = some st ∧ s.nodeBytes 0 st 0 = some loopB ∧ (nodeHead loopB).kind = 2 ∧
        (st.node 0).st = .performed ∧ (st.node 0).inBody = true ∧ field loopB 0x18 2 ≤ 2 ∧ 2 ≤ field loopB 0x1A 2 ∧
        ((st.node 0).backs + 1 < s.backEdges 0 st 0 (field loopB 0x18 2, field loopB 0x1A 2) ↔ k = 0)) := by
  refine ⟨⟨stp [], nodeB 1 2 [], by decide, by decide, by decide, by decide, by decide, fun j hj => ⟨nodeB 0 0 [(2, 2, 1)], ?_⟩⟩, fun k hk => ?_⟩
  · have hs : (nodeHead (nodeB 1 2 [])).succ = [1, 2] := by decide
    rw [hs] at hj
    simp only [List.mem_cons, List.not_mem_nil, or_false] at hj
    obtain rfl | rfl := hj <;> decide
  · simp only [List.mem_cons, List.not_mem_nil, or_false] at hk
    obtain rfl | rfl := hk
    · exact ⟨stp [inLoop 0], by decide, by decide, by decide, by decide, by decide, by decide, by decide, by decide⟩
    · exact ⟨stp [inLoop 1], by decide, by decide, by decide, by decide, by decide, by decide, by decide, by decide⟩

/-- A WAITV node: equal to 5. -/
abbrev waitB : List Byte := nodeB 3 1 [(0x10, 8, 0x700000), (0x18, 4, 5), (0x1C, 1, 0)]
abbrev testB : List Byte := nodeB 5 1 [(0x10, 8, 2 ^ 63 + 1), (0x18, 1, 3)]
abbrev sTestNode : State := sNode [] testB [] (fun d => { d with dies := d.dies.map (fun x => { x with powered := true }) })
abbrev signalB : List Byte := nodeB 4 1 [(0x10, 8, 0x700000), (0x18, 8, 77)]

set_option maxRecDepth 8000 in
/-- WAITV that holds, WAITV that waits in its slice's table, and its wake. -/
theorem witness_Graph_result_waits :
    (∃ s1 s2, nodeStands (sNode [] waitB (leBytes 4 5)) 0 0 3 (stp []) waitB s1 ∧ readsWord s1 0 (field waitB 0x10 8) 4 (leBytes 4 5) s2 ∧
      cmpHolds (2 * (field waitB 0x1C 1 % 4)) (leNat (leBytes 4 5)) (field waitB 0x18 4) = true) ∧
    (∃ s1 s2 l, nodeStands (sNode [] waitB (leBytes 4 6)) 0 0 3 (stp []) waitB s1 ∧ readsWord s1 0 (field waitB 0x10 8) 4 (leBytes 4 6) s2 ∧
      cmpHolds (2 * (field waitB 0x1C 1 % 4)) (leNat (leBytes 4 6)) (field waitB 0x18 4) = false ∧
      s2.vat 0 (s2.dev.ctx 0).eff.ptroot (field waitB 0x10 8) .read = .at_ l ∧ l.isHost = false ∧
      (s2.dev.vault (s2.dev.watchHome l)).watch.length < 128) ∧
    (let st := stp [node 0 .busy 0 0 true 0]
      let s := sNode [node 0 .busy 0 0 true 0] waitB []
      (s.dev.ctx 0).step = some st ∧ s.dev.stopped = false ∧ (s.dev.ctx 0).cstate = .running ∧ (st.node 0).st = .busy ∧
        s.nodeBytes 0 st 0 = some waitB ∧ (nodeHead waitB).kind = 3 ∧ (st.node 0).woke = true) :=
  ⟨⟨_, _, node_of (by decide), reads_of (by decide) (by decide) (by decide) (by decide), by decide⟩,
    ⟨_, _, .dram 0x700000, node_of (by decide), reads_of (by decide) (by decide) (by decide) (by decide), by decide, by decide, by decide, by decide⟩,
    by decide⟩

set_option maxRecDepth 8000 in
/-- SIGNAL; TEST of the first and last cluster without a flock, the first being powered; TEST that has ended. -/
theorem witness_Graph_result_signals :
    (∃ s1 s2, nodeStands (sNode [] signalB []) 0 0 4 (stp []) signalB s1 ∧
      writesWord s1 0 (field signalB 0x10 8) (leBytes 8 (field signalB 0x18 8)) s2 ∧ field signalB 0x20 4 = 0) ∧
    (∃ s1, nodeStands sTestNode 0 0 5 (stp []) testB s1 ∧ s1.MemOk ∧ s1.dev.clusters.length = 64 ∧ s1.dev.vaults.length = 64 ∧
      s1.dev.banks.length = 128 ∧ s1.dev.stopped = false ∧ s1.dev.mgmt.tests = [] ∧ s1.dev.marks = [] ∧
      (s1.dev.ctx 0).eff.csave.toNat % 64 = 0 ∧ inDram (s1.dev.ctx 0).eff.csave.toNat = true ∧ (field testB 0x10 8).testBit 0 = true ∧ s1.dev.emptyFor 0 = true ∧ ∀ f ∈ s1.dev.flocks, f.ctx = 0 → (field testB 0x10 8).testBit (f.core / 4) = false) ∧
    (let st := stp [node 0 .busy 0 0 true (2 ^ 63 + 1)]
      let s := sNode [node 0 .busy 0 0 true (2 ^ 63 + 1)] testB [] (fun d => { d with banks := d.banks.set 127 ⟨0, BitVec.ofNat 64 (2 ^ 64 - 1), 0, 0⟩ })
      (s.dev.ctx 0).step = some st ∧ s.dev.stopped = false ∧ (s.dev.ctx 0).cstate = .running ∧ (st.node 0).st = .busy ∧
        s.nodeBytes 0 st 0 = some testB ∧ (nodeHead testB).kind = 5 ∧ (st.node 0).woke = true ∧
        (s.dev.bank 127).addr.toNat &&& (st.node 0).mask = (st.node 0).mask) :=
  ⟨⟨_, _, node_of (by decide), writes_of (by decide) (by decide) (by decide), by decide⟩,
    ⟨_, node_of (by decide), show Memory.wf _ = true by decide, by decide, by decide, by decide, by decide, by decide, by decide, by decide, by decide, by decide, by decide, by decide⟩, by decide⟩


/-! ## Steps, servers, admission -/

/-- Full function, without a flock; context 0 changed by `f`; a structure at 0x700000. -/
abbrev stage4 (d : Dev) : Dev := { d with mgmt := { d.mgmt with stage := 4 } }
abbrev sCtx (f : Ctx → Ctx) (w : List Byte) : State :=
  withMem (seat th0 fl0 (fun d => (stage4 (noFlock d)).modCtx 0 f)) 0x700000 w
/-- A step header: 4 nodes at 0x400000, DEADLINE 5, DONE at 0x600000. -/
abbrev headerB : List Byte := block 64 [(0, 4, 4), (4, 4, 4), (8, 8, 5), (0x10, 8, 0x400000), (0x18, 8, 0x600000)]
abbrev headEntry : Entry := ⟨0x700000, 7, 0⟩
abbrev withEntry (c : Ctx) : Ctx :=
  { c with entries := [headEntry], regs := { c.regs with ptroot := BitVec.ofNat 64 placeRoot, csave := 0x500000, csavesz := 0x1000, sqlog := 4 } }
abbrev ended (sig : Bool) : Machine.Step := { stp [] with entry := headEntry, done := if sig then 0x600000 else 0, ending := true }

set_option maxRecDepth 8000 in
/-- A doorbell of one entry, of none and of the last but one, around the ring's end; a step that can begin; a step that completes, with a completion signal and without. -/
theorem witness_StepLife_result :
    (∀ val ∈ [0, 14, 15, 16], let s := sCtx (fun c => { c with sqhead := 15, regs := { c.regs with sqbase := 0x700000, sqlog := 4 } }) []
      let c := s.dev.ctx 0
      let n := 2 ^ c.regs.sqlog.toNat;
      s.dev.mayAct .pf 0 = true ∧ s.dev.stopped = false ∧ 4 ≤ c.regs.sqlog.toNat ∧ c.regs.sqlog.toNat ≤ 12 ∧ s.dev.marks = [] ∧
        ∀ i ∈ (List.range ((val % n + n - c.sqhead % n) % n)).map (fun i => (c.sqhead + i) % n),
          inRegion (c.regs.sqbase.toNat + 16 * i) = true) ∧
    (let s := sCtx withEntry headerB
      let c := s.dev.ctx 0
      ∃ s1 s2 s3, s.dev.stopped = false ∧ c.entries = headEntry :: [] ∧ c.cstate = .running ∧ c.step = none ∧ c.regs.csave ≠ 0 ∧
        c.regs.csavesz ≠ 0 ∧ readsWord (s.device (fun d => d.modCtx 0 (fun c => { c with eff := c.regs }))) 0 headEntry.step.toNat 64 headerB s1 ∧
        0 < field headerB 0 4 ∧ field headerB 0 4 ≤ 65535 ∧ field headerB 0x10 8 % 64 = 0 ∧
        commit (physWrite c.regs.csave.toNat ((headerB.drop 8).take 8)) s1 = .next s2 ∧
        commit (physWrite (c.regs.csave.toNat + 8) (leBytes 4 headEntry.stepid.toNat)) s2 = .next s3) ∧
    (∀ sig ∈ [false, true],
      let s := sCtx (fun c => { c with entries := [headEntry], step := some (ended sig), runs := [{ run (kern 1) [0, 1] none with complete := true }] }) []
      let st := ended sig
      ∃ s1, (s.dev.ctx 0).step = some st ∧ s.dev.stopped = false ∧ st.ending = true ∧ (s.dev.ctx 0).cstate = .running ∧
        (∀ r ∈ (s.dev.ctx 0).runs, r.complete = true) ∧ st.signalled = false ∧
        (if st.done = 0 then s1 = s else writesWord s 0 st.done.toNat (leBytes 8 st.entry.stepid.toNat) s1) ∧
        st.entry.sflags.toNat % 2 = 0 ∧ 0 < s1.dev.ctxs.length ∧ s1.dev.ctx 0 = s.dev.ctx 0) := by
  refine ⟨by decide, ⟨_, _, _, by decide, by decide, by decide, by decide, by decide, by decide,
    reads_of (by decide) (by decide) (by decide) (by decide), by decide, by decide, by decide, after_of (by decide), after_of (by decide)⟩, fun sig hs => ?_⟩
  simp only [List.mem_cons, List.not_mem_nil, or_false] at hs
  obtain rfl | rfl := hs
  · exact ⟨_, by decide, by decide, by decide, by decide, by decide, by decide, rfl, by decide, by decide, by decide⟩
  · exact ⟨_, by decide, by decide, by decide, by decide, by decide, by decide, writes_of (by decide) (by decide) (by decide), by decide, by decide, by decide⟩

/-- A server of context 0 on issue port group 5, in slot 2. -/
abbrev srv (st : SrvSt) (c : Int) (d : Nat) : Server := ⟨0, 5, 2, 0, 10, 100, c, d, true, st, 0, 0⟩
abbrev sSrv (l : List Server) (D : Dev → Dev := id) : State := seat th0 fl0 (fun d => D { stage4 (host0 [] d) with servers := l })

set_option maxRecDepth 8000 in
/-- A throttled server that is due; a choice with an ACTIVE server, and one without. -/
theorem witness_ServerRules_result :
    (let s := sSrv [srv .throttled (-5) 0]
      ∃ v, s.dev.slot? 0 5 2 = some v ∧ v.st = .throttled ∧ v.d ≤ s.dev.ctime / 40 ∧ 0 < v.q ∧ 0 < v.c + v.q * srvUnit) ∧
    (let d := (sSrv [srv .active 5 9]).dev
      ∃ v ∈ d.servers, v.kind = 0 ∧ v.inst = 5 ∧ v.st = .active ∧ v.ctx ∈ [0, 3] ∧ 0 < v.q) ∧
    (let d := (sSrv [srv .idle 5 9]).dev;
      (∀ w ∈ d.servers, ¬(w.kind = 0 ∧ w.inst = 5 ∧ w.st = .active ∧ w.ctx ∈ [0, 3])) ∧ d.grant 0 5 [0, 3] 0 = some 3) := by
  refine ⟨⟨srv .throttled (-5) 0, ?_⟩, ?_, ?_⟩ <;> decide

/-- A thread that waits for its server command; the command and its staged parameters. -/
abbrev thS (cmd sel q t : Nat) : Thread :=
  { th0 with wait := .unit, srv := ⟨BitVec.ofNat 32 sel, BitVec.ofNat 32 q, BitVec.ofNat 32 t, BitVec.ofNat 32 (cmd * 4), []⟩ }
/-- SEL of issue port group 5, slot 2, and of a kind that does not exist. -/
abbrev selHere : Nat := 5 * 32 + 2
abbrev sAdm (th : Thread) (l : List Server) : State := seat th fl0 (fun d => { stage4 (host0 [] d) with servers := l })
/-- What a command meets, as in the statement. -/
abbrev meetsCmd (s : State) (x : Thread) (cmd : Nat) : Prop :=
  s.dev.thread? one = some x ∧ x.wait = .unit ∧ x.srv.cmd = cmd ∧ selKind x.srv.sel ≤ 4 ∧ selInst x.srv.sel < kindRange (selKind x.srv.sel)
abbrev rated (x : Thread) : Prop := 1 ≤ x.srv.q.toNat ∧ x.srv.q.toNat ≤ x.srv.t.toNat ∧ x.srv.t.toNat ≤ 10 ^ 8
abbrev slotOf (s : State) (x : Thread) : Option Server := s.dev.slot? (selKind x.srv.sel) (selInst x.srv.sel) (selSlot x.srv.sel)

set_option maxRecDepth 8000 in
/-- Each command answered as valid, above the bound, and as invalid. -/
theorem witness_Admission_result_commands :
    (∀ q ∈ [10, 100], let x := thS 1 selHere q 100; let s := sAdm x (if q = 100 then [{ srv .idle 0 0 with slot := 3, ctx := 1 }] else [])
      meetsCmd s x 1 ∧ rated x ∧ slotOf s x = none ∧ s.dev.server? (selKind x.srv.sel) (selInst x.srv.sel) x.srv.ctx = none ∧
        s.dev.mayServe x.srv.ctx (selKind x.srv.sel) (selInst x.srv.sel) = true ∧
        (s.dev.bound (selKind x.srv.sel) (selInst x.srv.sel) <
          s.dev.load (selKind x.srv.sel) (selInst x.srv.sel) + loadTerm x.srv.q.toNat x.srv.t.toNat ↔ q = 100)) ∧
    (∀ q ∈ [10, 100], let x := thS 3 selHere q 100; let s := sAdm x (if q = 100 then [srv .idle 0 0, { srv .idle 0 0 with slot := 3, ctx := 1 }] else [srv .idle 0 0])
      meetsCmd s x 3 ∧ rated x ∧ slotOf s x = some (srv .idle 0 0) ∧
        (s.dev.bound (selKind x.srv.sel) (selInst x.srv.sel) <
          s.dev.load (selKind x.srv.sel) (selInst x.srv.sel) - loadTerm 10 100 + loadTerm x.srv.q.toNat x.srv.t.toNat ↔ q = 100)) ∧
    (let x := thS 2 selHere 0 0; let s := sAdm x [srv .idle 0 0]
      meetsCmd s x 2 ∧ slotOf s x = some (srv .idle 0 0)) ∧
    (∀ cmd ∈ [1, 2, 3], let x := thS cmd (7 * 2 ^ 15) 10 100; let s := sAdm x []
      s.dev.thread? one = some x ∧ x.wait = .unit ∧ x.srv.cmd = cmd ∧ ¬(selKind x.srv.sel ≤ 4 ∧ selInst x.srv.sel < kindRange (selKind x.srv.sel))) := by
  refine ⟨fun q hq => ?_, fun q hq => ?_, by decide, fun c hc => ?_⟩
  · simp only [List.mem_cons, List.not_mem_nil, or_false] at hq
    obtain rfl | rfl := hq <;> decide
  · simp only [List.mem_cons, List.not_mem_nil, or_false] at hq
    obtain rfl | rfl := hq <;> decide
  · simp only [List.mem_cons, List.not_mem_nil, or_false] at hc
    obtain rfl | rfl | rfl := hc <;> decide

/-- A route block of two hops through port 3, of this device (rank 0) and of device 5 (rank 1); the ranks' table at 0x700040. -/
abbrev routeB : List Byte := block 0x60 [(0, 4, 2), (8, 4, 0), (12, 2, 3), (16, 4, 1), (20, 4, 100),
  (24, 4, 1), (28, 2, 3), (32, 4, 1), (36, 4, 100), (0x50, 2, 5)]
abbrev sRoute : State := sCtx (fun c => { c with
  routestat := 1, routeblk := some 0x700000,
  eff := { c.eff with ptroot := BitVec.ofNat 64 placeRoot, rankbase := 0x700040, rankcnt := 2 } }) routeB
/-- A flit that asks this device for the hop; the port takes it where its bound allows. -/
abbrev askF (q : Nat) : Flit := ⟨8, 0, 0, true, ⟨8, 5, 2, 0, 1, 0, 3, 10, hopAsk, leBytes 2 0 ++ leBytes 4 q ++ leBytes 4 100⟩⟩
abbrev sAsked : State := seat th0 fl0 (fun d => { stage4 (noFlock d) with routetbl := [(0, 0x8000), (5, 0x132)] })

/-- The hops of that block as they stand in the unit: its own, granted, and that of device 5, which has not answered. -/
abbrev hop0 : RouteHop := ⟨⟨0, 3, true, 20, 100⟩, 0, 0, some true, 2⟩
abbrev hop1 : RouteHop := ⟨⟨1, 3, true, 36, 100⟩, 5, 0, none, 0⟩
abbrev sPending : State := sRoute.device (fun d => { d.modCtx 0 (fun c => { c with route := [hop0, hop1] }) with
  ctime := 400000, servers := [{ srv .idle 0 0 with kind := 4, inst := 3 }] })

set_option maxRecDepth 8000 in
/-- A route request, one of whose hops another device serves; one whose hop is answered; one that has waited long enough; answers
that arrive; a hop that this device gives and one it refuses; a bound, and one that pre-empts. -/
theorem witness_Admission_result_routes :
    (let s := sRoute
      ∃ b1 s1 b2 s2, (s.dev.ctx 0).routestat = 1 ∧ (s.dev.ctx 0).routeblk = some 0x700000 ∧ (s.dev.ctx 0).route = [] ∧
        readsWord s 0 0x700000 8 b1 s1 ∧
        0 < field b1 0 4 ∧ field b1 0 4 ≤ 16 ∧ (s1.dev.ctx 0).eff.ptroot = (s.dev.ctx 0).eff.ptroot ∧
        readsWord s1 0 (0x700000 + 8) (16 * field b1 0 4) b2 s2 ∧ 0 < s2.dev.ctxs.length ∧ s2.dev.marks = [] ∧
        (s2.dev.ctx 0).routestat = 1 ∧
        (let x := ((List.range (field b1 0 4)).map (fun i => hopOf ((b2.drop (16 * i)).take 16))).foldl (routeTake s2 0) (s2.dev, []);
          x.2.map (·.dev) = [0, 5] ∧ ∀ y ∈ s2.dev.farHops x.2, x.1.port y.dev ≠ 16 ∧ x.1.port y.dev ∉ x.1.fab.down)) ∧
    (let s := sPending;
      0 < s.dev.ctxs.length ∧ (s.dev.ctx 0).routestat = 1 ∧ (s.dev.ctx 0).routeblk = some 0x700000 ∧ (s.dev.ctx 0).route ≠ [] ∧
        (s.dev.ctx 0).route[1]? = some hop1 ∧ hop1.ans ≠ some true ∧
        (∀ x ∈ (s.dev.ctx 0).route.take 1, x.ans = some true) ∧ (s.dev.ctx 0).routeAt + 400000 ≤ s.dev.ctime ∧
        ∀ a ∈ ([([], none), ([true, true], some true), ([true, false], some false)] : List (List Bool × Option Bool)),
          (((s.dev.ctx 0).route.mapIdx (fun i y => if y.ans = none then { y with ans := a.1[i]? } else y))[1]?.map (·.ans)) = some a.2) ∧
    (∀ op ∈ [hopYes, hopNo], let s := sAsked
      let f : Flit := ⟨8, 0, 0, true, ⟨8, 5, 2, 0, 1, 0, 3, 10, op, []⟩⟩;
      s.dev.stopped = false ∧ s.dev.mgmt.stage = 4 ∧ f.ok = true ∧ f.kind = 8 ∧ s.dev.routeOf f.dst = 0x8000 ∧
        (f.msg.op = hopYes ∨ f.msg.op = hopNo)) ∧
    (∀ q ∈ [0, 1], let s := sAsked
      let f := askF q
      let h : Hop := ⟨0, f.msg.fa, bit (field f.msg.data 0 2) 0, field f.msg.data 2 4, field f.msg.data 6 4⟩;
      s.dev.stopped = false ∧ s.dev.mgmt.stage = 4 ∧ f.ok = true ∧ f.kind = 8 ∧ s.dev.routeOf f.dst = 0x8000 ∧ f.msg.op = hopAsk ∧
        s.dev.fab.hops = [] ∧ (s.dev.takeHop f.msg.tctx h).isSome = decide (q = 1) ∧ s.dev.openSlot 4 f.msg.fa = some 0) ∧
    ((4 : Nat) ≤ 4 ∧ 3 < kindRange 4 ∧ (4 ≠ 0 ∨ 0 % 2 ^ 32 ≠ 0)) ∧
    (let s := sSrv [{ srv .idle 0 0 with inst := 1023 }] (fun d => { d with flocks := [] });
      s.dev.servedAt 1023 = [0] ∧ (s.dev.ctx 0).cstate = .running ∧ (s.dev.ctx 0).eff.csave = 0) := by
  refine ⟨⟨routeB.take 8, _, ((routeB.drop 8).take 32), _, by decide, by decide, by decide, reads_of (by decide) (by decide) (by decide) (by decide), by decide, by decide, by decide,
    reads_of (by decide) (by decide) (by decide) (by decide), by decide, by decide, by decide, by decide, by decide⟩, by decide, by decide, by decide,
    by decide, by decide⟩


end Sys2Proof.Tests
end

