-- ==== Sys2Proof/Tests/Witness5.lean ====
section
/-! SUPPORT. Witnesses of the statements about contexts, operating points, heat, repair, the host and the step. -/

namespace Sys2Proof.Tests

open Sys2Proof.Machine

/-! ## Contexts -/

/-- What holds of contexts 0 to 63 and of a context as after reset holds of every number. -/
theorem every_ctx {d : Dev} {P : Nat → Ctx → Prop} (hl : d.ctxs.length = 64) (h : ∀ j < 64, P j (d.ctx j))
    (h0 : ∀ j, P j Ctx.reset) : ∀ j, P j (d.ctx j) := fun j => by
  by_cases hj : j < 64
  · exact h j hj
  · have : d.ctx j = Ctx.reset := by simp [Dev.ctx, List.getElem?_eq_none (by omega : d.ctxs.length ≤ j)]
    rw [this]; exact h0 j

/-- Context 0 in a state. -/
abbrev sIn (c : CState) (f : Ctx → Ctx := id) : State := sCtx (fun x => { f x with cstate := c }) []

set_option maxRecDepth 8000 in
/-- A function that may act on a context in each state, one that may not, a command that is done. -/
theorem witness_ContextCommands_result :
    (∀ c ∈ [CState.running, .draining, .stopped, .errstop],
      (sIn c).dev.mayAct .pf 0 = true ∧ ((sIn c).dev.ctx 0).cstate = c ∧ (sIn c).dev.stopped = false ∧ 0 < (sIn c).dev.ctxs.length) ∧
    (0 < 1 ∧ 1 < 2 ^ 24) ∧
    (let s := sIn .running (fun c => { c with faults := [⟨1, 5, .read⟩] });
      s.dev.mayAct .pf 0 = true ∧ (s.dev.ctx 0).cstate ≠ .stopped ∧ (s.dev.ctx 0).faults.any (fun r => r.fid = 1) = true) ∧
    ((sIn .running (fun c => { c with cmds := [6] })).dev.ctx 0).cmds = 6 :: [] ∧
    (sIn .running).dev.mayAct (.vf 3) 0 = false := by
  refine ⟨fun c hc => ?_, by decide, by decide, by decide, by decide⟩
  simp only [List.mem_cons, List.not_mem_nil, or_false] at hc
  obtain rfl | rfl | rfl | rfl := hc <;> decide

/-- One flock of a run in context 0, in a state. -/
abbrev sOne (c : CState) (committed : Bool) (f : Ctx → Ctx := id) (D : Dev → Dev := id) : State :=
  seat th0 fl0 (fun d => D { (stage4 (host0 [] d)).modCtx 0 (fun x => { f x with cstate := c }) with flocks := [member false committed] })
/-- That flock as a saved one. -/
abbrev kept (imageAt : Nat) : SavedFlock := ⟨5, member false true, [], [], imageAt, 1, 7⟩
/-- The context restores it; the byte of its image holds `w`. -/
abbrev sBack (x : SavedFlock) (w : Byte) : State := sCtx (fun c => { c with saved := [x], cstate := .restoring }) [w]
abbrev standsBack (x : SavedFlock) (s : State) : Prop :=
  (s.dev.ctx 0).cstate = .restoring ∧ s.dev.stopped = false ∧ (s.dev.ctx 0).saved = x :: [] ∧
    (∀ y ∈ ([] : List SavedFlock), sameHerd x y = false) ∧ s.dev.spotsBack 0 [x] = some [(0, 0)] ∧ 0 < s.dev.ctxs.length ∧ s.dev.marks = []

/-- One of two bytes differs from the saved image. -/
theorem changed_image : ∃ w ∈ [(0 : Byte), 1], (sBack (kept 0x700000) w).kept (kept 0x700000) = false := by
  have h0 : (sBack (kept 0x700000) 0).phys 0x700000 1 = [0] := by decide
  have h1 : (sBack (kept 0x700000) 1).phys 0x700000 1 = [1] := by decide
  by_cases h : (kept 0x700000).image = [0]
  · exact ⟨1, by decide, by simp only [State.kept, h1, h]; decide⟩
  · exact ⟨0, by decide, by simp only [State.kept, h0, decide_eq_false (fun e => h (Eq.symm e))]; decide⟩

set_option maxRecDepth 8000 in
/-- A drain at its limit with committed flocks, urgent or not, and after it; with one that aborts; without any. -/
theorem witness_DrainAndSave_result_drain :
    (∀ u ∈ [true, false], let s := sOne .draining true (fun c => { c with urgent := u })
      (s.dev.ctx 0).cstate = .draining ∧ s.dev.drainEnd 0 ≤ s.dev.ctime ∧ (∀ f ∈ s.dev.resident 0, f.committed = true) ∧
        s.dev.resident 0 ≠ [] ∧ (((s.dev.ctx 0).urgent = true ∨ (s.dev.resident 0).any s.dev.parked = true) ↔ u = true)) ∧
    (let d := (sOne .draining true id (fun d => { d with ctime := 10 ^ 9 })).dev; let f := member false true; ∃ th,
      0 < d.ctxs.length ∧ (d.ctx 0).cstate = .draining ∧ d.drainEnd 0 < d.ctime ∧ f ∈ d.flocks ∧ f.ctx = 0 ∧ f.committed = true ∧
        f.dead = false ∧ th ∈ f.threads ∧ th.ended = none) ∧
    (let s := sOne .draining false; let f := member false false
      (s.dev.ctx 0).cstate = .draining ∧ s.dev.drainEnd 0 ≤ s.dev.ctime ∧ s.dev.resident 0 = [f] ∧ f.committed = false ∧
        s.dev.flock? f.core f.slot = some f) ∧
    (let s := sIn .draining;
      (s.dev.ctx 0).cstate = .draining ∧ (∀ f ∈ s.dev.flocks, f.ctx ≠ 0) ∧ ∀ j, (s.dev.ctx j).flr = false) := by
  refine ⟨fun u hu => ?_, ⟨{ th0 with t := 1 }, by decide⟩, by decide, by decide, by decide, every_ctx (d := (sIn .draining).dev) (P := fun _ c => c.flr = false) (by decide) (by decide) (fun _ => rfl)⟩
  simp only [List.mem_cons, List.not_mem_nil, or_false] at hu
  obtain rfl | rfl := hu <;> decide

set_option maxRecDepth 8000 in
/-- A flock that can be saved, one that can be restored, its area unchanged or changed, and a context with none left. -/
theorem witness_DrainAndSave_result_save :
    (let s := sOne .saving true id (fun d => { d with issuing := none }); let f := member false true
      s.dev.flock? 0 0 = some f ∧ f.core = 0 ∧ f.slot = 0 ∧ (s.dev.ctx f.ctx).cstate = .saving ∧ s.dev.stopped = false ∧
        s.dev.herdOf f = [f] ∧ s.dev.savable f = true ∧ flockMarks s.dev f = [] ∧ f.ctx < s.dev.ctxs.length ∧
        (∀ j, s.dev.canSave j = true → bits (s.dev.ctx j).eff.prio.toNat 0 4 ≤ bits (s.dev.ctx f.ctx).eff.prio.toNat 0 4) ∧ f.ctx < 64) ∧
    (standsBack (kept 0) (sBack (kept 0) 0) ∧ (sBack (kept 0) 0).kept (kept 0) = true) ∧
    (∃ w, standsBack (kept 0x700000) (sBack (kept 0x700000) w) ∧ (sBack (kept 0x700000) w).kept (kept 0x700000) = false) ∧
    (let s := sIn .restoring;
      (s.dev.ctx 0).cstate = .restoring ∧ s.dev.stopped = false ∧ (s.dev.ctx 0).saved = []) := by
  refine ⟨⟨by decide, by decide, by decide, by decide, by decide, by decide, by decide, by decide, by decide, fun j hj => ?_, by decide⟩,
    by decide, ?_, by decide⟩
  swap
  · obtain ⟨w, hw, h⟩ := changed_image
    refine ⟨w, ?_, h⟩
    simp only [List.mem_cons, List.not_mem_nil, or_false] at hw
    obtain rfl | rfl := hw <;> decide
  refine every_ctx (d := (sOne .saving true id (fun d => { d with issuing := none })).dev) (P := fun j c => (c.cstate = .saving → bits c.eff.prio.toNat 0 4 ≤ 0)) (by decide) (by decide)
    (fun _ => by decide) j ?_
  simp only [Dev.canSave, Bool.and_eq_true, decide_eq_true_eq] at hj
  exact hj.1

/-! ## Governor, clock generators, droop -/

/-- Full function, without a flock, the device changed by `D`; also with die 0, cluster 0 or the management state changed. -/
abbrev sDev (D : Dev → Dev) : State := seat th0 fl0 (fun d => D (stage4 (noFlock d)))
abbrev sDie (f : Die → Die) (time : Nat := 0) : State := sDev (fun d => ({ d with ctime := time } : Dev).modDie 0 f)
abbrev sClu (f : Cluster → Cluster) : State := sDev (fun d => d.modCluster 0 f)
abbrev sMg (f : Mgmt → Mgmt) (time : Nat := 0) : State := sDev (fun d => { d with mgmt := f d.mgmt, ctime := time })
/-- Only OP_6 and OP_9 are enabled. -/
abbrev few (m : Mgmt) : Mgmt := { m with optbl := m.optbl.mapIdx (fun i x => (i = 6 || i = 9, x.2)) }

set_option maxRecDepth 8000 in
/-- An evaluation due and not due, after a fatal stop; requirements that a point meets, that none meets, without a deadline, held;
points between enabled ones and above them. -/
theorem witness_Governor_result :
    (let s := sMg id 1; s.dev.ctime % 40000 ≠ 0 ∧ s.dev.mgmt.deadlineAt ≠ some s.dev.ctime) ∧
    (let s := sDie (fun x => { x with tvalid := true });
      s.dev.ctime % 40000 = 0 ∧ s.dev.stopped = false ∧ s.dev.marks = [] ∧ (∀ k, (s.dev.ctx k).step = none) ∧ s.dev.dies.length = 4 ∧
        (s.dev.die 0).powered = true ∧ (s.dev.die 0).tvalid = true) ∧
    (let s := sDev (fun d => { d with stopped := true }); s.dev.ctime % 40000 = 0 ∧ s.dev.stopped = true) ∧
    (let d := (sDev id).dev;
      (∀ st, (d.ctx 0).step = some st → st.riskRaised = true → 0 ∉ st.riskDies) ∧
        (let p : Plan := ⟨0, 10 ^ 12, 7⟩; p.dl ≠ 0 ∧ ∃ i ≤ (d.die 0).ceil, d.enabled i = true ∧ d.finish p.ctx 0 i (5, 1) + d.mgmt.guardTicks ≤ p.dl) ∧
        (let p : Plan := ⟨0, 1, 7⟩; p.dl ≠ 0 ∧ ∀ i ≤ (d.die 0).ceil, ¬(d.enabled i = true ∧ d.finish p.ctx 0 i (5, 1) + d.mgmt.guardTicks ≤ p.dl)) ∧
        (⟨0, 0, 7⟩ : Plan).dl = 0) ∧
    (let d := (sCtx (fun c => { c with step := some { stp [] with riskRaised := true, riskDies := [0] } }) []).dev;
      ∃ st, (d.ctx 0).step = some st ∧ st.riskRaised = true ∧ 0 ∈ st.riskDies) ∧
    (let d := ((sMg few).device (fun d => d.modDie 0 (fun x => { x with ceil := 12 }))).dev;
      (7 ≤ (d.die 0).ceil ∧ 7 ≤ 9 ∧ 9 ≤ (d.die 0).ceil ∧ d.enabled 9 = true ∧ ∀ l < 9, 7 ≤ l → d.enabled l = false) ∧
      (10 ≤ (d.die 0).ceil ∧ 9 < 10 ∧ (∀ l ≤ (d.die 0).ceil, 10 ≤ l → d.enabled l = false) ∧ d.enabled 9 = true)) := by
  refine ⟨by decide, ⟨by decide, by decide, by decide, ?_, by decide⟩, by decide, ?_, ⟨_, rfl, rfl, by decide⟩, by decide⟩
  · exact every_ctx (d := (sDie (fun x => { x with tvalid := true })).dev) (P := fun _ c => c.step = none) (by decide) (by decide) (fun _ => rfl)
  · refine ⟨?_, by decide, by decide, rfl⟩
    intro st h
    have h0 : ((sDev id).dev.ctx 0).step = none := by decide
    rw [h0] at h; cases h

set_option maxRecDepth 8000 in
/-- Servers of a context at a port group, of a small and a smaller share, and none; plans with a deadline and without; a die's
points below, at and above CUR. -/
theorem witness_Governor_result_finish :
    (∀ x ∈ ([(10, 100), (1, 10 ^ 8)] : List (Nat × Nat)),
      let d := (sSrv [⟨0, 5, 2, 0, x.1, x.2, 0, 0, true, .idle, 0, 0⟩]).dev
      (∀ v ∈ d.servers, 0 < v.t) ∧ (∃ v, d.server? 0 5 0 = some v ∧ (v.q * 65536 < v.t ↔ x.1 = 1)) ∧ d.server? 0 5 1 = none) ∧
    (0 < ((5, 1) : Nat × Nat).2 ∧ (⟨0, 0, 7⟩ : Plan).dl = 0 ∧ (⟨0, 1, 7⟩ : Plan).dl ≠ 0) ∧
    (let d := (sDev id).dev; (5 < (d.die 0).cur ∧ 6 = (d.die 0).cur ∧ (d.die 0).cur ≤ 7)) := by
  refine ⟨fun x hx => ?_, by decide, by decide⟩
  simp only [List.mem_cons, List.not_mem_nil, or_false] at hx
  obtain rfl | rfl := hx
  · exact ⟨by decide, ⟨_, rfl, by decide⟩, by decide⟩
  · exact ⟨by decide, ⟨_, rfl, by decide⟩, by decide⟩

set_option maxRecDepth 8000 in
/-- A raise, a fall and a divider step under way and ended; each way that a die heads; a raise that fails; writes of a ceiling and a table. -/
theorem witness_ClockAndDroop_result_clocks :
    (∀ time ∈ [0, 10 ^ 6], let s := sDie (fun x => { x with ramp := some 7 }) time;
      (s.dev.die 0).ramp = some 7 ∧ ((s.dev.die 0).cur < 7 ∧ (s.dev.die 0).step = none) ∧
        (s.dev.ctime < (s.dev.die 0).rampAt + 400 * (s.dev.vmv 7 - (s.dev.die 0).supply) ↔ time = 0)) ∧
    (∀ time ∈ [0, 10 ^ 6], let s := sDie (fun x => { x with ramp := some 5 }) time;
      (s.dev.die 0).ramp = some 5 ∧ ¬((s.dev.die 0).cur < 5 ∧ (s.dev.die 0).step = none) ∧
        (s.dev.ctime < (s.dev.die 0).rampAt + 400 * (max (s.dev.die 0).supply (s.dev.vmv 5) - min (s.dev.die 0).supply (s.dev.vmv 5)) ↔ time = 0)) ∧
    (∀ time ∈ [0, 10 ^ 6], let s := sDie (fun x => { x with step := some 5 }) time;
      (s.dev.die 0).step = some 5 ∧ (s.dev.ctime < (s.dev.die 0).stepAt + 2000 ↔ time = 0)) ∧
    (∀ tgt ∈ [5, 6], let s := sDie (fun x => { x with tvalid := true, tgt := tgt });
      (s.dev.die 0).step = none ∧ (s.dev.die 0).raising = none ∧ (s.dev.die 0).powered = true ∧ s.dev.drooping 0 = false ∧
        min (if (s.dev.die 0).tvalid then (s.dev.die 0).tgt else 6) (s.dev.die 0).ceil = tgt) ∧
    (let s := sDie (fun x => { x with tvalid := true, tgt := 9, ceil := 12 });
      (s.dev.die 0).step = none ∧ (s.dev.die 0).raising = none ∧ (s.dev.die 0).powered = true ∧ s.dev.drooping 0 = false ∧
        (s.dev.die 0).cur < min (if (s.dev.die 0).tvalid then (s.dev.die 0).tgt else 6) (s.dev.die 0).ceil) ∧
    (let s := (sDie (fun x => { x with tvalid := true, tgt := 5 })).device (fun d => d.modCluster 0 (fun c => { c with droop := .stretch }));
      (s.dev.die 0).step = none ∧ (s.dev.die 0).raising = none ∧ (s.dev.die 0).powered = true ∧ s.dev.drooping 0 = true) ∧
    (∀ time ∈ [0, 10 ^ 6], let s := sDie (fun x => { x with ramp := some 7, ceil := 12 }) time;
      (s.dev.die 0).raising = some 7 ∧ 0 < s.dev.dies.length ∧ 700 + 20 < s.dev.vmv 7 ∧ s.dev.vmv 7 ≤ 740 + 20 ∧
        (s.dev.ctime < (s.dev.die 0).rampAt + 400 * (s.dev.vmv 7 - (s.dev.die 0).supply) + 40000 ↔ time = 0)) ∧
    (let s := sDie (fun x => { x with ramp := some 7, ceil := 12 });
      s.dev.mgmt.fwStopped = false ∧ s.dev.mgmt.updating = false ∧ 0 < s.dev.dies.length ∧
        (s.dev.die 0).raising = some ((s.dev.die 0).cur + 1) ∧ 3 ≤ (s.dev.die 0).cur) := by
  refine ⟨fun t ht => ?_, fun t ht => ?_, fun t ht => ?_, fun t ht => ?_, by decide, by decide, fun t ht => ?_, by decide⟩ <;>
    (simp only [List.mem_cons, List.not_mem_nil, or_false] at ht; obtain rfl | rfl := ht <;> decide)

set_option maxRecDepth 8000 in
/-- A cluster whose detector is on, idle or in a response that an earlier clock started, at alarms and none; its response at its two ends; a clock withheld. -/
theorem witness_ClockAndDroop_result_droop :
    (let s := sClu id;
      bit (s.dev.cluster 0).droopcfg.toNat 8 = true ∧ (s.dev.die 0).powered = true ∧ (s.dev.cluster 0).droop = .none ∧
        600 + 2 * ((s.dev.cluster 0).droopcfg.toNat % 256) < s.dev.vmv (s.dev.die 0).cur ∧
        s.dev.vmv (s.dev.die 0).cur ≤ 720 + 2 * ((s.dev.cluster 0).droopcfg.toNat % 256)) ∧
    (let s := sClu (fun c => { c with droop := .stretch, cycle := 1 });
      bit (s.dev.cluster 0).droopcfg.toNat 8 = true ∧ (s.dev.die 0).powered = true ∧
        (s.dev.cluster 0).droopAt ≠ (s.dev.cluster 0).cycle) ∧
    (let s := sClu (fun c => { c with droop := .stretch, cycle := 7 });
      (s.dev.cluster 0).droop = .stretch ∧ (s.dev.cluster 0).droopAt + 7 ≤ (s.dev.cluster 0).cycle) ∧
    (let s := sClu (fun c => { c with droop := .halved, cycle := 71 });
      (s.dev.cluster 0).droop = .halved ∧ (s.dev.cluster 0).droopAt + 71 ≤ (s.dev.cluster 0).cycle) ∧
    (sClu id).dev.mgmt.throttled = false := by decide

/-! ## Heat, module power, firmware -/

/-- A device whose power controller has let its times pass. -/
abbrev sHot (mark : Nat) (f : Die → Die) : State := sDev (fun d => ({ d with mgmt := { d.mgmt with thermstat := BitVec.ofNat 32 mark }, ctime := 10 ^ 9 } : Dev).modDie 0 f)

set_option maxRecDepth 8000 in
/-- A reading; a die at WARN above OP_4 and at it, and one to be raised; module power above, below and between. -/
theorem witness_ThermalAndFirmware_result_heat :
    (1 ≤ 2 ∧ 2 ≤ 3) ∧
    (∀ x ∈ ([(1, 9, false), (1, 4, false), (0, 4, true)] : List (Nat × Nat × Bool)),
      let s := sHot x.1 (fun d => { d with ceil := x.2.1, warned := x.2.2 });
      0 < s.dev.dies.length ∧ firmwareRuns s ∧ (s.dev.die 0).warnAt + 400000 ≤ s.dev.ctime ∧ s.dev.mgmt.mark 0 = x.1 ∧
        (s.dev.die 0).ceil = x.2.1 ∧ (s.dev.die 0).warned = x.2.2) ∧
    (let s := sHot 0 (fun d => { d with lowered := 1 });
      s.dev.dies.length = 4 ∧ firmwareRuns s ∧ s.dev.mgmt.measuredAt + 400000 ≤ s.dev.ctime ∧ 0 < (s.dev.die 0).lowered ∧
        3600 < 3601 ∧ 3419 < 3420 ∧ 3420 ≤ 3500) := by
  refine ⟨by decide, fun x hx => ?_, by decide⟩
  simp only [List.mem_cons, List.not_mem_nil, or_false] at hx
  obtain rfl | rfl | rfl := hx <;> decide

set_option maxRecDepth 8000 in
/-- Heartbeats that let the firmware run and that do not; the watchdog early and due; the power limit in each state. -/
theorem witness_ThermalAndFirmware_result_firmware :
    (let s := sMg id; s.dev.mgmt.updating = false ∧ s.dev.mgmt.firings.length < 4 ∧ s.dev.mgmt.fwStopped = false ∧
      s.dev.ctime < s.dev.mgmt.heartbeat + 40000000) ∧
    (let s := (sMg (fun m => { m with fwStopped := true })).device (fun d => { d with mbox := { d.mbox with torn := true } });
      s.dev.mgmt.fwStopped = true ∧ s.dev.mbox.verified = false) ∧
    (let s := sMg (fun m => { m with firings := [1, 2, 3] }) (10 ^ 9);
      s.dev.mgmt.updating = false ∧ s.dev.mgmt.firings.length < 4 ∧ s.dev.mgmt.heartbeat + 40000000 ≤ s.dev.ctime ∧
        4 ≤ (s.dev.ctime :: s.dev.mgmt.firings.filter (fun t => s.dev.ctime < t + 3600 * 4000000000)).length) ∧
    4 ≤ (sMg (fun m => { m with firings := [1, 2, 3, 4] })).dev.mgmt.firings.length ∧
    (sMg (fun m => { m with fwStopped := true })).dev.mgmt.overSince = none ∧
    (∀ time ∈ [0, 10 ^ 9], let s := sMg (fun m => { m with fwStopped := true, overSince := some 0 }) time;
      s.dev.mgmt.fwStopped = true ∧ s.dev.mgmt.overSince = some 0 ∧ (0 + 4000000 ≤ s.dev.ctime ↔ time ≠ 0)) := by
  refine ⟨by decide, by decide, by decide, by decide, by decide, fun t ht => ?_⟩
  simp only [List.mem_cons, List.not_mem_nil, or_false] at ht
  obtain rfl | rfl := ht <;> decide

set_option maxRecDepth 8000 in
/-- CRIT reached; its save limit, early and due; its rails off and on again; TRIP. -/
theorem witness_CritAndTrip_result :
    (let s := sHot 2 id;
      2 ≤ s.dev.mgmt.mark 0 ∧ s.dev.mgmt.crit = none ∧ s.dev.mgmt.railsOff = false ∧ s.dev.stopped = false ∧ s.dev.dies.length = 4 ∧
        s.dev.ctxs.length = 64 ∧ (s.dev.ctx 0).cstate = .running) ∧
    (∀ time ∈ [0, 10 ^ 9], let s := sMg (fun m => { m with crit := some 0 }) time;
      s.dev.mgmt.crit = some 0 ∧ s.dev.ctxs.length = 64 ∧ (0 + 200000000 ≤ s.dev.ctime ↔ time ≠ 0)) ∧
    (let s := sMg (fun m => { m with crit := some 0 });
      s.dev.mgmt.crit = some 0 ∧ s.dev.mgmt.railsOff = false ∧ s.dev.flocks = [] ∧ s.dev.reqs = [] ∧
        (∀ k < 64, (s.dev.ctx k).cstate ≠ .draining ∧ (s.dev.ctx k).cstate ≠ .saving) ∧ ∀ st ∈ s.dev.stks, ∀ p ∈ st.pcs, p.waiting = []) ∧
    (let s := sMg (fun m => { m with crit := some 0, railsOff := true, sensors := [(0, 700)] });
      s.dev.mgmt.crit = some 0 ∧ s.dev.mgmt.railsOff = true ∧ ∀ r ∈ s.dev.mgmt.sensors, r.2 < 800) ∧
    (let s := sHot 3 id;
      s.dev.mgmt.mark 0 = 3 ∧ ¬(s.dev.mgmt.stage = 1 ∧ s.dev.mgmt.failCode = 4) ∧ s.dev.ctxs.length = 64) := by
  refine ⟨by decide, fun t ht => ?_, by decide, by decide, by decide⟩
  simp only [List.mem_cons, List.not_mem_nil, or_false] at ht
  obtain rfl | rfl := ht <;> decide

/-! ## Repair, self-test, slice moves -/

abbrev evt (ctx : Nat) : Event := ⟨5, ctx, 7, 1, 2, 3⟩

set_option maxRecDepth 8000 in
/-- A contained event; a bank to clear; a scrub of a word corrected and of one beyond; records over others. -/
theorem witness_RecordsAndTests_result_records :
    (let s := sIn .errstop (fun c => { c with stopEvt := some (evt 0) });
      (s.dev.ctx 0).stopEvt = some (evt 0) ∧ s.dev.reqs.any (fun q => q.ctx = 0 && q.writes && !q.performed) = false) ∧
    (let s := (sIn .errstop (fun c => { c with stopEvt := some (evt 0) })).device (fun d => { d with reqs := [rq 3 .st (.dram 0x20000) 4 [1, 2, 3, 4]] });
      (s.dev.ctx 0).stopEvt = some (evt 0) ∧ s.dev.reqs.any (fun q => q.ctx = 0 && q.writes && !q.performed) = true) ∧
    (sDev (fun d => { d with banks := d.banks.set 3 ⟨BitVec.ofNat 64 (2 ^ 63), 0, 0, 0⟩ }) |>.dev.bank 3).status.toNat.testBit 63 = true ∧
    (∀ b ∈ [true, false], let s := sDev (fun d => { d with marks := [(.dram 5, b)] });
      bits s.dev.mgmt.mcctl.toNat 8 8 ≠ 0 ∧ scrubs s.dev (.dram 5) = true ∧ s.dev.marks.filter (fun m => m.1 = .dram 5) = [(.dram 5, b)]) ∧
    (let b : Bank := ⟨BitVec.ofNat 64 (2 ^ 63 + 2 ^ 60), 0, 0, 0⟩;
      Bank.reset.status.toNat.testBit 63 = false ∧ b.status.toNat.testBit 63 = true ∧ bits b.status.toNat 60 2 < 2 ∧
        bits b.status.toNat 60 2 = 1 ∧ b.time = BitVec.ofNat 64 0 ∧ bits b.status.toNat 32 16 = 0) ∧
    (let b : Bank := ⟨BitVec.ofNat 64 (2 ^ 63 + 2 ^ 60 + 2 ^ 33), 0, 0, 0⟩;
      b.status.toNat.testBit 63 = true ∧ (bits b.status.toNat 60 2 = 1 ∧ b.time = BitVec.ofNat 64 0 ∧ 1 < bits b.status.toNat 32 16)) := by
  refine ⟨by decide, by decide, by decide, fun b hb => ?_, by decide, by decide⟩
  simp only [List.mem_cons, List.not_mem_nil, or_false] at hb
  obtain rfl | rfl := hb <;> decide

/-- Cluster 0 under a test of both kinds, begun at 0. -/
abbrev sTest (asked : Bool) (time : Nat) (D : Dev → Dev := id) : State :=
  sDev (fun d => D { (d.modCluster 0 (fun c => { c with test := some (3, asked) })) with ctime := time })

set_option maxRecDepth 8000 in
/-- An idle test that is due, and IDLEST 0; a requested test that can begin and one that waits; a test that a flock needs, one that none does; a test that has run its time. -/
theorem witness_RecordsAndTests_result_tests :
    (let s := sMg (fun m => { m with mcctl := m.mcctl ||| 1 }) (10 ^ 15);
      s.dev.mgmt.mcctl.toNat.testBit 0 = true ∧ s.dev.stopped = false ∧ s.dev.testDue 0 = true ∧ s.dev.clusters.length = 64 ∧
        ∀ x ∈ s.dev.mgmt.tests, x.mask.testBit 0 = false) ∧
    ((sMg id).dev.mgmt.mcctl.toNat.testBit 0 = false ∧ ∀ x ∈ (sMg id).dev.mgmt.tests, x.mask.testBit 0 = false) ∧
    (∀ on ∈ [true, false], let s := (sMg (fun m => { m with tests := [⟨0x400008, 2 ^ 63, 2⟩] })).device (fun d =>
        { d with dies := d.dies.map (fun x => { x with powered := on }) });
      63 < 64 ∧ s.dev.mgmt.tests.find? (fun x => x.mask.testBit 63) = some ⟨0x400008, 2 ^ 63, 2⟩ ∧ s.dev.clusters.length = 64 ∧
        ((s.dev.stopped = false ∧ (s.dev.cluster 63).test = none ∧ (∀ f ∈ s.dev.flocks, f.core / 4 ≠ 63) ∧
          (s.dev.die (63 / 16)).powered = true) ↔ on = true)) ∧
    (let s := sTest false 0 (fun d => d.modCtx 0 (fun c => { c with runs := [run (kern 1) [] none] }));
      (s.dev.cluster 0).test = some (3, false) ∧ s.dev.wants 0 = true) ∧
    (let s := sTest false 0; (s.dev.cluster 0).test = some (3, false) ∧ s.dev.wants 0 = false) ∧
    (let s := sTest true (10 ^ 9);
      s.dev.clusters.length = 64 ∧ s.dev.banks.length = 128 ∧ (s.dev.cluster 0).test = some (3, true) ∧
        (∀ f ∈ s.dev.flocks, f.core / 4 ≠ 0) ∧ (s.dev.cluster 0).testAt + 6000000 + 1600000 ≤ s.dev.ctime ∧
        (true && (3).testBit 0 || false && (3).testBit 1) = true ∧ (false && (3).testBit 0 || false && (3).testBit 1) = false) := by
  refine ⟨by decide, by decide, by decide, by decide, by decide, by decide⟩

set_option maxRecDepth 8000 in
/-- A SPLIT that waits; moves refused, begun, copying, ended early and ended. -/
theorem witness_SplitAndMove_result :
    (let s := seat { th0 with wait := .unit } fl0 (fun d => d.modVault 0 (fun x => { x with pendSplit := [(one, 3)] }));
      (s.dev.vault 0).pendSplit = (one, 3) :: [] ∧ 0 < s.dev.vaults.length ∧ 3 ≠ (s.dev.vault 0).split ∧
        (s.dev.thread? one).map (·.wait) = some .unit) ∧
    (let val := 2 ^ 63 + 2 * 2 ^ 18 + 5 * 2 ^ 9 + 4
      let s := sDev (fun d => { d with slown := [(5, 0xFF)] })
      let t := sDev id;
      val.testBit 63 = true ∧ s.dev.move.stat = 0 ∧ s.dev.owner (bits val 9 9) = 0xFF ∧ bits val 0 9 ≠ bits val 9 9 ∧
        s.dev.stopped = false ∧ (t.dev.move.stat ≠ 0 ∨ t.dev.owner (bits val 9 9) ≠ 0xFF)) ∧
    (let s := sDev (fun d => { d with move := ⟨1, false, 4, 5, 2, 0, none⟩ });
      s.dev.move.stat = 1 ∧ s.dev.stopped = false ∧ s.dev.marks = [] ∧ (∀ x ∈ s.dev.vaults, x.lines = [] ∧ x.watch = []) ∧
        s.MemOk ∧ s.dev.move.src ≠ s.dev.move.dst ∧ s.dev.move.moved < 16384) ∧
    ((2 ^ 62).testBit 62 = true ∧ (2 ^ 62).testBit 63 = false ∧ (sDev id).dev.move.stat ≠ 2 ∧
      (sDev (fun d => { d with move := ⟨2, false, 4, 5, 2, 16384, none⟩ })).dev.move.stat = 2) :=
  ⟨by decide, by decide, ⟨by decide, by decide, by decide, by decide, seat_memOk _ _ _, by decide, by decide⟩, by decide⟩

/-! ## The host interface -/

/-- Queue 0 of 16 records at 0x700000, its tail, and held events. -/
abbrev sQueue (tail : Nat) (held : List Event) : State :=
  sDev (fun d => d.modQueue 0 (fun q => { q with base := 0x700000, log := 4, tail := tail, held := held }))

set_option maxRecDepth 8000 in
/-- A queue that takes a record, in the ring and at its end; one that holds it; full of an event of a context and of the device. -/
theorem witness_EventQueues_result :
    (∀ tail ∈ [0, 14], let s := sQueue tail [];
      s.MemOk ∧ (s.dev.queue 0).held = [] ∧ s.dev.canTake 0 = true ∧ 0 < s.dev.queues.length) ∧
    (let s := sDev id; ¬((s.dev.queue 0).held = [] ∧ s.dev.canTake 0 = true) ∧ (s.dev.queue 0).held.length < 64) ∧
    (let s := sQueue 0 (List.replicate 64 (evt 0));
      ¬((s.dev.queue 0).held = [] ∧ s.dev.canTake 0 = true) ∧ 64 ≤ (s.dev.queue 0).held.length ∧ (evt 0).ctx ≠ 0xFF ∧ (evt 0xFF).ctx = 0xFF) ∧
    (sDev id).dev.reaches .pf = true := by
  refine ⟨fun t ht => ⟨seat_memOk _ _ _, ?_⟩, by decide, by decide, by decide⟩
  simp only [List.mem_cons, List.not_mem_nil, or_false] at ht
  obtain rfl | rfl := ht <;> decide

set_option maxRecDepth 8000 in
/-- Functions that may and may not, the link up and down, a window write inside and outside. -/
theorem witness_HostAccess_result :
    (let s := sDev id;
      s.dev.mgmt.linkUp = true ∧ s.dev.mgmt.stage ≠ 0 ∧ s.dev.mayAct .pf 63 = true ∧ s.dev.mayAct (.vf 0) 63 = true ∧
        s.dev.reaches .pf = true ∧ s.dev.reaches (.vf 1) = true ∧ 0x700000 + 4 ≤ 2 ^ 34 ∧ s.dev.marks = [] ∧ s.dev.vaults.length = 64 ∧
        s.MemOk ∧ (s.dev.winbase.toNat + 0x700000) % 128 + 4 ≤ 128 ∧
        s.dev.windowOk .pf (s.dev.winbase.toNat + 0x700000) = true ∧ s.dev.windowOk (.vf 1) (s.dev.winbase.toNat + 0x700000) = false ∧ s.dev.mayAct (.vf 0) 0 = false) ∧
    (sMg (fun m => { m with linkUp := false })).dev.mgmt.linkUp = false :=
  ⟨⟨by decide, by decide, by decide, by decide, by decide, by decide, by decide, by decide, by decide, seat_memOk _ _ _, by decide, by decide, by decide, by decide⟩, by decide⟩

/-- The mailbox runs a command, with argument bytes, and an update. -/
abbrev sMail (cmd : Nat) (bs : List Byte) (n : Option Nat) (upd : Bool) : State := sDev (fun d =>
  { d with mbox := { d.mbox with state := 1, cmd := cmd, data := bs.zipIdx.map (fun (b, i) => (i, b)), upSize := n },
           mgmt := { d.mgmt with updating := upd } })

set_option maxRecDepth 8000 in
/-- MBCMD while a command runs and while none does, and before stage 4; FWEND without an update, one of an image under way being
valid or not by the free values of Config; each command, with each answer. -/
theorem witness_Mailbox_result :
    (let s := sMail 1 [] none false; s.dev.mgmt.linkUp = true ∧ s.dev.mgmt.stage = 4 ∧ s.dev.mbox.state = 1) ∧
    ((sDev id).dev.mbox.state ≠ 1 ∧ (10 : Nat) < 2 ^ 16 ∧ 9 < 10 ∧ (1 : Nat) ≤ 4 ∧ 4 ≠ 5) ∧
    (let s := sMg (fun m => { m with stage := 1 });
      s.dev.mgmt.linkUp = true ∧ s.dev.mgmt.stage ≠ 0 ∧ s.dev.mgmt.stage ≠ 4 ∧ s.dev.mbox.state ≠ 1) ∧
    (let s := sDev id; s.dev.mgmt.linkUp = true ∧ s.dev.mgmt.stage ≠ 0 ∧ s.dev.mbox.state ≠ 1 ∧
      s.dev.mbox.upSize ≠ some s.dev.mbox.upData.length) ∧
    (let s := sMail 2 (leBytes 16 (2 ^ 127 + 2 ^ 64 + 1)) none false; mailboxRuns s 2 ∧
      (List.range 128).filter (fun b => (s.dev.mbox.word 0 16).testBit b) = [0, 64, 127]) ∧
    mailboxRuns (sMail 1 [] none false) 1 ∧
    (let s := sMail 2 (leBytes 16 (2 ^ 127)) none false; mailboxRuns s 2 ∧ s.dev.mbox.word 0 16 = 2 ^ 127) ∧
    (let s := sMail 3 [] none false; mailboxRuns s 3 ∧ s.dev.mbox.word 0 4 = 0) ∧
    (let s := sMail 3 [1] none false; mailboxRuns s 3 ∧ s.dev.mbox.word 0 4 ≠ 0) ∧
    (let s := sMail 4 [] none false; mailboxRuns s 4 ∧ s.dev.mbox.upSize = none) ∧
    (let s := sMail 4 [] (some 9) false; mailboxRuns s 4 ∧ s.dev.mbox.upSize = some 9) ∧
    (let s := sMail 5 [] none false; mailboxRuns s 5 ∧ s.dev.mgmt.updating = false) ∧
    (let s := sMail 5 [] none true; mailboxRuns s 5 ∧ s.dev.mgmt.updating = true) ∧
    (let s := sMail 7 [0, 0x10] none false; mailboxRuns s 7 ∧ 4096 ≤ s.dev.mbox.word 0 2) ∧
    (let s := sMail 7 [5] none false; mailboxRuns s 7 ∧ s.dev.mbox.word 0 2 < 4096) ∧
    (let s := sMail 8 [5] none false; mailboxRuns s 8 ∧ 4 < s.dev.mbox.word 0 4) ∧
    (let s := sMail 8 [4, 0, 0, 0, 16] none false; mailboxRuns s 8 ∧ kindRange (s.dev.mbox.word 0 4) ≤ s.dev.mbox.word 4 4) ∧
    (let s := sMail 8 [4, 0, 0, 0, 3] none false;
      mailboxRuns s 8 ∧ s.dev.mbox.word 0 4 ≤ 4 ∧ s.dev.mbox.word 4 4 < kindRange (s.dev.mbox.word 0 4)) ∧
    (let s := (sMail 9 [] none false).device (fun d => { d with ctime := 10 ^ 15 });
      mailboxRuns s 9 ∧ s.dev.clusters.length = 64 ∧ s.dev.testDue 63 = true) := by
  refine ⟨?_, ?_, ?_, ?_, ?_, ?_, ?_, ?_, ?_, ?_, ?_, ?_, ?_, ?_, ?_, ?_, ?_, ?_, ?_⟩ <;> decide

/-- The start sequence at a stage. -/
abbrev sStage (n : Nat) (cold : Bool) : State := sMg (fun m => { m with stage := n, starting := true, cold := cold })

set_option maxRecDepth 8000 in
/-- Resets of the device, from the mailbox too; each stage, cold and warm; what SPDM has agreed, and codes; a reset of a VF. -/
theorem witness_StartUp_result :
    (let s := sMail 6 [] none false;
      s.dev.mgmt.stage ≠ 0 ∧ ¬(s.dev.mgmt.failCode = 4 ∧ s.dev.mgmt.stage = 1) ∧ s.dev.marks = [] ∧
        (∀ v ∈ s.dev.vaults, v.lines = []) ∧ s.dev.move.stat = 0 ∧ mailboxRuns s 6 ∧ s.dev.mgmt.linkUp = true) ∧
    (∀ n ∈ [0, 1, 2, 3], ∀ cold ∈ [true, false],
      (sStage n cold).dev.mgmt.starting = true ∧ (sStage n cold).dev.mgmt.stage = n ∧ (sStage n cold).dev.mgmt.cold = cold ∧
        (sStage n cold).dev.stks.length = 8 ∧ (sStage n cold).dev.mgmt.failCode = 0) ∧
    (sMg (fun m => { m with starting := false })).dev.mgmt.starting = false ∧
    (∀ n ∈ [0, 1, 2], let d := (sMg (fun m => { m with doe := { m.doe with agreed := n } })).dev;
      d.mgmt.doe.agreed = n ∧ d.mgmt.doe.agreed ≠ 3 ∧ d.mgmt.stage ≠ 0 ∧ d.mgmt.linkUp = true) ∧
    (field [0x12, 0x82] 1 1 ∈ [0x81, 0x82, 0x83, 0xE0] ∧ field [0x12, 0xFE] 1 1 ∉ spdmCodes ∧ field [0x12, 0x84] 1 1 = 0x84 ∧
      field [0x12, 0xE1] 1 1 = 0xE1 ∧ field [0x12, 0xE3] 1 1 = 0xE3) ∧
    (let s := sIn .running;
      s.dev.mgmt.stage = 4 ∧ s.dev.ctxs.length = 64 ∧ (s.dev.ctx 0).vdevNow = 0 ∧ (s.dev.ctx 0).cstate = .running) := by
  refine ⟨by decide, fun n hn c hc => ?_, by decide, by decide, by decide, by decide⟩
  simp only [List.mem_cons, List.not_mem_nil, or_false] at hn hc
  obtain rfl | rfl | rfl | rfl := hn <;> obtain rfl | rfl := hc <;> decide


/-! ## Contained stops, encodings, the step -/

set_option maxRecDepth 8000 in
/-- A thread under INTRAP, one without a handler; a stop whose bank is empty. -/
theorem witness_UndeliveredTrap_result :
    (∀ th ∈ [{ th0 with trap := ⟨true, false, 0, 0, 0, 0, 0⟩ }, th0], let s := seat th fl0; let f := { fl0 with threads := [th] };
      s.dev.flock? 0 0 = some f ∧ f.thread? 0 = some th ∧ th.intv = false ∧ (th.trap.intrap = true ∨ s.dev.trapVec f.ctx 0 = 0)) ∧
    (let s := seat th0 fl0;
      (s.dev.ctx 0).cstate ≠ .errstop ∧ s.dev.ctxs.length = 64 ∧ 127 < s.dev.banks.length ∧
        (s.dev.bank 127).status.toNat.testBit 63 = false ∧ (0x70 : Nat) < 2 ^ 16 ∧ (3 : Nat) < 256) := by
  refine ⟨fun th ht => ?_, by decide⟩
  simp only [List.mem_cons, List.not_mem_nil, or_false] at ht
  obtain rfl | rfl := ht <;> decide

/-- An addition, a load with a relative operand and an atomic, with their words. -/
theorem witness_EncodeThenDecode :
    ∀ i ∈ [Instr.iaddT ⟨⟨2, false, 0, 0, 0, false, 0⟩, .direct 5, .direct 4, .direct 4, z⟩,
        .ld ⟨⟨0, false, 4, 0, 0, true, 0⟩, .rel 1 16, .direct 8, 64, false, 3, 1⟩,
        .atom ⟨⟨0, false, 5, 0, 0, false, 0⟩, .direct 6, .direct 8, 0x2010, false, 3, 3⟩],
      i.wf = true ∧ (encode i).isSome = true := by decide

/-- Words that decode, that no row has, with an illegal guard, and with illegal literal words. -/
theorem witness_DecodeThenEncode :
    (decode 0x90C0_0020_0200_101A 0x0140_0000_0000_0000).isOk = true ∧ 0xF0 ≤ bits 0xF123_0000_0000_0000 56 8 ∧
    (bits 0x2001_000A_0100_27FF 49 3 = 0 ∧ bit 0x2001_000A_0100_27FF 48 = true) ∧
    ∀ l ∈ [2 ^ 57, 2 ^ 63, 2 ^ 32, 2 ^ 42, 1], bit 0x2084_000A_0100_27FF 55 = true ∧
      (bits l 57 7 ≠ 0 ∨ bits l 32 11 ≠ 0 ∨ (bits l 43 2 = 0 ∧ bits l 0 32 ≠ 0)) := by decide

/-- NOP, an addition with a literal, and bits that are no instruction, as the chosen group's words. -/
abbrev sWord (w : Nat) : State :=
  { State.reset.withFetchWord 128 w with dev := (State.reset.withFetchWord 128 w).dev.modCtx 0 (fun c => { c with eff := { c.eff with trapvec := 0x9000 } }) }
abbrev nopW : Nat := 0x0000_0FFF_FFFF_FFFF
abbrev litW : Nat := 0x2080_000A_0100_3FFF
abbrev litL : Nat := 0x0000_1000_0000_0007

set_option maxRecDepth 8000 in
/-- A group whose words decode, and one whose words do not. -/
theorem witness_StepRunsDecoded_words :
    (let s := sWord nopW;
      s.dev.issuing = some alone ∧ fetchGroup s alone = .words nopW 0 ∧ (decode nopW 0).isOk = true) ∧
    (let s := sWord (2 ^ 64 - 1 - 2 ^ 55);
      s.dev.issuing = some alone ∧ fetchGroup s alone = .words (2 ^ 64 - 1 - 2 ^ 55) 0 ∧ (decode (2 ^ 64 - 1 - 2 ^ 55) 0).isOk = false ∧
        alone.members.Nodup ∧ ∀ r ∈ alone.members, ∃ f th, memberOf (fetched alone s) alone r = some (f, th) ∧ th.intv = false ∧
          th.trap.intrap = false ∧ (fetched alone s).dev.trapVec f.ctx r.t ≠ 0) :=
  ⟨by decide, by decide, by decide, by decide, by decide, fun r hr => by
    obtain rfl : r = one := by simpa using hr
    exact ⟨_, th0, rfl, by decide, by decide, by decide⟩⟩

set_option maxRecDepth 8000 in
set_option maxRecDepth 8000 in
/-- The literal word is found through the tables or through the translation that the instruction word has left. -/
theorem lit_found : ∀ w ∈ [nopW, litW + litL * 2 ^ 64],
    let s1 := (sWord w).apply (fetchE alone.lead fl0 alone.pc.toNat (sWord w))
    xlat s1 (some fl0.core) fl0.ctx fl0.regs.ptroot (alone.pc + 8).toNat .fetch = .ok (placeCode + 8) 0x3F := by
  intro w hw
  simp only [List.mem_cons, List.not_mem_nil, or_false] at hw
  obtain rfl | rfl := hw <;>
    (dsimp only [xlat, xlatWalk]
     generalize Dev.choose _ = b
     cases b <;> decide)

/-- A turn of an event at reset, with the acts of its clock. -/
abbrev sTurn (dt : Nat) (i : Instr) (seen : List Seen) : State :=
  { State.reset with dev := { State.reset.dev with agenda := [⟨dt, .occur i⟩], seen := seen } }

set_option maxRecDepth 8000 in
/-- Addresses of words without and with a literal; a turn of an event, one that is late in its clock; the empty agenda; an
instruction that no thread reaches. -/
theorem witness_StepRunsDecoded_fetch :
    (∀ w ∈ [nopW, litW + litL * 2 ^ 64], let s := sWord w;
      let s1 := s.apply (fetchE alone.lead fl0 alone.pc.toNat s)
      ∃ pa leaf pa' leaf', s.dev.groupFlock alone = some fl0 ∧ alone.pc.toNat < 2 ^ 57 ∧ s.dev.marks = [] ∧
        xlat s (some fl0.core) fl0.ctx fl0.regs.ptroot alone.pc.toNat .fetch = .ok pa leaf ∧
        s.dev.codeCopies fl0.core (codeKey (placeOf pa leaf alone.pc.toNat)) = [] ∧
        (s.dev.wantsLit alone (leNat (s.point (placeOf pa leaf alone.pc.toNat) 8)) = true ↔ w ≠ nopW) ∧ s1.dev.marks = [] ∧
        (alone.pc + 8).toNat < 2 ^ 57 ∧ xlat s1 (some fl0.core) fl0.ctx fl0.regs.ptroot (alone.pc + 8).toNat .fetch = .ok pa' leaf' ∧
        s1.dev.codeCopies fl0.core (codeKey (placeOf pa' leaf' (alone.pc + 8).toNat)) = []) ∧
    (let s := sTurn 3 .fwHeartbeat [];
      s.dev.issuing = none ∧ s.dev.agenda = ⟨3, .occur .fwHeartbeat⟩ :: [] ∧
        ∃ t, exec .fwHeartbeat (turnStart ⟨3, .occur .fwHeartbeat⟩ s) = .next t ∧
          ¬∃ r ∈ (Act.occur .fwHeartbeat).ranks (turnStart ⟨3, .occur .fwHeartbeat⟩ s) ++
            shownRanks (turnStart ⟨3, .occur .fwHeartbeat⟩ s).dev t.dev ((Act.occur .fwHeartbeat).ranks (turnStart ⟨3, .occur .fwHeartbeat⟩ s)),
            r.late (turnStart ⟨3, .occur .fwHeartbeat⟩ s).dev = true) ∧
    (let i := Instr.preempt .pf 0
      let s := sTurn 0 i [⟨.stop 0, State.reset.dev.stamp (.stop 0), 1⟩]
      let s1 := turnStart ⟨0, .occur i⟩ s;
      s.dev.issuing = none ∧ s.dev.agenda = ⟨0, .occur i⟩ :: [] ∧ ∃ t, exec i s1 = .next t ∧
        ∃ r ∈ (Act.occur i).ranks s1 ++ shownRanks s1.dev t.dev ((Act.occur i).ranks s1), r.late s1.dev = true) ∧
    (State.reset.dev.issuing = none ∧ State.reset.dev.agenda = []) ∧
    (rawOf (.nop (.mk (p 0 0) z z z z))).isSome = true := by
  refine ⟨fun w hw => ?_, ⟨by decide, by decide, _, rfl, ?_⟩, ⟨by decide, by decide, _, went (e := ctxCmd .pf 0 1) rfl (by decide), ⟨.stop 0, 0, false⟩,
    List.mem_append_left _ (by decide), by decide⟩, by decide, by decide⟩
  · have hl := lit_found w hw
    simp only [List.mem_cons, List.not_mem_nil, or_false] at hw
    obtain rfl | rfl := hw <;>
      exact ⟨placeCode, 0x3F, placeCode + 8, 0x3F, by decide, by decide, by decide, by decide, by decide, by decide, by decide,
        by decide, hl, by decide⟩
  · rintro ⟨r, -, h⟩
    have h0 : (turnStart ⟨3, .occur .fwHeartbeat⟩ (sTurn 3 .fwHeartbeat [])).dev.seen = [] := by decide
    simp [Ranked.late, h0] at h

/-- A state of the form that takes a step. -/
theorem witness_StepKeepsForm :
    step State.reset = .next (passTime 1 State.reset) ∧ State.reset.MemOk ∧ State.reset.StoOk ∧ State.reset.dev.Sizes := by
  refine ⟨rfl, rfl, ⟨List.nodup_nil, fun _ hx => absurd hx List.not_mem_nil⟩, ?_⟩
  constructor <;> exact List.length_replicate

end Sys2Proof.Tests
end

section
/-! SUPPORT. Registers of BAR 0: what a write makes of a list of registers that lie apart, and what a read finds there
(R5, R355, R356, R360). -/

namespace Sys2Proof.Machine

/-! ## Bytes of a value -/

/-- The low bytes of a value, put together again. -/
theorem leNat_bytes (n x : Nat) :
    leNat ((List.range n).map (fun i => BitVec.ofNat 8 (bits x (8 * i) 8))) = x % 256 ^ n := by
  induction n generalizing x with
  | zero => simp [leNat, Nat.mod_one]
  | succ n ih =>
    have hshift : ∀ i, x >>> (8 * (i + 1)) = (x / 256) >>> (8 * i) := fun i => by
      rw [Nat.mul_add, Nat.add_comm, Nat.shiftRight_add, Nat.shiftRight_eq_div_pow x]
    have htail : leNat ((List.range n).map (fun i => BitVec.ofNat 8 (bits x (8 * (i + 1)) 8))) = x / 256 % 256 ^ n := by
      simpa only [bits, hshift] using ih (x / 256)
    rw [List.range_succ_eq_map, List.map_cons, List.map_map, leNat]
    simp only [Function.comp_def, Nat.succ_eq_add_one, htail]
    rw [Nat.pow_succ', Nat.mod_mul]
    simp

/-- A write of exactly a register's bytes gives the register its value. -/
theorem RegWrite.over_same {n val : Nat} (a old : Nat) (h : val < 256 ^ n) : (⟨a, n, val⟩ : RegWrite).over a n old = val := by
  have hbytes : (⟨a, n, val⟩ : RegWrite).over a n old =
      leNat ((List.range n).map (fun i => BitVec.ofNat 8 (bits val (8 * i) 8))) := by
    unfold RegWrite.over
    refine congrArg leNat (List.map_congr_left fun i hi => ?_)
    have : i < n := List.mem_range.1 hi
    simp [this]
  rw [hbytes, leNat_bytes, Nat.mod_eq_of_lt h]

/-! ## Registers that lie apart -/

/-- Two ranges, each an offset and a length, share no byte. -/
abbrev Apart (p q : Nat × Nat) : Prop := p.1 + p.2 ≤ q.1 ∨ q.1 + q.2 ≤ p.1

/-- The bytes of a register. -/
def RegDef.span {α : Type} (r : RegDef α) : Nat × Nat := (r.at_, r.n)

theorem RegWrite.hits_eq_false {w : RegWrite} {a n : Nat} : w.hits a n = false ↔ Apart (a, n) (w.off, w.width) := by
  simp only [RegWrite.hits, decide_eq_false_iff_not]
  omega

/-- A write apart from every register of a list changes none. -/
theorem applyRegs_apart {α : Type} {rs : List (RegDef α)} {w : RegWrite} (x : α)
    (h : ∀ p ∈ rs.map RegDef.span, Apart p (w.off, w.width)) : applyRegs rs w x = x := by
  induction rs with
  | nil => rfl
  | cons r rs ih =>
    simp only [List.map_cons, List.forall_mem_cons] at h
    have hr : w.hits r.at_ r.n = false := RegWrite.hits_eq_false.2 h.1
    simpa [applyRegs, hr] using ih h.2

/-- A write of exactly one register's bytes sets that register, where the registers lie apart. -/
theorem applyRegs_same {α : Type} {rs : List (RegDef α)} {r : RegDef α} {val : Nat} (x : α)
    (hd : (rs.map RegDef.span).Pairwise Apart) (hr : r ∈ rs) (hn : 0 < r.n) (hv : val < 256 ^ r.n) :
    applyRegs rs ⟨r.at_, r.n, val⟩ x = r.set val x := by
  obtain ⟨pre, post, rfl⟩ := List.append_of_mem hr
  rw [List.map_append, List.map_cons, List.pairwise_append, List.pairwise_cons] at hd
  obtain ⟨-, ⟨hpost, -⟩, hpre⟩ := hd
  have hhit : (⟨r.at_, r.n, val⟩ : RegWrite).hits r.at_ r.n = true := by simp [RegWrite.hits, hn]
  calc applyRegs (pre ++ r :: post) ⟨r.at_, r.n, val⟩ x
      = applyRegs post ⟨r.at_, r.n, val⟩ (applyRegs [r] ⟨r.at_, r.n, val⟩ (applyRegs pre ⟨r.at_, r.n, val⟩ x)) := by
        simp [applyRegs]
    _ = applyRegs [r] ⟨r.at_, r.n, val⟩ x := by
        rw [applyRegs_apart x fun p hp => hpre p hp _ List.mem_cons_self,
          applyRegs_apart _ fun p hp => (hpost p hp).symm]
    _ = r.set val x := by simp [applyRegs, hhit, RegWrite.over_same r.at_ (r.get x) hv]

/-- A byte that no field covers reads as zero. -/
theorem fieldByte_apart {fs : List Field} {o : Nat}
    (h : ∀ p ∈ fs.map (fun x => (x.1, x.2.1)), Apart p (o, 1)) : fieldByte fs o = 0 := by
  have hnone : fs.find? (fun x => decide (x.1 ≤ o ∧ o < x.1 + x.2.1)) = none := by
    refine List.find?_eq_none.2 fun x hx => ?_
    have := h _ (List.mem_map_of_mem hx)
    simp only [decide_eq_true_eq]
    omega
  rw [fieldByte, hnone]

/-- A byte of a field reads from the field's value, where the fields lie apart. -/
theorem fieldByte_mem {fs : List Field} {a n v o : Nat} (hd : (fs.map (fun x => (x.1, x.2.1))).Pairwise Apart)
    (hx : (a, n, v) ∈ fs) (ha : a ≤ o) (hn : o < a + n) : fieldByte fs o = BitVec.ofNat 8 (bits v (8 * (o - a)) 8) := by
  obtain ⟨pre, post, rfl⟩ := List.append_of_mem hx
  rw [List.map_append, List.map_cons, List.pairwise_append] at hd
  have hpre : pre.find? (fun x => decide (x.1 ≤ o ∧ o < x.1 + x.2.1)) = none := by
    refine List.find?_eq_none.2 fun x hx => ?_
    have : Apart (x.1, x.2.1) (a, n) := hd.2.2 _ (List.mem_map_of_mem hx) _ List.mem_cons_self
    simp only [decide_eq_true_eq]
    omega
  have hfind : (pre ++ (a, n, v) :: post).find? (fun x => decide (x.1 ≤ o ∧ o < x.1 + x.2.1)) = some (a, n, v) := by
    rw [List.find?_append, hpre, Option.none_or, List.find?_cons_of_pos (by simp [ha, hn])]
  rw [fieldByte, hfind]

theorem ctxRegs_apart : ((ctxRegs ++ ctxPfRegs).map RegDef.span).Pairwise Apart := by decide
theorem devRegs_apart : (devRegs.map RegDef.span).Pairwise Apart := by decide
theorem msiRegs_apart : (msiRegs.map RegDef.span).Pairwise Apart := by decide

/-- Where the fields of a context page lie; at 8, CTXCMD, there is none to read. -/
def pageSpans : List (Nat × Nat) := [(0, 4), (4, 4), (0xC, 4)] ++ (ctxRegs ++ ctxPfRegs).map RegDef.span

theorem Ctx.page_spans (c : Ctx) : c.page.map (fun x => (x.1, x.2.1)) = pageSpans := rfl

theorem pageSpans_apart : pageSpans.Pairwise Apart := by decide

/-! ## Writes by region -/

theorem commit_registerWrite_down {f : Fn} {off width val : Nat} {s : State} (h : s.dev.mgmt.linkUp = false) :
    commit (registerWrite f off width val) s = .next s := by
  rw [registerWrite, commit_look, if_pos (.inl h), commit_skip]

/-- A write in the page of a context (R356). -/
theorem commit_registerWrite_page {f : Fn} {k i width val : Nat} {s : State} (hup : s.dev.mgmt.linkUp = true)
    (hw : width = 4 ∨ width = 8) (hk : k < 64) (hi : i < 0x1000) :
    commit (registerWrite f (0x1000 * k + i) width val) s = commit (pageWrite f k ⟨i, width, val⟩) s := by
  have hdiv : (0x1000 * k + i) / 0x1000 = k := by omega
  have hmod : (0x1000 * k + i) % 0x1000 = i := by omega
  have hoff : 0x1000 * k + i < 0x40000 := by omega
  rw [registerWrite, commit_look]
  dsimp only
  rw [if_neg (by rw [hup]; simp only [reduceCtorEq, false_or]; omega), if_pos hoff, hdiv, hmod]

/-- The registers of a context page that a function may write. -/
def pageRegs : Fn → List (RegDef CtxRegs)
  | .pf => ctxRegs ++ ctxPfRegs
  | .vf _ => ctxRegs

theorem pageRegs_apart (f : Fn) : ((pageRegs f).map RegDef.span).Pairwise Apart := by
  cases f with
  | pf => exact ctxRegs_apart
  | vf v => exact ctxRegs_apart.sublist ((List.sublist_append_left _ _).map _)

theorem mem_pageRegs (f : Fn) {r : RegDef CtxRegs} (h : r ∈ ctxRegs) : r ∈ pageRegs f := by
  cases f with
  | pf => exact List.mem_append_left _ h
  | vf v => exact h

/-- A write beyond SQTAIL and CTXCMD reaches the registers of the page. -/
theorem commit_pageWrite_regs {f : Fn} {k i width val : Nat} {s : State} (ha : s.dev.mayAct f k = true) (hi : 12 ≤ i) :
    commit (pageWrite f k ⟨i, width, val⟩) s = .next (s.device (fun d => d.modCtx k (fun c =>
      { c with regs := applyRegs (pageRegs f) ⟨i, width, val⟩ c.regs }))) := by
  have h0 : (⟨i, width, val⟩ : RegWrite).hits 0 4 = false := RegWrite.hits_eq_false.2 (by simp only [Apart]; omega)
  have h8 : (⟨i, width, val⟩ : RegWrite).hits 8 4 = false := RegWrite.hits_eq_false.2 (by simp only [Apart]; omega)
  unfold pageWrite
  rw [commit_look]
  simp only [ha, h0, h8, Bool.true_eq_false, Bool.false_eq_true, if_false, commit_upd]
  cases f <;> rfl

theorem mayAct_linkUp {d : Dev} {f : Fn} {k : Nat} (h : d.mayAct f k = true) : d.mgmt.linkUp = true ∧ k < 64 := by
  simp only [Dev.mayAct, Bool.and_eq_true, decide_eq_true_eq] at h
  exact ⟨h.1.2.2, h.1.1⟩

/-- A function's write of exactly one register of a context page that it may write. -/
theorem commit_registerWrite_reg {f : Fn} {k val : Nat} {s : State} {r : RegDef CtxRegs} (ha : s.dev.mayAct f k = true)
    (hr : r ∈ pageRegs f) (hn : r.n = 4 ∨ r.n = 8) (hlo : 12 ≤ r.at_) (hhi : r.at_ < 0x1000) (hv : val < 256 ^ r.n) :
    commit (registerWrite f (0x1000 * k + r.at_) r.n val) s =
      .next (s.device (fun d => d.modCtx k (fun c => { c with regs := r.set val c.regs }))) := by
  obtain ⟨hup, hk⟩ := mayAct_linkUp ha
  rw [commit_registerWrite_page hup hn hk hhi, commit_pageWrite_regs ha hlo]
  simp only [applyRegs_same _ (pageRegs_apart f) hr (by omega) hv]

theorem Dev.modCtx_id (d : Dev) (k : Nat) : d.modCtx k (fun c => c) = d := by
  simp [Dev.modCtx, show (fun c : Ctx => c) = id from rfl]

/-- A function's write of bytes of a context page where no register is that it may write changes nothing. -/
theorem commit_registerWrite_none {f : Fn} {k i width val : Nat} {s : State} (ha : s.dev.mayAct f k = true)
    (hw : width = 4 ∨ width = 8) (hlo : 12 ≤ i) (hhi : i < 0x1000)
    (h : ∀ p ∈ (pageRegs f).map RegDef.span, Apart p (i, width)) :
    commit (registerWrite f (0x1000 * k + i) width val) s = .next s := by
  obtain ⟨hup, hk⟩ := mayAct_linkUp ha
  rw [commit_registerWrite_page hup hw hk hhi, commit_pageWrite_regs ha hlo]
  have hset : ∀ x, applyRegs (pageRegs f) ⟨i, width, val⟩ x = x := fun x => applyRegs_apart x h
  simp only [hset, State.device, Dev.modCtx_id]

/-- SQTAIL of a context page is the doorbell (R305). -/
theorem commit_registerWrite_sqtail {f : Fn} {k val : Nat} {s : State} (hup : s.dev.mgmt.linkUp = true) (hk : k < 64)
    (hv : val < 2 ^ 32) : commit (registerWrite f (0x1000 * k) 4 val) s = commit (sqTail f k val) s := by
  have hhit : (⟨0, 4, val⟩ : RegWrite).hits 0 4 = true := rfl
  have hpage := commit_registerWrite_page (f := f) (i := 0) (val := val) hup (.inl rfl) hk (by omega)
  rw [Nat.add_zero] at hpage
  unfold pageWrite at hpage
  rw [hpage, commit_look]
  cases ha : s.dev.mayAct f k with
  | false => rw [if_pos rfl, sqTail, commit_look]; simp [ha]
  | true => simp [hhit, RegWrite.over_same 0 _ (n := 4) hv]

/-- A write within VDCLUS reaches no other register of the device region (R360). -/
theorem commit_devWrite_low {w : RegWrite} {s : State} (hst : s.dev.mgmt.stage ≠ 0) (hw : w.off + w.width ≤ 0x100) :
    commit (devWrite w) s = .next (s.device (applyRegs devRegs w)) := by
  have hslown : w.bytesIn 0x100 0x200 = [] := by
    refine List.filterMap_eq_nil_iff.2 fun i hi => if_neg ?_
    have := List.mem_range.1 hi
    omega
  have hroute : ∀ d, routeWrite w d = d := fun d => List.foldl_fixed' (fun i => if_neg (by omega)) _
  have hbank : ∀ d, bankWrite w d = d := fun d => by
    refine List.foldl_fixed' (fun i => ?_) _
    have : w.hits (0xA000 + 64 * i) 8 = false := RegWrite.hits_eq_false.2 (by simp only [Apart]; omega)
    simp [this]
  have hmove : w.hits 0x400 8 = false := RegWrite.hits_eq_false.2 (by simp only [Apart]; omega)
  rw [devWrite, commit_look, if_neg hst, commit_andThen_of_next (commit_upd _ _), hmove, commit_whenE_false]
  simp only [hslown, List.foldl_nil, hroute, hbank]
  rfl

/-- VDCLUS of a virtual device (R360). -/
theorem commit_registerWrite_vdclus {v val : Nat} {s : State} (hup : s.dev.mgmt.linkUp = true)
    (hst : s.dev.mgmt.stage ≠ 0) (hv : v < 16) (hval : val < 2 ^ 64) :
    commit (registerWrite .pf (0x60000 + 8 * v) 8 val) s =
      .next (s.device (fun d => { d with vdclus := d.vdclus.set v (BitVec.ofNat 64 val) })) := by
  have hmem : (⟨8 * v, 8, fun d => (d.vdclus[v]?.getD 0).toNat, fun x d => { d with vdclus := d.vdclus.set v (w64 x) }⟩ :
      RegDef Dev) ∈ devRegs :=
    List.mem_append_left _ (List.mem_append_left _ (List.mem_map.2 ⟨v, List.mem_range.2 hv, rfl⟩))
  have hset := fun d => applyRegs_same d devRegs_apart hmem (by simp) hval
  have hoff : 0x60000 + 8 * v - 0x60000 = 8 * v := by omega
  have hregion : commit (registerWrite .pf (0x60000 + 8 * v) 8 val) s = commit (devWrite ⟨8 * v, 8, val⟩) s := by
    rw [registerWrite, commit_look]
    dsimp only
    rw [if_neg (by simp [hup]), if_neg (by omega), if_neg (by omega), if_neg (by omega), if_neg (by omega), hoff]
  rw [hregion, commit_devWrite_low hst (by simp only; omega)]
  exact congrArg (fun D => Host.Outcome.next (s.device D)) (funext hset)

/-- The message address of PF_0's vector (R355). -/
theorem commit_registerWrite_msiAddr {val : Nat} {s : State} (hup : s.dev.mgmt.linkUp = true)
    (hst : s.dev.mgmt.stage ≠ 0) (hval : val < 2 ^ 64) :
    commit (registerWrite .pf 0x70000 8 val) s = .next (s.device (fun d => d.modQueue 0 (fun q =>
      ({ q with msiAddr := BitVec.ofNat 64 val } : EvQueue).unmasked))) := by
  have hset := fun q => applyRegs_same q msiRegs_apart (List.mem_cons_self) (by simp) hval
  have hregion : commit (registerWrite .pf 0x70000 8 val) s = commit (msiWrite .pf ⟨0, 8, val⟩) s := by
    rw [registerWrite, commit_look]
    dsimp only
    rw [if_neg (by simp [hup]), if_neg (by omega), if_neg (by omega), if_pos (by omega)]
    rfl
  rw [hregion, msiWrite, commit_look]
  simp only [decide_not, hst, decide_false, Bool.not_false, commit_whenE_true, commit_upd, queueNum, hset]
  rfl

/-! ## Reads of context pages -/

/-- A byte of a context's page (R356, R373). -/
theorem Dev.barByte_page (d : Dev) (f : Fn) {k i : Nat} (hk : k < 64) (hi : i < 0x1000) :
    d.barByte f (0x1000 * k + i) = if d.mayAct f k then fieldByte (d.ctx k).page i else 0 := by
  have hdiv : (0x1000 * k + i) / 0x1000 = k := by omega
  have hmod : (0x1000 * k + i) % 0x1000 = i := by omega
  unfold Dev.barByte
  rw [if_pos (by omega), hdiv, hmod]

/-- CTXCMD reads as zero. -/
theorem Ctx.page_ctxcmd (c : Ctx) {i : Nat} (hlo : 8 ≤ i) (hhi : i < 12) : fieldByte c.page i = 0 := by
  have hspans : ∀ p ∈ pageSpans, p.1 + p.2 ≤ 8 ∨ 12 ≤ p.1 := by decide
  refine fieldByte_apart fun p hp => ?_
  have := hspans p hp
  simp only [Apart]
  omega

theorem Ctx.page_sqhead (c : Ctx) {i : Nat} (hlo : 4 ≤ i) (hhi : i < 8) :
    fieldByte c.page i = BitVec.ofNat 8 (bits c.sqhead (8 * (i - 4)) 8) :=
  fieldByte_mem (n := 4) pageSpans_apart (by simp [Ctx.page]) hlo hhi

theorem Ctx.page_ptroot (c : Ctx) {i : Nat} (hlo : 0x40 ≤ i) (hhi : i < 0x48) :
    fieldByte c.page i = BitVec.ofNat 8 (bits c.regs.ptroot.toNat (8 * (i - 0x40)) 8) :=
  fieldByte_mem (n := 8) pageSpans_apart (by simp [Ctx.page, readRegs, ctxRegs]) hlo hhi

/-- No virtual function reaches context 0 (R373). -/
theorem Dev.mayAct_vf_zero (d : Dev) (v : Nat) : d.mayAct (.vf v) 0 = false := by simp [Dev.mayAct]

end Sys2Proof.Machine
end

section
/-! SUPPORT. What a home slice holds of a line, what operations leave of it, and what a write at the slice makes of it
(R98-R102, R271). -/

namespace Sys2Proof.Machine

/-! ## Operations in two parts -/

/-- An operation in two parts passes through a state between them. -/
theorem commit_andThen_next {a b : Eff} {s t : State} :
    commit (a.andThen b) s = .next t ↔ ∃ u, commit a s = .next u ∧ commit b u = .next t := by
  rw [commit_andThen]
  cases commit a s <;> simp

theorem commit_upd_next {f : Dev → Dev} {s t : State} : commit (upd f) s = .next t ↔ t = s.device f := by
  rw [commit_upd, Host.Outcome.next.injEq]
  exact eq_comm

/-! ## Vaults by number -/

theorem Dev.vault_modVault_same (d : Dev) {n : Nat} (g : Vault → Vault) (h : n < d.vaults.length) :
    (d.modVault n g).vault n = g (d.vault n) := by
  simp [Dev.modVault, Dev.vault, h]

theorem Dev.vault_modVault_other (d : Dev) {n v : Nat} (g : Vault → Vault) (h : n ≠ v) :
    (d.modVault n g).vault v = d.vault v := by
  simp [Dev.modVault, Dev.vault, h]

/-- A property that a change of a vault keeps, every vault keeps. -/
theorem Dev.vault_modVault_keep {α : Type} (d : Dev) (n v : Nat) (g : Vault → Vault) (p : Vault → α)
    (h : ∀ x, p (g x) = p x) : p ((d.modVault n g).vault v) = p (d.vault v) := by
  by_cases hn : n = v
  · subst hn
    by_cases hl : n < d.vaults.length
    · rw [Dev.vault_modVault_same d g hl, h]
    · rw [Dev.modVault, List.modify_eq_self (by omega)]
  · rw [Dev.vault_modVault_other d g hn]

theorem homeOf_lt (pa : Nat) : homeOf pa < 64 := by
  have hstack : stackOf pa < 2 ^ 3 :=
    Nat.xor_lt_two_pow (Nat.xor_lt_two_pow (Nat.mod_lt _ (by decide)) (Nat.mod_lt _ (by decide))) (Nat.mod_lt _ (by decide))
  unfold homeOf
  omega

/-- Every byte of a line has the line's home (R96). -/
theorem homeOf_line (pa : Nat) : homeOf (pa / 128 * 128) = homeOf pa := by
  have hbits : ∀ l n, 7 ≤ l → bits (pa / 128 * 128) l n = bits pa l n := fun l n hl => by
    have hl : l = 7 + (l - 7) := by omega
    have hline : (pa / 128 * 128) >>> 7 = pa >>> 7 := by
      simp only [Nat.shiftRight_eq_div_pow]
      omega
    rw [bits, bits, hl, Nat.shiftRight_add, Nat.shiftRight_add, hline]
  simp only [homeOf, stackOf, pcOf]
  rw [hbits 8 3 (by omega), hbits 19 3 (by omega), hbits 30 3 (by omega), hbits 11 8 (by omega), hbits 31 8 (by omega)]

/-! ## The bytes of a line at its point of serialisation -/

theorem Line.length_bytes (l : Line) : l.bytes.length = 128 := by
  unfold Line.bytes
  split
  · exact List.length_replicate
  · exact List.takeD_length _ _ _

/-- The bytes that the home slice of a line holds of it, if it holds the line (R98). -/
def Dev.lineHeld (d : Dev) (ln : Nat) : Option (List Byte) := ((d.vault (homeOf (ln * 128))).line? ln).map Line.bytes

theorem State.lineBytes_eq (s : State) (ln : Nat) :
    s.lineBytes ln = (s.dev.lineHeld ln).getD (Memory.reads s.mem (ln * 128) 128) := by
  unfold State.lineBytes Dev.lineHeld
  cases (s.dev.vault (homeOf (ln * 128))).line? ln <;> rfl

theorem State.length_lineBytes (s : State) (ln : Nat) : (s.lineBytes ln).length = 128 := by
  unfold State.lineBytes
  split
  · exact Line.length_bytes _
  · simp [Memory.reads]

/-- Bytes of DRAM within a line are those of the line (R271). -/
theorem State.point_dram (s : State) (pa n : Nat) : s.point (.dram pa) n =
    ((s.lineBytes (s.dev.redirect pa / 128)).drop (s.dev.redirect pa % 128)).take n := rfl

/-- Moved pages keep the place of a byte in its line (R332). -/
theorem Dev.redirect_mod (d : Dev) (pa : Nat) : d.redirect pa % 128 = pa % 128 := by
  unfold Dev.redirect
  split <;> omega

theorem Dev.redirect_congr {d e : Dev} (h : e.move = d.move) (pa : Nat) : e.redirect pa = d.redirect pa := by
  simp only [Dev.redirect, h]

theorem length_overlay {old bs : List Byte} {off : Nat} (h : off + bs.length ≤ old.length) :
    (overlay old off bs).length = old.length := by
  simp only [overlay, List.length_append, List.length_take, List.length_drop]
  omega

/-- The bytes laid over are found there. -/
theorem take_drop_overlay {old bs : List Byte} {off : Nat} (h : off ≤ old.length) :
    ((overlay old off bs).drop off).take bs.length = bs := by
  have hlen : (old.take off).length = off := by simp [h]
  rw [overlay, List.append_assoc, List.drop_append_of_le_length (by omega), List.drop_eq_nil_of_le (by omega), List.nil_append,
    List.take_left]

/-! ## Consecutive bytes of memory -/

/-- A byte of memory after a write of consecutive bytes. -/
theorem read_memWrites {s : State} (hm : s.MemOk) (a c : Nat) (bs : List Byte) :
    Memory.read (s.applyWrites (memWrites a bs)).mem c =
      if a ≤ c then bs[c - a]?.getD (Memory.read s.mem c) else Memory.read s.mem c := by
  induction bs generalizing a s with
  | nil => simp [memWrites]
  | cons b bs ih =>
    have hrest := ih (s := s.applyWrite (.mem a b)) (State.applyWrite_memOk hm _) (a + 1)
    have hsplit : s.applyWrites (memWrites a (b :: bs)) = (s.applyWrite (.mem a b)).applyWrites (memWrites (a + 1) bs) := rfl
    rw [hsplit, hrest]
    simp only [State.applyWrite]
    rcases Nat.lt_trichotomy c a with hlt | rfl | hgt
    · rw [if_neg (by omega), if_neg (by omega), Memory.read_write_other hm b (by omega)]
    · rw [if_neg (by omega), if_pos (Nat.le_refl _), Memory.read_write_same hm]
      simp
    · have hidx : c - a = (c - (a + 1)) + 1 := by omega
      rw [if_pos (by omega), if_pos (by omega), Memory.read_write_other hm b (by omega), hidx, List.getElem?_cons_succ]

/-- A range of memory after a write within it. -/
theorem reads_memWrites {s : State} (hm : s.MemOk) {a n off : Nat} {bs : List Byte} (h : off + bs.length ≤ n) :
    Memory.reads (s.applyWrites (memWrites (a + off) bs)).mem a n = overlay (Memory.reads s.mem a n) off bs := by
  refine List.ext_getElem (by simp [Memory.reads, overlay]; omega) fun i h1 h2 => ?_
  have hi : i < n := by simpa [Memory.reads] using h1
  simp only [Memory.reads, List.getElem_map, List.getElem_range, read_memWrites hm, overlay, List.getElem_append,
    List.length_append, List.length_take, List.length_map, List.length_range, List.getElem_take, List.getElem_drop]
  have hmin : min off n = off := by omega
  simp only [hmin]
  by_cases hlo : i < off
  · simp [hlo, show i < off + bs.length by omega, show ¬a + off ≤ a + i by omega]
  · by_cases hhi : i < off + bs.length
    · have hidx : a + i - (a + off) = i - off := by omega
      simp [hlo, hhi, hidx, show off ≤ i by omega, show i - off < bs.length by omega]
    · have hidx : a + i - (a + off) = i - off := by omega
      have hback : off + bs.length + (i - (off + bs.length)) = i := by omega
      simp [hhi, hidx, hback, show bs.length ≤ i - off by omega]

end Sys2Proof.Machine
end

section
/-! SUPPORT. A write at a home slice: the line afterwards holds the written bytes, whether the slice holds the line, takes it
in, or sends the bytes past (R98, R99, R101, R271). -/

namespace Sys2Proof.Machine

/-! ## What leaves the vaults as they are -/

/-- The vaults are the same. -/
abbrev SameVaults (d e : Dev) : Prop := e.vaults = d.vaults

theorem sameVaults_steady : Steady SameVaults := Steady.eq (·.vaults)

theorem sameVaults_dramAsk (w : Who) (pa n : Nat) (d : Dev) : SameVaults d (dramAsk w pa n d) := by
  unfold dramAsk
  dsimp only
  split <;> rfl

theorem sameVaults_wake (e : WatchEnt) (val : List Byte) (d : Dev) : SameVaults d (wake e val d) := by
  unfold wake
  split <;> rfl

theorem vaults_postEvent (q : Nat) (e : Event) : (postEvent q e).Keeps SameVaults := by
  refine keeps_look fun s => ?_
  dsimp only
  split
  · exact keeps_look fun _ => keeps_andThen sameVaults_steady (keeps_wr sameVaults_steady _) (keeps_upd fun _ => rfl)
  · split
    · exact keeps_upd fun _ => rfl
    · split <;> exact keeps_upd fun _ => rfl

theorem vaults_bankRecord (bank cls : Nat) (ctx : Option Nat) (code inst : Nat) (addr synd : W64) :
    (bankRecord bank cls ctx code inst addr synd).Keeps SameVaults := by
  refine keeps_look fun s => ?_
  dsimp only
  split
  · exact keeps_andThen sameVaults_steady (keeps_upd fun _ => rfl)
      (keeps_andThen sameVaults_steady (keeps_upd fun _ => rfl) (vaults_postEvent _ _))
  · exact keeps_upd fun _ => rfl

theorem vaults_eccRecord (bank cls : Nat) (ctx : Option Nat) (code inst : Nat) (addr : W64) :
    (eccRecord bank cls ctx code inst addr).Keeps SameVaults :=
  keeps_look fun _ => keeps_andThen sameVaults_steady (vaults_bankRecord _ _ _ _ _ _ _) (keeps_upd fun _ => rfl)

theorem vaults_lineMarks (ln : Nat) : (lineMarks ln).Keeps SameVaults := by
  refine keeps_look fun s => keeps_seqE sameVaults_steady fun a ha => ?_
  simp only [List.mem_cons, List.not_mem_nil, or_false] at ha
  rcases ha with rfl | rfl
  · exact keeps_forE sameVaults_steady fun _ _ => vaults_eccRecord _ _ _ _ _ _
  · exact keeps_upd fun _ => rfl

theorem vaults_writeBack (l : Line) : (writeBack l).Keeps SameVaults :=
  keeps_andThen sameVaults_steady (vaults_lineMarks _)
    (keeps_andThen sameVaults_steady (keeps_wr sameVaults_steady _) (keeps_upd (sameVaults_dramAsk _ _ _)))

/-! ## What leaves the bytes of a held line as they are -/

theorem Dev.lineHeld_congr {d e : Dev} (h : SameVaults d e) (ln : Nat) : e.lineHeld ln = d.lineHeld ln := by
  have hvault : ∀ v, e.vault v = d.vault v := fun v => congrArg (fun l : List Vault => l[v]?.getD .reset) h
  rw [Dev.lineHeld, hvault]
  rfl

theorem Dev.lineHeld_modVault (d : Dev) (n ln : Nat) (g : Vault → Vault)
    (h : ∀ x, ((g x).line? ln).map Line.bytes = (x.line? ln).map Line.bytes) :
    (d.modVault n g).lineHeld ln = d.lineHeld ln :=
  Dev.vault_modVault_keep d n _ g (fun x => (x.line? ln).map Line.bytes) h

theorem Vault.line?_modLine (v : Vault) (k ln : Nat) (f : Line → Line) (hf : ∀ l, (f l).line = l.line) :
    (v.modLine k f).line? ln = (v.line? ln).map (fun l => if l.line = k then f l else l) := by
  refine find?_map_keep v.lines _ _ fun l => ?_
  split <;> simp [hf]

theorem lineHeld_touchLine {k : Nat} {s t : State} (ln : Nat) (h : commit (touchLine k) s = .next t) :
    t.dev.lineHeld ln = s.dev.lineHeld ln := by
  rw [commit_upd_next.1 h]
  refine Dev.lineHeld_modVault _ _ _ _ fun x => ?_
  refine (congrArg (Option.map Line.bytes) (Vault.line?_modLine x k ln _ ?_)).trans ?_
  · exact fun _ => rfl
  rw [Option.map_map]
  refine congrArg (Option.map · _) (funext fun l => ?_)
  simp only [Function.comp]
  split <;> rfl

/-- A check of watches leaves every line as it is (R102). -/
theorem lineBytes_watchCheck {v n : Nat} {loc : Loc} {s t : State} (ln : Nat) (h : commit (watchCheck v loc n) s = .next t) :
    t.lineBytes ln = s.lineBytes ln := by
  have hwake : ∀ (es : List WatchEnt) (d : Dev), SameVaults d (es.foldl (fun d e => wake e (s.point e.loc e.n) d) d) := by
    intro es
    induction es with
    | nil => exact fun d => sameVaults_steady.refl d
    | cons e es ih => exact fun d => sameVaults_steady.trans _ _ _ (sameVaults_wake _ _ _) (ih _)
  rw [watchCheck, commit_look] at h
  rw [commit_upd_next.1 h, State.lineBytes_eq, State.lineBytes_eq]
  refine congrArg (Option.getD · _) ((Dev.lineHeld_congr (hwake _ _) ln).trans ?_)
  exact Dev.lineHeld_modVault _ _ _ _ fun _ => rfl

/-! ## The three ways of a write -/

theorem Line.bytes_eq_data {l : Line} (hst : l.st ≠ .zero) (hn : l.data.length = 128) : l.bytes = l.data := by
  rw [Line.bytes, if_neg hst, List.takeD_eq_take _ (by simp [hn]), ← hn, List.take_length]

/-- A line put into its slice is found there. -/
theorem Dev.lineHeld_modVault_cons {d : Dev} {ln : Nat} {g : Vault → Vault} {l : Line} {ls : List Line}
    (hv : d.vaults.length = 64) (hg : (g (d.vault (homeOf (ln * 128)))).lines = l :: ls) (hl : l.line = ln) :
    (d.modVault (homeOf (ln * 128)) g).lineHeld ln = some l.bytes := by
  rw [Dev.lineHeld, Dev.vault_modVault_same _ _ (hv ▸ homeOf_lt _), Vault.line?, hg,
    List.find?_cons_of_pos (by simp [hl]), Option.map_some]

/-- New contents of a line that the slice holds. -/
theorem lineHeld_set {ln : Nat} {st : LineSt} {new : List Byte} {s t : State} (hv : s.dev.vaults.length = 64)
    (hs : (s.dev.lineHeld ln).isSome) (hst : st ≠ .zero) (hn : new.length = 128)
    (h : commit ((upd (fun d => d.modVault (homeOf (ln * 128)) (fun x => x.modLine ln (fun l =>
      { l with st := st, data := new })))).andThen (touchLine ln)) s = .next t) : t.dev.lineHeld ln = some new := by
  obtain ⟨u, hu, ht⟩ := commit_andThen_next.1 h
  obtain ⟨l, hl⟩ := Option.isSome_iff_exists.1 ((Option.isSome_map ..).symm.trans hs)
  have hline : l.line = ln := by simpa using List.find?_some hl
  have hbytes : ({ l with st := st, data := new } : Line).bytes = new := Line.bytes_eq_data hst hn
  rw [lineHeld_touchLine ln ht, commit_upd_next.1 hu, Dev.lineHeld, State.device,
    Dev.vault_modVault_same _ _ (hv ▸ homeOf_lt _), Vault.line?_modLine, hl]
  · rw [Option.map_some, Option.map_some, if_pos hline, hbytes]
  · exact fun _ => rfl

/-- A way can always be picked from a mask that is not empty (R101). -/
theorem pickWay_isSome (lines : List Line) (sets ln : Nat) {mask : Nat} (h0 : mask ≠ 0) (h : mask < 2 ^ 16) :
    pickWay lines sets ln mask ≠ none := by
  obtain ⟨i, hi⟩ := Nat.exists_testBit_of_ne_zero h0
  have hlt : i < 16 := by
    by_contra hge
    rw [Nat.testBit_lt_two_pow (h.trans_le (Nat.pow_le_pow_right (by decide) (by omega)))] at hi
    exact Bool.false_ne_true hi
  have hway : i ∈ (List.range 16).filter (fun w => mask.testBit w) := List.mem_filter.2 ⟨List.mem_range.2 hlt, hi⟩
  unfold pickWay
  dsimp only
  split
  · simp
  · rename_i hfull
    have hused := List.find?_eq_none.1 hfull i hway
    simp only [List.all_eq_true, decide_eq_true_eq, not_forall, not_not] at hused
    obtain ⟨l, hl, hli⟩ := hused
    have hcand : l ∈ (lines.filter (fun l => l.line % sets = ln % sets)).filter (fun l => mask.testBit l.way) :=
      List.mem_filter.2 ⟨hl, by simp [hli, hi]⟩
    split
    · rename_i hnil
      rw [hnil] at hcand
      exact absurd hcand List.not_mem_nil
    · simp

/-- A line that a slice takes in. -/
theorem lineHeld_allocLine {w : Who} {l ln : Nat} {st : LineSt} {data : List Byte} {s t : State}
    (hv : s.dev.vaults.length = 64) (hmask : bits (s.dev.part w).toNat 0 16 ≠ 0) (hst : st ≠ .zero)
    (hdata : data.length = 128) (h : commit (allocLine w l ln st data) s = .next t) : t.dev.lineHeld ln = some data := by
  have hput : ∀ {way : Nat} {u : State}, u.dev.vaults.length = 64 →
      commit (upd (fun d => d.modVault (homeOf (ln * 128)) (fun x =>
        { x with tick := x.tick + 1,
                 lines := ⟨ln, st, way, if policy (s.dev.part w) l = 2 then 0 else x.tick + 1, data⟩ :: x.lines }))) u =
        .next t → t.dev.lineHeld ln = some data := fun hu hp => by
    rw [commit_upd_next.1 hp]
    refine (Dev.lineHeld_modVault_cons (ln := ln) hu rfl rfl).trans ?_
    rw [Line.bytes_eq_data hst hdata]
  rw [allocLine, commit_look] at h
  dsimp only at h
  split at h
  · rename_i hnone
    exact absurd hnone (pickWay_isSome _ _ _ hmask (Nat.mod_lt _ (by decide)))
  · split at h
    · exact hput hv h
    · have hdrop : ∀ (old : Line) (e : Dev), (e.dropLine old.line).vaults.length = e.vaults.length := fun old e =>
        (sliceKeeps_dropLine e old.line).vaults
      split at h
      · obtain ⟨u, hu, ht⟩ := commit_andThen_next.1 h
        exact hput (by rw [commit_upd_next.1 hu, State.device, hdrop, hv]) ht
      · obtain ⟨u, hu, ht⟩ := commit_andThen_next.1 h
        obtain ⟨u', hu', ht'⟩ := commit_andThen_next.1 ht
        have hback : u.dev.vaults = s.dev.vaults := (vaults_writeBack _).next hu
        exact hput (by rw [commit_upd_next.1 hu', State.device, hdrop, hback, hv]) ht'

/-- Bytes that go past the slice to memory. -/
theorem lineBytes_past {ln off n m : Nat} {w : Who} {bs : List Byte} {s t : State} (hm : s.MemOk)
    (hs : s.dev.lineHeld ln = none) (hoff : off + bs.length ≤ 128)
    (h : commit ((wr (memWrites (ln * 128 + off) bs)).andThen (upd (dramAsk w m n))) s = .next t) :
    t.lineBytes ln = overlay (s.lineBytes ln) off bs := by
  rw [commit_andThen_of_next (commit_wr _ _)] at h
  have hheld : t.dev.lineHeld ln = none := by
    rw [commit_upd_next.1 h, State.device, Dev.lineHeld_congr (sameVaults_dramAsk _ _ _ _), State.applyWrites_dev, hs]
  have hmem : t.mem = (s.applyWrites (memWrites (ln * 128 + off) bs)).mem := by rw [commit_upd_next.1 h]; rfl
  rw [State.lineBytes_eq, State.lineBytes_eq, hheld, hs, hmem]
  exact reads_memWrites hm hoff

/-- A slice that takes in a line of which a write gives new bytes. -/
theorem lineHeld_fill {w : Who} {b : Bool} {o : Option Nat} {pol pa n m ln : Nat} {st : LineSt} {new : List Byte} {s t : State}
    (hv : s.dev.vaults.length = 64) (hmask : bits (s.dev.part w).toNat 0 16 ≠ 0) (hst : st ≠ .zero) (hn : new.length = 128)
    (h : commit ((upd (dramAsk w pa n)).andThen ((whenE b (fillMarks o m)).andThen (allocLine w pol ln st new))) s = .next t) :
    t.dev.lineHeld ln = some new := by
  obtain ⟨u, hu, h⟩ := commit_andThen_next.1 h
  obtain ⟨u', hu', ht⟩ := commit_andThen_next.1 h
  have hask : SliceKeeps s.dev u.dev := (keeps_upd (sliceKeeps_dramAsk w pa n)).next hu
  have hmarks : SliceKeeps u.dev u'.dev := (keeps_whenE sliceKeeps_steady (keeps_fillMarks o m)).next hu'
  have hkeep := sliceKeeps_steady.trans _ _ _ hask hmarks
  have hpart : u'.dev.part w = s.dev.part w := by
    rw [Dev.part, ← hkeep.rest]
    rfl
  exact lineHeld_allocLine (hkeep.vaults.trans hv) (hpart ▸ hmask) hst hn ht

theorem SliceKeeps.move {d e : Dev} (h : SliceKeeps d e) : e.move = d.move := by rw [← h.rest]
theorem SliceKeeps.answer {d e : Dev} (h : SliceKeeps d e) : e.answer = d.answer := by rw [← h.rest]

/-- The state in which a write leaves the line in its slice (R98, R99). -/
def WrKind.leaves (k : WrKind) (may : Bool) : LineSt :=
  match k with
  | .stf c => if may then .fwd c else .dirty
  | .zfill => .zero
  | _ => .dirty

theorem WrKind.leaves_ne_zero {k : WrKind} (may : Bool) (hk : k ≠ .zfill) : k.leaves may ≠ .zero := by
  cases k with
  | plain | atomic => exact LineSt.noConfusion
  | stf c => cases may <;> exact LineSt.noConfusion
  | zfill => exact absurd rfl hk

/-- A miss that may allocate has ways to allocate in (R101). -/
theorem mayAlloc_mask {d : Dev} {w : Who} {v l : Nat} (h : mayAlloc d w v l = true) : bits (d.part w).toNat 0 16 ≠ 0 := by
  simp only [mayAlloc, Bool.and_eq_true, decide_eq_true_eq] at h
  exact h.1.2

/-- After a write within a line at its home slice the line is as before with the bytes laid over it (R98, R271). -/
theorem lineBytes_sliceWriteE {w : Who} {k : WrKind} {pa : Nat} {bs : List Byte} {s t : State} (hk : k ≠ .zfill)
    (hm : s.MemOk) (hv : s.dev.vaults.length = 64) (hbad : s.dev.lineBad (s.dev.redirect pa / 128) = false)
    (hn : pa % 128 + bs.length ≤ 128) (h : commit (sliceWriteE w k pa bs) s = .next t) :
    t.lineBytes (s.dev.redirect pa / 128) = overlay (s.lineBytes (s.dev.redirect pa / 128)) (pa % 128) bs := by
  rw [sliceWriteE, commit_look] at h
  dsimp only at h
  rw [s.dev.redirect_mod] at h
  have hmod := s.dev.redirect_mod pa
  generalize s.dev.redirect pa = pa' at *
  obtain ⟨u, hu, h⟩ := commit_andThen_next.1 h
  obtain ⟨u', hact, hwatch⟩ := commit_andThen_next.1 h
  have hvaults : SameVaults s.dev u.dev := (keeps_upd fun _ => rfl : (upd (touched w (pa' / 128))).Keeps SameVaults).next hu
  have hlen : u.dev.vaults.length = 64 := (congrArg List.length hvaults).trans hv
  have hpart : u.dev.part w = s.dev.part w := by rw [commit_upd_next.1 hu]; rfl
  have hbytes : u.lineBytes (pa' / 128) = s.lineBytes (pa' / 128) := by rw [commit_upd_next.1 hu]; rfl
  rw [lineBytes_watchCheck _ hwatch]
  clear h hwatch
  have hnew : (overlay (s.lineBytes (pa' / 128)) (pa % 128) bs).length = 128 := by
    rw [length_overlay (by rw [State.length_lineBytes]; exact hn), State.length_lineBytes]
  have hin : ∀ {b}, u'.dev.lineHeld (pa' / 128) = some b → u'.lineBytes (pa' / 128) = b := fun hb => by
    rw [State.lineBytes_eq, hb, Option.getD_some]
  generalize (if k = .atomic then 20 else 18) = pol at hact
  rw [← homeOf_line pa'] at hact
  have hst := fun may => WrKind.leaves_ne_zero may hk
  split at hact
  · rename_i l hl
    have hheld : (u.dev.lineHeld (pa' / 128)).isSome := by rw [Dev.lineHeld_congr hvaults, Dev.lineHeld, hl]; rfl
    split at hact
    · split at hact
      · obtain ⟨x, hback, hset⟩ := commit_andThen_next.1 hact
        have hx : SameVaults u.dev x.dev := (vaults_writeBack l).next hback
        have hheld' : (x.dev.lineHeld (pa' / 128)).isSome := by rw [Dev.lineHeld_congr hx]; exact hheld
        exact hin (lineHeld_set ((congrArg List.length hx).trans hlen) hheld' (hst _) hnew hset)
      · exact hin (lineHeld_set hlen hheld (hst _) hnew hact)
    · exact hin (lineHeld_set hlen hheld (hst _) hnew hact)
  · rename_i hl
    split at hact
    · rename_i hmay
      split at hact
      · exact absurd rfl hk
      · rw [if_neg (by simp [hbad])] at hact
        have hmask : bits (u.dev.part w).toNat 0 16 ≠ 0 := by rw [hpart]; exact mayAlloc_mask hmay
        exact hin (lineHeld_fill hlen hmask (hst true) hnew hact)
    · have hnone : u.dev.lineHeld (pa' / 128) = none := by rw [Dev.lineHeld_congr hvaults, Dev.lineHeld, hl]; rfl
      have hplace : pa' / 128 * 128 + pa % 128 = pa' := by omega
      rw [← hbytes]
      exact lineBytes_past (commit_memOk hm hu) hnone hn (hplace.symm ▸ hact)

/-- The bytes of a write within a line are found at its place (R271). -/
theorem point_sliceWriteE {w : Who} {k : WrKind} {pa : Nat} {bs : List Byte} {s t : State} (hk : k ≠ .zfill)
    (hm : s.MemOk) (hv : s.dev.vaults.length = 64) (hbad : s.dev.lineBad (s.dev.redirect pa / 128) = false)
    (hn : pa % 128 + bs.length ≤ 128) (h : commit (sliceWriteE w k pa bs) s = .next t) :
    t.point (.dram pa) bs.length = bs := by
  have hkeep : SliceKeeps s.dev t.dev := (keeps_sliceWriteE w k pa bs).next h
  rw [State.point_dram, Dev.redirect_congr hkeep.move, Dev.redirect_mod, lineBytes_sliceWriteE hk hm hv hbad hn h]
  exact take_drop_overlay (by rw [State.length_lineBytes]; omega)

end Sys2Proof.Machine
end

section
/-! SUPPORT. The DRAM window where no stored bit carries a fault (R268, R331, R355), and what the return of the link delivers
(R359, R430). -/

namespace Sys2Proof.Machine

/-! ## Memory without faults of stored bits -/

theorem Dev.marksOn_clean {d : Dev} (h : d.marks = []) (loc : Loc) (n : Nat) : d.marksOn loc n = [] := by
  simp [Dev.marksOn, h]

theorem Dev.lineBad_clean {d : Dev} (h : d.marks = []) (ln : Nat) : d.lineBad ln = false := by
  simp [Dev.lineBad, h]

theorem Dev.eccBad_clean {d : Dev} (h : d.marks = []) (loc : Loc) (n : Nat) : d.eccBad loc n = false := by
  simp [Dev.eccBad, Dev.marksOn_clean h]

theorem commit_eccWrite_clean {s : State} (h : s.dev.marks = []) (loc : Loc) (n : Nat) :
    commit (eccWrite loc n) s = .next s := by
  have hdev : unmark [] s.dev = s.dev := by simp [unmark]
  rw [eccWrite, commit_look, Dev.marksOn_clean h, List.filter_nil, commit_upd, hdev]

theorem commit_eccRead_clean {s : State} (h : s.dev.marks = []) (k : Option Nat) (loc : Loc) (n : Nat) :
    commit (eccRead k loc n) s = .next s := by
  rw [eccRead, commit_look, Dev.marksOn_clean h, commit_forE_nil]

theorem commit_lineWrite_clean {s : State} (h : s.dev.marks = []) (w : Who) (k : WrKind) (pa : Nat) (bs : List Byte) :
    commit (lineWrite w k pa bs) s = commit (sliceWriteE w k pa bs) s := by
  have hbad : ∀ pol, s.dev.writeBad w (.dram pa) bs.length pol = [] := fun pol => by
    simp [Dev.writeBad, Dev.marksOn_clean h]
  rw [lineWrite, commit_look, hbad]

/-! ## The window -/

/-- A read at a slice changes only what SliceKeeps leaves open. -/
theorem keeps_sliceReadE (w : Who) (pa : Nat) : (sliceReadE w pa).Keeps SliceKeeps := by
  have hs := sliceKeeps_steady
  refine keeps_look fun s => ?_
  dsimp only
  refine keeps_andThen hs (keeps_upd (sliceKeeps_touched _ _)) ?_
  split
  · rename_i l _
    generalize (w.consume && (match l.st with
      | .fwd c => decide (w.core = some c)
      | _ => false)) = own
    cases own with
    | true => exact keeps_andThen hs (keeps_upd fun _ => sliceKeeps_dropLine _ _) (keeps_watchCheck _ _ _)
    | false => exact keeps_touchLine _
  · split
    · exact keeps_andThen hs (keeps_upd (sliceKeeps_dramAsk _ _ _))
        (keeps_andThen hs (keeps_fillMarks _ _) (keeps_allocLine _ _ _ _ _))
    · exact keeps_upd (sliceKeeps_dramAsk _ _ _)

/-- A range within a line is one piece. -/
theorem lineSegs_line {a n : Nat} (h0 : 0 < n) (h : a % 128 + n ≤ 128) : lineSegs a n = [(a, n)] := by
  have hone : ceilDiv (a % 128 + n) 128 = 1 := by
    unfold ceilDiv
    omega
  rw [lineSegs, hone]
  simp only [List.range_one, List.map_cons, List.map_nil, List.cons.injEq, Prod.mk.injEq, and_true]
  omega

theorem reaches_linkUp {d : Dev} {f : Fn} (h : d.reaches f = true) : d.mgmt.linkUp = true := by
  simp only [Dev.reaches, Bool.and_eq_true] at h
  exact h.1.2

/-- A function that reaches its window finds it answer within its 16 GiB. -/
theorem window_open {s : State} {f : Fn} {off n : Nat} (hf : s.dev.reaches f = true) (hoff : off + n ≤ 2 ^ 34) :
    ¬(s.dev.mgmt.linkUp = false ∨ 2 ^ 34 < off + n) := by
  rw [reaches_linkUp hf]
  simp only [reduceCtorEq, false_or]
  omega

theorem commit_forE_single {α : Type} (x : α) (g : α → Eff) (s : State) : commit (forE [x] g) s = commit (g x) s := rfl

section
variable {s : State} {f : Fn} {off : Nat} {bs : List Byte} (hf : s.dev.reaches f = true) (hoff : off + bs.length ≤ 2 ^ 34)
  (hc : s.dev.marks = []) (h0 : bs ≠ []) (hl : (s.dev.winbase.toNat + off) % 128 + bs.length ≤ 128)
include hf hoff hc h0 hl

/-- A write through the window within a line is one at the home slice, where the function may reach it. -/
theorem commit_hostWindow_write : commit (hostWindow f off (some bs) 0) s =
    if s.dev.windowOk f (s.dev.winbase.toNat + off) = true then
      commit (sliceWriteE Who.unit .plain (s.dev.winbase.toNat + off) bs) s
    else .next s := by
  rw [hostWindow, commit_look]
  simp only [Option.map_some, Option.getD_some, Option.isNone_some]
  rw [if_neg (window_open hf hoff), if_neg (by simp [hf]), commit_andThen_of_next (commit_whenE_false _ _),
    lineSegs_line (List.length_pos_iff.2 h0) hl, commit_forE_single, commit_look]
  cases s.dev.windowOk f (s.dev.winbase.toNat + off) with
  | false => rfl
  | true =>
    simp only [Bool.true_eq_false, if_false, if_true, Nat.sub_self, List.drop_zero, List.take_length]
    rw [commit_andThen_of_next (commit_eccWrite_clean hc _ _), commit_lineWrite_clean hc]

/-- A read through the window within a line leaves its answer, whatever it does at the home slice. -/
theorem hostWindow_read_answer : ∃ t, commit (hostWindow f off none bs.length) s = .next t ∧
    t.dev.answer = s.windowRead f (s.dev.winbase.toNat + off) bs.length := by
  obtain ⟨u, hfirst, hclean, hanswer⟩ : ∃ u, commit (whenE true (upd (fun d =>
      { d with answer := s.windowRead f (s.dev.winbase.toNat + off) bs.length }))) s = .next u ∧ u.dev.marks = [] ∧
      u.dev.answer = s.windowRead f (s.dev.winbase.toNat + off) bs.length := ⟨_, commit_upd _ _, hc, rfl⟩
  rw [hostWindow, commit_look]
  simp only [Option.map_none, Option.getD_none, Option.isNone_none]
  rw [if_neg (window_open hf hoff), if_neg (by simp [hf]), commit_andThen_of_next hfirst,
    lineSegs_line (List.length_pos_iff.2 h0) hl, commit_forE_single, commit_look]
  split
  · exact ⟨u, commit_skip u, hanswer⟩
  · rw [commit_andThen_of_next (commit_eccRead_clean hclean _ _ _), if_neg (by simp [Dev.eccBad_clean hclean])]
    have hread := (calm_sliceReadE Who.unit (s.dev.winbase.toNat + off)).next u
    exact ⟨_, hread, ((keeps_sliceReadE _ _).next hread).answer.trans hanswer⟩
end

/-- What a read through the window within a line answers. -/
theorem windowRead_line {s : State} (f : Fn) {pa n : Nat} (hc : s.dev.marks = []) (h0 : 0 < n) (hl : pa % 128 + n ≤ 128) :
    s.windowRead f pa n =
      .data (if s.dev.windowOk f pa = true then s.point (.dram pa) n else List.replicate n 0) := by
  rw [State.windowRead, lineSegs_line h0 hl]
  simp [Dev.eccBad_clean hc]

/-! ## The link, and the delivery of held events -/

theorem exec_pcieLinkDown_down {s : State} (h : s.dev.mgmt.linkUp = false) : exec .pcieLinkDown s = .next s := by
  refine (commit_look _ s).trans ?_
  rw [if_neg (by simp [h]), commit_skip]

theorem exec_pcieLinkDown_up {s : State} (h : s.dev.mgmt.linkUp = true) : exec .pcieLinkDown s =
    commit (bankRecord 108 0 none 0x36 0 0 0) (s.device (fun d => { d with mgmt := { d.mgmt with linkUp := false } })) := by
  refine (commit_look _ s).trans ?_
  rw [if_pos h]
  exact commit_andThen_of_next (commit_upd _ s)

theorem exec_pcieLinkUp (s : State) : exec .pcieLinkUp s =
    commit deliverAll (s.device (fun d => { d with mgmt := { d.mgmt with linkUp := true } })) :=
  commit_andThen_of_next (commit_upd _ s)

theorem calm_deliver (q n : Nat) : (deliver q n).Calm := by
  induction n with
  | zero => exact calm_skip
  | succ n ih =>
    refine calm_look fun s => ?_
    split
    · exact calm_skip
    · split
      · exact calm_andThen (calm_upd _) (calm_andThen (calm_putEvent _ _) ih)
      · exact calm_skip

theorem calm_holdPending : holdPending.Calm := by
  refine calm_look fun s => calm_forE fun k _ => calm_forE fun e _ => calm_look fun s => ?_
  split
  · exact calm_andThen (calm_upd _) (calm_postEvent _ _)
  · exact calm_skip

/-- Delivery of held and pending events never stops. -/
theorem calm_deliverAll : deliverAll.Calm :=
  calm_andThen (calm_forE fun _ _ => calm_deliver _ _)
    (calm_andThen calm_holdPending (calm_forE fun _ _ => calm_deliver _ _))

end Sys2Proof.Machine
end

section
/-! SUPPORT. Proofs of the statements of the scope: the host's access to the device, and words of the spec. -/

open Sys2Proof Sys2Proof.Machine

/-- Settles O46: each clause by the law of its register or of the window. -/
theorem hostAccess_result : Obligations.HostAccess_result := by
  unfold Obligations.HostAccess_result
  refine ⟨fun s f k val hk hval hup => commit_registerWrite_sqtail hup hk hval, ?ptroot, ?trapvec, ?vf,
    fun s v val hup hst hv hval => commit_registerWrite_vdclus hup hst hv hval,
    fun s f off width val hdown => commit_registerWrite_down hdown, ?window,
    fun s val hup hst hval => commit_registerWrite_msiAddr hup hst hval, ?page, ?context0, ?linkDown, ?linkFalls, ?linkUp⟩
  case ptroot =>
    intro s f k val ha hval
    have hr : (⟨0x040, 8, (·.ptroot.toNat), fun v c => { c with ptroot := w64 v }⟩ : RegDef CtxRegs) ∈ pageRegs f :=
      mem_pageRegs f (by simp [ctxRegs])
    exact commit_registerWrite_reg ha hr (.inr rfl) (by decide) (by decide) hval
  case trapvec =>
    intro s k val ha hval
    have hr : (⟨0x0B0, 8, (·.trapvec.toNat), fun v c => { c with trapvec := w64 v }⟩ : RegDef CtxRegs) ∈ pageRegs .pf :=
      List.mem_append_right _ (by simp [ctxPfRegs])
    exact commit_registerWrite_reg ha hr (.inr rfl) (by decide) (by decide) hval
  case vf =>
    intro s v k val ha hval
    have htrapvec : ∀ p ∈ ctxRegs.map RegDef.span, Apart p (0xB0, 8) := by decide
    have hprio : ∀ p ∈ ctxRegs.map RegDef.span, Apart p (0x7C, 4) := by decide
    exact ⟨commit_registerWrite_none ha (.inr rfl) (by decide) (by decide) htrapvec,
      commit_registerWrite_none ha (.inl rfl) (by decide) (by decide) hprio⟩
  case window =>
    intro s f off bs hf hoff hc hv hm pa h0 hl
    have hwrite := commit_hostWindow_write hf hoff hc h0 hl
    refine ⟨fun hok => ?_, fun hno => ?_, ?_⟩
    · have hslice := (calm_sliceWriteE Who.unit .plain pa bs).next s
      rw [if_pos hok] at hwrite
      exact ⟨_, hwrite.trans hslice, point_sliceWriteE WrKind.noConfusion hm hv (Dev.lineBad_clean hc _) hl hslice⟩
    · rw [if_neg (ne_true_of_eq_false hno)] at hwrite
      exact hwrite
    · obtain ⟨t, ht, hanswer⟩ := hostWindow_read_answer hf hoff hc h0 hl
      exact ⟨t, ht, hanswer.trans (windowRead_line f hc (List.length_pos_iff.2 h0) hl)⟩
  case page =>
    intro d f k i hk hi
    rw [Dev.barByte_page d f hk hi]
    exact ⟨fun ha => by rw [ha]; rfl, fun hlo hhi => by rw [Ctx.page_ctxcmd _ hlo hhi, ite_self],
      fun ha hlo hhi => by rw [if_pos ha, Ctx.page_sqhead _ hlo hhi],
      fun ha hlo hhi => by rw [if_pos ha, Ctx.page_ptroot _ hlo hhi]⟩
  case context0 =>
    intro d v i hi
    have hpage := Dev.barByte_page d (.vf v) (k := 0) (by decide) hi
    rw [Nat.mul_zero, Nat.zero_add] at hpage
    rw [hpage, Dev.mayAct_vf_zero]
    rfl
  case linkDown => exact fun s hdown => exec_pcieLinkDown_down hdown
  case linkFalls =>
    intro s hup
    have hrecord := (calm_bankRecord 108 0 none 0x36 0 0 0).next
      (s.device (fun d => { d with mgmt := { d.mgmt with linkUp := false } }))
    exact ⟨_, hrecord, (exec_pcieLinkDown_up hup).trans hrecord⟩
  case linkUp =>
    intro s
    have hdeliver := calm_deliverAll.next (s.device (fun d => { d with mgmt := { d.mgmt with linkUp := true } }))
    exact ⟨_, hdeliver, (exec_pcieLinkUp s).trans hdeliver⟩

/-- Settles O55: the decoder, run on each word. -/
theorem words_decode : Obligations.Words_decode := by
  unfold Obligations.Words_decode
  decide

end

section
/-! SUPPORT. The device keeps its parts in their numbers (R8, R16, R23, R358, R381): the changes made of it everywhere. -/

namespace Sys2Proof.Machine

/-! ## The numbers of parts -/

/-- The numbers of the device's parts, as equations. -/
def Dev.Sized (d : Dev) : Prop :=
  d.cores.length = 256 ∧ d.clusters.length = 64 ∧ d.vaults.length = 64 ∧ d.dies.length = 4 ∧ d.stks.length = 8 ∧
    d.ctxs.length = 64 ∧ d.queues.length = 17 ∧ d.banks.length = 128 ∧ d.waypart.length = 64

theorem Dev.sized_iff (d : Dev) : d.Sized ↔ d.Sizes :=
  ⟨fun ⟨h1, h2, h3, h4, h5, h6, h7, h8, h9⟩ => ⟨h1, h2, h3, h4, h5, h6, h7, h8, h9⟩,
   fun ⟨h1, h2, h3, h4, h5, h6, h7, h8, h9⟩ => ⟨h1, h2, h3, h4, h5, h6, h7, h8, h9⟩⟩

/-- The numbers of a device built from its fields. -/
@[simp] theorem Dev.sized_mk (ctime : Nat) (agenda : List Turn) (seen : List Seen) (issuing : Option Group)
    (free nextId : Nat) (stopped : Bool) (flocks : List Flock) (cores : List Core) (clusters : List Cluster)
    (vaults : List Vault) (dies : List Die) (stks : List Stack) (tlbs : List Tlb) (reqs : List Req) (ctxs : List Ctx)
    (placeTurn : Nat) (servers : List Server) (admbounds : List ((Nat × Nat) × Nat)) (waypart : List W32)
    (vdclus : List W64) (slown : List (Nat × Nat)) (winbase : W64) (routetbl : List (Nat × Nat)) (move : Move)
    (queues : List EvQueue) (mbox : Mailbox) (fab : Fabric) (mgmt : Mgmt) (banks : List Bank) (marks : List Mark)
    (answer : HostAns) :
    (Dev.mk ctime agenda seen issuing free nextId stopped flocks cores clusters vaults dies stks tlbs reqs ctxs placeTurn
      servers admbounds waypart vdclus slown winbase routetbl move queues mbox fab mgmt banks marks answer).Sized ↔
    cores.length = 256 ∧ clusters.length = 64 ∧ vaults.length = 64 ∧ dies.length = 4 ∧ stks.length = 8 ∧
      ctxs.length = 64 ∧ queues.length = 17 ∧ banks.length = 128 ∧ waypart.length = 64 := Iff.rfl

/-- The nine equations together, put back under their name. -/
@[simp] theorem Dev.sized_fold (d : Dev) :
    (d.cores.length = 256 ∧ d.clusters.length = 64 ∧ d.vaults.length = 64 ∧ d.dies.length = 4 ∧ d.stks.length = 8 ∧
      d.ctxs.length = 64 ∧ d.queues.length = 17 ∧ d.banks.length = 128 ∧ d.waypart.length = 64) ↔ d.Sized := Iff.rfl

@[simp] theorem Dev.modCore_cores_length (d : Dev) (n : Nat) (f : Core → Core) :
    (d.modCore n f).cores.length = d.cores.length := List.length_modify ..
@[simp] theorem Dev.modVault_vaults_length (d : Dev) (n : Nat) (f : Vault → Vault) :
    (d.modVault n f).vaults.length = d.vaults.length := List.length_modify ..
@[simp] theorem Dev.modCtx_ctxs_length (d : Dev) (n : Nat) (f : Ctx → Ctx) :
    (d.modCtx n f).ctxs.length = d.ctxs.length := List.length_modify ..

@[simp] theorem Dev.sized_ite {c : Prop} [Decidable c] (a b : Dev) :
    (if c then a else b).Sized ↔ if c then a.Sized else b.Sized := by
  split <;> rfl

@[simp] theorem Dev.sized_foldl {α : Type} {f : Dev → α → Dev} (hf : ∀ d x, (f d x).Sized ↔ d.Sized) (l : List α)
    (d : Dev) :
    (l.foldl f d).Sized ↔ d.Sized := by
  induction l generalizing d with
  | nil => rfl
  | cons x l ih => exact (ih (f d x)).trans (hf d x)

/-! ## Changes of one numbered part -/

@[simp] theorem Dev.sized_modCore (d : Dev) (n : Nat) (f : Core → Core) : (d.modCore n f).Sized ↔ d.Sized := by
  simp [Dev.modCore]
@[simp] theorem Dev.sized_modCluster (d : Dev) (n : Nat) (f : Cluster → Cluster) : (d.modCluster n f).Sized ↔ d.Sized := by
  simp [Dev.modCluster]
@[simp] theorem Dev.sized_modVault (d : Dev) (n : Nat) (f : Vault → Vault) : (d.modVault n f).Sized ↔ d.Sized := by
  simp [Dev.modVault]
@[simp] theorem Dev.sized_modDie (d : Dev) (n : Nat) (f : Die → Die) : (d.modDie n f).Sized ↔ d.Sized := by
  simp [Dev.modDie]
@[simp] theorem Dev.sized_modStk (d : Dev) (n : Nat) (f : Stack → Stack) : (d.modStk n f).Sized ↔ d.Sized := by
  simp [Dev.modStk]
@[simp] theorem Dev.sized_modCtx (d : Dev) (n : Nat) (f : Ctx → Ctx) : (d.modCtx n f).Sized ↔ d.Sized := by
  simp [Dev.modCtx]
@[simp] theorem Dev.sized_modQueue (d : Dev) (n : Nat) (f : EvQueue → EvQueue) : (d.modQueue n f).Sized ↔ d.Sized := by
  simp [Dev.modQueue]
@[simp] theorem Dev.sized_modFlock (d : Dev) (c l : Nat) (g : Flock → Flock) : (d.modFlock c l g).Sized ↔ d.Sized := by
  simp [Dev.modFlock]
@[simp] theorem Dev.sized_delFlock (d : Dev) (c l : Nat) : (d.delFlock c l).Sized ↔ d.Sized := by simp [Dev.delFlock]
@[simp] theorem Dev.sized_modThread (d : Dev) (r : TRef) (g : Thread → Thread) : (d.modThread r g).Sized ↔ d.Sized := by
  simp [Dev.modThread]
@[simp] theorem Dev.sized_modReq (d : Dev) (id : Nat) (g : Req → Req) : (d.modReq id g).Sized ↔ d.Sized := by
  simp [Dev.modReq]
@[simp] theorem Dev.sized_delReq (d : Dev) (id : Nat) : (d.delReq id).Sized ↔ d.Sized := by simp [Dev.delReq]
@[simp] theorem Dev.sized_fresh (d : Dev) : d.fresh.Sized ↔ d.Sized := by simp [Dev.fresh]
@[simp] theorem Dev.sized_modRun (d : Dev) (ctx num : Nat) (g : Run → Run) : (d.modRun ctx num g).Sized ↔ d.Sized := by
  simp [Dev.modRun]

/-! ## Operations by their parts -/

/-- An operation put together from parts that leave the device its parts in their numbers. One that looks at the state
first may rely on the numbers there. -/
inductive Eff.Sized : Eff → Prop
  | skip : Eff.Sized skip
  | wr (ws : List Write) : Eff.Sized (wr ws)
  | halt (e : Fault) : Eff.Sized (halt e)
  | updT (r : TRef) (g : Thread → Thread) : Eff.Sized (updT r g)
  | upd {f : Dev → Dev} (h : ∀ d, d.Sized → (f d).Sized) : Eff.Sized (upd f)
  | look {f : State → Eff} (h : ∀ s, s.dev.Sized → (f s).Sized) : Eff.Sized (look f)
  | andThen {a b : Eff} (ha : a.Sized) (hb : b.Sized) : Eff.Sized (a.andThen b)
  | nil : Eff.Sized (seqE [])
  | cons {a : Eff} {l : List Eff} (ha : a.Sized) (hl : (seqE l).Sized) : Eff.Sized (seqE (a :: l))
  | forE {α : Type} {l : List α} {f : α → Eff} (h : ∀ x, (f x).Sized) : Eff.Sized (forE l f)
  | whenE {b : Bool} {a : Eff} (h : a.Sized) : Eff.Sized (whenE b a)
  | withE {α : Type} {o : Option α} {f : α → Eff} (h : ∀ x, (f x).Sized) : Eff.Sized (withE o f)

/-- Such an operation leaves the device its parts in their numbers. -/
theorem Eff.Sized.keeps {a : Eff} (h : a.Sized) : a.Keeps (fun d e => d.Sized → e.Sized) := by
  have hr := Steady.inv Dev.Sized
  induction h with
  | skip => exact keeps_skip hr
  | wr ws => exact keeps_wr hr ws
  | halt e => exact keeps_halt hr e
  | updT r g => exact keeps_upd fun d => (d.sized_modThread r g).2
  | upd h => exact keeps_upd h
  | look _ ih => exact fun s hs => ih s hs s hs
  | andThen _ _ iha ihb => exact keeps_andThen hr iha ihb
  | nil => exact keeps_skip hr
  | @cons a l _ _ iha ihl =>
    cases l with
    | nil => exact iha
    | cons b r => exact keeps_andThen hr iha ihl
  | forE _ ih => exact keeps_forE hr fun x _ => ih x
  | whenE _ ih => exact keeps_whenE hr ih
  | withE _ ih => exact keeps_withE hr ih

theorem sized_upd {f : Dev → Dev} (h : ∀ d, (f d).Sized ↔ d.Sized) : (upd f).Sized := .upd fun d => (h d).2

theorem Eff.Sized.ite {c : Prop} [Decidable c] {a b : Eff} (ha : a.Sized) (hb : b.Sized) :
    Eff.Sized (if c then a else b) := by
  split
  · exact ha
  · exact hb

/-- What a word makes of its member is such an operation. -/
inductive Res.Sized : Res → Prop
  | done {e : Eff} (h : e.Sized) : Res.Sized (.done e)
  | jump {e : Eff} (h : e.Sized) : Res.Sized (.jump e)
  | stay : Res.Sized .stay
  | trap (code sub : Nat) (addr : W64) : Res.Sized (.trap code sub addr)

theorem Res.Sized.ite {c : Prop} [Decidable c] {a b : Res} (ha : a.Sized) (hb : b.Sized) :
    Res.Sized (if c then a else b) := by
  split
  · exact ha
  · exact hb

@[simp] theorem Res.sized_done {e : Eff} : (Res.done e).Sized ↔ e.Sized := ⟨fun h => by cases h; assumption, .done⟩
@[simp] theorem Res.sized_jump {e : Eff} : (Res.jump e).Sized ↔ e.Sized := ⟨fun h => by cases h; assumption, .jump⟩
@[simp] theorem Res.sized_trap (code sub : Nat) (addr : W64) : (Res.trap code sub addr).Sized := .trap ..
@[simp] theorem Res.sized_ite {c : Prop} [Decidable c] {a b : Res} :
    (if c then a else b).Sized ↔ if c then a.Sized else b.Sized := by
  split <;> rfl

end Sys2Proof.Machine
end

section
/-! SUPPORT. The device keeps its parts in their numbers: memory, translation and requests, one lemma for each operation. -/

namespace Sys2Proof.Machine

/-! ## Events (R358, R359) -/

@[simp] theorem sized_putEvent (q : Nat) (e : Event) : (putEvent q e).Sized :=
  .look fun _ _ => .andThen (.wr _) (sized_upd fun _ => by simp)
@[simp] theorem sized_postEvent (q : Nat) (e : Event) : (postEvent q e).Sized :=
  .look fun _ _ => .ite (sized_putEvent ..) <| .ite (sized_upd fun _ => by simp) <| .ite (sized_upd fun _ => by simp) <|
    sized_upd fun _ => by simp
@[simp] theorem sized_ctxEvent (ctx code : Nat) (stepid : W32) (d0 d1 : W64) :
    (ctxEvent ctx code stepid d0 d1).Sized := .look fun _ _ => sized_postEvent ..
@[simp] theorem sized_devEvent (code : Nat) (d0 d1 : W64) : (devEvent code d0 d1).Sized :=
  .look fun _ _ => sized_postEvent ..
@[simp] theorem sized_deliver (q n : Nat) : (deliver q n).Sized := by
  induction n with
  | zero => exact .skip
  | succ n ih =>
    refine .look fun _ _ => ?_
    split
    · exact .skip
    · exact .ite (.andThen (sized_upd fun _ => by simp) (.andThen (sized_putEvent ..) ih)) .skip
@[simp] theorem sized_holdPending : holdPending.Sized :=
  .look fun _ _ => .forE fun _ => .forE fun _ => .look fun _ _ =>
    .ite (.andThen (sized_upd fun _ => by simp) (sized_postEvent ..)) .skip
@[simp] theorem sized_deliverAll : deliverAll.Sized :=
  .andThen (.forE fun _ => sized_deliver ..) (.andThen sized_holdPending (.forE fun _ => sized_deliver ..))

/-! ## Banks' records (R383) -/

@[simp] theorem sized_bankRecord (bank cls : Nat) (ctx : Option Nat) (code inst : Nat) (addr synd : W64) :
    (bankRecord bank cls ctx code inst addr synd).Sized :=
  .look fun _ _ =>
    .ite (.andThen (sized_upd fun _ => by simp) (.andThen (sized_upd fun _ => by simp) (sized_postEvent ..))) <|
      sized_upd fun _ => by simp
@[simp] theorem sized_containedNone (bank code inst : Nat) (addr synd : W64) :
    (containedNone bank code inst addr synd).Sized :=
  .look fun _ _ => .andThen (sized_bankRecord ..) (sized_postEvent ..)

/-! ## Slices -/

@[simp] theorem Dev.sized_touched (w : Who) (ln : Nat) (d : Dev) : (touched w ln d).Sized ↔ d.Sized := by simp [touched]
@[simp] theorem Dev.sized_touchedMx (rank : Nat) (d : Dev) : (touchedMx rank d).Sized ↔ d.Sized := by simp [touchedMx]
@[simp] theorem Dev.sized_dramAsk (w : Who) (pa bytes : Nat) (d : Dev) : (dramAsk w pa bytes d).Sized ↔ d.Sized := by
  unfold dramAsk; dsimp only; split <;> simp
@[simp] theorem Dev.sized_missed (ctx stamp : Nat) (d : Dev) : (missed ctx stamp d).Sized ↔ d.Sized := by simp [missed]
@[simp] theorem Dev.sized_unmark (ms : List Mark) (d : Dev) : (unmark ms d).Sized ↔ d.Sized := by simp [unmark]
@[simp] theorem sized_eccRecord (bank cls : Nat) (ctx : Option Nat) (code inst : Nat) (addr : W64) :
    (eccRecord bank cls ctx code inst addr).Sized :=
  .look fun _ _ => .andThen (sized_bankRecord ..) (sized_upd fun _ => by simp)
@[simp] theorem sized_fillMarks (ctx : Option Nat) (ln : Nat) : (fillMarks ctx ln).Sized :=
  .look fun _ _ => .forE fun _ => by
    split
    · exact .andThen (sized_eccRecord ..) (sized_upd fun _ => by simp)
@[simp] theorem Dev.sized_dropLine (d : Dev) (ln : Nat) : (Dev.dropLine d ln).Sized ↔ d.Sized := by simp [Dev.dropLine]
@[simp] theorem sized_lineMarks (ln : Nat) : (lineMarks ln).Sized :=
  .look fun _ _ => .cons (.forE fun _ => sized_eccRecord ..) (.cons (sized_upd fun _ => by simp) .nil)
@[simp] theorem sized_writeBack (l : Line) : (writeBack l).Sized :=
  .cons (sized_lineMarks ..) (.cons (.wr _) (.cons (sized_upd fun _ => by simp) .nil))
@[simp] theorem Dev.sized_wake (e : WatchEnt) (val : List Byte) (d : Dev) : (wake e val d).Sized ↔ d.Sized := by
  unfold wake; split <;> simp
@[simp] theorem sized_watchCheck (v : Nat) (loc : Loc) (n : Nat) : (watchCheck v loc n).Sized :=
  .look fun _ _ => sized_upd fun _ => by simp
@[simp] theorem sized_allocLine (w : Who) (l ln : Nat) (st : LineSt) (data : List Byte) :
    (allocLine w l ln st data).Sized :=
  .look fun _ _ => by
    dsimp only
    split
    · exact .skip
    · split
      · exact sized_upd fun _ => by simp
      · exact .ite (.andThen (sized_upd fun _ => by simp) (sized_upd fun _ => by simp)) <|
          .andThen (sized_writeBack ..) (.andThen (sized_upd fun _ => by simp) (sized_upd fun _ => by simp))
@[simp] theorem sized_touchLine (ln : Nat) : (touchLine ln).Sized := sized_upd fun _ => by simp
@[simp] theorem sized_sliceReadE (w : Who) (pa0 : Nat) : (sliceReadE w pa0).Sized :=
  .look fun _ _ => .andThen (sized_upd fun _ => by simp) <| by
    split
    · exact .ite (.andThen (sized_upd fun _ => by simp) (sized_watchCheck ..)) (sized_touchLine ..)
    · exact .ite (.andThen (sized_upd fun _ => by simp) (.andThen (sized_fillMarks ..) (sized_allocLine ..))) <|
        sized_upd fun _ => by simp
@[simp] theorem sized_sliceWriteE (w : Who) (k : WrKind) (pa0 : Nat) (bs : List Byte) :
    (sliceWriteE w k pa0 bs).Sized := by
  refine .look fun _ _ => .andThen (sized_upd fun _ => by simp) (.andThen ?_ (sized_watchCheck ..))
  split
  · dsimp only
    split
    · exact .ite (.andThen (sized_writeBack ..) (.andThen (sized_upd fun _ => by simp) (sized_touchLine ..))) <|
          .andThen (sized_upd fun _ => by simp) (sized_touchLine ..)
    · exact .andThen (sized_upd fun _ => by simp) (sized_touchLine ..)
  · refine .ite ?_ (.andThen (.wr _) (sized_upd fun _ => by simp))
    split
    · exact sized_allocLine ..
    · exact .ite .skip <| .andThen (sized_upd fun _ => by simp) <| .andThen (.whenE (sized_fillMarks ..)) <|
          sized_allocLine ..
@[simp] theorem sized_flushLine (ln : Nat) : (flushLine ln).Sized :=
  .look fun _ _ => by
    dsimp only
    split
    · exact .skip
    · exact .ite (sized_upd fun _ => by simp) (.andThen (sized_writeBack ..) (sized_upd fun _ => by simp))
@[simp] theorem sized_mxFlush (loc : Loc) (n : Nat) : (mxFlush loc n).Sized :=
  .look fun _ _ => .forE fun _ => sized_flushLine ..
@[simp] theorem sized_mxReach (w : Who) (rank : Nat) (loc : Loc) (n : Nat) : (mxReach w rank loc n).Sized :=
  sized_upd fun _ => by simp
@[simp] theorem sized_mxWriteE (w : Who) (base fmt off : Nat) (bs : List Byte) : (mxWriteE w base fmt off bs).Sized :=
  .andThen (.andThen (sized_mxReach ..) (sized_mxFlush ..)) <| .forE fun _ => .look fun _ _ =>
    .cons (.wr _) (.cons (sized_upd fun _ => by simp) (.cons (.forE fun _ => sized_watchCheck ..) .nil))
@[simp] theorem sized_pointWrite (w : Who) (k : WrKind) (loc : Loc) (bs : List Byte) : (pointWrite w k loc bs).Sized := by
  unfold pointWrite
  split
  · exact sized_sliceWriteE ..
  · exact .wr _
  · exact .andThen (.wr _) (sized_watchCheck ..)
  · exact .wr _
  · exact .wr _
  · exact sized_mxWriteE ..
  · exact .skip
@[simp] theorem sized_mxReadE (w : Who) (base fmt off n : Nat) : (mxReadE w base fmt off n).Sized :=
  .andThen (.andThen (sized_mxReach ..) (sized_mxFlush ..)) (.forE fun _ => sized_upd fun _ => by simp)
@[simp] theorem sized_pointRead (w : Who) (loc : Loc) (n : Nat) : (pointRead w loc n).Sized := by
  unfold pointRead
  split; exacts [sized_sliceReadE .., sized_mxReadE .., .skip]
@[simp] theorem sized_sliceTouchE (w : Who) (pa0 : Nat) : (sliceTouchE w pa0).Sized :=
  .look fun _ _ => .andThen (sized_upd fun _ => by simp) <| by
    split
    · exact .andThen (by split; exacts [sized_upd fun _ => by simp, .skip]) <| sized_touchLine ..
    · exact .ite (.andThen (sized_upd fun _ => by simp) (.andThen (sized_fillMarks ..) (sized_allocLine ..))) <|
        sized_upd fun _ => by simp
@[simp] theorem sized_fwdFlush : fwdFlush.Sized :=
  .look fun _ _ => .forE fun _ => .andThen (sized_writeBack ..) (sized_upd fun _ => by simp)
@[simp] theorem sized_lineWrite (w : Who) (k : WrKind) (pa : Nat) (bs : List Byte) : (lineWrite w k pa bs).Sized :=
  .look fun _ _ => by
    split
    · split
      · exact .andThen (sized_containedNone ..) (sized_upd fun _ => by simp)
    · exact sized_sliceWriteE ..
@[simp] theorem sized_physPut (w : Who) (k : WrKind) (pa : Nat) (bs : List Byte) : (physPut w k pa bs).Sized :=
  .ite (.wr _) (.andThen (sized_lineWrite ..) (.ite (sized_lineWrite ..) .skip))
@[simp] theorem sized_physWrite (pa : Nat) (bs : List Byte) : (physWrite pa bs).Sized := by simp [physWrite]

/-! ## Contained and fatal stops (R387) -/

@[simp] theorem sized_discard (p : Flock → Bool) : (discard p).Sized :=
  .look fun _ _ => .andThen (sized_upd fun _ => by simp) (.wr _)
@[simp] theorem sized_setCState (k : Nat) (c : CState) : (setCState k c).Sized :=
  .look fun _ _ => .andThen (sized_upd fun _ => by simp) (.whenE (sized_physWrite ..))
@[simp] theorem Dev.sized_tlbDrop (k : Nat) (d : Dev) : (tlbDrop k d).Sized ↔ d.Sized := by simp [tlbDrop]
@[simp] theorem sized_blurSave (k : Nat) : (blurSave k).Sized :=
  .look fun _ _ => .ite .skip <| .cons (.forE fun _ => sized_flushLine ..) <| .cons (.wr _) <|
    .cons (sized_upd fun _ => by simp) .nil
@[simp] theorem sized_stopContext (k bank code : Nat) (addr : W64) : (stopContext k bank code addr).Sized :=
  .look fun _ _ => .ite .skip <| .cons (sized_blurSave ..) <| .cons (sized_discard ..) <| .cons (.wr _) <|
    .cons (sized_upd fun _ => by simp) (.cons (sized_upd fun _ => by simp) (.cons (sized_setCState ..) .nil))
@[simp] theorem sized_contained (k bank code inst : Nat) (addr synd : W64) :
    (contained k bank code inst addr synd).Sized := .andThen (sized_bankRecord ..) (sized_stopContext ..)
@[simp] theorem sized_abandonMove : abandonMove.Sized :=
  .look fun _ _ => .ite .skip (.andThen (.wr _) (sized_upd fun _ => by simp))
@[simp] theorem sized_fatal (bank code inst : Nat) (addr synd : W64) : (fatal bank code inst addr synd).Sized :=
  .look fun _ _ => .cons (sized_bankRecord ..) <| .cons (sized_upd fun _ => by simp) <|
    .cons (.forE fun _ => sized_setCState ..) (.cons sized_abandonMove (.cons (sized_postEvent ..) .nil))
@[simp] theorem sized_eccStop (k : Option Nat) (bank code inst : Nat) (addr : W64) :
    (eccStop k bank code inst addr).Sized :=
  .look fun _ _ => .andThen (by split; exacts [sized_contained .., sized_containedNone ..]) <|
    sized_upd fun _ => by simp
@[simp] theorem sized_eccRead (k : Option Nat) (loc : Loc) (n : Nat) : (eccRead k loc n).Sized :=
  .look fun _ _ => .forE fun _ => by
    split
    · exact .ite (sized_eccStop ..) (.andThen (sized_eccRecord ..) (sized_upd fun _ => by simp))
@[simp] theorem sized_eccVictim (core : Nat) : (eccVictim core).Sized :=
  .look fun _ _ => .forE fun _ => by
    split
    · exact .cons (sized_eccRecord ..) <| .cons (sized_upd fun _ => by simp) <|
        .cons (.whenE (sized_upd fun _ => by simp)) .nil
@[simp] theorem sized_eccWrite (loc : Loc) (n : Nat) : (eccWrite loc n).Sized :=
  .look fun _ _ => sized_upd fun _ => by simp

/-! ## Translation (R91-R94) -/

@[simp] theorem Dev.sized_claim (d : Dev) (core : Nat) (icache : Bool) : (Dev.claim d core icache).Sized ↔ d.Sized := by
  simp [Dev.claim]
@[simp] theorem Dev.sized_toVictim (d : Dev) (sec : Nat) (t : Tlb) : (Dev.toVictim d sec t).Sized ↔ d.Sized := by
  unfold Dev.toVictim; dsimp only; split <;> simp
@[simp] theorem Dev.sized_tlbAdd (core ctx va size : Nat) (leaf : W64) (d : Dev) :
    (tlbAdd core ctx va size leaf d).Sized ↔ d.Sized := by simp [tlbAdd]
@[simp] theorem sized_xlatEcc (core : Option Nat) (ctx : Nat) (ptroot : W64) (va : Nat) (kind : AccKind) :
    (xlatEcc core ctx ptroot va kind).Sized :=
  .look fun _ _ => by
    split
    · split; exacts [sized_eccVictim .., .skip]
    · exact .skip
    · exact .forE fun _ => sized_eccRead ..
@[simp] theorem sized_walkReads (ctx : Nat) (ptroot : W64) (va : Nat) : (walkReads ctx ptroot va).Sized :=
  .look fun _ _ => .forE fun _ => .look fun _ _ => .ite .skip (sized_pointRead ..)
@[simp] theorem sized_xlatE (core : Option Nat) (ctx : Nat) (ptroot : W64) (va : Nat) (kind : AccKind) :
    (xlatE core ctx ptroot va kind).Sized := by
  refine .look fun _ _ => .andThen (.whenE (sized_xlatEcc ..)) (.andThen (.whenE (sized_walkReads ..)) ?_)
  split
  · refine .ite (.andThen (.ite .skip (sized_physPut ..)) (.andThen (sized_upd fun _ => by simp) ?_)) <|
        sized_upd fun _ => by simp
    split
    · exact sized_upd fun _ => by simp
    · exact .skip
  · exact .halt _
  · exact sized_upd fun _ => by simp

/-! ## Threads, barriers and requests -/

@[simp] theorem Dev.sized_staleLoads (cores : List Nat) (d : Dev) : (staleLoads cores d).Sized ↔ d.Sized := by
  simp [staleLoads]
@[simp] theorem Dev.sized_acquireL1 (r : TRef) (d : Dev) : (acquireL1 r d).Sized ↔ d.Sized := by simp [acquireL1]
@[simp] theorem Dev.sized_acquireWaiting (r : TRef) (id : Nat) (d : Dev) : (acquireWaiting r id d).Sized ↔ d.Sized := by
  simp [acquireWaiting]
@[simp] theorem Dev.sized_acquireFences (r : TRef) (id : Nat) (d : Dev) : (acquireFences r id d).Sized ↔ d.Sized := by
  simp [acquireFences]
@[simp] theorem Dev.sized_acquireFixed (q : Req) (d : Dev) : (acquireFixed q d).Sized ↔ d.Sized := by simp [acquireFixed]
@[simp] theorem Dev.sized_acquireCore (r : TRef) (d : Dev) : (acquireCore r d).Sized ↔ d.Sized := by simp [acquireCore]
@[simp] theorem Dev.sized_acquirePlace (core : Nat) (d : Dev) : (acquirePlace core d).Sized ↔ d.Sized := by
  simp [acquirePlace]
@[simp] theorem sized_barCheck (core slot : Nat) : (barCheck core slot).Sized :=
  .look fun _ _ => .withE fun _ => .ite (sized_upd fun _ => by simp) .skip
@[simp] theorem sized_hbarCheck (core slot : Nat) : (hbarCheck core slot).Sized :=
  .look fun _ _ => .withE fun _ => .ite (sized_upd fun _ => by simp) .skip
@[simp] theorem sized_barriers (core slot : Nat) : (barriers core slot).Sized :=
  .andThen (sized_barCheck ..) (sized_hbarCheck ..)
@[simp] theorem sized_barriersAt (core slot : Nat) : (barriersAt core slot).Sized :=
  .andThen (sized_barriers ..) (.look fun _ _ => .forE fun _ => sized_hbarCheck ..)
@[simp] theorem sized_retire (r : TRef) (e : Ended) : (retire r e).Sized :=
  .ite (.updT ..) (.andThen (sized_upd fun _ => by simp) (sized_barriers ..))
@[simp] theorem sized_takeTrap (r : TRef) (code sub : Nat) (addr pc : W64) : (takeTrap r code sub addr pc).Sized :=
  .look fun _ _ => .withE fun _ => .withE fun _ => .ite (sized_retire ..) (.ite (sized_contained ..) (.updT ..))
@[simp] theorem sized_trapHere (r : TRef) (code sub : Nat) (addr : W64) : (trapHere r code sub addr).Sized :=
  .look fun _ _ => .withE fun _ => sized_takeTrap ..
@[simp] theorem Dev.sized_commitFlock (core slot : Nat) (d : Dev) : (commitFlock core slot d).Sized ↔ d.Sized := by
  unfold commitFlock; split <;> simp
@[simp] theorem sized_abortFlock (f : Flock) (fid : Option Nat) : (abortFlock f fid).Sized :=
  .look fun _ _ => .andThen (sized_discard ..) (sized_upd fun _ => by simp)
theorem sized_of_faultRecord {f : Flock} {req : Nat} {aborted : Bool} {va lvl : Nat} {kind : AccKind} {s : State}
    {n : Nat} {e : Eff} (h : faultRecord f req aborted va lvl kind s = (n, e)) : e.Sized := by
  unfold faultRecord at h
  dsimp only at h
  split at h
  · cases h
    exact .skip
  · cases h
    exact .andThen (sized_upd fun _ => by simp) (sized_ctxEvent ..)
@[simp] theorem sized_pageFault (r : TRef) (va lvl : Nat) (kind : AccKind) : (pageFault r va lvl kind).Sized :=
  .look fun _ _ => .withE fun _ => .withE fun _ => .ite (sized_retire ..) <|
    .ite (.andThen (sized_of_faultRecord rfl) (.updT ..)) (.andThen (sized_of_faultRecord rfl) (sized_abortFlock ..))
@[simp] theorem sized_sendReq (q : Req) : (sendReq q).Sized := sized_upd fun _ => by simp

end Sys2Proof.Machine
end

section
/-! SUPPORT. The device keeps its parts in their numbers: words of Swester, one lemma for each operation. -/

namespace Sys2Proof.Machine

@[simp] theorem sized_put (v : Env) (g : Thread → Thread) : (Env.put v g).Sized := .done (.updT ..)

/-! ## The issue of a word -/

@[simp] theorem sized_advance (r : TRef) (words : Nat) : (advance r words).Sized := .updT ..
@[simp] theorem sized_finish {v : Env} {x : Res} (h : x.Sized) : (x.finish v).Sized := by
  cases h with
  | done h => exact .andThen h (sized_advance ..)
  | jump h => exact .andThen (.updT ..) h
  | stay => exact .skip
  | trap code sub addr => exact sized_trapHere ..
@[simp] theorem sized_regCheck {v : Env} {e : Eff} (h : e.Sized) : (regCheck v e).Sized := by
  refine .ite (.forE fun _ => ?_) (.cons (.forE fun _ => ?_) (.cons h (.cons (sized_upd fun _ => by simp) .nil)))
  · split
    · exact .ite (sized_eccStop ..) (.andThen (sized_eccRecord ..) (sized_upd fun _ => by simp))
  · split
    · exact .ite (sized_eccStop ..) (.andThen (sized_eccRecord ..) (sized_upd fun _ => by simp))
@[simp] theorem sized_perform {m : Meaning} {v : Env} (h : (m v).Sized) : (perform m v).Sized := by
  unfold perform
  split
  · exact sized_trapHere ..
  · exact .ite (sized_finish h) (sized_regCheck (sized_finish h))
@[simp] theorem sized_suppress (v : Env) : (suppress v).Sized := sized_finish (.done (.ite .skip (.updT ..)))
@[simp] theorem sized_checkDirect {v : Env} {e : Eff} (h : e.Sized) : (checkDirect v e).Sized := by
  unfold checkDirect
  split; exacts [sized_trapHere .., h]
@[simp] theorem sized_stepMember {m : Meaning} {v : Env} (h : (m v).Sized) : (stepMember m v).Sized :=
  .ite .skip <| .ite (sized_trapHere ..) <| by
    split
    · exact sized_checkDirect (sized_advance ..)
    · exact sized_checkDirect (sized_retire ..)
    · exact .ite (sized_checkDirect (sized_suppress ..)) (sized_perform h)
/-- A word's issue, when its meaning is made of such parts. -/
@[simp] theorem sized_issue {major : Nat} {b : Body} {m : Meaning} (h : ∀ v, (m v).Sized) : (issue major b m).Sized :=
  .look fun _ _ => by
    split
    · exact .skip
    · split
      · exact sized_upd fun _ => by simp
      · exact .andThen (sized_upd fun _ => by simp) <| .forE fun _ => .look fun _ _ => .withE fun _ => .withE fun _ =>
          sized_stepMember (h _)
@[simp] theorem sized_issueIllegal : issueIllegal.Sized :=
  .look fun _ _ => by
    split
    · exact .skip
    · exact .andThen (sized_upd fun _ => by simp) (.forE fun _ => .look fun _ _ => .withE fun _ => sized_trapHere ..)
@[simp] theorem sized_both_iff {el iv : Meaning} {v : Env} :
    (both el iv v).Sized ↔ if v.th.intv then (iv v).Sized else (el v).Sized := Res.sized_ite
theorem sized_both {el iv : Meaning} {v : Env} (he : (el v).Sized) (hi : (iv v).Sized) : (both el iv v).Sized := by
  simp [he, hi]
@[simp] theorem sized_noneRule (v : Env) : (noneRule v).Sized := by simp [noneRule]

/-! ## Fetch -/

@[simp] theorem Dev.sized_cacheWord (d : Dev) (core key w : Nat) : (Dev.cacheWord d core key w).Sized ↔ d.Sized := by
  simp [Dev.cacheWord]
@[simp] theorem sized_icacheCheck (core ctx key : Nat) : (icacheCheck core ctx key).Sized :=
  .look fun _ _ => .cons (.forE fun _ => by split; exacts [sized_eccRecord ..]) <| .cons (sized_upd fun _ => by simp) <|
    .cons (.whenE (sized_upd fun _ => by simp)) .nil
@[simp] theorem sized_fetchE (t : Nat) (f : Flock) (va : Nat) : (fetchE t f va).Sized :=
  .look fun _ _ => .ite .skip <| .andThen (sized_xlatE ..) <| by
    split
    · exact .andThen (.whenE (sized_icacheCheck ..)) <| .ite .skip <| .ite (.whenE (sized_eccRead ..)) <|
        .cons (.whenE (sized_eccRead ..)) <| .cons (sized_pointRead ..) <|
          .cons (.whenE (sized_upd fun _ => by simp)) (.cons (sized_upd fun _ => by simp) .nil)
    · exact .skip
@[simp] theorem sized_prefetchWord (f : Flock) (va : Nat) : (prefetchWord f va).Sized :=
  .look fun _ _ => .ite .skip <| by split; exacts [.ite .skip (sized_upd fun _ => by simp), .skip]
@[simp] theorem sized_prefetch (f : Flock) (pc : W64) (h : Header) : (prefetch f pc h).Sized :=
  .look fun _ _ => .forE fun _ => sized_prefetchWord ..
@[simp] theorem sized_enterBlock (r : TRef) (src : W64) (f : Flock) (th : Thread) : (enterBlock r src f th).Sized :=
  .look fun _ _ => .ite (sized_takeTrap ..) <| by
    split
    · exact .halt _
    · exact sized_fetchE ..
    · exact sized_takeTrap ..
    · exact sized_takeTrap ..
    · exact sized_pageFault ..
    · split
      · exact sized_takeTrap ..
      · exact .ite (sized_takeTrap ..) <| .cons (sized_fetchE ..) <| .cons (.whenE (sized_prefetch ..)) <|
          .cons (.updT ..) .nil
@[simp] theorem sized_settle (r : TRef) (n : Nat) : (settle r n).Sized := by
  induction n with
  | zero => exact .skip
  | succ n ih =>
    have h (x : W64) (f : Flock) (th : Thread) : ((enterBlock r x f th).andThen (settle r n)).Sized :=
      .andThen (sized_enterBlock ..) ih
    refine .look fun s _ => ?_
    split
    · exact .skip
    next f _ =>
      split
      · exact .skip
      next th _ =>
        generalize th.enter = src, th.ended = ended, th.wait = wait
        rcases ended with _ | e
        · cases wait with
          | none =>
            rcases src with _ | src
            · exact .ite (h ..) .skip
            · exact h ..
          | _ => cases src <;> exact .skip
        · cases src <;> exact .skip
@[simp] theorem sized_fetchGroupE (g : Group) : (fetchGroupE g).Sized :=
  .look fun _ _ => .withE fun _ => .andThen (sized_fetchE ..) <| by split; exacts [.ite (sized_fetchE ..) .skip, .skip]
@[simp] theorem sized_fetchFail (g : Group) (x : Fetched) (va : W64) : (fetchFail g x va).Sized := by
  refine .cons (sized_fetchGroupE ..) (.cons (sized_upd fun _ => by simp) (.cons ?_ .nil))
  split
  · exact .halt _
  · exact .skip
  · refine .forE fun _ => .look fun _ _ => .withE fun _ => ?_
    split
    · exact sized_pageFault ..
    · exact sized_trapHere ..
    · exact sized_trapHere ..

/-! ## Words on registers -/

@[simp] theorem sized_putP (v : Env) (f : Fld) (x : Tri) : (Env.putP v f x).Sized := by simp [Env.putP]

@[simp] theorem sized_putRaw (v : Env) (n : Nat) (r : Raw) : (Env.putRaw v n r).Sized := by simp [Env.putRaw]
@[simp] theorem sized_intOp (o : IntOp) (t : ITy) (sat raw : Bool) (v : Env) : (intOp o t sat raw v).Sized := by
  simp [intOp]
@[simp] theorem sized_monoOp (v : Env) (n : Nat) (srcs : List Raw) (full : Raw) (f : List Nat → Nat) :
    (monoOp v n srcs full f).Sized := by simp [monoOp]

@[simp] theorem sized_floatOp (v : Env) (t : FTy) (srcs : List Raw) (o : FOp) : (floatOp v t srcs o).Sized := by
  simp [floatOp]
@[simp] theorem sized_fbin (t : FTy) (o : Nat → FOp) (v : Env) : (fbin t o v).Sized := by simp [fbin]
@[simp] theorem sized_ftri (t : FTy) (o : Nat → FOp) (v : Env) : (ftri t o v).Sized := by simp [ftri]
@[simp] theorem sized_pk2 (o : FFmt → Nat → FOp) (v : Env) : (pk2 o v).Sized := by simp [pk2]
@[simp] theorem sized_fcmp (t : FTy) (v : Env) : (fcmp t v).Sized := by simp [fcmp]
@[simp] theorem sized_funary (t : FTy) (pt : Nat → Nat → Nat) (iv : Raw → FIv → FIv) (v : Env) :
    (funary t pt iv v).Sized := by simp [funary]

@[simp] theorem sized_cvtM (sat : Bool) (v : Env) : (cvtM sat v).Sized := by simp [cvtM]
@[simp] theorem sized_narrow {v : Env} {freg wid : Nat} {k : FFmt → Res} (hk : ∀ f, (k f).Sized) :
    (v.narrow freg wid k).Sized := .ite (.trap ..) (hk _)
@[simp] theorem sized_narrowTo (v : Env) (f : FFmt) (wid pos : Nat) (sat : Bool) (xs : List FIv) :
    (Env.narrowTo v f wid pos sat xs).Sized := by simp [Env.narrowTo]
@[simp] theorem sized_mCvtn (v : Env) : (mCvtn v).Sized := by
  unfold mCvtn
  refine sized_narrow fun f => ?_
  split
  · exact sized_narrowTo ..
  · split
    · exact sized_putRaw ..
    · exact .done .skip
@[simp] theorem sized_registerWords (v : Env) :
    (mFadd v).Sized ∧ (mFsub v).Sized ∧ (mFmul v).Sized ∧ (mFfma v).Sized ∧ (mDadd v).Sized ∧ (mDmul v).Sized ∧
    (mDfma v).Sized ∧ (mFmin v).Sized ∧ (mFmax v).Sized ∧ (mDmin v).Sized ∧ (mDmax v).Sized ∧ (mPkadd v).Sized ∧
    (mPksub v).Sized ∧ (mPkmul v).Sized ∧ (mPkfma v).Sized ∧ (mPkmin v).Sized ∧ (mPkmax v).Sized ∧ (mFcmp v).Sized ∧
    (mDcmp v).Sized ∧ (mFrcp v).Sized ∧ (mFrsq v).Sized ∧ (mFsqrt v).Sized ∧ (mFexp2 v).Sized ∧ (mFlog2 v).Sized ∧
    (mFsin v).Sized ∧ (mFcos v).Sized ∧ (mFtanh v).Sized ∧ (mDrcp v).Sized ∧ (mIdot4 v).Sized ∧ (mCvt v).Sized ∧
    (mCvts v).Sized ∧ (mPackn v).Sized ∧ (mUnpackn v).Sized := by
  simp [mFadd, mFsub, mFmul, mFfma, mDadd, mDmul, mDfma, mFmin, mFmax, mDmin, mDmax, mPkadd, mPksub, mPkmul, mPkfma,
    mPkmin, mPkmax, mFcmp, mDcmp, mFrcp, mFrsq, mFsqrt, mFexp2, mFlog2, mFsin, mFcos, mFtanh, mDrcp, mIdot4, mCvt,
    mCvts, mPackn, mUnpackn]

/-! ## Integer words -/

@[simp] theorem sized_intM (o : ITy → IntOp) (raw : Bool) (v : Env) : (intM o raw v).Sized := by simp [intM]
@[simp] theorem sized_logicM (f : Nat → Nat → Nat → Nat) (v : Env) : (logicM f v).Sized := by simp [logicM]
@[simp] theorem sized_shiftM (f : Nat → Nat → Int → Int) (v : Env) : (shiftM f v).Sized := by simp [shiftM]
@[simp] theorem sized_countM (f : Nat → Nat → Nat) (v : Env) : (countM f v).Sized := by simp [countM]
@[simp] theorem sized_mSel (v : Env) : (mSel v).Sized := by
  unfold mSel
  dsimp only; split <;> exact sized_putRaw ..
@[simp] theorem sized_integerWords (v : Env) :
    (mIadd v).Sized ∧ (mIsub v).Sized ∧ (mImul v).Sized ∧ (mImulh v).Sized ∧ (mImad v).Sized ∧ (mImin v).Sized ∧
    (mImax v).Sized ∧ (mIabs v).Sized ∧ (mIsad v).Sized ∧ (mIaddc v).Sized ∧ (mImadw v).Sized ∧ (mAnd v).Sized ∧
    (mOr v).Sized ∧ (mXor v).Sized ∧ (mAndn v).Sized ∧ (mLogt v).Sized ∧ (mShl v).Sized ∧ (mShr v).Sized ∧
    (mShra v).Sized ∧ (mRotl v).Sized ∧ (mFunnel v).Sized ∧ (mBfe v).Sized ∧ (mBfi v).Sized ∧ (mPopc v).Sized ∧
    (mClz v).Sized ∧ (mCtz v).Sized ∧ (mBrev v).Sized ∧ (mPermb v).Sized ∧ (mPermn v).Sized ∧ (mIcmp v).Sized ∧
    (mPcomb v).Sized ∧ (mMov v).Sized ∧ (mMovi v).Sized ∧ (mMovx v).Sized ∧ (mLea v).Sized ∧ (mAper v).Sized := by
  simp [mIadd, mIsub, mImul, mImulh, mImad, mImin, mImax, mIabs, mIsad, mIaddc, mImadw, mAnd, mOr, mXor, mAndn,
    mLogt, mShl, mShr, mShra, mRotl, mFunnel, mBfe, mBfi, mPopc, mClz, mCtz, mBrev, mPermb, mPermn, mIcmp, mPcomb,
    mMov, mMovi, mMovx, mLea, mAper]

/-! ## Words across a team -/

@[simp] theorem sized_mPoll (v : Env) : (mPoll v).Sized := by
  unfold mPoll
  dsimp only
  split
  · exact sized_putP ..
  · exact sized_putP ..
  · exact sized_putP ..
  · exact .ite (sized_noneRule ..) (sized_putRaw ..)
@[simp] theorem sized_reduce (v : Env) (us : List Env) : (Env.reduce v us).Sized :=
  .ite (sized_putRaw ..) <| .ite (by split <;> exact sized_putRaw ..) <| by split <;> exact sized_putRaw ..
@[simp] theorem sized_teamWords (v : Env) :
    (mLxch v).Sized ∧ (mRedx v).Sized ∧ (mScanx v).Sized ∧ (mEqmask v).Sized ∧ (mLead v).Sized := by
  simp [mLxch, mRedx, mScanx, mEqmask, mLead]

/-! ## L1 lines -/

@[simp] theorem Dev.sized_l1Show (q : Req) (d : Dev) : (l1Show q d).Sized ↔ d.Sized := by simp [l1Show]
@[simp] theorem sized_l1Check (core ctx ln : Nat) : (l1Check core ctx ln).Sized :=
  .look fun _ _ => .ite .skip <| .cons (.forE fun _ => by split; exacts [sized_eccRecord ..]) <|
    .cons (sized_upd fun _ => by simp) (.cons (.whenE (sized_upd fun _ => by simp)) .nil)
@[simp] theorem Dev.sized_l1Refill (core ln : Nat) (data : List Byte) (mod : Nat) (d : Dev) :
    (l1Refill core ln data mod d).Sized ↔ d.Sized := by simp [l1Refill]
@[simp] theorem Dev.sized_l1Write (core pa : Nat) (bs : List Byte) (d : Dev) :
    (l1Write core pa bs d).Sized ↔ d.Sized := by unfold l1Write; split <;> simp
@[simp] theorem Dev.sized_l1Late (q : Req) (pa : Nat) (bs : List Byte) (d : Dev) :
    (l1Late q pa bs d).Sized ↔ d.Sized := by simp [l1Late]
@[simp] theorem Dev.sized_l1DropMx (core : Nat) (loc : Loc) (n : Nat) (d : Dev) :
    (l1DropMx core loc n d).Sized ↔ d.Sized := by simp [l1DropMx]
@[simp] theorem Dev.sized_l1Stale (core ln : Nat) (d : Dev) : (l1Stale core ln d).Sized ↔ d.Sized := by simp [l1Stale]
@[simp] theorem Dev.sized_l1Store (q : Req) (d : Dev) : (l1Store q d).Sized ↔ d.Sized := by unfold l1Store; split <;> simp

/-! ## Control words -/

@[simp] theorem sized_branch (v : Env) (target : W64) : (Env.branch v target).Sized :=
  .ite (.ite (.jump (sized_retire ..)) (.jump (.updT ..))) (.jump (.updT ..))
@[simp] theorem sized_targetPair {v : Env} {k : W64 → Res} (hk : ∀ a, (k a).Sized) : (v.targetPair k).Sized :=
  .ite (sized_noneRule ..) (hk _)
@[simp] theorem sized_mNop (v : Env) : (mNop v).Sized := .done .skip
@[simp] theorem sized_mBrc (v : Env) : (mBrc v).Sized := by
  unfold mBrc
  dsimp only
  split
  · exact sized_branch ..
  · exact .done .skip
  · exact .jump (sized_retire ..)
@[simp] theorem sized_call (v : Env) (ra target : W64) : (v.call ra target).Sized := by
  have h := sized_branch v target
  unfold Env.call
  split
  next e he => rw [he] at h; cases h with | jump h => exact .jump (.andThen (.updT ..) h)
  next => exact h
@[simp] theorem sized_mCommit (v : Env) : (mCommit v).Sized :=
  sized_both (.done (sized_upd fun _ => by simp)) (.done .skip)
@[simp] theorem sized_mYield (v : Env) : (mYield v).Sized := .ite (.done .skip) (sized_put ..)
@[simp] theorem sized_mRtt (v : Env) : (mRtt v).Sized :=
  .ite (.trap ..) <| .jump <| .ite (.andThen (.updT ..) (sized_takeTrap ..)) <| by
    split
    · exact .updT ..
    · exact .andThen (.updT ..) (sized_takeTrap ..)
    · exact .updT ..
@[simp] theorem sized_mBar (v : Env) : (mBar v).Sized :=
  sized_both (.done (.andThen (.updT ..) (sized_barriers ..))) (sized_noneRule ..)
@[simp] theorem sized_mHbar (v : Env) : (mHbar v).Sized :=
  sized_both (.done (.andThen (.updT ..) (sized_barriers ..))) (sized_noneRule ..)
@[simp] theorem sized_withBlk {v : Env} {k : List Byte → Res} (hk : ∀ b, (k b).Sized) : (v.withBlk k).Sized := by
  unfold Env.withBlk
  split; exacts [.trap .., hk _]
@[simp] theorem sized_mLaunch (v : Env) : (mLaunch v).Sized :=
  sized_both (sized_withBlk fun _ => .ite (.trap ..) (.done (.andThen (sized_upd fun _ => by simp) (.updT ..)))) <|
    sized_noneRule ..
@[simp] theorem sized_controlWords (v : Env) :
    (mBra v).Sized ∧ (mCall v).Sized ∧ (mCalli v).Sized ∧ (mJmpi v).Sized ∧ (mRet v).Sized ∧ (mExit v).Sized ∧
    (mDemote v).Sized ∧ (mTrap v).Sized := by
  simp [mBra, mCall, mCalli, mJmpi, mRet, mExit, mDemote, mTrap]

/-! ## System words -/

theorem sized_of_sysTrap {v : Env} {n : Nat} {priv : Bool} {r : Res} (h : v.sysTrap n priv = some r) : r.Sized := by
  unfold Env.sysTrap at h
  split at h
  · cases h; exact .trap ..
  · split at h
    · cases h; exact .trap ..
    · nomatch h
@[simp] theorem sized_mMfsr (v : Env) : (mMfsr v).Sized := by
  refine sized_both ?_ (sized_noneRule v)
  dsimp only
  split
  next h => exact sized_of_sysTrap h
  next => exact sized_put ..
@[simp] theorem sized_sysWrite (v : Env) (n : Nat) (x : W64) : (Env.sysWrite v n x).Sized :=
  .ite (.updT ..) <| .ite (.updT ..) <| .ite (sized_upd fun _ => by simp) <| .ite (sized_upd fun _ => by simp) <|
    .ite (.updT ..) <| .ite (.updT ..) <| .ite (.updT ..) <|
      .ite (.look fun _ _ => .ite .skip (.andThen (sized_upd fun _ => by simp) (.updT ..))) <|
        .ite (sized_upd fun _ => by simp) <| .ite (sized_upd fun _ => by simp) <|
          .ite (.andThen (sized_upd fun _ => by simp) (sized_upd fun _ => by simp)) <|
            .ite (sized_upd fun _ => by simp) <| .ite (.updT ..) <| .ite (.updT ..) <| .ite (.updT ..) <|
              .ite (.updT ..) (.ite (sized_upd fun _ => by simp) .skip)
@[simp] theorem sized_mMtsr (v : Env) : (mMtsr v).Sized := by
  refine sized_both ?_ (sized_noneRule v)
  dsimp only
  split
  next h => exact sized_of_sysTrap h
  next => exact .done (sized_sysWrite ..)
@[simp] theorem sized_mFlushi (v : Env) : (mFlushi v).Sized :=
  sized_both (.done (sized_upd fun _ => by simp)) (.done .skip)
@[simp] theorem sized_mTlbinv (v : Env) : (mTlbinv v).Sized :=
  sized_both (.ite (.trap ..) (.done (sized_upd fun _ => by simp))) (sized_noneRule ..)
@[simp] theorem sized_mTidIv (v : Env) : (mTidIv v).Sized := by
  unfold mTidIv
  dsimp only
  split
  · exact sized_noneRule ..
  · exact .ite (sized_putRaw ..) (.ite (sized_putRaw ..) (.ite (sized_noneRule ..) (sized_putRaw ..)))
@[simp] theorem sized_mSleep (v : Env) : (mSleep v).Sized :=
  sized_both (.ite (.done .skip) (sized_put ..)) (.done .skip)
@[simp] theorem sized_acquireCopies (v : Env) : (Env.acquireCopies v).Sized := .done (sized_upd fun _ => by simp)
@[simp] theorem sized_mWait (v : Env) : (mWait v).Sized := by
  refine sized_both ?_ (.done .skip)
  split
  · exact .ite (sized_acquireCopies ..) (.done .skip)
  · exact .done .skip
@[simp] theorem sized_mStepdl (v : Env) : (mStepdl v).Sized :=
  sized_both (.done (.whenE (sized_physWrite ..))) (sized_noneRule ..)
@[simp] theorem sized_systemWords (v : Env) :
    (mTime v).Sized ∧ (mTid v).Sized ∧ (mMovk v).Sized ∧ (mWaitbm v).Sized ∧ (mSlack v).Sized ∧ (mBmode v).Sized := by
  simp [mTime, mTid, mMovk, mWaitbm, mSlack, mBmode]

/-! ## Memory words -/

@[simp] theorem sized_addrTrap (v : Env) (dn code sub : Nat) (a : W64) : (Env.addrTrap v dn code sub a).Sized :=
  .ite (.done (.ite .skip (sized_upd fun _ => by simp))) (.trap ..)
@[simp] theorem sized_checkL1 (v : Env) (loc : Loc) : (Env.checkL1 v loc).Sized := by
  unfold Env.checkL1
  split; exacts [sized_l1Check .., .skip]
@[simp] theorem sized_sendLoad (v : Env) (kind : ReqKind) (loc : Loc) (nc : Bool) (n : Nat) :
    (Env.sendLoad v kind loc nc n).Sized :=
  .andThen (sized_checkL1 ..) <| .look fun _ _ => by
    dsimp only
    split
    · exact .cons (sized_upd fun _ => by simp) (.cons (sized_sendReq ..) .nil)
    · exact .andThen (sized_upd fun _ => by simp) (sized_sendReq ..)
@[simp] theorem sized_sendStore (v : Env) (kind : ReqKind) (loc : Loc) (nc : Bool) (n : Nat) (data : List Byte) :
    (Env.sendStore v kind loc nc n data).Sized :=
  .look fun _ _ => .andThen (sized_sendReq ..) (sized_upd fun _ => by simp)
@[simp] theorem sized_recordStore (v : Env) : (Env.recordStore v).Sized := by simp [Env.recordStore]
/-- Where an address leads: its place, or how the word ends there. -/
inductive Acc.Sized : Acc → Prop
  | at_ (loc : Loc) (nc : Bool) {pre : Eff} (h : pre.Sized) : Acc.Sized (.at_ loc nc pre)
  | ends {r : Res} (h : r.Sized) : Acc.Sized (.ends r)
theorem Acc.Sized.ite {c : Prop} [Decidable c] {a b : Acc} (ha : a.Sized) (hb : b.Sized) :
    Acc.Sized (if c then a else b) := by
  split
  · exact ha
  · exact hb
theorem sized_reach (v : Env) (rc : Reach) (kind : AccKind) (a : W64) (al dn : Nat) :
    (v.reach rc kind a al dn).Sized := by
  unfold Env.reach
  split
  · exact .ends (sized_addrTrap ..)
  · exact .ite (.ends (sized_addrTrap ..)) (.at_ _ _ .skip)
  · exact .ite (.ends (sized_addrTrap ..)) <| by
      split
      · exact .at_ _ _ (sized_xlatE ..)
      · exact .ends (sized_addrTrap ..)
      · exact .ends (sized_addrTrap ..)
      · exact .ends (.jump (.andThen (sized_xlatE ..) (sized_pageFault ..)))
      · exact .ends (.jump (sized_xlatE ..))
      · exact .ends (.jump (.halt _))
theorem sized_of_reach_ends {v : Env} {rc : Reach} {kind : AccKind} {a : W64} {al dn : Nat} {r : Res}
    (h : v.reach rc kind a al dn = .ends r) : r.Sized := by
  have hs := sized_reach v rc kind a al dn
  rw [h] at hs
  cases hs
  assumption
theorem sized_of_reach_at {v : Env} {rc : Reach} {kind : AccKind} {a : W64} {al dn : Nat} {loc : Loc} {nc : Bool}
    {pre : Eff}
    (h : v.reach rc kind a al dn = .at_ loc nc pre) : pre.Sized := by
  have hs := sized_reach v rc kind a al dn
  rw [h] at hs
  cases hs
  assumption
@[simp] theorem sized_load (v : Env) (a : W64) : (v.load a).Sized := by
  unfold Env.load
  dsimp only
  split
  next h => exact sized_of_reach_ends h
  next h => exact .done (.andThen (sized_of_reach_at h) (sized_sendLoad ..))
@[simp] theorem sized_store (v : Env) (a : W64) : (v.store a).Sized := by
  unfold Env.store
  dsimp only
  split
  next h => exact sized_of_reach_ends h
  next h => exact .done (.andThen (sized_of_reach_at h) (sized_sendStore ..))
@[simp] theorem sized_readAll (v : Env) (as : List W64) : (Env.readAll v as).Sized :=
  .forE fun _ => .look fun _ _ => .andThen (sized_eccRead ..) (.ite .skip (sized_pointRead ..))
@[simp] theorem sized_touchAll (v : Env) (as : List W64) : (Env.touchAll v as).Sized := .forE fun _ => sized_xlatE ..
@[simp] theorem sized_ldbndIv (v : Env) : v.ldbndIv.Sized := by
  have hlost (pa : Nat) : (Res.jump (contained v.f.ctx 108 0x37 0 (BitVec.ofNat 64 pa) 0)).Sized :=
    .jump (sized_contained ..)
  have hunknown (as : List W64) : (match v.hostGone as with
      | some pa => Res.jump (contained v.f.ctx 108 0x37 0 (BitVec.ofNat 64 pa) 0)
      | none => .jump (((v.touchAll as).andThen (v.readAll as)).andThen (retire v.r .unknown))).Sized := by
    split
    · exact hlost _
    · exact .jump (.andThen (.andThen (sized_touchAll ..) (sized_readAll ..)) (sized_retire ..))
  unfold Env.ldbndIv
  dsimp only
  split
  · exact hunknown _
  · refine .ite (hunknown _) ?_
    split
    · exact hunknown _
    · split
      · exact hlost _
      · exact .done (.andThen (.andThen (sized_touchAll ..) (sized_readAll ..)) (.updT ..))
@[simp] theorem sized_tilefill (v : Env) : v.tilefill.Sized := by
  unfold Env.tilefill
  dsimp only
  split
  next h => exact sized_of_reach_ends h
  next h => exact .ite (sized_addrTrap ..) (.done (.andThen (sized_of_reach_at h) (sized_sendStore ..)))
@[simp] theorem sized_recordFill (v : Env) : (Env.recordFill v).Sized := by simp [Env.recordFill]
@[simp] theorem sized_ldmc (v : Env) : v.ldmc.Sized := by
  refine .ite (.trap ..) ?_
  split
  next h => exact sized_of_reach_ends h
  next h =>
    exact .ite (sized_addrTrap ..) (.done (.andThen (sized_of_reach_at h) (.look fun _ _ => sized_sendReq ..)))
@[simp] theorem sized_mStf (v : Env) : (mStf v).Sized := by
  refine sized_both ?_ (sized_recordStore v)
  dsimp only
  split
  next h => exact sized_of_reach_ends h
  next h => exact .done (.andThen (sized_of_reach_at h) (sized_sendStore ..))
@[simp] theorem sized_mZfill (v : Env) : (mZfill v).Sized := by
  refine sized_both ?_ (sized_recordStore v)
  split
  next h => exact sized_of_reach_ends h
  next h => exact .ite (sized_addrTrap ..) (.done (.andThen (sized_of_reach_at h) (sized_sendStore ..)))
@[simp] theorem sized_mPref (v : Env) : (mPref v).Sized := by
  refine sized_both ?_ (.done .skip)
  dsimp only
  split
  · exact .done <| .ite (.andThen (sized_upd fun _ => by simp) (sized_upd fun _ => by simp)) <|
        .andThen (sized_upd fun _ => by simp) <| .andThen (sized_upd fun _ => by simp) <| .look fun _ _ =>
          sized_sendReq ..
  · exact .done (sized_upd fun _ => by simp)
@[simp] theorem sized_accSlot {v : Env} {dn : Nat} {k : Nat → Res} (hk : ∀ i, (k i).Sized) : (v.accSlot dn k).Sized :=
  .ite (sized_addrTrap ..) (.ite (sized_addrTrap ..) (hk _))
@[simp] theorem sized_mLdacc (v : Env) : (mLdacc v).Sized :=
  sized_both (sized_accSlot fun _ => .done (.look fun _ _ => sized_sendReq ..)) (sized_noneRule ..)
@[simp] theorem sized_atomic (v : Env) (a : W64) (kind : ReqKind) (hostOk : Bool) (data : List Byte) (dest : Nat) :
    (v.atomic a kind hostOk data dest).Sized := by
  unfold Env.atomic
  dsimp only
  split
  next h => exact sized_of_reach_ends h
  next h =>
    exact .ite (sized_addrTrap ..) <| .done <| .cons (sized_of_reach_at h) <| .cons (.whenE (sized_upd fun _ => by simp)) <|
      .cons (.look fun _ _ => sized_sendReq ..) .nil
@[simp] theorem sized_fence (v : Env) : (Env.fence v).Sized := sized_upd fun _ => by simp
@[simp] theorem sized_mFence (v : Env) : (mFence v).Sized := sized_both (.done (sized_fence ..)) (.done .skip)
@[simp] theorem sized_mWatch (v : Env) : (mWatch v).Sized := by
  refine sized_both ?_ (sized_noneRule v)
  dsimp only
  split
  next h => exact sized_of_reach_ends h
  next h =>
    exact .ite (sized_addrTrap ..) <| .done <| .cons (sized_of_reach_at h) <|
      .cons (.look fun _ _ => sized_sendReq ..) (.cons (.updT ..) .nil)
@[simp] theorem sized_memoryWords (v : Env) :
    (mLd v).Sized ∧ (mSt v).Sized ∧ (mLdbnd v).Sized ∧ (mTilefill v).Sized ∧ (mLdmc v).Sized ∧ (mStacc v).Sized ∧
    (mAtom v).Sized ∧ (mRed v).Sized ∧ (mCas v).Sized := by
  simp [mLd, mSt, mLdbnd, mTilefill, mLdmc, mStacc, mAtom, mRed, mCas]

/-! ## Requests at their points -/

@[simp] theorem sized_checked {q : Req} {e : Eff} (h : e.Sized) : (checked q e).Sized :=
  .andThen (.whenE (sized_eccWrite ..)) <| .look fun _ _ => by
    split
    · exact .andThen (sized_eccRead ..) (.ite (sized_upd fun _ => by simp) h)
@[simp] theorem sized_performLoad (q : Req) : (performLoad q).Sized :=
  .look fun _ _ => .cons (sized_upd fun _ => by simp) (.cons (sized_pointRead ..) (.cons (sized_barriersAt ..) .nil))
@[simp] theorem sized_wrote (q : Req) (bs : List Byte) : (wrote q bs).Sized :=
  .andThen (sized_upd fun _ => by dsimp only; split <;> simp) (sized_barriersAt ..)
@[simp] theorem sized_performStore (k : WrKind) (q : Req) : (performStore k q).Sized :=
  .ite (.andThen (sized_pointWrite ..) (sized_wrote ..)) (.andThen (sized_pointWrite ..) (sized_upd fun _ => by simp))
@[simp] theorem sized_performAtomic (q : Req) : (performAtomic q).Sized :=
  .look fun _ _ => .cons (sized_upd fun _ => by simp) <|
    .cons (by split; exacts [sized_pointWrite .., sized_sliceTouchE .., .skip]) <| .cons (sized_wrote ..) .nil
@[simp] theorem sized_performAcc (q : Req) : (performAcc q).Sized := by
  unfold performAcc
  split; exacts [sized_performLoad .., sized_performStore ..]
@[simp] theorem sized_atSlice {id : Nat} {is : ReqKind → Bool} {e : Req → Eff} (h : ∀ q, (e q).Sized) :
    (atSlice id is e).Sized := .look fun _ _ => .withE fun _ => .ite (sized_checked (h _)) .skip
@[simp] theorem sized_hostFail (q : Req) : (hostFail q).Sized := by
  unfold hostFail
  split; exacts [.ite .skip (sized_contained ..), .skip]
@[simp] theorem sized_performDirect (id : Nat) : (performDirect id).Sized :=
  .look fun _ _ => .withE fun _ => .ite .skip <| .ite (sized_hostFail ..) <| sized_checked <| by
    split
    · exact sized_performLoad ..
    · exact sized_performAcc ..
    · exact sized_performStore ..
    · exact sized_performStore ..
    · exact sized_performAcc ..
    · exact sized_performAtomic ..
    · exact sized_performAtomic ..
    · exact sized_performAtomic ..
    · exact .skip
@[simp] theorem Dev.sized_l1Return (q : Req) (fill : Bool) (d : Dev) : (l1Return q fill d).Sized ↔ d.Sized := by
  unfold l1Return
  split
  · dsimp only
    split
    · rfl
    · split <;> simp
  · split <;> simp
  · rfl
@[simp] theorem sized_returnReq (q : Req) (fill : Bool) : (returnReq q fill).Sized := by
  unfold returnReq
  exact sized_upd fun _ => by simp
@[simp] theorem sized_mcAnswer (qs : List Req) : (mcAnswer qs).Sized :=
  .look fun _ _ => .andThen (sized_upd fun _ => by simp) (.forE fun _ => sized_barriersAt ..)
@[simp] theorem sized_mcOwn (q : Req) : (mcOwn q).Sized :=
  .look fun _ _ => sized_checked (.andThen (sized_mcAnswer ..) (sized_performLoad ..))
@[simp] theorem sized_mcClose (v : Nat) (e : McEnt) : (mcClose v e).Sized :=
  .look fun _ _ => by
    dsimp only
    split
    · exact sized_upd fun _ => by simp
    · exact .ite
        (.cons (sized_eccRead ..) (.cons (sized_upd fun _ => by simp) (.cons (sized_upd fun _ => by simp) .nil)))
        (.cons (sized_eccRead ..) <| .cons (sized_mcAnswer ..) <| .cons (sized_upd fun _ => by simp) <|
          .cons (sized_pointRead ..) .nil)
@[simp] theorem sized_mcTick (v : Nat) : (mcTick v).Sized :=
  .look fun _ _ => .andThen (.forE fun _ => sized_mcClose ..) (sized_upd fun _ => by simp)

/-! ## Servers -/

@[simp] theorem Dev.sized_clockServers (kind inst : Nat) (work : List Nat) (d : Dev) :
    (clockServers kind inst work d).Sized ↔ d.Sized := by simp [clockServers]
@[simp] theorem Dev.sized_chargeServer (kind inst ctx x : Nat) (d : Dev) :
    (chargeServer kind inst ctx x d).Sized ↔ d.Sized := by simp [chargeServer]

/-! ## The matrix engine -/

@[simp] theorem sized_toMatrix (v : Env) (o : MatOp) : (Env.toMatrix v o).Sized :=
  .ite (.jump (.updT ..)) (.done (sized_upd fun _ => by simp))
theorem sized_of_scales {v : Env} {x : MatBlk} {r : Res} (h : v.scales x = .inr r) : r.Sized := by
  unfold Env.scales at h
  dsimp only at h
  split at h
  · cases h; exact .trap ..
  · split at h
    · cases h; exact .trap ..
    · nomatch h
@[simp] theorem sized_mMat (v : Env) : (mMat v).Sized := by
  refine sized_both (sized_withBlk fun b => .ite (.trap ..) <| .ite (.trap ..) <| .ite (.trap ..) <| .ite (.trap ..) ?_)
    (sized_noneRule v)
  dsimp only
  split
  · refine .ite .stay (.ite (sized_toMatrix ..) ?_)
    split
    next => exact sized_toMatrix ..
    next h => exact sized_of_scales h
  · exact .trap ..
@[simp] theorem sized_accOp (kind : MatKind) (v : Env) : (accOp kind v).Sized := by
  refine sized_both (sized_withBlk fun _ => ?_) (sized_noneRule ..)
  dsimp only
  split
  · exact .trap ..
  · exact .ite (.trap ..) (sized_toMatrix ..)
@[simp] theorem sized_matGrant {core ctx : Nat} {e : Eff} (h : e.Sized) : (matGrant core ctx e).Sized :=
  .look fun _ _ => .andThen (sized_upd fun _ => by simp) <| .look fun _ _ => .ite .skip <|
    .andThen (sized_upd fun _ => by simp) h
@[simp] theorem sized_matStep (core : Nat) (o : MatOp) (prog : List ((Nat × Nat) × Nat)) :
    (matStep core o prog).Sized :=
  .look fun _ _ => by
    split
    · exact .andThen (sized_upd fun _ => by simp) (.ite (sized_upd fun _ => by simp) (sized_upd fun _ => by simp))
@[simp] theorem sized_groupUpdate (core id i j : Nat) : (groupUpdate core id i j).Sized :=
  .look fun _ _ => .withE fun _ => .ite .skip <| sized_matGrant <| .look fun _ _ =>
    .cons (.forE fun _ => .ite (sized_eccRead ..) (sized_eccRead ..)) <| .cons (.whenE (sized_eccRead ..)) <|
      .cons (sized_eccWrite ..) (.cons (sized_pointWrite ..) (.cons (sized_matStep ..) .nil))
@[simp] theorem Dev.sized_metaFree (core q : Nat) (d : Dev) : (metaFree core q d).Sized ↔ d.Sized := by simp [metaFree]
@[simp] theorem sized_metaPop (core id : Nat) : (metaPop core id).Sized :=
  .look fun _ _ => .withE fun _ => .withE fun _ => by split; exacts [.skip, .ite (sized_upd fun _ => by simp) .skip]
@[simp] theorem sized_accProgress (core id : Nat) : (accProgress core id).Sized := by
  refine .look fun _ _ => .withE fun _ => .ite .skip (sized_matGrant (.look fun _ _ => .andThen ?_ (sized_matStep ..)))
  split
  · exact .andThen (sized_eccWrite ..) (sized_pointWrite ..)
  · split
    · exact .cons (sized_eccRead ..) <| .cons (sized_eccWrite ..) <| .cons (sized_pointWrite ..) <|
          .cons (.updT ..) (.cons (.whenE (sized_pointWrite ..)) .nil)
  · exact .cons (sized_eccRead ..) (.cons (sized_eccWrite ..) (.cons (sized_pointWrite ..) .nil))
@[simp] theorem sized_matrixWords (v : Env) :
    (mAccz v).Sized ∧ (mAccdrain v).Sized ∧ (mAccload v).Sized := by
  simp [mAccz, mAccdrain, mAccload]

/-! ## The copy engine -/

@[simp] theorem sized_toCopy (v : Env) (o : CopyOp) (lat : Nat) : (v.toCopy o lat).Sized :=
  .look fun _ hs => .upd fun _ _ => by simpa using hs
@[simp] theorem sized_copyM (kind : CopyKind) (v : Env) : (copyM kind v).Sized := by
  refine sized_both (.ite (.trap ..) <| .ite (.trap ..) <| sized_withBlk fun b => ?_) (sized_noneRule v)
  dsimp only
  split
  · exact .trap ..
  · exact .ite .stay (.ite (.jump (.updT ..)) (.done (sized_toCopy ..)))
@[simp] theorem sized_unitAtE (d : Dev) (f : Flock) (o : CopyOp) (a : W64) (kind : AccKind) :
    (unitAtE d f o a kind).Sized := by
  unfold unitAtE
  split; exacts [sized_xlatE .., .skip]
@[simp] theorem Dev.sized_modCopy (core id : Nat) (g : CopyOp → CopyOp) (d : Dev) :
    (modCopy core id g d).Sized ↔ d.Sized := by simp [modCopy]
@[simp] theorem Dev.sized_copyEnd (core : Nat) (o : CopyOp) (d : Dev) : (copyEnd core o d).Sized ↔ d.Sized := by
  simp [copyEnd]
@[simp] theorem sized_copyFault (f : Flock) (o : CopyOp) (unit va lvl : Nat) (kind : AccKind) :
    (copyFault f o unit va lvl kind).Sized :=
  .look fun _ _ => .ite (.andThen (sized_of_faultRecord rfl) (sized_upd fun _ => by simp))
    (.andThen (sized_of_faultRecord rfl) (sized_abortFlock ..))
@[simp] theorem sized_engineStop (ctx core : Nat) (addr : W64) (code : Nat) : (engineStop ctx core addr code).Sized := by
  simp [engineStop]
@[simp] theorem sized_unitWrite (o : CopyOp) (x : CopyBlk) (unit : Nat) (bs : List Byte) (dst : Loc) (nc : Bool)
    (done : List Nat) (t : Nat × Nat) : (unitWrite o x unit bs dst nc done t).Sized := by
  refine .look fun s _ => ?_
  have hput (l : Loc) (w : Who) : ((eccWrite l 16).andThen (look fun s =>
      let (r, n) := s.dev.writeRange w l 16 18
      (eccRead (some o.ctx) r n).andThen (if s.dev.eccBad r n then skip
        else if o.meets s l then
          (pointWrite w .plain l ((List.range 16).map (Config.undefByte s.dev.free))).andThen
            (upd (fun d => { d with free := d.free + 1 }))
        else pointWrite w .plain l bs))).Sized :=
    .andThen (sized_eccWrite ..) <| .look fun _ _ => .andThen (sized_eccRead ..) <| .ite .skip <|
      .ite (.andThen (sized_pointWrite ..) (sized_upd fun _ => by simp)) (sized_pointWrite ..)
  dsimp only
  split
  · exact .cons (.whenE (sized_eccWrite ..)) (.cons (hput ..) (.cons (sized_upd fun _ => by simp) .nil))
  · exact hput ..
@[simp] theorem sized_unitDone (core : Nat) (o : CopyOp) (x : CopyBlk) (unit : Nat) (done : List Nat) :
    (unitDone core o x unit done).Sized := sized_upd fun _ => by simp
@[simp] theorem sized_unitTransfer (core id unit : Nat) : (unitTransfer core id unit).Sized := by
  refine .look fun _ _ => .withE fun o => .withE fun f => .ite .skip <| .andThen (sized_upd fun _ => by simp) <|
    .look fun s _ => .ite .skip ?_
  have hread {turn late src : Eff} (ht : turn.Sized) (hl : late.Sized) (hs : src.Sized) : (seqE [turn, late, src]).Sized :=
    .cons ht (.cons hl (.cons hs .nil))
  dsimp only
  split
  · exact .halt _
  · exact sized_unitAtE ..
  · exact sized_engineStop ..
  · exact sized_copyFault ..
  · refine .ite (sized_contained ..) (.ite (sized_eccRead ..) ?_)
    split
    · exact .cons (hread (sized_upd fun _ => by simp) (.whenE (sized_upd fun _ => by simp)) (sized_unitAtE ..)) <|
        .cons (.andThen (sized_eccRead ..) (sized_pointRead ..)) (.cons (sized_upd fun _ => by simp) .nil)
    · exact .cons (hread (sized_upd fun _ => by simp) (.whenE (sized_upd fun _ => by simp)) (sized_unitAtE ..)) <|
        .cons (.andThen (sized_eccRead ..) (sized_pointRead ..)) <|
          .cons (.forE fun _ => sized_unitWrite ..) (.cons (sized_unitDone ..) .nil)
    · split
      · exact .halt _
      · exact sized_unitAtE ..
      · exact sized_engineStop ..
      · exact sized_copyFault ..
      · exact .ite (sized_contained ..) <|
          .cons (hread (sized_upd fun _ => by simp) (.whenE (sized_upd fun _ => by simp)) (sized_unitAtE ..)) <|
            .cons (sized_unitAtE ..) <| .cons (.andThen (sized_eccRead ..) (sized_pointRead ..)) <|
              .cons (.forE fun _ => sized_unitWrite ..) (.cons (sized_unitDone ..) .nil)
@[simp] theorem sized_entryPlace (core id : Nat) : (entryPlace core id).Sized :=
  .look fun _ _ => .withE fun _ => .withE fun _ => .ite .skip (sized_upd fun _ => by simp)
@[simp] theorem sized_engineAccept (core : Nat) (matrix : Bool) : (engineAccept core matrix).Sized :=
  .look fun _ _ => .forE fun _ => .updT ..
@[simp] theorem sized_mSpush (v : Env) : (mSpush v).Sized := by
  unfold mSpush
  split; exacts [.done (sized_upd fun _ => by simp), .done .skip]
@[simp] theorem sized_mQpop (v : Env) : (mQpop v).Sized := by
  refine sized_both ?_ (sized_noneRule ..)
  split
  · exact .ite (.trap ..) (.ite (.ite (.trap ..) .stay) (.done (.andThen (.updT ..) (sized_upd fun _ => by simp))))
  · exact .done .skip
@[simp] theorem sized_copyWords (v : Env) :
    (mCopy v).Sized ∧ (mCopymc v).Sized ∧ (mCopyq v).Sized := by
  simp [mCopy, mCopymc, mCopyq]

end Sys2Proof.Machine
end

section
/-! SUPPORT. The device keeps its parts in their numbers: agents, one lemma for each operation. -/

namespace Sys2Proof.Machine

/-! ## Accesses by virtual address -/

@[simp] theorem sized_vxlatE (ctx : Nat) (ptroot : W64) (a n : Nat) (kind : AccKind) :
    (vxlatE ctx ptroot a n kind).Sized := .forE fun _ => .ite .skip (sized_xlatE ..)
@[simp] theorem sized_vreadE (ctx : Nat) (ptroot : W64) (a n : Nat) : (vreadE ctx ptroot a n).Sized :=
  .andThen (sized_vxlatE ..) <| .forE fun _ => .look fun _ _ => by
    split
    · split
      · exact .andThen (sized_eccRead ..) (.ite .skip (sized_pointRead ..))
    · exact .skip
@[simp] theorem sized_vwriteE (ctx : Nat) (ptroot : W64) (a : Nat) (bs : List Byte) :
    (vwriteE ctx ptroot a bs).Sized :=
  .andThen (sized_vxlatE ..) <| .forE fun _ => .look fun _ _ => by
    split
    · exact .andThen (sized_eccWrite ..) <| .look fun _ _ => by
        split
        · exact .andThen (sized_eccRead ..) (.ite .skip (sized_pointWrite ..))
    · exact .skip
@[simp] theorem sized_withRead {ctx : Nat} {ptroot : W64} {a n : Nat} {bad : Nat → Bool → Eff} {k : List Byte → Eff}
    (hb : ∀ x p, (bad x p).Sized) (hk : ∀ bs, (k bs).Sized) : (withRead ctx ptroot a n bad k).Sized :=
  .look fun _ _ => by
    split
    · exact .andThen (sized_vxlatE ..) (hb _ _)
    · exact .andThen (sized_vreadE ..) (.ite .skip (hk _))
@[simp] theorem sized_withWrite {ctx : Nat} {ptroot : W64} {a : Nat} {bs : List Byte} {bad : Nat → Bool → Eff}
    {k : Eff} (hb : ∀ x p, (bad x p).Sized) (hk : k.Sized) : (withWrite ctx ptroot a bs bad k).Sized :=
  .look fun _ _ => by
    split
    · exact .andThen (sized_vxlatE ..) (hb _ _)
    · exact .andThen (sized_vwriteE ..) (.ite .skip hk)

/-! ## Flits and hops of other devices -/

@[simp] theorem sized_tableRead (ctx pa n : Nat) : (tableRead ctx pa n).Sized :=
  .look fun _ _ => .whenE (.forE fun _ => sized_eccRead ..)
@[simp] theorem Dev.sized_sendFlit (m : PeerMsg) (d : Dev) : (sendFlit m d).Sized ↔ d.Sized := by simp [sendFlit]
@[simp] theorem Dev.sized_forwardFlit (f : Flit) (d : Dev) : (forwardFlit f d).Sized ↔ d.Sized := by simp [forwardFlit]
@[simp] theorem Dev.sized_queueFlit (ctx : Nat) (m : PeerMsg) (d : Dev) : (queueFlit ctx m d).Sized ↔ d.Sized := by
  simp [queueFlit]
@[simp] theorem Dev.sized_sendCharged (ctx : Nat) (m : PeerMsg) (d : Dev) : (sendCharged ctx m d).Sized ↔ d.Sized := by
  simp [sendCharged]
theorem Dev.sized_takeHop {d e : Dev} {ctx : Nat} {h : Hop} (ht : d.takeHop ctx h = some e) : e.Sized ↔ d.Sized := by
  unfold Dev.takeHop at ht
  split at ht
  · nomatch ht
  · split at ht
    · nomatch ht
    · cases ht; simp
@[simp] theorem sized_serveHop (m : PeerMsg) : (serveHop m).Sized := by
  refine .look fun s hs => .ite (.ite (sized_upd fun _ => by simp) ?_) <| .ite (sized_upd fun _ => by simp) <|
    .ite (sized_upd fun _ => by simp) (.ite (sized_upd fun _ => by simp) .skip)
  split
  next ht =>
    have he := (Dev.sized_takeHop ht).2 hs
    exact .andThen (.upd fun _ _ => by simpa using he) (sized_upd fun _ => by simp)
  next => exact sized_upd fun _ => by simp

/-! ## Peer requests and collectives -/

@[simp] theorem sized_peerGo {v : Env} {fa : W64} {kind : ReqKind} {n dn : Nat} {data : List Byte} {dest : Nat}
    {pre : Eff} (h : pre.Sized) : (v.peerGo fa kind n dn data dest pre).Sized :=
  .ite (sized_addrTrap ..) <| .ite (.jump (.halt _)) <| .ite (.jump (sized_tableRead ..)) <| .ite (sized_addrTrap ..) <|
    .ite (sized_addrTrap ..) <| .done <| .cons (sized_tableRead ..) <| .cons h <|
      .cons (.look fun _ _ => sized_sendReq ..) .nil
@[simp] theorem sized_mPld (v : Env) : (mPld v).Sized := sized_both (sized_peerGo .skip) (sized_noneRule ..)
@[simp] theorem sized_mPst (v : Env) : (mPst v).Sized :=
  sized_both (sized_peerGo (sized_upd fun _ => by simp)) (sized_noneRule ..)
@[simp] theorem sized_mPatom (v : Env) : (mPatom v).Sized :=
  sized_both (sized_peerGo (sized_upd fun _ => by simp)) (sized_noneRule ..)
@[simp] theorem Dev.sized_sendPeer (ent : RankEnt) (q : Req) (d : Dev) : (sendPeer ent q d).Sized ↔ d.Sized := by
  unfold sendPeer; split <;> simp
@[simp] theorem Dev.sized_sendQueued (x : Nat × PeerMsg) (d : Dev) : (sendQueued x d).Sized ↔ d.Sized := by
  simp [sendQueued]
@[simp] theorem Dev.sized_portTurn (s : State) (port : Nat) (d : Dev) : (State.portTurn s port d).Sized ↔ d.Sized := by
  unfold State.portTurn
  dsimp only
  split
  · simp
  · split <;> simp
@[simp] theorem Dev.sized_pump (s : State) : s.pump.Sized ↔ s.dev.Sized := by simp [State.pump]
@[simp] theorem Dev.sized_putStream (x : PeerIn) (d : Dev) : (putStream x d).Sized ↔ d.Sized := by simp [putStream]
@[simp] theorem Dev.sized_parkPeer (m : PeerMsg) (d : Dev) : (parkPeer m d).Sized ↔ d.Sized := by simp [parkPeer]
@[simp] theorem sized_answerPeer (m : PeerMsg) (st : PeerIn) (a : Answer) : (answerPeer m st a).Sized :=
  .andThen (sized_upd fun _ => by simp) (sized_upd fun _ => by simp)
@[simp] theorem sized_peerRefused (m : PeerMsg) : (peerRefused m).Sized :=
  .look fun _ _ => .andThen (sized_upd fun _ => by simp) (sized_answerPeer ..)
theorem sized_snd_ite {α : Type} {c : Prop} [Decidable c] {a b : α × Eff} (ha : a.2.Sized) (hb : b.2.Sized) :
    (if c then a else b).2.Sized := by
  split
  · exact ha
  · exact hb
theorem sized_peerPerform (m : PeerMsg) (s : State) : (peerPerform m s).2.Sized := by
  refine sized_snd_ite .skip (sized_snd_ite .skip ?_)
  dsimp only
  split
  · exact .halt _
  · exact sized_xlatE ..
  · exact sized_xlatE ..
  · refine sized_snd_ite (sized_xlatE ..) <| sized_snd_ite (.andThen (sized_xlatE ..) (sized_containedNone ..)) <|
      sized_snd_ite (.andThen (sized_xlatE ..) (.ite (sized_eccRead ..) (sized_eccRead ..))) ?_
    split
    · exact .andThen (sized_xlatE ..) (.andThen (sized_eccRead ..) (sized_pointRead ..))
    · exact .andThen (sized_xlatE ..) (.andThen (sized_eccWrite ..) (sized_pointWrite ..))
    · exact .andThen (sized_xlatE ..) (.andThen (sized_eccRead ..) (sized_pointWrite ..))

@[simp] theorem sized_targetRequest (m : PeerMsg) : (targetRequest m).Sized := by
  refine .look fun s _ => .ite .skip ?_
  dsimp only
  split
  · exact sized_upd fun _ => by simp
  · refine .ite (sized_upd fun _ => by simp) ?_
    split
    · exact sized_upd fun _ => by simp
    · exact .andThen (sized_peerPerform m s) (sized_answerPeer ..)
@[simp] theorem sized_peerRetry (n : Nat) : (peerRetry n).Sized := by
  induction n with
  | zero => exact .skip
  | succ n ih =>
    exact .look fun _ _ => .withE fun _ => .andThen (sized_upd fun _ => by simp) (.andThen (sized_targetRequest _) ih)
@[simp] theorem sized_peerRetries : peerRetries.Sized := .look fun _ _ => .ite .skip (sized_peerRetry ..)
@[simp] theorem sized_peerArrives (m : PeerMsg) : (peerArrives m).Sized :=
  .look fun _ _ => .andThen (sized_targetRequest ..) (.ite .skip sized_peerRetries)
@[simp] theorem sized_peerAnswer (m : PeerMsg) : (peerAnswer m).Sized :=
  .look fun _ _ => .ite .skip <| .withE fun _ => .andThen (sized_upd fun _ => by simp) <| .withE fun _ => by
    split
    · exact sized_engineStop ..
    · exact .andThen (sized_upd fun _ => by simp) (sized_barriersAt ..)
    · exact .andThen (sized_returnReq ..) (sized_barriersAt ..)
@[simp] theorem sized_flitReceive (port : Nat) (f : Flit) : (flitReceive port f).Sized :=
  .look fun _ _ => .ite .skip <| .ite (sized_bankRecord ..) <| .ite (sized_upd fun _ => by simp) <| by
    dsimp only
    split
    · exact sized_peerArrives ..
    · exact sized_peerArrives ..
    · exact sized_peerArrives ..
    · exact sized_peerAnswer ..
    · exact sized_peerAnswer ..
    · exact sized_peerAnswer ..
    · exact sized_serveHop ..
    · exact sized_peerAnswer ..
    · exact .skip
@[simp] theorem sized_streamBreak (ctx dev : Nat) (outs : List PeerOut) : (streamBreak ctx dev outs).Sized :=
  .look fun _ _ => .cons (sized_upd fun _ => by simp) <| .cons (.forE fun _ => sized_ctxEvent ..) <|
    .cons (sized_contained ..) .nil
@[simp] theorem sized_streamTimeout (ctx dev : Nat) : (streamTimeout ctx dev).Sized :=
  .look fun _ _ => .ite .skip (.ite (sized_streamBreak ..) .skip)
@[simp] theorem sized_toColl (v : Env) (b : List Byte) (group : Nat) (e : GroupEnt) : (Env.toColl v b group e).Sized :=
  .look fun _ _ => sized_upd fun _ => by simp
@[simp] theorem sized_mColl (v : Env) : (mColl v).Sized := by
  refine sized_both (sized_withBlk fun _ => .ite (.jump (.halt _)) (.ite (.jump (sized_tableRead ..)) ?_)) <|
      sized_noneRule ..
  split
  · exact .trap ..
  · exact .ite (.jump (.halt _)) <| .ite (.jump (sized_tableRead ..)) <| .done <| .cons (sized_tableRead ..) <|
        .cons (sized_tableRead ..) (.cons (sized_upd fun _ => by simp) (.cons (sized_toColl ..) .nil))
@[simp] theorem sized_collFail {c : Coll} {e : Eff} (h : e.Sized) : (collFail c e).Sized :=
  .andThen (.look fun _ _ => sized_vwriteE ..) (.andThen (sized_upd fun _ => by simp) h)
@[simp] theorem sized_collBad (c : Coll) (va : Nat) (perm : Bool) : (collBad c va perm).Sized :=
  sized_collFail (.ite (sized_engineStop ..) (sized_contained ..))
@[simp] theorem sized_collSend (c : Coll) (own : List Byte) : (collSend c own).Sized :=
  .look fun _ _ => sized_upd fun _ => by simp
@[simp] theorem sized_collComplete (id : Nat) (sends : List (List Byte)) : (collComplete id sends).Sized :=
  .look fun _ _ => .withE fun _ => .ite .skip <| .ite (sized_collFail (sized_contained ..)) <| .ite
    (sized_withRead (fun _ _ => sized_collBad ..) fun _ => .andThen (sized_collSend ..) <|
      sized_withWrite (fun _ _ => sized_collBad ..) <| sized_withWrite (fun _ _ => sized_collBad ..) <|
        sized_upd fun _ => by simp)
    (sized_withWrite (fun _ _ => sized_collBad ..) <| sized_withWrite (fun _ _ => sized_collBad ..) <|
      sized_upd fun _ => by simp)
@[simp] theorem sized_collTimeout (id : Nat) : (collTimeout id).Sized :=
  .look fun _ _ => .withE fun _ => .ite .skip (.ite (sized_collFail (sized_contained ..)) .skip)
@[simp] theorem sized_portDown (port : Nat) : (portDown port).Sized :=
  .look fun _ _ => .ite .skip <| .cons (sized_bankRecord ..) <| .cons (sized_upd fun _ => by simp) <|
    .cons (.forE fun _ => sized_upd fun _ => by simp) <| .cons (.forE fun _ => sized_streamBreak ..) <|
      .cons (.look fun _ _ => .forE fun _ => sized_collFail (sized_contained ..)) .nil

/-! ## Issue slots and waves -/

@[simp] theorem Dev.sized_modPg (d : Dev) (core pg : Nat) (g : Flock → Thread → Thread) :
    (Dev.modPg d core pg g).Sized ↔ d.Sized := by simp [Dev.modPg]
@[simp] theorem sized_findFaults (core pg : Nat) : (findFaults core pg).Sized :=
  .look fun _ _ => .forE fun _ => .updT ..
@[simp] theorem sized_fullHolds (core pg : Nat) : (fullHolds core pg).Sized :=
  .look fun _ _ => .forE fun _ => .andThen (.updT ..) (sized_settle ..)
@[simp] theorem sized_pendTrap (r : TRef) : (pendTrap r).Sized :=
  .look fun _ _ => .withE fun _ => by split; exacts [sized_takeTrap .., .skip]
@[simp] theorem sized_grantSlot (core pg k : Nat) (cs : List Cand) : (grantSlot core pg k cs).Sized :=
  .look fun _ _ => by
    dsimp only
    split
    · exact sized_upd fun _ => by simp
    · exact .cons (sized_upd fun _ => by simp) <| .cons (.forE fun _ => sized_pendTrap ..) <|
        .cons (.whenE (sized_upd fun _ => by simp)) .nil
@[simp] theorem sized_slotPrepare (core pg : Nat) : (slotPrepare core pg).Sized :=
  .look fun _ _ => .cons (sized_upd fun _ => by simp) <| .cons (.look fun _ _ => .forE fun _ => sized_settle ..) <|
    .cons (sized_fullHolds ..) (.cons (sized_findFaults ..) .nil)
@[simp] theorem Dev.sized_slotClock (core pg : Nat) (cs : List Cand) (d : Dev) :
    (slotClock core pg cs d).Sized ↔ d.Sized := by simp [slotClock]
@[simp] theorem sized_issueSlot (core pg : Nat) : (issueSlot core pg).Sized :=
  .look fun _ _ => .ite .skip <| .andThen (sized_slotPrepare ..) <| .look fun _ _ =>
    .andThen (sized_upd fun _ => by simp) (.look fun _ _ => .withE fun _ => sized_grantSlot ..)
@[simp] theorem sized_rendezvousTrap (r : TRef) : (rendezvousTrap r).Sized :=
  .look fun _ _ => .ite (sized_issueSlot ..) .skip
@[simp] theorem Dev.sized_releaseTeam (x : TeamRef) (d : Dev) : (releaseTeam x d).Sized ↔ d.Sized := by simp [releaseTeam]
@[simp] theorem sized_waveRelease (cluster : Nat) : (waveRelease cluster).Sized :=
  .look fun _ _ => by
    dsimp only
    split
    · exact .skip
    · exact .ite .skip (sized_upd fun _ => by simp)

/-! ## Stacks -/

@[simp] theorem Dev.sized_putPcE (h : Nat) (p : PseudoChan) (d : Dev) : (putPcE h p d).Sized ↔ d.Sized := by simp [putPcE]
@[simp] theorem Dev.sized_admitFor (h k : Nat) (d : Dev) : (admitFor h k d).Sized ↔ d.Sized := by
  unfold admitFor; dsimp only
  repeat' split
  all_goals simp
@[simp] theorem Dev.sized_admitOne (h : Nat) (d : Dev) : (admitOne h d).Sized ↔ d.Sized := by
  unfold admitOne; split <;> simp
@[simp] theorem Dev.sized_dramDone (q : DramReq) (d : Dev) : (dramDone q d).Sized ↔ d.Sized := by
  unfold dramDone; split <;> simp
@[simp] theorem sized_dramServe (h n : Nat) : (dramServe h n).Sized :=
  .look fun _ _ => .ite .skip <| .cons (sized_upd fun _ => by simp) <| .cons (sized_upd fun _ => by simp) <|
    .cons (sized_upd fun _ => by dsimp only; split <;> simp) (.cons sized_peerRetries .nil)
@[simp] theorem sized_dramRefreshE (h n bank : Nat) : (dramRefreshE h n bank).Sized :=
  .look fun _ _ => .ite .skip (sized_upd fun _ => by simp)
@[simp] theorem sized_selfEntry (h n : Nat) : (selfEntry h n).Sized :=
  .look fun _ _ => .ite .skip (sized_upd fun _ => by simp)
@[simp] theorem sized_selfExit (h n : Nat) : (selfExit h n).Sized :=
  .look fun _ _ => by
    dsimp only
    split
    · exact .ite .skip (sized_upd fun _ => by simp)
    · exact .ite (.andThen (sized_upd fun _ => by simp) sized_peerRetries) .skip
    · exact .skip
@[simp] theorem sized_selfTimeout (h n : Nat) : (selfTimeout h n).Sized :=
  .look fun _ _ => .ite .skip <| .cons (sized_upd fun _ => by simp) <| .cons (.forE fun _ => sized_peerRefused ..) <|
    .cons (.forE fun _ => sized_contained ..) (.cons (.whenE (sized_containedNone ..)) .nil)
@[simp] theorem sized_retrain (h n : Nat) : (retrain h n).Sized :=
  .look fun _ _ => .ite (.andThen (sized_upd fun _ => by simp) sized_peerRetries) .skip
@[simp] theorem sized_pageWalkE (core ctx va : Nat) (kind : AccKind) : (pageWalkE core ctx va kind).Sized :=
  .look fun _ _ => .ite .skip (by split; exacts [.skip, sized_xlatE ..])

/-! ## Steps and their nodes -/

@[simp] theorem sized_stepError (ctx idx reason : Nat) : (stepError ctx idx reason).Sized := by simp [stepError]
@[simp] theorem Dev.sized_modNode (ctx i : Nat) (g : Node → Node) (d : Dev) : (modNode ctx i g d).Sized ↔ d.Sized := by
  simp [modNode]
@[simp] theorem sized_nodeReadE (ctx : Nat) (st : Step) (i : Nat) : (nodeReadE ctx st i).Sized :=
  .look fun _ _ => sized_vreadE ..
@[simp] theorem Dev.sized_dropWaits (ctx : Nat) (p : Nat → Bool) (d : Dev) : (dropWaits ctx p d).Sized ↔ d.Sized := by
  simp [dropWaits]
@[simp] theorem sized_edge (ctx u j : Nat) (taken : Bool) : (edge ctx u j taken).Sized :=
  .look fun _ _ => .withE fun _ => by
    split
    · exact sized_stepError ..
    · exact .ite (.ite .skip (.ite (sized_upd fun _ => by simp) (sized_upd fun _ => by simp))) <|
        .ite (sized_stepError ..) (sized_upd fun _ => by simp)
@[simp] theorem sized_resolve (ctx i : Nat) (st' : NodeSt) (choice : Nat → Bool) : (resolve ctx i st' choice).Sized :=
  .look fun _ _ => .withE fun _ => .withE fun _ => .andThen (sized_upd fun _ => by simp) <| .forE fun _ =>
    .look fun _ _ => .whenE (sized_edge ..)
@[simp] theorem sized_atNode {ctx i kind : Nat} {act : Step → Node → List Byte → Eff}
    (h : ∀ st n b, (act st n b).Sized) : (atNode ctx i kind act).Sized :=
  .look fun _ _ => .withE fun _ => .ite .skip <| by
    split
    · exact .ite .skip (sized_stepError ..)
    · exact .ite .skip <| .andThen (sized_nodeReadE ..) <| .look fun _ _ => .ite .skip <| by
        split
        · exact sized_stepError ..
        · exact .ite (sized_resolve ..) (h _ _ _)
@[simp] theorem sized_walkerRead {ctx i a n : Nat} {k : List Byte → Eff} (hk : ∀ bs, (k bs).Sized) :
    (walkerRead ctx i a n k).Sized := .look fun _ _ => sized_withRead (fun _ _ => sized_stepError ..) hk
@[simp] theorem sized_walkerWrite {ctx i a : Nat} {bs : List Byte} {k : Eff} (hk : k.Sized) :
    (walkerWrite ctx i a bs k).Sized := .look fun _ _ => sized_withWrite (fun _ _ => sized_stepError ..) hk

/-! ## Runs, flocks and tiles -/

@[simp] theorem sized_acceptE (ctx : Nat) (blk : List Byte) (wins : Option Nat) : (acceptE ctx blk wins).Sized :=
  .look fun _ _ => .ite .skip <| .andThen (sized_vreadE ..) <| .withE fun _ => .cons (sized_vreadE ..) <|
    .cons (.forE fun _ => sized_vreadE ..) (.cons (.whenE (sized_vreadE ..)) .nil)
@[simp] theorem sized_addRun {ctx : Nat} {r : Run} {k : Nat → Eff} (hk : ∀ n, (k n).Sized) : (addRun ctx r k).Sized :=
  .look fun _ _ => sized_walkerWrite (.andThen (sized_upd fun _ => by simp) (hk _))
@[simp] theorem sized_runAccept (r : TRef) : (runAccept r).Sized :=
  .look fun _ _ => .withE fun _ => .withE fun _ => by
    split
    · exact .ite .skip <| by
        split
        · exact .andThen (sized_acceptE ..) (.look fun _ _ => .ite .skip (sized_addRun fun _ => .updT ..))
        · exact .andThen (sized_acceptE ..) (.updT ..)
        · exact .andThen (sized_acceptE ..) (sized_stepError ..)
        · exact .updT ..
    · exact .skip
@[simp] theorem sized_placeE (core ctx num g : Nat) (ts : List (Nat × Bool)) (tile : Option Tile) :
    (placeE core ctx num g ts tile).Sized :=
  .look fun _ _ => .withE fun _ => .withE fun _ => .cons (sized_upd fun _ => by simp) <|
    .cons (sized_upd fun _ => by simp) (.cons (.wr _) .nil)
@[simp] theorem sized_placeNext (ctx : Nat) (herd : Bool) : (placeNext ctx herd).Sized :=
  .look fun _ _ => by
    split
    · exact .skip
    · exact .ite .skip (.andThen (sized_upd fun _ => by simp) (.forE fun _ => sized_placeE ..))
@[simp] theorem sized_runEnd (ctx num : Nat) : (runEnd ctx num).Sized := by
  refine .look fun _ _ => .withE fun _ => .ite .skip <|
      .cons (.forE fun _ => .look fun _ _ => .whenE (sized_walkerWrite .skip)) <|
        .cons (.look fun _ _ => .whenE (.ite .skip (sized_walkerWrite .skip))) <|
          .cons (.look fun _ _ => .whenE (sized_upd fun _ => by simp)) (.cons (.look fun _ _ => .whenE ?_) .nil)
  split
  · exact .ite .skip (sized_resolve ..)
  · exact .skip
@[simp] theorem sized_setBit {ctx num g : Nat} {k : Eff} (hk : k.Sized) : (setBit ctx num g k).Sized :=
  .look fun _ _ => .withE fun _ => sized_withRead (fun _ _ => sized_stepError ..) fun _ => sized_walkerWrite <|
    .andThen (sized_upd fun _ => by simp) hk
@[simp] theorem Dev.sized_owe (k : Nat) (d : Dev) : (owe k d).Sized ↔ d.Sized := by simp [owe]
@[simp] theorem Dev.sized_orphanColls (hs : List Flock) (d : Dev) : (orphanColls hs d).Sized ↔ d.Sized := by
  simp [orphanColls]
@[simp] theorem sized_herdFree (core slot : Nat) : (herdFree core slot).Sized :=
  .look fun _ _ => .withE fun _ => .ite (.andThen (sized_upd fun _ => by simp) (sized_discard ..)) <|
    sized_upd fun _ => by simp
@[simp] theorem sized_flockComplete (core slot : Nat) : (flockComplete core slot).Sized :=
  .look fun _ _ => .withE fun _ => .ite .skip <| sized_setBit <| .cons (sized_herdFree ..) <|
    .cons (sized_upd fun _ => by simp) (.cons (sized_runEnd ..) .nil)
@[simp] theorem sized_flockAbort (core slot : Nat) : (flockAbort core slot).Sized :=
  .look fun _ _ => .withE fun _ => .ite .skip (sized_abortFlock ..)
@[simp] theorem sized_abortFree (core slot : Nat) : (abortFree core slot).Sized :=
  .look fun _ _ => .withE fun _ => .ite .skip (.andThen (sized_upd fun _ => by simp) (.wr _))
@[simp] theorem Dev.sized_modBounds (ctx num : Nat) (g : Bounds → Bounds) (d : Dev) :
    (modBounds ctx num g d).Sized ↔ d.Sized := by simp [modBounds]
@[simp] theorem sized_fillFlocks (ctx num : Nat) : (fillFlocks ctx num).Sized :=
  .look fun _ _ => .withE fun _ =>
    .andThen (.forE fun _ => .look fun _ _ => .whenE (sized_setBit (sized_upd fun _ => by simp))) <| .look fun _ _ =>
      .whenE (sized_runEnd ..)
@[simp] theorem sized_leaf (ctx num : Nat) (t : Tile) (o : Nat) : (leaf ctx num t o).Sized :=
  .andThen (sized_upd fun _ => by simp) (sized_fillFlocks ..)
@[simp] theorem sized_tileEval (ctx num : Nat) : (tileEval ctx num).Sized :=
  .look fun _ _ => .withE fun _ => .withE fun _ => by
    split
    · exact .skip
    · exact .ite .skip <| .ite (sized_leaf ..) <| .ite .skip <| by
        split
        · exact .skip
        · exact .andThen (sized_placeE ..) (sized_upd fun _ => by simp)
theorem sized_doFills {f : Flock} {stop done : Eff} (hs : stop.Sized) (hd : done.Sized) (l : List FillAt) :
    (doFills f stop done l).Sized := by
  induction l with
  | nil => exact hd
  | cons x xs ih =>
    refine .look fun s _ => ?_
    have hpre : (match steer s.dev f x.t ⟨false, true, true⟩ x.a.toNat with
        | .virt va => xlatE (some f.core) f.ctx f.regs.ptroot va .write
        | _ => skip).Sized := by
      split
      · exact sized_xlatE ..
      · exact .skip
    dsimp only
    split
    · exact .halt _
    · exact hpre
    · exact .cons hpre <| .cons (sized_eccWrite ..) <| .cons (sized_pointWrite ..) <|
        .cons (sized_upd fun _ => by split <;> simp) (.cons ih .nil)
    · exact .andThen hpre hs
@[simp] theorem sized_tileOutcome (core slot : Nat) : (tileOutcome core slot).Sized := by
  refine .look fun _ _ => .withE fun _ => .withE fun _ => .withE fun _ => .ite .skip ?_
  have hscatter {p : Flock → Bool} {c n k : Nat} {t : Tile} : ((discard p).andThen (leaf c n t k)).Sized :=
    .andThen (sized_discard ..) (sized_leaf ..)
  exact .ite
    (.ite (.andThen (sized_discard ..) (.andThen (sized_upd fun _ => by simp) (sized_fillFlocks ..))) hscatter)
    (.ite hscatter (.ite hscatter (sized_doFills hscatter hscatter _)))

/-! ## The graph walker -/

@[simp] theorem sized_sqTail (f : Fn) (ctx val : Nat) : (sqTail f ctx val).Sized :=
  .look fun _ _ => .ite .skip <| .andThen (sized_upd fun _ => by simp) <| .ite .skip <| by
    split
    · exact .halt _
    · exact .andThen (.forE fun _ => sized_tableRead ..) (.whenE (sized_upd fun _ => by simp))
@[simp] theorem sized_stepBegin (ctx : Nat) : (stepBegin ctx).Sized :=
  .look fun _ _ => by
    dsimp only
    split
    · exact .skip
    · exact .ite .skip <| .andThen (sized_upd fun _ => by simp) <| .ite (sized_stepError ..) <|
        sized_walkerRead fun _ => .ite (sized_stepError ..) <| .andThen (sized_physWrite ..) <|
          .andThen (sized_physWrite ..) (sized_upd fun _ => by simp)
@[simp] theorem sized_busy (ctx i : Nat) : (busy ctx i).Sized := sized_upd fun _ => by simp
@[simp] theorem sized_launchNode {ctx i lblk : Nat} {risk : Bool} {k : Eff} (hk : k.Sized) :
    (launchNode ctx i lblk risk k).Sized :=
  sized_walkerRead fun _ => .look fun _ _ => by
    split
    · exact .andThen (sized_acceptE ..) (.look fun _ _ => .whenE (sized_addRun fun _ => hk))
    · exact .andThen (sized_acceptE ..) (sized_stepError ..)
    · exact .andThen (sized_acceptE ..) (sized_stepError ..)
    · exact .skip
@[simp] theorem sized_atBusy {ctx i kind : Nat} {act : Node → List Byte → Eff} (h : ∀ n b, (act n b).Sized) :
    (atBusy ctx i kind act).Sized :=
  .look fun _ _ => .withE fun _ => .ite .skip (by split; exacts [sized_stepError .., .ite (h _ _) .skip])
@[simp] theorem sized_signalEvent (ctx i : Nat) (b : List Byte) : (signalEvent ctx i b).Sized :=
  .look fun _ _ => .ite (sized_resolve ..) (.ite (.andThen (sized_ctxEvent ..) (sized_resolve ..)) .skip)
@[simp] theorem sized_vaultFlush (v : Nat) : (vaultFlush v).Sized :=
  .look fun _ _ => .andThen (.forE fun _ => sized_flushLine ..) (sized_upd fun _ => by simp)
@[simp] theorem sized_memoryBist (c : Nat) : (memoryBist c).Sized :=
  .look fun _ _ => .cons (sized_vaultFlush _) <| .cons (.forE fun _ => sized_eccRecord ..) <|
    .cons (sized_upd fun _ => by simp [unmark]) .nil
@[simp] theorem sized_testStart (c kinds : Nat) (asked : Bool) : (testStart c kinds asked).Sized :=
  .andThen (.whenE (sized_memoryBist ..)) (sized_upd fun _ => by simp)
@[simp] theorem sized_testServe (q : Nat) : (testServe q).Sized :=
  .look fun _ _ => .withE fun _ => .whenE (sized_testStart ..)
@[simp] theorem sized_testAnswer : testAnswer.Sized :=
  .look fun _ _ => .andThen (.forE fun _ => .look fun _ _ => sized_physWrite ..) (sized_upd fun _ => by simp)
@[simp] theorem sized_testRequest (ctx i : Nat) (b : List Byte) : (testRequest ctx i b).Sized :=
  .look fun _ _ => .ite .skip <| .cons (sized_physWrite ..) <| .cons (sized_physWrite ..) <|
    .cons (sized_upd fun _ => by simp) (.cons (.forE fun _ => sized_testServe ..) (.cons sized_testAnswer .nil))
@[simp] theorem sized_stepComplete (ctx : Nat) : (stepComplete ctx).Sized :=
  .look fun _ _ => .withE fun _ => .ite .skip <|
    .andThen (.ite .skip (.ite (sized_upd fun _ => by simp) (sized_walkerWrite (sized_upd fun _ => by simp)))) <|
      .look fun _ _ => .ite .skip (.andThen (.whenE (sized_ctxEvent ..)) (sized_upd fun _ => by simp))

/-! ## Admission -/

@[simp] theorem Dev.sized_modServer (d : Dev) (kind inst slot : Nat) (g : Server → Server) :
    (Dev.modServer d kind inst slot g).Sized ↔ d.Sized := by simp [Dev.modServer]
@[simp] theorem Dev.sized_srvAnswer (r : TRef) (status : Nat) (d : Dev) : (srvAnswer r status d).Sized ↔ d.Sized := by
  simp [srvAnswer]
theorem sized_srvCmd {r : TRef} {cmd : Nat} {k : SrvRegs → Nat → Nat → Nat → Dev → Dev}
    (hk : ∀ v kind inst slot d, (k v kind inst slot d).Sized ↔ d.Sized) : (srvCmd r cmd k).Sized :=
  .look fun _ _ => .withE fun _ => .ite .skip <| .ite (sized_upd fun _ => by simp) (sized_upd fun _ => hk ..)
@[simp] theorem sized_srvAdmit (r : TRef) : (srvAdmit r).Sized := sized_srvCmd fun _ _ _ _ _ => by simp
@[simp] theorem sized_srvRelease (r : TRef) : (srvRelease r).Sized := sized_srvCmd fun _ _ _ _ _ => by split <;> simp
@[simp] theorem sized_srvUpdate (r : TRef) : (srvUpdate r).Sized :=
  sized_srvCmd fun _ _ _ _ _ => by dsimp only; split <;> simp
@[simp] theorem Dev.sized_hopSend (ctx op : Nat) (l : List RouteHop) (d : Dev) :
    (hopSend ctx op l d).Sized ↔ d.Sized := by simp [hopSend]
@[simp] theorem Dev.sized_routeReserve (ctx : Nat) (d : Dev) : (routeReserve ctx d).Sized ↔ d.Sized := by
  simp [routeReserve]
@[simp] theorem Dev.sized_routeRefuse (ctx hop : Nat) (d : Dev) : (routeRefuse ctx hop d).Sized ↔ d.Sized := by
  simp [routeRefuse]
@[simp] theorem Dev.sized_routeSettle (ctx : Nat) (d : Dev) : (routeSettle ctx d).Sized ↔ d.Sized := by
  unfold routeSettle; dsimp only; split <;> simp
@[simp] theorem Dev.sized_routeHear (ctx : Nat) (hops : List Bool) (d : Dev) :
    (routeHear ctx hops d).Sized ↔ d.Sized := by simp [routeHear]
theorem Dev.sized_routeTake (s : State) (ctx : Nat) (x : Dev × List RouteHop) (h : Hop) :
    (routeTake s ctx x h).1.Sized ↔ x.1.Sized := by
  unfold routeTake
  dsimp only
  repeat' split
  case h_1 ht => exact Dev.sized_takeHop ht
  all_goals rfl
@[simp] theorem Dev.sized_routeTakes (s : State) (ctx : Nat) (hs : List Hop) (x : Dev × List RouteHop) :
    (hs.foldl (routeTake s ctx) x).1.Sized ↔ x.1.Sized := by
  induction hs generalizing x with
  | nil => rfl
  | cons h hs ih => exact (ih _).trans (Dev.sized_routeTake s ctx x h)
@[simp] theorem sized_routeBegin (ctx : Nat) (hs : List Hop) : (routeBegin ctx hs).Sized :=
  .look fun _ h => .upd fun _ _ => by simpa using h
@[simp] theorem sized_routeadm (ctx : Nat) (hops : List Bool) : (routeadm ctx hops).Sized :=
  .look fun _ _ => .withE fun _ => .ite .skip <| .ite (sized_upd fun _ => by simp) <|
    sized_withRead (fun _ _ => sized_upd fun _ => by simp) fun _ => .ite (sized_upd fun _ => by simp) <|
      sized_withRead (fun _ _ => sized_upd fun _ => by simp) fun _ => .look fun _ _ =>
        .andThen (.forE fun _ => sized_tableRead ..) <| .ite .skip <| .andThen (sized_routeBegin ..) <|
          sized_upd fun _ => by simp
@[simp] theorem sized_beginDrain (k : Nat) (urgent force : Bool) : (beginDrain k urgent force).Sized :=
  .look fun _ _ => by
    split
    · exact .andThen (sized_upd fun _ => by simp) (sized_setCState ..)
    · exact .whenE (.andThen (sized_upd fun _ => by simp) (sized_setCState ..))
    · exact .whenE (sized_upd fun _ => by simp)
    · exact .skip
@[simp] theorem sized_boundWrite (kind inst val : Nat) : (boundWrite kind inst val).Sized :=
  .look fun _ _ => .ite .skip (.andThen (sized_upd fun _ => by simp) (.whenE (.forE fun _ => sized_beginDrain ..)))

/-! ## Commands to a context -/

@[simp] theorem sized_cmdPreempt (k : Nat) : (cmdPreempt k).Sized := .look fun _ _ => .whenE (sized_beginDrain ..)
@[simp] theorem sized_cmdSave (k : Nat) : (cmdSave k).Sized := by simp [cmdSave]
@[simp] theorem sized_cmdResume (k : Nat) : (cmdResume k).Sized :=
  .look fun _ _ => .ite .skip <| by split; exacts [sized_setCState .., sized_setCState .., .skip]
@[simp] theorem sized_cmdSkip (k : Nat) : (cmdSkip k).Sized := .look fun _ _ => .ite .skip (sized_upd fun _ => by simp)
@[simp] theorem Dev.sized_replayNow (k fid : Nat) (d : Dev) : (replayNow k fid d).Sized ↔ d.Sized := by simp [replayNow]
@[simp] theorem sized_cmdReplay (k fid : Nat) : (cmdReplay k fid).Sized := sized_upd fun _ => by simp
@[simp] theorem Dev.sized_cmdEnds (k code : Nat) (d : Dev) : (cmdEnds k code d).Sized ↔ d.Sized := by simp [cmdEnds]
@[simp] theorem sized_cmdInvtlb (k : Nat) : (cmdInvtlb k).Sized := sized_upd fun _ => by simp
@[simp] theorem sized_cmdFlushic (k : Nat) : (cmdFlushic k).Sized := sized_upd fun _ => by simp
@[simp] theorem sized_ctxCmd (f : Fn) (k val : Nat) : (ctxCmd f k val).Sized :=
  .look fun _ _ => .ite .skip <| by
    split
    · exact sized_cmdPreempt ..
    · exact sized_cmdSave ..
    · exact sized_cmdResume ..
    · exact sized_cmdSkip ..
    · exact sized_cmdReplay ..
    · exact sized_cmdInvtlb ..
    · exact sized_cmdFlushic ..
    · exact .skip
@[simp] theorem sized_drainLimit (k : Nat) : (drainLimit k).Sized :=
  .look fun _ _ => .ite .skip <|
    .cons (.forE fun _ => .look fun _ _ => .withE fun _ => .ite .skip (sized_abortFlock ..)) <|
      .cons (.look fun _ _ => .ite (sized_setCState ..) .skip) .nil
@[simp] theorem sized_saveOne (f : Flock) : (saveOne f).Sized := by
  unfold saveOne
  refine .look fun _ _ => ?_
  extract_lets mine core metas x moves marks
  cases marks.find? (·.2) with
  | some m => exact sized_eccStop ..
  | none =>
    exact .cons (.forE fun _ => sized_eccRecord ..) <| .cons (sized_upd fun _ => by simp) <| .cons (.wr _) <|
      .cons (sized_discard _) <| .cons (sized_upd fun _ => by simp) <| .cons (.whenE (sized_physWrite ..)) <|
        .cons (sized_physWrite ..) .nil
@[simp] theorem sized_flockSave (core slot : Nat) : (flockSave core slot).Sized :=
  .look fun _ _ => .withE fun _ => .ite .skip <| .andThen (.forE fun _ => .look fun _ _ => .whenE (sized_saveOne ..)) <|
    sized_fwdFlush
@[simp] theorem sized_flrEnd (v : Nat) : (flrEnd v).Sized :=
  .look fun _ _ => .ite .skip (.forE fun _ => .look fun _ _ => .cons (.wr _) (.cons (sized_upd fun _ => by simp) .nil))
@[simp] theorem sized_contextStopped (k : Nat) : (contextStopped k).Sized :=
  .look fun _ _ => .ite .skip <| .cons (sized_setCState ..) <| .cons (sized_upd fun _ => by simp) <|
    .cons (.whenE (sized_ctxEvent ..)) (.cons (sized_ctxEvent ..) (.cons (sized_flrEnd ..) .nil))
@[simp] theorem Dev.sized_putBack (core slot : Nat) (dest : Nat × Nat → Nat × Nat) (x : SavedFlock) (d : Dev) :
    (putBack core slot dest x d).Sized ↔ d.Sized := by simp [putBack]
@[simp] theorem sized_flockRestore (k : Nat) : (flockRestore k).Sized :=
  .look fun _ _ => .ite .skip <| by
    split
    · exact .andThen (sized_upd fun _ => by simp) (sized_setCState ..)
    · exact .withE fun _ => .andThen (.forE fun _ => .whenE (sized_tableRead ..)) <| .ite .skip <| .cons (.wr _) <|
        .cons (sized_upd fun _ => by simp) (.cons (sized_upd fun _ => by simp) .nil)

/-! ## The governor -/

@[simp] theorem Dev.sized_rampTo (d : Dev) (die p : Nat) : (Dev.rampTo d die p).Sized ↔ d.Sized := by simp [Dev.rampTo]
@[simp] theorem Dev.sized_advance (d : Dev) (die : Nat) : (Dev.advance d die).Sized ↔ d.Sized := by simp [Dev.advance]
@[simp] theorem Dev.sized_capRaise (d : Dev) (die : Nat) : (Dev.capRaise d die).Sized ↔ d.Sized := by
  unfold Dev.capRaise; dsimp only; split <;> simp
@[simp] theorem Dev.sized_setCeil (d : Dev) (die val : Nat) : (Dev.setCeil d die val).Sized ↔ d.Sized := by
  simp [Dev.setCeil]
@[simp] theorem Dev.sized_setValid (d : Dev) (die : Nat) (v : Bool) : (Dev.setValid d die v).Sized ↔ d.Sized := by
  simp [Dev.setValid]
@[simp] theorem Dev.sized_tableWrite (w : TableWrite) (d : Dev) : (tableWrite w d).Sized ↔ d.Sized := by
  cases w <;> simp [tableWrite]
@[simp] theorem Dev.sized_rampDone (die : Nat) (d : Dev) : (rampDone die d).Sized ↔ d.Sized := by
  unfold rampDone; dsimp only; split <;> simp
@[simp] theorem Dev.sized_dividerDone (die : Nat) (d : Dev) : (dividerDone die d).Sized ↔ d.Sized := by
  unfold dividerDone; dsimp only; split <;> simp
@[simp] theorem sized_raiseTimeout (die supply : Nat) : (raiseTimeout die supply).Sized :=
  .look fun _ _ => by
    dsimp only
    split
    · exact .skip
    · exact .ite .skip (.andThen (sized_bankRecord ..) (sized_upd fun _ => by simp))
@[simp] theorem sized_planReads : planReads.Sized := .look fun _ _ => .forE fun _ => sized_tableRead ..
@[simp] theorem sized_raiseRisk (ps : List Plan) (risks : List (Nat × Nat × Int)) (k : Nat) :
    (raiseRisk ps risks k).Sized :=
  .look fun _ _ => .withE fun _ => .ite .skip (.andThen (sized_upd fun _ => by simp) (sized_ctxEvent ..))
@[simp] theorem sized_riskLaunch (k : Nat) : (riskLaunch k).Sized :=
  .look fun _ _ => .withE fun _ => .ite .skip <| sized_walkerRead fun _ => .ite .skip <| sized_launchNode <|
    sized_upd fun _ => by simp
@[simp] theorem Dev.sized_riskBits (d : Dev) : (riskBits d).Sized ↔ d.Sized := by simp [riskBits]
@[simp] theorem Dev.sized_riskClear (d : Dev) : (riskClear d).Sized ↔ d.Sized := by simp [riskClear]
@[simp] theorem Dev.sized_evalDie (ps : List Plan) (die : Nat) (d : Dev) : (evalDie ps die d).1.Sized ↔ d.Sized := by
  unfold evalDie; dsimp only; split <;> simp
theorem Dev.sized_evalDies (ps : List Plan) (l : List Nat) (x : Dev × List (Nat × Nat × Int)) :
    (l.foldl (fun (acc : Dev × List (Nat × Nat × Int)) die =>
      let (d, l) := evalDie ps die acc.1
      (d, acc.2 ++ l.map (fun r => (r.1, die, r.2)))) x).1.Sized ↔ x.1.Sized := by
  induction l generalizing x with
  | nil => rfl
  | cons die l ih => exact (ih _).trans (Dev.sized_evalDie ps die x.1)
@[simp] theorem sized_governorEval : governorEval.Sized :=
  .look fun _ _ => .ite .skip <| .ite (sized_upd fun _ => by simp) <| .andThen sized_planReads <| .look fun s hs => by
    have he := (Dev.sized_evalDies s.plans (List.range 4) (s.dev, [])).2 hs
    exact .cons (.upd fun _ _ => he) <| .cons (.forE fun _ => sized_raiseRisk ..) <|
      .cons (sized_upd fun _ => by simp) (.cons (.forE fun _ => sized_riskLaunch _) .nil)
@[simp] theorem Dev.sized_droopAlarm (cluster supply : Nat) (d : Dev) :
    (droopAlarm cluster supply d).Sized ↔ d.Sized := by simp [droopAlarm]

/-! ## Power and temperature -/

@[simp] theorem sized_thermalMark (sensor reading : Nat) : (thermalMark sensor reading).Sized :=
  .look fun _ _ => .ite .skip (.andThen (sized_upd fun _ => by simp) (.whenE (sized_devEvent ..)))
@[simp] theorem Dev.sized_warnStep (die : Nat) (d : Dev) : (warnStep die d).Sized ↔ d.Sized := by simp [warnStep]
@[simp] theorem Dev.sized_powerMeasure (watts : Nat) (d : Dev) : (powerMeasure watts d).Sized ↔ d.Sized := by
  unfold powerMeasure; dsimp only; repeat' split
  all_goals simp
@[simp] theorem Dev.sized_powerLimit (watts : Nat) (d : Dev) : (powerLimit watts d).Sized ↔ d.Sized := by
  simp [powerLimit]
@[simp] theorem Dev.sized_heartbeat (d : Dev) : (heartbeat d).Sized ↔ d.Sized := by simp [heartbeat]
@[simp] theorem Dev.sized_allInvalid (d : Dev) : (allInvalid d).Sized ↔ d.Sized := by simp [allInvalid]
@[simp] theorem sized_watchdog : watchdog.Sized :=
  .look fun _ _ => .ite .skip <| .cons (sized_upd fun _ => by simp) <| .cons (sized_bankRecord ..) <|
    .cons (.whenE (sized_postEvent ..)) .nil
@[simp] theorem sized_critEnter (sensor : Nat) : (critEnter sensor).Sized :=
  .look fun _ _ => .ite .skip <| .cons (sized_bankRecord ..) <| .cons (sized_upd fun _ => by simp) <|
    .cons (.forE fun _ => sized_beginDrain ..) .nil
@[simp] theorem sized_critSaveLimit : critSaveLimit.Sized :=
  .look fun _ _ => by
    split
    · exact .skip
    · exact .ite .skip (.forE fun _ => sized_contained ..)
@[simp] theorem Dev.sized_allChannels (f : PseudoChan → PseudoChan) (d : Dev) : (allChannels f d).Sized ↔ d.Sized := by
  simp [allChannels]
@[simp] theorem Dev.sized_computeOff (d : Dev) : (computeOff d).Sized ↔ d.Sized := by simp [computeOff]
@[simp] theorem sized_railsOff : railsOff.Sized := .look fun _ _ => .ite .skip (sized_upd fun _ => by simp)
@[simp] theorem sized_testFailed (cluster : Nat) (logic : Bool) : (testFailed cluster logic).Sized :=
  .look fun _ _ => .cons (sized_bankRecord ..) <| .cons (sized_postEvent ..) <|
    .cons (.forE fun _ => sized_boundWrite ..) .nil
@[simp] theorem sized_critRecover (failed : Nat) : (critRecover failed).Sized :=
  .look fun _ _ => .ite .skip <| .cons (sized_upd fun _ => by simp) <| .cons (.forE fun _ => sized_vaultFlush ..) <|
    .cons (.forE fun _ => sized_testFailed ..) <| .cons (.forE fun _ => sized_testFailed ..) <|
      .cons (sized_upd fun _ => by simp) .nil
@[simp] theorem sized_losePower : losePower.Sized :=
  .look fun _ _ => .cons (.wr _) (.cons (.wr _) (.cons (sized_upd fun _ => by simp) .nil))
@[simp] theorem sized_thermalTrip (sensor : Nat) : (thermalTrip sensor).Sized :=
  .look fun _ _ => .ite .skip (.cons (sized_fatal ..) (.cons sized_losePower (.cons (sized_upd fun _ => by simp) .nil)))

/-! ## Repair, self-test and moves -/

@[simp] theorem sized_containedEvent (k : Nat) : (containedEvent k).Sized :=
  .look fun _ _ => .withE fun _ => .ite .skip (.andThen (sized_upd fun _ => by simp) (sized_postEvent ..))
@[simp] theorem Dev.sized_clearBank (bank : Nat) (d : Dev) : (clearBank bank d).Sized ↔ d.Sized := by simp [clearBank]
@[simp] theorem sized_patrolScrub (g : Granule) : (patrolScrub g).Sized :=
  .look fun _ _ => .ite .skip <| .forE fun _ => by
    split
    · exact .ite (sized_eccRecord ..) (.andThen (sized_eccRecord ..) (sized_upd fun _ => by simp))
@[simp] theorem sized_idleTest (q : Nat) : (idleTest q).Sized :=
  .look fun _ _ => .ite (.whenE (sized_testServe ..)) (.ite (sized_testStart ..) .skip)
@[simp] theorem Dev.sized_abandonTest (q : Nat) (d : Dev) : (abandonTest q d).Sized ↔ d.Sized := by
  unfold abandonTest; split <;> simp
@[simp] theorem Dev.sized_testPost (q : Nat) (failed : Bool) (d : Dev) : (testPost q failed d).Sized ↔ d.Sized := by
  simp [testPost]
@[simp] theorem sized_testEnd (q : Nat) (logicFail memFail : Bool) : (testEnd q logicFail memFail).Sized :=
  .look fun _ _ => .withE fun _ => .ite .skip <| .cons (.whenE (sized_testFailed ..)) <|
    .cons (.whenE (sized_testFailed ..)) <| .cons (sized_upd fun _ => by simp) <|
      .cons (.whenE (sized_upd fun _ => by simp)) (.cons sized_testAnswer .nil)
@[simp] theorem sized_splitChange (v : Nat) : (splitChange v).Sized :=
  .look fun _ _ => by
    dsimp only
    split
    · exact .skip
    · exact .andThen
        (.ite .skip <| .cons (sized_vaultFlush ..) <| .cons (sized_upd fun _ => by simp) <|
          .cons (.whenE (.andThen (.wr _) (sized_upd fun _ => by simp))) .nil)
        (sized_upd fun _ => by simp)
@[simp] theorem Dev.sized_moveRefuse (d : Dev) : (moveRefuse d).Sized ↔ d.Sized := by simp [moveRefuse]
@[simp] theorem Dev.sized_moveStart (val : Nat) (d : Dev) : (moveStart val d).Sized ↔ d.Sized := by simp [moveStart]
@[simp] theorem sized_rekey : rekey.Sized :=
  .andThen (sized_upd fun _ => by simp) <| .look fun _ _ => .andThen (sized_upd fun _ => by simp) <| .forE fun _ =>
    .look fun _ _ => .ite (.whenE (sized_upd fun _ => by simp)) (sized_upd fun _ => by simp)
@[simp] theorem sized_copyLine (src dst ln : Nat) : (copyLine src dst ln).Sized := by
  refine .look fun _ _ => .cons (.forE fun _ => ?_) <| .cons (sized_upd fun _ => by simp) <| .cons (.wr _) <|
      .cons (sized_upd fun _ => by simp) <|
        .cons (.whenE (.andThen (sized_upd fun _ => by simp) (sized_eccRecord ..))) .nil
  split
  · exact .andThen (sized_eccRecord ..) (sized_upd fun _ => by simp)
@[simp] theorem sized_movePage : movePage.Sized :=
  .look fun _ _ => .ite .skip <| .cons (.forE fun _ => sized_flushLine ..) <|
    .cons (.forE fun _ => sized_copyLine ..) (.cons (sized_upd fun _ => by simp) (.cons sized_rekey .nil))
@[simp] theorem sized_moveEnd : moveEnd.Sized :=
  .look fun _ _ => .ite (sized_upd fun _ => by simp) (.andThen (sized_upd fun _ => by simp) (sized_devEvent ..))
@[simp] theorem sized_moveCmd (val : Nat) : (moveCmd val).Sized :=
  .ite (sized_upd fun _ => by simp) (.ite sized_moveEnd .skip)

/-! ## The host -/

@[simp] theorem sized_pageWrite (f : Fn) (k : Nat) (w : RegWrite) : (pageWrite f k w).Sized :=
  .look fun _ _ => .ite .skip (.ite (sized_sqTail ..) (.ite (sized_ctxCmd ..) (sized_upd fun _ => by simp)))
@[simp] theorem sized_startEvent : startEvent.Sized :=
  .look fun _ _ => .ite (.andThen (sized_upd fun _ => by simp) (sized_devEvent ..)) .skip
@[simp] theorem sized_eqBase (f : Fn) (val : Nat) : (eqBase f val).Sized :=
  .look fun _ _ => .ite .skip (.andThen (sized_upd fun _ => by simp) sized_deliverAll)
@[simp] theorem sized_eqLog (f : Fn) (val : Nat) : (eqLog f val).Sized :=
  .look fun _ _ => .ite .skip (.andThen (sized_upd fun _ => by simp) (.andThen sized_deliverAll sized_startEvent))
@[simp] theorem sized_eqHead (f : Fn) (val : Nat) : (eqHead f val).Sized :=
  .look fun _ _ => .ite .skip (.andThen (sized_upd fun _ => by simp) sized_deliverAll)
@[simp] theorem sized_queueWrite (f : Fn) (w : RegWrite) : (queueWrite f w).Sized :=
  .look fun _ _ => .cons (.whenE (sized_eqBase ..)) <| .cons (.whenE (sized_eqLog ..)) <|
    .cons (.whenE (sized_eqHead ..)) .nil
@[simp] theorem Dev.sized_slownWrite (d : Dev) (x : Nat × Nat) : (slownWrite d x).Sized ↔ d.Sized := by simp [slownWrite]
@[simp] theorem Dev.sized_routeWrite (w : RegWrite) (d : Dev) : (routeWrite w d).Sized ↔ d.Sized := by simp [routeWrite]
@[simp] theorem Dev.sized_bankWrite (w : RegWrite) (d : Dev) : (bankWrite w d).Sized ↔ d.Sized := by simp [bankWrite]
theorem Dev.sized_devRegs {r : RegDef Dev} (h : r ∈ devRegs) (n : Nat) (d : Dev) : (r.set n d).Sized ↔ d.Sized := by
  simp only [devRegs, List.mem_append, List.mem_map, List.mem_cons, List.not_mem_nil, or_false] at h
  rcases h with (⟨v, -, rfl⟩ | rfl | rfl) | ⟨k, -, rfl⟩ <;> simp
@[simp] theorem Dev.sized_applyRegs (w : RegWrite) (d : Dev) : (applyRegs devRegs w d).Sized ↔ d.Sized := by
  unfold applyRegs
  suffices h : ∀ rs ⊆ devRegs, ∀ d, (rs.foldl (fun x (r : RegDef Dev) =>
      if w.hits r.at_ r.n then r.set (w.over r.at_ r.n (r.get x)) x else x) d).Sized ↔ d.Sized from
    h _ (List.Subset.refl _) d
  intro rs hrs
  induction rs with
  | nil => exact fun _ => Iff.rfl
  | cons r rs ih =>
    intro d
    refine (ih (List.subset_of_cons_subset hrs) _).trans ?_
    dsimp only
    split
    · exact Dev.sized_devRegs (hrs (List.mem_cons_self ..)) _ d
    · rfl
@[simp] theorem sized_devWrite (w : RegWrite) : (devWrite w).Sized :=
  .look fun _ _ => .ite .skip (.andThen (sized_upd fun _ => by simp) (.whenE (sized_moveCmd ..)))
@[simp] theorem sized_mbDone (err : Nat) : (mbDone err).Sized :=
  .andThen (sized_upd fun _ => by simp) (.look fun _ _ => sized_devEvent ..)
@[simp] theorem sized_mbCommand (cmd : Nat) : (mbCommand cmd).Sized :=
  .look fun _ _ => .ite .skip <| .ite (sized_upd fun _ => by simp) <| .ite (sized_mbDone ..) <|
    .ite (sized_mbDone ..) <| .ite (.andThen (sized_upd fun _ => by simp) (sized_upd fun _ => by simp)) <|
      sized_upd fun _ => by simp
@[simp] theorem sized_mbWrite (w : RegWrite) : (mbWrite w).Sized :=
  .andThen (sized_upd fun _ => by simp) (.whenE (sized_mbCommand ..))
@[simp] theorem sized_msiWrite (f : Fn) (w : RegWrite) : (msiWrite f w).Sized :=
  .look fun _ _ => .whenE (sized_upd fun _ => by simp)
@[simp] theorem sized_registerWrite (f : Fn) (off width val : Nat) : (registerWrite f off width val).Sized :=
  .look fun _ _ => .ite .skip <| .ite (sized_pageWrite ..) <| .ite (sized_queueWrite ..) <|
    .ite (.whenE (sized_msiWrite ..)) <| by split; exacts [.skip, .ite (sized_mbWrite ..) (sized_devWrite ..)]
@[simp] theorem sized_hostWindow (f : Fn) (off : Nat) (data : Option (List Byte)) (n : Nat) :
    (hostWindow f off data n).Sized :=
  .look fun _ _ => .ite .skip <| .ite (.whenE (sized_upd fun _ => by simp)) <|
    .andThen (.whenE (sized_upd fun _ => by simp)) <| .forE fun _ => .look fun _ _ => .ite .skip <| by
      split
      · exact .andThen (sized_eccWrite ..) (sized_lineWrite ..)
      · split
        · exact .andThen (sized_eccRead ..) (.ite .skip (sized_sliceReadE ..))

/-! ## Starts and the mailbox -/

theorem Dev.sized_reset : Dev.reset.Sized := by simp only [Dev.reset, Dev.sized_mk, List.length_replicate, and_self]
theorem Dev.sized_warmDev {d : Dev} (h : d.Sized) : (warmDev d).Sized := by
  obtain ⟨-, h2, -, h4, h5, -, -, h8, -⟩ := h
  obtain ⟨r1, -, r3, -, -, r6, r7, -, r9⟩ := Dev.sized_reset
  simp [warmDev, h2, h4, h5, h8, r1, r3, r6, r7, r9]
@[simp] theorem sized_warmStart : warmStart.Sized :=
  .cons (.look fun _ _ => .forE fun _ => .forE fun _ => sized_flushLine _) <| .cons sized_abandonMove <|
    .cons (.look fun _ _ => .wr _) (.cons (.upd fun _ h => by simpa using Dev.sized_warmDev h) .nil)
theorem Dev.sized_coldDev {d : Dev} {stage : Nat} (h : d.Sized) : (coldDev d stage).Sized := by
  obtain ⟨-, -, -, -, h5, -, -, -, -⟩ := h
  obtain ⟨r1, r2, r3, r4, -, r6, r7, r8, r9⟩ := Dev.sized_reset
  simp [coldDev, h5, r1, r2, r3, r4, r6, r7, r8, r9]
/-- Power-off as RESET commands it: the banks' records stay. -/
theorem Dev.sized_coldReset {d : Dev} {mbox : Mailbox} {move : Move} {mgmt : Mgmt} (h : d.Sized) :
    ({ coldDev d 1 with banks := d.banks, mbox := mbox, move := move, mgmt := mgmt } : Dev).Sized := by
  obtain ⟨h1, h2, h3, h4, h5, h6, h7, -, h9⟩ := Dev.sized_coldDev (stage := 1) h
  obtain ⟨-, -, -, -, -, -, -, h8, -⟩ := h
  exact ⟨h1, h2, h3, h4, h5, h6, h7, h8, h9⟩
@[simp] theorem Dev.sized_trainStacks (bad : Nat) (d : Dev) : (trainStacks bad d).Sized ↔ d.Sized := by simp [trainStacks]
@[simp] theorem sized_startStage (follows : Bool) (failed : Nat) : (startStage follows failed).Sized := by
  refine .look fun _ _ => .ite .skip ?_
  split
  · exact sized_upd fun _ => by simp
  · exact .ite (sized_upd fun _ => by simp) <| .andThen (sized_upd fun _ => by simp) <| .look fun _ _ => .ite .skip <|
        .andThen (.forE fun _ => .andThen (sized_bankRecord ..) (sized_postEvent ..)) (sized_upd fun _ => by simp)
  · exact .cons (.forE fun _ => sized_vaultFlush ..) <| .cons (.forE fun _ => sized_testFailed ..) <|
        .cons (.forE fun _ => sized_testFailed ..) (.cons (sized_upd fun _ => by simp) .nil)
  · refine .cons (sized_upd fun _ => by simp) (.cons ?_ (.cons sized_deliverAll (.cons sized_startEvent .nil)))
    split
    · exact .andThen (sized_devEvent ..) (sized_upd fun _ => by simp)
    · exact .skip
@[simp] theorem sized_mbRun {cmd : Nat} {e : Eff} (h : e.Sized) : (mbRun cmd e).Sized := .look fun _ _ => .ite h .skip
@[simp] theorem Dev.sized_mbAnswer (bs : List Byte) (d : Dev) : (mbAnswer bs d).Sized ↔ d.Sized := by simp [mbAnswer]
@[simp] theorem sized_vfFlr (v : Nat) : (vfFlr v).Sized :=
  .look fun _ _ => .ite .skip <| .cons (sized_upd fun _ => by simp) <| .cons (.forE fun _ => sized_beginDrain ..) <|
    .cons (sized_flrEnd ..) .nil

/-! ## Ticks -/

@[simp] theorem Dev.sized_prune (d : Dev) : (Dev.prune d).Sized ↔ d.Sized := by simp [Dev.prune]
theorem Dev.sized_tick1 {d : Dev} (h : d.Sized) : d.tick1.Sized := by simp [Dev.tick1, Dev.clusterEdges, h]
@[simp] theorem Dev.sized_glide (d : Dev) (n : Nat) : (Dev.glide d n).Sized ↔ d.Sized := by simp [Dev.glide]
theorem Dev.sized_ticks {n : Nat} {d : Dev} (h : d.Sized) : (d.ticks n).Sized := by
  induction n generalizing d with
  | zero => exact h
  | succ n ih =>
    unfold Dev.ticks
    split
    · exact (Dev.sized_glide ..).2 h
    · exact ih (Dev.sized_tick1 h)

/-! ## The order of acts -/

@[simp] theorem Dev.sized_keepRanks (rs : List Ranked) (d : Dev) : (keepRanks rs d).Sized ↔ d.Sized := by simp [keepRanks]

/-! ## Faults and turns around instructions -/

@[simp] theorem sized_accessTurn (core slot : Nat) : (accessTurn core slot).Sized :=
  .andThen (sized_settle ..) (.look fun _ _ => .withE fun _ => .withE fun _ => .ite .skip (sized_upd fun _ => by simp))
@[simp] theorem sized_warmE (core pa : Nat) : (warmE core pa).Sized :=
  .look fun _ _ => .ite .skip (sized_upd fun _ => by simp)
@[simp] theorem sized_residue (core : Nat) (ctx code : Nat) (pc : W64) (again : Bool) :
    (residue core ctx code pc again).Sized :=
  .look fun _ _ => .andThen (.ite (sized_contained ..) (sized_bankRecord ..)) (sized_upd fun _ => by simp)
@[simp] theorem sized_lostRequest (ctx : Option Nat) (bank code : Nat) : (lostRequest ctx bank code).Sized := by
  unfold lostRequest
  split; exacts [sized_contained .., sized_containedNone ..]
@[simp] theorem sized_upsetE (u : Upset) : (upsetE u).Sized :=
  .look fun _ _ => by
    split
    · exact .whenE (sized_upd fun _ => by simp)
    · exact .withE fun _ => .withE fun _ => sized_residue ..
    · exact .withE fun _ => sized_residue ..
    · exact .withE fun _ => .withE fun _ => sized_bankRecord ..
    · exact .ite .skip (.ite (sized_bankRecord ..) (.ite (sized_fatal ..) (sized_lostRequest ..)))
    · exact .ite .skip (.ite (sized_fatal ..) (sized_bankRecord ..))
    · exact .ite .skip (sized_bankRecord ..)
    · exact .ite .skip (.ite (sized_lostRequest ..) (sized_bankRecord ..))
    · exact .ite .skip (.ite (sized_fatal ..) (sized_bankRecord ..))

end Sys2Proof.Machine
end

section
namespace Sys2Proof.Machine

/-! ## What a step keeps -/

/-- A change keeps the canonical form of memory, of the local stores and of the device. -/
structure KeepsForm (s t : State) : Prop where
  mem : s.MemOk → t.MemOk
  sto : s.StoOk → t.StoOk
  dev : s.dev.Sized → t.dev.Sized

theorem KeepsForm.trans {s t u : State} (h : KeepsForm s t) (k : KeepsForm t u) : KeepsForm s u :=
  ⟨fun x => k.mem (h.mem x), fun x => k.sto (h.sto x), fun x => k.dev (h.dev x)⟩

/-- A change of the device alone. -/
theorem keepsForm_device {s : State} {d : Dev} (h : s.dev.Sized → d.Sized) : KeepsForm s { s with dev := d } :=
  ⟨id, id, h⟩

theorem apply_keepsForm {a : Eff} (ha : a.Sized) (s : State) : KeepsForm s (s.apply (a s)) :=
  ⟨fun h => State.apply_memOk h _, fun h => State.applyWrites_stoOk h _, ha.keeps s⟩

theorem commit_keepsForm {a : Eff} (ha : a.Sized) {s t : State} (h : commit a s = .next t) : KeepsForm s t :=
  ⟨fun x => commit_memOk x h, fun x => commit_stoOk x h, ha.keeps.next h⟩

/-- A word's meaning, issued for each member of its group. -/
theorem word_keepsForm {i : Instr} {major : Nat} {b : Body} (hi : rawOf i = some (major, b)) {s t : State}
    (h : exec i s = .next t) : KeepsForm s t := by
  cases i <;> cases hi <;> exact commit_keepsForm (sized_issue fun v => by simp) h

/-! ### Agents whose act is written out where it is executed -/

theorem multicastRequest_keepsForm {id : Nat} {s t : State} (h : execMulticastRequest id s = .next t) : KeepsForm s t := by
  refine commit_keepsForm (.look fun _ _ => .withE fun _ => ?_) h
  split
  · refine .andThen (sized_mcTick ..) (.look fun _ _ => ?_)
    dsimp only
    split
    · exact .ite (.andThen (sized_upd fun _ => by simp) (sized_mcClose ..)) (sized_upd fun _ => by simp)
    · exact .ite (sized_mcOwn ..) <|
        .ite (.andThen (sized_upd fun _ => by simp) (sized_mcClose ..)) (sized_upd fun _ => by simp)
  · exact .skip

theorem watchRequest_keepsForm {id : Nat} {s t : State} (h : execWatchRequest id s = .next t) : KeepsForm s t := by
  refine commit_keepsForm (.look fun _ _ => .withE fun _ => ?_) h
  split
  · exact .andThen (.whenE (sized_mxFlush ..)) <| sized_checked <| .ite (sized_upd fun _ => by simp) <|
      .ite .skip (sized_upd fun _ => by simp)
  · exact .skip

theorem ctxcmdDone_keepsForm {ctx : Nat} {s t : State} (h : execCtxcmdDone ctx s = .next t) : KeepsForm s t := by
  refine commit_keepsForm (.look fun _ _ => ?_) h
  split
  · exact .skip
  · exact .andThen (sized_upd fun _ => by simp) (sized_ctxEvent ..)

theorem sliceStf_keepsForm {id : Nat} {s t : State} (h : execSliceStf id s = .next t) : KeepsForm s t := by
  refine commit_keepsForm (.look fun _ _ => .withE fun _ => ?_) h
  split
  · exact sized_atSlice (sized_performStore _)
  · exact .skip

theorem waitvNode_keepsForm {ctx node : Nat} {s t : State} (h : execWaitvNode ctx node s = .next t) : KeepsForm s t := by
  refine commit_keepsForm (sized_atNode fun _ _ _ => sized_walkerRead fun _ => .look fun _ _ =>
    .ite (sized_resolve ..) (.andThen (sized_busy ..) ?_)) h
  split
  · exact .ite .skip (sized_upd fun _ => by simp)
  · exact .skip

theorem waitvResolve_keepsForm {ctx node : Nat} {s t : State} (h : execWaitvResolve ctx node s = .next t) :
    KeepsForm s t :=
  commit_keepsForm (sized_atBusy fun _ _ => .ite (.andThen (sized_upd fun _ => by simp) (sized_resolve ..)) <|
    sized_walkerRead fun _ => .ite (.andThen (sized_upd fun _ => by simp) (sized_resolve ..)) .skip) h

theorem signalNode_keepsForm {ctx node : Nat} {s t : State} (h : execSignalNode ctx node s = .next t) : KeepsForm s t :=
  commit_keepsForm (.look fun _ _ => .ite (sized_atBusy fun _ _ => sized_signalEvent ..) <|
    sized_atNode fun _ _ _ => sized_walkerWrite (.andThen (sized_busy ..) (sized_signalEvent ..))) h

theorem testNode_keepsForm {ctx node : Nat} {s t : State} (h : execTestNode ctx node s = .next t) : KeepsForm s t :=
  commit_keepsForm (.look fun _ _ =>
    .ite (sized_atBusy fun _ _ => .ite (.forE fun _ => sized_testServe ..) (sized_testRequest ..)) <|
      sized_atNode fun _ _ _ => .andThen (sized_upd fun _ => by simp) (sized_testRequest ..)) h

theorem reset_keepsForm {s t : State} (h : execReset s = .next t) : KeepsForm s t :=
  commit_keepsForm (sized_mbRun <| .look fun _ _ =>
    .ite (.ite (sized_mbDone ..) <|
      .andThen (.andThen sized_losePower (.upd fun _ => Dev.sized_coldReset)) (sized_mbDone ..)) <|
      .andThen sized_warmStart (sized_mbDone ..)) h

theorem fwdata_keepsForm {s t : State} (h : execFwdata s = .next t) : KeepsForm s t := by
  refine commit_keepsForm (sized_mbRun <| .look fun _ _ => ?_) h
  split
  · exact sized_mbDone ..
  · exact .andThen (sized_upd fun _ => by simp) (sized_mbDone ..)

/-- An agent's act. -/
theorem agent_keepsForm {i : Instr} (hi : rawOf i = none) {s t : State} (h : exec i s = .next t) : KeepsForm s t := by
  cases i <;> try (cases hi; done)
  case issueSlot | barrierWaveRelease | rendezvousFaultTrap | dramRequest | dramRefresh | selfRefreshEntry |
      selfRefreshExit | selfRefreshExitTimeout | pageWalk | copyUnitTransfer | copyqEntryPlace | engineAccept |
      matrixGroupUpdate | smmaMetaPop | accOpProgress | peerTargetRequest | peerResponse | twillFlitReceive |
      twillPortDown | peerStreamTimeout | collComplete | collTimeout | flockPlace | herdPlace | flockComplete |
      flockAbort | abortAllocFree | runAccept | tileEvalPlace | tileOutcome | sqtail | stepBegin | stepComplete |
      srvAdmit | srvRelease | srvUpdate | routeadm | admboundWrite | preempt | save | resume | skip | invtlb |
      flushic | drainLimit | flockSave | contextStopped | flockRestore | governorEval | raiseTimeout | thermalMark |
      critEnter | critSaveLimit | computeRailsOff | critRecover | thermalTrip | watchdogExpire | containedEvent |
      patrolScrub | idleSelftest | clusterTestEnd | splitChange | movePageCopy | eqhead | eqbase |
      hostWindowAccess | registerWrite | startStage | vfFlr | pseudoChannelRetrain | eqlog | replay =>
    exact commit_keepsForm (by simp) h
  case reconvHoldExpire | sleepWake | multicastRecordExpire | voltageRampDone | dividerStep | ceilWrite |
      mgmtTableWrite | droopAlarm | droopStretchEnd | droopResponseEnd | warnCeilStep | powerMeasure |
      powerLimitThrottle | powerLimitRelease | fwHeartbeat | bankClear | selftestAbandon | moveStart | spdmRequest =>
    exact commit_keepsForm (sized_upd fun _ => by simp) h
  case yieldExpire => exact commit_keepsForm (.updT ..) h
  case serverReplenish => exact commit_keepsForm (.look fun _ _ => .upd fun d hd => by simpa using hd) h
  case sliceRead => exact commit_keepsForm (sized_atSlice sized_performLoad) h
  case sliceWrite | sliceZfill => exact commit_keepsForm (sized_atSlice (sized_performStore _)) h
  case sliceAtomic => exact commit_keepsForm (sized_atSlice sized_performAtomic) h
  case runNode => exact commit_keepsForm (sized_atNode fun _ _ _ => sized_launchNode (sized_busy ..)) h
  case condNode => exact commit_keepsForm (sized_atNode fun _ _ _ => sized_walkerRead fun _ => sized_resolve ..) h
  case moveEnd => exact commit_keepsForm (.ite sized_moveEnd .skip) h
  case coldStart => exact commit_keepsForm (.andThen sized_losePower (.upd fun _ => Dev.sized_coldDev)) h
  case info | mcread => exact commit_keepsForm (sized_mbRun <| .andThen (sized_upd fun _ => by simp) (sized_mbDone ..)) h
  case fwbegin | fwend | setdev =>
    exact commit_keepsForm (sized_mbRun <| .look fun _ _ =>
      .ite (sized_mbDone ..) (.andThen (sized_upd fun _ => by simp) (sized_mbDone ..))) h
  case fwdata => exact fwdata_keepsForm h
  case setbound =>
    exact commit_keepsForm (sized_mbRun <| .look fun _ _ =>
      .ite (sized_mbDone ..) (.andThen (sized_boundWrite ..) (sized_mbDone ..))) h
  case selftest =>
    exact commit_keepsForm (sized_mbRun <| .look fun _ _ =>
      .andThen (.forE fun _ => sized_testStart ..) (sized_mbDone ..)) h
  case reset => exact reset_keepsForm h
  case watchWake =>
    exact commit_keepsForm (.look fun _ _ => .withE fun _ => .cons (sized_returnReq ..) (.cons (.updT ..) .nil)) h
  case watchRequest => exact watchRequest_keepsForm h
  case multicastRequest => exact multicastRequest_keepsForm h
  case multicastTimeout => exact commit_keepsForm (.look fun _ _ => .withE fun _ => .ite (sized_mcClose ..) .skip) h
  case routeAdmitTimeout => exact commit_keepsForm (.look fun _ _ => .ite .skip (sized_upd fun _ => by simp)) h
  case ctxcmdDone => exact ctxcmdDone_keepsForm h
  case pfReset => exact commit_keepsForm (.look fun _ _ => .ite .skip sized_warmStart) h
  case pcieLinkDown =>
    exact commit_keepsForm (.look fun _ _ => .ite (.andThen (sized_upd fun _ => by simp) (sized_bankRecord ..)) .skip) h
  case pcieLinkUp => exact commit_keepsForm (.andThen (sized_upd fun _ => by simp) sized_deliverAll) h
  case loadReturn =>
    exact commit_keepsForm (.andThen (sized_performDirect ..) <| .look fun _ _ => .withE fun _ =>
      .ite (sized_returnReq ..) .skip) h
  case storePerformed =>
    exact commit_keepsForm (.andThen (sized_performDirect ..) <| .look fun _ _ => .withE fun _ =>
      .ite (sized_upd fun _ => by simp) .skip) h
  case aliasRead =>
    exact commit_keepsForm (.look fun _ _ => .withE fun _ => .ite (sized_checked (sized_performLoad _)) .skip) h
  case aliasWrite =>
    exact commit_keepsForm (.look fun _ _ => .withE fun _ => .ite (sized_checked (sized_performStore ..)) .skip) h
  case sliceStf => exact sliceStf_keepsForm h
  case loopNode =>
    exact commit_keepsForm (sized_atNode fun _ _ _ => sized_walkerRead fun _ =>
      .ite (.andThen (sized_upd fun _ => by simp) (sized_edge ..)) <|
        .andThen (sized_upd fun _ => by simp) (sized_resolve ..)) h
  case waitvNode => exact waitvNode_keepsForm h
  case waitvResolve => exact waitvResolve_keepsForm h
  case signalNode => exact signalNode_keepsForm h
  case testNode => exact testNode_keepsForm h
  case testResolve =>
    exact commit_keepsForm (sized_atBusy fun _ _ => .look fun _ _ => .ite (sized_resolve ..) .skip) h
  case endNode => exact commit_keepsForm (sized_atNode fun _ _ _ => .andThen (sized_busy ..) (sized_upd fun _ => by simp)) h

theorem exec_keepsForm {i : Instr} {s t : State} (h : exec i s = .next t) : KeepsForm s t := by
  rcases hi : rawOf i with _ | ⟨major, b⟩
  · exact agent_keepsForm hi h
  · exact word_keepsForm hi h

/-! ## Around the instructions -/

theorem passTime_keepsForm (n : Nat) (s : State) : KeepsForm s (passTime n s) := by
  unfold passTime
  split
  · exact ⟨id, id, id⟩
  · exact keepsForm_device fun h => (Dev.sized_pump _).2 (Dev.sized_ticks h)

theorem turnStart_keepsForm (t : Turn) (s : State) : KeepsForm s (turnStart t s) :=
  .trans (keepsForm_device fun h => by simpa using h) (passTime_keepsForm ..)

theorem fetched_keepsForm (g : Group) (s : State) : KeepsForm s (fetched g s) := apply_keepsForm (sized_fetchGroupE g) s

theorem noted_keepsForm (rs : List Ranked) (s : State) : KeepsForm s (noted rs s) :=
  keepsForm_device fun h => by simpa using h

/-- What a word's outcome leaves: a tick has passed, or the word's change is noted. -/
theorem wordOutcome_keepsForm {s t : State} {o : Host.Outcome State Fault Refusal} (ho : ∀ u, o = .next u → KeepsForm s u)
    (h : wordOutcome s o = .next t) : KeepsForm s t := by
  unfold wordOutcome at h
  split at h
  next u =>
    split at h
    · cases h; exact passTime_keepsForm 1 s
    · cases h; exact (ho u rfl).trans (noted_keepsForm ..)
  next hn => exact ho t h

/-- What a turn's outcome leaves: the turn waits, or its change is noted. -/
theorem turnOutcome_keepsForm {r : Turn} {s t : State} {o : Host.Outcome State Fault Refusal}
    (ho : ∀ u, o = .next u → KeepsForm s u) (h : turnOutcome r s o = .next t) : KeepsForm s t := by
  unfold turnOutcome at h
  split at h
  next u =>
    dsimp only at h
    split at h
    · cases h; exact keepsForm_device fun h => by simpa using h
    · cases h; exact (ho u rfl).trans (noted_keepsForm ..)
  next hn => exact ho t h

theorem step_keepsForm {s t : State} (h : step s = .next t) : KeepsForm s t := by
  unfold step at h
  split at h
  next g _ =>
    split at h
    next w lit _ =>
      split at h
      · exact wordOutcome_keepsForm (fun u hu => (fetched_keepsForm g s).trans (exec_keepsForm hu)) h
      · exact wordOutcome_keepsForm (fun u hu => (fetched_keepsForm g s).trans (commit_keepsForm sized_issueIllegal hu)) h
    next x va _ => exact wordOutcome_keepsForm (fun u hu => commit_keepsForm (sized_fetchFail g x va) hu) h
  next =>
    split at h
    · cases h; exact passTime_keepsForm 1 s
    next r _ _ =>
      refine (turnStart_keepsForm r s).trans ?_
      split at h
      · exact turnOutcome_keepsForm (fun u hu => exec_keepsForm hu) h
      · exact turnOutcome_keepsForm (fun u hu => commit_keepsForm (sized_accessTurn ..) hu) h
      · exact turnOutcome_keepsForm (fun u hu => commit_keepsForm (sized_upsetE _) hu) h
      · exact turnOutcome_keepsForm (fun u hu => commit_keepsForm (sized_warmE ..) hu) h
      · exact turnOutcome_keepsForm (fun u hu => commit_keepsForm (.upd fun d hd => by simpa using hd) hu) h
      · exact turnOutcome_keepsForm (fun u hu => commit_keepsForm (.wr _) hu) h

end Sys2Proof.Machine

/-- Settles O59: every operation is put together from parts that keep the form. -/
theorem stepKeepsForm : Obligations.StepKeepsForm := by
  unfold Obligations.StepKeepsForm
  intro s t h
  obtain ⟨hmem, hsto, hdev⟩ := Sys2Proof.Machine.step_keepsForm h
  have hiff := Sys2Proof.Machine.Dev.sized_iff
  exact ⟨hmem, hsto, fun hs => (hiff _).1 (hdev ((hiff _).2 hs))⟩
end

section
/-! SUPPORT. The proof of the statement about reset: parts by number, and each field that the spec gives a value. -/

namespace Sys2Proof.Machine

/-! ## Parts after reset -/

/-- Equal parts read by number are the part, whatever the number. -/
theorem getD_replicate_same {α : Type} (n i : Nat) (a : α) : (List.replicate n a)[i]?.getD a = a := by
  rw [List.getElem?_replicate]; split <;> rfl

theorem Dev.reset_core (n : Nat) : Dev.reset.core n = .reset := getD_replicate_same 256 n _
theorem Dev.reset_cluster (n : Nat) : Dev.reset.cluster n = .reset := getD_replicate_same 64 n _
theorem Dev.reset_vault (n : Nat) : Dev.reset.vault n = .reset := getD_replicate_same 64 n _
theorem Dev.reset_die (n : Nat) : Dev.reset.die n = .reset := getD_replicate_same 4 n _
theorem Dev.reset_stk (n : Nat) : Dev.reset.stk n = .reset := getD_replicate_same 8 n _
theorem Dev.reset_bank (n : Nat) : Dev.reset.bank n = .reset := getD_replicate_same 128 n _

theorem Dev.reset_sizes : Dev.reset.Sizes := (Dev.sized_iff _).1 Dev.sized_reset

/-- R321: no ADMBOUND has been written. -/
theorem Dev.reset_bound {k i : Nat} (hk : k < 5) (hi : i < kindRange k) : Dev.reset.bound k i = 0x00010000 := by
  unfold Dev.bound
  rw [if_pos ⟨hk, hi⟩]
  rfl

end Sys2Proof.Machine

open Sys2Proof Sys2Proof.Machine

/-- Settles O60: parts of a kind are alike after reset, and every other register is a literal of it. -/
theorem reset_values : Obligations.Reset_values := by
  unfold Obligations.Reset_values
  intro d
  have hd : d = .reset := rfl
  refine ⟨State.reset_memOk, State.reset_stoOk, Dev.reset_sizes, fun n => ?_, fun n => ?_, fun n hn => ?_, rfl,
    fun k hk i hi => Dev.reset_bound hk hi, fun n => ?_, rfl, rfl, fun n => ?_, rfl, fun h => ?_, rfl, rfl, rfl, rfl,
    fun n => ?_, rfl⟩
  · rw [hd, Dev.reset_core]; rfl
  · rw [hd, Dev.reset_vault]; rfl
  · exact List.getElem?_replicate_of_lt hn
  · rw [hd, Dev.reset_die]; rfl
  · rw [hd, Dev.reset_cluster]; exact ⟨rfl, rfl⟩
  · rw [hd, Dev.reset_stk]; exact ⟨rfl, rfl⟩
  · rw [hd, Dev.reset_bank]; rfl
end

section
/-! SUPPORT. A member that stands at a word: its thread by reference, a trap that is delivered to it, and what the issue
makes of it where it does not perform the word. -/

namespace Sys2Proof.Machine

/-! ## Threads by reference -/

theorem Flock.modThread_id (f : Flock) (t : Nat) : f.modThread t (fun x => x) = f := by
  unfold Flock.modThread
  split <;> simp

theorem Dev.modThread_id (d : Dev) (r : TRef) : d.modThread r (fun x => x) = d := by
  unfold Dev.modThread Dev.modFlock
  simp [Flock.modThread_id]

/-- A member stands in the flock of its reference, which is not dead, at the group's PC. -/
theorem memberOf_some {s : State} {g : Group} {r : TRef} {f : Flock} {th : Thread} :
    memberOf s g r = some (f, th) ↔ s.dev.flock? r.core r.slot = some f ∧ f.thread? r.t = some th ∧
      th.ended = none ∧ th.pc = g.pc ∧ th.enter = none ∧ f.dead = false := by
  unfold memberOf
  cases hf : s.dev.flock? r.core r.slot with
  | none => simp
  | some f' =>
    cases ht : f'.thread? r.t with
    | none =>
      simp only [Option.bind_some, ht, Option.bind_none, reduceCtorEq, Option.some.injEq, false_iff]
      rintro ⟨rfl, h, -⟩
      simp [ht] at h
    | some th' =>
      simp only [Option.bind_some, ht]
      split
      next h =>
        obtain ⟨h1, h2, h3, h4⟩ := h
        simp only [Option.some.injEq, Prod.mk.injEq]
        constructor
        · rintro ⟨rfl, rfl⟩; exact ⟨rfl, ht, h1, h2, h3, h4⟩
        · rintro ⟨rfl, h, -⟩; exact ⟨rfl, by simpa [ht] using h⟩
      next h =>
        simp only [reduceCtorEq, Option.some.injEq, false_iff]
        rintro ⟨rfl, h', hc⟩
        obtain rfl : th' = th := by simpa [ht] using h'
        exact h hc

theorem Dev.thread?_of_flock {d : Dev} {r : TRef} {f : Flock} {th : Thread} (hf : d.flock? r.core r.slot = some f)
    (ht : f.thread? r.t = some th) : d.thread? r = some th := by
  simp [Dev.thread?, hf, ht]

theorem Flock.thread?_t {f : Flock} {t : Nat} {th : Thread} (ht : t ≠ instId) (h : f.thread? t = some th) : th.t = t := by
  simp only [Flock.thread?, ht, if_false] at h
  simpa using List.find?_some h

/-! ## Traps that are delivered (R398) -/

/-- A trap of an element-mode thread, under no handler and with one set. -/
theorem commit_takeTrap_delivers {s : State} {r : TRef} {f : Flock} {th : Thread} (code sub : Nat) (addr pc : W64)
    (hf : s.dev.flock? r.core r.slot = some f) (ht : f.thread? r.t = some th) (hi : th.intv = false)
    (hn : th.trap.intrap = false) (hv : s.dev.trapVec f.ctx r.t ≠ 0) :
    commit (takeTrap r code sub addr pc) s =
      .next (s.device (fun d => d.modThread r (fun x => x.deliver (s.dev.trapVec f.ctx r.t) (trapCode code sub) addr pc))) := by
  unfold takeTrap
  rw [commit_look]
  simp only [hf, commit_withE_some, ht, hi, hn, hv, or_self, Bool.false_eq_true, if_false, commit_updT]
  rfl

theorem commit_trapHere_delivers {s : State} {r : TRef} {f : Flock} {th : Thread} (code sub : Nat) (addr : W64)
    (hf : s.dev.flock? r.core r.slot = some f) (ht : f.thread? r.t = some th) (hi : th.intv = false)
    (hn : th.trap.intrap = false) (hv : s.dev.trapVec f.ctx r.t ≠ 0) :
    commit (trapHere r code sub addr) s =
      .next (s.device (fun d => d.modThread r (fun x => x.deliver (s.dev.trapVec f.ctx r.t) (trapCode code sub) addr th.pc))) := by
  unfold trapHere
  rw [commit_look, Dev.thread?_of_flock hf ht, commit_withE_some]
  exact commit_takeTrap_delivers code sub addr th.pc hf ht hi hn hv

/-! ## When a member issues without performing (R38) -/

section
variable {v : Env}

theorem Env.ready_of_illegal (h : v.illegal = true) : v.ready = true := by simp [Env.ready, h]

theorem Env.ready_of_blocked (h : v.illegal = false) (hb : v.blocked = true) : v.ready = false := by
  simp [Env.ready, h, hb]

theorem Env.inGroup_of_stands (h : stands v) : v.inGroup = true := by simp [Env.inGroup, h.2.2]

theorem Env.ready_of_skip (h : stands v) (hg : v.guard = .f) : v.ready = true := by
  obtain ⟨hl, hb, hc⟩ := h
  simp [Env.ready, hl, hb, hc, hg]

theorem Env.ready_of_suppressed (h : stands v) (hg : v.guard = .t) (hh : (v.th.helper && suppressed v.major) = true) :
    v.ready = true := by
  obtain ⟨hl, hb, hc⟩ := h
  simp [Env.ready, hl, hb, hc, hg, hh]

theorem Env.ready_of_regBad (h : stands v) (hg : v.guard = .t) (hr : v.regBad.isSome = true) : v.ready = true := by
  obtain ⟨hl, hb, hc⟩ := h
  simp [Env.ready, hl, hb, hc, hg, hr]

end

/-! ## What the issue makes of it -/

/-- The environment in which readiness is judged is that of the issue, but for what other members have changed in their own
threads. -/
def Env.judged (v : Env) : Env := { v with s := v.s0 }

section
variable {m : Meaning} {v : Env}

theorem stepMember_waits (h : (v.judged.ready && v.inGroup) = false) : stepMember m v = skip := by
  unfold Env.judged at h
  simp [stepMember, h]

theorem stepMember_illegal (h : (v.judged.ready && v.inGroup) = true) (hl : v.illegal = true) :
    stepMember m v = trapHere v.r cILLEGAL 0 0 := by
  unfold Env.judged at h
  simp [stepMember, h, hl]

theorem stepMember_skip (h : (v.judged.ready && v.inGroup) = true) (hl : v.illegal = false) (hg : v.guard = .f) :
    stepMember m v = checkDirect v (advance v.r v.words) := by
  unfold Env.judged at h
  simp [stepMember, h, hl, hg]

theorem stepMember_suppress (h : (v.judged.ready && v.inGroup) = true) (hl : v.illegal = false) (hg : v.guard = .t)
    (hh : (v.th.helper && suppressed v.major) = true) : stepMember m v = checkDirect v (suppress v) := by
  unfold Env.judged at h
  simp [stepMember, h, hl, hg, hh]

theorem stepMember_regBad {e : Int} (h : (v.judged.ready && v.inGroup) = true) (hl : v.illegal = false)
    (hg : v.guard = .t) (hh : (v.th.helper && suppressed v.major) = false) (hr : v.regBad = some e) :
    stepMember m v = trapHere v.r cREGBOUND 0 (badAddr e) := by
  unfold Env.judged at h
  simp [stepMember, perform, h, hl, hg, hh, hr]

theorem checkDirect_none {e : Eff} (h : firstDirect v = none) : checkDirect v e = e := by
  unfold firstDirect at h
  simp [checkDirect, h]

theorem checkDirect_some {e : Eff} {i : Int} (h : firstDirect v = some i) :
    checkDirect v e = trapHere v.r cREGBOUND 0 (badAddr i) := by
  unfold firstDirect at h
  simp [checkDirect, h]

end

/-- What the turn of a member at a word has to show, in terms of its environment at the issue. -/
theorem changesOwn_of_turn {m : Meaning} {s : State} {g : Group} {major : Nat} {b : Body} {row : Row} {P : Env → Prop}
    {k : Env → Thread → Thread}
    (h : ∀ (u : Env) fl ths inst, u.s0 = u.s → u.s = s → u.b = b → P u →
      memberOf (u.turn fl ths inst).s g u.r = some ((u.turn fl ths inst).f, u.th) →
      commit (stepMember m (u.turn fl ths inst)) (u.turn fl ths inst).s =
        .next ((u.turn fl ths inst).s.device (fun d => d.modThread u.r (k u)))) :
    ChangesOwn m s g major b row P k := by
  intro v hv hP
  obtain ⟨fl, ths, inst, e⟩ := hv.eq
  have hnow := hv.now
  have hone := h (envAt s g major b row v.r v.f0 v.th) fl ths inst rfl rfl rfl hP
  rw [← e] at hone
  exact hone hnow

/-- A trap of a member at its turn reaches the handler that the issue has found. -/
theorem commit_trapHere_turn {u : Env} {fl : List Flock} {ths : List Thread} {inst : Option Thread} {g : Group}
    (code sub : Nat) (addr : W64) (hi : u.th.intv = false) (hd : u.delivers)
    (hm : memberOf (u.turn fl ths inst).s g u.r = some ((u.turn fl ths inst).f, u.th)) :
    commit (trapHere u.r code sub addr) (u.turn fl ths inst).s =
      .next ((u.turn fl ths inst).s.device (fun d => d.modThread u.r (trapped code sub (fun _ => addr) u))) := by
  obtain ⟨hf, ht, -⟩ := memberOf_some.1 hm
  exact commit_trapHere_delivers (f := (u.turn fl ths inst).f) code sub addr hf ht hi hd.1 hd.2

/-- R38: what awaits a register, or is judged at the issue, is the same at the turn. -/
theorem Env.judged_turn {u : Env} (fl : List Flock) (ths : List Thread) (inst : Option Thread) (h0 : u.s0 = u.s) :
    (stands (u.turn fl ths inst).judged ↔ stands u) ∧ (u.turn fl ths inst).judged.blocked = u.blocked := by
  have e : (u.turn fl ths inst).judged = { u with f := { u.f with threads := ths, inst := inst } } := by
    unfold Env.judged Env.turn
    rw [h0]
  rw [e]
  exact ⟨Iff.rfl, rfl⟩

/-- A member that waits stays as it is. -/
theorem changesOwn_blocked (m : Meaning) (s : State) (g : Group) (major : Nat) (b : Body) (row : Row) :
    ChangesOwn m s g major b row (fun v => v.illegal = false ∧ v.blocked = true) (fun _ x => x) := by
  refine changesOwn_of_turn fun u fl ths inst h0 _ _ hP _ => ?_
  obtain ⟨hl, hb⟩ := hP
  have hready : (u.turn fl ths inst).judged.ready = false :=
    Env.ready_of_blocked hl ((Env.judged_turn fl ths inst h0).2.trans hb)
  rw [stepMember_waits (by rw [hready]; rfl), commit_skip]
  simp only [State.device, Dev.modThread_id]

/-- A member whose engine does not execute the word takes the trap ILLEGAL. -/
theorem changesOwn_illegal (m : Meaning) (s : State) (g : Group) (major : Nat) (b : Body) (row : Row) :
    ChangesOwn m s g major b row (fun v => v.illegal = true ∧ v.inGroup = true ∧ v.th.intv = false ∧ v.delivers)
      (trapped 1 0 (fun _ => 0)) := by
  refine changesOwn_of_turn fun u fl ths inst _ _ _ hP hm => ?_
  obtain ⟨hl, hg, hi, hd⟩ := hP
  have hready : (u.turn fl ths inst).judged.ready = true := Env.ready_of_illegal hl
  rw [stepMember_illegal (v := u.turn fl ths inst) (by rw [hready]; exact hg) hl]
  exact commit_trapHere_turn 1 0 0 hi hd hm

/-- A member that stands and is ready is not held back by the group. -/
theorem Env.turn_goes {u : Env} (fl : List Flock) (ths : List Thread) (inst : Option Thread) (h0 : u.s0 = u.s)
    (hst : stands u) (h : stands (u.turn fl ths inst).judged → (u.turn fl ths inst).judged.ready = true) :
    ((u.turn fl ths inst).judged.ready && (u.turn fl ths inst).inGroup) = true := by
  rw [h ((Env.judged_turn fl ths inst h0).1.2 hst), Bool.true_and]
  exact Env.inGroup_of_stands hst

/-- R109: a guard that is false, the direct fields within bounds. -/
theorem changesOwn_skip (m : Meaning) (s : State) (g : Group) (major : Nat) (b : Body) (row : Row) :
    ChangesOwn m s g major b row (fun v => stands v ∧ v.guard = .f ∧ firstDirect v = none)
      (fun v x => x.issued v.words) := by
  refine changesOwn_of_turn fun u fl ths inst h0 _ _ hP _ => ?_
  obtain ⟨hst, hg, hf⟩ := hP
  rw [stepMember_skip (Env.turn_goes fl ths inst h0 hst fun h => Env.ready_of_skip h hg) hst.1 hg,
    checkDirect_none (v := u.turn fl ths inst) hf]
  exact commit_updT _ _ _

/-- R109: a guard that is false, a direct field out of bounds. -/
theorem changesOwn_skip_regbound (m : Meaning) (s : State) (g : Group) (major : Nat) (b : Body) (row : Row) (e : Int) :
    ChangesOwn m s g major b row
      (fun v => stands v ∧ v.guard = .f ∧ firstDirect v = some e ∧ v.th.intv = false ∧ v.delivers)
      (trapped 4 0 (fun _ => BitVec.ofInt 64 e)) := by
  refine changesOwn_of_turn fun u fl ths inst h0 _ _ hP hm => ?_
  obtain ⟨hst, hg, hf, hi, hd⟩ := hP
  rw [stepMember_skip (Env.turn_goes fl ths inst h0 hst fun h => Env.ready_of_skip h hg) hst.1 hg,
    checkDirect_some (v := u.turn fl ths inst) hf]
  exact commit_trapHere_turn 4 0 _ hi hd hm

/-- R105, R112: an operand of a word that would be performed is out of bounds. -/
theorem changesOwn_regbound (m : Meaning) (s : State) (g : Group) (major : Nat) (b : Body) (row : Row) (e : Int) :
    ChangesOwn m s g major b row
      (fun v => stands v ∧ v.guard = .t ∧ (v.th.helper = false ∨ suppressed v.major = false) ∧ v.regBad = some e ∧
        v.th.intv = false ∧ v.delivers)
      (trapped 4 0 (fun _ => BitVec.ofInt 64 e)) := by
  refine changesOwn_of_turn fun u fl ths inst h0 _ _ hP hm => ?_
  obtain ⟨hst, hg, hh, hr, hi, hd⟩ := hP
  have hgo := Env.turn_goes fl ths inst h0 hst fun h => Env.ready_of_regBad h hg (by
    show u.regBad.isSome = true
    rw [hr]; rfl)
  have hacts : (u.th.helper && suppressed u.major) = false := by rcases hh with h | h <;> simp [h]
  rw [stepMember_regBad hgo hst.1 hg hacts hr]
  exact commit_trapHere_turn 4 0 _ hi hd hm

/-- A word that leaves its thread's registers as they are where `c` holds, and changes them by `k` elsewhere. -/
theorem optional_finish (v : Env) {k : Thread → Thread} (c : Prop) [Decidable c] (hk : ∀ x, (k x).t = x.t) (s : State) :
    commit (Res.finish v (.done (if c then skip else updT v.r k))) s =
      .next (s.device (fun d => d.modThread v.r (fun x => (if c then x else k x).issued v.words))) := by
  by_cases hc : c
  · simp only [hc, if_true]; exact skip_finish v s
  · simp only [hc, if_false]; exact put_finish v k hk s

/-- R48: a suppressed word of a helper. -/
theorem changesOwn_suppressed (m : Meaning) (s : State) (g : Group) (major : Nat) (b : Body) (row : Row) :
    ChangesOwn m s g major b row
      (fun v => stands v ∧ v.guard = .t ∧ firstDirect v = none ∧ v.th.helper = true ∧ suppressed v.major = true)
      (fun v x =>
        let z := zeroRegs v.major v.h.var
        (if z = 0 ∨ (badReg v.th v.nregs (dst z) b.vd).isSome then x else x.wrN z b.vd 0).issued v.words) := by
  refine changesOwn_of_turn fun u fl ths inst h0 _ hb hP _ => ?_
  obtain ⟨hst, hg, hf, hh, hsup⟩ := hP
  have hacts : (u.th.helper && suppressed u.major) = true := by rw [hh, hsup]; rfl
  subst hb
  rw [stepMember_suppress (Env.turn_goes fl ths inst h0 hst fun h => Env.ready_of_suppressed h hg hacts) hst.1 hg hacts,
    checkDirect_none (v := u.turn fl ths inst) hf]
  exact optional_finish (u.turn fl ths inst) _ (fun x => Thread.wrN_t _ _ _ _) _

end Sys2Proof.Machine

open Sys2Proof Sys2Proof.Machine

/-- Settles O49: each clause is the turn of one member, which the issue carries to the group. -/
theorem wordOutcomes_result : Obligations.WordOutcomes_result := by
  unfold Obligations.WordOutcomes_result
  intro i major b hraw
  obtain ⟨m, he⟩ := exec_word hraw
  refine ⟨changesIf_of he (fun _ _ => rfl) fun s g row => changesOwn_skip m s g major b row,
    changesIf_of he (fun v x => ?_) fun s g row => changesOwn_suppressed m s g major b row,
    changesIf_of he (fun _ _ => rfl) fun s g row => changesOwn_blocked m s g major b row,
    changesIf_of he (fun _ _ => rfl) fun s g row => changesOwn_illegal m s g major b row,
    fun e => ⟨changesIf_of he (fun _ _ => rfl) fun s g row => changesOwn_regbound m s g major b row e,
      changesIf_of he (fun _ _ => rfl) fun s g row => changesOwn_skip_regbound m s g major b row e⟩⟩
  dsimp only
  split <;> simp
end

section
/-! SUPPORT. A fetch that its own page walk spoils: the walk's line takes the way of the code line in their slice, and the
fault of stored bits in DRAM that the slice had hidden stops the context before the word runs (R98, R101, R378). -/

namespace Sys2Proof.Machine

/-- The root of the page tables lies in the slice and set of the code of a placed instruction. -/
def evictRoot : Nat := placeCode + 2 ^ 18

/-- A placed IADD whose code line its slice holds, over a DRAM granule beyond correction; the walk may allocate one way
alone, that of the code line. -/
def evictState : State :=
  ((placeWord State.reset 0).applyWrites (memWrites evictRoot (leBytes 8 0x11001))).device (fun d =>
    { (d.modVault (homeOf placeCode) (fun v =>
        { v with lines := [⟨placeCode / 128, .clean, 0, 0, leBytes 8 0x2004_000A_0100_27FF⟩] })) with
      flocks := [{ placeFlock with regs := { placeRegs with ptroot := BitVec.ofNat 64 evictRoot } }],
      waypart := d.waypart.set 63 1,
      marks := [(.dram placeCode, true)] })

/-- The chosen group of a placed instruction. -/
def placeGroup : Group := ⟨0, 0, false, BitVec.ofNat 64 placeCode, [⟨0, 0, 0⟩]⟩

theorem evictState_issuing : evictState.dev.issuing = some placeGroup := rfl

/-- The fetch finds the word in the slice. -/
theorem evictState_fetch : fetchGroup evictState placeGroup = .words 0x2004_000A_0100_27FF 0 := by decide

/-- The read that fills the instruction cache finds the line in DRAM: the context has stopped, and the group is gone. -/
theorem evictState_fetched_issuing : (fetched placeGroup evictState).dev.issuing = none := rfl

end Sys2Proof.Machine

open Sys2Proof Sys2Proof.Machine

/-- Refutes O58: with a fault beyond correction in DRAM beneath a code line that its slice holds, the fetch's page walk may
take the line's way, and the fetch then stops the context, so that the state it leaves has no chosen group. -/
theorem not_stepRunsDecoded : ¬ Obligations.StepRunsDecoded := by
  unfold Obligations.StepRunsDecoded
  rintro ⟨hword, -⟩
  obtain ⟨-, -, hissuing, -⟩ := hword evictState placeGroup _ 0 _ evictState_issuing evictState_fetch rfl
  rw [evictState_fetched_issuing] at hissuing
  cases hissuing
end

section
/-! SUPPORT. What kinds of bytes an operation writes, by its parts: an operation without writes leaves every byte as it is,
one that writes local stores alone leaves memory. -/

namespace Sys2Proof.Machine

/-! ## Operations by the writes they make -/

/-- Every write of the operation meets `p`. -/
def Eff.WritesOnly (p : Write → Prop) (a : Eff) : Prop := ∀ s, ∀ w ∈ (a s).writes, p w

/-- The operation writes no byte. -/
abbrev Eff.Silent (a : Eff) : Prop := a.WritesOnly (fun _ => False)

/-- A write to local stores, not to DRAM or host memory. -/
def Write.isLocal : Write → Prop
  | .mem _ _ => False
  | .forget => False
  | _ => True

section
variable {p : Write → Prop}

theorem Eff.WritesOnly.mono {q : Write → Prop} {a : Eff} (h : a.WritesOnly p) (hpq : ∀ w, p w → q w) : a.WritesOnly q :=
  fun s w hw => hpq w (h s w hw)

theorem writesOnly_skip : skip.WritesOnly p := fun _ _ hw => absurd hw List.not_mem_nil
theorem writesOnly_upd (f : Dev → Dev) : (upd f).WritesOnly p := fun _ _ hw => absurd hw List.not_mem_nil
theorem writesOnly_halt (e : Fault) : (halt e).WritesOnly p := fun _ _ hw => absurd hw List.not_mem_nil
theorem writesOnly_wr {ws : List Write} (h : ∀ w ∈ ws, p w) : (wr ws).WritesOnly p := fun _ w hw => h w hw
theorem writesOnly_look {f : State → Eff} (h : ∀ s, (f s).WritesOnly p) : (look f).WritesOnly p := fun s => h s s

theorem writesOnly_andThen {a b : Eff} (ha : a.WritesOnly p) (hb : b.WritesOnly p) : (a.andThen b).WritesOnly p := by
  intro s w hw
  unfold Eff.andThen at hw
  cases hs : (a s).stop with
  | some e => simp only [hs] at hw; exact ha s w hw
  | none =>
    simp only [hs, List.mem_append] at hw
    exact hw.elim (ha s w) (hb _ w)

theorem writesOnly_seqE {l : List Eff} (h : ∀ a ∈ l, a.WritesOnly p) : (seqE l).WritesOnly p := by
  induction l with
  | nil => exact writesOnly_skip
  | cons a r ih =>
    cases r with
    | nil => exact h a (by simp)
    | cons b r => exact writesOnly_andThen (h a (by simp)) (ih fun x hx => h x (by simp [List.mem_cons.1 hx]))

theorem writesOnly_forE {α : Type} {l : List α} {f : α → Eff} (h : ∀ x ∈ l, (f x).WritesOnly p) :
    (forE l f).WritesOnly p := by
  refine writesOnly_seqE fun a ha => ?_
  obtain ⟨x, hx, rfl⟩ := List.mem_map.1 ha
  exact h x hx

theorem writesOnly_whenE {b : Bool} {a : Eff} (h : a.WritesOnly p) : (whenE b a).WritesOnly p := by
  cases b
  · exact writesOnly_skip
  · exact h

theorem writesOnly_withE {α : Type} {o : Option α} {f : α → Eff} (h : ∀ x, (f x).WritesOnly p) :
    (withE o f).WritesOnly p := by
  cases o
  · exact writesOnly_skip
  · exact h _

end

/-! ## What such writes leave -/

theorem State.applyWrites_mem_of_local {ws : List Write} (h : ∀ w ∈ ws, w.isLocal) (s : State) :
    (s.applyWrites ws).mem = s.mem := by
  induction ws generalizing s with
  | nil => rfl
  | cons w ws ih =>
    refine (ih (fun x hx => h x (by simp [hx])) (s.applyWrite w)).trans ?_
    have hw := h w (by simp)
    cases w with
    | mem a b => exact hw.elim
    | forget => exact hw.elim
    | _ => rfl

/-- Memory is as before. -/
theorem Eff.WritesOnly.mem {a : Eff} (h : a.WritesOnly Write.isLocal) {s t : State} (ht : commit a s = .next t) :
    t.mem = s.mem := by
  obtain ⟨-, rfl⟩ := commit_next.1 ht
  exact State.applyWrites_mem_of_local (h s) s

/-- Every byte is as before. -/
theorem Eff.Silent.sameBytes {a : Eff} (h : a.Silent) {s t : State} (ht : commit a s = .next t) : s.sameBytes t := by
  obtain ⟨-, rfl⟩ := commit_next.1 ht
  have hnil : (a s).writes = [] := List.eq_nil_iff_forall_not_mem.2 (h s)
  unfold State.sameBytes State.apply
  rw [hnil]
  exact ⟨rfl, rfl⟩

/-! ## Barriers and the end of a thread -/

theorem silent_barCheck (c l : Nat) : (barCheck c l).Silent := by
  refine writesOnly_look fun s => writesOnly_withE fun f => ?_
  split
  · exact writesOnly_upd _
  · exact writesOnly_skip

theorem silent_hbarCheck (c l : Nat) : (hbarCheck c l).Silent := by
  refine writesOnly_look fun s => writesOnly_withE fun f => ?_
  dsimp only
  split
  · exact writesOnly_upd _
  · exact writesOnly_skip

theorem silent_barriers (c l : Nat) : (barriers c l).Silent :=
  writesOnly_andThen (silent_barCheck c l) (silent_hbarCheck c l)

theorem silent_retire (r : TRef) (e : Ended) : (retire r e).Silent := by
  unfold retire
  split
  · exact writesOnly_upd _
  · exact writesOnly_andThen (writesOnly_upd _) (silent_barriers _ _)

end Sys2Proof.Machine
end

section
/-! SUPPORT. Words that end a thread, commit a flock, hand over to the control plane, and write a deadline. -/

namespace Sys2Proof.Machine

/-! ## One thread at a word whose own waits do not hold it -/

/-- A thread that stands at a word, and that no wait of the instruction holds, issues it alone. -/
theorem Stands.alone {s : State} {major : Nat} {b : Body} {v : Env} (h : Stands s major b v)
    (hx : crossLane major = false) (hgo : v.stays = false) : Alone s major b v := by
  refine ⟨h.env, h.one, h.stands, ?_, h.element⟩
  obtain ⟨hchosen, hencoding, hword, hdistinct, heach⟩ := h.fits
  refine ⟨hchosen, hencoding, hword, hdistinct, fun r hr => ?_⟩
  obtain ⟨f, th, hm, hfits⟩ := heach r hr
  obtain rfl : r = v.r := by simpa [h.one] using hr
  obtain ⟨rfl, rfl⟩ : v.f = f ∧ v.th = th := by simpa using h.stands.symm.trans hm
  refine ⟨v.f, v.th, hm, ?_⟩
  have hv := h.env
  rw [← hv] at hfits ⊢
  have hmajor : v.major = major := by rw [hv]; rfl
  exact ⟨hfits.whole, hfits.legal, hfits.results, hfits.guard, hfits.acts, hfits.operands, hgo,
    fun hc => absurd (hmajor ▸ hc) (by simp [hx])⟩

section
variable {s : State} {m : Nat} {b : Body} {v : Env}

theorem Stands.major (h : Stands s m b v) : v.major = m := by rw [h.env]; rfl
theorem Stands.body (h : Stands s m b v) : v.b = b := by rw [h.env]; rfl
theorem Stands.state (h : Stands s m b v) : v.s = s := by rw [h.env]; rfl
theorem Stands.flock (h : Stands s m b v) : s.dev.flock? v.r.core v.r.slot = some v.f := (memberOf_some.1 h.stands).1
theorem Stands.thread (h : Stands s m b v) : v.f.thread? v.r.t = some v.th := (memberOf_some.1 h.stands).2.1

end

/-! ## Threads through barriers -/

/-- How a thread has ended, by reference. -/
def Dev.endOf (d : Dev) (r : TRef) : Option (Option Ended) := (d.thread? r).map (·.ended)

/-- A change of flocks that leaves their threads' ends. -/
theorem Dev.endOf_modFlock (d : Dev) (r : TRef) (c l : Nat) {k : Flock → Flock}
    (hc : ∀ f, (k f).core = f.core ∧ (k f).slot = f.slot)
    (hk : ∀ f t, ((k f).thread? t).map (·.ended) = (f.thread? t).map (·.ended)) : (d.modFlock c l k).endOf r = d.endOf r := by
  have hf : (d.modFlock c l k).flock? r.core r.slot =
      (d.flock? r.core r.slot).map (fun f => if f.core = c ∧ f.slot = l then k f else f) := by
    unfold Dev.modFlock Dev.flock?
    refine find?_map_keep _ _ _ fun f => ?_
    split
    · simp [hc]
    · rfl
  unfold Dev.endOf Dev.thread?
  rw [hf]
  cases d.flock? r.core r.slot with
  | none => rfl
  | some f =>
    simp only [Option.map_some, Option.bind_some]
    split
    · exact hk f r.t
    · rfl

theorem Flock.toWave_ended (f : Flock) (w : Wait) (ids : List Nat) (floor t : Nat) :
    ((f.toWave w ids floor).thread? t).map (·.ended) = (f.thread? t).map (·.ended) := by
  unfold Flock.thread? Flock.toWave
  by_cases ht : t = instId
  · simp only [ht, if_true]
    split
    · rw [Option.map_map]; rfl
    · rfl
  · simp only [ht, if_false]
    rw [find?_map_keep]
    · rw [Option.map_map]
      congr 1
      funext x
      simp only [Function.comp_apply]
      split <;> rfl
    · intro x
      split <;> rfl

theorem endOf_barriers (r : TRef) (c l : Nat) : (barriers c l).Keeps (fun d e => e.endOf r = d.endOf r) := by
  have hst : Steady (fun d e : Dev => e.endOf r = d.endOf r) := Steady.eq (fun d => d.endOf r)
  have hwave : ∀ (d : Dev) (a b : Nat) w ids floor, (d.modFlock a b (fun f => f.toWave w ids floor)).endOf r = d.endOf r :=
    fun d a b w ids floor => Dev.endOf_modFlock d r a b (fun f => ⟨rfl, rfl⟩) fun f t => Flock.toWave_ended f w ids floor t
  refine keeps_andThen hst (keeps_look fun s => keeps_withE hst fun f => ?_) (keeps_look fun s => keeps_withE hst fun f => ?_)
  · split
    · exact keeps_upd fun d => hwave d _ _ _ _ _
    · exact keeps_skip hst
  · dsimp only
    split
    · refine keeps_upd fun d => ?_
      show (List.foldl _ d (s.dev.herdOf f)).endOf r = d.endOf r
      generalize s.dev.herdOf f = hs
      induction hs generalizing d with
      | nil => rfl
      | cons x hs ih => exact (ih _).trans (hwave d _ _ _ _ _)
    · exact keeps_skip hst

/-! ## The end of a thread -/

theorem Flock.modThread_thread? (f : Flock) (t : Nat) (g : Thread → Thread) (hg : ∀ x, (g x).t = x.t) :
    (f.modThread t g).thread? t = (f.thread? t).map g := by
  unfold Flock.modThread Flock.thread?
  by_cases ht : t = instId
  · simp [ht]
  · simp only [ht, if_false]
    rw [find?_map_keep _ _ _ fun x => by by_cases hx : x.t = t <;> simp [hx, hg]]
    cases hf : f.threads.find? (fun x => decide (x.t = t)) with
    | none => rfl
    | some y =>
      have hy : y.t = t := by simpa using List.find?_some hf
      simp [hy]

theorem Dev.modThread_thread? (d : Dev) (r : TRef) (g : Thread → Thread) (hg : ∀ x, (g x).t = x.t) :
    (d.modThread r g).thread? r = (d.thread? r).map g := by
  unfold Dev.thread?
  rw [Dev.modThread_flock?]
  cases hf : d.flock? r.core r.slot with
  | none => rfl
  | some f =>
    have hcs : f.core = r.core ∧ f.slot = r.slot := by simpa [Dev.flock?] using List.find?_some hf
    simp only [Option.map_some, Option.bind_some, hcs, and_self, if_true]
    exact Flock.modThread_thread? f r.t g hg

theorem Dev.endOf_modThread (d : Dev) {r : TRef} {th : Thread} (h : d.thread? r = some th) {g : Thread → Thread}
    (hg : ∀ x, (g x).t = x.t) : (d.modThread r g).endOf r = some (g th).ended := by
  rw [Dev.endOf, Dev.modThread_thread? d r g hg, h]
  rfl

/-- The flock of a core and slot after a change of it. -/
theorem Dev.modFlock_flock? (d : Dev) (c l : Nat) {k : Flock → Flock} (hk : ∀ f, (k f).core = f.core ∧ (k f).slot = f.slot) :
    (d.modFlock c l k).flock? c l = (d.flock? c l).map k := by
  unfold Dev.modFlock Dev.flock?
  rw [find?_map_keep _ _ _ fun f => by split <;> simp [hk]]
  cases hf : d.flocks.find? (fun f => decide (f.core = c ∧ f.slot = l)) with
  | none => rfl
  | some f =>
    have hcs : f.core = c ∧ f.slot = l := by simpa using List.find?_some hf
    simp [hcs]

/-- R49: the helpers that go with the last thread do not change how another has ended. -/
theorem Flock.exitHelpers_ended {f : Flock} {t : Nat} {x : Thread} {e : Ended} (h : f.thread? t = some x)
    (he : x.ended = some e) (c : Prop) [Decidable c] :
    ((if c then { f with threads := f.threads.map (fun th =>
        if th.ended = none then { th with ended := some .exited, wait := .none } else th) } else f : Flock).thread? t).map
      (·.ended) = some (some e) := by
  split
  · unfold Flock.thread? at h ⊢
    split
    next ht => rw [if_pos ht] at h; rw [h]; simp [he]
    next ht =>
      rw [if_neg ht] at h
      rw [find?_map_keep _ _ _ fun y => by split <;> rfl, h]
      simp [he]
  · rw [h]; simp [he]

/-- A thread that ends has ended, whatever its barriers then do. -/
theorem endOf_retire {s t : State} {r : TRef} {e : Ended} {th : Thread} (h : s.dev.thread? r = some th)
    (ht : commit (retire r e) s = .next t) : t.dev.endOf r = some (some e) := by
  unfold retire at ht
  split at ht
  · rw [commit_updT] at ht
    cases ht
    exact Dev.endOf_modThread s.dev h fun _ => rfl
  next hinst =>
    obtain ⟨u, hu, hb⟩ := commit_andThen_next.1 ht
    rw [commit_upd] at hu
    cases hu
    refine ((endOf_barriers r r.core r.slot).next hb).trans ?_
    obtain ⟨f, hf, hth⟩ := Option.bind_eq_some_iff.1 h
    rw [Dev.endOf, Dev.thread?, Dev.modFlock_flock? _ _ _ fun y => ⟨?_, ?_⟩, hf]
    · refine Flock.exitHelpers_ended (x := { th with ended := some e, wait := .none }) ?_ rfl _
      rw [Flock.modThread_thread? f r.t (fun x => { x with ended := some e, wait := .none }) fun _ => rfl, hth]
      rfl
    · simp only [Flock.oqFree]
      split <;> simp
    · simp only [Flock.oqFree]
      split <;> simp

/-! ## Committing (R54) -/

/-- What commits a flock: every flock of its herd has its flag set, by core and slot. -/
theorem flock?_commitFold (hs : List Flock) (d : Dev) (c l : Nat) :
    (hs.foldl (fun d x => d.modFlock x.core x.slot (fun y => { y with committed := true })) d).flock? c l =
      (d.flock? c l).map (fun f => if ∃ x ∈ hs, x.core = c ∧ x.slot = l then { f with committed := true } else f) := by
  induction hs generalizing d with
  | nil => simp
  | cons x hs ih =>
    rw [List.foldl_cons, ih]
    by_cases hx : x.core = c ∧ x.slot = l
    · obtain ⟨rfl, rfl⟩ := hx
      rw [Dev.modFlock_flock? d _ _ (k := fun y => { y with committed := true }) fun f => ⟨rfl, rfl⟩, Option.map_map]
      congr 1
      funext f
      simp
    · have hother : (d.modFlock x.core x.slot (fun y => { y with committed := true })).flock? c l = d.flock? c l := by
        unfold Dev.modFlock Dev.flock?
        rw [find?_map_keep _ _ _ fun f => by split <;> rfl]
        cases hf : d.flocks.find? (fun f => decide (f.core = c ∧ f.slot = l)) with
        | none => rfl
        | some f =>
          obtain ⟨rfl, rfl⟩ : f.core = c ∧ f.slot = l := by simpa using List.find?_some hf
          have hn : ¬(f.core = x.core ∧ f.slot = x.slot) := fun h => hx ⟨h.1.symm, h.2.symm⟩
          simp [hn]
      rw [hother]
      simp [hx]

theorem commitFlock_committed {d : Dev} {c l : Nat} {f x : Flock} (hf : d.flock? c l = some f) (hx : x ∈ d.herdOf f) :
    ((commitFlock c l d).flock? x.core x.slot).map (·.committed) = some true := by
  have hmem : x ∈ d.flocks := (List.mem_filter.1 hx).1
  have hsome : (d.flock? x.core x.slot).isSome := by
    rw [Dev.flock?, List.find?_isSome]
    exact ⟨x, hmem, by simp⟩
  obtain ⟨y, hy⟩ := Option.isSome_iff_exists.1 hsome
  unfold commitFlock
  simp only [hf]
  rw [flock?_commitFold, hy]
  have hin : ∃ z ∈ d.herdOf f, z.core = x.core ∧ z.slot = x.slot := ⟨x, hx, rfl, rfl⟩
  simp [hin]

/-! ## The four words -/

/-- Bytes written before the group has issued are those written after. -/
theorem begun_applyWrites (s : State) (ws : List Write) : s.begun.applyWrites ws = (s.applyWrites ws).begun := by
  unfold State.begun
  rw [State.applyWrites_withDev, State.applyWrites_dev]

/-- R47: EXIT. -/
theorem exit_stands {s : State} {w : TWord} {v : Env} (h : Stands s 0x07 (.t w) v) :
    ∃ t, exec (.exit w) s = .next t ∧ (t.dev.thread? v.r).map (·.ended) = some (some .exited) ∧ s.sameBytes t := by
  have hgo : v.stays = false := by simp [Env.stays, Env.full, hasBlock, loads, h.major]
  have hexec : exec (.exit w) s = commit ((mExit v.now).finish v.now) s.begun := issue_alone mExit (h.alone rfl hgo)
  have hend : mExit v.now = .jump (retire v.r .exited) := by
    have hi : v.now.th.intv = false := h.element
    unfold mExit
    rw [hi]
    rfl
  have hret : ∀ u, ∃ t, commit (retire v.r .exited) u = .next t := fun u => ⟨_, (calm_retire v.r .exited).next u⟩
  let u : State := { s.begun with dev := s.begun.dev.modThread v.r (fun x => { x with waited := 0 }) }
  obtain ⟨t, ht⟩ := hret u
  have hfin : commit ((mExit v.now).finish v.now) s.begun = .next t := by
    rw [hend]
    exact (commit_andThen_of_next (commit_updT v.r _ s.begun)).trans ht
  have hth : u.dev.thread? v.r = some { v.th with waited := 0 } := by
    refine (Dev.modThread_thread? s.begun.dev v.r (fun x => { x with waited := 0 }) fun _ => rfl).trans ?_
    have : s.begun.dev.thread? v.r = some v.th := Dev.thread?_of_flock (f := v.f) h.flock h.thread
    rw [this]
    rfl
  refine ⟨t, hexec.trans hfin, endOf_retire hth ht, ?_⟩
  exact (silent_retire v.r .exited).sameBytes (s := u) ht

/-- R54: COMMIT. -/
theorem commit_stands {s : State} {w : TWord} {v : Env} (h : Stands s 0x09 (.t w) v) :
    exec (.commit w) s = .next (s.issueBy v (commitFlock v.r.core v.r.slot)) := by
  have hgo : v.stays = false := by simp [Env.stays, Env.full, hasBlock, loads, h.major]
  have hexec : exec (.commit w) s = commit ((mCommit v.now).finish v.now) s.begun := issue_alone mCommit (h.alone rfl hgo)
  have hm : mCommit v.now = .done (upd (commitFlock v.r.core v.r.slot)) := by
    have hi : v.now.th.intv = false := h.element
    unfold mCommit both
    rw [hi]
    rfl
  rw [hexec, hm]
  exact (commit_andThen_of_next (commit_upd _ s.begun)).trans (commit_updT _ _ _)

/-- R171: LAUNCH, its earlier stores performed and its block in the scratchpad. -/
theorem launch_stands {s : State} {w : EWord} {v : Env} {blk : List Byte} (h : Stands s 0x0D (.e w) v)
    (hp : v.blkPending = false) (hb : v.blk = some blk) :
    (launchRsvd blk = false → exec (.launch w) s = .next (s.issueBy v (fun d =>
      (commitFlock v.r.core v.r.slot d).modThread v.r (fun x =>
        { x with wait := .launch (if w.vd.isVz then 2047 else (w.vd.index v.th).toNat) blk })))) ∧
    (launchRsvd blk = true → v.delivers → exec (.launch w) s =
      .next (s.changes v (fun x => x.deliver v.handler (trapCode 11 0x18) v.blkAddr v.th.pc))) := by
  have hgo : v.stays = false := by
    simp [Env.stays, Env.full, loads, h.major, hp, Env.queueTaken, Env.scalesAwaited, h.body]
  have hexec : exec (.launch w) s = commit ((mLaunch v.now).finish v.now) s.begun := issue_alone mLaunch (h.alone rfl hgo)
  have hi : v.now.th.intv = false := h.element
  have hblk : v.now.blk = some blk := by
    rw [← hb]
    unfold Env.blk Env.now
    simp only [h.state]
    rfl
  have hbody : v.now.b = .e w := h.body
  constructor
  · intro hr
    have hm : mLaunch v.now = .done ((upd (commitFlock v.r.core v.r.slot)).andThen (updT v.r (fun th =>
        { th with wait := .launch (if w.vd.isVz then 2047 else (w.vd.index v.th).toNat) blk }))) := by
      unfold mLaunch both Env.withBlk
      simp only [hi, hblk, Bool.false_eq_true, if_false, hr, hbody]
      rfl
    rw [hexec, hm]
    have hcommit := (commit_andThen_of_next (b := updT v.r (fun th =>
      { th with wait := .launch (if w.vd.isVz then 2047 else (w.vd.index v.th).toNat) blk }))
      (commit_upd (commitFlock v.r.core v.r.slot) s.begun)).trans (commit_updT _ _ _)
    exact (commit_andThen_of_next hcommit).trans (commit_updT _ _ _)
  · intro hr hd
    have hm : mLaunch v.now = .trap cOPERAND 0x18 v.blkAddr := by
      unfold mLaunch both Env.withBlk
      simp only [hi, hblk, Bool.false_eq_true, if_false, hr, if_true]
      rfl
    rw [hexec, hm]
    have hvec : s.begun.dev.trapVec v.f.ctx v.r.t = v.handler := by
      unfold Env.handler
      rw [h.state]
      rfl
    have htrap := commit_trapHere_delivers (s := s.begun) (f := v.f) cOPERAND 0x18 v.blkAddr h.flock h.thread h.element hd.1
      (by rw [hvec]; exact hd.2)
    rw [hvec] at htrap
    exact htrap

/-- R264: what STEPDL does once it issues. -/
theorem stepdl_stands {s : State} {w : TWord} {v : Env} (h : Stands s 0x1B (.t w) v) :
    exec (.stepdl w) s = commit ((whenE (decide ((s.dev.ctx v.f.ctx).eff.csave ≠ 0 ∧ (s.dev.ctx v.f.ctx).eff.csavesz ≠ 0))
      (physWrite (s.dev.ctx v.f.ctx).eff.csave.toNat (leBytes 8 (v.v64 w.va .zero).toNat))).andThen
        (advance v.r v.words)) s.begun := by
  have hgo : v.stays = false := by simp [Env.stays, Env.full, hasBlock, loads, h.major]
  have hexec : exec (.stepdl w) s = commit ((mStepdl v.now).finish v.now) s.begun := issue_alone mStepdl (h.alone rfl hgo)
  have hi : v.now.th.intv = false := h.element
  have hva : v.now.b.va = w.va := by
    have hbody : v.now.b = .t w := h.body
    rw [hbody]
    rfl
  have hs : v.now.s = s.begun := congrArg State.begun h.state
  rw [hexec]
  unfold mStepdl both
  simp only [hi, Bool.false_eq_true, if_false, hva, hs]
  rfl

end Sys2Proof.Machine

open Sys2Proof Sys2Proof.Machine

/-- Settles O13: each word stands alone, and its meaning runs from the state that the group leaves. -/
theorem exitCommitLaunch_result : Obligations.ExitCommitLaunch_result := by
  unfold Obligations.ExitCommitLaunch_result
  refine ⟨⟨fun s w v h => exit_stands h, fun s w v h =>
    ⟨commit_stands h, fun x hx => commitFlock_committed h.flock hx⟩⟩, fun s w v blk h hp hb => launch_stands h hp hb,
    fun s w v h => ?_⟩
  intro c bs
  have hexec := stepdl_stands h
  refine ⟨fun hnone => ?_, fun h1 h2 => ?_, fun h2 hlo hhi => ?_⟩
  · have hc : decide (c.csave ≠ 0 ∧ c.csavesz ≠ 0) = false := by
      exact decide_eq_false fun h => hnone.elim h.1 h.2
    rw [hexec, hc]
    exact (commit_andThen_of_next (commit_whenE_false _ s.begun)).trans (commit_updT _ _ _)
  · have hc : decide (c.csave ≠ 0 ∧ c.csavesz ≠ 0) = true := decide_eq_true ⟨h1, h2⟩
    refine ⟨_, (calm_physWrite c.csave.toNat bs).next s.begun, ?_⟩
    rw [hexec, hc]
    exact (commit_andThen_of_next ((commit_whenE_true _ s.begun).trans ((calm_physWrite c.csave.toNat bs).next s.begun))).trans
      (commit_updT _ _ _)
  · have h1 : c.csave ≠ 0 := by
      intro h0
      rw [h0] at hlo
      exact absurd hlo (by decide)
    have hc : decide (c.csave ≠ 0 ∧ c.csavesz ≠ 0) = true := decide_eq_true ⟨h1, h2⟩
    have hhost : inHost c.csave.toNat = true := by simp [inHost]; omega
    have hput : commit (physWrite c.csave.toNat bs) s.begun = .next (s.applyWrites (memWrites c.csave.toNat bs)).begun := by
      unfold physWrite physPut
      rw [if_pos hhost, commit_wr, begun_applyWrites]
    rw [hexec, hc]
    exact (commit_andThen_of_next ((commit_whenE_true _ s.begun).trans hput)).trans (commit_updT _ _ _)
end

section
/-! SUPPORT. A slot whose preparation stops the machine: another thread of the port group stands before a header whose
page-table walk leads to no region of R93. -/

namespace Sys2Proof.Machine

/-- Before the header at an address of which the level-4 entry names a node that no region of R93 holds. -/
def strayThread : Thread := { placeThread 1 (BitVec.ofNat 64 (2 ^ 48)) with enter := some 0, blkEnd := 0 }

/-- A thread with its rendezvous fault pending and a handler, and a stray thread in its port group. -/
def strayState : State :=
  ((placeWord State.reset 0).applyWrites (memWrites (placeRoot + 8) (leBytes 8 (2 ^ 40 + 1)))).device (fun d =>
    { (d.modCtx 0 (fun c => { c with eff := { c.eff with trapvec := 0x8000 } })) with
      issuing := none,
      flocks := [{ placeFlock with
        threads := [{ placeThread 0 (BitVec.ofNat 64 placeCode) with wait := .pend 7 }, strayThread] }] })

/-- The slot would choose the key of the pending thread. -/
theorem strayState_slotTraps : slotTraps 0 0 strayState = [⟨0, 0, 0⟩] := by decide

/-- But the slot's preparation walks the tables for the other thread first. -/
theorem strayState_stop :
    (rendezvousTrap ⟨0, 0, 0⟩ strayState).stop = some (.noSuchLocation (2 ^ 40)) := by decide

theorem strayState_rendezvousFaultTrap :
    exec (.rendezvousFaultTrap ⟨0, 0, 0⟩) strayState = .fault (.noSuchLocation (2 ^ 40)) := by
  show commit (rendezvousTrap ⟨0, 0, 0⟩) strayState = _
  unfold commit
  rw [strayState_stop]

end Sys2Proof.Machine

open Sys2Proof Sys2Proof.Machine

/-- Refutes O20, in its clause on rendezvous faults: a slot prepares every thread of its port group before it takes the
pending trap, and the walk for another thread's header may lead to no region of R93, which stops the machine. -/
theorem not_readinessAndSlots_result : ¬ Obligations.ReadinessAndSlots_result := by
  unfold Obligations.ReadinessAndSlots_result
  rintro ⟨⟨-, -, -, hpend⟩, -⟩
  have htraps : slotTraps (⟨0, 0, 0⟩ : TRef).core ((⟨0, 0, 0⟩ : TRef).t / 32 % 4) strayState = [⟨0, 0, 0⟩] := strayState_slotTraps
  obtain ⟨t, x, hexec, -⟩ := hpend strayState ⟨0, 0, 0⟩ _ _ 7 (by decide) rfl rfl rfl (by rw [htraps]; exact List.mem_singleton.2 rfl)
    (fun u hu => by
      rw [htraps] at hu
      obtain rfl := List.mem_singleton.1 hu
      exact ⟨_, _, rfl, rfl, rfl, rfl, by decide⟩)
  rw [strayState_rendezvousFaultTrap] at hexec
  cases hexec
end

section
/-! SUPPORT. What the run scheduler does at a placement, at a completion and at an abort of flocks (R50-R55, R285, R317). -/

namespace Sys2Proof.Machine

/-! ## Runs of a context -/

theorem Dev.ctx_modCtx (d : Dev) (n : Nat) {k : Ctx → Ctx} (hn : n < d.ctxs.length) : (d.modCtx n k).ctx n = k (d.ctx n) := by
  simp [Dev.ctx, Dev.modCtx, List.getElem?_eq_getElem hn]

/-- A change of a run that keeps its number, as the context's list gives it. -/
theorem Dev.run?_modRun (d : Dev) (ctx num : Nat) {g : Run → Run} (hg : ∀ r, (g r).num = r.num) :
    (d.modRun ctx num g).run? ctx num = (d.run? ctx num).map g := by
  unfold Dev.run? Dev.modRun Dev.modCtx Dev.ctx
  rw [List.getElem?_modify]
  cases d.ctxs[ctx]? with
  | none => rfl
  | some c =>
    simp only [if_true, Option.map_eq_map, Option.map_some, Option.getD_some]
    rw [find?_map_keep _ _ _ fun r => by split <;> simp [hg]]
    cases hf : c.runs.find? (fun r => decide (r.num = num)) with
    | none => rfl
    | some r =>
      have hr : r.num = num := by simpa using List.find?_some hf
      simp [hr]

theorem Dev.run?_num {d : Dev} {ctx num : Nat} {r : Run} (h : d.run? ctx num = some r) : r.num = num := by
  simpa using List.find?_some h

/-- A change of a context that leaves its runs. -/
theorem Dev.run?_modCtx (d : Dev) (n ctx num : Nat) {k : Ctx → Ctx} (hk : ∀ c, (k c).runs = c.runs) :
    (d.modCtx n k).run? ctx num = d.run? ctx num := by
  unfold Dev.run? Dev.modCtx Dev.ctx
  rw [List.getElem?_modify]
  cases d.ctxs[ctx]? with
  | none => rfl
  | some c => by_cases hc : n = ctx <;> simp [hc, hk]

/-- Runs do not decide whether the graph walker goes on. -/
theorem Dev.walking_modRun (d : Dev) (ctx num : Nat) (g : Run → Run) (c : Nat) : (d.modRun ctx num g).walking c = d.walking c := by
  unfold Dev.walking Dev.modRun Dev.modCtx Dev.ctx
  rw [List.getElem?_modify]
  cases d.ctxs[c]? with
  | none => rfl
  | some x => by_cases hc : ctx = c <;> simp [hc]

/-! ## Accesses of the control plane that translate, and whose bytes are sound -/

/-- A read goes on with its bytes. -/
theorem commit_withRead {s s0 : State} {ctx a n : Nat} {w : List Byte} (h : readsWord s ctx a n w s0) (bad : Nat → Bool → Eff)
    (k : List Byte → Eff) : commit (withRead ctx (s.dev.ctx ctx).eff.ptroot a n bad k) s = commit (k w) s0 := by
  obtain ⟨hbad, hecc, hbytes, hread⟩ := h
  unfold withRead
  rw [commit_look]
  simp only [hbad, hecc, hbytes, Bool.false_eq_true, if_false]
  exact commit_andThen_of_next hread

/-- A write goes on once it is made. -/
theorem commit_walkerWrite {s s1 : State} {ctx a : Nat} {bs : List Byte} (h : writesWord s ctx a bs s1) (i : Nat) (k : Eff) :
    commit (walkerWrite ctx i a bs k) s = commit k s1 := by
  obtain ⟨hbad, hecc, hwrite⟩ := h
  unfold walkerWrite withWrite
  rw [commit_look, commit_look]
  simp only [hbad, hecc, Bool.false_eq_true, if_false]
  exact commit_andThen_of_next hwrite

/-! ## Discarded flocks -/

/-- A flock's place holds none once the flocks that `p` names are gone, where `p` names every flock of the place. -/
theorem Dev.flock?_filter_none {d e : Dev} {p : Flock → Bool} (he : e.flocks = d.flocks.filter (fun f => !p f)) {core slot : Nat}
    (hp : ∀ f, f.core = core → f.slot = slot → p f = true) : e.flock? core slot = none := by
  unfold Dev.flock?
  rw [he, List.find?_eq_none]
  intro f hf hplace
  obtain ⟨hc, hs⟩ : f.core = core ∧ f.slot = slot := by simpa using hplace
  simp [hp f hc hs] at hf

/-- A discard leaves memory, the other flocks and the contexts. -/
theorem commit_discard (p : Flock → Bool) (s : State) : ∃ t, commit (discard p) s = .next t ∧ t.mem = s.mem ∧
    t.dev.flocks = s.dev.flocks.filter (fun f => !p f) ∧ t.dev.ctxs = s.dev.ctxs := by
  have hlocal : (discard p).WritesOnly Write.isLocal := by
    refine writesOnly_look fun u => writesOnly_andThen (writesOnly_upd _) (writesOnly_wr fun w hw => ?_)
    obtain ⟨f, -, hw⟩ := List.mem_flatMap.1 hw
    obtain rfl | rfl : w = .drop (.spad f.core f.slot) ∨ w = .drop (.acc f.core f.slot) := by simpa using hw
    · trivial
    · trivial
  have hnext := (calm_discard p).next s
  exact ⟨_, hnext, hlocal.mem hnext, rfl, rfl⟩

/-! ## Completion (R52, R285) -/

/-- A run's flock counted done. -/
def Run.countDone (g : Nat) (r : Run) : Run := if r.done.contains g then r else { r with done := r.done ++ [g] }

theorem Run.countDone_num (g : Nat) (r : Run) : (r.countDone g).num = r.num := by
  unfold Run.countDone
  split <;> rfl

theorem Run.ended_num (r : Run) (die cycle : Nat) : (r.ended die cycle).num = r.num := by
  unfold Run.ended
  split <;> rfl

theorem Run.ended_done (r : Run) (die cycle : Nat) : (r.ended die cycle).done = r.done := by
  unfold Run.ended
  split <;> rfl

theorem Run.ended_count (r : Run) (die cycle : Nat) : (r.ended die cycle).count = r.count := by
  unfold Run.ended
  split <;> rfl

section
variable {s s0 s1 : State} {ctx num g : Nat} {r : Run} {w : List Byte}

/-- The bit is set, then the flock counted. -/
theorem commit_setBit (hrun : s.dev.run? ctx num = some r) (hread : readsWord s ctx (r.bitmap.toNat + g / 8) 1 w s0)
    (hwrite : writesWord s0 ctx (r.bitmap.toNat + g / 8) (leBytes 1 (leNat w ||| 2 ^ (g % 8))) s1) (k : Eff) :
    commit (setBit ctx num g k) s = commit k (s1.device (fun d => d.modRun ctx num (Run.countDone g))) := by
  unfold setBit
  rw [commit_look, hrun, commit_withE_some, commit_withRead hread, commit_walkerWrite hwrite]
  exact commit_andThen_of_next (commit_upd _ s1)

end

/-- The look at the end of a run whose flocks have not all completed. -/
theorem commit_runEnd_short {s : State} {ctx num : Nat} {r : Run} (h : s.dev.run? ctx num = some r) (hshort : r.done.length < r.count) :
    commit (runEnd ctx num) s = .next s := by
  unfold runEnd
  rw [commit_look, h, commit_withE_some, if_pos (.inr (.inl hshort))]
  rfl

/-- What a flock must be for its completion: its threads and its access slice have ended and are quiet, and nothing of it is in its
core's engines. -/
structure Completes (s : State) (core slot : Nat) (f : Flock) : Prop where
  flock : s.dev.flock? core slot = some f
  alive : f.dead = false
  open_ : f.finished = false
  plain : f.tile = none
  ended : (f.threads ++ f.inst.toList).all (fun th => th.ended.isSome && th.quiet && th.seen.all s.dev.reached) = true
  runs : s.dev.stopped = false
  mat : ∀ o ∈ (s.dev.core core).mat, ¬(o.ref.core = core ∧ o.ref.slot = slot)
  cpy : ∀ o ∈ (s.dev.core core).cpy, ¬(o.ref.core = core ∧ o.ref.slot = slot)

/-- What follows the bit of a completed flock. -/
def completion (core slot : Nat) (f : Flock) : Eff :=
  (herdFree core slot).andThen ((upd (fun d => d.modRun f.ctx f.run (fun r => r.ended (dieOf core) (d.die (dieOf core)).cycle))).andThen
    (runEnd f.ctx f.run))

theorem Completes.exec {s : State} {core slot : Nat} {f : Flock} (h : Completes s core slot f) :
    Machine.exec (.flockComplete core slot) s = commit (setBit f.ctx f.run f.g (completion core slot f)) s := by
  have hmat : (s.dev.core core).mat.any (fun o => decide (o.ref.core = core ∧ o.ref.slot = slot)) = false := by
    simpa using h.mat
  have hcpy : (s.dev.core core).cpy.any (fun o => decide (o.ref.core = core ∧ o.ref.slot = slot)) = false := by
    simpa using h.cpy
  show commit (flockComplete core slot) s = _
  unfold flockComplete
  rw [commit_look, h.flock, commit_withE_some]
  simp only [h.alive, h.open_, h.plain, h.ended, h.runs, hmat, hcpy, Option.isSome_none, Bool.not_true, Bool.or_self,
    Bool.false_eq_true, if_false]
  rfl

/-- R52: the slots of a herd are free once its last flock completes. -/
theorem commit_herdFree {s : State} {core slot : Nat} {f : Flock} (hf : s.dev.flock? core slot = some f) (hmem : f ∈ s.dev.herdOf f)
    (hall : ∀ x ∈ s.dev.herdOf f, x.finished = true ∨ (x.core = core ∧ x.slot = slot)) :
    ∃ t, commit (herdFree core slot) s = .next t ∧ t.mem = s.mem ∧ t.dev.flock? core slot = none ∧ t.dev.ctxs = s.dev.ctxs := by
  have hcs : f.core = core ∧ f.slot = slot := by simpa [Dev.flock?] using List.find?_some hf
  have hdone : (s.dev.herdOf f).all (fun x => x.finished || (x.core = core && x.slot = slot)) = true := by
    simpa [List.all_eq_true] using hall
  let p (x : Flock) : Bool := (s.dev.herdOf f).any (fun y => y.core = x.core && y.slot = x.slot)
  obtain ⟨t, ht, hm, hflocks, hctxs⟩ := commit_discard p (s.device (orphanColls (s.dev.herdOf f)))
  have hp : ∀ x : Flock, x.core = core → x.slot = slot → p x = true := fun x hc hs =>
    List.any_eq_true.2 ⟨f, hmem, by simp [hcs, hc, hs]⟩
  refine ⟨t, ?_, hm, Dev.flock?_filter_none hflocks hp, hctxs⟩
  unfold herdFree
  rw [commit_look, hf, commit_withE_some]
  simp only [hdone, if_true]
  exact (commit_andThen_of_next (commit_upd _ s)).trans ht

/-! ## Abort (R55) -/

/-- The queue entries of an aborted herd of one. -/
theorem herdIndices_single {f : Flock} (h : f.hidx < 4) :
    (List.range 4).flatMap (fun i => ([f].filter (fun x => x.hidx = i)).map (·.g)) = [f.g] := by
  obtain h0 | h1 | h2 | h3 : f.hidx = 0 ∨ f.hidx = 1 ∨ f.hidx = 2 ∨ f.hidx = 3 := by omega
  · simp [List.range_succ, h0]
  · simp [List.range_succ, h1]
  · simp [List.range_succ, h2]
  · simp [List.range_succ, h3]

/-- A flock whose threads are gone and whose allocations stay. -/
def Flock.aborted (f : Flock) : Flock := { f with dead := true, threads := [], inst := none, sigma := none, oq := [] }

/-- What follows the discard of a herd of one: the flock's allocations stay, and its index is at the head of the queue. -/
def Dev.requeue (f : Flock) (d : Dev) : Dev :=
  ({ d with flocks := d.flocks ++ [f.aborted] }.modRun f.ctx f.run (fun r => { r with queue := f.g :: r.queue })).modCtx f.ctx
    (fun c => { c with naborted := c.naborted + 1 })

theorem Dev.requeue_flock? {f : Flock} {d : Dev} (h : d.flock? f.core f.slot = none) :
    (d.requeue f).flock? f.core f.slot = some f.aborted := by
  show (d.flocks ++ [f.aborted]).find? _ = _
  rw [List.find?_append, show d.flocks.find? _ = none from h]
  simp [Flock.aborted]

theorem Dev.requeue_run? (f : Flock) (d : Dev) :
    (d.requeue f).run? f.ctx f.run = (d.run? f.ctx f.run).map (fun r => { r with queue := f.g :: r.queue }) :=
  (Dev.run?_modCtx _ f.ctx f.ctx f.run (k := fun c => { c with naborted := c.naborted + 1 }) fun _ => rfl).trans
    (Dev.run?_modRun _ f.ctx f.run (g := fun r => { r with queue := f.g :: r.queue }) fun _ => rfl)

/-- Runs are found in the contexts alone. -/
theorem Dev.run?_congr {d e : Dev} (h : e.ctxs = d.ctxs) (ctx num : Nat) : e.run? ctx num = d.run? ctx num := by
  unfold Dev.run? Dev.ctx
  rw [h]

/-- An abort of a flock alone in its herd, and no evaluation flock. -/
theorem commit_abortFlock {s : State} {f : Flock} (hherd : s.dev.herdOf f = [f]) (htile : f.tile = none) (hidx : f.hidx < 4) :
    ∃ u : State, commit (abortFlock f none) s = .next (u.device (Dev.requeue f)) ∧ u.mem = s.mem ∧
      u.dev.flock? f.core f.slot = none ∧ u.dev.ctxs = s.dev.ctxs := by
  obtain ⟨u, hu, hm, hflocks, hctxs⟩ := commit_discard (fun x => [f].any (fun y => y.core = x.core ∧ y.slot = x.slot)) s
  refine ⟨u, ?_, hm, Dev.flock?_filter_none hflocks fun x hc hs => by simp [hc, hs], hctxs⟩
  unfold abortFlock
  rw [commit_look]
  simp only [hherd, htile, herdIndices_single hidx]
  exact (commit_andThen_of_next hu).trans (commit_upd _ u)

/-- R55, at a drain's limit. -/
theorem flockAbort_drained {s : State} {core slot : Nat} {f : Flock} {r : Run} (hf : s.dev.flock? core slot = some f)
    (hdead : f.dead = false) (hcommitted : f.committed = false) (htile : f.tile = none) (hidx : f.hidx < 4)
    (hstate : (s.dev.ctx f.ctx).cstate = .draining) (hlimit : s.dev.drainEnd f.ctx ≤ s.dev.ctime) (hherd : s.dev.herdOf f = [f])
    (hrun : s.dev.run? f.ctx f.run = some r) :
    ∃ t, exec (.flockAbort core slot) s = .next t ∧ t.mem = s.mem ∧
      (t.dev.flock? core slot).map (fun x => (x.dead, x.threads, x.inst)) = some (true, [], none) ∧
      (t.dev.run? f.ctx f.run).map (·.queue) = some (f.g :: r.queue) := by
  obtain ⟨rfl, rfl⟩ : f.core = core ∧ f.slot = slot := by simpa [Dev.flock?] using List.find?_some hf
  obtain ⟨u, hu, hm, hgone, hctxs⟩ := commit_abortFlock hherd htile hidx
  have hgo : ¬(f.dead = true ∨ f.committed = true ∨
      ((s.dev.ctx f.ctx).cstate ≠ .draining ∧ (s.dev.ctx f.ctx).cstate ≠ .saving) ∨ s.dev.ctime < s.dev.drainEnd f.ctx) := by
    simp [hdead, hcommitted, hstate, hlimit]
  refine ⟨u.device (Dev.requeue f), ?_, hm, ?_, ?_⟩
  · show commit (flockAbort f.core f.slot) s = _
    unfold flockAbort
    rw [commit_look, hf, commit_withE_some, if_neg hgo, hu]
  · show ((u.dev.requeue f).flock? f.core f.slot).map _ = _
    rw [Dev.requeue_flock? hgone]
    rfl
  · show ((u.dev.requeue f).run? f.ctx f.run).map _ = _
    rw [Dev.requeue_run?, Dev.run?_congr hctxs, hrun]
    rfl

/-- R55: the allocations of an aborted flock with no request in flight. -/
theorem abortAllocFree_quiet {s : State} {core slot : Nat} {f : Flock} (hf : s.dev.flock? core slot = some f) (hdead : f.dead = true)
    (hreqs : ∀ q ∈ s.dev.reqs, ¬(q.ref.core = core ∧ q.ref.slot = slot)) :
    ∃ t, exec (.abortAllocFree core slot) s = .next t ∧ t.mem = s.mem ∧ t.dev.flock? core slot = none ∧
      t.dev.reqs = s.dev.reqs := by
  have hnone : s.dev.reqs.any (fun q => q.ref.core = core && q.ref.slot = slot) = false := by simpa using hreqs
  have hfree : exec (.abortAllocFree core slot) s = commit (wr [.drop (.spad core slot), .drop (.acc core slot)])
      (s.device (fun d => d.delFlock core slot)) := by
    show commit (abortFree core slot) s = _
    unfold abortFree
    rw [commit_look, hf, commit_withE_some]
    simp only [hdead, hnone, Bool.not_true, Bool.or_self, Bool.false_eq_true, if_false]
    exact commit_andThen_of_next (commit_upd _ s)
  have hflocks : (s.dev.delFlock core slot).flocks = s.dev.flocks.filter (fun f => !decide (f.core = core ∧ f.slot = slot)) := by
    simp [Dev.delFlock]
  refine ⟨_, hfree.trans (commit_wr _ _), rfl, Dev.flock?_filter_none hflocks fun x hc hs => by simp [hc, hs], rfl⟩

end Sys2Proof.Machine
end

section
/-! SUPPORT. Placement of flocks, the completion of one, and the end of a run, from the parts before (R50-R52, R285). -/

namespace Sys2Proof.Machine

/-! ## The device at a placement -/

/-- A claim touches translations alone. -/
theorem Dev.claim_eq (d : Dev) (core : Nat) (icache : Bool) : d.claim core icache = { d with tlbs := (d.claim core icache).tlbs } := by
  unfold Dev.claim
  split <;> rfl

/-- What a core does when a flock comes to it leaves flocks and contexts, and of requests their threads. -/
theorem arrive_flocks (core : Nat) (d : Dev) : (acquirePlace core (d.claim core false)).flocks = d.flocks := by
  rw [Dev.claim_eq]
  rfl

theorem arrive_ctxs (core : Nat) (d : Dev) : (acquirePlace core (d.claim core false)).ctxs = d.ctxs := by
  rw [Dev.claim_eq]
  rfl

theorem arrive_refs (core : Nat) (d : Dev) :
    (acquirePlace core (d.claim core false)).reqs.map (·.ref) = d.reqs.map (·.ref) := by
  rw [Dev.claim_eq]
  show (List.map _ d.reqs).map _ = _
  rw [List.map_map]
  refine List.map_congr_left fun q _ => ?_
  simp only [Function.comp_apply]
  split
  · split <;> rfl
  · split <;> rfl
  · rfl

/-- The free slot of a core depends on the flocks there and the threads of requests. -/
theorem Dev.freeSlot_congr {d e : Dev} {core : Nat} (hf : e.onCore core = d.onCore core) (hr : e.reqs.map (·.ref) = d.reqs.map (·.ref)) :
    e.freeSlot core = d.freeSlot core := by
  have hall : ∀ l, e.reqs.all (fun q => !(q.ref.core = core && q.ref.slot = l)) =
      d.reqs.all (fun q => !(q.ref.core = core && q.ref.slot = l)) := fun l => by
    have h := congrArg (fun rs => rs.all (fun r => !(decide (r.core = core) && decide (r.slot = l)))) hr
    simpa [List.all_map, Function.comp_def] using h
  unfold Dev.freeSlot
  simp only [hf, hall]

/-! ## Wiped stores -/

theorem State.store_key (s : State) (k : StoKey) : (s.store k).key = k := by
  unfold State.store
  split
  next x hx => simpa using List.find?_some hx
  next => cases k <;> rfl

theorem State.store_of_find {s : State} {k : StoKey} {x : Store} (h : s.sto.find? (fun x => x.key = k) = some x) : s.store k = x := by
  unfold State.store
  rw [h]

theorem State.store_congr {s t : State} {k : StoKey}
    (h : t.sto.find? (fun x => x.key = k) = s.sto.find? (fun x => x.key = k)) : t.store k = s.store k := by
  unfold State.store
  rw [h]

/-- A wiped store keeps the bytes below the wiped range. -/
theorem State.store_wipe_same (s : State) (k : StoKey) (lo seed : Nat) :
    ((s.applyWrite (.wipe k lo seed)).store k).cells = (s.store k).cells.filter (fun c => decide (c.1 < lo)) := by
  rw [State.store_of_find (x := { s.store k with
    seeds := (lo, seed) :: (s.store k).seeds, cells := (s.store k).cells.filter (fun c => c.1 < lo) })]
  simp [State.applyWrite, putStore, State.store_key]

/-- Another store is as before. -/
theorem State.store_wipe_other {s : State} {k k' : StoKey} (h : k' ≠ k) (lo seed : Nat) :
    (s.applyWrite (.wipe k lo seed)).store k' = s.store k' := by
  have hkeep : (fun x : Store => !decide (x.key = k) && decide (x.key = k')) = fun x => decide (x.key = k') := by
    funext x
    by_cases hx : x.key = k' <;> simp [hx, h]
  exact State.store_congr (by simp [State.applyWrite, putStore, State.store_key, Ne.symm h, List.find?_filter, hkeep])

/-! ## Placement of one flock (R50) -/

/-- A run once its flock `g` is placed on a die. -/
def Run.unqueue (r : Run) (g die cycle : Nat) : Run := { r.started die cycle with queue := r.queue.filter (· ≠ g) }

theorem Run.unqueue_num (r : Run) (g die cycle : Nat) : (r.unqueue g die cycle).num = r.num := by
  unfold Run.unqueue Run.started
  split <;> rfl

theorem Run.unqueue_kern (r : Run) (g die cycle : Nat) : (r.unqueue g die cycle).kern = r.kern := by
  unfold Run.unqueue Run.started
  split <;> rfl

/-- The device once a flock is placed on a core. -/
def Dev.placed (core slot ctx : Nat) (r : Run) (g : Nat) (ts : List (Nat × Bool)) (d : Dev) : Dev :=
  { (d.modRun ctx r.num (fun r => r.unqueue g (dieOf core) (d.die (dieOf core)).cycle)) with
    flocks := d.flocks ++ [newFlock d core slot ctx r g ts none], free := d.free + ts.length + 2 }

/-- The bytes written for a placed flock. -/
def placeWrites (core slot seed : Nat) : List Write :=
  [.drop (.spad core slot), .drop (.acc core slot), .wipe (.spad core slot) 0 seed, .wipe (.acc core slot) 0 (seed + 1)]

/-- The state once a flock is placed on a core. -/
def State.placed (s : State) (core slot ctx : Nat) (r : Run) (g : Nat) (ts : List (Nat × Bool)) : State :=
  (s.device (fun d => acquirePlace core ((d.placed core slot ctx r g ts).claim core false))).applyWrites
    (placeWrites core slot (s.dev.free + ts.length))

section
variable {s : State} {core slot ctx : Nat} {r : Run} {g : Nat} {ts : List (Nat × Bool)}

theorem commit_placeE (hrun : s.dev.run? ctx r.num = some r) (hslot : s.dev.freeSlot core = some slot) :
    commit (placeE core ctx r.num g ts none) s = .next (s.placed core slot ctx r g ts) := by
  unfold placeE
  rw [commit_look, hrun, commit_withE_some, hslot, commit_withE_some]
  exact (commit_andThen_of_next (commit_upd _ s)).trans ((commit_andThen_of_next (commit_upd _ _)).trans (commit_wr _ _))

theorem placed_mem : (s.placed core slot ctx r g ts).mem = s.mem :=
  State.applyWrites_mem_of_local (fun w hw => by
    simp only [placeWrites, List.mem_cons, List.not_mem_nil, or_false] at hw
    obtain rfl | rfl | rfl | rfl := hw <;> trivial) _

theorem placed_dev :
    (s.placed core slot ctx r g ts).dev = acquirePlace core ((s.dev.placed core slot ctx r g ts).claim core false) :=
  State.applyWrites_dev _ _

theorem placed_flocks :
    (s.placed core slot ctx r g ts).dev.flocks = s.dev.flocks ++ [newFlock s.dev core slot ctx r g ts none] := by
  rw [placed_dev, arrive_flocks]
  rfl

/-- The scratchpad of a placed flock holds no byte that anything has written. -/
theorem placed_spad : ((s.placed core slot ctx r g ts).store (.spad core slot)).cells = [] := by
  unfold State.placed placeWrites
  generalize s.device _ = u
  show (((((u.applyWrite _).applyWrite _).applyWrite (.wipe _ 0 _)).applyWrite (.wipe _ 0 _)).store _).cells = []
  rw [State.store_wipe_other (by simp), State.store_wipe_same]
  simp

/-- The run is still there, its kernel the same. -/
theorem placed_run (hrun : s.dev.run? ctx r.num = some r) :
    ∃ r', (s.placed core slot ctx r g ts).dev.run? ctx r.num = some r' ∧ r'.kern = r.kern := by
  refine ⟨r.unqueue g (dieOf core) (s.dev.die (dieOf core)).cycle, ?_, r.unqueue_kern _ _ _⟩
  rw [placed_dev, Dev.run?_congr (arrive_ctxs core _)]
  refine (Dev.run?_modRun s.dev ctx r.num fun x => x.unqueue_num _ _ _).trans ?_
  rw [hrun]
  rfl

/-- The free slot of another core is as before. -/
theorem placed_freeSlot {c : Nat} (hc : c ≠ core) : (s.placed core slot ctx r g ts).dev.freeSlot c = s.dev.freeSlot c := by
  refine Dev.freeSlot_congr ?_ ?_
  · unfold Dev.onCore
    rw [placed_flocks, List.filter_append]
    have hother : ¬(newFlock s.dev core slot ctx r g ts none).core = c := fun h => hc h.symm
    simp [hother]
  · rw [placed_dev, arrive_refs]
    rfl

end

/-- The threads of a placed flock are those given. -/
theorem newFlock_threads (d : Dev) (core slot ctx : Nat) (r : Run) (g : Nat) (ts : List (Nat × Bool)) (tile : Option Tile) :
    (newFlock d core slot ctx r g ts tile).threads.map (·.t) = ts.map (·.1) := by
  unfold newFlock
  simp only [List.map_map]
  conv_rhs => rw [← List.zipIdx_map_fst 0 ts, List.map_map]
  rfl

/-- Every thread of a placed flock is as placed. -/
theorem newFlock_thread {d : Dev} {core slot ctx : Nat} {r : Run} {g : Nat} {ts : List (Nat × Bool)} {tile : Option Tile} {th : Thread}
    (h : th ∈ (newFlock d core slot ctx r g ts tile).threads) :
    ∃ t seed sr conv floor, th = newThread t r.kern.entry tile.isSome seed sr conv floor := by
  obtain ⟨⟨x, i⟩, -, rfl⟩ := List.mem_map.1 h
  exact ⟨_, _, _, _, _, rfl⟩

theorem newThread_srstate (t : Nat) (entry : W64) (intv : Bool) (seed : Nat) (sr : W32) (conv : Bool) (floor : Nat) :
    (newThread t entry intv seed sr conv floor).srstate ≠ 0 := by
  show (if sr = 0 then 1 else sr) ≠ 0
  split
  · decide
  · assumption

/-- R50: the flock that is due in its context's turn, alone in its herd. -/
theorem commit_placeNext_single {s : State} {ctx g core : Nat} {r : Run} (hspot : s.dev.nextSpot ctx = some (r, [(g, core)]))
    (hturn : s.dev.isTurn ctx = true) (hherd : r.kern.herd = 1) :
    commit (placeNext ctx false) s = commit (placeE core ctx r.num g ((r.spawn g).getD []) none)
      (s.device (fun d => { d with placeTurn := ctx })) := by
  unfold placeNext
  rw [commit_look]
  simp only [hspot, hturn, hherd]
  exact commit_andThen_of_next (commit_upd _ s)

/-- R51: the herd that is due in its context's turn. -/
theorem commit_placeNext_herd {s : State} {ctx : Nat} {r : Run} {ps : List (Nat × Nat)} (hspot : s.dev.nextSpot ctx = some (r, ps))
    (hturn : s.dev.isTurn ctx = true) (hherd : 1 < r.kern.herd) :
    commit (placeNext ctx true) s = commit (forE ps (fun p => placeE p.2 ctx r.num p.1 ((r.spawn p.1).getD []) none))
      (s.device (fun d => { d with placeTurn := ctx })) := by
  unfold placeNext
  rw [commit_look]
  simp only [hspot, hturn, hherd]
  exact commit_andThen_of_next (commit_upd _ s)

/-- What the placement of a flock for a run says of it, wherever it goes; `ts` are the threads of each index. -/
structure PlacedFor (ctx num : Nat) (k : Kern) (ts : Nat → List (Nat × Bool)) (f : Flock) : Prop where
  ctx : f.ctx = ctx
  run : f.run = num
  kern : f.kern = k
  committed : f.committed = !k.restart
  alive : f.dead = false
  hidx : f.hidx = f.g % k.herd
  threads : f.threads.map (·.t) = (ts f.g).map (·.1)

theorem newFlock_placedFor (d : Dev) (core slot ctx : Nat) (r : Run) (g : Nat) (ts : Nat → List (Nat × Bool)) :
    PlacedFor ctx r.num r.kern ts (newFlock d core slot ctx r g (ts g) none) :=
  ⟨rfl, rfl, rfl, by simp [newFlock], rfl, rfl, newFlock_threads ..⟩

/-- R51: flocks placed on distinct cores, one after another. -/
theorem commit_placeAll {ctx num : Nat} {k : Kern} (ts : Nat → List (Nat × Bool)) (ps : List (Nat × Nat)) {s : State} {r : Run}
    (hrun : s.dev.run? ctx num = some r) (hk : r.kern = k) (hcores : (ps.map (·.2)).Nodup)
    (hslots : ∀ p ∈ ps, (s.dev.freeSlot p.2).isSome = true) :
    ∃ t fs, commit (forE ps (fun p => placeE p.2 ctx num p.1 (ts p.1) none)) s = .next t ∧ t.mem = s.mem ∧
      t.dev.flocks = s.dev.flocks ++ fs ∧
      fs.map (fun f => (f.g, f.core, some f.slot)) = ps.map (fun p => (p.1, p.2, s.dev.freeSlot p.2)) ∧
      ∀ f ∈ fs, PlacedFor ctx num k ts f := by
  induction ps generalizing s r with
  | nil => exact ⟨s, [], rfl, rfl, by simp, rfl, by simp⟩
  | cons p ps ih =>
    obtain rfl := Dev.run?_num hrun
    obtain ⟨slot, hslot⟩ := Option.isSome_iff_exists.1 (hslots p (by simp))
    obtain ⟨hp, hps⟩ : p.2 ∉ ps.map (·.2) ∧ (ps.map (·.2)).Nodup := List.nodup_cons.1 hcores
    have hother : ∀ q ∈ ps, (s.placed p.2 slot ctx r p.1 (ts p.1)).dev.freeSlot q.2 = s.dev.freeSlot q.2 := fun q hq =>
      placed_freeSlot fun h => hp (h ▸ List.mem_map_of_mem hq)
    obtain ⟨r', hrun', hk'⟩ := placed_run (core := p.2) (slot := slot) (g := p.1) (ts := ts p.1) hrun
    obtain ⟨t, fs, hcommit, hmem, hflocks, hplaces, hfs⟩ := ih hrun' (hk'.trans hk) hps fun q hq => by
      rw [hother q hq]
      exact hslots q (by simp [hq])
    refine ⟨t, newFlock s.dev p.2 slot ctx r p.1 (ts p.1) none :: fs, ?_, hmem.trans placed_mem, ?_, ?_, fun f hf => ?_⟩
    · rw [commit_forE_cons, commit_placeE hrun hslot]
      exact hcommit
    · rw [hflocks, placed_flocks, List.append_assoc]
      rfl
    · rw [List.map_cons, List.map_cons, hplaces, hslot]
      congr 1
      exact List.map_congr_left fun q hq => by rw [hother q hq]
    · obtain rfl | hf := List.mem_cons.1 hf
      · exact hk ▸ newFlock_placedFor s.dev p.2 slot ctx r p.1 ts
      · exact hfs f hf

/-! ## After the bit of a completed flock -/

/-- A herd's last flock completes while flocks of its run remain. -/
theorem commit_completion {s : State} {core slot : Nat} {f : Flock} {r : Run} (hf : s.dev.flock? core slot = some f)
    (hmem : f ∈ s.dev.herdOf f) (hall : ∀ x ∈ s.dev.herdOf f, x.finished = true ∨ (x.core = core ∧ x.slot = slot))
    (hrun : s.dev.run? f.ctx f.run = some r) (hnew : f.g ∉ r.done) (hshort : r.done.length + 1 < r.count) :
    ∃ t, commit (completion core slot f) (s.device (fun d => d.modRun f.ctx f.run (Run.countDone f.g))) = .next t ∧
      t.mem = s.mem ∧ t.dev.flock? core slot = none ∧ (t.dev.run? f.ctx f.run).map (·.done) = some (r.done ++ [f.g]) := by
  obtain ⟨u, hu, hm, hnone, hctxs⟩ :=
    commit_herdFree (s := s.device (fun d => d.modRun f.ctx f.run (Run.countDone f.g))) hf hmem hall
  let last (r : Run) : Run := r.ended (dieOf core) (u.dev.die (dieOf core)).cycle
  have hcounted : r.countDone f.g = { r with done := r.done ++ [f.g] } := by
    simp [Run.countDone, hnew]
  have hrun_u : u.dev.run? f.ctx f.run = some (r.countDone f.g) := by
    rw [Dev.run?_congr hctxs]
    refine (Dev.run?_modRun _ _ _ (Run.countDone_num f.g)).trans ?_
    rw [hrun]
    rfl
  have hrun_t : (u.dev.modRun f.ctx f.run last).run? f.ctx f.run = some (last (r.countDone f.g)) := by
    rw [Dev.run?_modRun _ _ _ fun x => Run.ended_num x _ _, hrun_u]
    rfl
  have hdone : (last (r.countDone f.g)).done = r.done ++ [f.g] := by rw [Run.ended_done, hcounted]
  have hcount : (last (r.countDone f.g)).count = r.count := by rw [Run.ended_count, hcounted]; rfl
  refine ⟨u.device (fun d => d.modRun f.ctx f.run last), ?_, hm, hnone, ?_⟩
  · refine (commit_andThen_of_next hu).trans ((commit_andThen_of_next (commit_upd _ u)).trans ?_)
    exact commit_runEnd_short hrun_t (by rw [hdone, hcount]; simpa using hshort)
  · show ((u.dev.modRun f.ctx f.run last).run? f.ctx f.run).map _ = _
    rw [hrun_t, Option.map_some, hdone]

/-! ## The end of a run -/

/-- What the end of a run does for its node. -/
def Run.outcome (r : Run) (ctx : Nat) : Eff :=
  match r.node with
  | some i => if r.risk then skip else resolve ctx i .performed (fun _ => true)
  | none => skip

theorem Run.outcome_quiet {r : Run} {ctx : Nat} (h : r.node = none ∨ r.risk = true) : r.outcome ctx = skip := by
  unfold Run.outcome
  obtain h | h := h
  · rw [h]
  · cases r.node with
    | none => rfl
    | some i => simp [h]

theorem Run.outcome_node {r : Run} {ctx i : Nat} (hn : r.node = some i) (hr : r.risk = false) :
    r.outcome ctx = resolve ctx i .performed (fun _ => true) := by
  unfold Run.outcome
  simp [hn, hr]

/-- A part that a stopped graph walker leaves out. -/
theorem commit_ifWalking {s : State} {ctx : Nat} (h : s.dev.walking ctx = true) (e : Eff) :
    commit (look fun s => whenE (s.dev.walking ctx) e) s = commit e s := by
  rw [commit_look, h]
  rfl

/-- A run in element mode ends: CDONE first, then the run is complete, then its node. -/
theorem commit_runEnd_whole {s s1 : State} {ctx num : Nat} {r : Run} (hrun : s.dev.run? ctx num = some r)
    (hopen : r.complete = false) (hall : r.count ≤ r.done.length) (hbounds : r.bounds = none) (hwalk : s.dev.walking ctx = true)
    (hcdone : if r.cdone = 0 then s1 = s else writesWord s ctx r.cdone.toNat (leBytes 8 num) s1) (hwalk1 : s1.dev.walking ctx = true) :
    commit (runEnd ctx num) s =
      commit (r.outcome ctx) (s1.device (fun d => d.modRun ctx num (fun r => { r with complete := true }))) := by
  have hgo : ¬(r.complete = true ∨ r.done.length < r.count ∨ r.bounds.any (fun b => b.queue ≠ [] || b.running ≠ []) = true) := by
    simp [hopen, hbounds, hall]
  have hmark : commit (if r.cdone = 0 then skip else walkerWrite ctx (r.node.getD headerIdx) r.cdone.toNat (leBytes 8 num) skip) s =
      .next s1 := by
    by_cases h0 : r.cdone = 0
    · rw [if_pos h0] at hcdone ⊢
      rw [hcdone]
      rfl
    · rw [if_neg h0] at hcdone ⊢
      exact commit_walkerWrite hcdone _ _
  have hlast : (s1.device (fun d => d.modRun ctx num (fun r => { r with complete := true }))).dev.walking ctx = true :=
    (Dev.walking_modRun s1.dev ctx num _ ctx).trans hwalk1
  unfold runEnd
  rw [commit_look, hrun, commit_withE_some, if_neg hgo]
  simp only [hbounds]
  refine (commit_andThen_of_next (commit_forE_nil _ s)).trans ?_
  refine (commit_andThen_of_next ((commit_ifWalking hwalk _).trans hmark)).trans ?_
  refine (commit_andThen_of_next ((commit_ifWalking hwalk1 _).trans (commit_upd _ s1))).trans ?_
  exact commit_ifWalking hlast _

end Sys2Proof.Machine

open Sys2Proof Sys2Proof.Machine

/-- Settles O31: placement appends what `newFlock` gives; a completion is the bit, the count and the discard of the herd; an
abort is the discard, and the flock's index at the head of its run's queue. -/
theorem flockLife_result : Obligations.FlockLife_result := by
  unfold Obligations.FlockLife_result
  refine ⟨⟨?_, ?_⟩, ?_, ?_, ?_, ?_, ?_⟩
  · intro s ctx r g core slot hspot hturn hherd hrun hslot
    have hplace : exec (.flockPlace ctx) s = .next _ :=
      (commit_placeNext_single hspot hturn hherd).trans (commit_placeE (s := s.device (fun d => { d with placeTurn := ctx })) hrun hslot)
    refine ⟨_, _, hplace, placed_mem, placed_flocks, ⟨rfl, rfl, rfl, rfl, rfl, rfl⟩, ⟨rfl, rfl, rfl⟩, rfl, rfl, by simp [newFlock],
      rfl, newFlock_threads .., fun th hth => ?_, placed_spad⟩
    obtain ⟨t, seed, sr, conv, floor, rfl⟩ := newFlock_thread hth
    exact ⟨rfl, rfl, rfl, rfl, rfl, rfl, newThread_srstate _ _ _ _ _ _ _, rfl, rfl⟩
  · intro s ctx r ps hspot hturn hherd hrun hcores hslots
    obtain ⟨t, fs, hcommit, hmem, hflocks, hplaces, hfs⟩ := commit_placeAll (fun g => (r.spawn g).getD []) ps
      (s := s.device (fun d => { d with placeTurn := ctx })) hrun rfl hcores hslots
    refine ⟨t, fs, (commit_placeNext_herd hspot hturn hherd).trans hcommit, hmem, hflocks, hplaces, fun f hf => ?_⟩
    obtain ⟨hctx, hnum, hkern, hcommitted, halive, hidx, hthreads⟩ := hfs f hf
    exact ⟨hctx, hnum, hkern, hcommitted, halive, hidx, hthreads⟩
  · intro s core slot f r w s0 s1 r1 hf hdead hopen htile hended hstop hmat hcpy hrun a hread hwrite hf1 hrun1 hnew hshort hmem hall _
    have hc : Completes s core slot f := ⟨hf, hdead, hopen, htile, hended, hstop, hmat, hcpy⟩
    obtain ⟨t, ht, hrest⟩ := commit_completion (s := s1) hf1 hmem hall hrun1 hnew hshort
    exact ⟨t, (hc.exec.trans (commit_setBit hrun hread hwrite _)).trans ht, hrest⟩
  · intro s core slot f r w s0 s1 s2 hf hdead hopen htile hended hstop hmat hcpy hrun a hread hwrite hfree
    have hc : Completes s core slot f := ⟨hf, hdead, hopen, htile, hended, hstop, hmat, hcpy⟩
    rw [hc.exec, commit_setBit hrun hread hwrite]
    exact (commit_andThen_of_next hfree).trans (commit_andThen_of_next (commit_upd _ s2))
  · intro s ctx num r s1 hrun hopen hall hbounds hwalk hcdone hwalk1
    have hend := commit_runEnd_whole hrun hopen hall hbounds hwalk hcdone hwalk1
    refine ⟨fun hquiet => ?_, fun i hnode hrisk => ?_⟩
    · rw [hend, Run.outcome_quiet hquiet]
      rfl
    · rw [hend, Run.outcome_node hnode hrisk]
  · intro s core slot f r hf hdead hcommitted htile hidx hstate hlimit hherd hrun _
    exact flockAbort_drained hf hdead hcommitted htile hidx hstate hlimit hherd hrun
  · intro s core slot f hf hdead hreqs
    exact abortAllocFree_quiet hf hdead hreqs
end

section
/-! SUPPORT. A page walk whose write of A is lost: the leaf entry's granule is whole, and the other granule of its line in
DRAM, which the write would fill its slice with, is beyond correction (R92, R101, R377, R378). -/

namespace Sys2Proof.Machine

/-- Where the leaf entry of a placed instruction's page tables lies. -/
def leafAt : Nat := 0x12000

/-- The leaf entry is legal and gives W and X, with A and D clear; its page tables are those of context 0; a stored
fault lies in the granule of DRAM beside the entry's. -/
def besideState : State :=
  ((placeWord State.reset 0).applyWrites (memWrites leafAt (leBytes 8 0xF))).device (fun d =>
    { (d.modCtx 0 (fun c => { c with eff := { c.eff with ptroot := BitVec.ofNat 64 placeRoot } })) with
      marks := [(.dram (leafAt + 64), true)] })

theorem besideState_memOk : besideState.MemOk := rfl

theorem exec_pageWalk (core ctx va : Nat) (kind : AccKind) (s : State) :
    exec (.pageWalk core ctx va kind) s = commit (pageWalkE core ctx va kind) s := rfl

/-- The walk reads the entry alone, and finds the leaf. -/
theorem besideState_walk :
    walk besideState (besideState.dev.ctx 0).eff.vdev.toNat 0 4 (besideState.dev.ctx 0).eff.ptroot.toNat =
      .leaf 0xF leafAt 30 := by decide

/-- The write of A reads the whole line and is lost. -/
theorem besideState_after :
    (leNat ((besideState.apply (pageWalkE 0 0 0 .read besideState)).phys leafAt 1)).testBit 4 = false := by decide

end Sys2Proof.Machine

open Sys2Proof Sys2Proof.Machine

/-- Refutes O26: where a fault beyond correction lies in the other granule of the leaf entry's line, the walk finds the leaf,
the write of A reads the whole line to fill its slice, and the request completes without its write (R378). -/
theorem not_pageWalk_result : ¬ Obligations.PageWalk_result := by
  unfold Obligations.PageWalk_result
  intro h
  obtain ⟨t, ht, hA, -⟩ := h besideState 0 0 0 .read 0xF leafAt 30 besideState_memOk (by decide) (by decide) (by decide) rfl rfl
    rfl besideState_walk rfl
  rw [exec_pageWalk] at ht
  obtain ⟨-, rfl⟩ := commit_next.1 ht
  exact Bool.false_ne_true (besideState_after.symm.trans hA)
end

section
/-! SUPPORT. Where a generic address leads, aperture by aperture (R84-R88). -/

namespace Sys2Proof.Machine

/-! ## One law for each top byte -/

/-- The core and the slot of the flock that PEER and HFI name (R86). -/
def Dev.peerSlot (d : Dev) (f : Flock) (peer hfi : Nat) : Option (Nat × Nat) :=
  (d.peerFlock f peer hfi).map (fun x => (x.core, x.slot))

section
variable (d : Dev) (f : Flock) (t : Nat) (r : Reach) {a : Nat}

theorem steer_global (h : bits a 56 8 < 2) : steer d f t r a = .virt (bits a 0 57) := by
  have hcases : bits a 56 8 = 0 ∨ bits a 56 8 = 1 := by omega
  unfold steer
  obtain h0 | h1 := hcases
  · rw [h0]; rfl
  · rw [h1]; rfl

theorem steer_vault (h : bits a 56 8 = 0xFD) : steer d f t r a =
    let v := if bits a 23 7 = 64 then clusterOf f.core else bits a 23 7
    if r.vault = false ∨ bits a 30 26 ≠ 0 ∨ 64 < bits a 23 7 ∨ f.regs.vwsize.toNat ≤ bits a 0 23 ∨
        directSize (d.vault v).split ≤ f.regs.vwbase.toNat + bits a 0 23 then .bad cAPERTURE
    else .place (.vault v (f.regs.vwbase.toNat + bits a 0 23)) := by
  unfold steer
  rw [h]
  rfl

theorem steer_stack (h : bits a 56 8 = 0xFE) : steer d f t r a =
    if r.stack = false ∨ bits a 14 42 ≠ 0 ∨ f.kern.stk ≤ bits a 0 14 then .bad cAPERTURE
    else .virt ((f.regs.stkbase.toNat + (f.sigma.getD 0 * 1024 + t) * f.kern.stk + bits a 0 14) % 2 ^ 57) := by
  unfold steer
  rw [h]
  rfl

theorem steer_spad (h : bits a 56 8 = 0xFF) : steer d f t r a =
    if r.spad = false ∨ bits a 27 29 ≠ 0 ∨ bits a 21 3 ≠ 0 ∨ f.kern.spadBytes ≤ bits a 0 21 then .bad cAPERTURE
    else
      match d.peerSlot f (bits a 26 1) (bits a 24 2) with
      | some x => .place (.spad x.1 x.2 (bits a 0 21))
      | none => .bad cAPERTURE := by
  unfold steer Dev.peerSlot
  rw [h]
  cases d.peerFlock f (bits a 26 1) (bits a 24 2) <;> rfl

theorem steer_none (hlo : 2 ≤ bits a 56 8) (hhi : bits a 56 8 < 0xFD) : steer d f t r a = .bad cAPERTURE := by
  unfold steer
  split
  case h_6 => rfl
  all_goals omega

theorem Dev.peerSlot_own : d.peerSlot f 0 0 = some (f.core, f.slot) := rfl

theorem Dev.peerSlot_herd (hfi : Nat) : d.peerSlot f 1 hfi =
    ((d.herdOf f).find? (fun x => x.hidx = hfi)).map (fun x => (x.core, x.slot)) := rfl

/-- Without PEER, HFI is a field that must be zero (R86). -/
theorem Dev.peerSlot_zero {hfi : Nat} (h : hfi ≠ 0) : d.peerSlot f 0 hfi = none := by
  simp [Dev.peerSlot, Dev.peerFlock, h]

end

/-! ## Addresses put together of their fields -/

section
variable (d : Dev) (f : Flock) (t : Nat) (r : Reach)

theorem steer_virt_of_lt {a : Nat} (h : a < 2 ^ 57) : steer d f t r a = .virt a := by
  have htop : bits a 56 8 < 2 := by simp only [bits, Nat.shiftRight_eq_div_pow]; omega
  have hlow : bits a 0 57 = a := by simp only [bits, Nat.shiftRight_zero]; omega
  rw [steer_global d f t r htop, hlow]

theorem steer_vault_fields {vs off : Nat} (hv : vs < 128) (ho : off < 2 ^ 23) :
    let v := if vs = 64 then f.core / 4 else vs
    steer d f t r (0xFD * 2 ^ 56 + vs * 2 ^ 23 + off) =
      if r.vault = true ∧ vs ≤ 64 ∧ off < f.regs.vwsize.toNat ∧ f.regs.vwbase.toNat + off < directSize (d.vault v).split
      then .place (.vault v (f.regs.vwbase.toNat + off)) else .bad 6 := by
  have hbits : bits (0xFD * 2 ^ 56 + vs * 2 ^ 23 + off) 56 8 = 0xFD ∧ bits (0xFD * 2 ^ 56 + vs * 2 ^ 23 + off) 23 7 = vs ∧
      bits (0xFD * 2 ^ 56 + vs * 2 ^ 23 + off) 30 26 = 0 ∧ bits (0xFD * 2 ^ 56 + vs * 2 ^ 23 + off) 0 23 = off := by
    simp only [bits, Nat.shiftRight_eq_div_pow]
    omega
  obtain ⟨htop, hsel, hzero, hoff⟩ := hbits
  intro v
  rw [steer_vault d f t r htop, hsel, hzero, hoff, ← ite_not]
  refine if_congr ?_ rfl rfl
  simp only [clusterOf, ne_eq, not_true, false_or, not_or, not_lt, not_le, Bool.not_eq_false, v]

theorem steer_stack_fields {off : Nat} (ho : off < 2 ^ 14) : steer d f t r (0xFE * 2 ^ 56 + off) =
    if r.stack = true ∧ off < f.kern.stk
    then .virt ((f.regs.stkbase.toNat + (f.sigma.getD 0 * 1024 + t) * f.kern.stk + off) % 2 ^ 57) else .bad 6 := by
  have hbits : bits (0xFE * 2 ^ 56 + off) 56 8 = 0xFE ∧ bits (0xFE * 2 ^ 56 + off) 14 42 = 0 ∧
      bits (0xFE * 2 ^ 56 + off) 0 14 = off := by
    simp only [bits, Nat.shiftRight_eq_div_pow]
    omega
  obtain ⟨htop, hzero, hoff⟩ := hbits
  rw [steer_stack d f t r htop, hzero, hoff, ← ite_not]
  refine if_congr ?_ rfl rfl
  simp only [ne_eq, not_true, false_or, not_or, not_le, Bool.not_eq_false]

/-- A scratchpad address with its zero fields zero. -/
theorem steer_spad_fields {peer hfi off : Nat} (hp : peer < 2) (hh : hfi < 4) (ho : off < 2 ^ 21) :
    steer d f t r (0xFF * 2 ^ 56 + peer * 2 ^ 26 + hfi * 2 ^ 24 + off) =
      if r.spad = true ∧ off < f.kern.spadBytes then
        match d.peerSlot f peer hfi with
        | some x => .place (.spad x.1 x.2 off)
        | none => .bad 6
      else .bad 6 := by
  have hbits : bits (0xFF * 2 ^ 56 + peer * 2 ^ 26 + hfi * 2 ^ 24 + off) 56 8 = 0xFF ∧
      bits (0xFF * 2 ^ 56 + peer * 2 ^ 26 + hfi * 2 ^ 24 + off) 27 29 = 0 ∧
      bits (0xFF * 2 ^ 56 + peer * 2 ^ 26 + hfi * 2 ^ 24 + off) 21 3 = 0 ∧
      bits (0xFF * 2 ^ 56 + peer * 2 ^ 26 + hfi * 2 ^ 24 + off) 26 1 = peer ∧
      bits (0xFF * 2 ^ 56 + peer * 2 ^ 26 + hfi * 2 ^ 24 + off) 24 2 = hfi ∧
      bits (0xFF * 2 ^ 56 + peer * 2 ^ 26 + hfi * 2 ^ 24 + off) 0 21 = off := by
    simp only [bits, Nat.shiftRight_eq_div_pow]
    omega
  obtain ⟨htop, hzero, hzero', hpeer, hhfi, hoff⟩ := hbits
  rw [steer_spad d f t r htop, hzero, hzero', hpeer, hhfi, hoff, ← ite_not]
  refine if_congr ?_ rfl rfl
  simp only [ne_eq, not_true, false_or, not_or, not_le, Bool.not_eq_false]

/-- A field beyond the address that must be zero is not, or the top byte names no aperture (R84, R86-R88). -/
theorem steer_bad {a : Nat} (h64 : a < 2 ^ 64) (h57 : 2 ^ 57 ≤ a)
    (h : a / 2 ^ 56 < 0xFD ∨ (a / 2 ^ 56 = 0xFD ∧ a / 2 ^ 30 % 2 ^ 26 ≠ 0) ∨ (a / 2 ^ 56 = 0xFE ∧ a / 2 ^ 14 % 2 ^ 42 ≠ 0) ∨
      (a / 2 ^ 56 = 0xFF ∧ (a / 2 ^ 27 % 2 ^ 29 ≠ 0 ∨ a / 2 ^ 21 % 8 ≠ 0 ∨ (a / 2 ^ 26 % 2 = 0 ∧ a / 2 ^ 24 % 4 ≠ 0)))) :
    steer d f t r a = .bad 6 := by
  have htop : bits a 56 8 = a / 2 ^ 56 := by simp only [bits, Nat.shiftRight_eq_div_pow]; omega
  have hfield : ∀ l n, bits a l n = a / 2 ^ l % 2 ^ n := fun l n => by rw [bits, Nat.shiftRight_eq_div_pow]
  obtain h | ⟨h, hzero⟩ | ⟨h, hzero⟩ | ⟨h, hzero⟩ := h
  · exact steer_none d f t r (by omega) (by omega)
  · rw [steer_vault d f t r (htop.trans h)]
    exact if_pos (.inr (.inl (by rwa [hfield])))
  · rw [steer_stack d f t r (htop.trans h)]
    exact if_pos (.inr (.inl (by rwa [hfield])))
  · rw [steer_spad d f t r (htop.trans h)]
    obtain hz | hz | ⟨hpeer, hhfi⟩ := hzero
    · exact if_pos (.inr (.inl (by rwa [hfield])))
    · exact if_pos (.inr (.inr (.inl (by rwa [hfield]))))
    · have hp : bits a 26 1 = 0 := by rwa [hfield]
      have hh : bits a 24 2 ≠ 0 := by rwa [hfield]
      rw [hp, Dev.peerSlot_zero d f hh]
      exact ite_self _

end

end Sys2Proof.Machine
end

section
/-! SUPPORT. A word whose turn depends on the flocks of the device: other members change their own threads alone, so that every
flock is, but for threads, as at the issue; and an access that a trap ends (R84-R93, R403). -/

namespace Sys2Proof.Machine

/-! ## Flocks but for their threads -/

/-- A flock without its threads and the thread of its access slice. -/
def Flock.bare (f : Flock) : Flock := { f with threads := [], inst := none }

/-- The flocks of two devices agree but for their threads. -/
def Dev.Alike (d e : Dev) : Prop := e.flocks.map Flock.bare = d.flocks.map Flock.bare

theorem Flock.Like.bare {f f' : Flock} (h : f.Like f') : f'.bare = f.bare := by
  obtain ⟨ths, inst, rfl⟩ := h
  rfl

theorem Dev.alike_modThread (d : Dev) (r : TRef) (k : Thread → Thread) : d.Alike (d.modThread r k) := by
  unfold Dev.Alike Dev.modThread Dev.modFlock
  rw [List.map_map]
  refine List.map_congr_left fun f _ => ?_
  simp only [Function.comp_apply]
  split
  · exact (Flock.modThread_like f r.t k).bare
  · rfl

/-- Every flock of the herd but for threads. -/
theorem Dev.herdOf_alike {d e : Dev} {f f' : Flock} (h : d.Alike e) (hf : f'.bare = f.bare) :
    (e.herdOf f').map Flock.bare = (d.herdOf f).map Flock.bare := by
  have hmap : ∀ (l : List Flock) (g : Flock),
      (l.filter (fun x => x.ctx = g.ctx ∧ x.run = g.run ∧ x.herd = g.herd ∧ x.tile = g.tile ∧ !x.dead)).map Flock.bare =
        (l.map Flock.bare).filter (fun x => x.ctx = g.bare.ctx ∧ x.run = g.bare.run ∧ x.herd = g.bare.herd ∧
          x.tile = g.bare.tile ∧ !x.dead) := fun l g => by
    rw [List.filter_map]
    rfl
  rw [Dev.herdOf, Dev.herdOf, hmap, hmap, hf, h]

theorem Dev.peerSlot_alike {d e : Dev} {f f' : Flock} (h : d.Alike e) (hf : f'.bare = f.bare) (peer hfi : Nat) :
    e.peerSlot f' peer hfi = d.peerSlot f peer hfi := by
  have hfind : ∀ l : List Flock, (l.find? (fun x => x.hidx = hfi)).map (fun x => (x.core, x.slot)) =
      ((l.map Flock.bare).find? (fun x => x.hidx = hfi)).map (fun x => (x.core, x.slot)) := fun l => by
    rw [List.find?_map, Option.map_map]
    rfl
  have hcore : f'.core = f.core := (congrArg Flock.core hf :)
  have hslot : f'.slot = f.slot := (congrArg Flock.slot hf :)
  unfold Dev.peerSlot Dev.peerFlock
  split
  · split
    · simp [hcore, hslot]
    · rfl
  · rw [hfind (e.herdOf f'), hfind (d.herdOf f), Dev.herdOf_alike h hf]

/-- Where an address leads does not depend on threads. -/
theorem steer_alike {d e : Dev} {f f' : Flock} (h : d.Alike e) (hf : f'.bare = f.bare) (hv : e.vaults = d.vaults) (t : Nat)
    (r : Reach) (a : Nat) : steer e f' t r a = steer d f t r a := by
  have hvault : ∀ v, e.vault v = d.vault v := fun v => congrArg (fun l : List Vault => l[v]?.getD .reset) hv
  have hcore : f'.core = f.core := (congrArg Flock.core hf :)
  have hregs : f'.regs = f.regs := (congrArg Flock.regs hf :)
  have hkern : f'.kern = f.kern := (congrArg Flock.kern hf :)
  have hsigma : f'.sigma = f.sigma := (congrArg Flock.sigma hf :)
  have hlt : bits a 56 8 < 2 ^ 8 := Nat.mod_lt _ (by decide)
  by_cases hglobal : bits a 56 8 < 2
  · rw [steer_global e f' t r hglobal, steer_global d f t r hglobal]
  by_cases hnone : bits a 56 8 < 0xFD
  · rw [steer_none e f' t r (by omega) hnone, steer_none d f t r (by omega) hnone]
  by_cases hvlt : bits a 56 8 = 0xFD
  · rw [steer_vault e f' t r hvlt, steer_vault d f t r hvlt, hcore, hregs]
    simp only [hvault]
  by_cases hstack : bits a 56 8 = 0xFE
  · rw [steer_stack e f' t r hstack, steer_stack d f t r hstack, hregs, hkern, hsigma]
  · have hspad : bits a 56 8 = 0xFF := by omega
    rw [steer_spad e f' t r hspad, steer_spad d f t r hspad, hkern, Dev.peerSlot_alike h hf]

/-- A walk does not look at the flocks. -/
theorem walk_flocks (s : State) (g : Option Group) (fl : List Flock) (vdev va lvl base : Nat) :
    walk { s with dev := { s.dev with issuing := g, flocks := fl } } vdev va lvl base = walk s vdev va lvl base := by
  have hphys : ∀ a n, State.phys { s with dev := { s.dev with issuing := g, flocks := fl } } a n = s.phys a n := fun _ _ => rfl
  have hbad : ∀ l n, Dev.eccBad { s.dev with issuing := g, flocks := fl } l n = s.dev.eccBad l n := fun _ _ => rfl
  have hleaf : ∀ l e, leafOk { s.dev with issuing := g, flocks := fl } vdev l e = leafOk s.dev vdev l e := fun _ _ => rfl
  induction lvl generalizing base with
  | zero =>
    unfold walk
    simp only [hphys, hbad, hleaf]
  | succ n ih =>
    unfold walk
    simp only [hphys, hbad, hleaf, ih]

/-- Nor does a translation. -/
theorem xlat_flocks (s : State) (g : Option Group) (fl : List Flock) (core : Option Nat) (ctx : Nat) (ptroot : W64) (va : Nat)
    (kind : AccKind) :
    xlat { s with dev := { s.dev with issuing := g, flocks := fl } } core ctx ptroot va kind = xlat s core ctx ptroot va kind := by
  unfold xlat xlatWalk
  simp only [walk_flocks]
  rfl

/-! ## The group -/

/-- A meaning whose turn, for a member that meets `P`, changes that member by `k` and nothing else, wherever the flocks are as at
the issue but for their threads. -/
def ChangesAlike (m : Meaning) (s : State) (g : Group) (major : Nat) (b : Body) (row : Row) (P : Env → Prop)
    (k : Env → Thread → Thread) : Prop :=
  ∀ v : Env, Turned s g major b row v → s.dev.Alike v.s.dev → P (envAt s g major b row v.r v.f0 v.th) →
    commit (stepMember m v) v.s =
      .next { v.s with dev := v.s.dev.modThread v.r (k (envAt s g major b row v.r v.f0 v.th)) }

/-- The turns of some members that still stand as at the issue, the flocks being as then but for their threads. -/
theorem turns_alike {s : State} {g : Group} {major : Nat} {b : Body} {row : Row} {m : Meaning} {P : Env → Prop}
    {k : Env → Thread → Thread} (h : AllMeet s g major b row P) (hk : ∀ v x, (k v x).t = x.t)
    (hm : ChangesAlike m s g major b row P k) (ms : List TRef) (hnd : ms.Nodup) (hin : ∀ r ∈ ms, r ∈ g.members) (fl : List Flock)
    (hfl : s.dev.Alike { s.dev with issuing := none, flocks := fl })
    (hmem : ∀ r ∈ ms, ∃ f0 th f, memberOf s g r = some (f0, th) ∧ f0.Like f ∧
      memberOf { s with dev := { s.dev with issuing := none, flocks := fl } } g r = some (f, th)) :
    commit (forE ms (turnOf s g major b row m)) { s with dev := { s.dev with issuing := none, flocks := fl } } =
      .next { s with
        dev := ms.foldl (memberChange s g (fun r f th => k (envAt s g major b row r f th)))
          { s.dev with issuing := none, flocks := fl } } := by
  induction ms generalizing fl with
  | nil => rfl
  | cons r ms ih =>
    obtain ⟨hnot, hrest⟩ := List.nodup_cons.1 hnd
    obtain ⟨f0, th, f, h0, hlike, h1⟩ := hmem r (by simp)
    obtain ⟨f', th', hp, hP⟩ := h.each r (hin r (by simp))
    obtain ⟨rfl, rfl⟩ : f' = f0 ∧ th' = th := by simpa using hp.symm.trans h0
    have hone : commit (turnOf s g major b row m r) { s with dev := { s.dev with issuing := none, flocks := fl } } =
        .next { s with dev :=
          Dev.modThread { s.dev with issuing := none, flocks := fl } r (k (envAt s g major b row r f' th')) } := by
      unfold turnOf
      rw [commit_look]
      simp only [h0, h1, commit_withE_some]
      exact hm ⟨_, s, f', r, f, th', major, b, row, g⟩
        ⟨rfl, rfl, rfl, rfl, rfl, hlike, ⟨fl, rfl⟩, hin r (by simp), h0, h1⟩ hfl hP
    rw [commit_forE_cons, hone]
    refine (ih hrest (fun x hx => hin x (by simp [hx])) _ (Eq.trans (Dev.alike_modThread _ r _) hfl) fun x hx => ?_).trans ?_
    · obtain ⟨a, t, c, e1, e2, e3⟩ := hmem x (by simp [hx])
      have hne : r ≠ x := fun he => hnot (he ▸ hx)
      obtain ⟨c', e4, e5⟩ := memberOf_modThread hne (k (envAt s g major b row r f' th')) (hk _) e3
      exact ⟨a, t, c', e1, e2.trans e4, e5⟩
    · rw [List.foldl_cons, memberChange, h0]
      rfl

/-- From one member's turn to the group, where the turn depends on other flocks. -/
theorem changesIf_of_alike {i : Instr} {major : Nat} {b : Body} {P : Env → Prop} {k : Env → Thread → Thread} {m : Meaning}
    (he : ∀ s, exec i s = commit (issue major b m) s) (hk : ∀ v x, (k v x).t = x.t)
    (hm : ∀ s g row, ChangesAlike m s g major b row P k) : ChangesIf i major b P k := by
  intro s g row h
  rw [he, issue_chosen m h.chosen h.word]
  refine turns_alike h hk (hm s g row) g.members h.distinct (fun _ hr => hr) s.dev.flocks rfl fun r hr => ?_
  obtain ⟨f, th, hp, -⟩ := h.each r hr
  exact ⟨f, th, f, hp, Flock.Like.refl f, hp⟩

/-! ## Accesses that take a trap (R403) -/

/-- The access of a word ends in the trap of this code: no aperture, or misaligned, or not permitted by its page. -/
def Env.accessTrap (v : Env) (kind : AccKind) (n code : Nat) : Prop :=
  match steer v.s.dev v.f v.r.t allAp v.addr.toNat with
  | .bad _ => code = 6
  | .place _ => v.addr.toNat % n ≠ 0 ∧ code = 7
  | .virt va => (v.addr.toNat % n ≠ 0 ∧ code = 7) ∨ (v.addr.toNat % n = 0 ∧ code = 8 ∧
      (xlat v.s (some v.r.core) v.f.ctx v.f.regs.ptroot va kind = .perm ∨
        xlat v.s (some v.r.core) v.f.ctx v.f.regs.ptroot va kind = .denied))

theorem Gen.code_of_ite {p : Prop} [Decidable p] {x : Gen} {k c : Nat} (hx : ∀ c, x = .bad c → c = k)
    (h : (if p then .bad k else x) = .bad c) : c = k := by
  by_cases hp : p
  · rw [if_pos hp] at h
    exact (Gen.bad.inj h).symm
  · rw [if_neg hp] at h
    exact hx c h

/-- Every illegal use has the code of APERTURE. -/
theorem steer_code (d : Dev) (f : Flock) (t : Nat) (r : Reach) (a c : Nat) (h : steer d f t r a = .bad c) : c = cAPERTURE := by
  have hlt : bits a 56 8 < 2 ^ 8 := Nat.mod_lt _ (by decide)
  by_cases hglobal : bits a 56 8 < 2
  · rw [steer_global d f t r hglobal] at h
    cases h
  by_cases hnone : bits a 56 8 < 0xFD
  · rw [steer_none d f t r (by omega) hnone] at h
    exact (Gen.bad.inj h).symm
  by_cases hvault : bits a 56 8 = 0xFD
  · rw [steer_vault d f t r hvault] at h
    exact Gen.code_of_ite (fun _ hc => by cases hc) h
  by_cases hstack : bits a 56 8 = 0xFE
  · rw [steer_stack d f t r hstack] at h
    exact Gen.code_of_ite (fun _ hc => by cases hc) h
  · rw [steer_spad d f t r (by omega : bits a 56 8 = 0xFF)] at h
    refine Gen.code_of_ite (fun c h => ?_) h
    split at h
    · cases h
    · exact (Gen.bad.inj h).symm

/-- An access of a thread that is no helper, of every aperture, ends in its trap. -/
theorem Env.reach_trap {v : Env} {kind : AccKind} {n dn code : Nat} (hh : v.th.helper = false) (h : v.accessTrap kind n code) :
    v.reach allAp kind v.addr n dn = .ends (.trap code 0 v.addr) := by
  have htrap : ∀ c, v.addrTrap dn c 0 v.addr = .trap c 0 v.addr := fun c => by simp [Env.addrTrap, hh]
  unfold Env.accessTrap at h
  unfold Env.reach
  cases hsteer : steer v.s.dev v.f v.r.t allAp v.addr.toNat with
  | bad c =>
    simp only [hsteer] at h ⊢
    rw [htrap, h, steer_code _ _ _ _ _ _ hsteer]
  | place l =>
    simp only [hsteer] at h ⊢
    rw [htrap, h.2]
    exact if_pos h.1
  | virt va =>
    simp only [hsteer, htrap] at h ⊢
    obtain ⟨hal, rfl⟩ | ⟨hal, rfl, hperm | hdenied⟩ := h
    · exact if_pos hal
    · simp only [hal, hperm, ne_eq, not_true, if_false]
    · simp only [hal, hdenied, ne_eq, not_true, if_false]

/-- The trap of an access is the same at the member's turn as at the issue. -/
theorem Env.accessTrap_turn {u : Env} {fl : List Flock} {ths : List Thread} {inst : Option Thread} {kind : AccKind} {n code : Nat}
    (hal : u.s.dev.Alike (u.turn fl ths inst).s.dev) (h : u.accessTrap kind n code) :
    (u.turn fl ths inst).accessTrap kind n code := by
  have hsteer := steer_alike hal (f := u.f) (f' := (u.turn fl ths inst).f) rfl rfl u.r.t allAp u.addr.toNat
  have hxlat : ∀ va, xlat (u.turn fl ths inst).s (some u.r.core) u.f.ctx u.f.regs.ptroot va kind =
      xlat u.s (some u.r.core) u.f.ctx u.f.regs.ptroot va kind := fun va => xlat_flocks u.s none fl _ _ _ va kind
  unfold Env.accessTrap at h ⊢
  rw [show steer (u.turn fl ths inst).s.dev (u.turn fl ths inst).f (u.turn fl ths inst).r.t allAp (u.turn fl ths inst).addr.toNat =
    steer u.s.dev u.f u.r.t allAp u.addr.toNat from hsteer]
  cases hs : steer u.s.dev u.f u.r.t allAp u.addr.toNat with
  | bad c => simpa only [hs] using h
  | place l =>
    simp only [hs] at h
    exact h
  | virt va =>
    simp only [hs] at h ⊢
    rw [show xlat (u.turn fl ths inst).s (some (u.turn fl ths inst).r.core) (u.turn fl ths inst).f.ctx
      (u.turn fl ths inst).f.regs.ptroot va kind = _ from hxlat va]
    exact h

/-- A word of one access traps each member whose access ends so. -/
theorem changesWhen_accessTrap {i : Instr} {w : MWord} {major : Nat} {m : Meaning} {kind : AccKind} {dn : Nat}
    {D : Env → Loc → Bool → Eff → Res}
    (code : Nat) (hq : major ≠ 0xB4) (he : ∀ s, exec i s = commit (issue major (.m w) m) s)
    (hm : ∀ v : Env, v.b = .m w → v.th.intv = false → m v =
      match v.reach allAp kind v.addr (memBytes w.h.var) dn with
      | .ends r => r
      | .at_ loc nc pre => D v loc nc pre) :
    ChangesWhen i major (.m w) false
      (fun v => v.th.helper = false ∧ v.delivers ∧ v.accessTrap kind (memBytes w.h.var) code)
      (trapped code 0 (fun v => v.addr)) := by
  refine changesIf_of_alike he (fun _ _ => rfl) fun s g row v hv hal hP => ?_
  obtain ⟨fl, ths, inst, e⟩ := hv.eq
  have hnow := hv.now
  obtain ⟨hp, hi, hh, hd, htrap⟩ := hP
  rw [e] at hal hnow ⊢
  generalize hu : envAt s g major (.m w) row v.r v.f0 v.th = u at *
  have hreach := Env.reach_trap (dn := dn) (v := u.turn fl ths inst) hh
    (Env.accessTrap_turn (by rw [← hu] at hal ⊢; exact hal) htrap)
  have hmean : m (u.turn fl ths inst) = .trap code 0 u.addr := by
    rw [hm (u.turn fl ths inst) (by rw [← hu]; rfl) hi, hreach]
    rfl
  rw [stepMember_performs m (by rw [← hu]; rfl) hp (stays_like (by rw [← hu]; exact hq)), hmean]
  have hback : envAt s g major (.m w) row (u.turn fl ths inst).r (u.turn fl ths inst).f0 (u.turn fl ths inst).th = u := by
    rw [← e]
    exact hu
  rw [hback]
  exact commit_trapHere_turn code 0 u.addr hi hd hnow

/-- A thread that is no interval thread reaches every aperture. -/
theorem Env.anyAp_element {v : Env} (h : v.th.intv = false) : v.anyAp = allAp := by
  simp [Env.anyAp, allAp, h]

end Sys2Proof.Machine

open Sys2Proof Sys2Proof.Machine

/-- Settles O50: one law of steering for each top byte, and the turn of a member whose access takes its trap. -/
theorem apertures_result : Obligations.Apertures_result := by
  unfold Obligations.Apertures_result
  refine ⟨fun d f t r a h => steer_virt_of_lt d f t r h, fun d f t r vs off hv ho => steer_vault_fields d f t r hv ho,
    fun d f t r off ho => steer_stack_fields d f t r ho, fun d f t r off ho => ?_, fun d f t r hfi off hh ho => ?_,
    fun d f t r a h64 h57 h => steer_bad d f t r h64 h57 h, fun w major i hi code => ?_⟩
  · have hspad := steer_spad_fields d f t r (peer := 0) (hfi := 0) (by decide) (by decide) ho
    rw [Nat.zero_mul, Nat.zero_mul, Nat.add_zero, Dev.peerSlot_own] at hspad
    exact hspad
  · have hspad := steer_spad_fields d f t r (peer := 1) (by decide) hh ho
    rw [Nat.one_mul, Dev.peerSlot_herd] at hspad
    rw [hspad]
    cases (d.herdOf f).find? (fun x => x.hidx = hfi) <;> rfl
  · simp only [List.mem_cons, List.not_mem_nil, or_false, Prod.mk.injEq] at hi
    obtain ⟨rfl, rfl⟩ | ⟨rfl, rfl⟩ := hi
    · refine changesWhen_accessTrap (kind := .read) (dn := memRegs w.h.var) (m := mLd) code (by decide) (fun _ => rfl)
        (D := fun v loc nc pre => .done (pre.andThen (v.sendLoad (.ld v.h.var) loc nc (memBytes v.h.var)))) fun v hb hint => ?_
      simp only [mLd, both, hint, Env.load, Env.anyAp_element hint, Env.h, hb, Body.h]
      rfl
    · refine changesWhen_accessTrap (kind := .write) (dn := 0) (m := mSt) code (by decide) (fun _ => rfl)
        (D := fun v loc nc pre => .done (pre.andThen (v.sendStore .st loc nc (memBytes v.h.var) (v.storeData (memBytes v.h.var)))))
        fun v hb hint => ?_
      simp only [mSt, both, hint, Env.store, Env.anyAp_element hint, Env.h, hb, Body.h]
      rfl
end

section
/-! SUPPORT. A slice that is emptied when its SPLIT changes (R97, R99), and the copy of a page by a slice move (R332). -/

namespace Sys2Proof.Machine

/-! ## One operation over a list -/

theorem commit_forE_cons_next {α : Type} {x : α} {l : List α} {f : α → Eff} {s t : State} :
    commit (forE (x :: l) f) s = .next t ↔ ∃ u, commit (f x) s = .next u ∧ commit (forE l f) u = .next t := by
  rw [commit_forE_cons]
  cases commit (f x) s <;> simp

theorem commit_forE_append {α : Type} (l m : List α) (f : α → Eff) {s u : State} (h : commit (forE l f) s = .next u) :
    commit (forE (l ++ m) f) s = commit (forE m f) u := by
  induction l generalizing s with
  | nil => cases h; rfl
  | cons x l ih =>
    obtain ⟨v, hx, hl⟩ := commit_forE_cons_next.1 h
    rw [List.cons_append, commit_forE_cons, hx]
    exact ih hl

/-- Operations that each change nothing in a state. -/
theorem commit_forE_same {α : Type} {l : List α} {f : α → Eff} {s : State} (h : ∀ x ∈ l, commit (f x) s = .next s) :
    commit (forE l f) s = .next s := by
  induction l with
  | nil => rfl
  | cons x l ih => exact commit_forE_cons_next.2 ⟨s, h x (by simp), ih fun y hy => h y (by simp [hy])⟩

/-! ## A thread that goes on -/

theorem Flock.thread?_modThread (f : Flock) (t : Nat) (k : Thread → Thread) (hk : ∀ x, (k x).t = x.t) :
    (f.modThread t k).thread? t = (f.thread? t).map k := by
  unfold Flock.modThread Flock.thread?
  by_cases h : t = instId
  · simp [h]
  · simp only [h, if_false]
    rw [find?_map_keep _ _ (fun x => if x.t = t then k x else x)]
    · cases hf : f.threads.find? (fun x => decide (x.t = t)) with
      | none => rfl
      | some y =>
        have hy : y.t = t := by simpa using List.find?_some hf
        simp [hy]
    · intro x
      by_cases hx : x.t = t <;> simp [hx, hk]

theorem Dev.thread?_modThread (d : Dev) (r : TRef) (k : Thread → Thread) (hk : ∀ x, (k x).t = x.t) :
    (d.modThread r k).thread? r = (d.thread? r).map k := by
  rw [Dev.thread?, Dev.modThread_flock?, Dev.thread?]
  cases hf : d.flock? r.core r.slot with
  | none => rfl
  | some f =>
    have hat : f.core = r.core ∧ f.slot = r.slot := by simpa [Dev.flock?] using List.find?_some hf
    rw [Option.map_some, if_pos hat]
    exact Flock.thread?_modThread f r.t k hk

/-! ## Lines that leave a slice -/

theorem Dev.vault_congr {d e : Dev} (h : SameVaults d e) (v : Nat) : e.vault v = d.vault v :=
  congrArg (fun l : List Vault => l[v]?.getD .reset) h

theorem Dev.vault_outside {d : Dev} {v : Nat} (h : ¬v < d.vaults.length) : d.vault v = .reset := by
  rw [Dev.vault, List.getElem?_eq_none (by omega)]
  rfl

theorem Dev.modVault_outside {d : Dev} {v : Nat} (g : Vault → Vault) (h : ¬v < d.vaults.length) : d.modVault v g = d := by
  rw [Dev.modVault, List.modify_eq_self (by omega)]

/-- A vault by number after a change that leaves a reset vault as it is. -/
theorem Dev.vault_modVault (d : Dev) (n v : Nat) (g : Vault → Vault) (hg : g .reset = .reset) :
    (d.modVault n g).vault v = if n = v then g (d.vault v) else d.vault v := by
  by_cases hv : n = v
  · rw [if_pos hv, hv]
    by_cases hl : v < d.vaults.length
    · exact Dev.vault_modVault_same d _ hl
    · rw [Dev.modVault_outside g hl, Dev.vault_outside hl, hg]
  · rw [if_neg hv, Dev.vault_modVault_other d _ hv]

/-- A slice without a line is as before. -/
theorem Dev.vault_dropLine (d : Dev) (ln v : Nat) :
    (d.dropLine ln).vault v = if homeOf (ln * 128) = v then (d.vault v).delLine ln else d.vault v :=
  Dev.vault_modVault d (homeOf (ln * 128)) v (fun x => x.delLine ln) rfl

/-- A slice has kept its pending changes of SPLIT and taken in no line. -/
structure Drained (v : Nat) (d e : Dev) : Prop where
  pending : (e.vault v).pendSplit = (d.vault v).pendSplit
  lines : ∀ l ∈ (e.vault v).lines, l ∈ (d.vault v).lines

theorem drained_steady (v : Nat) : Steady (Drained v) where
  refl _ := ⟨rfl, fun _ h => h⟩
  trans _ _ _ h k := ⟨k.pending.trans h.pending, fun l hl => h.lines l (k.lines l hl)⟩

theorem Drained.of_vaults {v : Nat} {d e : Dev} (h : SameVaults d e) : Drained v d e := by
  have hv := Dev.vault_congr h v
  exact ⟨by rw [hv], fun l hl => hv ▸ hl⟩

theorem Drained.dropLine (v ln : Nat) (d : Dev) : Drained v d (d.dropLine ln) := by
  have hvault := Dev.vault_dropLine d ln v
  split at hvault
  · exact ⟨by rw [hvault]; rfl, fun l hl => (List.mem_filter.1 (hvault ▸ hl)).1⟩
  · exact ⟨by rw [hvault], fun l hl => hvault ▸ hl⟩

theorem drained_flushLine (v ln : Nat) : (flushLine ln).Keeps (Drained v) := by
  have hdrop : (upd (fun d => d.dropLine ln)).Keeps (Drained v) := keeps_upd fun d => Drained.dropLine v ln d
  refine keeps_look fun s => ?_
  dsimp only
  split
  · exact keeps_skip (drained_steady v)
  · split
    · exact hdrop
    · exact keeps_andThen (drained_steady v) (fun s => .of_vaults (vaults_writeBack _ s)) hdrop

theorem keeps_flushLine (ln : Nat) : (flushLine ln).Keeps SliceKeeps := by
  have hdrop : (upd (fun d => d.dropLine ln)).Keeps SliceKeeps := keeps_upd fun d => sliceKeeps_dropLine d ln
  refine keeps_look fun s => ?_
  dsimp only
  split
  · exact keeps_skip sliceKeeps_steady
  · split
    · exact hdrop
    · exact keeps_andThen sliceKeeps_steady (keeps_writeBack _) hdrop

/-- A line that a slice has given up is no longer in it. -/
theorem flushLine_gone {v ln : Nat} {s t : State} (hv : homeOf (ln * 128) = v) (h : commit (flushLine ln) s = .next t) :
    ∀ l ∈ (t.dev.vault v).lines, l.line ≠ ln := by
  have hdrop : ∀ {u : State}, commit (upd (fun d => d.dropLine ln)) u = .next t → ∀ l ∈ (t.dev.vault v).lines, l.line ≠ ln := by
    intro u hu l hl
    rw [commit_upd_next.1 hu, State.device, Dev.vault_dropLine, if_pos hv, Vault.delLine] at hl
    simpa using (List.mem_filter.1 hl).2
  rw [flushLine, commit_look] at h
  dsimp only at h
  split at h
  · rename_i hnone
    cases h
    intro l hl hln
    have hno := List.find?_eq_none.1 (hv ▸ hnone) l hl
    exact hno (by simpa using hln)
  · split at h
    · exact hdrop h
    · obtain ⟨u, -, hu⟩ := commit_andThen_next.1 h
      exact hdrop hu

/-- Nor is any of several lines. -/
theorem flushLines_gone {v : Nat} {L : List Line} {s t : State} (h : commit (forE L (fun l => flushLine l.line)) s = .next t) :
    ∀ k ∈ L, homeOf (k.line * 128) = v → ∀ l ∈ (t.dev.vault v).lines, l.line ≠ k.line := by
  induction L generalizing s with
  | nil => simp
  | cons k L ih =>
    obtain ⟨u, hu, ht⟩ := commit_forE_cons_next.1 h
    intro k' hk' hhome l hl
    obtain rfl | hk' := List.mem_cons.1 hk'
    · exact flushLine_gone hhome hu l
        (((keeps_forE (drained_steady v) fun x _ => drained_flushLine v x.line).next ht).lines l hl)
    · exact ih ht k' hk' hhome l hl

/-! ## A slice emptied, and its SPLIT changed (R97) -/

theorem calm_vaultFlush (v : Nat) : (vaultFlush v).Calm :=
  calm_look fun _ => calm_andThen (calm_forE fun _ _ => calm_flushLine _) (calm_upd _)

/-- Wakes leave every slice as it is. -/
theorem sameVaults_wakes (es : List WatchEnt) (val : WatchEnt → List Byte) (d : Dev) :
    SameVaults d (es.foldl (fun d e => if e.ref.isSome then wake e (val e) d else d) d) := by
  induction es generalizing d with
  | nil => rfl
  | cons e es ih =>
    refine sameVaults_steady.trans _ _ _ ?_ (ih _)
    dsimp only
    split
    · exact sameVaults_wake _ _ _
    · rfl

theorem sliceKeeps_wakes (es : List WatchEnt) (val : WatchEnt → List Byte) (d : Dev) :
    SliceKeeps d (es.foldl (fun d e => if e.ref.isSome then wake e (val e) d else d) d) := by
  induction es generalizing d with
  | nil => exact sliceKeeps_steady.refl d
  | cons e es ih =>
    refine sliceKeeps_steady.trans _ _ _ ?_ (ih _)
    dsimp only
    split
    · exact sliceKeeps_wake _ _ _
    · exact sliceKeeps_steady.refl d

theorem keeps_vaultFlush (v : Nat) : (vaultFlush v).Keeps SliceKeeps :=
  keeps_look fun _ => keeps_andThen sliceKeeps_steady (keeps_forE sliceKeeps_steady fun _ _ => keeps_flushLine _)
    (keeps_upd fun _ => sliceKeeps_steady.trans _ _ _ (sliceKeeps_modVault _ _ _) (sliceKeeps_wakes _ _ _))

/-- An emptied slice has no line of its own and no watch entry, and its pending changes of SPLIT. -/
theorem vaultFlush_empties {v : Nat} {s t : State} (hv : v < s.dev.vaults.length) (h : commit (vaultFlush v) s = .next t) :
    (∀ l ∈ (t.dev.vault v).lines, homeOf (l.line * 128) ≠ v) ∧ (t.dev.vault v).watch = [] ∧
      (t.dev.vault v).pendSplit = (s.dev.vault v).pendSplit := by
  rw [vaultFlush, commit_look] at h
  obtain ⟨u, hu, ht⟩ := commit_andThen_next.1 h
  have hdrained : Drained v s.dev u.dev := (keeps_forE (drained_steady v) fun x _ => drained_flushLine v x.line).next hu
  have hlen : v < u.dev.vaults.length := by
    rw [((keeps_forE sliceKeeps_steady fun x _ => keeps_flushLine x.line).next hu).vaults]
    exact hv
  have hvault : t.dev.vault v = { u.dev.vault v with watch := [] } := by
    rw [commit_upd_next.1 ht]
    exact (Dev.vault_congr (sameVaults_wakes _ _ _) v).trans (Dev.vault_modVault_same _ _ hlen)
  rw [hvault]
  exact ⟨fun l hl hhome => flushLines_gone hu l (hdrained.lines l hl) hhome l hl rfl, rfl, hdrained.pending⟩

/-- The thread that asked for a change of SPLIT goes on. -/
def Thread.splitDone (th : Thread) : Thread := if th.wait = .unit then { th with wait := .none, waited := 0 } else th

theorem Thread.splitDone_t (x : Thread) : x.splitDone.t = x.t := by
  unfold Thread.splitDone
  split <;> rfl

/-- What a change of SPLIT leaves. -/
structure SplitChanged (v p : Nat) (s t : State) : Prop where
  flocks : t.dev.flocks = s.dev.flocks
  inside : v < t.dev.vaults.length
  split : (t.dev.vault v).split = p
  lines : p ≠ (s.dev.vault v).split → ∀ l ∈ (t.dev.vault v).lines, homeOf (l.line * 128) ≠ v
  watch : p ≠ (s.dev.vault v).split → (t.dev.vault v).watch = []

/-- The slice is emptied and takes its new split; bytes that pass to direct memory are undefined. -/
theorem splitTaken {v p : Nat} {s : State} (hv : v < s.dev.vaults.length) (b : Bool) (ws : List Write) :
    ∃ t, commit (seqE [vaultFlush v, upd (fun d => d.modVault v (fun x => { x with split := p })),
      whenE b ((wr ws).andThen (upd Dev.fresh))]) s = .next t ∧ SplitChanged v p s t := by
  have hflush := (calm_vaultFlush v).next s
  have hkeep := (keeps_vaultFlush v).next hflush
  obtain ⟨hlines, hwatch, -⟩ := vaultFlush_empties hv hflush
  generalize s.apply (vaultFlush v s) = u at *
  have hlen : v < u.dev.vaults.length := hkeep.vaults ▸ hv
  have hlast : (whenE b ((wr ws).andThen (upd Dev.fresh))).Keeps (fun d e => e.flocks = d.flocks ∧ e.vaults = d.vaults) := by
    refine keeps_whenE ⟨fun _ => ⟨rfl, rfl⟩, fun _ _ _ h k => ⟨k.1.trans h.1, k.2.trans h.2⟩⟩ fun x => ?_
    exact ⟨rfl, rfl⟩
  have hcalm : (whenE b ((wr ws).andThen (upd Dev.fresh))).Calm := calm_whenE (calm_andThen (calm_wr _) (calm_upd _))
  have hend := hcalm.next (u.device (fun d => d.modVault v (fun x => { x with split := p })))
  obtain ⟨hflocks, hvaults⟩ := hlast.next hend
  generalize State.apply _ (whenE b _ _) = t at *
  have hvault : t.dev.vault v = { u.dev.vault v with split := p } :=
    (Dev.vault_congr hvaults v).trans (Dev.vault_modVault_same _ _ hlen)
  refine ⟨t, ?_, hflocks.trans hkeep.flocks, ?_, by rw [hvault], fun _ => by rw [hvault]; exact hlines,
    fun _ => by rw [hvault]; exact hwatch⟩
  · exact (commit_andThen_of_next hflush).trans ((commit_andThen_of_next (commit_upd _ _)).trans hend)
  · rw [hvaults]
    simpa [Dev.modVault] using hlen

theorem splitChange_changes {v p : Nat} {s : State} {r : TRef} {rest : List (TRef × Nat)}
    (hp : (s.dev.vault v).pendSplit = (r, p) :: rest) (hv : v < s.dev.vaults.length) :
    ∃ u, SplitChanged v p s u ∧ exec (.splitChange v) s = .next (u.device (fun d =>
      (d.modVault v (fun x => { x with pendSplit := rest })).modThread r Thread.splitDone)) := by
  have hexec : exec (.splitChange v) s = commit (splitChange v) s := rfl
  rw [hexec, splitChange, commit_look]
  simp only [hp]
  by_cases hsame : p = (s.dev.vault v).split
  · rw [if_pos hsame]
    exact ⟨s, ⟨rfl, hv, hsame.symm, fun h => absurd hsame h, fun h => absurd hsame h⟩,
      (commit_andThen_of_next (commit_skip s)).trans (commit_upd _ _)⟩
  · rw [if_neg hsame]
    obtain ⟨u, hu, hchanged⟩ := splitTaken (p := p) hv (decide (directSize (s.dev.vault v).split < directSize p))
      [.wipe (.vault v) (directSize (s.dev.vault v).split) s.dev.free]
    exact ⟨u, hchanged, (commit_andThen_of_next hu).trans (commit_upd _ _)⟩

/-! ## A line of a page copied (R332) -/

/-- No slice holds a line or a watch entry, and no stored bit carries a fault. -/
structure Dev.Quiet (d : Dev) : Prop where
  marks : d.marks = []
  lines : ∀ x ∈ d.vaults, x.lines = []
  watch : ∀ x ∈ d.vaults, x.watch = []

theorem Dev.Quiet.vault_lines {d : Dev} (h : d.Quiet) (v : Nat) : (d.vault v).lines = [] := by
  unfold Dev.vault
  cases hv : d.vaults[v]? with
  | none => rfl
  | some x => exact h.lines x (List.mem_of_getElem? hv)

theorem Dev.Quiet.vault_watch {d : Dev} (h : d.Quiet) (v : Nat) : (d.vault v).watch = [] := by
  unfold Dev.vault
  cases hv : d.vaults[v]? with
  | none => rfl
  | some x => exact h.watch x (List.mem_of_getElem? hv)

/-- A change that leaves each vault as it is. -/
theorem Dev.modVault_same {d : Dev} {n : Nat} {g : Vault → Vault} (h : ∀ x ∈ d.vaults, g x = x) : d.modVault n g = d := by
  have hmod : d.vaults.modify n g = d.vaults := by
    refine List.ext_getElem? fun i => ?_
    rw [List.getElem?_modify]
    cases hi : d.vaults[i]? with
    | none => rfl
    | some x => simp [h x (List.mem_of_getElem? hi)]
  rw [Dev.modVault, hmod]

theorem Dev.Quiet.dropLine {d : Dev} (h : d.Quiet) (ln : Nat) : d.dropLine ln = d := by
  have hvault : d.modVault (homeOf (ln * 128)) (fun x => x.delLine ln) = d :=
    Dev.modVault_same fun x hx => by rw [Vault.delLine, h.lines x hx, List.filter_nil, ← h.lines x hx]
  rw [Dev.dropLine, hvault, h.marks, List.filter_nil, ← h.marks]

theorem Dev.Quiet.unmark {d : Dev} (h : d.Quiet) (ms : List Mark) : unmark ms d = d := by
  rw [Machine.unmark, h.marks, List.filter_nil, ← h.marks]

theorem commit_flushLine_quiet {s : State} (h : s.dev.Quiet) (ln : Nat) : commit (flushLine ln) s = .next s := by
  rw [flushLine, commit_look]
  simp only [Vault.line?, h.vault_lines, List.find?_nil]
  rfl

/-- An operation on the device that leaves it as it is. -/
theorem commit_upd_same {f : Dev → Dev} {s : State} (h : f s.dev = s.dev) : commit (upd f) s = .next s := by
  rw [commit_upd, h]

/-- The copier writes what it reads of the line, and nothing else. -/
theorem commit_copyLine_quiet {s : State} (h : s.dev.Quiet) (src dst ln : Nat) : commit (copyLine src dst ln) s =
    .next (s.applyWrites (memWrites (ln * 128 - src * 2 ^ 30 + dst * 2 ^ 30) (Memory.reads s.mem (ln * 128) 128))) := by
  have hnone : s.dev.marksOn (.dram (ln * 128)) 128 = [] := Dev.marksOn_clean h.marks _ _
  rw [copyLine, commit_look]
  simp only [hnone, List.filter_nil, seqE]
  rw [commit_andThen_of_next (commit_forE_nil _ s), commit_andThen_of_next (commit_upd_same (h.dropLine _)),
    commit_andThen_of_next (commit_wr _ s)]
  generalize hu : s.applyWrites _ = u
  have hq : u.dev.Quiet := by rw [← hu, State.applyWrites_dev]; exact h
  rw [commit_andThen_of_next (commit_upd_same (f := fun d => unmark (d.marks.filter _) d) (hq.unmark _))]
  exact commit_whenE_false _ u

/-! ## A page copied -/

/-- The memory in which the first bytes of a range have been copied. -/
def Copied (s : State) (src dst n : Nat) (m : List Host.Cell) : Prop :=
  ∀ i, Memory.read m i = if dst ≤ i ∧ i < dst + n then Memory.read s.mem (src + (i - dst)) else Memory.read s.mem i

/-- One more line of a range is copied. -/
theorem Copied.line {s t : State} {src dst n : Nat} (hm : t.MemOk) (h : Copied s src dst n t.mem)
    (hout : src + n + 128 ≤ dst ∨ dst + n ≤ src + n) :
    Copied s src dst (n + 128) (t.applyWrites (memWrites (dst + n) (Memory.reads t.mem (src + n) 128))).mem := by
  intro i
  rw [read_memWrites hm]
  by_cases hlo : dst + n ≤ i
  · rw [if_pos hlo]
    by_cases hhi : i < dst + n + 128
    · have hbyte : (Memory.reads t.mem (src + n) 128)[i - (dst + n)]? = some (Memory.read t.mem (src + n + (i - (dst + n)))) := by
        rw [Memory.reads, List.getElem?_map, List.getElem?_range (by omega)]
        rfl
      have hplace : src + n + (i - (dst + n)) = src + (i - dst) := by omega
      rw [hbyte, Option.getD_some, if_pos (by omega), h, if_neg (by omega), hplace]
    · rw [List.getElem?_eq_none (by rw [Memory.reads, List.length_map, List.length_range]; omega), Option.getD_none, h i,
        if_neg (by omega), if_neg (by omega)]
  · rw [if_neg hlo, h i]
    exact if_congr (by omega) rfl rfl

/-- The first lines of a page. -/
theorem copyLines_quiet {s : State} (h : s.dev.Quiet) (hm : s.MemOk) {src dst page : Nat}
    (hpage : page < 16384) (n : Nat) (hn : n ≤ 512) : ∃ t,
    commit (forE ((List.range n).map (fun i => src * 2 ^ 23 + page * 512 + i)) (copyLine src dst)) s = .next t ∧
      t.dev = s.dev ∧ t.MemOk ∧ Copied s (src * 2 ^ 30 + page * 2 ^ 16) (dst * 2 ^ 30 + page * 2 ^ 16) (128 * n) t.mem := by
  induction n with
  | zero => exact ⟨s, rfl, rfl, hm, fun i => by rw [if_neg (by omega)]⟩
  | succ n ih =>
    obtain ⟨t, ht, hdev, hmt, hcopied⟩ := ih (by omega)
    have hq : t.dev.Quiet := hdev ▸ h
    have hsrc : (src * 2 ^ 23 + page * 512 + n) * 128 = src * 2 ^ 30 + page * 2 ^ 16 + 128 * n := by omega
    have hdst : src * 2 ^ 30 + page * 2 ^ 16 + 128 * n - src * 2 ^ 30 + dst * 2 ^ 30 = dst * 2 ^ 30 + page * 2 ^ 16 + 128 * n := by
      omega
    have hlast := commit_copyLine_quiet hq src dst (src * 2 ^ 23 + page * 512 + n)
    rw [hsrc, hdst] at hlast
    refine ⟨_, ?_, (State.applyWrites_dev _ _).trans hdev, State.applyWrites_memOk hmt _,
      (Nat.mul_succ 128 n) ▸ hcopied.line hmt (by omega)⟩
    rw [List.range_succ, List.map_append, commit_forE_append _ _ _ ht]
    exact hlast

theorem rekey_quiet {s : State} (h : s.dev.Quiet) : commit rekey s = .next s := by
  have hplace : (fun d : Dev => { d with vaults := d.vaults.map (fun x =>
      { x with watch := x.watch.map (fun e => { e with loc := d.movedLoc e.loc }) }) }) s.dev = s.dev := by
    have hsame : s.dev.vaults.map (fun x => { x with watch := x.watch.map (fun e => { e with loc := s.dev.movedLoc e.loc }) }) =
        s.dev.vaults :=
      (List.map_congr_left fun x hx => by rw [h.watch x hx, List.map_nil, ← h.watch x hx]; rfl).trans (List.map_id _)
    dsimp only
    rw [hsame]
  have htable : (fun d : Dev => { d with vaults := d.vaults.mapIdx (fun v x =>
      { x with watch := x.watch.filter (fun e => d.watchHome e.loc = v) }) }) s.dev = s.dev := by
    have hsame : s.dev.vaults.mapIdx (fun v x => { x with watch := x.watch.filter (fun e => s.dev.watchHome e.loc = v) }) =
        s.dev.vaults := by
      refine List.ext_getElem? fun i => ?_
      rw [List.getElem?_mapIdx]
      cases hi : s.dev.vaults[i]? with
      | none => rfl
      | some x =>
        have hx := h.watch x (List.mem_of_getElem? hi)
        rw [Option.map_some, hx, List.filter_nil, ← hx]
    dsimp only
    rw [hsame]
  have hgone : ((List.range 64).flatMap fun v => (s.dev.vault v).watch.filter (fun e => s.dev.watchHome e.loc ≠ v)) = [] := by
    simp [h.vault_watch]
  rw [rekey, commit_andThen_of_next (commit_upd_same hplace), commit_look]
  dsimp only
  rw [hgone, commit_andThen_of_next (commit_upd_same htable)]
  exact commit_forE_nil _ s

theorem movePage_copies {s : State} (hstat : s.dev.move.stat = 1) (hstop : s.dev.stopped = false) (h : s.dev.Quiet) (hm : s.MemOk)
    (hpage : s.dev.move.moved < 16384) :
    ∃ t, exec .movePageCopy s = .next t ∧ t.dev.move.moved = s.dev.move.moved + 1 ∧
      t.dev.move.stat = (if s.dev.move.moved + 1 = 16384 then 2 else 1) ∧
      Copied s (s.dev.move.src * 2 ^ 30 + s.dev.move.moved * 2 ^ 16) (s.dev.move.dst * 2 ^ 30 + s.dev.move.moved * 2 ^ 16)
        (2 ^ 16) t.mem := by
  obtain ⟨t, ht, hdev, hmt, hcopied⟩ := copyLines_quiet h hm hpage 512 (Nat.le_refl _)
  have hexec : exec .movePageCopy s = commit movePage s := rfl
  rw [hexec, movePage, commit_look]
  dsimp only
  rw [if_neg (by simp [hstat, hstop])]
  simp only [seqE]
  rw [commit_andThen_of_next (commit_forE_same fun x _ => commit_flushLine_quiet h x), pageLines, commit_andThen_of_next ht,
    commit_andThen_of_next (commit_upd _ _), rekey_quiet ⟨hdev ▸ h.marks, hdev ▸ h.lines, hdev ▸ h.watch⟩]
  exact ⟨_, rfl, rfl, rfl, hcopied⟩

/-- A byte's place in a page of S, from its place in the page of S′. -/
theorem page_byte {src dst page i : Nat} (h : dst + page ≤ i) : src + page + (i - (dst + page)) = src + (i - dst) := by omega

/-! ## MOVECMD (R360) -/

theorem exec_moveStart {val : Nat} (h : val.testBit 63 = true) (s : State) :
    exec (.moveStart val) s = .next (s.device (moveStart val)) := by
  have hexec : exec (.moveStart val) s = .next (s.device (fun d => if bit val 63 then moveStart val d else d)) := rfl
  have hbit : bit val 63 = true := h
  rw [hexec, hbit]
  rfl

theorem exec_moveEnd {val : Nat} (h62 : val.testBit 62 = true) (h63 : val.testBit 63 = false) (s : State) :
    exec (.moveEnd val) s = commit moveEnd s := by
  have hexec : exec (.moveEnd val) s = commit (if bit val 62 && !bit val 63 then moveEnd else skip) s := rfl
  have hbit62 : bit val 62 = true := h62
  have hbit63 : bit val 63 = false := h63
  rw [hexec, hbit62, hbit63]
  rfl

end Sys2Proof.Machine

open Sys2Proof Sys2Proof.Machine

/-- Settles O44: an emptied slice takes its split, a start and an end by their conditions, and the copy of a page line by line. -/
theorem splitAndMove_result : Obligations.SplitAndMove_result := by
  unfold Obligations.SplitAndMove_result
  refine ⟨fun s v r p rest hp hv => ?_, fun s val h63 => ⟨fun hrefuse => ?_, fun hstat howner hne hstop => ?_⟩,
    fun s hstat hstop hmarks hempty hm _ hpage => ?_, fun s val h62 h63 => ⟨fun hstat => ?_, fun hstat => ?_⟩⟩
  · obtain ⟨u, hu, hexec⟩ := splitChange_changes hp hv
    have hvault : ((u.dev.modVault v (fun x => { x with pendSplit := rest })).modThread r Thread.splitDone).vault v =
        { u.dev.vault v with pendSplit := rest } := Dev.vault_modVault_same _ _ hu.inside
    refine ⟨_, hexec, (congrArg Vault.split hvault).trans hu.split, congrArg Vault.pendSplit hvault, fun hne => ⟨?_, ?_⟩,
      fun x hx hwait => ?_⟩
    · rw [State.device, hvault]
      exact hu.lines hne
    · rw [State.device, hvault]
      exact hu.watch hne
    · have hthread : (u.dev.modVault v (fun x => { x with pendSplit := rest })).thread? r = some x := by
        rw [← hx, Dev.thread?, Dev.thread?, Dev.flock?, Dev.flock?, ← hu.flocks]
        rfl
      rw [State.device, Dev.thread?_modThread _ _ _ Thread.splitDone_t, hthread]
      simp [Thread.splitDone, hwait]
  · rw [exec_moveStart h63, State.device, moveStart, if_pos (hrefuse.imp_right .inl)]
    rfl
  · rw [exec_moveStart h63, State.device, moveStart, if_neg (by simp [hstat, howner, hne, hstop])]
    rfl
  · obtain ⟨t, ht, hmoved, hstat', hcopied⟩ :=
      movePage_copies hstat hstop ⟨hmarks, fun x hx => (hempty x hx).1, fun x hx => (hempty x hx).2⟩ hm hpage
    refine ⟨t, ht, hmoved, hstat', fun i => (hcopied i).trans ?_⟩
    have hend : s.dev.move.dst * 2 ^ 30 + s.dev.move.moved * 2 ^ 16 + 2 ^ 16 =
        s.dev.move.dst * 2 ^ 30 + (s.dev.move.moved + 1) * 2 ^ 16 := by omega
    rw [hend]
    split
    · rename_i hin
      rw [page_byte hin.1]
    · rfl
  · rw [exec_moveEnd h62 h63, moveEnd, commit_look]
    exact congrArg (commit · s) (if_pos hstat)
  · have hevent := (calm_look fun x => calm_postEvent 0 ⟨8, 0xFF, 0, x.dev.ctime, BitVec.ofNat 64 s.dev.move.src,
      BitVec.ofNat 64 s.dev.move.owner⟩).next (s.device (fun d =>
        { d with
          cores := d.cores.map (fun c => { c with l1 := c.l1.filter (fun l => l.line / 2 ^ 23 ≠ s.dev.move.src) }),
          slown := aset d.slown s.dev.move.src s.dev.move.owner, move := { s.dev.move with stat := 0, refused := false } }))
    refine ⟨_, hevent, ?_⟩
    rw [exec_moveEnd h62 h63, moveEnd, commit_look]
    dsimp only
    rw [if_neg (by simp [hstat])]
    exact (commit_andThen_of_next (commit_upd _ s)).trans hevent
end

section
/-! SUPPORT. Two things that a slice's work leaves as they are: the answers of requests that no watch entry stands for (R102,
R271), and the bytes that every place holds where no line of a slice and no byte is written (R227). -/

namespace Sys2Proof.Machine

/-! ## The answer of a request -/

/-- Whether a request is performed, and its value. -/
def Dev.reply (d : Dev) (id : Nat) : Option (Bool × List Byte) := (d.req? id).map (fun q => (q.performed, q.val))

/-- Requests changed, but not in what they are answered. -/
theorem Dev.reply_map {d e : Dev} {f : Req → Req} (he : e.reqs = d.reqs.map f)
    (hf : ∀ x, ((f x).id, (f x).performed, (f x).val) = (x.id, x.performed, x.val)) (id : Nat) : e.reply id = d.reply id := by
  have hid : ∀ x, (f x).id = x.id := fun x => congrArg Prod.fst (hf x)
  unfold Dev.reply Dev.req?
  rw [he, find?_map_keep _ _ f fun x => by rw [hid], Option.map_map]
  exact congrArg (Option.map · _) (funext fun x => congrArg Prod.snd (hf x))

theorem Dev.reply_congr {d e : Dev} (he : e.reqs = d.reqs) (id : Nat) : e.reply id = d.reply id := by
  rw [Dev.reply, Dev.req?, he]
  rfl

theorem Dev.req?_modReq (d : Dev) (n id : Nat) (g : Req → Req) (hg : ∀ x, x.id = n → (g x).id = n) :
    (d.modReq n g).req? id = (d.req? id).map (fun x => if x.id = n then g x else x) := by
  refine find?_map_keep d.reqs _ _ fun x => ?_
  split
  · rename_i hx
    rw [hg x hx, hx]
  · rfl

theorem Dev.req?_id {d : Dev} {id : Nat} {q : Req} (h : d.req? id = some q) : q.id = id := by
  simpa using List.find?_some h

theorem Dev.req?_modReq_same {d : Dev} {id : Nat} {g : Req → Req} (hg : ∀ x, x.id = id → (g x).id = id) :
    (d.modReq id g).req? id = (d.req? id).map g := by
  rw [Dev.req?_modReq d id id g hg]
  cases h : d.req? id with
  | none => rfl
  | some q => simp [Dev.req?_id h]

theorem Dev.req?_modReq_other {d : Dev} {n id : Nat} {g : Req → Req} (hg : ∀ x, x.id = n → (g x).id = n) (hne : id ≠ n) :
    (d.modReq n g).req? id = d.req? id := by
  rw [Dev.req?_modReq d n id g hg]
  cases h : d.req? id with
  | none => rfl
  | some q => simp [Dev.req?_id h, hne]

theorem Dev.reply_modReq_same {d : Dev} {id : Nat} {g : Req → Req} (hg : ∀ x, x.id = id → (g x).id = id) :
    (d.modReq id g).reply id = (d.req? id).map (fun x => ((g x).performed, (g x).val)) := by
  rw [Dev.reply, Dev.req?_modReq_same hg, Option.map_map]
  rfl

theorem Dev.reply_modReq_other {d : Dev} {n id : Nat} {g : Req → Req} (hg : ∀ x, x.id = n → (g x).id = n) (hne : id ≠ n) :
    (d.modReq n g).reply id = d.reply id := by
  rw [Dev.reply, Dev.req?_modReq_other hg hne, Dev.reply]

theorem Dev.reply_of_req {d : Dev} {id : Nat} {q : Req} (h : d.req? id = some q) : d.reply id = some (q.performed, q.val) :=
  congrArg (Option.map _) h

/-- A request of a known answer. -/
theorem Dev.reply_some {d : Dev} {id : Nat} {p : Bool} {v : List Byte} (h : d.reply id = some (p, v)) :
    ∃ x, d.req? id = some x ∧ x.performed = p ∧ x.val = v := by
  obtain ⟨x, hx, he⟩ := Option.map_eq_some_iff.1 h
  exact ⟨x, hx, congrArg Prod.fst he, congrArg Prod.snd he⟩

/-! ## What wakes no request -/

/-- The watch tables, the open multicast entries and the answers of all requests are the same. -/
structure NoWake (d e : Dev) : Prop where
  watch : ∀ v, (e.vault v).watch = (d.vault v).watch
  mc : ∀ v, (e.vault v).mc = (d.vault v).mc
  reply : ∀ id, e.reply id = d.reply id

theorem noWake_steady : Steady NoWake where
  refl _ := ⟨fun _ => rfl, fun _ => rfl, fun _ => rfl⟩
  trans _ _ _ h k :=
    ⟨fun v => (k.watch v).trans (h.watch v), fun v => (k.mc v).trans (h.mc v), fun id => (k.reply id).trans (h.reply id)⟩

theorem Dev.watch_congr {d e : Dev} (h : e.vaults = d.vaults) (v : Nat) : (e.vault v).watch = (d.vault v).watch :=
  congrArg Vault.watch (Dev.vault_congr h v)

theorem NoWake.of_vaults {d e : Dev} (hv : e.vaults = d.vaults) (hr : ∀ id, e.reply id = d.reply id) : NoWake d e :=
  ⟨Dev.watch_congr hv, fun v => congrArg Vault.mc (Dev.vault_congr hv v), hr⟩

theorem NoWake.of_same {d e : Dev} (hv : e.vaults = d.vaults) (hr : e.reqs = d.reqs) : NoWake d e :=
  .of_vaults hv (Dev.reply_congr hr)

theorem noWake_modVault (d : Dev) (n : Nat) (g : Vault → Vault) (h : ∀ x, (g x).watch = x.watch ∧ (g x).mc = x.mc) :
    NoWake d (d.modVault n g) :=
  ⟨fun v => Dev.vault_modVault_keep d n v g Vault.watch fun x => (h x).1,
    fun v => Dev.vault_modVault_keep d n v g Vault.mc fun x => (h x).2, Dev.reply_congr rfl⟩

theorem noWake_dropLine (ln : Nat) (d : Dev) : NoWake d (d.dropLine ln) :=
  noWake_steady.trans _ _ _ (noWake_modVault d _ (fun x => x.delLine ln) fun _ => ⟨rfl, rfl⟩) (.of_same rfl rfl)

theorem noWake_dramAsk (w : Who) (pa n : Nat) (d : Dev) : NoWake d (dramAsk w pa n d) := by
  refine .of_vaults (sameVaults_dramAsk w pa n d) fun id => ?_
  unfold dramAsk
  dsimp only
  split
  · refine Dev.reply_map (f := fun q => if q.id = _ then { q with dram := true } else q) rfl (fun x => ?_) id
    split <;> rfl
  · exact Dev.reply_congr rfl id

theorem noWake_touched (w : Who) (ln : Nat) (d : Dev) : NoWake d (touched w ln d) := .of_same rfl rfl

theorem noWake_postEvent (q : Nat) (e : Event) : (postEvent q e).Keeps NoWake := by
  refine keeps_look fun s => ?_
  dsimp only
  split
  · exact keeps_look fun _ => keeps_andThen noWake_steady (keeps_wr noWake_steady _) (keeps_upd fun _ => .of_same rfl rfl)
  · split
    · exact keeps_upd fun _ => .of_same rfl rfl
    · split <;> exact keeps_upd fun _ => .of_same rfl rfl

theorem noWake_bankRecord (bank cls : Nat) (ctx : Option Nat) (code inst : Nat) (addr synd : W64) :
    (bankRecord bank cls ctx code inst addr synd).Keeps NoWake := by
  refine keeps_look fun s => ?_
  dsimp only
  split
  · exact keeps_andThen noWake_steady (keeps_upd fun _ => .of_same rfl rfl)
      (keeps_andThen noWake_steady (keeps_upd fun _ => .of_same rfl rfl) (noWake_postEvent _ _))
  · exact keeps_upd fun _ => .of_same rfl rfl

theorem noWake_eccRecord (bank cls : Nat) (ctx : Option Nat) (code inst : Nat) (addr : W64) :
    (eccRecord bank cls ctx code inst addr).Keeps NoWake :=
  keeps_look fun _ => keeps_andThen noWake_steady (noWake_bankRecord _ _ _ _ _ _ _) (keeps_upd fun _ => .of_same rfl rfl)

theorem noWake_lineMarks (ln : Nat) : (lineMarks ln).Keeps NoWake := by
  refine keeps_look fun s => keeps_seqE noWake_steady fun a ha => ?_
  simp only [List.mem_cons, List.not_mem_nil, or_false] at ha
  obtain rfl | rfl := ha
  · exact keeps_forE noWake_steady fun _ _ => noWake_eccRecord _ _ _ _ _ _
  · exact keeps_upd fun _ => .of_same rfl rfl

theorem noWake_writeBack (l : Line) : (writeBack l).Keeps NoWake :=
  keeps_andThen noWake_steady (noWake_lineMarks _)
    (keeps_andThen noWake_steady (keeps_wr noWake_steady _) (keeps_upd (noWake_dramAsk _ _ _)))

theorem noWake_fillMarks (ctx : Option Nat) (ln : Nat) : (fillMarks ctx ln).Keeps NoWake :=
  keeps_look fun _ => keeps_forE noWake_steady fun _ _ =>
    keeps_andThen noWake_steady (noWake_eccRecord _ _ _ _ _ _) (keeps_upd fun _ => .of_same rfl rfl)

theorem noWake_touchLine (ln : Nat) : (touchLine ln).Keeps NoWake := keeps_upd fun _ => noWake_modVault _ _ _ fun _ => ⟨rfl, rfl⟩

theorem noWake_allocLine (w : Who) (l ln : Nat) (st : LineSt) (data : List Byte) : (allocLine w l ln st data).Keeps NoWake := by
  have hput : ∀ n g, (∀ x : Vault, (g x).watch = x.watch ∧ (g x).mc = x.mc) → (upd (fun d => d.modVault n g)).Keeps NoWake :=
    fun n g hg => keeps_upd fun _ => noWake_modVault _ _ _ hg
  refine keeps_look fun s => ?_
  dsimp only
  split
  · exact keeps_skip noWake_steady
  · split
    · exact hput _ _ fun _ => ⟨rfl, rfl⟩
    · split
      · exact keeps_andThen noWake_steady (keeps_upd (noWake_dropLine _)) (hput _ _ fun _ => ⟨rfl, rfl⟩)
      · exact keeps_andThen noWake_steady (noWake_writeBack _)
          (keeps_andThen noWake_steady (keeps_upd (noWake_dropLine _)) (hput _ _ fun _ => ⟨rfl, rfl⟩))

theorem noWake_flushLine (ln : Nat) : (flushLine ln).Keeps NoWake := by
  refine keeps_look fun s => ?_
  dsimp only
  split
  · exact keeps_skip noWake_steady
  · split
    · exact keeps_upd (noWake_dropLine _)
    · exact keeps_andThen noWake_steady (noWake_writeBack _) (keeps_upd (noWake_dropLine _))

theorem noWake_mxFlush (loc : Loc) (n : Nat) : (mxFlush loc n).Keeps NoWake :=
  keeps_look fun _ => keeps_forE noWake_steady fun _ _ => noWake_flushLine _

theorem noWake_touchedAll (w : Who) (lns : List Nat) (d : Dev) : NoWake d (lns.foldl (fun d ln => touched w ln d) d) := by
  induction lns generalizing d with
  | nil => exact noWake_steady.refl d
  | cons ln lns ih => exact noWake_steady.trans _ _ _ (noWake_touched w ln d) (ih _)

theorem noWake_mxReadE (w : Who) (base fmt off n : Nat) : (mxReadE w base fmt off n).Keeps NoWake := by
  refine keeps_andThen noWake_steady (keeps_andThen noWake_steady (keeps_upd fun d => ?_) (noWake_mxFlush _ _))
    (keeps_forE noWake_steady fun _ _ => keeps_upd fun d => noWake_dramAsk w _ _ d)
  exact noWake_steady.trans _ _ _ (noWake_touchedAll w _ d) (.of_same rfl rfl)

/-! ## Requests that no watch entry stands for -/

/-- No watch entry stands for the request. -/
def Dev.Unwatched (d : Dev) (id : Nat) : Prop := ∀ v, ∀ e ∈ (d.vault v).watch, e.req ≠ id

theorem Dev.Unwatched.of_vaults {d : Dev} {id : Nat} (h : ∀ v ∈ d.vaults, ∀ e ∈ v.watch, e.req ≠ id) : d.Unwatched id := by
  intro v e he
  unfold Dev.vault at he
  cases hv : d.vaults[v]? with
  | none =>
    rw [hv] at he
    exact absurd he List.not_mem_nil
  | some x =>
    rw [hv] at he
    exact h x (List.mem_of_getElem? hv) e he

/-- A request that no watch entry stands for stays so, with its answer. -/
def KeepsReply (id : Nat) (d e : Dev) : Prop := d.Unwatched id → e.Unwatched id ∧ e.reply id = d.reply id

theorem keepsReply_steady (id : Nat) : Steady (KeepsReply id) where
  refl _ h := ⟨h, rfl⟩
  trans _ _ _ h k hd := ⟨(k (h hd).1).1, (k (h hd).1).2.trans (h hd).2⟩

theorem NoWake.keepsReply {d e : Dev} (h : NoWake d e) (id : Nat) : KeepsReply id d e :=
  fun hd => ⟨fun v u hu => hd v u (h.watch v ▸ hu), h.reply id⟩

theorem Eff.Keeps.keepsReply {a : Eff} (h : a.Keeps NoWake) (id : Nat) : a.Keeps (KeepsReply id) := fun s => (h s).keepsReply id

theorem reply_wake {e : WatchEnt} {id : Nat} (h : e.req ≠ id) (val : List Byte) (d : Dev) : (wake e val d).reply id = d.reply id := by
  unfold wake
  split
  · exact Dev.reply_modReq_other (fun _ hx => hx) (Ne.symm h)
  · exact Dev.reply_congr rfl id

theorem reply_wakes {es : List WatchEnt} {id : Nat} (h : ∀ e ∈ es, e.req ≠ id) (val : WatchEnt → List Byte) (d : Dev) :
    (es.foldl (fun d e => wake e (val e) d) d).reply id = d.reply id := by
  induction es generalizing d with
  | nil => rfl
  | cons e es ih => exact (ih (fun x hx => h x (by simp [hx])) _).trans (reply_wake (h e (by simp)) _ d)

theorem wakes_vaults (es : List WatchEnt) (val : WatchEnt → List Byte) (d : Dev) :
    (es.foldl (fun d e => wake e (val e) d) d).vaults = d.vaults := by
  induction es generalizing d with
  | nil => rfl
  | cons e es ih => exact (ih _).trans (sameVaults_wake e _ d)

/-- The entry's comparison holds after a write of `n` bytes at `loc` that touches its bytes (R102). -/
def State.meetsWatch (s : State) (loc : Loc) (n : Nat) (e : WatchEnt) : Bool :=
  s.dev.meets loc n e.loc e.n && cmpHolds e.cmp (leNat (s.point e.loc e.n)) e.val.toNat

/-- Step 3 of R102: the entries that the write meets go, and are answered. -/
theorem watchCheck_dev (v : Nat) (loc : Loc) (n : Nat) (s : State) : (watchCheck v loc n s).dev =
    ((s.dev.vault v).watch.filter (s.meetsWatch loc n)).foldl (fun d e => wake e (s.point e.loc e.n) d)
      (s.dev.modVault v (fun x => { x with watch := x.watch.filter (fun e => !s.meetsWatch loc n e) })) := rfl

theorem commit_watchCheck (v : Nat) (loc : Loc) (n : Nat) (s : State) :
    commit (watchCheck v loc n) s = .next { s with dev := (watchCheck v loc n s).dev } := rfl

/-- The watch tables after a check: what the write has not met. -/
theorem watch_modVault_filter (d : Dev) (v k : Nat) (p : WatchEnt → Bool) :
    ((d.modVault v (fun x => { x with watch := x.watch.filter p })).vault k).watch =
      if v = k then (d.vault k).watch.filter p else (d.vault k).watch := by
  rw [Dev.vault_modVault d v k (fun x => { x with watch := x.watch.filter p }) rfl]
  split <;> rfl

theorem keepsReply_watchCheck (id v : Nat) (loc : Loc) (n : Nat) : (watchCheck v loc n).Keeps (KeepsReply id) := by
  intro s hd
  rw [watchCheck_dev]
  refine ⟨fun k e he => ?_, reply_wakes (fun e he => hd v e (List.mem_filter.1 he).1) _ _⟩
  rw [Dev.watch_congr (wakes_vaults _ _ _), watch_modVault_filter] at he
  split at he
  · exact hd k e (List.mem_filter.1 he).1
  · exact hd k e he

/-! ## A slice's reads and writes -/

theorem commit_andThen_assoc (a b c : Eff) (s : State) : commit ((a.andThen b).andThen c) s = commit (a.andThen (b.andThen c)) s := by
  simp only [commit_andThen]
  cases commit a s <;> rfl

section
variable {R : Dev → Dev → Prop} (hs : Steady R) (hn : ∀ d e, NoWake d e → R d e)
  (hw : ∀ v loc n, (watchCheck v loc n).Keeps R)
include hs hn hw

/-- A read at a slice keeps what watch checks keep, and what wakes no request. -/
theorem keeps_sliceReadE_of (w : Who) (pa : Nat) : (sliceReadE w pa).Keeps R := by
  have hupd : ∀ {f : Dev → Dev}, (∀ d, NoWake d (f d)) → (upd f).Keeps R := fun hf => keeps_upd fun d => hn d _ (hf d)
  refine keeps_look fun s => ?_
  dsimp only
  refine keeps_andThen hs (hupd (noWake_touched _ _)) ?_
  split
  · rename_i l _
    generalize (w.consume && (match l.st with
      | .fwd c => decide (w.core = some c)
      | _ => false)) = own
    cases own with
    | true => exact keeps_andThen hs (hupd (noWake_dropLine _)) (hw _ _ _)
    | false => exact fun s => hn _ _ (noWake_touchLine _ s)
  · split
    · exact keeps_andThen hs (hupd (noWake_dramAsk _ _ _))
        (keeps_andThen hs (fun s => hn _ _ (noWake_fillMarks _ _ s)) fun s => hn _ _ (noWake_allocLine _ _ _ _ _ s))
    · exact hupd (noWake_dramAsk _ _ _)

theorem keeps_pointRead_of (w : Who) (loc : Loc) (n : Nat) : (pointRead w loc n).Keeps R := by
  cases loc with
  | dram pa => exact keeps_sliceReadE_of hs hn hw w pa
  | mxel base fmt off => exact fun s => hn _ _ (noWake_mxReadE w base fmt off n s)
  | _ => exact keeps_skip hs

end

theorem keepsReply_pointRead (id : Nat) (w : Who) (loc : Loc) (n : Nat) : (pointRead w loc n).Keeps (KeepsReply id) :=
  keeps_pointRead_of (keepsReply_steady id) (fun _ _ h => h.keepsReply id) (keepsReply_watchCheck id) w loc n

/-- The open multicast entries are the same. -/
def SameMc (d e : Dev) : Prop := ∀ v, (e.vault v).mc = (d.vault v).mc

theorem sameMc_steady : Steady SameMc := ⟨fun _ _ => rfl, fun _ _ _ h k v => (k v).trans (h v)⟩

theorem sameMc_pointRead (w : Who) (loc : Loc) (n : Nat) : (pointRead w loc n).Keeps SameMc := by
  refine keeps_pointRead_of sameMc_steady (fun _ _ h => h.mc) (fun v loc n s k => ?_) w loc n
  rw [watchCheck_dev]
  exact (congrArg Vault.mc (Dev.vault_congr (wakes_vaults _ _ _) k)).trans
    (Dev.vault_modVault_keep s.dev v k _ Vault.mc fun _ => rfl)

/-- A write at a slice: what wakes no request, and then the watch check. -/
theorem sliceWriteE_parts (w : Who) (k : WrKind) (pa : Nat) (bs : List Byte) (s : State) :
    ∃ act : Eff, act.Keeps NoWake ∧ commit (sliceWriteE w k pa bs) s =
      commit (act.andThen (watchCheck (homeOf (s.dev.redirect pa)) (.dram (s.dev.redirect pa)) bs.length)) s := by
  have hs := noWake_steady
  have hask : ∀ n m, (upd (dramAsk w n m)).Keeps NoWake := fun n m => keeps_upd (noWake_dramAsk w n m)
  have hset : ∀ n ln (g : Line → Line), ((upd (fun d => d.modVault n (fun x => x.modLine ln g))).andThen (touchLine ln)).Keeps
      NoWake := fun n ln g => keeps_andThen hs (keeps_upd fun _ => noWake_modVault _ _ _ fun _ => ⟨rfl, rfl⟩) (noWake_touchLine ln)
  rw [sliceWriteE, commit_look]
  dsimp only
  rw [← commit_andThen_assoc]
  refine ⟨_, ?_, rfl⟩
  refine keeps_andThen hs (keeps_upd (noWake_touched w _)) ?_
  generalize (if k = .atomic then 20 else 18) = pol
  split
  · cases k with
    | stf c =>
      dsimp only
      split
      · exact keeps_andThen hs (noWake_writeBack _) (hset _ _ _)
      · exact hset _ _ _
    | _ => exact hset _ _ _
  · split
    · cases k with
      | zfill => exact noWake_allocLine _ _ _ _ _
      | _ =>
        dsimp only
        split
        · exact keeps_skip hs
        · exact keeps_andThen hs (hask _ _) (keeps_andThen hs (keeps_whenE hs (noWake_fillMarks _ _)) (noWake_allocLine _ _ _ _ _))
    · exact keeps_andThen hs (keeps_wr hs _) (hask _ _)

/-- An atomic that writes nothing wakes nothing. -/
theorem noWake_sliceTouchE (w : Who) (pa : Nat) : (sliceTouchE w pa).Keeps NoWake := by
  have hs := noWake_steady
  have hask : ∀ n m, (upd (dramAsk w n m)).Keeps NoWake := fun n m => keeps_upd (noWake_dramAsk w n m)
  refine keeps_look fun s => keeps_andThen hs (keeps_upd (noWake_touched w _)) ?_
  split
  · refine keeps_andThen hs ?_ (noWake_touchLine _)
    split
    · exact keeps_upd fun _ => noWake_modVault _ _ _ fun _ => ⟨rfl, rfl⟩
    · exact keeps_skip hs
  · dsimp only
    split
    · exact keeps_andThen hs (hask _ _) (keeps_andThen hs (noWake_fillMarks _ _) (noWake_allocLine _ _ _ _ _))
    · exact hask _ _

/-! ## What neither answers a request nor changes a slice -/

/-- Slices, the slice move, the faults of stored bits and the answers of all requests are the same. -/
structure Aside (d e : Dev) : Prop where
  vaults : e.vaults = d.vaults
  move : e.move = d.move
  marks : e.marks = d.marks
  reply : ∀ id, e.reply id = d.reply id

theorem aside_steady : Steady Aside where
  refl _ := ⟨rfl, rfl, rfl, fun _ => rfl⟩
  trans _ _ _ h k := ⟨k.vaults.trans h.vaults, k.move.trans h.move, k.marks.trans h.marks,
    fun id => (k.reply id).trans (h.reply id)⟩

theorem Aside.of_same {d e : Dev} (hv : e.vaults = d.vaults) (hm : e.move = d.move) (hk : e.marks = d.marks)
    (hr : e.reqs = d.reqs) : Aside d e := ⟨hv, hm, hk, Dev.reply_congr hr⟩

theorem Aside.noWake {d e : Dev} (h : Aside d e) : NoWake d e := .of_vaults h.vaults h.reply

theorem aside_modThread (d : Dev) (r : TRef) (g : Thread → Thread) : Aside d (d.modThread r g) := .of_same rfl rfl rfl rfl

theorem aside_acquireWaiting (r : TRef) (id : Nat) (d : Dev) : Aside d (acquireWaiting r id d) := by
  unfold acquireWaiting
  dsimp only
  split
  · exact aside_steady.refl d
  · refine ⟨rfl, rfl, rfl, Dev.reply_map rfl fun x => ?_⟩
    split <;> rfl

theorem aside_acquireFixed (q : Req) (d : Dev) : Aside d (acquireFixed q d) := by
  unfold acquireFixed
  split
  · exact aside_steady.trans _ _ _ (aside_acquireWaiting _ _ d) (aside_modThread _ _ _)
  · exact aside_steady.refl d

theorem aside_l1Stale (core ln : Nat) (d : Dev) : Aside d (l1Stale core ln d) := by
  refine ⟨rfl, rfl, rfl, Dev.reply_map rfl fun x => ?_⟩
  split
  · split <;> rfl
  · rfl

theorem aside_modCore (d : Dev) (n : Nat) (g : Core → Core) : Aside d (d.modCore n g) := .of_same rfl rfl rfl rfl

theorem aside_l1Late (q : Req) (pa : Nat) (bs : List Byte) (d : Dev) : Aside d (l1Late q pa bs d) := by
  have hwrite : Aside d (l1Write q.ref.core pa bs d) := by
    unfold l1Write
    split
    · exact aside_steady.refl d
    · exact aside_modCore d _ _
  unfold l1Late
  dsimp only
  split
  · exact aside_modCore d _ _
  · split
    · exact aside_steady.trans _ _ _ hwrite (aside_modCore _ _ _)
    · exact hwrite

theorem aside_l1DropMx (core : Nat) (loc : Loc) (n : Nat) (d : Dev) : Aside d (l1DropMx core loc n d) := by
  refine ⟨rfl, rfl, rfl, Dev.reply_map rfl fun x => ?_⟩
  split
  · split <;> rfl
  · rfl

theorem aside_staleLoads (cs : List Nat) (d : Dev) : Aside d (staleLoads cs d) := by
  refine ⟨rfl, rfl, rfl, Dev.reply_map rfl fun x => ?_⟩
  split
  · split <;> rfl
  · split <;> rfl
  · rfl

theorem aside_barCheck (c l : Nat) : (barCheck c l).Keeps Aside := by
  refine keeps_look fun s => keeps_withE aside_steady fun f => ?_
  split
  · exact keeps_upd fun _ => .of_same rfl rfl rfl rfl
  · exact keeps_skip aside_steady

theorem aside_foldl {α : Type} {f : Dev → α → Dev} (h : ∀ d x, Aside d (f d x)) (l : List α) (d : Dev) :
    Aside d (l.foldl f d) := by
  induction l generalizing d with
  | nil => exact aside_steady.refl d
  | cons x l ih => exact aside_steady.trans _ _ _ (h d x) (ih _)

theorem aside_hbarCheck (c l : Nat) : (hbarCheck c l).Keeps Aside := by
  refine keeps_look fun s => keeps_withE aside_steady fun f => ?_
  dsimp only
  split
  · refine keeps_upd fun d => ?_
    refine aside_steady.trans _ _ _ (aside_foldl ?_ (s.dev.herdOf f) d)
      (aside_steady.trans _ _ _ (aside_staleLoads ((s.dev.herdOf f).map (·.core)) _) (.of_same rfl rfl rfl rfl))
    exact fun d x => .of_same rfl rfl rfl rfl
  · exact keeps_skip aside_steady

theorem aside_barriersAt (c l : Nat) : (barriersAt c l).Keeps Aside :=
  keeps_andThen aside_steady (keeps_andThen aside_steady (aside_barCheck c l) (aside_hbarCheck c l))
    (keeps_look fun _ => keeps_forE aside_steady fun _ _ => aside_hbarCheck _ _)

theorem silent_barriersAt (c l : Nat) : (barriersAt c l).Silent :=
  writesOnly_andThen (silent_barriers c l) (writesOnly_look fun _ => writesOnly_forE fun _ _ => silent_hbarCheck _ _)

theorem calm_barriersAt (c l : Nat) : (barriersAt c l).Calm :=
  calm_andThen (calm_barriers c l) (calm_look fun _ => calm_forE fun _ _ => calm_hbarCheck _ _)

/-! ## The bytes of every place -/

/-- Slices hold the same lines, and pages lie where they did. -/
structure SameLines (d e : Dev) : Prop where
  lines : ∀ v, (e.vault v).lines = (d.vault v).lines
  move : e.move = d.move

theorem Aside.sameLines {d e : Dev} (h : Aside d e) : SameLines d e :=
  ⟨fun v => congrArg Vault.lines (Dev.vault_congr h.vaults v), h.move⟩

/-- Then every place holds the same bytes. -/
theorem State.point_congr {s t : State} (hb : s.sameBytes t) (hl : SameLines s.dev t.dev) (loc : Loc) (n : Nat) :
    t.point loc n = s.point loc n := by
  obtain ⟨hmem, hsto⟩ := hb
  have hline : ∀ ln, t.lineBytes ln = s.lineBytes ln := fun ln => by
    simp only [State.lineBytes, Vault.line?, hl.lines, hmem]
  have hred : ∀ pa, t.dev.redirect pa = s.dev.redirect pa := Dev.redirect_congr hl.move
  have hstore : ∀ k, t.store k = s.store k := fun k => by simp only [State.store, hsto]
  have hdram : ∀ pa n, t.dramBytes pa n = s.dramBytes pa n := fun pa n => by simp only [State.dramBytes, hline, hred]
  cases loc with
  | dram pa => rw [State.point_dram, State.point_dram, hline, hred]
  | host pa => exact congrArg (Memory.reads · pa n) hmem
  | mxel base fmt off => simp only [State.point, State.mxBytes, State.mxBlock, hdram]
  | _ => simp only [State.point, hstore]

/-- A check of watches leaves the bytes of every place (R102). -/
theorem point_watchCheck {v n : Nat} {loc : Loc} {s t : State} (h : commit (watchCheck v loc n) s = .next t) (l : Loc) (m : Nat) :
    t.point l m = s.point l m := by
  have hmove : t.dev.move = s.dev.move := ((keeps_watchCheck v loc n).next h).move
  have ht := (Host.Outcome.next.inj ((commit_watchCheck v loc n s).symm.trans h)).symm
  refine State.point_congr (by rw [ht]; exact ⟨rfl, rfl⟩) ⟨fun k => ?_, hmove⟩ l m
  rw [ht, watchCheck_dev]
  refine (congrArg Vault.lines (Dev.vault_congr (wakes_vaults _ _ _) k)).trans ?_
  exact Dev.vault_modVault_keep s.dev v k _ Vault.lines fun _ => rfl

/-! ## What follows a write -/

/-- A write performed at its point: the request is performed, and beyond that nothing is answered and no slice changed. -/
theorem aside_wrote {q : Req} {bs : List Byte} {s t : State} (h : commit (wrote q bs) s = .next t) :
    Aside (s.dev.modReq q.id (fun x => { x with performed := true })) t.dev := by
  obtain ⟨u, hu, ht⟩ := commit_andThen_next.1 h
  refine aside_steady.trans _ _ _ ?_ ((aside_barriersAt _ _).next ht)
  rw [commit_upd_next.1 hu]
  dsimp only [State.device]
  split
  · exact aside_steady.trans _ _ _ (aside_l1Late q _ bs _) (aside_l1Stale _ _ _)
  · exact aside_l1DropMx _ _ _ _
  · exact aside_steady.refl _

theorem calm_wrote (q : Req) (bs : List Byte) : (wrote q bs).Calm := calm_andThen (calm_upd _) (calm_barriersAt _ _)

theorem silent_wrote (q : Req) (bs : List Byte) : (wrote q bs).Silent :=
  writesOnly_andThen (writesOnly_upd _) (silent_barriersAt _ _)

theorem point_wrote {q : Req} {bs : List Byte} {s t : State} (h : commit (wrote q bs) s = .next t) (loc : Loc) (n : Nat) :
    t.point loc n = s.point loc n := by
  have haside := (aside_wrote h).sameLines
  exact State.point_congr ((silent_wrote q bs).sameBytes h) ⟨haside.lines, haside.move⟩ loc n

/-- The answer of the request whose write it is: performed, with the value that it had. -/
theorem reply_wrote {q : Req} {bs : List Byte} {s t : State} (h : commit (wrote q bs) s = .next t) :
    t.dev.reply q.id = (s.dev.reply q.id).map (fun a => (true, a.2)) := by
  rw [(aside_wrote h).reply, Dev.reply_modReq_same, Dev.reply, Option.map_map]
  · rfl
  · exact fun _ hx => hx

theorem reply_wrote_other {q : Req} {bs : List Byte} {s t : State} {id : Nat} (hne : id ≠ q.id)
    (h : commit (wrote q bs) s = .next t) : t.dev.reply id = s.dev.reply id := by
  rw [(aside_wrote h).reply, Dev.reply_modReq_other _ hne]
  exact fun _ hx => hx

theorem watch_wrote {q : Req} {bs : List Byte} {s t : State} (h : commit (wrote q bs) s = .next t) (v : Nat) :
    (t.dev.vault v).watch = (s.dev.vault v).watch := (aside_wrote h).noWake.watch v

/-! ## Requests that meet no fault of stored bits -/

/-- Without faults of stored bits a request meets its checks unhindered (R377). -/
theorem commit_checked_clean {s : State} (h : s.dev.marks = []) (q : Req) (e : Eff) : commit (checked q e) s = commit e s := by
  have hfirst : commit (whenE q.kind.isStore (eccWrite q.loc q.n)) s = .next s := by
    cases q.kind.isStore with
    | true => exact commit_eccWrite_clean h _ _
    | false => rfl
  rw [checked, commit_andThen_of_next hfirst, commit_look]
  dsimp only
  rw [commit_andThen_of_next (commit_eccRead_clean h _ _ _), Dev.eccBad_clean h]
  rfl

theorem Dev.due_some {d : Dev} {id : Nat} {q : Req} (h : d.due id = some q) :
    d.req? id = some q ∧ q.id = id ∧ q.performed = false ∧ q.mayPerform d = true := by
  obtain ⟨hreq, hp⟩ := Option.filter_eq_some_iff.1 h
  simp only [Bool.and_eq_true, Bool.not_eq_true'] at hp
  exact ⟨hreq, Dev.req?_id hreq, hp.1, hp.2⟩

/-! ## Reads at the point -/

theorem calm_mxFlush (loc : Loc) (n : Nat) : (mxFlush loc n).Calm := calm_look fun _ => calm_forE fun _ _ => calm_flushLine _

theorem calm_mxReadE (w : Who) (base fmt off n : Nat) : (mxReadE w base fmt off n).Calm :=
  calm_andThen (calm_andThen (calm_upd _) (calm_mxFlush _ _)) (calm_forE fun _ _ => calm_upd _)

theorem calm_pointRead (w : Who) (loc : Loc) (n : Nat) : (pointRead w loc n).Calm := by
  cases loc with
  | dram pa => exact calm_sliceReadE w pa
  | mxel base fmt off => exact calm_mxReadE w base fmt off n
  | _ => exact calm_skip

theorem calm_performLoad (q : Req) : (performLoad q).Calm :=
  calm_look fun _ => calm_andThen (calm_upd _) (calm_andThen (calm_pointRead _ _ _) (calm_barriersAt _ _))

/-- A request whose value is fixed. -/
def Dev.fixed (d : Dev) (q : Req) (val : List Byte) : Dev :=
  acquireFixed q (d.modReq q.id (fun x => { x with performed := true, val := val }))

theorem Dev.reply_fixed {d : Dev} {q x : Req} (hx : d.req? q.id = some x) (val : List Byte) :
    (d.fixed q val).reply q.id = some (true, val) := by
  rw [Dev.fixed, (aside_acquireFixed q _).reply, Dev.reply_modReq_same, hx]
  · rfl
  · exact fun _ hx => hx

theorem Dev.reply_fixed_other {d : Dev} {q : Req} {id : Nat} (hne : id ≠ q.id) (val : List Byte) :
    (d.fixed q val).reply id = d.reply id := by
  rw [Dev.fixed, (aside_acquireFixed q _).reply, Dev.reply_modReq_other _ hne]
  exact fun _ hx => hx

theorem Dev.unwatched_fixed {d : Dev} {id : Nat} (h : d.Unwatched id) (q : Req) (val : List Byte) :
    (d.fixed q val).Unwatched id := by
  intro v e he
  have hwatch : ((d.fixed q val).vault v).watch = (d.vault v).watch := (aside_acquireFixed q _).noWake.watch v
  exact h v e (hwatch ▸ he)

/-- A read at the point fixes the value; its work at the slice answers no other request than watches. -/
theorem performLoad_keepsReply {s t : State} {q : Req} (h : commit (performLoad q) s = .next t) (id : Nat) :
    KeepsReply id (s.dev.fixed q (s.point q.reads.1 q.reads.2)) t.dev := by
  rw [performLoad, commit_look] at h
  obtain ⟨u, hu, h⟩ := commit_andThen_next.1 h
  obtain ⟨u', hread, hbar⟩ := commit_andThen_next.1 h
  have hfix : u.dev = s.dev.fixed q (s.point q.reads.1 q.reads.2) := by rw [commit_upd_next.1 hu]; rfl
  rw [← hfix]
  exact (keepsReply_steady id).trans _ _ _ ((keepsReply_pointRead id _ _ _).next hread)
    (((aside_barriersAt _ _).next hbar).noWake.keepsReply id)

theorem performLoad_reply {s t : State} {q x : Req} (h : commit (performLoad q) s = .next t) (hx : s.dev.req? q.id = some x)
    (hw : s.dev.Unwatched q.id) : t.dev.reply q.id = some (true, s.point q.reads.1 q.reads.2) :=
  (performLoad_keepsReply h q.id (Dev.unwatched_fixed hw q _)).2.trans (Dev.reply_fixed hx _)

theorem performLoad_reply_other {s t : State} {q : Req} {id : Nat} (h : commit (performLoad q) s = .next t) (hne : id ≠ q.id)
    (hw : s.dev.Unwatched id) : t.dev.reply id = s.dev.reply id :=
  (performLoad_keepsReply h id (Dev.unwatched_fixed hw q _)).2.trans (Dev.reply_fixed_other hne _)

end Sys2Proof.Machine
end

section
/-! SUPPORT. A write at its point of serialisation: its bytes are found at its place (R98-R100, R227, R271). -/

namespace Sys2Proof.Machine

/-! ## A line zeroed (R223) -/

theorem Line.bytes_zero {l : Line} (h : l.st = .zero) : l.bytes = List.replicate 128 0 := if_pos h

/-- A line that a slice takes in as zeroed. -/
theorem lineHeld_allocLine_zero {w : Who} {l ln : Nat} {data : List Byte} {s t : State} (hv : s.dev.vaults.length = 64)
    (hmask : bits (s.dev.part w).toNat 0 16 ≠ 0) (h : commit (allocLine w l ln .zero data) s = .next t) :
    t.dev.lineHeld ln = some (List.replicate 128 0) := by
  have hput : ∀ {way : Nat} {u : State}, u.dev.vaults.length = 64 →
      commit (upd (fun d => d.modVault (homeOf (ln * 128)) (fun x =>
        { x with tick := x.tick + 1,
                 lines := ⟨ln, .zero, way, if policy (s.dev.part w) l = 2 then 0 else x.tick + 1, data⟩ :: x.lines }))) u =
        .next t → t.dev.lineHeld ln = some (List.replicate 128 0) := fun hu hp => by
    rw [commit_upd_next.1 hp]
    refine (Dev.lineHeld_modVault_cons (ln := ln) hu rfl rfl).trans ?_
    rw [Line.bytes_zero rfl]
  have hdrop : ∀ (old : Line) (e : Dev), (e.dropLine old.line).vaults.length = e.vaults.length := fun old e =>
    (sliceKeeps_dropLine e old.line).vaults
  rw [allocLine, commit_look] at h
  dsimp only at h
  split at h
  · rename_i hnone
    exact absurd hnone (pickWay_isSome _ _ _ hmask (Nat.mod_lt _ (by decide)))
  · split at h
    · exact hput hv h
    · split at h
      · obtain ⟨u, hu, ht⟩ := commit_andThen_next.1 h
        exact hput (by rw [commit_upd_next.1 hu, State.device, hdrop, hv]) ht
      · obtain ⟨u, hback, h⟩ := commit_andThen_next.1 h
        obtain ⟨u', hu', ht⟩ := commit_andThen_next.1 h
        exact hput (by rw [commit_upd_next.1 hu', State.device, hdrop, (vaults_writeBack _).next hback, hv]) ht

/-- A line that its slice holds is zeroed there. -/
theorem lineHeld_set_zero {ln : Nat} {new : List Byte} {s t : State} (hv : s.dev.vaults.length = 64)
    (hs : (s.dev.lineHeld ln).isSome)
    (h : commit ((upd (fun d => d.modVault (homeOf (ln * 128)) (fun x => x.modLine ln (fun l =>
      { l with st := .zero, data := new })))).andThen (touchLine ln)) s = .next t) :
    t.dev.lineHeld ln = some (List.replicate 128 0) := by
  obtain ⟨u, hu, ht⟩ := commit_andThen_next.1 h
  obtain ⟨l, hl⟩ := Option.isSome_iff_exists.1 ((Option.isSome_map ..).symm.trans hs)
  have hline : l.line = ln := by simpa using List.find?_some hl
  rw [lineHeld_touchLine ln ht, commit_upd_next.1 hu, Dev.lineHeld, State.device,
    Dev.vault_modVault_same _ _ (hv ▸ homeOf_lt _), Vault.line?_modLine, hl]
  · rw [Option.map_some, Option.map_some, if_pos hline, Line.bytes_zero rfl]
  · exact fun _ => rfl

/-- After a ZFILL of a line at its home slice the line reads as zeros (R98, R223). -/
theorem lineBytes_zfill {w : Who} {pa : Nat} {s t : State} (hm : s.MemOk) (hv : s.dev.vaults.length = 64) (hpa : pa % 128 = 0)
    (h : commit (sliceWriteE w .zfill pa (List.replicate 128 0)) s = .next t) :
    t.lineBytes (s.dev.redirect pa / 128) = List.replicate 128 0 := by
  rw [sliceWriteE, commit_look] at h
  dsimp only at h
  have hmod := s.dev.redirect_mod pa
  generalize s.dev.redirect pa = pa' at *
  obtain ⟨u, hu, h⟩ := commit_andThen_next.1 h
  obtain ⟨u', hact, hwatch⟩ := commit_andThen_next.1 h
  have hvaults : SameVaults s.dev u.dev := (keeps_upd fun _ => rfl : (upd (touched w (pa' / 128))).Keeps SameVaults).next hu
  have hlen : u.dev.vaults.length = 64 := (congrArg List.length hvaults).trans hv
  have hpart : u.dev.part w = s.dev.part w := by rw [commit_upd_next.1 hu]; rfl
  have hin : ∀ {b}, u'.dev.lineHeld (pa' / 128) = some b → u'.lineBytes (pa' / 128) = b := fun hb => by
    rw [State.lineBytes_eq, hb, Option.getD_some]
  rw [lineBytes_watchCheck _ hwatch]
  rw [← homeOf_line pa'] at hact
  generalize (if WrKind.zfill = WrKind.atomic then 20 else 18) = pol at hact
  split at hact
  · rename_i l hl
    have hheld : (u.dev.lineHeld (pa' / 128)).isSome := by rw [Dev.lineHeld_congr hvaults, Dev.lineHeld, hl]; rfl
    exact hin (lineHeld_set_zero hlen hheld hact)
  · rename_i hl
    split at hact
    · rename_i hmay
      exact hin (lineHeld_allocLine_zero hlen (by rw [hpart]; exact mayAlloc_mask hmay) hact)
    · have hnone : u.dev.lineHeld (pa' / 128) = none := by rw [Dev.lineHeld_congr hvaults, Dev.lineHeld, hl]; rfl
      have hplace : pa' / 128 * 128 + 0 = pa' := by omega
      refine (lineBytes_past (off := 0) (bs := List.replicate 128 0) (commit_memOk hm hu) hnone (by simp) (hplace.symm ▸ hact)).trans ?_
      rw [overlay, List.take_zero, List.nil_append, List.drop_eq_nil_of_le (by simp [State.length_lineBytes]), List.append_nil]

/-! ## Bytes of a local store -/

theorem aget_aset_same {α : Type} (l : List (Nat × α)) (k : Nat) (v : α) : aget (aset l k v) k = some v := by
  induction l with
  | nil => simp [aget, aset]
  | cons p l ih =>
    obtain ⟨a, w⟩ := p
    unfold aset
    split
    · simp [aget]
    · split
      · simp [aget]
      · rename_i hlt hne
        have hne' : ¬a = k := fun h => hne h.symm
        simpa [aget, hne'] using ih

theorem aget_aset_other {α : Type} (l : List (Nat × α)) {k j : Nat} (v : α) (h : j ≠ k) : aget (aset l k v) j = aget l j := by
  have hkj : ¬k = j := fun he => h he.symm
  induction l with
  | nil => simp [aget, aset, hkj]
  | cons p l ih =>
    obtain ⟨a, w⟩ := p
    unfold aset
    split
    · simp [aget, hkj]
    · split
      · rename_i _ he
        simp [aget, hkj, ← he]
      · by_cases ha : a = j
        · simp [aget, ha]
        · simpa [aget, ha] using ih

/-- A store after a write of one byte to it. -/
theorem store_applyWrite_sto (s : State) (k : StoKey) (off : Nat) (b : Byte) :
    (s.applyWrite (.sto k off b)).store k = { s.store k with cells := aset (s.store k).cells off b } := by
  have hfound : (s.applyWrite (.sto k off b)).sto.find? (fun x => x.key = k) =
      some { s.store k with cells := aset (s.store k).cells off b } := List.find?_cons_of_pos (by simp [State.store_key])
  exact State.store_of_find hfound

theorem Store.read_aset (st : Store) (off i : Nat) (b : Byte) :
    Store.read { st with cells := aset st.cells off b } i = if i = off then b else st.read i := by
  by_cases h : i = off
  · rw [if_pos h, h, Store.read, aget_aset_same]
  · rw [if_neg h, Store.read, aget_aset_other _ _ h]
    rfl

/-- A byte of a local store after a write of consecutive bytes. -/
theorem read_stoWrites (s : State) (k : StoKey) (a i : Nat) (bs : List Byte) :
    ((s.applyWrites (stoWrites k a bs)).store k).read i =
      if a ≤ i then bs[i - a]?.getD ((s.store k).read i) else (s.store k).read i := by
  induction bs generalizing a s with
  | nil => simp [stoWrites, State.applyWrites]
  | cons b bs ih =>
    have hsplit : s.applyWrites (stoWrites k a (b :: bs)) = (s.applyWrite (.sto k a b)).applyWrites (stoWrites k (a + 1) bs) := rfl
    rw [hsplit, ih, store_applyWrite_sto, Store.read_aset]
    rcases Nat.lt_trichotomy i a with hlt | rfl | hgt
    · rw [if_neg (by omega), if_neg (by omega), if_neg (by omega)]
    · rw [if_neg (by omega), if_pos rfl, if_pos (Nat.le_refl _)]
      simp
    · have hidx : i - a = (i - (a + 1)) + 1 := by omega
      rw [if_pos (by omega), if_neg (by omega), if_pos (by omega), hidx, List.getElem?_cons_succ]

/-- The bytes of a write to a vault's direct memory are found there (R100). -/
theorem point_vault_written (s : State) (v off : Nat) (bs : List Byte) :
    (s.applyWrites (stoWrites (.vault v) off bs)).point (.vault v off) bs.length = bs := by
  refine List.ext_getElem (by simp [State.point]) fun i h1 h2 => ?_
  simp only [State.point, List.getElem_map, List.getElem_range, read_stoWrites]
  simp [h2]

/-! ## Writes at a slice -/

/-- What a write at its point needs for its bytes to be found there: within a line, and zeros of a whole line for a ZFILL. -/
def WrKind.fits (k : WrKind) (loc : Loc) (bs : List Byte) : Prop :=
  (∀ pa, loc = .dram pa → pa % 128 + bs.length ≤ 128) ∧ (k = .zfill → bs = List.replicate 128 0)

theorem WrKind.fits_of_length {k : WrKind} {loc : Loc} {bs : List Byte} {n : Nat} (hk : k ≠ .zfill) (hn : bs.length = n)
    (hin : ∀ pa, loc = .dram pa → pa % 128 + n ≤ 128) : k.fits loc bs :=
  ⟨hn.symm ▸ hin, fun h => absurd h hk⟩

theorem point_pointWrite {w : Who} {k : WrKind} {loc : Loc} {bs : List Byte} {s t : State} (hm : s.MemOk)
    (hv : s.dev.vaults.length = 64) (hc : s.dev.marks = []) (hslice : loc.atSlice = true) (hfits : k.fits loc bs)
    (h : commit (pointWrite w k loc bs) s = .next t) : t.point loc bs.length = bs := by
  cases loc with
  | dram pa =>
    have hin := hfits.1 pa rfl
    by_cases hk : k = .zfill
    · subst hk
      obtain rfl := hfits.2 rfl
      rw [List.length_replicate] at hin
      have hkeep : SliceKeeps s.dev t.dev := (keeps_sliceWriteE w .zfill pa _).next h
      have hmod : s.dev.redirect pa % 128 = 0 := by rw [Dev.redirect_mod]; omega
      rw [State.point_dram, Dev.redirect_congr hkeep.move, hmod, lineBytes_zfill hm hv (by omega) h, List.drop_zero,
        List.length_replicate, List.take_of_length_le (Nat.le_of_eq List.length_replicate)]
    · exact point_sliceWriteE hk hm hv (Dev.lineBad_clean hc _) hin h
  | vault v off =>
    rw [pointWrite] at h
    obtain ⟨u, hu, hwatch⟩ := commit_andThen_next.1 h
    rw [point_watchCheck hwatch, Host.Outcome.next.inj ((commit_wr _ s).symm.trans hu).symm]
    exact point_vault_written s v off bs
  | _ => exact absurd hslice Bool.false_ne_true

end Sys2Proof.Machine
end

section
/-! SUPPORT. Requests that are due at a slice (R98-R100, R214, R223, R226, R227, R271). -/

namespace Sys2Proof.Machine

/-! ## A write that a watch check follows -/

theorem calm_pointWrite_slice {w : Who} {k : WrKind} {loc : Loc} {bs : List Byte} (h : loc.atSlice = true) :
    (pointWrite w k loc bs).Calm := by
  cases loc with
  | dram pa => exact calm_sliceWriteE w k pa bs
  | vault v off => exact calm_andThen (calm_wr _) (calm_watchCheck _ _ _)
  | _ => exact absurd h Bool.false_ne_true

/-- Where a write of a place lands: its page may have moved (R332). -/
def Loc.landing (l : Loc) (d : Dev) : Loc :=
  match l with
  | .dram pa => .dram (d.redirect pa)
  | l => l

/-- A write at a slice wakes nothing until its watch check (R102). -/
theorem pointWrite_parts {w : Who} {k : WrKind} {loc : Loc} {bs : List Byte} (s : State) (h : loc.atSlice = true) :
    ∃ act : Eff, act.Keeps NoWake ∧ commit (pointWrite w k loc bs) s =
      commit (act.andThen (watchCheck (loc.mcVault s.dev) (loc.landing s.dev) bs.length)) s := by
  cases loc with
  | dram pa => exact sliceWriteE_parts w k pa bs s
  | vault v off => exact ⟨_, keeps_wr noWake_steady _, rfl⟩
  | _ => exact absurd h Bool.false_ne_true

theorem keepsReply_pointWrite {w : Who} {k : WrKind} {loc : Loc} {bs : List Byte} {s t : State} (h : loc.atSlice = true) (id : Nat)
    (ht : commit (pointWrite w k loc bs) s = .next t) : KeepsReply id s.dev t.dev := by
  obtain ⟨act, hact, hparts⟩ := pointWrite_parts (w := w) (k := k) (bs := bs) s h
  obtain ⟨u, hu, hwatch⟩ := commit_andThen_next.1 (hparts.symm.trans ht)
  exact (keepsReply_steady id).trans _ _ _ ((hact.next hu).keepsReply id) ((keepsReply_watchCheck id _ _ _).next hwatch)

/-! ## A request that is due -/

section
variable {s : State} {id : Nat} {q : Req} (h : plainRequest s id q)
include h

theorem plainRequest_due : s.dev.req? id = some q ∧ q.id = id ∧ q.performed = false := by
  obtain ⟨hreq, hid, hp, -⟩ := Dev.due_some h.1
  exact ⟨hreq, hid, hp⟩

theorem plainRequest_unwatched : s.dev.Unwatched id := .of_vaults h.2.2.2

/-- A due request of its kind reaches its slice and is performed there. -/
theorem commit_atSlice_plain {is : ReqKind → Bool} (hk : is q.kind = true) (hl : q.loc.atSlice = true) (e : Req → Eff) :
    commit (atSlice id is e) s = commit (e q) s := by
  rw [atSlice, commit_look, h.1, commit_withE_some, hk, hl]
  exact commit_checked_clean h.2.1 q (e q)

/-- A write at the slice that performs the request: it is answered, and its bytes are at its place. -/
theorem store_performed {k : WrKind} (hm : s.MemOk) (hl : q.loc.atSlice = true) (hfits : k.fits q.loc q.data)
    (hn : q.n ≤ 8 ∨ k = .zfill) : ∃ t x, commit (performStore k q) s = .next t ∧ t.dev.req? id = some x ∧ x.performed = true ∧
      t.point q.loc q.data.length = q.data := by
  obtain ⟨hreq, rfl, -⟩ := plainRequest_due h
  have hwrite := (calm_pointWrite_slice (w := q.who false) (k := k) (bs := q.data) hl).next s
  have hpoint := point_pointWrite hm h.2.2.1 h.2.1 hl hfits hwrite
  have hkept := (keepsReply_pointWrite hl q.id hwrite (plainRequest_unwatched h)).2
  generalize s.apply _ = u at *
  have hwrote := (calm_wrote q q.data).next u
  have hreply := reply_wrote hwrote
  rw [hkept, Dev.reply_of_req hreq] at hreply
  obtain ⟨x, hx, hp, -⟩ := Dev.reply_some hreply
  refine ⟨_, x, ?_, hx, hp, (point_wrote hwrote _ _).trans hpoint⟩
  rw [performStore, if_pos hn, commit_andThen_of_next hwrite]
  exact hwrote

/-- A store of more than 8 bytes writes 8 of them and goes on (R269). -/
theorem store_goesOn (hm : s.MemOk) (hl : q.loc.atSlice = true) (hdata : q.data.length = q.n)
    (hin : ∀ pa, q.loc = .dram pa → pa % 128 + 8 ≤ 128) (hn : 8 < q.n) :
    ∃ t, commit (performStore .plain q) s = .next t ∧ t.dev.req? id = some (q.rest 8) ∧ t.point q.loc 8 = q.data.take 8 := by
  obtain ⟨hreq, rfl, -⟩ := plainRequest_due h
  have hlen : (q.data.take 8).length = 8 := by rw [List.length_take]; omega
  have hwrite := (calm_pointWrite_slice (w := q.who false) (k := .plain) (bs := q.data.take 8) hl).next s
  have hpoint := point_pointWrite hm h.2.2.1 h.2.1 hl (WrKind.fits_of_length WrKind.noConfusion hlen hin) hwrite
  rw [hlen] at hpoint
  have hkept := (keepsReply_pointWrite hl q.id hwrite (plainRequest_unwatched h)).2
  rw [Dev.reply_of_req hreq] at hkept
  generalize s.apply _ = u at *
  obtain ⟨y, hy, -, -⟩ := Dev.reply_some hkept
  refine ⟨u.device (fun d => d.modReq q.id (fun _ => q.rest 8)), ?_, ?_, ?_⟩
  · have hmore : ¬(q.n ≤ 8 ∨ WrKind.plain = .zfill) := by
      rintro (hle | hk)
      · omega
      · cases hk
    rw [performStore, if_neg hmore, commit_andThen_of_next hwrite]
    exact commit_upd _ u
  · exact (Dev.req?_modReq_same (g := fun _ => q.rest 8) fun _ _ => rfl).trans ((congrArg (Option.map _) hy).trans rfl)
  · exact (State.point_congr (s := u) ⟨rfl, rfl⟩ ⟨fun _ => rfl, rfl⟩ _ _).trans hpoint

end

/-! ## Atomics (R226, R227) -/

theorem keeps_sliceTouchE (w : Who) (pa : Nat) : (sliceTouchE w pa).Keeps SliceKeeps := by
  have hs := sliceKeeps_steady
  refine keeps_look fun s => keeps_andThen hs (keeps_upd (sliceKeeps_touched w _)) ?_
  split
  · refine keeps_andThen hs ?_ (keeps_touchLine _)
    split
    · exact keeps_upd fun _ => sliceKeeps_modVault _ _ _
    · exact keeps_skip hs
  · dsimp only
    split
    · exact keeps_andThen hs (keeps_upd (sliceKeeps_dramAsk _ _ _))
        (keeps_andThen hs (keeps_fillMarks _ _) (keeps_allocLine _ _ _ _ _))
    · exact keeps_upd (sliceKeeps_dramAsk _ _ _)

theorem calm_sliceTouchE (w : Who) (pa : Nat) : (sliceTouchE w pa).Calm := by
  refine calm_look fun s => calm_andThen (calm_upd _) ?_
  split
  · refine calm_andThen ?_ (calm_touchLine _)
    split
    · exact calm_upd _
    · exact calm_skip
  · dsimp only
    split
    · exact calm_andThen (calm_upd _) (calm_andThen (calm_fillMarks _ _) (calm_allocLine _ _ _ _ _))
    · exact calm_upd _

/-- A line that a forward tag leaves holds what it held (R99). -/
theorem lineHeld_untagged {d : Dev} {ln c : Nat} {l : Line} (hv : d.vaults.length = 64)
    (hl : (d.vault (homeOf (ln * 128))).line? ln = some l) (hst : l.st = .fwd c) :
    (d.modVault (homeOf (ln * 128)) (fun x => x.modLine ln (fun l => { l with st := .dirty }))).lineHeld ln = d.lineHeld ln := by
  have hline : l.line = ln := by simpa using List.find?_some hl
  have hbytes : ({ l with st := .dirty } : Line).bytes = l.bytes := by
    rw [Line.bytes, Line.bytes, if_neg LineSt.noConfusion, if_neg (by rw [hst]; exact LineSt.noConfusion)]
  rw [Dev.lineHeld, Dev.lineHeld, Dev.vault_modVault_same _ _ (hv ▸ homeOf_lt _), Vault.line?_modLine, hl]
  · rw [Option.map_some, Option.map_some, Option.map_some, if_pos hline, hbytes]
  · exact fun _ => rfl

/-- An atomic that writes nothing leaves its line's bytes (R226). -/
theorem lineBytes_sliceTouchE {w : Who} {pa : Nat} {s t : State} (hv : s.dev.vaults.length = 64)
    (h : commit (sliceTouchE w pa) s = .next t) :
    t.lineBytes (s.dev.redirect pa / 128) = s.lineBytes (s.dev.redirect pa / 128) := by
  rw [sliceTouchE, commit_look] at h
  dsimp only at h
  generalize s.dev.redirect pa = pa' at *
  obtain ⟨u, hu, hact⟩ := commit_andThen_next.1 h
  have hvaults : SameVaults s.dev u.dev := (keeps_upd fun _ => rfl : (upd (touched w (pa' / 128))).Keeps SameVaults).next hu
  have hlen : u.dev.vaults.length = 64 := (congrArg List.length hvaults).trans hv
  have hpart : u.dev.part w = s.dev.part w := by rw [commit_upd_next.1 hu]; rfl
  have hmem : u.mem = s.mem := by rw [commit_upd_next.1 hu]; rfl
  rw [← homeOf_line pa'] at hact
  split at hact
  · rename_i l hl
    have hheld : s.dev.lineHeld (pa' / 128) = some l.bytes := by rw [Dev.lineHeld, hl]; rfl
    suffices t.dev.lineHeld (pa' / 128) = s.dev.lineHeld (pa' / 128) by
      rw [State.lineBytes_eq, State.lineBytes_eq, this, hheld, Option.getD_some, Option.getD_some]
    obtain ⟨u', htag, htouch⟩ := commit_andThen_next.1 hact
    rw [lineHeld_touchLine _ htouch, ← Dev.lineHeld_congr hvaults]
    split at htag
    · rename_i c hst
      rw [commit_upd_next.1 htag]
      exact lineHeld_untagged hlen (by rw [Dev.vault_congr hvaults]; exact hl) hst
    · cases htag
      rfl
  · rename_i hl
    split at hact
    · rename_i hmay
      simp only [Bool.and_eq_true] at hmay
      have hmask : bits (u.dev.part w).toNat 0 16 ≠ 0 := by rw [hpart]; exact mayAlloc_mask hmay.1
      have hheld := lineHeld_fill (b := true) (st := .clean) hlen hmask LineSt.noConfusion (State.length_lineBytes s _) hact
      rw [State.lineBytes_eq, hheld, Option.getD_some]
    · have hnone : s.dev.lineHeld (pa' / 128) = none := by rw [Dev.lineHeld, hl]; rfl
      have hsame : t.dev.lineHeld (pa' / 128) = s.dev.lineHeld (pa' / 128) := by
        rw [commit_upd_next.1 hact, State.device, Dev.lineHeld_congr (sameVaults_dramAsk _ _ _ _), Dev.lineHeld_congr hvaults]
      have hmem' : t.mem = s.mem := by rw [commit_upd_next.1 hact]; exact hmem
      rw [State.lineBytes_eq, State.lineBytes_eq, hsame, hmem']

/-- What an atomic does at its place: it writes the new value, or nothing where a CAS does not match (R226). -/
def atomicAct (q : Req) (old : List Byte) : Eff :=
  if q.kind = .cas ∧ old ≠ q.data.take q.n then
    match q.loc with
    | .dram pa => sliceTouchE (q.who false) pa
    | _ => skip
  else pointWrite (q.who false) .atomic q.loc (q.modified old)

theorem performAtomic_eq (q : Req) (s : State) : commit (performAtomic q) s =
    commit (seqE [
      upd (fun d => acquireFixed q (d.modReq q.id (fun x => { x with val := s.point q.loc q.n }))),
      atomicAct q (s.point q.loc q.n),
      wrote q (q.modified (s.point q.loc q.n)) ]) s := by
  rw [performAtomic, commit_look]
  dsimp only
  generalize s.point q.loc q.n = old
  congr 4
  unfold atomicAct
  by_cases hcas : q.kind = .cas ∧ old ≠ q.data.take q.n
  · rw [if_pos hcas, hcas.1]
    have hne : (old == q.data.take q.n) = false := beq_false_of_ne hcas.2
    rw [hne]
    cases q.loc <;> rfl
  · rw [if_neg hcas]
    cases hk : q.kind with
    | cas =>
      have heq : (old == q.data.take q.n) = true := by
        simp only [hk, true_and, not_not] at hcas
        rw [hcas, beq_self_eq_true]
      rw [heq]
    | _ => rfl

/-- An atomic's work at its slice: it answers nothing else than watches, and its place holds the new value. -/
theorem atomicAct_slice {q : Req} {s : State} (hm : s.MemOk) (hv : s.dev.vaults.length = 64) (hc : s.dev.marks = [])
    (hl : q.loc.atSlice = true) (hn : (q.modified (s.point q.loc q.n)).length = q.n)
    (hin : ∀ pa, q.loc = .dram pa → pa % 128 + q.n ≤ 128) (id : Nat) :
    ∃ t, commit (atomicAct q (s.point q.loc q.n)) s = .next t ∧ KeepsReply id s.dev t.dev ∧
      t.point q.loc q.n = q.modified (s.point q.loc q.n) := by
  unfold atomicAct
  by_cases hcas : q.kind = .cas ∧ s.point q.loc q.n ≠ q.data.take q.n
  · rw [if_pos hcas]
    have hold : q.modified (s.point q.loc q.n) = s.point q.loc q.n := by
      unfold Req.modified
      rw [hcas.1]
      exact if_neg hcas.2
    rw [hold]
    split
    · rename_i pa hpa
      have htouch := (calm_sliceTouchE (q.who false) pa).next s
      have hmove := ((keeps_sliceTouchE _ _).next htouch).move
      refine ⟨_, htouch, ((noWake_sliceTouchE _ _).keepsReply id).next htouch, ?_⟩
      rw [hpa, State.point_dram, State.point_dram, Dev.redirect_congr hmove, lineBytes_sliceTouchE hv htouch]
    · exact ⟨s, rfl, (keepsReply_steady id).refl _, rfl⟩
  · rw [if_neg hcas]
    have hwrite := (calm_pointWrite_slice (w := q.who false) (k := .atomic) (bs := q.modified (s.point q.loc q.n)) hl).next s
    have hpoint := point_pointWrite hm hv hc hl (WrKind.fits_of_length WrKind.noConfusion hn hin) hwrite
    rw [hn] at hpoint
    exact ⟨_, hwrite, keepsReply_pointWrite hl id hwrite, hpoint⟩

theorem length_leBytes (n x : Nat) : (leBytes n x).length = n := by
  induction n generalizing x with
  | zero => rfl
  | succ n ih => rw [leBytes, List.length_cons, ih]

/-- The new value has the width of the old. -/
theorem Req.length_modified {q : Req} {old : List Byte} (hold : old.length = q.n)
    (hcas : q.kind.isAtomic = true) (hdata : q.kind = .cas → q.data.length = 2 * q.n) : (q.modified old).length = q.n := by
  cases hk : q.kind with
  | atom op | red op =>
    simp only [Req.modified, hk]
    exact length_leBytes _ _
  | cas =>
    simp only [Req.modified, hk]
    split
    · rw [List.length_take, List.length_drop, hdata hk]
      omega
    · exact hold
  | _ =>
    rw [hk] at hcas
    exact absurd hcas Bool.false_ne_true

theorem State.length_point_slice {s : State} {loc : Loc} {n : Nat} (hl : loc.atSlice = true)
    (hin : ∀ pa, loc = .dram pa → pa % 128 + n ≤ 128) : (s.point loc n).length = n := by
  cases loc with
  | dram pa =>
    have hn := hin pa rfl
    rw [State.point_dram, List.length_take, List.length_drop, State.length_lineBytes, Dev.redirect_mod]
    omega
  | vault v off => simp [State.point]
  | _ => exact absurd hl Bool.false_ne_true

/-- An atomic that is due takes the old bytes and leaves the new value (R226, R227). -/
theorem atomic_performed {s : State} {id : Nat} {q : Req} (h : plainRequest s id q) (hm : s.MemOk) (hl : q.loc.atSlice = true)
    (hk : q.kind.isAtomic = true) (hdata : q.kind = .cas → q.data.length = 2 * q.n)
    (hin : ∀ pa, q.loc = .dram pa → pa % 128 + q.n ≤ 128) :
    ∃ t x, commit (performAtomic q) s = .next t ∧ t.dev.req? id = some x ∧ x.performed = true ∧ x.val = s.point q.loc q.n ∧
      t.point q.loc q.n = q.modified (s.point q.loc q.n) := by
  obtain ⟨hreq, rfl, hperf⟩ := plainRequest_due h
  have hwatched := plainRequest_unwatched h
  obtain ⟨-, hmarks, hvaults, -⟩ := h
  have hlen := Req.length_modified (State.length_point_slice (s := s) hl hin) hk hdata
  have hfirst := commit_upd (fun d => acquireFixed q (d.modReq q.id (fun x => { x with val := s.point q.loc q.n }))) s
  have haside := aside_acquireFixed q (s.dev.modReq q.id (fun x => { x with val := s.point q.loc q.n }))
  rw [performAtomic_eq]
  generalize hold : s.point q.loc q.n = old at *
  have hreply : (acquireFixed q (s.dev.modReq q.id (fun x => { x with val := old }))).reply q.id = some (q.performed, old) := by
    rw [haside.reply, Dev.reply_modReq_same, hreq]
    · rfl
    · exact fun _ hx => hx
  obtain ⟨u, hu, hfix⟩ : ∃ u : State, u = { s with dev := acquireFixed q (s.dev.modReq q.id (fun x => { x with val := old })) } ∧
      Aside (s.dev.modReq q.id (fun x => { x with val := old })) u.dev := ⟨_, rfl, haside⟩
  rw [← hu] at hfirst
  have hpoint : u.point q.loc q.n = old :=
    (State.point_congr (by rw [hu]; exact ⟨rfl, rfl⟩) ⟨hfix.sameLines.lines, hfix.move⟩ _ _).trans hold
  have hunwatched : u.dev.Unwatched q.id := fun v e he => hwatched v e (hfix.noWake.watch v ▸ he)
  obtain ⟨u', hact, hkeep, hnew⟩ := atomicAct_slice (s := u) (q := q) (by rw [hu]; exact hm) (hfix.vaults ▸ hvaults)
    (hfix.marks.trans hmarks) hl (by rw [hpoint]; exact hlen) hin q.id
  rw [hpoint] at hact hnew
  have hwrote := (calm_wrote q (q.modified old)).next u'
  have hdone := reply_wrote hwrote
  rw [(hkeep hunwatched).2, show u.dev.reply q.id = some (q.performed, old) by rw [hu]; exact hreply] at hdone
  obtain ⟨x, hx, hp, hv⟩ := Dev.reply_some hdone
  refine ⟨_, x, ?_, hx, hp, hv, (point_wrote hwrote _ _).trans hnew⟩
  exact (commit_andThen_of_next hfirst).trans ((commit_andThen_of_next hact).trans hwrote)

end Sys2Proof.Machine

open Sys2Proof Sys2Proof.Machine

/-- Settles O22: a due request meets no check, its answer stays as its slice's work and watch checks go on, and a write's bytes
are at its place. -/
theorem sliceRequests_result : Obligations.SliceRequests_result := by
  unfold Obligations.SliceRequests_result
  refine ⟨fun s id q h hk hl => ?_, fun s id q i hm h hdata hin hl hi => ?_, fun s id q hm h hdata hin hl hk hn => ?_,
    fun s id q hm h hk hl hn hdata hin => ?_⟩
  · obtain ⟨hreq, rfl, -⟩ := plainRequest_due h
    have hload := (calm_performLoad q).next s
    obtain ⟨x, hx, hp, hv⟩ := Dev.reply_some (performLoad_reply hload hreq (plainRequest_unwatched h))
    have hexec : exec (.sliceRead q.id) s = commit (performLoad q) s := commit_atSlice_plain h hk hl performLoad
    refine ⟨_, x, hexec.trans hload, hx, hp, hv.trans ?_⟩
    have hload : q.kind.isStore = false := by
      cases hkind : q.kind with
      | ld var | pref => rfl
      | _ =>
        rw [hkind] at hk
        exact absurd hk Bool.false_ne_true
    unfold Req.reads
    rw [hload]
    cases q.loc with
    | dram pa => cases q.nc <;> rfl
    | _ => rfl
  · have hstore : ∀ k : WrKind, exec i s = commit (performStore k q) s → (q.n ≤ 8 ∨ k = .zfill) →
        (k = .zfill → q.data = List.replicate 128 0) →
        ∃ t x, exec i s = .next t ∧ t.dev.req? id = some x ∧ x.performed = true ∧ t.point q.loc q.n = q.data := by
      intro k hexec hn hzero
      rw [hexec, ← hdata]
      exact store_performed h hm hl ⟨hdata.symm ▸ hin, hzero⟩ hn
    obtain ⟨rfl, hk, hn⟩ | ⟨c, rfl, hk, hn⟩ | ⟨rfl, hk, hn, hzero⟩ := hi
    · exact hstore .plain (commit_atSlice_plain h (by rw [hk]; rfl) hl _) (.inl hn) WrKind.noConfusion
    · have hexec : exec (.sliceStf id) s = commit (atSlice id (fun _ => true) (performStore (.stf c))) s := by
        refine (commit_look _ s).trans ?_
        rw [(plainRequest_due h).1, commit_withE_some, hk]
      exact hstore (.stf c) (hexec.trans (commit_atSlice_plain h rfl hl _)) (.inl hn) WrKind.noConfusion
    · exact hstore .zfill (commit_atSlice_plain h (by rw [hk]; rfl) hl _) (.inr rfl) fun _ => hzero
  · have hexec : exec (.sliceWrite id) s = commit (performStore .plain q) s :=
      commit_atSlice_plain h (by rw [hk]; rfl) hl (performStore .plain)
    rw [hexec]
    exact store_goesOn h hm hl hdata hin hn
  · have hexec : exec (.sliceAtomic id) s = commit (performAtomic q) s := commit_atSlice_plain h hk hl performAtomic
    rw [hexec]
    exact atomic_performed h hm hl hk hdata hin
end

section
/-! SUPPORT. WATCH requests at the watch tables, their wakes, and the stores that meet an entry (R102, R177). -/

namespace Sys2Proof.Machine

/-! ## Slices that give up lines without faults (R104) -/

theorem commit_lineMarks_clean {s : State} (h : s.dev.marks = []) (ln : Nat) : commit (lineMarks ln) s = .next s := by
  have hdev : ({ s.dev with marks := [] ++ [] } : Dev) = s.dev := by rw [List.append_nil, ← h]
  rw [lineMarks, commit_look]
  simp only [h, List.filter_nil, List.any_nil, seqE]
  rw [commit_andThen_of_next (commit_forE_nil _ s), commit_upd]
  simp only [h, List.filter_nil, Bool.false_eq_true, if_false]
  rw [hdev]

/-- Without faults of stored bits there are none afterwards. -/
def KeepsClean (d e : Dev) : Prop := d.marks = [] → e.marks = []

theorem keepsClean_steady : Steady KeepsClean := Steady.inv (fun d => d.marks = [])

theorem keepsClean_flushLine (ln : Nat) : (flushLine ln).Keeps KeepsClean := by
  have hdrop : (upd (fun d => d.dropLine ln)).Keeps KeepsClean := keeps_upd fun d h => by
    rw [Dev.dropLine, h, List.filter_nil]
  have hmarks : ∀ n, (lineMarks n).Keeps KeepsClean := fun n s h => by
    obtain ⟨-, hs⟩ := commit_next.1 (commit_lineMarks_clean h n)
    exact (congrArg (fun x : State => x.dev.marks) hs).symm.trans h
  have hask : ∀ w a n, (upd (dramAsk w a n)).Keeps KeepsClean := fun w a n => keeps_upd fun d h => by
    unfold dramAsk
    dsimp only
    split <;> exact h
  refine keeps_look fun s => ?_
  dsimp only
  split
  · exact keeps_skip keepsClean_steady
  · split
    · exact hdrop
    · exact keeps_andThen keepsClean_steady (keeps_andThen keepsClean_steady (hmarks _)
        (keeps_andThen keepsClean_steady (keeps_wr keepsClean_steady _) (hask _ _ _))) hdrop

theorem keepsClean_mxFlush (loc : Loc) (n : Nat) : (mxFlush loc n).Keeps KeepsClean :=
  keeps_look fun _ => keeps_forE keepsClean_steady fun _ _ => keepsClean_flushLine _

/-! ## A WATCH at its table -/

/-- The entry of a WATCH (R102). -/
def Req.watchEnt (q : Req) (cmp : Nat) : WatchEnt := ⟨some q.ref, q.ctx, q.loc, q.n, cmp, BitVec.ofNat 64 (leNat q.data), q.id⟩

/-- A due WATCH reaches its table once the slices have given up the storage lines of a reduced-format page. -/
theorem exec_watchRequest {s s1 : State} {id : Nat} {q : Req} {cmp : Nat} (hdue : s.dev.due id = some q) (hk : q.kind = .watch cmp)
    (hc : s.dev.marks = []) (hflush : if q.loc.isMx = true then commit (mxFlush q.loc q.n) s = .next s1 else s1 = s) :
    exec (.watchRequest id) s = commit
      (if cmpHolds cmp (leNat (s.point q.loc q.n)) (leNat q.data) ∨ 128 ≤ (s.dev.vault (s.dev.watchHome q.loc)).watch.length then
        upd (wake (q.watchEnt cmp) (s.point q.loc q.n))
      else if (s.dev.vault (s.dev.watchHome q.loc)).watch.any (fun x => x.req = id ∧ x.ref = some q.ref) then skip
      else upd (fun d => d.modVault (s.dev.watchHome q.loc) (fun x => { x with watch := x.watch ++ [q.watchEnt cmp] }))) s1 := by
  have hfirst : commit (whenE q.loc.isMx (mxFlush q.loc q.n)) s = .next s1 := by
    cases hmx : q.loc.isMx with
    | true => simp only [hmx, if_true] at hflush; exact hflush
    | false => simp only [hmx, Bool.false_eq_true, if_false] at hflush; rw [hflush]; rfl
  have hclean : s1.dev.marks = [] := ((keeps_whenE keepsClean_steady (keepsClean_mxFlush _ _)).next hfirst) hc
  refine (commit_look _ s).trans ?_
  rw [hdue, commit_withE_some, hk]
  dsimp only
  rw [commit_andThen_of_next hfirst, commit_checked_clean hclean]
  rfl

/-! ## The wake -/

theorem Dev.thread?_congr {d e : Dev} (h : e.flocks = d.flocks) (r : TRef) : e.thread? r = d.thread? r := by
  rw [Dev.thread?, Dev.flock?, h]
  rfl

/-- A thread waits as before, and a request that is not there does not come. -/
structure Waits (r : TRef) (id : Nat) (d e : Dev) : Prop where
  wait : (e.thread? r).map (·.wait) = (d.thread? r).map (·.wait)
  gone : d.req? id = none → e.req? id = none

theorem waits_steady (r : TRef) (id : Nat) : Steady (Waits r id) where
  refl _ := ⟨rfl, fun h => h⟩
  trans _ _ _ h k := ⟨k.wait.trans h.wait, fun hd => k.gone (h.gone hd)⟩

theorem Waits.of_aside {r : TRef} {id : Nat} {d e : Dev} (hf : e.flocks = d.flocks) (h : Aside d e) : Waits r id d e := by
  refine ⟨by rw [Dev.thread?_congr hf], fun hd => ?_⟩
  have hreply := h.reply id
  rw [Dev.reply, Dev.reply, hd, Option.map_none] at hreply
  exact Option.map_eq_none_iff.1 hreply

theorem waits_modThread (r : TRef) (id : Nat) (d : Dev) (k : Thread → Thread) (ht : ∀ x, (k x).t = x.t)
    (hw : ∀ x, (k x).wait = x.wait) : Waits r id d (d.modThread r k) := by
  refine ⟨?_, fun h => h⟩
  rw [Dev.thread?_modThread d r k ht, Option.map_map]
  exact congrArg (Option.map · _) (funext hw)

theorem waits_acquireCore (r : TRef) (id : Nat) (d : Dev) : Waits r id d (acquireCore r d) :=
  waits_modThread r id d (fun th => th.takeOver (d.early r.core) (d.core r.core).floor) (fun _ => rfl) fun _ => rfl

theorem waits_acquireL1 (r : TRef) (id : Nat) (d : Dev) : Waits r id d (acquireL1 r d) := by
  have hs := waits_steady r id
  let e := staleLoads [r.core] d
  have hstale : Waits r id d e := .of_aside rfl (aside_staleLoads [r.core] d)
  have hcore : Waits r id e (e.modCore r.core (fun c => { c with floor := d.nextId })) := .of_aside rfl (aside_modCore e _ _)
  exact hs.trans _ _ _ (hs.trans _ _ _ hstale hcore)
    (waits_modThread r id _ (fun th => { th with l1floor := d.nextId }) (fun _ => rfl) fun _ => rfl)

theorem Dev.req?_delReq (d : Dev) (id : Nat) : (d.delReq id).req? id = none := by
  rw [Dev.req?, List.find?_eq_none]
  intro q hq
  have hne := (List.mem_filter.1 hq).2
  simpa using hne

theorem calm_returnReq (q : Req) (fill : Bool) : (returnReq q fill).Calm := calm_upd _

theorem silent_returnReq (q : Req) (fill : Bool) : (returnReq q fill).Silent := writesOnly_upd _

/-- The return of a WATCH: its request is gone, and its thread still waits. -/
theorem returnReq_watch {s t : State} {q : Req} {c : Nat} (hk : q.kind = .watch c) (h : commit (returnReq q false) s = .next t) :
    (t.dev.thread? q.ref).map (·.wait) = (s.dev.thread? q.ref).map (·.wait) ∧ t.dev.req? q.id = none := by
  have hs := waits_steady q.ref q.id
  have hmissed : ∀ d, (missed q.ctx q.stamp d).flocks = d.flocks := fun d => by
    unfold missed
    split <;> rfl
  have hback : ∀ d, l1Return q false d = d := fun d => by
    unfold l1Return
    rw [hk]
    cases q.loc <;> rfl
  have hload : q.kind.isLoad = false := by rw [hk]; rfl
  rw [returnReq] at h
  rw [commit_upd_next.1 h]
  dsimp only [State.device]
  rw [hload, hback]
  generalize hd : (if (!q.l1 && (q.loc.atSlice || q.loc.isMx)) = true then missed q.ctx q.stamp s.dev else s.dev) = d
  have hthread : (d.delReq q.id).thread? q.ref = s.dev.thread? q.ref := by
    refine Dev.thread?_congr ?_ _
    rw [← hd]
    split
    · exact hmissed s.dev
    · rfl
  generalize ((q.ord == 1 || q.ord == 3) && decide (1 ≤ q.scope)) = acq
  have hcore : Waits q.ref q.id (d.delReq q.id) (if acq = true then acquireCore q.ref (d.delReq q.id) else d.delReq q.id) := by
    split
    · exact waits_acquireCore _ _ _
    · exact hs.refl _
  rw [if_neg Bool.false_ne_true]
  generalize (if acq = true then acquireCore q.ref (d.delReq q.id) else d.delReq q.id) = d1 at hcore ⊢
  have hall : Waits q.ref q.id (d.delReq q.id) (if (acq && decide (2 ≤ q.scope)) = true then acquireL1 q.ref d1 else d1) := by
    split
    · exact hs.trans _ _ _ hcore (waits_acquireL1 _ _ _)
    · exact hcore
  exact ⟨hall.wait.trans (by rw [hthread]), hall.gone (Dev.req?_delReq d q.id)⟩

/-- A thread that a WATCH holds goes on. -/
def Thread.watched (th : Thread) : Thread := if th.wait = .watch then { th with wait := .none } else th

/-- The wake of an answered WATCH: its thread goes on (R177). -/
theorem watchWake_ready {s : State} {q : Req} {c : Nat} {th : Thread} (hk : q.kind = .watch c)
    (hth : s.dev.thread? q.ref = some th) (hw : th.wait = .watch) :
    ∃ t, commit (seqE [returnReq q false, updT q.ref Thread.watched]) s = .next t ∧ s.sameBytes t ∧
      (t.dev.thread? q.ref).map (·.wait) = some .none ∧ t.dev.req? q.id = none := by
  have hreturn := (calm_returnReq q false).next s
  obtain ⟨hwait, hgone⟩ := returnReq_watch hk hreturn
  have hbytes := (silent_returnReq q false).sameBytes hreturn
  generalize s.apply _ = u at *
  refine ⟨{ u with dev := u.dev.modThread q.ref Thread.watched }, (commit_andThen_of_next hreturn).trans (commit_updT _ _ u), hbytes,
    ?_, hgone⟩
  have ht : ∀ x : Thread, x.watched.t = x.t := fun x => by
    unfold Thread.watched
    split <;> rfl
  rw [hth, Option.map_some, hw] at hwait
  obtain ⟨x, hx, hxw⟩ := Option.map_eq_some_iff.1 hwait
  rw [Dev.thread?_modThread _ _ _ ht, hx, Option.map_some, Option.map_some, Thread.watched, if_pos hxw]

/-! ## A store that meets an entry -/

theorem keeps_pointWrite_slice {w : Who} {k : WrKind} {loc : Loc} {bs : List Byte} (h : loc.atSlice = true) :
    (pointWrite w k loc bs).Keeps SliceKeeps := by
  cases loc with
  | dram pa => exact keeps_sliceWriteE w k pa bs
  | vault v off => exact keeps_andThen sliceKeeps_steady (keeps_wr sliceKeeps_steady _) (keeps_watchCheck _ _ _)
  | _ => exact absurd h Bool.false_ne_true

/-- One of several changes answers the request with the value, and none of the others answers it otherwise. -/
theorem reply_foldl_hit {α : Type} {f : Dev → α → Dev} {id : Nat} {v : List Byte} {l : List α} {a : α} (ha : a ∈ l)
    (hhit : ∀ d, (d.reply id).isSome → (f d a).reply id = some (true, v))
    (hsome : ∀ d, ∀ b ∈ l, (d.reply id).isSome → ((f d b).reply id).isSome)
    (hkeep : ∀ d, ∀ b ∈ l, d.reply id = some (true, v) → (f d b).reply id = some (true, v)) (d : Dev) (hd : (d.reply id).isSome) :
    (l.foldl f d).reply id = some (true, v) := by
  have hstay : ∀ (m : List α) (e : Dev), (∀ b ∈ m, b ∈ l) → e.reply id = some (true, v) →
      (m.foldl f e).reply id = some (true, v) := by
    intro m
    induction m with
    | nil => exact fun e _ he => he
    | cons b m ih => exact fun e hm he => ih _ (fun x hx => hm x (by simp [hx])) (hkeep e b (hm b (by simp)) he)
  have hgo : ∀ (m : List α) (e : Dev), (∀ b ∈ m, b ∈ l) → a ∈ m → (e.reply id).isSome →
      (m.foldl f e).reply id = some (true, v) := by
    intro m
    induction m with
    | nil => exact fun e _ hm _ => absurd hm List.not_mem_nil
    | cons b m ih =>
      intro e hm hin he
      have hrest : ∀ x ∈ m, x ∈ l := fun x hx => hm x (by simp [hx])
      obtain rfl | hin := List.mem_cons.1 hin
      · exact hstay m _ hrest (hhit e he)
      · exact ih _ hrest hin (hsome e b (hm b (by simp)) he)
  exact hgo l d (fun _ h => h) ha hd

/-- An answer of a request. -/
theorem Dev.reply_answered {d : Dev} {id : Nat} {v : List Byte} (h : (d.reply id).isSome) :
    (d.modReq id (fun x => { x with performed := true, val := v })).reply id = some (true, v) := by
  obtain ⟨x, hx⟩ := Option.isSome_iff_exists.1 ((Option.isSome_map ..).symm.trans h)
  rw [Dev.reply_modReq_same, hx]
  · rfl
  · exact fun _ hx => hx

/-- Of entries among which a request's is the only one of its number, the request has its answer. -/
theorem reply_wakes_hit {es : List WatchEnt} {e : WatchEnt} {r : TRef} (he : e ∈ es) (hu : ∀ u ∈ es, u.req = e.req → u = e)
    (href : e.ref = some r) (val : WatchEnt → List Byte) (d : Dev) (hd : (d.reply e.req).isSome) :
    (es.foldl (fun d e => wake e (val e) d) d).reply e.req = some (true, val e) := by
  have hhit : ∀ d : Dev, (d.reply e.req).isSome → (wake e (val e) d).reply e.req = some (true, val e) := fun d hd => by
    unfold wake
    rw [href]
    exact Dev.reply_answered hd
  refine reply_foldl_hit he hhit (fun d b hb hd => ?_) (fun d b hb hd => ?_) d hd
  · by_cases hbe : b.req = e.req
    · rw [hu b hb hbe, hhit d hd]
      rfl
    · rwa [reply_wake hbe]
  · by_cases hbe : b.req = e.req
    · rw [hu b hb hbe]
      exact hhit d (by rw [hd]; rfl)
    · rwa [reply_wake hbe]

/-- A store at its slice and an entry of its table (R102): the entry goes, and its request is answered with the bytes at its
place, if the store touches them and the comparison holds of them then; else it stays. -/
theorem store_meets {s : State} {id : Nat} {q : Req} {e : WatchEnt} (h : plainRequest s id q) (hl : q.loc.atSlice = true)
    (hn : q.n ≤ 8) (he : e ∈ (s.dev.vault (q.loc.mcVault s.dev)).watch)
    (honly : ∀ u ∈ (s.dev.vault (q.loc.mcVault s.dev)).watch, u.req = e.req → u = e) :
    ∃ t, commit (performStore .plain q) s = .next t ∧
      if s.dev.meets (q.loc.landing s.dev) q.data.length e.loc e.n = true ∧
          cmpHolds e.cmp (leNat (t.point e.loc e.n)) e.val.toNat = true then
        e ∉ (t.dev.vault (q.loc.mcVault s.dev)).watch ∧ ∀ r, e.ref = some r → (s.dev.reply e.req).isSome →
          t.dev.reply e.req = some (true, t.point e.loc e.n)
      else e ∈ (t.dev.vault (q.loc.mcVault s.dev)).watch := by
  obtain ⟨hreq, rfl, -⟩ := plainRequest_due h
  have hne : e.req ≠ q.id := plainRequest_unwatched h _ e he
  have hwrite := (calm_pointWrite_slice (w := q.who false) (k := .plain) (bs := q.data) hl).next s
  have hmove := ((keeps_pointWrite_slice hl).next hwrite).move
  generalize s.apply _ = u' at *
  obtain ⟨act, hact, hparts⟩ := pointWrite_parts (w := q.who false) (k := .plain) (bs := q.data) s hl
  generalize q.loc.mcVault s.dev = k at *
  obtain ⟨u, hu, hcheck⟩ := commit_andThen_next.1 (hparts.symm.trans hwrite)
  have hquiet := hact.next hu
  have hred : ∀ a, u.dev.redirect a = s.dev.redirect a :=
    Dev.redirect_congr (((keeps_watchCheck _ _ _).next hcheck).move.symm.trans hmove)
  have hwrote := (calm_wrote q q.data).next u'
  refine ⟨_, (by rw [performStore, if_pos (.inl hn), commit_andThen_of_next hwrite]; exact hwrote), ?_⟩
  have hpoint : ∀ l m, (u'.apply (wrote q q.data u')).point l m = u.point l m := fun l m =>
    (point_wrote hwrote l m).trans (point_watchCheck hcheck l m)
  have hmeets : u.meetsWatch (q.loc.landing s.dev) q.data.length e = true ↔
      s.dev.meets (q.loc.landing s.dev) q.data.length e.loc e.n = true ∧
        cmpHolds e.cmp (leNat ((u'.apply (wrote q q.data u')).point e.loc e.n)) e.val.toNat = true := by
    simp only [State.meetsWatch, Dev.meets, hred, hpoint, Bool.and_eq_true]
  generalize u'.apply _ = t at *
  have hchecked : u'.dev = (watchCheck k (q.loc.landing s.dev) q.data.length u).dev := by
    rw [← Host.Outcome.next.inj ((commit_watchCheck _ _ _ u).symm.trans hcheck)]
  have hwatch : (t.dev.vault k).watch =
      (s.dev.vault k).watch.filter (fun e => !u.meetsWatch (q.loc.landing s.dev) q.data.length e) := by
    rw [watch_wrote hwrote, hchecked, watchCheck_dev, Dev.watch_congr (wakes_vaults _ _ _), watch_modVault_filter, if_pos rfl,
      hquiet.watch]
  split
  · rename_i hboth
    have hhit := hmeets.2 hboth
    refine ⟨fun hin => ?_, fun r href hsome => ?_⟩
    · rw [hwatch] at hin
      simpa [hhit] using (List.mem_filter.1 hin).2
    · rw [reply_wrote_other hne hwrote, hchecked, watchCheck_dev, hpoint]
      exact reply_wakes_hit (List.mem_filter.2 ⟨hquiet.watch k ▸ he, hhit⟩)
        (fun x hx hxe => honly x (hquiet.watch k ▸ (List.mem_filter.1 hx).1) hxe) href (fun e => u.point e.loc e.n) _
        ((congrArg Option.isSome (hquiet.reply e.req)).trans hsome)
  · rename_i hnot
    rw [hwatch]
    exact List.mem_filter.2 ⟨he, by simpa using fun hhit => hnot (hmeets.1 hhit)⟩

end Sys2Proof.Machine
end

section
/-! SUPPORT. Multicast entries: they open, are joined, close, and their requests are answered together (R220, R221, R374). -/

namespace Sys2Proof.Machine

/-! ## Requests answered together -/

theorem calm_mcAnswer (qs : List Req) : (mcAnswer qs).Calm :=
  calm_look fun _ => calm_andThen (calm_upd _) (calm_forE fun _ _ => calm_barriersAt _ _)

theorem silent_mcAnswer (qs : List Req) : (mcAnswer qs).Silent :=
  writesOnly_look fun _ => writesOnly_andThen (writesOnly_upd _) (writesOnly_forE fun _ _ => silent_barriersAt _ _)

/-- The answers of several requests, each with the bytes of its place. -/
def State.answered (s : State) (qs : List Req) : Dev :=
  qs.foldl (fun d q => d.modReq q.id (fun x => { x with performed := true, val := s.point q.loc q.n })) s.dev

theorem aside_mcAnswer {qs : List Req} {s t : State} (h : commit (mcAnswer qs) s = .next t) : Aside (s.answered qs) t.dev := by
  rw [mcAnswer, commit_look] at h
  obtain ⟨u, hu, hbar⟩ := commit_andThen_next.1 h
  have hdev : u.dev = s.answered qs := by rw [commit_upd_next.1 hu]; rfl
  rw [← hdev]
  exact (keeps_forE aside_steady fun x _ => aside_barriersAt x.ref.core x.ref.slot).next hbar

/-- Answers leave slices, the slice move and faults of stored bits. -/
theorem answered_rest (s : State) (qs : List Req) :
    (s.answered qs).vaults = s.dev.vaults ∧ (s.answered qs).move = s.dev.move ∧ (s.answered qs).marks = s.dev.marks := by
  unfold State.answered
  generalize s.dev = d
  induction qs generalizing d with
  | nil => exact ⟨rfl, rfl, rfl⟩
  | cons q qs ih => exact ih _

theorem mcAnswer_point {qs : List Req} {s t : State} (h : commit (mcAnswer qs) s = .next t) (loc : Loc) (n : Nat) :
    t.point loc n = s.point loc n := by
  obtain ⟨hv, hmove, -⟩ := answered_rest s qs
  have haside := aside_mcAnswer h
  refine State.point_congr ((silent_mcAnswer qs).sameBytes h) ⟨fun v => ?_, haside.move.trans hmove⟩ loc n
  exact congrArg Vault.lines (Dev.vault_congr (haside.vaults.trans hv) v)

/-- Requests of different numbers have each its answer. -/
theorem mcAnswer_reply {qs : List Req} {s t : State} (h : commit (mcAnswer qs) s = .next t)
    (hid : ∀ p ∈ qs, ∀ q ∈ qs, p.id = q.id → p = q) {p : Req} (hp : p ∈ qs) (hsome : (s.dev.reply p.id).isSome) :
    t.dev.reply p.id = some (true, s.point p.loc p.n) := by
  have hhit : ∀ (d : Dev) (b : Req), b ∈ qs → b.id = p.id → (d.reply p.id).isSome →
      (d.modReq b.id (fun x => { x with performed := true, val := s.point b.loc b.n })).reply p.id =
        some (true, s.point p.loc p.n) := fun d b hb hbp hd => by
    rw [hid b hb p hp hbp]
    exact Dev.reply_answered hd
  have hmiss : ∀ (d : Dev) (b : Req), ¬b.id = p.id →
      (d.modReq b.id (fun x => { x with performed := true, val := s.point b.loc b.n })).reply p.id = d.reply p.id := fun d b hbp =>
    Dev.reply_modReq_other (fun _ hx => hx) fun he => hbp he.symm
  rw [(aside_mcAnswer h).reply, State.answered]
  refine reply_foldl_hit hp (fun d hd => hhit d p hp rfl hd) (fun d b hb hd => ?_) (fun d b hb hd => ?_) s.dev hsome
  · by_cases hbp : b.id = p.id
    · rw [hhit d b hb hbp hd]
      rfl
    · rwa [hmiss d b hbp]
  · by_cases hbp : b.id = p.id
    · exact hhit d b hb hbp (by rw [hd]; rfl)
    · rwa [hmiss d b hbp]

theorem mcAnswer_reply_other {qs : List Req} {s t : State} (h : commit (mcAnswer qs) s = .next t) {id : Nat}
    (hid : ∀ p ∈ qs, p.id ≠ id) : t.dev.reply id = s.dev.reply id := by
  rw [(aside_mcAnswer h).reply, State.answered]
  clear h
  generalize s.dev = d
  induction qs generalizing d with
  | nil => rfl
  | cons q qs ih =>
    refine (ih (fun p hp => hid p (by simp [hp])) _).trans (Dev.reply_modReq_other (fun _ hx => hx) ?_)
    exact (hid q (by simp)).symm

theorem mcAnswer_unwatched {qs : List Req} {s t : State} (h : commit (mcAnswer qs) s = .next t) {id : Nat}
    (hw : s.dev.Unwatched id) : t.dev.Unwatched id := fun v e he =>
  hw v e (Dev.watch_congr ((aside_mcAnswer h).vaults.trans (answered_rest s qs).1) v ▸ he)

/-! ## The requests that share a request -/

theorem Dev.mem_shares {d : Dev} {q p : Req} (h : p ∈ d.shares q) : p ∈ d.reqs := (List.mem_filter.1 h).1

theorem Dev.reply_of_mem {d : Dev} {p : Req} (h : p ∈ d.reqs) : (d.reply p.id).isSome := by
  rw [Dev.reply, Option.isSome_map, Dev.req?, List.find?_isSome]
  exact ⟨p, h, by simp⟩

theorem Dev.req_eq_of_id {d : Dev} (h : (d.reqs.map (·.id)).Nodup) {p q : Req} (hp : p ∈ d.reqs) (hq : q ∈ d.reqs)
    (hid : p.id = q.id) : p = q := List.inj_on_of_nodup_map h hp hq hid

/-- The requests that an entry's close answers (R221). -/
def Dev.closes (d : Dev) (e : McEnt) : List Req := ((e.joined.filterMap d.req?).flatMap d.shares).dedup

theorem Dev.mem_closes {d : Dev} {e : McEnt} {p : Req} :
    p ∈ d.closes e ↔ ∃ j ∈ e.joined, ∃ q, d.req? j = some q ∧ p ∈ d.shares q := by
  simp only [Dev.closes, List.mem_dedup, List.mem_flatMap, List.mem_filterMap]
  constructor
  · rintro ⟨q, ⟨j, hj, hq⟩, hp⟩
    exact ⟨j, hj, q, hq, hp⟩
  · rintro ⟨j, hj, q, hq, hp⟩
    exact ⟨q, ⟨j, hj, hq⟩, hp⟩

/-! ## The close of an entry -/

/-- An entry taken out of its table, with its record kept (R374). -/
def McEnt.take (e : McEnt) (v : Nat) : Dev → Dev := fun d => d.modVault v (fun x =>
  { x with mc := x.mc.filter (fun y => y ≠ e), mcOld := ({ e with time := d.ctime, joined := [] } :: x.mcOld).take 32 })

theorem McEnt.take_gone (e : McEnt) (v : Nat) (d : Dev) : e ∉ ((e.take v d).vault v).mc := by
  unfold McEnt.take
  by_cases hl : v < d.vaults.length
  · rw [Dev.vault_modVault_same d _ hl]
    simp
  · rw [Dev.modVault_outside _ hl, Dev.vault_outside hl]
    exact List.not_mem_nil

theorem McEnt.take_watch (e : McEnt) (v : Nat) (d : Dev) (k : Nat) : ((e.take v d).vault k).watch = (d.vault k).watch :=
  Dev.vault_modVault_keep d v k _ Vault.watch fun _ => rfl

/-- Without faults of stored bits an entry closes by one read of its line, if any request waits for it. -/
theorem mcClose_cases {s : State} (hc : s.dev.marks = []) (v : Nat) (e : McEnt) :
    (s.dev.closes e = [] ∧ commit (mcClose v e) s = commit (upd (e.take v)) s) ∨
      ∃ w, commit (mcClose v e) s = commit (seqE [mcAnswer (s.dev.closes e), upd (e.take v), pointRead w e.line 128]) s := by
  rw [mcClose, commit_look]
  have hqs : ((e.joined.filterMap s.dev.req?).flatMap s.dev.shares).dedup = s.dev.closes e := rfl
  dsimp only
  rw [hqs]
  cases s.dev.closes e with
  | nil => exact .inl ⟨rfl, rfl⟩
  | cons q0 qs =>
    have hgood : ¬s.dev.eccBad e.line 128 = true := by
      rw [Dev.eccBad_clean hc]
      exact Bool.false_ne_true
    dsimp only
    simp only [if_neg hgood, seqE]
    rw [commit_andThen_of_next (commit_eccRead_clean hc _ _ _)]
    exact .inr ⟨_, rfl⟩

/-- Every request that joined the entry, and every one that shares it, is answered with the bytes of its place; the entry is
gone (R221). -/
theorem mcClose_answers {s : State} (hc : s.dev.marks = []) (hid : (s.dev.reqs.map (·.id)).Nodup) (v : Nat) (e : McEnt)
    (hw : ∀ p ∈ s.dev.closes e, s.dev.Unwatched p.id) :
    ∃ t, commit (mcClose v e) s = .next t ∧ e ∉ (t.dev.vault v).mc ∧
      ∀ p ∈ s.dev.closes e, t.dev.reply p.id = some (true, s.point p.loc p.n) := by
  obtain ⟨hnone, hclose⟩ | ⟨w, hclose⟩ := mcClose_cases hc v e
  · refine ⟨s.device (e.take v), hclose.trans (commit_upd _ s), McEnt.take_gone e v s.dev, fun p hp => ?_⟩
    rw [hnone] at hp
    exact absurd hp List.not_mem_nil
  · have hreqs : ∀ p ∈ s.dev.closes e, p ∈ s.dev.reqs := fun p hp => by
      obtain ⟨j, -, q, -, hp⟩ := Dev.mem_closes.1 hp
      exact Dev.mem_shares hp
    have hanswer := (calm_mcAnswer (s.dev.closes e)).next s
    have hreply := fun p hp => mcAnswer_reply hanswer (fun a ha b hb => Dev.req_eq_of_id hid (hreqs a ha) (hreqs b hb)) hp
      (Dev.reply_of_mem (hreqs p hp))
    have hunwatched := fun p hp => mcAnswer_unwatched hanswer (hw p hp)
    generalize s.apply _ = u at *
    have hread := (calm_pointRead w e.line 128).next (u.device (e.take v))
    refine ⟨_, hclose.trans ((commit_andThen_of_next hanswer).trans ((commit_andThen_of_next (commit_upd _ u)).trans hread)), ?_,
      fun p hp => ?_⟩
    · rw [(sameMc_pointRead _ _ _).next hread v]
      exact McEnt.take_gone e v u.dev
    · have hkept := (keepsReply_pointRead p.id _ _ _).next hread (fun k x hx => hunwatched p hp k x ?_)
      · exact hkept.2.trans (hreply p hp)
      · exact McEnt.take_watch e v u.dev k ▸ hx

end Sys2Proof.Machine
end

section
/-! SUPPORT. What a multicast request does at its table, and WATCH and multicast settled (R102, R177, R220, R221, R374). -/

namespace Sys2Proof.Machine

/-! ## A table whose entries and records are all in time -/

theorem Dev.modVault_self {d : Dev} {n : Nat} {g : Vault → Vault} (h : g (d.vault n) = d.vault n) : d.modVault n g = d := by
  have hmod : d.vaults.modify n g = d.vaults := by
    refine List.ext_getElem? fun i => ?_
    rw [List.getElem?_modify]
    cases hi : d.vaults[i]? with
    | none => rfl
    | some x =>
      by_cases hn : n = i
      · have hx : d.vault n = x := by rw [Dev.vault, hn, hi]; rfl
        rw [hx] at h
        simp [hn, h]
      · simp [hn]
  rw [Dev.modVault, hmod]

theorem mcTick_idle {s : State} {k : Nat}
    (h : ∀ e ∈ (s.dev.vault k).mc ++ (s.dev.vault k).mcOld, s.dev.ctime < e.time + 2048) : commit (mcTick k) s = .next s := by
  have hopen : (s.dev.vault k).mc.filter (fun e => e.time + mcTicks ≤ s.dev.ctime) = [] :=
    List.filter_eq_nil_iff.2 fun e he => by
      have hlt := h e (List.mem_append_left _ he)
      have hout : ¬e.time + mcTicks ≤ s.dev.ctime := by
        unfold mcTicks
        omega
      simpa using hout
  have hold : (s.dev.vault k).mcOld.filter (fun e => decide (s.dev.ctime < e.time + mcTicks)) = (s.dev.vault k).mcOld :=
    List.filter_eq_self.2 fun e he => decide_eq_true (h e (List.mem_append_right _ he))
  rw [mcTick, commit_look, hopen, commit_andThen_of_next (commit_forE_nil _ s)]
  refine commit_upd_same (Dev.modVault_self ?_)
  rw [hold]

/-! ## A multicast request -/

/-- An entry of the request's context, line and mask. -/
def Req.mcKey (q : Req) (mask : Nat) (e : McEnt) : Bool := e.ctx = q.ctx ∧ e.line = q.loc.line ∧ e.mask = mask

/-- An entry that a request joins. -/
def McEnt.join (e : McEnt) (id : Nat) : McEnt := { e with joined := e.joined.filter (· ≠ id) ++ [id] }

/-- An entry in place of another. -/
def McEnt.put (e' e : McEnt) (k : Nat) : Dev → Dev := fun d =>
  d.modVault k (fun x => { x with mc := x.mc.map (fun y => if y = e then e' else y) })

section
variable {s : State} {id mask : Nat} {q : Req} (hdue : s.dev.due id = some q) (hk : q.kind = .ldmc mask)
  (htime : ∀ e ∈ (s.dev.vault (q.loc.mcVault s.dev)).mc ++ (s.dev.vault (q.loc.mcVault s.dev)).mcOld, s.dev.ctime < e.time + 2048)
include hdue hk htime

/-- A request whose entry is open joins it, and closes it where it was the last (R221). -/
theorem exec_multicastRequest_join {e : McEnt} (hfind : (s.dev.vault (q.loc.mcVault s.dev)).mc.find? (q.mcKey mask) = some e) :
    exec (.multicastRequest id) s = commit (if s.dev.mcFull (e.join id) then
      (upd ((e.join id).put e (q.loc.mcVault s.dev))).andThen (mcClose (q.loc.mcVault s.dev) (e.join id))
      else upd ((e.join id).put e (q.loc.mcVault s.dev))) s := by
  refine (commit_look _ s).trans ?_
  rw [hdue, commit_withE_some, hk]
  dsimp only
  unfold Req.mcKey at hfind
  rw [commit_andThen_of_next (mcTick_idle htime), commit_look, hfind]
  rfl

/-- One whose entry is not open is answered by a read of its own where a record is kept or the table is full, and else opens
an entry (R220, R374). -/
theorem exec_multicastRequest_new (hfind : (s.dev.vault (q.loc.mcVault s.dev)).mc.find? (q.mcKey mask) = none) (e : McEnt)
    (he : e = ⟨q.ctx, q.loc.line, mask, q.group, q.cls, s.dev.ctime, [id]⟩) :
    exec (.multicastRequest id) s = commit (
      if (s.dev.vault (q.loc.mcVault s.dev)).mcOld.any (q.mcKey mask) ∨ 32 ≤ (s.dev.vault (q.loc.mcVault s.dev)).mc.length then
        mcOwn q
      else if s.dev.mcFull e then
        (upd (fun d => d.modVault (q.loc.mcVault s.dev) (fun x => { x with mc := x.mc ++ [e] }))).andThen
          (mcClose (q.loc.mcVault s.dev) e)
      else upd (fun d => d.modVault (q.loc.mcVault s.dev) (fun x => { x with mc := x.mc ++ [e] }))) s := by
  subst he
  refine (commit_look _ s).trans ?_
  rw [hdue, commit_withE_some, hk]
  dsimp only
  unfold Req.mcKey at hfind
  rw [commit_andThen_of_next (mcTick_idle htime), commit_look, hfind]
  rfl

theorem exec_multicastRequest_own (hfind : (s.dev.vault (q.loc.mcVault s.dev)).mc.find? (q.mcKey mask) = none)
    (hown : (s.dev.vault (q.loc.mcVault s.dev)).mcOld.any (q.mcKey mask) = true ∨
      32 ≤ (s.dev.vault (q.loc.mcVault s.dev)).mc.length) : exec (.multicastRequest id) s = commit (mcOwn q) s := by
  rw [exec_multicastRequest_new hdue hk htime hfind _ rfl, if_pos hown]

theorem exec_multicastRequest_open (hfind : (s.dev.vault (q.loc.mcVault s.dev)).mc.find? (q.mcKey mask) = none)
    (hold : (s.dev.vault (q.loc.mcVault s.dev)).mcOld.any (q.mcKey mask) = false)
    (hroom : (s.dev.vault (q.loc.mcVault s.dev)).mc.length < 32) (e : McEnt)
    (he : e = ⟨q.ctx, q.loc.line, mask, q.group, q.cls, s.dev.ctime, [id]⟩) (hfull : s.dev.mcFull e = false) :
    exec (.multicastRequest id) s =
      .next (s.device (fun d => d.modVault (q.loc.mcVault s.dev) (fun x => { x with mc := x.mc ++ [e] }))) := by
  rw [exec_multicastRequest_new hdue hk htime hfind e he, if_neg (by simp [hold, hroom]), if_neg (by simp [hfull])]
  rfl

/-- The last to join closes the entry (R221). -/
theorem multicast_closes {e : McEnt} (hfind : (s.dev.vault (q.loc.mcVault s.dev)).mc.find? (q.mcKey mask) = some e)
    (hfull : s.dev.mcFull (e.join id) = true) (hc : s.dev.marks = []) (hid : (s.dev.reqs.map (·.id)).Nodup)
    (hw : ∀ p ∈ s.dev.closes (e.join id), s.dev.Unwatched p.id) :
    ∃ t, exec (.multicastRequest id) s = .next t ∧ e.join id ∉ (t.dev.vault (q.loc.mcVault s.dev)).mc ∧
      ∀ p ∈ s.dev.closes (e.join id), t.dev.reply p.id = some (true, s.point p.loc p.n) := by
  rw [exec_multicastRequest_join hdue hk htime hfind, if_pos hfull]
  generalize q.loc.mcVault s.dev = k
  let u := s.device ((e.join id).put e k)
  have hquiet : ∀ v, (u.dev.vault v).watch = (s.dev.vault v).watch := fun v =>
    Dev.vault_modVault_keep s.dev k v _ Vault.watch fun _ => rfl
  have hpoint : ∀ l n, u.point l n = s.point l n :=
    State.point_congr ⟨rfl, rfl⟩ ⟨fun v => Dev.vault_modVault_keep s.dev k v _ Vault.lines fun _ => rfl, rfl⟩
  obtain ⟨t, ht, hgone, hreply⟩ := mcClose_answers (s := u) hc hid k (e.join id) fun p hp v x hx => hw p hp v x (hquiet v ▸ hx)
  exact ⟨t, (commit_andThen_of_next (commit_upd _ s)).trans ht, hgone, fun p hp => (hreply p hp).trans (by rw [hpoint])⟩

end

/-- A request answered by its own read, with those of its core that share it (R220, R374). -/
theorem mcOwn_answers {s : State} {q : Req} (hreq : s.dev.req? q.id = some q) (hc : s.dev.marks = [])
    (hid : (s.dev.reqs.map (·.id)).Nodup) (hw : ∀ p ∈ s.dev.shares q, s.dev.Unwatched p.id) (hq : s.dev.Unwatched q.id) :
    ∃ t, commit (mcOwn q) s = .next t ∧ t.dev.reply q.id = some (true, s.point q.reads.1 q.reads.2) ∧
      ∀ p ∈ s.dev.shares q, p.id ≠ q.id → t.dev.reply p.id = some (true, s.point p.loc p.n) := by
  rw [mcOwn, commit_look, commit_checked_clean hc]
  have hothers : ∀ p, p ∈ (s.dev.shares q).filter (fun p => p.id ≠ q.id) ↔ p ∈ s.dev.shares q ∧ p.id ≠ q.id := fun p => by
    rw [List.mem_filter, decide_eq_true_eq]
  generalize (s.dev.shares q).filter (fun p => p.id ≠ q.id) = others at *
  have hanswer := (calm_mcAnswer others).next s
  have hmem : ∀ p ∈ others, p ∈ s.dev.reqs := fun p hp => Dev.mem_shares ((hothers p).1 hp).1
  have hreply := fun p hp => mcAnswer_reply hanswer (fun a ha b hb => Dev.req_eq_of_id hid (hmem a ha) (hmem b hb)) hp
    (Dev.reply_of_mem (hmem p hp))
  have hown := mcAnswer_reply_other hanswer fun p hp => ((hothers p).1 hp).2
  have hpoint := mcAnswer_point hanswer
  have hunwatched := fun {id} => mcAnswer_unwatched hanswer (id := id)
  generalize s.apply _ = u at *
  rw [Dev.reply_of_req hreq] at hown
  obtain ⟨x, hx, -, -⟩ := Dev.reply_some hown
  have hload := (calm_performLoad q).next u
  refine ⟨_, (commit_andThen_of_next hanswer).trans hload, ?_, fun p hp hne => ?_⟩
  · rw [performLoad_reply hload hx (hunwatched hq), hpoint]
  · rw [performLoad_reply_other hload hne (hunwatched (hw p hp)), hreply p ((hothers p).2 ⟨hp, hne⟩)]

end Sys2Proof.Machine

open Sys2Proof Sys2Proof.Machine

/-- Settles O24: a WATCH at its table, its wake, the check of entries after a store, and the ways of a multicast request. -/
theorem watchAndMulticast_result : Obligations.WatchAndMulticast_result := by
  unfold Obligations.WatchAndMulticast_result
  refine ⟨⟨fun s id q cmp s1 hdue hk hc hflush => ⟨fun hnow => ?_, fun hnot hroom hfree => ?_⟩, fun s r q th hq hth hw => ?_,
    fun m v => ⟨rfl, rfl, rfl, rfl⟩, fun s id q e hm h hk hn hdata hl hin he honly => ?_⟩,
    fun s id q mask hdue hk hc htime => ⟨fun hfind hold hroom hfull => ?_, fun e hfind => ⟨fun hfull => ?_,
      fun hfull hid hw => ?_⟩, fun hfind hfull hid hw hown => ?_⟩,
    fun s k i e hi htime hc hid hw => ?_, fun s k => rfl⟩
  · obtain ⟨-, rfl, -⟩ := Dev.due_some hdue
    rw [exec_watchRequest hdue hk hc hflush, if_pos hnow]
    rfl
  · obtain ⟨-, rfl, -⟩ := Dev.due_some hdue
    have hnone : ¬((s.dev.vault (s.dev.watchHome q.loc)).watch.any (fun x => x.req = q.id ∧ x.ref = some q.ref)) = true := by
      simp only [List.any_eq_true, decide_eq_true_eq, not_exists, not_and]
      exact fun x hx hreq => absurd hreq (hfree x hx)
    rw [exec_watchRequest hdue hk hc hflush, if_neg (by rw [hnot]; simp [hroom]), if_neg hnone]
    rfl
  · have hmem := List.mem_of_find?_eq_some hq
    obtain rfl : q.ref = r := by simpa using (List.mem_filter.1 hmem).2
    have hfound := List.find?_some hq
    obtain ⟨c, hk⟩ : ∃ c, q.kind = .watch c := by
      cases hk : q.kind with
      | watch c => exact ⟨c, rfl⟩
      | _ => simp [hk] at hfound
    obtain ⟨t, ht, hrest⟩ := watchWake_ready hk hth hw
    have hexec := congrArg (fun o => commit (withE o fun x => seqE [returnReq x false, updT q.ref Thread.watched]) s) hq
    exact ⟨t, hexec.trans ht, hrest⟩
  · obtain ⟨t, ht, hmeets⟩ := store_meets h hl hn he honly
    have hexec : exec (.sliceWrite id) s = commit (performStore .plain q) s :=
      commit_atSlice_plain h (by rw [hk]; rfl) hl (performStore .plain)
    rw [hdata] at hmeets
    refine ⟨t, hexec.trans ht, ?_⟩
    change if s.dev.meets (q.loc.landing s.dev) q.n e.loc e.n = true ∧
      cmpHolds e.cmp (leNat (t.point e.loc e.n)) e.val.toNat = true then _ else _
    split at hmeets
    · rename_i hboth
      rw [if_pos hboth]
      obtain ⟨hgone, hanswer⟩ := hmeets
      exact ⟨hgone, fun r x href hx _ => Dev.reply_some (hanswer r href (by rw [Dev.reply_of_req hx]; rfl))⟩
    · rename_i hnot
      rwa [if_neg hnot]
  · exact exec_multicastRequest_open hdue hk htime hfind hold hroom _ rfl hfull
  · have hopen : ¬s.dev.mcFull (e.join id) = true := fun h => Bool.false_ne_true (hfull.symm.trans h)
    rw [exec_multicastRequest_join hdue hk htime hfind, if_neg hopen]
    rfl
  · obtain ⟨t, ht, hgone, hreply⟩ := multicast_closes hdue hk htime hfind hfull hc hid fun p hp => by
      obtain ⟨j, hj, x, hx, hp⟩ := Dev.mem_closes.1 hp
      exact .of_vaults fun v hv u hu => hw v hv u hu j hj x hx p hp
    exact ⟨t, ht, hgone, fun j hj x hx p hp => Dev.reply_some (hreply p (Dev.mem_closes.2 ⟨j, hj, x, hx, hp⟩))⟩
  · obtain ⟨hreq, rfl, -⟩ := Dev.due_some hdue
    obtain ⟨t, ht, hself, hothers⟩ := mcOwn_answers hreq hc hid (fun p hp => .of_vaults fun v hv u hu => hw v hv u hu p hp)
      (.of_vaults hown)
    obtain ⟨x, hx, hp, hv⟩ := Dev.reply_some hself
    refine ⟨t, x, ?_, hx, hp, hv, fun p hp hne => Dev.reply_some (hothers p hp hne)⟩
    exact (exec_multicastRequest_own hdue hk htime hfind hfull).trans ht
  · have hopen : exec (.multicastTimeout k i) s = commit (mcClose k e) s := by
      refine (commit_look _ s).trans ?_
      rw [hi, commit_withE_some, if_pos (show e.time + mcTicks ≤ s.dev.ctime from htime)]
    obtain ⟨t, ht, hgone, hreply⟩ := mcClose_answers hc hid k e fun p hp => by
      obtain ⟨j, hj, x, hx, hp⟩ := Dev.mem_closes.1 hp
      exact .of_vaults fun v hv u hu => hw v hv u hu j hj x hx p hp
    exact ⟨t, hopen.trans ht, hgone, fun j hj x hx p hp => Dev.reply_some (hreply p (Dev.mem_closes.2 ⟨j, hj, x, hx, hp⟩))⟩
end

section
/-! SUPPORT. The opcode map read backwards, and the limits of constant fields (R112, R133). -/

namespace Sys2Proof

/-! ## The opcode map (R133) -/

theorem rawOf_ofT {major : Nat} {w : TWord} {i : Instr} : ofT major w = some i → rawOf i = some (major, .t w) := by
  unfold ofT; split <;> rintro ⟨⟩ <;> rfl

theorem rawOf_ofI {major : Nat} {w : IWord} {i : Instr} : ofI major w = some i → rawOf i = some (major, .i w) := by
  unfold ofI; split <;> rintro ⟨⟩ <;> rfl

theorem rawOf_ofM {major : Nat} {w : MWord} {i : Instr} : ofM major w = some i → rawOf i = some (major, .m w) := by
  unfold ofM; split <;> rintro ⟨⟩ <;> rfl

theorem rawOf_ofB {major : Nat} {w : BWord} {i : Instr} : ofB major w = some i → rawOf i = some (major, .b w) := by
  unfold ofB; split <;> rintro ⟨⟩ <;> rfl

theorem rawOf_ofW {major : Nat} {w : WWord} {i : Instr} : ofW major w = some i → rawOf i = some (major, .w w) := by
  unfold ofW; split <;> rintro ⟨⟩; rfl

theorem rawOf_ofE {major : Nat} {w : EWord} {i : Instr} : ofE major w = some i → rawOf i = some (major, .e w) := by
  unfold ofE; split <;> rintro ⟨⟩ <;> rfl

/-- The instruction that a major form and its fields give has these for its words. -/
theorem rawOf_ofBody {major : Nat} {b : Body} {i : Instr} (h : ofBody major b = some i) : rawOf i = some (major, b) := by
  cases b with
  | t w => exact rawOf_ofT h
  | i w => exact rawOf_ofI h
  | m w => exact rawOf_ofM h
  | b w => exact rawOf_ofB h
  | w w => exact rawOf_ofW h
  | e w => exact rawOf_ofE h

/-- The majors from 0xF0 on, and those beyond eight bits, are no instruction's (R133, R135). -/
theorem fmtOf_lt {major : Nat} {f : Fmt} : fmtOf major = some f → major < 0xF0 := by
  unfold fmtOf
  split
  case h_19 => split_ifs <;> rintro ⟨⟩ <;> omega
  all_goals exact fun _ => by decide

/-- The format of a word's fields. -/
def Body.fmt : Body → Fmt
  | .t _ => .t
  | .i _ => .i
  | .m _ => .m
  | .b _ => .b
  | .w _ => .w
  | .e _ => .e

theorem opMap_fmt {i : Instr} {major : Nat} {b : Body} (h : rawOf i = some (major, b)) :
    ofBody major b = some i ∧ fmtOf major = some b.fmt := opMap_holds i major b h

/-! ## Limits of constant fields (R112) -/

/-- A constant field's limit lies within the 11 bits of the field. -/
def Use.fits : Use → Bool
  | .konst lim => lim ≤ 2048
  | _ => true

def Row.fits (r : Row) : Bool := r.vd.fits && r.va.fits && r.vb.fits && r.vc.fits

theorem rowIf_fits {ok : Bool} {vd va vb vc : Use} {imm : Bool} (h : (Row.mk vd va vb vc imm).fits = true) :
    (rowIf ok vd va vb vc imm).all Row.fits = true := by
  cases ok
  · rfl
  · exact h

theorem rowT_fits (major : Nat) (w : TWord) : (rowT major w).all Row.fits = true := by
  unfold rowT
  dsimp only
  split <;> (try split) <;> simp [rowIf_fits, Row.fits, Use.fits]

theorem rowI_fits (major : Nat) (w : IWord) : (rowI major w).all Row.fits = true := by
  unfold rowI
  dsimp only
  split <;> (try split) <;> simp [rowIf_fits, Row.fits, Use.fits]

theorem rowM_fits (major : Nat) (w : MWord) : (rowM major w).all Row.fits = true := by
  unfold rowM
  dsimp only
  split <;> simp [rowIf_fits, Row.fits, Use.fits]

theorem rowB_fits (major : Nat) (w : BWord) : (rowB major w).all Row.fits = true := by
  unfold rowB
  dsimp only
  split <;> simp [rowIf_fits, Row.fits, Use.fits]

theorem rowW_fits (major : Nat) (w : WWord) : (rowW major w).all Row.fits = true := by
  unfold rowW
  split <;> simp [rowIf_fits, Row.fits, Use.fits]

theorem rowE_fits (major : Nat) (w : EWord) : (rowE major w).all Row.fits = true := by
  unfold rowE
  dsimp only
  split <;> simp [rowIf_fits, Row.fits, Use.fits]

theorem rowOf_fits {major : Nat} {b : Body} {r : Row} (h : rowOf major b = some r) :
    r.vd.fits = true ∧ r.va.fits = true ∧ r.vb.fits = true ∧ r.vc.fits = true := by
  have hall : (rowOf major b).all Row.fits = true := by
    cases b with
    | t w => exact rowT_fits major w
    | i w => exact rowI_fits major w
    | m w => exact rowM_fits major w
    | b w => exact rowB_fits major w
    | w w => exact rowW_fits major w
    | e w => exact rowE_fits major w
  rw [h] at hall
  simpa [Row.fits, and_assoc] using hall

/-! ## Legal encodings (R109, R112, R120, R135) -/

/-- What an encoding that is not refused obeys. -/
structure Legal (major : Nat) (b : Body) (r : Row) : Prop where
  row : rowOf major b = some r
  range : rangeOk b = true
  guard : guardOk major b.h = true
  lit : litOk r b = true
  fields : fieldsOk r b = true

theorem reject_none {major : Nat} {b : Body} (h : reject major b = none) : ∃ r, Legal major b r := by
  unfold reject at h
  split at h
  · cases h
  rename_i hrange
  split at h
  · cases h
  rename_i r hrow
  split at h
  · cases h
  rename_i hguard
  split at h
  · cases h
  rename_i hlit
  split at h
  · cases h
  rename_i hfields
  exact ⟨r, hrow, by simpa using hrange, by simpa using hguard, by simpa using hlit, by simpa using hfields⟩

/-- A word of B format has L = 0 (R135). -/
theorem rowB_long {major : Nat} {w : BWord} (h : w.h.long = true) : rowB major w = none := by
  unfold rowB
  split <;> simp [rowIf, h]

/-- A word of W format has L = 0 (R135). -/
theorem rowW_long {major : Nat} {w : WWord} (h : w.h.long = true) : rowW major w = none := by
  unfold rowW
  split <;> simp [rowIf, h]

/-- A field obeys its use where L = 0 only if it is direct (R119). -/
theorem fldOk_short {u : Use} {f : Fld} (h : fldOk u false f = true) : ∃ k, f = .direct k := by
  cases f with
  | direct k => exact ⟨k, rfl⟩
  | rel x d => cases u <;> simp [fldOk] at h
  | lit => cases u <;> simp [fldOk] at h

end Sys2Proof
end

section
/-! SUPPORT. Fields written into words and read back (R108, R112, R114, R119). -/

namespace Sys2Proof

/-! ## Register fields (R112, R119) -/

theorem wrFld_lt {u : Use} {long : Bool} {f : Fld} (h : fldOk u long f = true) (hu : u.fits = true) : wrFld f < 2048 := by
  cases f with
  | direct k => cases u <;> simp [fldOk, Use.fits, wrFld] at h hu ⊢ <;> omega
  | rel x d => cases u <;> simp [fldOk, wrFld] at h ⊢; omega
  | lit => decide

theorem wrRel_lt {u : Use} {long : Bool} {f : Fld} (h : fldOk u long f = true) : wrRel f < 8 := by
  cases f with
  | direct k => exact Nat.zero_lt_succ 7
  | rel x d => cases u <;> simp [fldOk, wrRel] at h ⊢; omega
  | lit => decide

theorem rdFld_wrFld {u : Use} {long : Bool} {f : Fld} (h : fldOk u long f = true) :
    rdFld (wrFld f) (wrRel f / 4) (wrRel f % 4) f.isLit = .ok f := by
  cases f with
  | direct k => simp [rdFld, wrFld, wrRel, Fld.isLit]
  | lit => rfl
  | rel x d =>
    cases u with
    | reg n rd wr =>
      obtain ⟨-, hx, hd⟩ : long = true ∧ x < 4 ∧ d < 2047 := by simpa [fldOk] using h
      have hrel : (4 + x) / 4 = 1 := by omega
      have hxi : (4 + x) % 4 = x := by omega
      simp [rdFld, wrFld, wrRel, Fld.isLit, hrel, hxi, Nat.ne_of_lt hd]
    | _ => simp [fldOk] at h

/-- What is read is written by the same field bits; LIT is read where LSEL names the field. -/
theorem wrFld_rdFld {raw rel xi : Nat} {sel : Bool} {f : Fld} (h : rdFld raw rel xi sel = .ok f) :
    wrFld f = raw ∧ f.isLit = sel := by
  unfold rdFld at h
  split_ifs at h <;> cases h <;> simp_all [wrFld, Fld.isLit]

/-! ## The common fields (R108) -/

/-- The bits of a body below the common fields (R114). -/
def wrLow : Body → Nat
  | .t x => wrFld x.vd * 2 ^ 33 + wrFld x.va * 2 ^ 22 + wrFld x.vb * 2 ^ 11 + wrFld x.vc
  | .i x => wrFld x.vd * 2 ^ 33 + wrFld x.va * 2 ^ 22 + x.imm
  | .m x => wrFld x.vd * 2 ^ 33 + wrFld x.va * 2 ^ 22 + x.off * 2 ^ 6 + x.scope * 2 ^ 3 + x.ord * 2
  | .b x => wrFld x.va * 2 ^ 33 + x.off
  | .w x => x.ldc * 2 ^ 38 + x.stc * 2 ^ 32 + x.cpc * 2 ^ 27 + x.tlc * 2 ^ 23
  | .e x => wrFld x.vd * 2 ^ 33 + wrFld x.va * 2 ^ 22 + x.pb * 2 ^ 7 + x.aux * 2 ^ 2 + x.qs

theorem wrWord_eq (major : Nat) (b : Body) : wrWord major b = wrHd major b.h + wrLow b := by
  cases b <;> simp only [wrWord, wrLow, Body.h, Nat.add_assoc]

theorem toNat_bit (x n : Nat) : (bit x n).toNat = bits x n 1 := by
  rw [bit, Nat.toNat_testBit, bits, Nat.shiftRight_eq_div_pow, Nat.pow_one]

theorem bit_of_bits {x n : Nat} {b : Bool} (h : bits x n 1 = b.toNat) : bit x n = b := by
  rw [← toNat_bit] at h
  cases hx : bit x n <;> cases b <;> simp [hx] at h ⊢

section
variable {major : Nat} {h : Hd} {low : Nat} (hlow : low < 2 ^ 44)
include hlow

theorem wrHd_add_mod : (wrHd major h + low) % 2 ^ 44 = low := by
  unfold wrHd
  omega

variable (hr : h.pred < 8 ∧ h.var < 8 ∧ h.ret < 4 ∧ h.mod < 4)
include hr

theorem wrHd_add_lt (hm : major < 256) : wrHd major h + low < 2 ^ 64 := by
  have hlong := Bool.toNat_lt h.long
  have hpneg := Bool.toNat_lt h.pneg
  unfold wrHd
  omega

theorem bits_wrHd_major (hm : major < 256) : bits (wrHd major h + low) 56 8 = major := by
  have hlong := Bool.toNat_lt h.long
  have hpneg := Bool.toNat_lt h.pneg
  unfold wrHd bits
  omega

theorem bit_wrHd_long : bit (wrHd major h + low) 55 = h.long := by
  have hlong := Bool.toNat_lt h.long
  have hpneg := Bool.toNat_lt h.pneg
  refine bit_of_bits ?_
  unfold wrHd bits
  omega

theorem rdHd_wrHd {l : Nat} (hlit : bits l 0 32 = h.lit.toNat) : rdHd (wrHd major h + low) l = h := by
  have hneg : bit (wrHd major h + low) 48 = h.pneg := by
    have hpneg := Bool.toNat_lt h.pneg
    refine bit_of_bits ?_
    unfold wrHd bits
    omega
  have hlong := Bool.toNat_lt h.long
  have hpneg := Bool.toNat_lt h.pneg
  unfold rdHd
  rw [bit_wrHd_long hlow hr, hneg, hlit, BitVec.ofNat_toNat, BitVec.setWidth_eq]
  unfold wrHd bits
  congr 1 <;> omega

end

/-- The common fields read from a word, written back. -/
theorem wrHd_rdHd {w : Nat} (l : Nat) (hw : w < 2 ^ 64) : wrHd (bits w 56 8) (rdHd w l) + w % 2 ^ 44 = w := by
  unfold wrHd rdHd
  simp only [toNat_bit]
  unfold bits
  omega

/-! ## Literal words (R119, R120) -/

/-- The literal word of REL and XI of the four fields, LSEL and LIT. -/
def litWord (d a b c sel lit : Nat) : Nat := d * 2 ^ 54 + a * 2 ^ 51 + b * 2 ^ 48 + c * 2 ^ 45 + sel * 2 ^ 43 + lit

/-- What is read in a literal word. -/
structure LitReads (l d a b c sel lit : Nat) : Prop where
  top : bits l 57 7 = 0
  gap : bits l 32 11 = 0
  sel : bits l 43 2 = sel
  lit : bits l 0 32 = lit
  d : bits l 56 1 = d / 4 ∧ bits l 54 2 = d % 4
  a : bits l 53 1 = a / 4 ∧ bits l 51 2 = a % 4
  b : bits l 50 1 = b / 4 ∧ bits l 48 2 = b % 4
  c : bits l 47 1 = c / 4 ∧ bits l 45 2 = c % 4

/-- What is below the register bits: LSEL and LIT. -/
theorem bits_select {l : Nat} (h : bits l 32 11 = 0) : bits l 0 45 = bits l 43 2 * 2 ^ 43 + bits l 0 32 := by
  unfold bits at *
  omega

theorem LitReads.select {l d a b c sel lit : Nat} (h : LitReads l d a b c sel lit) : bits l 0 45 = sel * 2 ^ 43 + lit := by
  rw [bits_select h.gap, h.sel, h.lit]

section
variable {d a b c sel lit : Nat} (hd : d < 8) (ha : a < 8) (hb : b < 8) (hc : c < 8) (hsel : sel < 4) (hlit : lit < 2 ^ 32)
include hd ha hb hc hsel hlit

theorem litWord_lt : litWord d a b c sel lit < 2 ^ 57 := by
  unfold litWord
  omega

theorem litWord_reads : LitReads (litWord d a b c sel lit) d a b c sel lit := by
  unfold litWord
  constructor <;> (try constructor) <;> (unfold bits; omega)

end

/-- LSEL of the fields (R119, R120). -/
def Body.sel : Body → Nat
  | .t x => wrSel x
  | .i x => if x.va.isLit then 1 else if x.immLit then 2 else 0
  | .m x => if x.offLit then 2 else 0
  | .e x => if x.va.isLit then 1 else 0
  | _ => 0

theorem Body.sel_lt (b : Body) : b.sel < 4 := by
  cases b with
  | t x => simp only [Body.sel, wrSel]; split_ifs <;> decide
  | i x => simp only [Body.sel]; split_ifs <;> decide
  | m x => simp only [Body.sel]; split_ifs <;> decide
  | e x => simp only [Body.sel]; split_ifs <;> decide
  | _ => exact Nat.zero_lt_succ 3

theorem wrLit_t (x : TWord) : wrLit (.t x) =
    litWord (wrRel x.vd) (wrRel x.va) (wrRel x.vb) (wrRel x.vc) (Body.t x).sel x.h.lit.toNat := rfl

theorem wrLit_i (x : IWord) : wrLit (.i x) =
    litWord (wrRel x.vd) (wrRel x.va) 0 0 (Body.i x).sel x.h.lit.toNat := by
  simp only [wrLit, Body.sel]
  unfold litWord
  omega

theorem wrLit_m (x : MWord) : wrLit (.m x) =
    litWord (wrRel x.vd) (wrRel x.va) 0 0 (Body.m x).sel x.h.lit.toNat := by
  simp only [wrLit, Body.sel]
  unfold litWord
  omega

theorem wrLit_e (x : EWord) : wrLit (.e x) =
    litWord (wrRel x.vd) (wrRel x.va) 0 0 (Body.e x).sel x.h.lit.toNat := by
  simp only [wrLit, Body.sel]
  unfold litWord
  omega

/-- LSEL 1, 2 and 3 name the T-format source that LIT replaces, where it replaces one at most (R119, R120). -/
theorem wrSel_names {x : TWord} (h : (Body.t x).lits ≤ 1) :
    decide (wrSel x = 1) = x.va.isLit ∧ decide (wrSel x = 2) = x.vb.isLit ∧ decide (wrSel x = 3) = x.vc.isLit := by
  unfold Body.lits Fld.lits at h
  unfold wrSel
  cases ha : x.va.isLit <;> cases hb : x.vb.isLit <;> cases hc : x.vc.isLit <;> simp [ha, hb, hc] at h ⊢

/-- LSEL 1 and 2 name VA and IMM in the I format, where LIT replaces one at most. -/
theorem sel_names_i {x : IWord} (h : (Body.i x).lits ≤ 1) :
    decide ((Body.i x).sel = 1) = x.va.isLit ∧ decide ((Body.i x).sel = 2) = x.immLit := by
  simp only [Body.lits, Fld.lits] at h
  simp only [Body.sel]
  split_ifs at h ⊢ <;> simp_all

theorem sel_names_m (x : MWord) : decide ((Body.m x).sel = 2) = x.offLit := by
  simp only [Body.sel]
  split_ifs <;> simp_all

theorem sel_names_e (x : EWord) : decide ((Body.e x).sel = 1) = x.va.isLit := by
  simp only [Body.sel]
  split_ifs <;> simp_all

/-- LSEL is 0 exactly where LIT replaces nothing. -/
theorem Body.sel_eq_zero_iff (b : Body) : b.sel = 0 ↔ b.lits = 0 := by
  cases b with
  | t x => simp only [Body.sel, wrSel, Body.lits, Fld.lits]; split_ifs <;> simp
  | i x => simp only [Body.sel, Body.lits, Fld.lits]; split_ifs <;> simp
  | m x => simp only [Body.sel, Body.lits]; split_ifs <;> simp
  | e x => simp only [Body.sel, Body.lits, Fld.lits]
  | _ => exact Iff.rfl

/-- LIT in its place (R119, R120). -/
theorem litOk_iff (r : Row) (b : Body) : litOk r b = true ↔
    b.lits ≤ 1 ∧ (b.h.long = true ∨ b.lits = 0) ∧ (b.lits = 1 ∨ b.h.lit = 0) ∧ (match b with
      | .t x => x.vd.isLit = false
      | .i x => x.vd.isLit = false ∧ (x.va.isLit = false ∨ x.imm = 0) ∧ (x.immLit = false ∨ r.imm ∧ x.imm = 0)
      | .m x => x.vd.isLit = false ∧ x.va.isLit = false ∧ (x.offLit = false ∨ r.imm ∧ x.off = 0)
      | .b x => x.va.isLit = false
      | .e x => x.vd.isLit = false
      | .w _ => True) := by
  unfold litOk
  cases b <;> simp [and_assoc]

/-! ## Bodies, written and read (R114, R119, R120) -/

/-- Written so, the bits of a body are below the common fields, its literal word below bit 57, and both read back. -/
structure ReadsBack (b : Body) : Prop where
  low : wrLow b < 2 ^ 44
  lit : wrLit b < 2 ^ 57
  short : b.h.long = false → wrLit b = 0
  head : bits (wrLit b) 0 32 = b.h.lit.toNat
  select : bits (wrLit b) 0 45 = b.sel * 2 ^ 43 + b.h.lit.toNat
  body : ∀ w, rdHd w (wrLit b) = b.h → w % 2 ^ 44 = wrLow b → rdBody b.fmt w (wrLit b) = .ok b

/-- Where L = 0 no field is relative and LIT replaces nothing: LSEL and LIT are 0. -/
theorem litOk_short {r : Row} {b : Body} (h : litOk r b = true) (hs : b.h.long = false) : b.lits = 0 ∧ b.h.lit = 0 := by
  obtain ⟨-, hlong, hzero, -⟩ := (litOk_iff r b).1 h
  have hnone : b.lits = 0 := hlong.resolve_left (by rw [hs]; decide)
  exact ⟨hnone, hzero.resolve_left (by omega)⟩

theorem wrRel_short {u : Use} {f : Fld} (h : fldOk u false f = true) : wrRel f = 0 := by
  obtain ⟨k, rfl⟩ := fldOk_short h
  rfl

section
variable {r : Row} (hu : r.vd.fits = true ∧ r.va.fits = true ∧ r.vb.fits = true ∧ r.vc.fits = true)
include hu

theorem readsBack_t {x : TWord} (hl : litOk r (.t x) = true) (hf : fieldsOk r (.t x) = true) : ReadsBack (.t x) := by
  obtain ⟨hvd, hva, hvb, hvc⟩ : fldOk r.vd x.h.long x.vd = true ∧ fldOk r.va x.h.long x.va = true ∧
    fldOk r.vb x.h.long x.vb = true ∧ fldOk r.vc x.h.long x.vc = true := by simpa [fieldsOk] using hf
  obtain ⟨hone, -, -, hdst⟩ := (litOk_iff r _).1 hl
  obtain ⟨hsa, hsb, hsc⟩ := wrSel_names hone
  have hwvd := wrFld_lt hvd hu.1
  have hwva := wrFld_lt hva hu.2.1
  have hwvb := wrFld_lt hvb hu.2.2.1
  have hwvc := wrFld_lt hvc hu.2.2.2
  have hreads := litWord_reads (wrRel_lt hvd) (wrRel_lt hva) (wrRel_lt hvb) (wrRel_lt hvc) (Body.t x).sel_lt x.h.lit.isLt
  have hlt := litWord_lt (wrRel_lt hvd) (wrRel_lt hva) (wrRel_lt hvb) (wrRel_lt hvc) (Body.t x).sel_lt x.h.lit.isLt
  rw [← wrLit_t] at hreads hlt
  refine ⟨?_, hlt, fun hs => ?_, hreads.lit, hreads.select, fun w hh hw => ?_⟩
  · simp only [wrLow]
    omega
  · obtain ⟨hlits, hzero⟩ := litOk_short hl hs
    change x.h.long = false at hs
    rw [hs] at hvd hva hvb hvc
    rw [wrLit_t, wrRel_short hvd, wrRel_short hva, wrRel_short hvb, wrRel_short hvc, (Body.sel_eq_zero_iff _).2 hlits,
      show x.h.lit = 0 from hzero]
    rfl
  · simp only [wrLow] at hw
    have hd : bits w 33 11 = wrFld x.vd := by unfold bits; omega
    have ha : bits w 22 11 = wrFld x.va := by unfold bits; omega
    have hb : bits w 11 11 = wrFld x.vb := by unfold bits; omega
    have hc : bits w 0 11 = wrFld x.vc := by unfold bits; omega
    have hrd := rdFld_wrFld hvd
    rw [show x.vd.isLit = false from hdst] at hrd
    simp only [rdBody, Body.fmt, rdT, hreads.top, hreads.gap, hreads.sel, hreads.d, hreads.a, hreads.b, hreads.c,
      hd, ha, hb, hc, hh, Body.sel, hsa, hsb, hsc, hrd, rdFld_wrFld hva, rdFld_wrFld hvb, rdFld_wrFld hvc]
    rfl

/-- What a body of the formats with VD and VA alone must still show: how its format reads the rest of the word. -/
theorem readsBack_va {b : Body} {vd va : Fld} {rest : Nat} (hl : litOk r b = true)
    (hlow : wrLow b = wrFld vd * 2 ^ 33 + wrFld va * 2 ^ 22 + rest) (hrest : rest < 2 ^ 22)
    (hlit : wrLit b = litWord (wrRel vd) (wrRel va) 0 0 b.sel b.h.lit.toNat)
    (hvd : fldOk r.vd b.h.long vd = true) (hva : fldOk r.va b.h.long va = true) (hdst : vd.isLit = false)
    (hbody : ∀ w l, LitReads l (wrRel vd) (wrRel va) 0 0 b.sel b.h.lit.toNat → rdHd w l = b.h → bits w 0 22 = rest →
      rdFld (bits w 33 11) (bits l 56 1) (bits l 54 2) false = .ok vd →
      rdFld (bits w 22 11) (bits l 53 1) (bits l 51 2) va.isLit = .ok va → rdBody b.fmt w l = .ok b) : ReadsBack b := by
  have hwvd := wrFld_lt hvd hu.1
  have hwva := wrFld_lt hva hu.2.1
  have hreads := litWord_reads (b := 0) (c := 0) (wrRel_lt hvd) (wrRel_lt hva) (by decide) (by decide) b.sel_lt b.h.lit.isLt
  have hlt := litWord_lt (b := 0) (c := 0) (wrRel_lt hvd) (wrRel_lt hva) (by decide) (by decide) b.sel_lt b.h.lit.isLt
  rw [← hlit] at hreads hlt
  refine ⟨?_, hlt, fun hs => ?_, hreads.lit, hreads.select, fun w hh hw => hbody w _ hreads hh ?_ ?_ ?_⟩
  · omega
  · obtain ⟨hlits, hzero⟩ := litOk_short hl hs
    rw [hs] at hvd hva
    rw [hlit, wrRel_short hvd, wrRel_short hva, (Body.sel_eq_zero_iff _).2 hlits, hzero]
    rfl
  · unfold bits
    omega
  · have hd : bits w 33 11 = wrFld vd := by unfold bits; omega
    have hrd := rdFld_wrFld hvd
    rwa [hd, hreads.d.1, hreads.d.2, ← hdst]
  · have ha : bits w 22 11 = wrFld va := by unfold bits; omega
    rw [ha, hreads.a.1, hreads.a.2]
    exact rdFld_wrFld hva

end

/-- A literal word without BREL and CREL, with LSEL as the format has it (R120, R135). -/
theorem LitReads.selOf {l d a sel lit : Nat} (h : LitReads l d a 0 0 sel lit) {one two : Bool}
    (hs : sel = 0 ∨ sel = 1 ∧ one = true ∨ sel = 2 ∧ two = true) : selOf l one two = .ok sel := by
  unfold Sys2Proof.selOf
  rw [h.b.1, h.c.1, h.sel, if_neg (by decide), if_pos hs]

theorem readsBack_i {r : Row} (hu : r.vd.fits = true ∧ r.va.fits = true ∧ r.vb.fits = true ∧ r.vc.fits = true)
    {x : IWord} (hr : rangeOk (.i x) = true) (hl : litOk r (.i x) = true) (hf : fieldsOk r (.i x) = true) : ReadsBack (.i x) := by
  obtain ⟨hvd, hva⟩ : fldOk r.vd x.h.long x.vd = true ∧ fldOk r.va x.h.long x.va = true := by simpa [fieldsOk] using hf
  obtain ⟨hone, -, -, hdst, -⟩ := (litOk_iff r _).1 hl
  have himm : x.imm < 2 ^ 22 := by simpa [rangeOk] using (Bool.and_eq_true_iff.1 hr).2
  obtain ⟨hsa, hsi⟩ := sel_names_i hone
  refine readsBack_va hu hl rfl himm (wrLit_i x) hvd hva hdst fun w l h hh hw hd ha => ?_
  · have hs := h.selOf (one := true) (two := true) (by simp only [Body.sel]; split_ifs <;> simp)
    simp only [rdBody, Body.fmt, rdI, h.top, h.gap, hs, bind, Except.bind, hd, hsa, ha, hsi, hw, hh]
    rfl

theorem readsBack_m {r : Row} (hu : r.vd.fits = true ∧ r.va.fits = true ∧ r.vb.fits = true ∧ r.vc.fits = true)
    {x : MWord} (hr : rangeOk (.m x) = true) (hl : litOk r (.m x) = true) (hf : fieldsOk r (.m x) = true) : ReadsBack (.m x) := by
  obtain ⟨hvd, hva⟩ : fldOk r.vd x.h.long x.vd = true ∧ fldOk r.va x.h.long x.va = true := by simpa [fieldsOk] using hf
  obtain ⟨-, -, -, hdst, hva0, -⟩ := (litOk_iff r _).1 hl
  obtain ⟨hoff, hscope, hord⟩ : x.off < 2 ^ 16 ∧ x.scope < 8 ∧ x.ord < 4 := by
    simpa [rangeOk] using (Bool.and_eq_true_iff.1 hr).2
  refine readsBack_va (rest := x.off * 2 ^ 6 + x.scope * 2 ^ 3 + x.ord * 2) hu hl (by simp only [wrLow]; omega) (by omega)
    (wrLit_m x) hvd hva hdst fun w l h hh hw hd ha => ?_
  · have hs := h.selOf (one := false) (two := true) (by simp only [Body.sel]; split_ifs <;> simp)
    have e0 : bits w 0 1 = 0 := by unfold bits at hw ⊢; omega
    have e1 : bits w 6 16 = x.off := by unfold bits at hw ⊢; omega
    have e2 : bits w 3 3 = x.scope := by unfold bits at hw ⊢; omega
    have e3 : bits w 1 2 = x.ord := by unfold bits at hw ⊢; omega
    rw [hva0] at ha
    simp only [rdBody, Body.fmt, rdM, h.top, h.gap, hs, bind, Except.bind, hd, ha, sel_names_m, e0, e1, e2, e3, hh]
    rfl

theorem readsBack_e {r : Row} (hu : r.vd.fits = true ∧ r.va.fits = true ∧ r.vb.fits = true ∧ r.vc.fits = true)
    {x : EWord} (hr : rangeOk (.e x) = true) (hl : litOk r (.e x) = true) (hf : fieldsOk r (.e x) = true) : ReadsBack (.e x) := by
  obtain ⟨hvd, hva⟩ : fldOk r.vd x.h.long x.vd = true ∧ fldOk r.va x.h.long x.va = true := by simpa [fieldsOk] using hf
  obtain ⟨-, -, -, hdst⟩ := (litOk_iff r _).1 hl
  obtain ⟨hpb, haux, hqs⟩ : x.pb < 2 ^ 15 ∧ x.aux < 32 ∧ x.qs < 4 := by
    simpa [rangeOk] using (Bool.and_eq_true_iff.1 hr).2
  refine readsBack_va (rest := x.pb * 2 ^ 7 + x.aux * 2 ^ 2 + x.qs) hu hl (by simp only [wrLow]; omega) (by omega)
    (wrLit_e x) hvd hva hdst fun w l h hh hw hd ha => ?_
  · have hs := h.selOf (one := true) (two := false) (by simp only [Body.sel]; split_ifs <;> simp)
    have e1 : bits w 7 15 = x.pb := by unfold bits at hw ⊢; omega
    have e2 : bits w 2 5 = x.aux := by unfold bits at hw ⊢; omega
    have e3 : bits w 0 2 = x.qs := by unfold bits at hw ⊢; omega
    simp only [rdBody, Body.fmt, rdE, h.top, h.gap, hs, bind, Except.bind, hd, sel_names_e, ha, e1, e2, e3, hh]
    rfl

theorem readsBack_b {major : Nat} {r : Row} {x : BWord} (h : Legal major (.b x) r)
    (hu : r.vd.fits = true ∧ r.va.fits = true ∧ r.vb.fits = true ∧ r.vc.fits = true) : ReadsBack (.b x) := by
  have hshort : x.h.long = false := by
    by_contra hlong
    exact absurd ((rowB_long (by simpa using hlong)).symm.trans h.row) (by simp)
  obtain ⟨-, hzero⟩ := litOk_short h.lit hshort
  have hf : fldOk r.va false x.va = true := hshort ▸ h.fields
  have hoff : x.off < 2 ^ 24 := by simpa [rangeOk] using (Bool.and_eq_true_iff.1 h.range).2
  have hwva := wrFld_lt hf hu.2.1
  obtain ⟨k, hk⟩ := fldOk_short hf
  have hl : wrLit (.b x) = 0 := congrArg BitVec.toNat hzero
  refine ⟨?_, hl ▸ by decide, fun _ => hl, ?_, ?_, fun w hh hw => ?_⟩
  · simp only [wrLow]
    omega
  · rw [hl, show _ = (0 : W32) from hzero]
    rfl
  · rw [hl, show _ = (0 : W32) from hzero, show Body.sel _ = 0 from rfl, Nat.zero_mul]
    rfl
  · simp only [wrLow] at hw
    have e0 : bits w 24 9 = 0 := by unfold bits; omega
    have e1 : bits w 33 11 = wrFld x.va := by unfold bits; omega
    have e2 : bits w 0 24 = x.off := by unfold bits; omega
    rw [hl] at hh ⊢
    simp only [rdBody, Body.fmt, rdB, e0, e1, e2, hh, hk]
    cases x; cases hk; rfl

theorem readsBack_w {major : Nat} {r : Row} {x : WWord} (h : Legal major (.w x) r) : ReadsBack (.w x) := by
  have hshort : x.h.long = false := by
    by_contra hlong
    exact absurd ((rowW_long (by simpa using hlong)).symm.trans h.row) (by simp)
  obtain ⟨-, hzero⟩ := litOk_short h.lit hshort
  obtain ⟨hldc, hstc, hcpc, htlc⟩ : x.ldc < 64 ∧ x.stc < 64 ∧ x.cpc < 32 ∧ x.tlc < 16 := by
    simpa [rangeOk] using (Bool.and_eq_true_iff.1 h.range).2
  have hl : wrLit (.w x) = 0 := congrArg BitVec.toNat hzero
  refine ⟨?_, hl ▸ by decide, fun _ => hl, ?_, ?_, fun w hh hw => ?_⟩
  · simp only [wrLow]
    omega
  · rw [hl, show _ = (0 : W32) from hzero]
    rfl
  · rw [hl, show _ = (0 : W32) from hzero, show Body.sel _ = 0 from rfl, Nat.zero_mul]
    rfl
  · simp only [wrLow] at hw
    have e0 : bits w 0 23 = 0 := by unfold bits; omega
    have e1 : bits w 38 6 = x.ldc := by unfold bits; omega
    have e2 : bits w 32 6 = x.stc := by unfold bits; omega
    have e3 : bits w 27 5 = x.cpc := by unfold bits; omega
    have e4 : bits w 23 4 = x.tlc := by unfold bits; omega
    rw [hl] at hh ⊢
    simp only [rdBody, Body.fmt, rdW, e0, e1, e2, e3, e4, hh]
    rfl

/-- Every legal encoding reads back. -/
theorem Legal.readsBack {major : Nat} {b : Body} {r : Row} (h : Legal major b r) : ReadsBack b := by
  have hu := rowOf_fits h.row
  cases b with
  | t x => exact readsBack_t hu h.lit h.fields
  | i x => exact readsBack_i hu h.range h.lit h.fields
  | m x => exact readsBack_m hu h.range h.lit h.fields
  | b x => exact readsBack_b h hu
  | w x => exact readsBack_w h
  | e x => exact readsBack_e hu h.range h.lit h.fields

/-! ## Decoding what is encoded -/

theorem decode_of {w l l' : Nat} {f : Fmt} {b : Body} {i : Instr} (hf : fmtOf (bits w 56 8) = some f)
    (hl : (if bit w 55 then l else 0) = l') (hb : rdBody f w l' = .ok b) (hr : reject (bits w 56 8) b = none)
    (hi : ofBody (bits w 56 8) b = some i) : decode w l = .ok i := by
  unfold decode
  simp only [hf, hl, hb, hr, hi]

/-- The words that encode a well-formed instruction decode to it. -/
theorem decode_encode {i : Instr} {w l : Nat} (hwf : i.wf = true) (he : encode i = some (w, l)) :
    w < 2 ^ 64 ∧ l < 2 ^ 57 ∧ (bit w 55 = false → l = 0) ∧ decode w l = .ok i := by
  unfold encode at he
  split at he
  · cases he
  rename_i major b hraw
  cases he
  have hrej : reject major b = none := by simpa [Instr.wf, hraw] using hwf
  obtain ⟨r, hlegal⟩ := reject_none hrej
  obtain ⟨hlow, hlit, hshort, hhead, -, hbody⟩ := hlegal.readsBack
  obtain ⟨hof, hfmt⟩ := opMap_fmt hraw
  have hmajor : major < 256 := (fmtOf_lt hfmt).trans (by decide)
  have hrange : b.h.pred < 8 ∧ b.h.var < 8 ∧ b.h.ret < 4 ∧ b.h.mod < 4 :=
    of_decide_eq_true (Bool.and_eq_true_iff.1 hlegal.range).1
  rw [wrWord_eq]
  have hlong := bit_wrHd_long (major := major) hlow hrange
  have hm := bits_wrHd_major (major := major) hlow hrange hmajor
  have hb := hbody _ (rdHd_wrHd (major := major) hlow hrange hhead) (wrHd_add_mod hlow)
  have hlt := wrHd_add_lt hlow hrange hmajor
  generalize wrHd major b.h + wrLow b = w at *
  refine ⟨hlt, hlit, fun h => hshort (hlong ▸ h), decode_of (by rwa [hm]) ?_ hb (by rwa [hm]) (by rwa [hm])⟩
  rw [hlong, ite_eq_left_iff, Bool.not_eq_true]
  exact fun h => (hshort h).symm

/-! ## Encoding what is decoded -/

theorem decode_ok {w l : Nat} {i : Instr} (h : decode w l = .ok i) :
    ∃ f b, fmtOf (bits w 56 8) = some f ∧ rdBody f w (if bit w 55 then l else 0) = .ok b ∧
      reject (bits w 56 8) b = none ∧ ofBody (bits w 56 8) b = some i := by
  unfold decode at h
  generalize (if bit w 55 then l else 0) = l' at *
  dsimp only at h
  split at h
  · cases h
  rename_i f hf
  split at h
  · cases h
  rename_i b hb
  split at h
  · cases h
  rename_i hr
  split at h
  · rename_i j hj
    cases h
    exact ⟨f, b, hf, hb, hr, hj⟩
  · cases h

/-- What the fields read from a word and its literal word keep of them. -/
structure Read (w l : Nat) (b : Body) : Prop where
  top : bits l 57 7 = 0
  gap : bits l 32 11 = 0
  head : b.h = rdHd w l
  low : wrLow b = w % 2 ^ 44
  sel : b.fmt ≠ .b → b.fmt ≠ .w → bits l 43 2 = b.sel

theorem selOf_ok {l s : Nat} {one two : Bool} (h : selOf l one two = .ok s) :
    bits l 43 2 = s ∧ (s = 0 ∨ s = 1 ∧ one = true ∨ s = 2 ∧ two = true) := by
  unfold selOf at h
  dsimp only at h
  split_ifs at h with _ hs
  cases h
  exact ⟨rfl, hs⟩

theorem Except.bind_eq_ok {ε α β : Type} {x : Except ε α} {f : α → Except ε β} {b : β} (h : (x >>= f) = .ok b) :
    ∃ a, x = .ok a ∧ f a = .ok b := by
  cases x with
  | error e => cases h
  | ok a => exact ⟨a, rfl, h⟩

section
variable {w l : Nat} {b : Body} (htop : bits l 57 7 = 0) (hgap : bits l 32 11 = 0)
include htop hgap

theorem rdT_read (h : rdT w l = .ok b) : Read w l b := by
  obtain ⟨vd, hd, h⟩ := Except.bind_eq_ok h
  obtain ⟨va, ha, h⟩ := Except.bind_eq_ok h
  obtain ⟨vb, hb, h⟩ := Except.bind_eq_ok h
  obtain ⟨vc, hc, h⟩ := Except.bind_eq_ok h
  cases h
  obtain ⟨hd, -⟩ := wrFld_rdFld hd
  obtain ⟨ha, hsa⟩ := wrFld_rdFld ha
  obtain ⟨hb, hsb⟩ := wrFld_rdFld hb
  obtain ⟨hc, hsc⟩ := wrFld_rdFld hc
  refine ⟨htop, hgap, rfl, ?_, fun _ _ => ?_⟩
  · simp only [wrLow, hd, ha, hb, hc]
    unfold bits
    omega
  · have hlt : bits l 43 2 < 4 := Nat.mod_lt _ (by decide)
    simp only [Body.sel, wrSel, hsa, hsb, hsc, decide_eq_true_eq]
    split_ifs <;> omega

theorem rdI_read (h : rdI w l = .ok b) : Read w l b := by
  obtain ⟨s, hs, h⟩ := Except.bind_eq_ok h
  obtain ⟨vd, hd, h⟩ := Except.bind_eq_ok h
  obtain ⟨va, ha, h⟩ := Except.bind_eq_ok h
  cases h
  obtain ⟨hd, -⟩ := wrFld_rdFld hd
  obtain ⟨ha, hsa⟩ := wrFld_rdFld ha
  obtain ⟨hs, hcases⟩ := selOf_ok hs
  refine ⟨htop, hgap, rfl, ?_, fun _ _ => ?_⟩
  · simp only [wrLow, hd, ha]
    unfold bits
    omega
  · simp only [Body.sel, hsa, decide_eq_true_eq]
    split_ifs <;> omega

theorem rdM_read (h : rdM w l = .ok b) : Read w l b := by
  obtain ⟨s, hs, h⟩ := Except.bind_eq_ok h
  obtain ⟨vd, hd, h⟩ := Except.bind_eq_ok h
  obtain ⟨va, ha, h⟩ := Except.bind_eq_ok h
  split_ifs at h with h0
  cases h
  obtain ⟨hd, -⟩ := wrFld_rdFld hd
  obtain ⟨ha, -⟩ := wrFld_rdFld ha
  obtain ⟨hs, hcases⟩ := selOf_ok hs
  refine ⟨htop, hgap, rfl, ?_, fun _ _ => ?_⟩
  · simp only [wrLow, hd, ha]
    unfold bits at *
    omega
  · simp only [Body.sel, decide_eq_true_eq]
    split_ifs <;> simp at hcases <;> omega

theorem rdE_read (h : rdE w l = .ok b) : Read w l b := by
  obtain ⟨s, hs, h⟩ := Except.bind_eq_ok h
  obtain ⟨vd, hd, h⟩ := Except.bind_eq_ok h
  obtain ⟨va, ha, h⟩ := Except.bind_eq_ok h
  cases h
  obtain ⟨hd, -⟩ := wrFld_rdFld hd
  obtain ⟨ha, hsa⟩ := wrFld_rdFld ha
  obtain ⟨hs, hcases⟩ := selOf_ok hs
  refine ⟨htop, hgap, rfl, ?_, fun _ _ => ?_⟩
  · simp only [wrLow, hd, ha]
    unfold bits
    omega
  · simp only [Body.sel, hsa, decide_eq_true_eq]
    split_ifs <;> simp at hcases <;> omega

theorem rdB_read (h : rdB w l = .ok b) : Read w l b := by
  unfold rdB at h
  split_ifs at h with h0
  cases h
  refine ⟨htop, hgap, rfl, ?_, fun hf => absurd rfl hf⟩
  simp only [wrLow, wrFld]
  unfold bits at *
  omega

theorem rdW_read (h : rdW w l = .ok b) : Read w l b := by
  unfold rdW at h
  split_ifs at h with h0
  cases h
  refine ⟨htop, hgap, rfl, ?_, fun _ hf => absurd rfl hf⟩
  simp only [wrLow]
  unfold bits at *
  omega

end

theorem rdBody_read {f : Fmt} {w l : Nat} {b : Body} (h : rdBody f w l = .ok b) : Read w l b := by
  unfold rdBody at h
  split_ifs at h with h0
  obtain ⟨htop, hgap⟩ : bits l 57 7 = 0 ∧ bits l 32 11 = 0 := by simpa using h0
  cases f with
  | t => exact rdT_read htop hgap h
  | i => exact rdI_read htop hgap h
  | m => exact rdM_read htop hgap h
  | b => exact rdB_read htop hgap h
  | w => exact rdW_read htop hgap h
  | e => exact rdE_read htop hgap h

/-- What is known of a word that decodes. -/
structure Decoded (w l : Nat) (i : Instr) (b : Body) (r : Row) : Prop where
  raw : rawOf i = some (bits w 56 8, b)
  accepted : reject (bits w 56 8) b = none
  legal : Legal (bits w 56 8) b r
  read : Read w (if bit w 55 then l else 0) b

theorem decode_decoded {w l : Nat} {i : Instr} (h : decode w l = .ok i) : ∃ b r, Decoded w l i b r := by
  obtain ⟨f, b, -, hb, hr, hi⟩ := decode_ok h
  obtain ⟨r, hlegal⟩ := reject_none hr
  exact ⟨b, r, rawOf_ofBody hi, hr, hlegal, rdBody_read hb⟩

section
variable {w l : Nat} {i : Instr} {b : Body} {r : Row} (h : Decoded w l i b r)
include h

theorem Decoded.wf : i.wf = true := by
  rw [Instr.wf, h.raw]
  exact decide_eq_true h.accepted

theorem Decoded.encode (hw : w < 2 ^ 64) : encode i = some (w, wrLit b) := by
  rw [Sys2Proof.encode, h.raw]
  simp only
  rw [wrWord_eq, h.read.head, h.read.low, wrHd_rdHd _ hw]

/-- With L = 1, LSEL and LIT of the literal word are those of the fields. -/
theorem Decoded.select (hlong : bit w 55 = true) :
    bits l 57 7 = 0 ∧ bits l 32 11 = 0 ∧ bits l 43 2 = b.sel ∧ bits l 0 32 = b.h.lit.toNat := by
  obtain ⟨htop, hgap, hhead, -, hsel⟩ := h.read
  rw [if_pos hlong] at *
  have hb : b.h.long = true := by rw [hhead]; exact hlong
  refine ⟨htop, hgap, hsel ?_ ?_, ?_⟩
  · intro hf
    cases b <;> cases hf
    exact absurd ((rowB_long hb).symm.trans h.legal.row) (by simp)
  · intro hf
    cases b <;> cases hf
    exact absurd ((rowW_long hb).symm.trans h.legal.row) (by simp)
  · rw [hhead]
    exact (Nat.mod_eq_of_lt (Nat.mod_lt _ (by decide))).symm

end

/-- A word that decodes is encoded by its instruction, but for index-register bits that stand for nothing. -/
theorem encode_decode {w l : Nat} {i : Instr} (hw : w < 2 ^ 64) (hd : decode w l = .ok i) :
    i.wf = true ∧ ∃ l', encode i = some (w, l') ∧ decode w l' = .ok i ∧
      (bit w 55 = true → bits l' 0 45 = bits l 0 45) := by
  obtain ⟨b, r, h⟩ := decode_decoded hd
  have he := h.encode hw
  refine ⟨h.wf, wrLit b, he, (decode_encode h.wf he).2.2.2, fun hlong => ?_⟩
  obtain ⟨-, hgap, hsel, hlit⟩ := h.select hlong
  rw [h.legal.readsBack.select, bits_select hgap, hsel, hlit]

theorem decode_error {w l : Nat} (h : ∀ i, decode w l ≠ .ok i) : ∃ e, decode w l = .error e := by
  cases hd : decode w l with
  | error e => exact ⟨e, rfl⟩
  | ok i => exact absurd hd (h i)

theorem decode_reserved_major {w : Nat} (l : Nat) (h : 0xF0 ≤ bits w 56 8) : ∃ e, decode w l = .error e := by
  refine decode_error fun i hd => ?_
  obtain ⟨f, -, hf, -⟩ := decode_ok hd
  exact absurd (fmtOf_lt hf) (Nat.not_lt.2 h)

theorem decode_reserved_guard {w : Nat} (l : Nat) (hpred : bits w 49 3 = 0) (hneg : bit w 48 = true) :
    ∃ e, decode w l = .error e := by
  refine decode_error fun i hd => ?_
  obtain ⟨b, r, h⟩ := decode_decoded hd
  have hguard := h.legal.guard
  simp [guardOk, h.read.head, rdHd, hpred, hneg] at hguard

theorem decode_reserved_literal {w l : Nat} (hlong : bit w 55 = true)
    (hl : bits l 57 7 ≠ 0 ∨ bits l 32 11 ≠ 0 ∨ (bits l 43 2 = 0 ∧ bits l 0 32 ≠ 0)) : ∃ e, decode w l = .error e := by
  refine decode_error fun i hd => ?_
  obtain ⟨b, r, h⟩ := decode_decoded hd
  obtain ⟨htop, hgap, hsel, hlit⟩ := h.select hlong
  rcases hl with h0 | h0 | ⟨h0, hne⟩
  · exact h0 htop
  · exact h0 hgap
  · obtain ⟨-, -, hzero, -⟩ := (litOk_iff r b).1 h.legal.lit
    have hnone : b.lits = 0 := b.sel_eq_zero_iff.1 (hsel ▸ h0)
    have hb : b.h.lit = 0 := hzero.resolve_left (by omega)
    exact hne (hlit.trans (by rw [hb]; rfl))

end Sys2Proof

/-- Settles O56: each format's fields stand apart in the words, and each is read where it is written. -/
theorem encodeThenDecode : Obligations.EncodeThenDecode := by
  unfold Obligations.EncodeThenDecode
  exact fun _ _ _ => Sys2Proof.decode_encode

/-- Settles O57: what is read keeps every bit of the word, and each reserved encoding meets its check. -/
theorem decodeThenEncode : Obligations.DecodeThenEncode := by
  unfold Obligations.DecodeThenEncode
  exact ⟨fun _ _ _ hw _ => Sys2Proof.encode_decode hw, fun _ l => Sys2Proof.decode_reserved_major l,
    fun _ l => Sys2Proof.decode_reserved_guard l, fun _ _ => Sys2Proof.decode_reserved_literal⟩

end

section
/-! SUPPORT. Branches of element-mode threads: where each goes, and what it sets (R117, R162). -/

namespace Sys2Proof.Machine

/-! ## Taken branches -/

/-- A word whose effect reads of the group's state nothing that other members change. -/
theorem changesWhen_of_turn {i : Instr} {major : Nat} {b : Body} {iv : Bool} {c : Env → Prop} {k : Env → Thread → Thread}
    {m : Meaning} (hq : major ≠ 0xB4) (he : ∀ s, exec i s = commit (issue major b m) s) (hk : ∀ v x, (k v x).t = x.t)
    (hkt : ∀ (u : Env) fl ths inst, k (u.turn fl ths inst) = k u) (hct : ∀ (u : Env) fl ths inst, c u → c (u.turn fl ths inst))
    (hm : ∀ (v : Env) s, v.b = b → v.th.intv = iv → c v → reject major b = none →
      commit ((m v).finish v) s = .next { s with dev := s.dev.modThread v.r (k v) }) : ChangesWhen i major b iv c k := by
  refine changesWhen_of hq he hk ?_
  rintro u v - hb - hi hc hr - ⟨fl, ths, inst, rfl⟩
  rw [hm (u.turn fl ths inst) _ hb hi (hct u fl ths inst hc) hr, hkt]

theorem Env.branch_element {v : Env} (h : v.th.intv = false) (target : W64) :
    v.branch target = .jump (updT v.r (fun th => th.goTo target th.pc)) := by
  unfold Env.branch
  rw [if_neg (by simp [h])]

/-- A taken branch sets the PC of its thread, and nothing else changes. -/
theorem branch_finish {v : Env} (h : v.th.intv = false) (target : W64) (s : State) :
    commit ((v.branch target).finish v) s = .next { s with dev := s.dev.modThread v.r (fun x => x.taken target) } := by
  rw [Env.branch_element h, jump_finish]
  rfl

/-- Two changes of one thread in a row. -/
theorem commit_updT_updT (r : TRef) (g h : Thread → Thread) (hg : ∀ x, (g x).t = x.t) (s : State) :
    commit ((updT r g).andThen (updT r h)) s = .next { s with dev := s.dev.modThread r (fun x => h (g x)) } := by
  rw [commit_andThen_of_next (commit_updT r g s), commit_updT, Dev.modThread_modThread s.dev r g h hg]

/-- A call sets RETADDR too. -/
theorem call_finish {v : Env} (h : v.th.intv = false) (ra target : W64) (s : State) :
    commit ((v.call ra target).finish v) s =
      .next { s with dev := s.dev.modThread v.r (fun x => ({ x with retaddr := ra } : Thread).taken target) } := by
  have hcall : v.call ra target = .jump ((updT v.r (fun th => { th with retaddr := ra })).andThen
      (updT v.r (fun th => th.goTo target th.pc))) := by
    rw [Env.call, Env.branch_element h]
  rw [hcall, Res.finish]
  rw [commit_andThen_of_next (commit_updT v.r _ s)]
  refine (commit_updT_updT v.r (fun th => { th with retaddr := ra }) (fun th => th.goTo target th.pc) (fun _ => rfl) _).trans ?_
  rw [Dev.modThread_modThread s.dev v.r (fun x => { x with waited := 0 }) _ fun _ => rfl]
  rfl

/-- The target in a register pair. -/
theorem Env.targetPair_element {v : Env} (h : v.th.intv = false) (k : W64 → Res) : v.targetPair k = k (v.v64 v.b.va) := by
  unfold Env.targetPair Env.raw
  simp [h, Raw.of, Env.srcN]

/-! ## Conditions (R162) -/

theorem ity_zero_val (x : W32) : (ity 0).val x.toNat = x.toInt := by
  have hlt := x.isLt
  have hval : (ity 0).val x.toNat = toSigned 32 x.toNat := rfl
  rw [hval, toSigned, BitVec.toInt_eq_toNat_cond, Nat.mod_eq_of_lt hlt]
  split_ifs <;> omega

/-- MOD of BRC selects nz, z, lt, ge (R162). -/
abbrev brcMeets (mod : Nat) (a : Int) : Prop :=
  (mod = 0 ∧ a ≠ 0) ∨ (mod = 1 ∧ a = 0) ∨ (mod = 2 ∧ a < 0) ∨ (mod = 3 ∧ 0 ≤ a)

/-- BRC of an element-mode thread compares a signed value with 0. -/
theorem mBrc_element {v : Env} (h : v.th.intv = false) (hmod : v.h.mod < 4) : mBrc v =
    if brcMeets v.h.mod (v.v32 v.b.va).toInt then v.branch v.target else .done skip := by
  have hraw : (v.raw v.b.va 1).lo = (v.v32 v.b.va).toNat := by simp [Env.raw, h, Raw.of, Env.srcN]
  unfold mBrc
  simp only [h, hraw, ity_zero_val, Bool.false_eq_true, if_false]
  generalize (v.v32 v.b.va).toInt = a
  generalize v.h.mod = mod at *
  interval_cases mod
  · by_cases ha : a = 0 <;> simp [compareInt, brcMeets, Tri.ofBool, ha]
  · by_cases ha : a = 0 <;> simp [compareInt, brcMeets, Tri.ofBool, ha]
  · by_cases ha : a < 0 <;> simp [compareInt, brcMeets, Tri.ofBool, ha]
  · by_cases ha : 0 ≤ a <;> simp [compareInt, brcMeets, Tri.ofBool, ha]

/-- VA of a branch word other than BRC names no register (R162). -/
theorem branch_va {major : Nat} {w : BWord} (h : reject major (.b w) = none) (hmajor : major ≠ 0x02) : w.va = .direct 2047 := by
  obtain ⟨r, hlegal⟩ := reject_none h
  have hnone : r.va = .none := by
    have hrow := hlegal.row
    simp only [rowOf, rowB, rowIf] at hrow
    split at hrow
    · split_ifs at hrow; cases hrow; rfl
    · exact absurd rfl hmajor
    · split_ifs at hrow; cases hrow; rfl
    · cases hrow
  have hfld : fldOk r.va w.h.long w.va = true := hlegal.fields
  rw [hnone] at hfld
  cases hva : w.va with
  | direct k => simpa [fldOk, hva] using hfld
  | rel x d => simp [fldOk, hva] at hfld
  | lit => simp [fldOk, hva] at hfld

end Sys2Proof.Machine

open Sys2Proof Sys2Proof.Machine

/-- Settles O8: each branch by the change that it makes of its own thread. -/
theorem branches_result : Obligations.Branches_result := by
  unfold Obligations.Branches_result
  refine ⟨fun w => ?bra, fun w => ?brc, fun w => ?call, fun w => ?calli, fun w => ?jmpi, fun w => ?ret,
    fun w _ => ⟨BitVec.le_toInt _, BitVec.toInt_lt⟩, fun major w h hmajor => ?va⟩
  case bra =>
    refine changesWhen_of_turn (m := mBra) (by decide) (fun _ => rfl) (fun _ _ => rfl) (fun _ _ _ _ => rfl)
      (fun _ _ _ _ h => h) fun v s hb hi _ _ => ?_
    rw [mBra, branch_finish hi, Env.target, hb]
  case brc =>
    refine changesWhen_of_turn (m := mBrc) (by decide) (fun _ => rfl) (fun v x => ?_) (fun _ _ _ _ => rfl)
      (fun _ _ _ _ h => h) fun v s hb hi _ hr => ?_
    · dsimp only
      split <;> rfl
    · obtain ⟨r, hlegal⟩ := reject_none hr
      have hmod : v.h.mod < 4 := by
        rw [Env.h, hb]
        exact (of_decide_eq_true (Bool.and_eq_true_iff.1 hlegal.range).1).2.2.2
      have hh : v.h = w.h := by rw [Env.h, hb]; rfl
      have hva : v.b.va = w.va := by rw [hb]; rfl
      rw [mBrc_element hi hmod, hh, hva]
      dsimp only
      split
      · rw [branch_finish hi, Env.target, hb]
      · exact skip_finish v s
  case call =>
    refine changesWhen_of_turn (m := mCall) (by decide) (fun _ => rfl) (fun _ _ => rfl) (fun _ _ _ _ => rfl)
      (fun _ _ _ _ h => h) fun v s hb hi _ _ => ?_
    rw [mCall, call_finish hi, Env.target, hb]
  case calli =>
    refine changesWhen_of_turn (m := mCalli) (by decide) (fun _ => rfl) (fun _ _ => rfl) (fun _ _ _ _ => rfl)
      (fun _ _ _ _ h => h) fun v s hb hi _ _ => ?_
    have hpcn : v.pcn = v.th.pc + (if w.h.long then 16 else 8) := by
      rw [Env.pcn, Env.words, Env.h, hb]
      cases hlong : w.h.long <;> simp [Body.h, hlong]
    rw [mCalli, Env.targetPair_element hi, call_finish hi, hpcn, hb]
    rfl
  case jmpi =>
    refine changesWhen_of_turn (m := mJmpi) (by decide) (fun _ => rfl) (fun _ _ => rfl) (fun _ _ _ _ => rfl)
      (fun _ _ _ _ h => h) fun v s hb hi _ _ => ?_
    rw [mJmpi, Env.targetPair_element hi, branch_finish hi, hb]
    rfl
  case ret =>
    refine changesWhen_of_turn (m := mRet) (by decide) (fun _ => rfl) (fun _ _ => rfl) (fun _ _ _ _ => rfl)
      (fun _ _ _ _ h => h) fun v s hb hi hr _ => ?_
    rw [mRet, if_neg hr, branch_finish hi]
  case va => exact branch_va h hmajor
end

section
/-! SUPPORT. Words that one thread issues alone, waits, and operand queues (R128, R253-R256). -/

namespace Sys2Proof.Machine

/-! ## A word issued alone -/

section
variable {s : State} {i : Instr} {major : Nat} {b : Body} {v : Env} {m : Meaning}

/-- A word that changes the device and goes on. -/
theorem Alone.exec_done {e : Eff} {D : Dev → Dev} (h : Alone s major b v) (hexec : exec i s = commit (issue major b m) s)
    (hm : m v.now = .done e) (he : commit e s.begun = .next (s.begun.device D)) : exec i s = .next (s.issueBy v D) := by
  rw [hexec, issue_alone m h, hm]
  exact (commit_andThen_of_next he).trans (commit_updT _ _ _)

/-- A word that is a change of the device. -/
theorem Alone.exec_upd {D : Dev → Dev} (h : Alone s major b v) (hexec : exec i s = commit (issue major b m) s)
    (hm : m v.now = .done (upd D)) : exec i s = .next (s.issueBy v D) := h.exec_done hexec hm rfl

theorem Alone.state (h : Alone s major b v) : v.s = s := by rw [h.env]; rfl
theorem Alone.body (h : Alone s major b v) : v.b = b := by rw [h.env]; rfl
theorem Alone.major_eq (h : Alone s major b v) : v.major = major := by rw [h.env]; rfl

/-- In an element-mode thread a word of two modes runs its element mode. -/
theorem both_element {el iv : Meaning} {v : Env} (h : v.th.intv = false) : both el iv v = el v := by
  rw [both, h]
  rfl

end

/-! ## Waits (R128, R253, R254) -/

theorem wait_stands {s : State} {w : WWord} {v : Env} (h : Stands s 0x19 (.w w) v) (hmet : v.waitMet = true) :
    exec (.wait w) s = .next (s.issueBy v (if w.cpc < 31 then acquireL1 v.r else id)) := by
  have hgo : v.stays = false := by simp [Env.stays, Env.full, loads, h.major, hmet]
  have hi : v.now.th.intv = false := h.element
  have hb : v.now.b = .w w := h.body
  by_cases hc : w.cpc < 31
  · refine (h.alone rfl hgo).exec_upd (m := mWait) rfl ?_
    rw [mWait, both_element hi, if_pos hc]
    simp only [hb, hc, if_true]
    rfl
  · refine (h.alone rfl hgo).exec_done (m := mWait) (e := skip) rfl ?_ ?_
    · rw [mWait, both_element hi]
      simp only [hb, hc, if_false]
    · rw [if_neg hc]
      rfl

/-- A run of set bits, as a number. -/
theorem bits_eq_ones {x l n : Nat} (h : ∀ i < n, x.testBit (l + i) = true) : bits x l n = 2 ^ n - 1 := by
  refine Nat.eq_of_testBit_eq fun i => ?_
  rw [bits, Nat.testBit_mod_two_pow, Nat.testBit_shiftRight, Nat.testBit_two_pow_sub_one]
  by_cases hi : i < n <;> simp [hi, h]

/-- Bits that cover a mask. -/
theorem and_eq_of_covers {x y : Nat} (h : ∀ i, y.testBit i = true → x.testBit i = true) : x &&& y = y := by
  refine Nat.eq_of_testBit_eq fun i => ?_
  rw [Nat.testBit_and]
  cases hy : y.testBit i with
  | false => rw [Bool.and_false]
  | true => rw [h i hy]; rfl

theorem waitbm_stands {s : State} {w : TWord} {v : Env} (h : Stands s 0x1A (.t w) v) (hmet : v.bmMet = true) :
    exec (.waitbm w) s = .next (s.issueBy v (acquireL1 v.r)) := by
  have hgo : v.stays = false := by simp [Env.stays, Env.full, loads, h.major, hmet]
  have hi : v.now.th.intv = false := h.element
  refine (h.alone rfl hgo).exec_upd (m := mWaitbm) rfl ?_
  rw [mWaitbm, both_element hi]
  rfl

theorem bmMet_of_bits {v : Env} {w : TWord} (hb : v.b = .t w)
    (h : if w.h.mod = 0 then ∀ i ≤ w.vb.num, (v.f.m w.vd.num).getLsbD (w.va.num + i) = true
      else ∀ i < 32, (v.v32 w.va).getLsbD i = true → (v.f.m w.vd.num).getLsbD (32 * w.vb.num + i) = true) :
    v.bmMet = true := by
  have hmod : v.h.mod = w.h.mod := by rw [Env.h, hb]; rfl
  unfold Env.bmMet
  simp only [hb, hmod]
  split_ifs at h ⊢
  · exact decide_eq_true (bits_eq_ones fun i hi => h i (Nat.le_of_lt_succ hi))
  · refine decide_eq_true (and_eq_of_covers fun i hi => ?_)
    have hlt : i < 32 := by
      by_contra hge
      exact absurd ((BitVec.getLsbD_of_ge (v.v32 w.va) i (Nat.le_of_not_lt hge)).symm.trans hi) (by decide)
    rw [bits, Nat.testBit_mod_two_pow, Nat.testBit_shiftRight, decide_eq_true hlt, Bool.true_and]
    exact h i hlt hi

/-- A word within whose bounds a counter is not is not ready. -/
theorem Env.ready_of_waits {v : Env} {w : WWord} (hmajor : v.major = 0x19) (hb : v.b = .w w) (hl : v.illegal = false)
    (hg : v.guard = .t) (hi : v.th.intv = false)
    (hc : w.ldc < v.th.cnt.ld ∨ w.stc < v.th.cnt.st ∨ w.cpc < v.th.cnt.cp ∨ w.tlc < v.th.cnt.tl) : v.ready = false := by
  have hmet : v.waitMet = false := by
    unfold Env.waitMet
    rw [hb]
    refine decide_eq_false ?_
    omega
  have hops : v.operands = [] := by rw [Env.operands, hb]; rfl
  have hstays : v.stays = true := by simp [Env.stays, hmajor, hi, hmet]
  have hcross : crossLane v.major = false := by rw [hmajor]; rfl
  have hsup : suppressed v.major = false := by rw [hmajor]; rfl
  simp [Env.ready, hl, hcross, hops, firstBad, hg, hsup, Env.regBad, hstays]

/-- A member that waits at a WAIT stays as it is. -/
theorem changesOwn_waits (m : Meaning) (s : State) (g : Group) (w : WWord) (row : Row) :
    ChangesOwn m s g 0x19 (.w w) row (fun v => v.illegal = false ∧ v.guard = .t ∧ v.th.intv = false ∧
      (w.ldc < v.th.cnt.ld ∨ w.stc < v.th.cnt.st ∨ w.cpc < v.th.cnt.cp ∨ w.tlc < v.th.cnt.tl)) (fun _ x => x) := by
  intro v hv hP
  obtain ⟨fl, ths, inst, e⟩ := hv.eq
  obtain ⟨hl, hg, hi, hc⟩ := hP
  have hready : v.judged.ready = false := by
    rw [e]
    exact Env.ready_of_waits rfl rfl hl hg hi hc
  rw [stepMember_waits (by rw [hready]; rfl), commit_skip, Dev.modThread_id]

/-- Members that stay as they are. -/
theorem eachMember_same (s : State) (g : Group) : s.eachMember g (fun _ _ _ x => x) = s.begun := by
  unfold State.eachMember State.begun
  generalize ({ s.dev with issuing := none } : Dev) = d
  congr 1
  induction g.members generalizing d with
  | nil => rfl
  | cons r rs ih =>
    have hsame : memberChange s g (fun _ _ _ x => x) d r = d := by
      unfold memberChange
      split
      · exact Dev.modThread_id d r
      · rfl
    rw [List.foldl_cons, hsame, ih]

/-! ## Operand queues (R255, R256) -/

theorem spush_stands {s : State} {w : TWord} {v : Env} {q : OpQueue} (h : Stands s 0xB3 (.t w) v)
    (hq : v.f.oq[w.vd.num]? = some q) (hroom : q.items.length < 16) :
    exec (.spush w) s = .next (s.issueBy v (fun d => d.modFlock v.r.core v.r.slot (fun f =>
      { f with oq := f.oq.mapIdx (fun i q => if i = w.vd.num
          then { q with items := q.items ++ [BitVec.ofNat 64 (v.srcN (intRegs w.h.var) w.va)] } else q) }))) := by
  have hqueue : v.queue = q := by
    unfold Env.queue
    simp [h.body, h.major, hq]
  have hgo : v.stays = false := by
    simp [Env.stays, Env.full, loads, h.major, hqueue, hroom]
  have hb : v.now.b = .t w := h.body
  have hvar : v.now.h.var = w.h.var := by rw [Env.h, hb]; rfl
  refine (h.alone rfl hgo).exec_upd (m := mSpush) rfl ?_
  unfold mSpush
  simp only [hb, hvar]
  rfl

theorem qpop_stands {s : State} {w : TWord} {v : Env} {q : OpQueue} {e : W64} (h : Stands s 0xB4 (.t w) v)
    (hacc : v.f.kern.access = true) (hq : v.f.oq[w.va.num]? = some q)
    (he : q.items[v.th.oqpos[w.va.num]?.getD 0 - q.base]? = some e) (hbase : q.base ≤ v.th.oqpos[w.va.num]?.getD 0) :
    exec (.qpop w) s = .next (s.issueBy v (fun d =>
      (d.modThread v.r (fun x => { (x.wrN (intRegs w.h.var) w.vd e.toNat) with
        oqpos := x.oqpos.set w.va.num (v.th.oqpos[w.va.num]?.getD 0 + 1) })).modFlock v.r.core v.r.slot Flock.oqFree)) := by
  have hb : v.now.b = .t w := h.body
  have hmajor : v.now.major = 0xB4 := h.major
  have hi : v.now.th.intv = false := h.element
  have hvar : v.now.h.var = w.h.var := by rw [Env.h, hb]; rfl
  have hqueue : v.now.queue = q := by
    unfold Env.queue
    simp [hb, hmajor, show v.now.f.oq[w.va.num]? = some q from hq]
  have hend : v.now.queueEnd = false := by
    obtain ⟨hlt, -⟩ := List.getElem?_eq_some_iff.1 he
    unfold Env.queueEnd
    simp only [hb, hqueue]
    refine decide_eq_false ?_
    change ¬ q.base + q.items.length ≤ v.th.oqpos[w.va.num]?.getD 0
    omega
  have hgo : v.stays = false := by
    have hend' : v.queueEnd = false := hend
    simp [Env.stays, Env.full, loads, h.major, hend']
  have hpop : mQpop v.now = .done ((updT v.r (fun x => { (x.wrN (intRegs w.h.var) w.vd e.toNat) with
      oqpos := x.oqpos.set w.va.num (v.th.oqpos[w.va.num]?.getD 0 + 1) })).andThen
        (upd (fun d => d.modFlock v.r.core v.r.slot Flock.oqFree))) := by
    rw [mQpop, both_element hi]
    simp only [hb, hend, hvar, hqueue, show v.now.f.kern.access = true from hacc]
    rw [show q.items[v.now.th.oqpos[w.va.num]?.getD 0 - q.base]? = some e from he]
    rfl
  exact (h.alone rfl hgo).exec_done (m := mQpop) rfl hpop (commit_andThen_of_next (commit_updT _ _ _))

end Sys2Proof.Machine

open Sys2Proof Sys2Proof.Machine

/-- Settles O15: each word stands alone and goes on; a member out of its bounds is not ready. -/
theorem waitsAndQueues_result : Obligations.WaitsAndQueues_result := by
  unfold Obligations.WaitsAndQueues_result
  refine ⟨⟨fun s w v h hld hst hcp htl => wait_stands h ?_, fun s w v h hbits => waitbm_stands h (bmMet_of_bits h.body hbits),
    fun s w g row h => ?_⟩, fun s w v q h hq hroom => spush_stands h hq hroom,
    fun s w v q e h hacc hq he hbase => qpop_stands h hacc hq he hbase⟩
  · rw [Env.waitMet, h.body]
    exact decide_eq_true ⟨hld, hst, hcp, htl⟩
  · have hissue := issue_eachMember h (fun _ _ => rfl) (changesOwn_waits mWait s g w row)
    rw [eachMember_same] at hissue
    exact hissue

end

section
/-! SUPPORT. Words of the matrix engine: what they check, and how the engine takes their operation (R127, R232, R235-R246). -/

namespace Sys2Proof.Machine

/-! ## Words with a parameter block -/

section
variable {s : State} {i : Instr} {major : Nat} {b : Body} {v : Env} {m : Meaning}

theorem Alone.flock (h : Alone s major b v) : s.dev.flock? v.r.core v.r.slot = some v.f := (memberOf_some.1 h.stands).1
theorem Alone.thread (h : Alone s major b v) : v.f.thread? v.r.t = some v.th := (memberOf_some.1 h.stands).2.1

theorem Alone.performs_env (h : Alone s major b v) : Performs v := by
  obtain ⟨f, th, hm, hp⟩ := h.performs.each v.r (by simp [h.one])
  obtain ⟨rfl, rfl⟩ : v.f = f ∧ v.th = th := by simpa using h.stands.symm.trans hm
  rwa [← h.env] at hp

/-- A word that sets a wait of its thread and stays. -/
theorem Alone.exec_jump {k : Thread → Thread} (h : Alone s major b v) (hexec : exec i s = commit (issue major b m) s)
    (hm : m v.now = .jump (updT v.r k)) : exec i s = .next (s.changes v (fun y => k { y with waited := 0 })) := by
  rw [hexec, issue_alone m h, hm]
  exact jump_finish v.now k s.begun

/-- A word that takes a trap with a handler. -/
theorem Alone.exec_trap {code sub : Nat} {addr : W64} (h : Alone s major b v) (hexec : exec i s = commit (issue major b m) s)
    (hm : m v.now = .trap code sub addr) (hd : v.delivers) :
    exec i s = .next (s.changes v (fun y => y.deliver v.handler (trapCode code sub) addr v.th.pc)) := by
  rw [hexec, issue_alone m h, hm]
  have hvec : s.begun.dev.trapVec v.f.ctx v.r.t = v.handler := by
    unfold Env.handler
    rw [h.state]
    rfl
  have htrap := commit_trapHere_delivers (s := s.begun) (f := v.f) code sub addr h.flock h.thread h.element hd.1
    (by rw [hvec]; exact hd.2)
  rw [hvec] at htrap
  exact htrap

/-- The metadata queue of a word that performs is not another flock's (R251). -/
theorem Alone.queueTaken (h : Alone s major b v) (hb : hasBlock v.major = true) : v.now.queueTaken = false := by
  have hgo := h.performs_env.goes
  have hcore : ∀ n, s.begun.dev.core n = s.dev.core n := fun _ => rfl
  have hsame : v.now.queueTaken = v.queueTaken := by
    unfold Env.queueTaken Env.now
    simp only [h.state, hcore]
  rw [hsame]
  unfold Env.stays at hgo
  dsimp only at hgo
  rw [Bool.or_eq_false_iff] at hgo
  have hrest := hgo.2
  split at hrest
  case h_6 => 
    simp only [h.element, hb, Bool.not_false, Bool.true_and, Bool.or_eq_false_iff] at hrest
    exact hrest.1.2
  all_goals
    rename_i hm
    rw [hm] at hb
    exact absurd hb (by decide)

end

/-- A list of offsets of which none offends. -/
theorem lowest_eq_none {l : List (Nat × Bool)} : lowest l = none ↔ ∀ x ∈ l, x.2 = false := by
  induction l with
  | nil => simp [lowest]
  | cons x l ih =>
    obtain ⟨o, c⟩ := x
    cases c with
    | true => 
      simp only [lowest]
      split <;> simp_all
    | false => simp [lowest, ih]

/-! ## Matrix words (R130, R232, R235-R242) -/

theorem matrixWords_exec {w : EWord} {major : Nat} {i : Instr} (h : (major, i) ∈ matrixWords w) :
    (∀ s, exec i s = commit (issue major (.e w) mMat) s) ∧ hasBlock major = true := by
  simp only [matrixWords, List.mem_cons, Prod.mk.injEq, List.not_mem_nil, or_false] at h
  rcases h with ⟨rfl, rfl⟩ | ⟨rfl, rfl⟩ | ⟨rfl, rfl⟩ | ⟨rfl, rfl⟩ | ⟨rfl, rfl⟩ | ⟨rfl, rfl⟩ | ⟨rfl, rfl⟩ | ⟨rfl, rfl⟩ |
    ⟨rfl, rfl⟩ | ⟨rfl, rfl⟩ | ⟨rfl, rfl⟩ | ⟨rfl, rfl⟩
  all_goals exact ⟨fun _ => rfl, rfl⟩

/-- Operands without an offending field lie in scratchpads. -/
theorem matBad_none {v : Env} {b : List Byte} {ea eb : Elem} (h : v.matBad b ea eb = none) :
    (∃ x, spadAt v.s.dev v.f (matBlk b).aaddr = some x) ∧ ∃ x, spadAt v.s.dev v.f (matBlk b).baddr = some x := by
  have hall := lowest_eq_none.1 h
  refine ⟨?_, ?_⟩
  · have ha := hall _ (List.mem_cons_self ..)
    cases hs : spadAt v.s.dev v.f (matBlk b).aaddr with
    | some x => exact ⟨x, rfl⟩
    | none => simp [hs] at ha
  · have hb := hall _ (List.mem_cons_of_mem _ (List.mem_cons_self ..))
    cases hs : spadAt v.s.dev v.f (matBlk b).baddr with
    | some x => exact ⟨x, rfl⟩
    | none => simp [hs] at hb

/-- The block, its elements of the width of their formats, its operands outside reduced-format pages. -/
structure MatPlain (v : Env) (b : List Byte) : Prop where
  block : v.blk = some b
  fmtA : v.elems.1.1.badFmt = false
  fmtB : v.elems.2.1.badFmt = false
  pageA : v.mxOperand (matBlk b).aaddr = false
  pageB : v.mxOperand (matBlk b).baddr = false

section
variable {v : Env} {b : List Byte} (hi : v.th.intv = false) (hp : MatPlain v b)
include hi hp

theorem mMat_bad {sub : Nat} (h : v.matBad b v.elems.1.1 v.elems.2.1 = some sub) :
    mMat v = .trap cOPERAND sub v.blkAddr := by
  obtain ⟨hblk, hfa, hfb, hpa, hpb⟩ := hp
  rw [mMat, both_element hi, Env.withBlk, hblk]
  simp only [hfa, hfb, hpa, hpb, h, Bool.false_eq_true, if_false]
  rfl

/-- The operation of a matrix word, with its scales. -/
def Env.matOp (v : Env) (b : List Byte) (q : Nat) (sc : Option (List Byte)) (pa pb : Nat × Nat) : MatOp :=
  { v.newOp v.matKind v.elems.1.1 v.elems.2.1 b pa pb with qs := q, scales := sc }

theorem mMat_good {w : EWord} {sc : Option (List Byte)} (hb : v.b = .e w)
    (h : v.matBad b v.elems.1.1 v.elems.2.1 = none) (hq : v.queueTaken = false)
    (hsc : if w.vd.isVz then sc = none else ∃ bs, v.scales (matBlk b) = .inl bs ∧ sc = some bs) :
    ∃ pa pb, mMat v = v.toMatrix (v.matOp b w.qs sc pa pb) := by
  obtain ⟨hblk, hfa, hfb, hpa, hpb⟩ := hp
  obtain ⟨⟨xa, ha⟩, xb, hb'⟩ := matBad_none h
  refine ⟨xa.1, xb.1, ?_⟩
  rw [mMat, both_element hi, Env.withBlk, hblk]
  simp only [hfa, hfb, hpa, hpb, h, ha, hb', hq, Bool.false_eq_true, if_false]
  have hvd : v.b.vd = w.vd := by rw [hb]; rfl
  rw [hvd, hb]
  cases hz : w.vd.isVz with
  | true =>
    rw [hz, if_pos rfl] at hsc
    rw [hsc]
    rfl
  | false =>
    rw [hz, if_neg (by decide)] at hsc
    obtain ⟨bs, hbs, rfl⟩ := hsc
    simp only [hbs]
    rfl

end

section
variable {s : State} {i : Instr} {major : Nat} {b : Body} {v : Env} {m : Meaning} {o : MatOp}

theorem toMatrix_room (h : Alone s major b v) (hexec : exec i s = commit (issue major b m) s)
    (hm : m v.now = v.now.toMatrix o) (hroom : (s.dev.core v.r.core).mat.length < 32) :
    exec i s = .next (s.issueBy v (toEngine v { o with id := s.dev.nextId })) := by
  have hnot : ¬matRoom ≤ (v.now.s.dev.core v.now.r.core).mat.length := by
    have hs : v.now.s = s.begun := congrArg State.begun h.state
    rw [hs]
    exact Nat.not_le.2 hroom
  rw [Env.toMatrix, if_neg hnot] at hm
  exact h.exec_done hexec hm rfl

theorem toMatrix_full (h : Alone s major b v) (hexec : exec i s = commit (issue major b m) s)
    (hm : m v.now = v.now.toMatrix o) (hfull : 32 ≤ (s.dev.core v.r.core).mat.length) :
    exec i s = .next (s.changes v (fun y => { y with waited := 0, wait := .engine true })) := by
  have hfull' : matRoom ≤ (v.now.s.dev.core v.now.r.core).mat.length := by
    have hs : v.now.s = s.begun := congrArg State.begun h.state
    rw [hs]
    exact hfull
  rw [Env.toMatrix, if_pos hfull'] at hm
  exact h.exec_jump hexec hm

end

/-! ## Accumulator words (R131, R245, R246) -/

theorem accOp_good {v : Env} {b : List Byte} {kind : MatKind} (hi : v.th.intv = false) (hblk : v.blk = some b)
    (hbad : v.accBad b kind = none)
    (hfmt : (accBlk b).efmt = 4 → kind ≠ .accz → (narrowFmt (v.f.freg (accBlk b).afr)).width = 8) :
    ∃ sp, accOp kind v = v.toMatrix { v.newOp kind .f32 .f32 b sp sp with afr := v.f.freg (accBlk b).afr } := by
  refine ⟨((spadAt v.s.dev v.f (accBlk b).saddr).map (·.1)).getD (v.r.core, v.r.slot), ?_⟩
  have hnot : ¬((accBlk b).efmt = 4 ∧ kind ≠ .accz ∧ (narrowFmt (v.f.freg (accBlk b).afr)).width ≠ 8) :=
    fun ⟨he, hk, hw⟩ => hw (hfmt he hk)
  rw [accOp, both_element hi, Env.withBlk, hblk]
  simp only [hbad, if_neg hnot]

theorem accWords_exec {w : EWord} {major : Nat} {i : Instr} {kind : MatKind}
    (h : (major, i, kind) ∈ [(0xAC, Instr.accz w, MatKind.accz), (0xAD, .accdrain w, .drain), (0xAE, .accload w, .load)])
    (s : State) : exec i s = commit (issue major (.e w) (accOp kind)) s := by
  simp only [List.mem_cons, Prod.mk.injEq, List.not_mem_nil, or_false] at h
  rcases h with ⟨rfl, rfl, rfl⟩ | ⟨rfl, rfl, rfl⟩ | ⟨rfl, rfl, rfl⟩
  all_goals rfl

end Sys2Proof.Machine

open Sys2Proof Sys2Proof.Machine

/-- Settles O16: the meaning of each word, by its checks, then the engine's room. -/
theorem engineWords_issue : Obligations.EngineWords_issue := by
  unfold Obligations.EngineWords_issue
  refine ⟨fun s w v i major blk hmem h hblk => ?_, fun s w v i major kind blk hmem h hblk hbad hfmt hroom => ?_⟩
  · intro x e hfa hfb hpa hpb
    obtain ⟨hexec, hhas⟩ := matrixWords_exec hmem
    have hi : v.now.th.intv = false := h.element
    have hplain : MatPlain v.now blk := ⟨hblk, hfa, hfb, hpa, hpb⟩
    refine ⟨fun sub hsub hd => h.exec_trap (hexec s) (mMat_bad hi hplain hsub) hd, fun hnone sc hsc => ?_⟩
    obtain ⟨pa, pb, hm⟩ := mMat_good hi hplain h.body hnone (h.queueTaken (h.major_eq ▸ hhas)) hsc
    exact ⟨fun hroom => ⟨_, rfl, rfl, rfl, rfl, rfl, rfl, rfl, rfl, rfl, rfl, rfl, rfl, toMatrix_room h (hexec s) hm hroom⟩,
      fun hfull => toMatrix_full h (hexec s) hm hfull⟩
  · obtain ⟨sp, hm⟩ := accOp_good (v := v.now) h.element hblk hbad hfmt
    exact ⟨_, rfl, rfl, rfl, rfl, rfl, rfl, rfl, toMatrix_room h (accWords_exec hmem s) hm hroom⟩

end

section
/-! SUPPORT. Copy words: what the copy engine takes, the promised time, and the chunk bits (R132, R231, R234, R247-R251). -/

namespace Sys2Proof.Machine

/-! ## Servers through a clock (R319) -/

/-- A server's place and context are as before. -/
def Server.Same (v v' : Server) : Prop := v'.kind = v.kind ∧ v'.inst = v.inst ∧ v'.ctx = v.ctx

theorem Server.same_wake (v : Server) (t : Nat) : v.Same (v.wake t) := by
  unfold Server.wake
  split <;> exact ⟨rfl, rfl, rfl⟩

theorem Server.same_replenish (v : Server) (t : Nat) (work : Bool) : v.Same (v.replenish t work) := by
  unfold Server.replenish
  split
  · exact ⟨rfl, rfl, rfl⟩
  · dsimp only
    split <;> exact ⟨rfl, rfl, rfl⟩

theorem Server.same_clock (v : Server) (t : Nat) (work : Bool) : v.Same (v.clock t work) := by
  have h := v.same_replenish t work
  unfold Server.clock
  generalize v.replenish t work = u at *
  dsimp only
  split
  · obtain ⟨hk, hi, hc⟩ := u.same_wake t
    exact ⟨hk.trans h.1, hi.trans h.2.1, hc.trans h.2.2⟩
  all_goals exact h

/-- A clock brings no server and takes none. -/
theorem clockServers_server?_none {kind inst kind' inst' ctx : Nat} {work : List Nat} {d : Dev}
    (h : d.server? kind' inst' ctx = none) : (clockServers kind inst work d).server? kind' inst' ctx = none := by
  unfold Dev.server? clockServers at *
  rw [find?_map_keep, h]
  · rfl
  · intro v
    split
    · obtain ⟨hk, hi, hc⟩ := v.same_clock d.srvTime (decide (v.ctx ∈ work))
      rw [hk, hi, hc]
    · rfl

/-! ## Rows of endpoints (R250) -/

/-- Where an endpoint lies does not depend on the chosen group. -/
theorem copyRow_begun (s : State) (f : Flock) (a : W64) : copyRow s.begun f a = copyRow s f a := by
  have hx : ∀ core ctx ptroot va kind, xlat s.begun core ctx ptroot va kind = xlat s core ctx ptroot va kind :=
    fun core ctx ptroot va kind => xlat_flocks s none s.dev.flocks core ctx ptroot va kind
  have hs : steer s.begun.dev f 0 copyAp a.toNat = steer s.dev f 0 copyAp a.toNat := steer_alike rfl rfl rfl 0 copyAp a.toNat
  unfold copyRow
  simp only [hx, hs]

/-! ## The word -/

/-- The offset that an access slice's destination registers add to an address of the block (R234). -/
def Env.moved (v : Env) (vd : Fld) (k : Nat) : W64 :=
  if v.r.t = instId ∧ vd.isVz = false
  then pair (v.th.reg ((vd.index v.th).toNat + k)) (v.th.reg ((vd.index v.th).toNat + k + 1)) else 0

/-- The operation of a copy word. -/
def Env.copyOp (v : Env) (kind : CopyKind) (b : List Byte) (w : EWord) (sad dad : W64) (bw : Nat) : CopyOp :=
  { id := 0, ref := v.r, ctx := v.f.ctx, kind := kind, blk := b, sadr := sad, dadr := dad,
    m := if kind = .q then w.qs else w.aux, after := v.before, targets := copyTargets v.s.dev v.f kind (copyBlk b).mask,
    done := [], held := [], buf := [], placed := 0, regs := v.f.regs, bw := bw }

theorem copyM_good {v : Env} {b : List Byte} {kind : CopyKind} {w : EWord} (hi : v.th.intv = false) (hb : v.b = .e w)
    (hblk : v.blk = some b) (hacc : v.f.kern.access = true → v.r.t = instId)
    (halign : v.r.t = instId → w.vd.isVz = false → w.vd.index v.th % 4 = 0) {sad dad : W64}
    (hsad : sad = BitVec.ofNat 64 (field b 0 8) + v.moved w.vd 0) (hdad : dad = BitVec.ofNat 64 (field b 8 8) + v.moved w.vd 2)
    (hbad : v.copyBad b kind sad dad = none) (hq : v.queueTaken = false)
    (hroom : (v.s.dev.core v.r.core).cpy.length < 64) {row : Nat}
    (hrow : row = max (copyRow v.s v.f sad) (if kind = .q then 0 else copyRow v.s v.f dad)) :
    copyM kind v = .done (v.toCopy (v.copyOp kind b w sad dad (copyRate row).2) (copyRate row).1) := by
  subst hrow
  have hvd : v.b.vd = w.vd := by rw [hb]; rfl
  have hoff (k : Nat) : (if (decide (v.r.t = instId) && !w.vd.isVz) = true
      then pair (v.th.reg ((w.vd.index v.th).toNat + k)) (v.th.reg ((w.vd.index v.th).toNat + k + 1)) else 0) = v.moved w.vd k := by
    unfold Env.moved
    simp only [Bool.and_eq_true, decide_eq_true_eq, Bool.not_eq_true']
  have hrights : (v.f.kern.access && !decide (v.r.t = instId)) = false := by
    cases ha : v.f.kern.access with
    | false => rfl
    | true => simp [hacc ha]
  have hreg : (decide (v.r.t = instId) && !w.vd.isVz && decide (w.vd.index v.th % 4 ≠ 0)) = false := by
    by_cases ht : v.r.t = instId
    · cases hz : w.vd.isVz with
      | true => simp
      | false => simp [halign ht hz]
    · simp [ht]
  rw [copyM, both_element hi]
  simp only [hvd, hrights, hreg, Env.withBlk, hblk, hoff, ← hsad, ← hdad, hbad, hq, copyRoom, Nat.not_le.2 hroom,
    Bool.false_eq_true, if_false]
  simp only [hb]
  rfl

/-! ## The engine takes it -/

/-- The bits of a copy's chunks are cleared in a flock's m register (R249). -/
def clearMs (o : CopyOp) (f : Flock) : Flock := { f with ms := f.ms.set o.m (clearBits (f.m o.m) (copyBlk o.blk).chunks) }

/-- The bits of a copy's chunks are cleared in the m registers of its targets (R249). -/
def clearChunks (o : CopyOp) (d : Dev) : Dev :=
  if o.kind = .q then d else o.targets.foldl (fun d t => d.modFlock t.1 t.2 (clearMs o)) d

/-- The core whose engine has taken a copy, with its promise and, for COPYQ, the binding of the queue. -/
def copyAccepted (v : Env) (o : CopyOp) (p : Nat) (d : Dev) (c : Core) : Core :=
  { c with cpy := c.cpy ++ [{ o with id := d.nextId }], plast := max c.plast p,
           metaq := if o.kind = .q then c.metaq.mapIdx (fun i q =>
               if i = o.m then { q with bound := some (v.r.core, v.r.slot) } else q) else c.metaq }

/-- The device with a copy taken by the engine, before the word's thread changes. -/
def copyQueued (v : Env) (o : CopyOp) (p : Nat) (d : Dev) : Dev :=
  clearChunks o (d.modCore v.r.core (copyAccepted v o p d))

/-- The servers of the engine after the clock of the acceptance. -/
def copyClock (v : Env) (d : Dev) : Dev :=
  clockServers 2 v.r.core (v.f.ctx :: copyWork (d.core v.r.core)) (clockServers 2 v.r.core (copyWork (d.core v.r.core)) d)

/-- The promise that is written. -/
def copyPromise (v : Env) (o : CopyOp) (lat : Nat) (d : Dev) : Nat :=
  promise (copyClock v d) v.r.core v.f.ctx (copyBlk o.blk).bytes lat o.bw

/-- What the promise makes of the word's thread. -/
def Thread.promised (vd : Fld) (p : Nat) (th : Thread) : Thread :=
  { (th.wr64 vd (BitVec.ofNat 64 p)) with cnt := { th.cnt with cp := th.cnt.cp + 1 } }

theorem commit_toCopy (v : Env) (o : CopyOp) (lat : Nat) (s : State) : commit (v.toCopy o lat) s =
    .next (s.device (fun d => { (copyQueued v o (copyPromise v o lat d) (copyClock v d)).modThread v.r
      (Thread.promised v.b.vd (copyPromise v o lat d)) with nextId := (copyClock v d).nextId + 1 })) := rfl

theorem clearChunks_cores (o : CopyOp) (d : Dev) : (clearChunks o d).cores = d.cores := by
  unfold clearChunks
  split
  · rfl
  · induction o.targets generalizing d with
    | nil => rfl
    | cons t ts ih => exact ih _

/-- A change of flocks that leaves their threads. -/
theorem Dev.modFlock_thread? (d : Dev) (r : TRef) (c l : Nat) {k : Flock → Flock}
    (hc : ∀ f, (k f).core = f.core ∧ (k f).slot = f.slot) (hk : ∀ f t, (k f).thread? t = f.thread? t) :
    (d.modFlock c l k).thread? r = d.thread? r := by
  have hf : (d.modFlock c l k).flock? r.core r.slot =
      (d.flock? r.core r.slot).map (fun f => if f.core = c ∧ f.slot = l then k f else f) := by
    unfold Dev.modFlock Dev.flock?
    refine find?_map_keep _ _ _ fun f => ?_
    split
    · simp [hc]
    · rfl
  unfold Dev.thread?
  rw [hf]
  cases d.flock? r.core r.slot with
  | none => rfl
  | some f =>
    simp only [Option.map_some, Option.bind_some]
    split
    · exact hk f r.t
    · rfl

theorem clearChunks_thread? (o : CopyOp) (d : Dev) (r : TRef) : (clearChunks o d).thread? r = d.thread? r := by
  unfold clearChunks
  split
  · rfl
  · induction o.targets generalizing d with
    | nil => rfl
    | cons t ts ih => exact (ih _).trans (d.modFlock_thread? r t.1 t.2 (fun _ => ⟨rfl, rfl⟩) fun _ _ => rfl)

section
variable {v : Env} {o : CopyOp} {p : Nat} {d : Dev}

theorem copyQueued_cpy (h : v.r.core < d.cores.length) :
    ((copyQueued v o p d).core v.r.core).cpy = (d.core v.r.core).cpy ++ [{ o with id := d.nextId }] := by
  unfold copyQueued Dev.core
  rw [clearChunks_cores]
  simp [Dev.modCore, copyAccepted, h]

theorem copyQueued_thread? (r : TRef) : (copyQueued v o p d).thread? r = d.thread? r := clearChunks_thread? _ _ r

/-- COPY clears the bits of its chunks in its own flock. -/
theorem copyQueued_ms {f : Flock} (hk : o.kind = .copy) (ht : o.targets = [(v.r.core, v.r.slot)])
    (hf : d.flock? v.r.core v.r.slot = some f) : ((copyQueued v o p d).flock? v.r.core v.r.slot).map (fun f => f.ms) =
      some (f.ms.set o.m (clearBits (f.m o.m) (copyBlk o.blk).chunks)) := by
  have hq : ¬ o.kind = .q := by rw [hk]; decide
  have hmod := Dev.modFlock_flock? (d.modCore v.r.core (copyAccepted v o p d)) v.r.core v.r.slot (k := clearMs o)
    fun _ => ⟨rfl, rfl⟩
  rw [show (d.modCore v.r.core (copyAccepted v o p d)).flock? v.r.core v.r.slot = some f from hf] at hmod
  unfold copyQueued clearChunks
  rw [if_neg hq, ht, List.foldl_cons, List.foldl_nil, hmod]
  rfl

end

/-- Without a server of the context the promise is the row's (R250). -/
theorem copyPromise_row {v : Env} {o : CopyOp} {lat : Nat} {d : Dev} (h : d.server? 2 v.r.core v.f.ctx = none) :
    copyPromise v o lat d = max (d.ctime + lat) (if d.ctime ≤ (d.core v.r.core).plast then (d.core v.r.core).plast else 0) +
      ceilDiv (copyBlk o.blk).bytes o.bw := by
  unfold copyPromise promise
  rw [show (copyClock v d).server? 2 v.r.core v.f.ctx = none from clockServers_server?_none (clockServers_server?_none h)]
  rfl

theorem Dev.modThread_ms (d : Dev) (r : TRef) (k : Thread → Thread) (c l : Nat) :
    ((d.modThread r k).flock? c l).map (fun f => f.ms) = (d.flock? c l).map (fun f => f.ms) := by
  rw [Dev.modThread_flock?, Option.map_map]
  congr 1
  funext f
  simp only [Function.comp_apply]
  split
  · exact Flock.modThread_ms f r.t k
  · rfl

theorem Thread.promised_t (vd : Fld) (p : Nat) (x : Thread) : (x.promised vd p).t = x.t := Thread.wrN_t x 2 vd p

theorem copyWords_exec {w : EWord} {major : Nat} {i : Instr} {kind : CopyKind}
    (h : (major, i, kind) ∈ [(0xB0, Instr.copy w, CopyKind.copy), (0xB1, .copymc w, .mc), (0xB2, .copyq w, .q)]) :
    (∀ s, exec i s = commit (issue major (.e w) (copyM kind)) s) ∧ hasBlock major = true := by
  simp only [List.mem_cons, Prod.mk.injEq, List.not_mem_nil, or_false] at h
  rcases h with ⟨rfl, rfl, rfl⟩ | ⟨rfl, rfl, rfl⟩ | ⟨rfl, rfl, rfl⟩
  all_goals exact ⟨fun _ => rfl, rfl⟩

/-- The copy engine takes the operation of a word without an offending field. -/
theorem copy_alone {s : State} {v : Env} {i : Instr} {major : Nat} {w : EWord} {kind : CopyKind} {o : CopyOp} {lat : Nat}
    (h : Alone s major (.e w) v) (hexec : exec i s = commit (issue major (.e w) (copyM kind)) s)
    (hm : copyM kind v.now = .done (v.now.toCopy o lat)) :
    exec i s = .next (s.issueBy v (fun d => { (copyQueued v o (copyPromise v o lat d) (copyClock v d)).modThread v.r
      (Thread.promised w.vd (copyPromise v o lat d)) with nextId := (copyClock v d).nextId + 1 })) := by
  have hvd : v.now.b.vd = w.vd := by rw [show v.now.b = .e w from h.body]; rfl
  refine h.exec_done hexec hm ?_
  rw [commit_toCopy, hvd]
  rfl

end Sys2Proof.Machine

open Sys2Proof Sys2Proof.Machine

/-- Settles O17: the word's operation, then what the engine's acceptance leaves in the core, the thread and the flock. -/
theorem copyWords_issue : Obligations.CopyWords_issue := by
  unfold Obligations.CopyWords_issue
  intro s w v i major kind blk hmem h hblk hacc halign moved sad dad hbad hroom hcore
  obtain ⟨hexec, hhas⟩ := copyWords_exec hmem
  have hnow : v.now.s = s.begun := congrArg State.begun h.state
  have hrow : max (copyRow s v.f sad) (if kind = .q then 0 else copyRow s v.f dad) =
      max (copyRow v.now.s v.now.f sad) (if kind = .q then 0 else copyRow v.now.s v.now.f dad) := by
    rw [hnow, copyRow_begun, copyRow_begun]
    rfl
  have hm := copyM_good (v := v.now) h.element h.body hblk hacc halign (sad := sad) (dad := dad) rfl rfl hbad
    (h.queueTaken (h.major_eq ▸ hhas)) (by rw [hnow]; exact hroom) hrow
  generalize max (copyRow s v.f sad) (if kind = .q then 0 else copyRow s v.f dad) = row at hm ⊢
  have hrun := copy_alone h (hexec s) hm
  have hflock : s.begun.dev.flock? v.r.core v.r.slot = some v.f := h.flock
  have hplace : v.f.core = v.r.core ∧ v.f.slot = v.r.slot := by simpa [Dev.flock?] using List.find?_some h.flock
  refine ⟨_, copyPromise v (v.now.copyOp kind blk w sad dad (copyRate row).2) (copyRate row).1 s.begun.dev, _, hrun, rfl, rfl,
    copyQueued_cpy hcore, ⟨rfl, rfl, rfl, rfl, rfl, rfl, rfl⟩, ?_, ?_, ?_⟩
  · have hthread (o : CopyOp) (p : Nat) : (copyQueued v o p (copyClock v s.begun.dev)).thread? v.r = some v.th :=
      (copyQueued_thread? v.r).trans (Dev.thread?_of_flock hflock h.thread)
    refine (Dev.modThread_thread? _ _ (fun x => x.issued v.words) fun _ => rfl).trans ?_
    refine (congrArg (Option.map _) ((Dev.modThread_thread? _ _ _ (Thread.promised_t w.vd _)).trans
      (congrArg (Option.map _) (hthread _ _)))).trans ?_
    simp only [Option.map_some, Thread.promised]
  · exact fun hnone => copyPromise_row hnone
  · rintro rfl
    have htargets : (v.now.copyOp .copy blk w sad dad (copyRate row).2).targets = [(v.r.core, v.r.slot)] := by
      rw [← hplace.1, ← hplace.2]
      rfl
    exact (Dev.modThread_ms _ _ _ _ _).trans ((Dev.modThread_ms _ _ _ _ _).trans (copyQueued_ms rfl htargets hflock))
end

section
/-! SUPPORT. A load of an access slice during whose return its flock's first BAR completes: the BAR releases the access
slice, which then acquires what its core's L1 shows (R170, R234, R436). -/

namespace Sys2Proof.Machine

/-- A load of a scratchpad word by the access slice of the flock at core 0, slot 0. -/
def instLoad : Req :=
  { id := 0, ref := ⟨0, 0, instId⟩, ctx := 0, kind := .ld 4, loc := .spad 0 0 0, n := 4, data := [], dest := 0, ord := 0,
    scope := 0, hint := 0, after := [], performed := false, val := [], l1 := false, dram := false, group := 15, cls := 3,
    stamp := 2 ^ 64 - 1, nc := false }

/-- The access slice, with its load in flight. -/
def loadingInst : Thread := { placeThread instId (BitVec.ofNat 64 placeCode) with cnt := ⟨1, 0, 0, 0⟩ }

/-- The access slice runs while the only thread of its flock waits at the first BAR, with no access of its own in flight; a wide
acquire has moved the floor of the core's L1 to 1. -/
def releaseState : State :=
  State.reset.device (fun d =>
    { (d.modCore 0 (fun c => { c with floor := 1 })) with
      flocks := [{ placeFlock with
        threads := [{ placeThread 0 (BitVec.ofNat 64 placeCode) with wait := .bar }],
        inst := some loadingInst }],
      reqs := [instLoad], nextId := 1 })

theorem releaseState_due : releaseState.dev.due 0 = some instLoad := by decide

theorem releaseState_inst : releaseState.dev.thread? ⟨0, 0, instId⟩ = some loadingInst := by decide

/-- What LOAD_RETURN of request 0 does. -/
def returnZero (fill : Bool) : Eff :=
  (performDirect 0).andThen (look fun s => withE (s.dev.req? 0) fun q =>
    if q.performed && !q.dram && (q.kind.isLoad || q.kind == .pref) then returnReq q fill else skip)

theorem exec_loadReturn_zero (fill : Bool) (s : State) : exec (.loadReturn 0 fill) s = commit (returnZero fill) s := rfl

/-- The access slice's own floor follows the core's: the first BAR has released it. -/
theorem releaseState_floor :
    ((releaseState.apply (returnZero false releaseState)).dev.thread? ⟨0, 0, instId⟩).map (fun x => x.l1floor) = some 1 := by
  decide

end Sys2Proof.Machine

open Sys2Proof Sys2Proof.Machine

/-- Refutes O23, in its clause on loads that perform as they return: as the load of an access slice performs, the first BAR
of its flock may complete, and that BAR changes the access slice, which does not wait at a barrier: it takes over the stores
and the L1 floor of its core. -/
theorem not_performed_result : ¬ Obligations.Performed_result := by
  unfold Obligations.Performed_result
  rintro ⟨⟨-, hdirect, -⟩, -⟩
  obtain ⟨t, ht, -, -, -, hsame⟩ := hdirect releaseState 0 instLoad _ false releaseState_due rfl rfl (.inr ⟨4, rfl⟩)
    (fun _ h => nomatch h) rfl (fun h => nomatch h) (.inl rfl) releaseState_inst rfl
  have hfloor := releaseState_floor
  rw [exec_loadReturn_zero] at ht
  obtain ⟨-, rfl⟩ := commit_next.1 ht
  have hthread := hsame (by decide) (by decide)
  rw [show instLoad.ref = ⟨0, 0, instId⟩ from rfl] at hthread
  rw [hthread] at hfloor
  exact absurd hfloor (by decide)
end
